-- ==== Sys2Proof/Word.lean ====
section
/-! DEFINITION. The word types of the KB-180 and the plainest arithmetic on its counters. -/

namespace Sys2Proof

/-- One byte of memory, of a bus lane or of a card block. -/
abbrev Byte := BitVec 8

/-- A 32-bit word of the host bus. -/
abbrev Word := BitVec 32

/-- A counter said to saturate (00, Conventions) stops at its largest value. -/
def satAdd (max n k : Nat) : Nat := min max (n + k)

/-- A 32-bit count that wraps. -/
def wrapSucc (n : Nat) : Nat := (n + 1) % 4294967296

/-- The largest value of a counter of 8, 16 and 32 bits. -/
abbrev max8 : Nat := 255
abbrev max16 : Nat := 65535
abbrev max32 : Nat := 4294967295

end Sys2Proof
end

