-- ==== Sys2Proof/Syntax.lean ====
section
/-! DEFINITION. The commands of the KB-180: one constructor of `Instr` for each row of spec/opcode_table.json,
in the table's order, with the row's operands. -/

namespace Sys2Proof

/-- One data beat of a host write burst (R53, R54): four bytes, their enables and their parity bits. -/
structure WriteBeat where
  data    : BitVec 32
  enables : BitVec 4
  parity  : BitVec 4
  deriving DecidableEq, Repr

/-- A burst as the host presents it in its address phase (R53). -/
inductive HostBurst where
  /-- a read of `count` beats -/
  | read (addr : BitVec 32) (count : Nat)
  /-- a write of the beats given -/
  | write (addr : BitVec 32) (beats : List WriteBeat)
  deriving DecidableEq, Repr

/-- The token a card gives for a block it was sent (R173). -/
inductive WriteToken where
  | accept | crcBad | writeFail
  deriving DecidableEq, Repr

/-- The arguments of SET_MONITOR (R151, 11 section 11.6): the selection of groups and every group's arguments. -/
structure MonitorArgs where
  selection  : BitVec 8
  tempSlope  : BitVec 16
  tempOffset : BitVec 16
  battSlope  : BitVec 16
  battOffset : BitVec 16
  cardSlope  : BitVec 16
  cardOffset : BitVec 16
  warn       : BitVec 16
  limit      : BitVec 16
  armFloor   : BitVec 32
  critFloor  : BitVec 32
  interval   : BitVec 32
  deriving DecidableEq, Repr

/-- A host request with its arguments, as a ring entry names it (11 section 11.6). -/
inductive Request where
  | setSlots (size : BitVec 32)
  | loadProfile (id : BitVec 8) (addr : BitVec 32)
  | loadDefects (addr count : BitVec 32)
  | clearFound
  | arm (profile mode : BitVec 8) (keep darkCal : Bool) (debounce waitLimit duration timestamp : BitVec 32)
  | abort
  | discard (shot : BitVec 32)
  | release (shot : BitVec 32)
  | retire (shot : BitVec 32)
  | readCard (block count dest : BitVec 32) (tag : BitVec 16)
  | formatCard
  | resetCard
  | clearErrlog
  | injectCheck (addr : BitVec 32) (mask : BitVec 8)
  | setMonitor (args : MonitorArgs)
  | setEvents (enables : BitVec 32)
  | standby
  deriving DecidableEq, Repr

/-- The commands, one constructor for each row of the table of operations and events. -/
inductive Instr where
  -- host requests
  | setSlots (size : BitVec 32)
  | loadProfile (id : BitVec 8) (addr : BitVec 32)
  | loadDefects (addr count : BitVec 32)
  | clearFound
  | arm (profile mode : BitVec 8) (keep darkCal : Bool) (debounce waitLimit duration timestamp : BitVec 32)
  | abort
  | discard (shot : BitVec 32)
  | release (shot : BitVec 32)
  | retire (shot : BitVec 32)
  | readCard (block count dest : BitVec 32) (tag : BitVec 16)
  | formatCard
  | resetCard
  | clearErrlog
  | injectCheck (addr : BitVec 32) (mask : BitVec 8)
  | setMonitor (args : MonitorArgs)
  | setEvents (enables : BitVec 32)
  | standby
  -- the request engine and the status block
  | requestTailWordWrite (value : BitVec 32)
  | eventClearWordWrite (value : BitVec 32)
  | requestDispatch
  | completionWriteDone
  | statusPieceWrite
  | statusPieceWriteDone
  -- the memory path, the readout and the arbiter
  | hostBurst (burst : HostBurst)
  | writeBurstDelivery
  | readoutIdleExpiry
  | dramGrant
  | hostReadComplete
  | partReadComplete
  | profileImageJudged
  | defectListReplace
  | defectMirrorRewriteDone
  | scrubPaceExpiry
  | scrubReadComplete
  -- the exposure
  | quietAckRise
  | quietAckFall
  | quietWaitExpiry
  | flushTimeExpiry
  | settleTimeExpiry
  /-- `first` is the time-base value of the first closed sample of the run (R35) -/
  | syncClosureAccepted (first : BitVec 32)
  /-- `first` is the time-base value of the first open sample of the run (R36) -/
  | syncReleaseAccepted (first : BitVec 32)
  | syncRejectedPulse
  | waitLimitExpiry
  | exposureLimitExpiry
  | windowEnd
  | timedDurationExpiry
  | tailTimeExpiry
  | snsReadPulseEnd
  -- the Analog Monitor
  | sampleTimerExpiry
  | conversionStart
  | conversionComplete (code : BitVec 12)
  -- the card
  | cardRailPollTick
  | rampTimerExpiry
  | dischargeTimerExpiry
  | cardInsertion
  | cardRemoval
  | cardOvercurrent
  | cardRunIssue
  | identResponse (crcGood : Bool) (capacity : BitVec 32)
  | cardResponse (good : Bool)
  | cardBlockReceived (data : List Byte) (crc : BitVec 16)
  | cardWriteToken (token : WriteToken)
  | cardBusyRelease
  | responseTimeout
  | busyTimeout
  | cardNextWork
  | cardReadResultWrite
  -- standby, power and reset
  | standbyEntryDrained
  | cardDetectWake
  | wakeDramReady
  | powerOnReset
  | fillComplete
  | pinResetAssert
  | pinResetRelease
  deriving DecidableEq, Repr

end Sys2Proof
end

