-- ==== Sys2Proof/Config.lean ====
section
/-! DEFINITION. The constants of the part: addresses of the DRAM's areas (R1, R57, 11 section 11.5) and the fixed
levels and times of its chapters. -/

namespace Sys2Proof.Config

/-- First address above the DRAM (R55). -/
abbrev dramTop : Nat := 0x40000000
/-- The frame region (R1). -/
abbrev frameBase : Nat := 0x10000000
abbrev frameEnd : Nat := 0x3F000000
abbrev mib : Nat := 1048576
/-- The control region (11 section 11.5). -/
abbrev statusBase : Nat := 0x3F000000
abbrev tailWord : Nat := 0x3F001000
abbrev clearWord : Nat := 0x3F001004
abbrev ringBase : Nat := 0x3F002000
abbrev shotMirror : Nat := 0x3F003000
abbrev errorMirror : Nat := 0x3F004000
abbrev errorMirrorEnd : Nat := 0x3F005000
abbrev mapMirror : Nat := 0x3F010000
abbrev stagingBase : Nat := 0x3F020000

/-- The safe and good levels of the card rail in mV (R146, R161, R162). -/
abbrev safeLevel : Int := 300
abbrev goodLevel : Int := 2900

/-- Times in microseconds. -/
abbrev samplePeriod : Nat := 10
abbrev scrubPace : Nat := 64
abbrev conversionTime : Nat := 40
abbrev rampTime : Nat := 20000
abbrev dischargeTime : Nat := 500000
abbrev responseTime : Nat := 10000
abbrev busyTime : Nat := 250000

/-- The bytes of a command frame of the card bus that its CRC-16 covers: the kind (1 IDENT, 2 READ_RUN, 3 WRITE_RUN), the
start block and the count. A free value: R170 gives every frame a CRC and the spec lays out no frame (log 59). -/
opaque commandFrame (kind start count : Nat) : List Byte

/-- The debounce in use while no shot is in ARMING, WAITING or EXPOSING, in samples (R35). -/
abbrev idleDebounce : Nat := 10

/-- The largest number of defect map entries (R114). -/
abbrev mapLimit : Nat := 8192

end Sys2Proof.Config
end

