-- ==== Sys2Proof/Machine/State.lean ====
section
/-! DEFINITION. Everything the spec gives the part to hold, block by block, as plain data, and its values after
power-on reset. -/

namespace Sys2Proof.Machine

/-! ### Memory (chapters 3 and 7) -/

/-- The DRAM: data bytes by address, and the 8 check bits of each codeword by the codeword's address. Both lists are
in canonical form (strictly rising keys, no zero value); what is not listed is zero, as the power-on fill leaves it
(R64). -/
structure Memory where
  data  : List Host.Cell
  check : List Host.Cell
  deriving DecidableEq, Repr

/-! ### Shot Table (chapter 1) -/

/-- The phases of a record (R10). -/
inductive Phase where
  | arming | waiting | exposing | reading | held | storing | stored | expired | aborted | discarded | calibrated
  deriving DecidableEq, Repr

/-- The states of a slot (R4). -/
inductive SlotState where
  | free | armed | readout | held | draining | retained
  deriving DecidableEq, Repr

inductive ShotMode where
  | span | window | timed
  deriving DecidableEq, Repr

inductive ExposureSource where
  | syncSpan | window | timed | limit | early | abort
  deriving DecidableEq, Repr

inductive StoreResult where
  | none | stored | removed | writeFail | cardFull | parked
  deriving DecidableEq, Repr

/-- The ten flags of a record (R7). -/
structure RecordFlags where
  keep        : Bool := false
  darkCal     : Bool := false
  earlySync   : Bool := false
  quietMissed : Bool := false
  quietBroken : Bool := false
  tempWarn    : Bool := false
  incomplete  : Bool := false
  damaged     : Bool := false
  abortedOpen : Bool := false
  limited     : Bool := false
  deriving DecidableEq, Repr

/-- The statistics of conditioning (R8, R104): a record's fields, and the PCE's accumulators for them. -/
structure Stats where
  lines        : Nat := 0
  gaps         : Nat := 0
  behind       : Nat := 0
  partials     : Nat := 0
  clipped      : Nat := 0
  substituted  : Nat := 0
  blackRejects : Nat := 0
  heldBlack    : Nat := 0
  blackMin     : Option Nat := none
  blackMax     : Option Nat := none
  histogram    : List Nat := List.replicate 16 0
  deriving DecidableEq, Repr

/-- A shot record (R7) with its table position (R9) and its line pitch (R84). -/
structure ShotRecord where
  entry          : Nat
  shot           : Nat
  phase          : Phase
  slot           : Option Nat
  profile        : Nat
  mode           : ShotMode
  flags          : RecordFlags
  timestamp      : Nat
  integration    : Option Nat := none
  exposure       : Option Nat := none
  source         : Option ExposureSource := none
  tempStart      : Option Int := none
  tempEnd        : Option Int := none
  battery        : Option Int := none
  dark           : Nat := 0
  rejected       : Nat := 0
  early          : Nat := 0
  violations     : Nat := 0
  missed         : Nat := 0
  stats          : Stats := {}
  corrected      : Nat := 0
  uncorrectable  : Nat := 0
  containerStart : Option Nat := none
  containerLen   : Option Nat := none
  store          : StoreResult := .none
  pitch          : Option Nat := none
  deriving DecidableEq, Repr

/-- The Shot Table (R22): slot size, slot states, retained order, records in arm order, next shot number. -/
structure Stb where
  slotSize : Nat
  slots    : List SlotState
  retained : List Nat
  records  : List ShotRecord
  nextShot : Nat
  deriving DecidableEq, Repr

/-! ### Exposure Sequencer (chapter 2) -/

/-- The sequencer states, FLUSHING in its two stages (R23). -/
inductive SeqState where
  | idle | quieting | flush | settle | waiting | opened | tail
  deriving DecidableEq, Repr

/-- A run of equal samples at SYNC_IN that differs from the accepted state (R35). -/
structure SyncRun where
  closed : Bool
  length : Nat
  first  : Nat
  deriving DecidableEq, Repr

/-- The sync filter (R35). -/
structure SyncFilter where
  closed   : Bool
  run      : Option SyncRun
  debounce : Nat
  deriving DecidableEq, Repr

/-- The shot the sequencer runs, its applied parameters (R27) and the instants it has recorded (R25). -/
structure Exposure where
  shot      : Nat
  profile   : Nat
  mode      : ShotMode
  debounce  : Nat
  waitLimit : Nat
  duration  : Nat
  /-- the accepted state was CLOSED at the ARM and has not opened since (R39) -/
  closedBefore : Bool
  entry     : Nat := 0
  start     : Nat := 0
  accepted  : Nat := 0
  stop      : Nat := 0
  early     : Bool := false
  deriving DecidableEq, Repr

/-- The Exposure Sequencer (R52). Timers hold the microseconds left. -/
structure Exs where
  seq       : SeqState
  current   : Option Exposure
  timer     : Option Nat
  quietReq  : Bool
  snsFlush  : Bool
  snsInteg  : Bool
  readyOut  : Bool
  snsRead   : Bool
  pulse     : Option Nat
  timeBase  : Nat
  sync      : SyncFilter
  missed    : Nat
  deriving DecidableEq, Repr

/-! ### Host Memory Port (chapter 3) -/

/-- The path states (R66). -/
inductive PathState where
  | filling | run | entering | standby | waking
  deriving DecidableEq, Repr

inductive WakeCause where
  | none | hostAccess | sync | cardDetect
  deriving DecidableEq, Repr

inductive ResetCause where
  | powerOn | pin
  deriving DecidableEq, Repr

/-- One in-range beat of a posted burst (R58). -/
structure PostedBeat where
  addr    : Nat
  data    : BitVec 32
  enables : BitVec 4
  deriving DecidableEq, Repr

/-- A posted-write buffer in use (R58): the burst, its parity mark, and, once it has been delivered, whether its
pass-through part still waits for a grant and which capture beats the PCE is holding back (R59). -/
structure Posted where
  id        : Nat
  beats     : List PostedBeat
  parity    : Bool
  delivered : Bool := false
  passWaits : Bool := false
  heldBeats : List PostedBeat := []
  deriving DecidableEq, Repr

/-- A host read that waits for posted bursts it touches (R60). -/
structure WaitingRead where
  addr  : Nat
  count : Nat
  after : List Nat
  deriving DecidableEq, Repr

/-- What the HMP last answered on the bus (R53, R54): OK or ERROR, and for a read its beats with their parity. -/
structure Response where
  write : Bool
  error : Bool
  beats : List (BitVec 32 × BitVec 4)
  deriving DecidableEq, Repr

/-- The Host Memory Port (R70). -/
structure Hmp where
  path       : PathState
  wake       : WakeCause
  queue      : List Posted
  waiting    : List HostBurst
  reads      : List WaitingRead
  guardDrops : Nat
  outOfRange : Nat
  response   : Option Response
  nextId     : Nat
  sleepAsked : Bool
  deriving DecidableEq, Repr

/-! ### Frame Memory Controller (chapters 3 and 7) -/

/-- The sources of the DRAM port, the part's five in their round-robin order (R62). -/
inductive Source where
  | host | rqe | cde | scrubber | prs | dfm
  deriving DecidableEq, Repr

/-- What a transaction of the DRAM port is for (R62). -/
inductive TxnKind where
  | hostRead (count : Nat)
  | hostWrite
  | captureWrite
  | entryRead
  | completionWrite
  | pieceWrite (piece : Nat)
  | mirrorWrite
  | slotRead
  | cardWrite
  | scrubRead
  | scrubRewrite (data : BitVec 64)
  | imageRead
  | listRead
  | mapWrite
  /-- a slot read in progress whose drain has ended: it completes, and nobody takes its bytes -/
  | lostRead
  deriving DecidableEq, Repr

/-- A transaction presented to the arbiter: `len` bytes from `addr`, and for a write whose content is fixed when it is
presented, the bytes it writes. -/
structure Txn where
  kind   : TxnKind
  addr   : Nat
  len    : Nat
  bytes  : List Host.Cell := []
  parity : Bool := false
  deriving DecidableEq, Repr

/-- Pass-over counts of the part sources (R62). -/
structure PassOver where
  rqe      : Nat := 0
  cde      : Nat := 0
  scrubber : Nat := 0
  prs      : Nat := 0
  dfm      : Nat := 0
  deriving DecidableEq, Repr

inductive ErrorClass where
  | uncorrectable | poisoned | portParity
  deriving DecidableEq, Repr

inductive ErrorSource where
  | hostRead | hostRmw | captureRmw | drain | scrub | cardReadMerge | request
  deriving DecidableEq, Repr

/-- An entry of the error log (R135). -/
structure LogEntry where
  addr     : Nat
  syndrome : BitVec 8
  cls      : ErrorClass
  source   : ErrorSource
  hits     : Nat
  shot     : Option Nat
  deriving DecidableEq, Repr

/-- A scrub step in flight (R142, R144): its codeword, whether it serves the corrected-address queue, and, once its
read has called for a rewrite, the watch with its mark. -/
structure ScrubStep where
  addr   : Nat
  queued : Bool
  watch  : Option Bool
  deriving DecidableEq, Repr

/-- The Frame Memory Controller (R139) and its arbiter (R62). -/
structure Fmc where
  pending       : List Txn
  active        : Option Txn
  passOver      : PassOver
  nextPart      : Source
  errlog        : List LogEntry
  overflow      : Nat
  corrGeneral   : Nat
  corrFrame     : Nat
  corrControl   : Nat
  uncorrectable : Nat
  corrected     : List Nat
  injection     : Option (Nat × BitVec 8)
  scrubPos      : Nat
  passes        : Nat
  pace          : Nat
  scrub         : Option ScrubStep
  logUpdate     : Nat
  deriving DecidableEq, Repr

/-! ### Profile Store (chapter 4) -/

inductive Bayer where
  | rggb | grbg | gbrg | bggr
  deriving DecidableEq, Repr

/-- A profile image, items 1 to 20 (04 section 4.2). -/
structure Profile where
  masked       : Nat
  width        : Nat
  lines        : Nat
  bayer        : Bayer
  nominalBlack : Nat
  tolerance    : Nat
  pedestal     : Nat
  whiteClip    : Nat
  hot          : Nat
  quietWait    : Nat
  flushTime    : Nat
  settleTime   : Nat
  tailTime     : Nat
  idleLimit    : Nat
  sx           : Nat
  sy           : Nat
  gc           : Nat
  gr           : Nat
  dark         : List Nat
  gains        : List Nat
  deriving DecidableEq, Repr

/-- An entry of the store (R71). -/
structure ProfileEntry where
  live    : Option Profile
  waiting : Option Profile
  deriving DecidableEq, Repr

/-- A LOAD_PROFILE in progress (R72): the bytes read so far, the image once its whole text has been read. -/
structure ProfileLoad where
  id    : Nat
  addr  : Nat
  bytes : List Byte
  image : Option Profile
  deriving DecidableEq, Repr

structure Prs where
  entries : List ProfileEntry
  load    : Option ProfileLoad
  deriving DecidableEq, Repr

/-! ### Pixel Conditioning Engine (chapter 5) -/

/-- One pixel of a word the PCE has taken: not received, a settled value, or covered and waiting for substitution. -/
inductive PixelSlot where
  | absent | value (y : Nat) | covered
  deriving DecidableEq, Repr

/-- The word waiting in the line hold buffer (R102), its two entries, the developed values of its left neighbours, and
the parity mark of its burst. -/
structure HeldWord where
  offset : Nat
  line   : Nat
  x      : Nat
  even   : PixelSlot
  odd    : PixelSlot
  leftEven : Option Nat
  leftOdd  : Option Nat
  parity : Bool
  deriving DecidableEq, Repr

/-- The last word taken, for the left neighbours of the next (R101). -/
structure LastWord where
  offset : Nat
  even   : Option Nat
  odd    : Option Nat
  deriving DecidableEq, Repr

/-- The line-black accumulator (R91): counts and sums of the two column parities of one line. -/
structure BlackAcc where
  line  : Nat
  nEven : Nat := 0
  sEven : Nat := 0
  nOdd  : Nat := 0
  sOdd  : Nat := 0
  deriving DecidableEq, Repr

/-- The black a line has settled at (R92). -/
structure LineBlack where
  line : Nat
  even : Nat
  odd  : Nat
  deriving DecidableEq, Repr

/-- The readout the PCE is running (R85). -/
structure Readout where
  shot      : Nat
  slot      : Nat
  image     : Profile
  cursor    : Nat
  heldEven  : Nat
  heldOdd   : Nat
  acc       : Option BlackAcc
  settled   : Option LineBlack
  dark      : Option Nat
  wait      : Option HeldWord
  last      : Option LastWord
  stats     : Stats
  /-- the readout has ended and waits for the mirror rewrite of its calibration (R126); whether it ended INCOMPLETE -/
  ending    : Option Bool
  deriving DecidableEq, Repr

/-- The engine: IDLE without a readout, OFFSET_PENDING until its dark offset is known, else DEVELOPING (R85). -/
structure Pce where
  readout : Option Readout
  idle    : Option Nat
  deriving DecidableEq, Repr

/-! ### Defect Map (chapter 6) -/

/-- An entry of the map (R113); a POINT has no length. -/
structure DefectEntry where
  row    : Nat
  column : Nat
  length : Option Nat
  found  : Bool
  deriving DecidableEq, Repr

/-- A LOAD_DEFECTS in progress (R117): the entries read and passed so far. -/
structure DefectLoad where
  addr   : Nat
  count  : Nat
  passed : List DefectEntry
  deriving DecidableEq, Repr

/-- A mirror rewrite in progress (R115): the next position to write and the position after the last. -/
structure MapRewrite where
  next : Nat
  stop : Nat
  deriving DecidableEq, Repr

/-! ### Requests and reports (chapter 11) -/

/-- The completion codes (R199). -/
inductive Code where
  | done | started | busy | badRequest | noSlot | noProfile | slotTooSmall | tooHot | lowBattery | notFound
  | cardAbsent | cardNotReady | memError
  deriving DecidableEq, Repr

/-- An owner's answer: a code and the result bytes from byte 104 of the entry on (R198). -/
structure Answer where
  code   : Code
  result : List Byte := []
  deriving DecidableEq, Repr

/-- The Defect Map (R114). -/
structure Dfm where
  entries   : List DefectEntry
  drops     : Nat
  sequence  : Nat
  load      : Option DefectLoad
  rewrite   : Option MapRewrite
  waiting   : Option Request
  owed      : Option Answer
  cursor    : Nat
  firstIns  : Option Nat
  insLine   : Nat
  fullRaised : Bool
  deriving DecidableEq, Repr

/-- What is still to be written before something may follow (R115, R138, R201): how many mirror writes, which pieces of the
status block, and whether one of those pieces is being written. -/
structure Hold where
  jobs    : Nat
  pieces  : List Nat
  writing : Bool
  deriving DecidableEq, Repr

/-- How far a request in service has come (R197, R198). -/
inductive Stage where
  /-- the entry is being read: the bytes read so far, and whether a read was poisoned or uncorrectable -/
  | reading (bytes : List Byte) (bad : Bool)
  /-- handed to its owner -/
  | handed (request : Request)
  /-- judged by its owner, whose answer waits for writes (R115, R138) -/
  | answering (answer : Answer) (hold : Hold)
  /-- answered; its completion is being written -/
  | answered (answer : Answer)
  deriving DecidableEq, Repr

/-- The request in service. `index` is its ring entry; none for a request its sender gave the owner directly (log 3). -/
structure Service where
  index : Option Nat
  tag   : Nat
  stage : Stage
  deriving DecidableEq, Repr

/-- A watched word as the RQE observes it (R61). -/
inductive Observed where
  | tail (value : Nat)
  | clear (value : Nat)
  deriving DecidableEq, Repr

/-- The event flags, by their bit numbers (11 section 11.5). -/
inductive EventFlag where
  | exposed | held | stored | expired | missedSync | cardInserted | cardRemoved | cardReadDone | memCorrected
  | memUncorrectable | guard | ringFault | mapFull | profileApplied | tempAlarm | batteryAlarm | cardFault | cardFull
  deriving DecidableEq, Repr

/-- One occurrence of an event that its owner has still to raise (R201): what must be written first. It is none until
the command that called for the raise has ended. -/
structure Raise where
  flag : EventFlag
  hold : Option Hold
  deriving DecidableEq, Repr

/-- A part-owned record still to be written into the control region (R206, R137). -/
inductive MirrorJob where
  /-- a shot table mirror entry with its update number, in four transactions; `chunk` of them have been made -/
  | shotEntry (entry : Nat) (content : Option ShotRecord) (update chunk : Nat)
  /-- an error log entry position -/
  | errorEntry (position : Nat) (content : Option LogEntry)
  /-- the error log header: update number, entry count and overflow counter -/
  | errorHeader (update count overflow : Nat)
  deriving DecidableEq, Repr

/-- The Request Engine (R195, R200, R201). `raises` are the occurrences whose owners wait for writes, `made` the flags
raised in the image and not set yet, `carried` those of them that the write of piece 0 in progress carries. -/
structure Rqe where
  head         : Nat
  tail         : Nat
  completionNo : Nat
  ringFaults   : Nat
  service      : Option Service
  lastAnswer   : Option Answer
  observed     : List Observed
  flags        : BitVec 18
  enables      : BitVec 18
  attn         : Bool
  raises       : List Raise
  made         : List EventFlag
  carried      : List EventFlag
  marked       : List Nat
  jobs         : List MirrorJob
  updates      : List Nat
  resetCause   : ResetCause
  deriving DecidableEq, Repr

/-! ### Analog Monitor (chapter 8) -/

inductive Channel where
  | temp | batt | card
  deriving DecidableEq, Repr

inductive TempLevel where
  | normal | warn | limit
  deriving DecidableEq, Repr

inductive BattLevel where
  | normal | low | critical
  deriving DecidableEq, Repr

/-- The settings SET_MONITOR changes (R146, R151). -/
structure MonitorSettings where
  tempSlope  : Int := 1000
  tempOffset : Int := -200
  battSlope  : Int := 16000
  battOffset : Int := 0
  cardSlope  : Int := 4096
  cardOffset : Int := 0
  warn       : Int := 180
  limit      : Int := 240
  armFloor   : Int := 6400
  critFloor  : Int := 6000
  interval   : Nat := 100
  deriving DecidableEq, Repr

/-- An on-demand request (R148). -/
inductive Demand where
  | tempStart (shot : Nat)
  | tempEnd (shot : Nat)
  | card
  deriving DecidableEq, Repr

/-- A conversion in progress (R148, R150). -/
structure Conversion where
  channel : Channel
  demand  : Option Demand
  stands  : Bool
  left    : Nat
  deriving DecidableEq, Repr

/-- The Analog Monitor (R146). A channel's value is kept beside its valid flag. -/
structure Amn where
  settings  : MonitorSettings
  next      : Option MonitorSettings
  temp      : Option Int
  batt      : Option Int
  card      : Option Int
  tempValid : Bool
  battValid : Bool
  cardValid : Bool
  tempLevel : TempLevel
  battLevel : BattLevel
  sampleTimer : Nat
  sweep     : Option Channel
  queue     : List Demand
  conv      : Option Conversion
  stopAsked : Bool
  stopped   : Bool
  deriving DecidableEq, Repr

/-! ### Card Engine (chapters 9 and 10) -/

inductive CardState where
  | absent | discharging | powering | identifying | mounting | ready | writing | reading | parked | unformatted | fault
  deriving DecidableEq, Repr

inductive RailState where
  | off | discharging | ramping | on
  deriving DecidableEq, Repr

inductive BusLines where
  | highZ | low | driven
  deriving DecidableEq, Repr

inductive FaultCause where
  | none | ramp | discharge | overcurrent | ident | timeout | writeFail
  deriving DecidableEq, Repr

/-- What the CDE goes on to when a discharge ends (R164, R175). -/
inductive DischargeFor where
  | removal | powerUp | park | fault | cycle
  deriving DecidableEq, Repr

/-- A power-up before its power-up proper (R161): for its first reading, or for QUIET_REQ to fall. -/
inductive PowerUp where
  | reading | quiet
  deriving DecidableEq, Repr

/-- IDENT: waiting to be sent, or sent (R163). -/
inductive IdentStage where
  | waiting | sent
  deriving DecidableEq, Repr

/-- Why an IDENT in progress is allowed to complete with its result discarded (R167, R169). -/
inductive IdentDrop where
  | park | reset
  deriving DecidableEq, Repr

inductive RunUser where
  | mount | drain | read | format
  deriving DecidableEq, Repr

/-- Where a run stands (R172 to R175). -/
inductive RunStage where
  | waiting     -- its command, or its retry or repeat, is still to be issued
  | acking      -- the command is sent, its response awaited
  | receiving   -- READ_RUN: the next block is awaited
  | fetching    -- WRITE_RUN: the next block's bytes are being read from the slot
  | token       -- WRITE_RUN: a block is sent, its token awaited
  | busy        -- ACCEPT taken, the release of busy awaited
  | stopping    -- the stop mark is sent, its acknowledgement awaited
  | cycling     -- the power cycle of a timeout
  deriving DecidableEq, Repr

/-- A run in progress (R172, R173). -/
structure Run where
  user     : RunUser
  write    : Bool
  start    : Nat
  count    : Nat
  done     : Nat := 0
  retries  : Nat := 0
  resends  : Nat := 0
  timeouts : Nat := 0
  stop     : Bool := false
  stage    : RunStage := .waiting
  deriving DecidableEq, Repr

/-- The outcomes of a run (R176). -/
inductive RunOutcome where
  | done | stopped | crcFail | writeFail | removed | fault
  deriving DecidableEq, Repr

/-- The last thing the KB-180 sent on the card bus: a command frame or a block with its CRC-16, or a stop mark (R170). -/
inductive BusSent where
  | ident (crc : BitVec 16)
  | readRun (start count : Nat) (crc : BitVec 16)
  | writeRun (start count : Nat) (crc : BitVec 16)
  | block (data : List Byte) (crc : BitVec 16)
  | stopMark
  deriving DecidableEq, Repr

/-- The log geometry (R177). -/
structure Geometry where
  nextFree : Nat
  count    : Nat
  highest  : Nat
  formatId : Nat
  deriving DecidableEq, Repr

/-- The fields of a container header block that its commit block must match (R181). -/
structure HeaderFields where
  formatId : Nat
  index    : Nat
  shot     : Nat
  blocks   : Nat
  crc      : BitVec 32
  deriving DecidableEq, Repr

/-- The mount's step (R180 to R182). -/
inductive MountStage where
  | logHeader
  | container
  | commit (header : HeaderFields)
  | rewrite
  deriving DecidableEq, Repr

/-- A mount in progress: its step, the geometry with the scan's position as next free block, whether the scan has
accepted a container. -/
structure Mount where
  stage    : MountStage
  geometry : Geometry
  accepted : Bool
  deriving DecidableEq, Repr

inductive DrainStage where
  | summing | header | data | commit | logUpdate
  deriving DecidableEq, Repr

/-- The container progress (R177, R185, R186). -/
structure Container where
  shot     : Nat
  slot     : Nat
  start    : Nat
  blocks   : Nat
  pitch    : Nat
  lines    : Nat
  profile  : Nat
  index    : Nat
  stage    : DrainStage
  done     : Nat
  summed   : Nat
  crc      : BitVec 32
  header   : List Byte
  park     : Bool
  deriving DecidableEq, Repr

/-- A card-read request (R191, R192); `carry` holds bytes of a codeword that the next block completes. -/
structure CardRead where
  block : Nat
  count : Nat
  dest  : Nat
  tag   : Nat
  done  : Nat := 0
  carry : List Host.Cell := []
  deriving DecidableEq, Repr

inductive ReadOutcome where
  | done | crcFail | removed | fault
  deriving DecidableEq, Repr

/-- A card read that has ended and whose result is still to be written (R193). -/
structure EndedRead where
  tag     : Nat
  outcome : ReadOutcome
  done    : Nat
  deriving DecidableEq, Repr

/-- A card-read result entry (R193). -/
structure ReadResult where
  tag     : Nat
  outcome : ReadOutcome
  done    : Nat
  number  : Nat
  deriving DecidableEq, Repr

/-- The Card Engine (R159, R177). `readingAt` is the time-base value at which `reading` arrived; `owed` are the card events
that wait until the results of the reads they ended are written (R176). -/
structure Cde where
  state     : CardState
  rail      : RailState
  pwrEn     : Bool
  lines     : BusLines
  discharge : Bool
  dischargeTimer : Option Nat
  dischargeFor   : DischargeFor
  rampTimer : Option Nat
  busTimer  : Option Nat
  reading   : Option Int
  readingAt : Option Nat
  detected  : Bool
  detCount  : Nat
  detLevel  : Bool
  ocCount   : Nat
  capacity  : Option Nat
  faultCause : FaultCause
  powerUp   : Option PowerUp
  ident     : Option IdentStage
  identDrop : Option IdentDrop
  run       : Option Run
  block     : List Byte
  sent      : Option BusSent
  geometry  : Option Geometry
  mount     : Option Mount
  container : Option Container
  format    : Option Geometry
  reads     : List CardRead
  serving   : Option CardRead
  ended     : List EndedRead
  results   : List (Option ReadResult)
  resultNo  : Nat
  owed      : List EventFlag
  parkAsked : Bool
  parkOwed  : Bool
  deriving DecidableEq, Repr

/-! ### The part -/

/-- Input levels the part samples (03 section 3.11): SYNC_IN closed, QUIET_ACK asserted, CARD_DET present, CARD_OC
asserted. -/
structure Pins where
  syncClosed  : Bool
  quietAck    : Bool
  cardPresent : Bool
  overcurrent : Bool
  deriving DecidableEq, Repr

/-- The state of the part, and the queue of the commands that wait, first in, first out. -/
structure State where
  pending    : List Instr
  resetHeld  : Bool
  pins       : Pins
  mem        : Memory
  stb        : Stb
  exs        : Exs
  hmp        : Hmp
  fmc        : Fmc
  prs        : Prs
  pce        : Pce
  dfm        : Dfm
  amn        : Amn
  cde        : Cde
  rqe        : Rqe
  deriving DecidableEq, Repr

/-- Why the machine stops. -/
inductive Fault where
  /-- The command cannot be carried by its bus: a burst of no beat or of more than 8 (R53), or a card block that is not
  512 bytes (09 section 9.5). Raised by HOST_BURST and CARD_BLOCK_RECEIVED. Safe: such a command cannot arrive. -/
  | illFormed
  deriving DecidableEq, Repr

/-- Why a command has no meaning. -/
inductive Refusal where
  /-- The command of this mnemonic is not modelled. Raised by no arm of `exec`. Safe: the machine stops. -/
  | notModelled (mnemonic : String)
  deriving DecidableEq, Repr

/-! ### Values after power-on reset -/

def Stb.reset : Stb :=
  { slotSize := 150, slots := List.replicate 5 .free, retained := [], records := [], nextShot := 1 }

def SyncFilter.reset : SyncFilter := { closed := false, run := none, debounce := Config.idleDebounce }

def Exs.reset : Exs :=
  { seq := .idle, current := none, timer := none, quietReq := false, snsFlush := false, snsInteg := false,
    readyOut := false, snsRead := false, pulse := none, timeBase := 0, sync := SyncFilter.reset, missed := 0 }

def Hmp.reset : Hmp :=
  { path := .filling, wake := .none, queue := [], waiting := [], reads := [], guardDrops := 0, outOfRange := 0,
    response := none, nextId := 0, sleepAsked := false }

def Fmc.reset : Fmc :=
  { pending := [], active := none, passOver := {}, nextPart := .rqe, errlog := [], overflow := 0, corrGeneral := 0,
    corrFrame := 0, corrControl := 0, uncorrectable := 0, corrected := [], injection := none, scrubPos := 0,
    passes := 0, pace := Config.scrubPace, scrub := none, logUpdate := 0 }

def Prs.reset : Prs := { entries := List.replicate 4 { live := none, waiting := none }, load := none }

def Pce.reset : Pce := { readout := none, idle := none }

def Dfm.reset : Dfm :=
  { entries := [], drops := 0, sequence := 0, load := none, rewrite := none, waiting := none, owed := none,
    cursor := 0, firstIns := none, insLine := 0, fullRaised := false }

/-- DESIGN CHOICE (log 52): the sample timer begins with a whole sample interval left. -/
def Amn.reset : Amn :=
  { settings := {}, next := none, temp := none, batt := none, card := none, tempValid := false, battValid := false,
    cardValid := false, tempLevel := .normal, battLevel := .normal, sampleTimer := 100000, sweep := some .temp,
    queue := [], conv := none, stopAsked := false, stopped := false }

def Cde.reset : Cde :=
  { state := .absent, rail := .off, pwrEn := false, lines := .highZ, discharge := false, dischargeTimer := none,
    dischargeFor := .removal, rampTimer := none, busTimer := none, reading := none, readingAt := none, detected := false, detCount := 0,
    detLevel := false, ocCount := 0, capacity := none, faultCause := .none, powerUp := none, ident := none,
    identDrop := none, run := none, block := [], sent := none, geometry := none, mount := none, container := none,
    format := none, reads := [], serving := none, ended := [], results := List.replicate 4 none, resultNo := 0,
    owed := [], parkAsked := false, parkOwed := false }

def Rqe.reset : Rqe :=
  { head := 0, tail := 0, completionNo := 0, ringFaults := 0, service := none, lastAnswer := none, observed := [],
    flags := 0, enables := 0, attn := false, raises := [], made := [], carried := [], marked := [], jobs := [],
    updates := List.replicate 16 0, resetCause := .powerOn }

def Pins.reset : Pins := { syncClosed := false, quietAck := false, cardPresent := false, overcurrent := false }

/-- The part right after power-on reset: the fill has begun (R64). -/
def State.reset : State :=
  { pending := [], resetHeld := false, pins := Pins.reset, mem := { data := [], check := [] }, stb := Stb.reset,
    exs := Exs.reset, hmp := Hmp.reset, fmc := Fmc.reset, prs := Prs.reset, pce := Pce.reset, dfm := Dfm.reset,
    amn := Amn.reset, cde := Cde.reset, rqe := Rqe.reset }

end Sys2Proof.Machine
end

