-- ==== Sys2Proof/Machine/Bytes.lean ====
section
/-! DEFINITION. Byte order, field extraction, cyclic codes and bus parity: little-endian fields (11 section 11.5),
CRC-16 (R170), CRC-32 (R179), byte parity (R54). -/

namespace Sys2Proof.Machine

/-- The low 8 bits of a number. -/
def byteOf (n : Nat) : Byte := BitVec.ofNat 8 n

/-- A field of `k` bytes, little-endian. -/
def le : Nat → Nat → List Byte
  | 0, _ => []
  | k + 1, n => byteOf n :: le k (n / 256)

/-- A signed field of `k` bytes in two's complement, little-endian. -/
def leInt (k : Nat) (i : Int) : List Byte := le k (i % (2 ^ (8 * k) : Nat)).toNat

/-- The number little-endian bytes spell. -/
def fromLe : List Byte → Nat
  | [] => 0
  | b :: bs => b.toNat + 256 * fromLe bs

/-- A field of `k` bytes at offset `o` of a record. -/
def field (bs : List Byte) (o k : Nat) : Nat := fromLe ((bs.drop o).take k)

/-- Bytes padded with zeros to `n`. -/
def padTo (n : Nat) (bs : List Byte) : List Byte := bs ++ List.replicate (n - bs.length) 0

/-- A Boolean as a bit. -/
def bit (b : Bool) : Nat := if b then 1 else 0

/-- Bytes laid at consecutive addresses. -/
def cellsAt (a : Nat) : List Byte → List Host.Cell
  | [] => []
  | b :: bs => (a, b) :: cellsAt (a + 1) bs

/-- One byte into a CRC-16 register, most significant bit first, polynomial x^16 + x^12 + x^5 + 1 (R170). -/
def crc16Bits : Nat → BitVec 16 → BitVec 16
  | 0, c => c
  | k + 1, c => crc16Bits k (if c.msb then (c <<< 1) ^^^ 0x1021#16 else c <<< 1)

/-- CRC-16 of a frame or block, the register starting at 0 (R170). -/
def crc16 (bs : List Byte) : BitVec 16 :=
  bs.foldl (fun c b => crc16Bits 8 (c ^^^ BitVec.shiftLeft (b.setWidth 16) 8)) 0#16

/-- The bit steps of the reflected CRC-32 (R179). -/
def crc32Bits : Nat → BitVec 32 → BitVec 32
  | 0, c => c
  | k + 1, c => crc32Bits k (if c.getLsbD 0 then (c >>> 1) ^^^ 0xEDB88320#32 else c >>> 1)

/-- Bytes into a CRC-32 register. -/
def crc32Step (c : BitVec 32) (bs : List Byte) : BitVec 32 :=
  bs.foldl (fun c b => crc32Bits 8 (c ^^^ b.setWidth 32)) c

/-- The register at the start, and the value read out at the end (R179). -/
def crc32Start : BitVec 32 := 0xFFFFFFFF#32
def crc32End (c : BitVec 32) : BitVec 32 := c ^^^ 0xFFFFFFFF#32

/-- CRC-32 of whole data (R179). -/
def crc32 (bs : List Byte) : BitVec 32 := crc32End (crc32Step crc32Start bs)

/-- The even-parity bit of a byte (R54): the eight bits and it hold an even number of ones. -/
def parityOf (b : Byte) : Bool :=
  (List.range 8).foldl (fun p k => p ^^ b.getLsbD k) false

/-- Byte `k` of a bus word. -/
def laneOf (w : BitVec 32) (k : Nat) : Byte := (w >>> (8 * k)).setWidth 8

/-- The four parity bits of a bus word. -/
def parityBits (w : BitVec 32) : BitVec 4 :=
  BitVec.ofNat 4 ((List.range 4).foldl (fun n k => n + 2 ^ k * bit (parityOf (laneOf w k))) 0)

/-- Whether an enabled byte of a beat has wrong parity (R54). -/
def WriteBeat.badParity (b : WriteBeat) : Bool :=
  (List.range 4).any fun k => b.enables.getLsbD k && (b.parity.getLsbD k != parityOf (laneOf b.data k))

/-- The bus word four bytes make. -/
def wordOf (bs : List Byte) : BitVec 32 := BitVec.ofNat 32 (fromLe bs)

end Sys2Proof.Machine
end

