-- ==== Sys2Proof/Machine/Memory.lean ====
section
/-! DEFINITION. The DRAM as a canonical list of cells, and the SEC-DED code over its codewords (R127, R128). -/

namespace Sys2Proof.Machine

/-! ### Cells in canonical form -/

/-- What a list of cells holds at a key; zero where nothing is listed (R64). -/
def readCell : List Host.Cell → Nat → Byte
  | [], _ => 0
  | (k, v) :: t, a => if k = a then v else readCell t a

/-- Lists the cell unless its value is zero. -/
def consCell (a : Nat) (v : Byte) (t : List Host.Cell) : List Host.Cell := if v = 0 then t else (a, v) :: t

/-- Writes a cell and keeps the canonical form. -/
def writeCell : List Host.Cell → Nat → Byte → List Host.Cell
  | [], a, v => consCell a v []
  | (k, w) :: t, a, v =>
    if a < k then consCell a v ((k, w) :: t)
    else if a = k then consCell a v t
    else (k, w) :: writeCell t a v

/-- Writes every cell of a list. -/
def writeCells (l : List Host.Cell) (cells : List Host.Cell) : List Host.Cell :=
  cells.foldl (fun l c => writeCell l c.1 c.2) l

/-- The canonical form: keys strictly rising and above `lo`, no zero value. -/
def cellsWfFrom (lo : Option Nat) : List Host.Cell → Bool
  | [] => true
  | (k, v) :: t => (match lo with | none => true | some n => decide (n < k)) && decide (v ≠ 0) && cellsWfFrom (some k) t

/-- The canonical form of memory. -/
def Memory.wf (m : Memory) : Bool := cellsWfFrom none m.data && cellsWfFrom none m.check

/-- The data byte at an address. -/
def Memory.byte (m : Memory) (a : Nat) : Byte := readCell m.data a

/-- The address of the codeword an address lies in (R127). -/
def codewordOf (a : Nat) : Nat := a / 8 * 8

/-- The eight data bytes of a codeword. -/
def Memory.bytesOf (m : Memory) (cw : Nat) : List Byte := (List.range 8).map fun k => m.byte (cw + k)

/-- The 64 data bits of a codeword: its bytes as one little-endian value (R127). -/
def Memory.wordAt (m : Memory) (cw : Nat) : BitVec 64 := BitVec.ofNat 64 (fromLe (m.bytesOf cw))

/-- The check bits of a codeword. -/
def Memory.checkAt (m : Memory) (cw : Nat) : BitVec 8 := readCell m.check cw

/-- Stores a codeword's data and check bits. -/
def Memory.store (m : Memory) (cw : Nat) (data : BitVec 64) (check : BitVec 8) : Memory :=
  { data := writeCells m.data (cellsAt cw (le 8 data.toNat)), check := writeCell m.check cw check }

/-- The memory after the power-on fill: every codeword zero with the check bits of zero (R64). -/
def Memory.filled : Memory := { data := [], check := [] }

/-! ### The code -/

/-- The columns of data bits 0..63 (R127). -/
def columns : List (BitVec 8) :=
  [0x07, 0x0B, 0x0D, 0x0E, 0x13, 0x15, 0x16, 0x19, 0x1A, 0x1C, 0x1F, 0x23, 0x25, 0x26, 0x29, 0x2A,
   0x2C, 0x2F, 0x31, 0x32, 0x34, 0x37, 0x38, 0x3B, 0x3D, 0x3E, 0x43, 0x45, 0x46, 0x49, 0x4A, 0x4C,
   0x4F, 0x51, 0x52, 0x54, 0x57, 0x58, 0x5B, 0x5D, 0x5E, 0x61, 0x62, 0x64, 0x67, 0x68, 0x6B, 0x6D,
   0x6E, 0x70, 0x73, 0x75, 0x76, 0x79, 0x7A, 0x7C, 0x7F, 0x83, 0x85, 0x86, 0x89, 0x8A, 0x8C, 0x8F]

/-- XOR of the columns, from data bit `k` on, of the bits that are 1. -/
def checkFrom (d : BitVec 64) : Nat → List (BitVec 8) → BitVec 8
  | _, [] => 0
  | k, c :: cs => (if d.getLsbD k then c else 0) ^^^ checkFrom d (k + 1) cs

/-- The check bits of data (R127). -/
def checkBits (d : BitVec 64) : BitVec 8 := checkFrom d 0 columns

/-- The error pattern of a poisoned codeword (R128, R131). -/
def poison : BitVec 8 := 0x81#8

/-- The classes of a codeword as read (R128). -/
inductive WordClass where
  | clean | correctable | poisoned | uncorrectable
  deriving DecidableEq, Repr

/-- A codeword as read and classed: its class, its syndrome, and the data its reader uses (R128, R132). -/
structure Checked where
  cls      : WordClass
  syndrome : BitVec 8
  data     : BitVec 64
  deriving DecidableEq, Repr

/-- The data bit whose column a syndrome is, searching from bit `k` on. -/
def columnIndex (syn : BitVec 8) : Nat → List (BitVec 8) → Option Nat
  | _, [] => none
  | k, c :: cs => if c = syn then some k else columnIndex syn (k + 1) cs

/-- Whether a syndrome is the column of a check bit. -/
def isCheckColumn (syn : BitVec 8) : Bool := (List.range 8).any fun j => syn == 1#8 <<< j

/-- Classes a codeword by its syndrome (R128). -/
def classify (d : BitVec 64) (check : BitVec 8) : Checked :=
  let syn := checkBits d ^^^ check
  if syn = 0 then ⟨.clean, syn, d⟩
  else match columnIndex syn 0 columns with
    | some k => ⟨.correctable, syn, d ^^^ (1#64 <<< k)⟩
    | none =>
      if isCheckColumn syn then ⟨.correctable, syn, d⟩
      else if syn = poison then ⟨.poisoned, syn, d⟩
      else ⟨.uncorrectable, syn, d⟩

/-- A codeword of memory, read and classed. -/
def Memory.check? (m : Memory) (cw : Nat) : Checked := classify (m.wordAt cw) (m.checkAt cw)

/-- Whether a class makes the data not usable (R128). -/
def WordClass.bad : WordClass → Bool
  | .poisoned | .uncorrectable => true
  | _ => false

/-- The codewords a range of `len` bytes from `a` touches, in ascending order. -/
def codewordsOf (a len : Nat) : List Nat :=
  if len = 0 then [] else (List.range ((a + len - 1) / 8 - a / 8 + 1)).map fun k => (a / 8 + k) * 8

end Sys2Proof.Machine
end

