-- ==== Sys2Proof/Machine/Profile.lean ====
section
/-! DEFINITION. Development profiles (chapter 4): the image as stored, its checks, its derived sizes. -/

namespace Sys2Proof.Machine

def clampNat (lo hi n : Nat) : Nat := max lo (min hi n)
def clampInt (lo hi n : Int) : Int := max lo (min hi n)

/-- A value rounded up to a multiple of 64. -/
def roundUp64 (n : Nat) : Nat := (n + 63) / 64 * 64

/-- The line pitch (R75). -/
def Profile.pitch (p : Profile) : Nat := roundUp64 ((p.masked + p.width) * 2)

/-- The frame bytes (R75). -/
def Profile.frameBytes (p : Profile) : Nat := p.pitch * p.lines

/-- The minimum slot size in MiB (R75). -/
def Profile.minSlot (p : Profile) : Nat := (p.frameBytes + (Config.mib - 1)) / Config.mib

/-- Whether the gain grid covers the active area (R82). -/
def Profile.covered (p : Profile) : Bool :=
  decide (p.width - 1 ≤ (p.gc - 1) * p.sx ∧ p.lines - 1 ≤ (p.gr - 1) * p.sy)

/-- The fixed part of an image as it stands in memory, items 1 to 18 (11 section 11.9); the Bayer phase as its number. -/
structure FixedPart where
  masked : Nat
  width : Nat
  lines : Nat
  bayer : Nat
  nominalBlack : Nat
  tolerance : Nat
  pedestal : Nat
  whiteClip : Nat
  hot : Nat
  quietWait : Nat
  flushTime : Nat
  settleTime : Nat
  tailTime : Nat
  idleLimit : Nat
  sx : Nat
  sy : Nat
  gc : Nat
  gr : Nat
  deriving DecidableEq, Repr

/-- The 40 bytes of the fixed part. -/
def fixedLength : Nat := 40

/-- Reads the fixed part (11 section 11.9). -/
def fixedPart (bs : List Byte) : FixedPart :=
  { masked := field bs 0 2, width := field bs 2 2, lines := field bs 4 2, bayer := field bs 6 1, gc := field bs 7 1,
    gr := field bs 8 1, sx := field bs 10 2, sy := field bs 12 2, nominalBlack := field bs 14 2,
    tolerance := field bs 16 2, pedestal := field bs 18 2, whiteClip := field bs 20 2, hot := field bs 22 2,
    quietWait := field bs 24 2, flushTime := field bs 26 2, settleTime := field bs 28 2, tailTime := field bs 30 2,
    idleLimit := field bs 32 2 }

/-- The grid spacings accepted (items 15 and 16). -/
def spacingOk (n : Nat) : Bool := [64, 128, 256, 512, 1024].contains n

/-- The checks of items 1 to 18, in item order (R73, 04 section 4.2). -/
def itemChecks (f : FixedPart) : List Bool :=
  [decide (16 ≤ f.masked ∧ f.masked ≤ 64 ∧ f.masked % 2 = 0),
   decide (2 ≤ f.width ∧ f.width ≤ 12288 - f.masked ∧ f.width % 2 = 0),
   decide (2 ≤ f.lines ∧ f.lines ≤ 9216 ∧ f.lines % 2 = 0),
   decide (f.bayer ≤ 3),
   decide (f.nominalBlack ≤ 16383),
   decide (f.tolerance ≤ 4095),
   decide (f.pedestal ≤ 1023),
   decide (1 ≤ f.whiteClip ∧ f.whiteClip ≤ 16383),
   decide (1 ≤ f.hot ∧ f.hot ≤ 16383),
   decide (f.quietWait ≤ 500),
   decide (1 ≤ f.flushTime ∧ f.flushTime ≤ 100),
   decide (f.settleTime ≤ 50),
   decide (f.tailTime ≤ 50),
   decide (1 ≤ f.idleLimit ∧ f.idleLimit ≤ 10000),
   spacingOk f.sx,
   spacingOk f.sy,
   decide (2 ≤ f.gc ∧ f.gc ≤ 33),
   decide (2 ≤ f.gr ∧ f.gr ≤ 25)]

/-- The number, from `k` on, of the first check that fails. -/
def firstFail (k : Nat) : List Bool → Option Nat
  | [] => none
  | b :: bs => if b then firstFail (k + 1) bs else some k

/-- The item of the first field out of range (R73), if there is one. -/
def badItem (f : FixedPart) : Option Nat := firstFail 1 (itemChecks f)

/-- The length of the whole image (11 section 11.9). -/
def imageLength (f : FixedPart) : Nat := 64 + 8 * f.gc * f.gr

def bayerOf : Nat → Bayer
  | 0 => .rggb
  | 1 => .grbg
  | 2 => .gbrg
  | _ => .bggr

/-- `n` little-endian 16-bit fields from offset `o` on. -/
def fields16 (bs : List Byte) (o n : Nat) : List Nat := (List.range n).map fun k => field bs (o + 2 * k) 2

/-- The image its bytes spell: fixed part, dark rate table at 40, gain planes at 64 (11 section 11.9). -/
def imageOf (bs : List Byte) : Profile :=
  let f := fixedPart bs
  { masked := f.masked, width := f.width, lines := f.lines, bayer := bayerOf f.bayer,
    nominalBlack := f.nominalBlack, tolerance := f.tolerance, pedestal := f.pedestal, whiteClip := f.whiteClip,
    hot := f.hot, quietWait := f.quietWait, flushTime := f.flushTime, settleTime := f.settleTime,
    tailTime := f.tailTime, idleLimit := f.idleLimit, sx := f.sx, sy := f.sy, gc := f.gc, gr := f.gr,
    dark := fields16 bs 40 9, gains := fields16 bs 64 (4 * f.gc * f.gr) }

/-- The four colour channels, in the order of the gain planes (R81). -/
inductive Colour where
  | r | gr | gb | b
  deriving DecidableEq, Repr

def Colour.plane : Colour → Nat
  | .r => 0
  | .gr => 1
  | .gb => 2
  | .b => 3

/-- The channel of an active pixel (R80). -/
def channelOf (b : Bayer) (x y : Nat) : Colour :=
  match b, y % 2, x % 2 with
  | .rggb, 0, 0 => .r
  | .rggb, 0, _ => .gr
  | .rggb, _, 0 => .gb
  | .rggb, _, _ => .b
  | .grbg, 0, 0 => .gr
  | .grbg, 0, _ => .r
  | .grbg, _, 0 => .b
  | .grbg, _, _ => .gb
  | .gbrg, 0, 0 => .gb
  | .gbrg, 0, _ => .b
  | .gbrg, _, 0 => .r
  | .gbrg, _, _ => .gr
  | .bggr, 0, 0 => .b
  | .bggr, 0, _ => .gb
  | .bggr, _, 0 => .gr
  | .bggr, _, _ => .r

/-- The gain of node (i, j) of a channel's plane (R81). -/
def Profile.node (p : Profile) (c : Colour) (i j : Nat) : Nat :=
  p.gains.getD (c.plane * (p.gc * p.gr) + j * p.gc + i) 0

end Sys2Proof.Machine
end

