-- ==== Sys2Proof/Machine/Table.lean ====
section
/-! DEFINITION. The Shot Table (chapter 1): addresses, records, phase moves, slots, numbering. -/

namespace Sys2Proof.Machine

/-! ### Layout (R1, R2) -/

/-- The slot count a slot size gives (R1). -/
def slotCountOf (size : Nat) : Nat := min 8 (752 / size)

def Stb.count (t : Stb) : Nat := slotCountOf t.slotSize

/-- The bytes of a slot. -/
def Stb.slotBytes (t : Stb) : Nat := t.slotSize * Config.mib

def Stb.slotBase (t : Stb) (i : Nat) : Nat := Config.frameBase + i * t.slotBytes

/-- The first frame-region address above the last slot (R1). -/
def Stb.slotsEnd (t : Stb) : Nat := t.slotBase t.count

def inFrame (a : Nat) : Bool := decide (Config.frameBase ≤ a ∧ a < Config.frameEnd)

/-- The slot an address lies in, if it lies in one (R2). -/
def Stb.slotAt (t : Stb) (a : Nat) : Option Nat :=
  if inFrame a then
    let i := (a - Config.frameBase) / t.slotBytes
    if i < t.count then some i else none
  else none

/-- The offset of an address in its slot (R2). -/
def Stb.offsetIn (t : Stb) (slot a : Nat) : Nat := a - t.slotBase slot

def Stb.slotState (t : Stb) (i : Nat) : SlotState := t.slots.getD i .free

/-- The slot state at an address in a slot (R2). -/
def Stb.stateAt (t : Stb) (a : Nat) : Option SlotState := (t.slotAt a).map t.slotState

/-! ### Records -/

/-- The record of a shot number. DESIGN CHOICE (log 60): where a number stands in the table twice, across a wrap that R18 has
brought near (R17), the older record is found, while `Stb.update` changes both. -/
def Stb.find (t : Stb) (shot : Nat) : Option ShotRecord := t.records.find? fun r => r.shot == shot

/-- The record that holds a slot (R2). -/
def Stb.holder (t : Stb) (slot : Nat) : Option ShotRecord := t.records.find? fun r => r.slot == some slot

/-- The record charged with an error at an address (R136). -/
def Stb.charged (t : Stb) (a : Nat) : Option ShotRecord := (t.slotAt a).bind t.holder

def Phase.final : Phase → Bool
  | .stored | .expired | .aborted | .discarded | .calibrated => true
  | _ => false

/-- The phases from ARMING to READING. -/
def Phase.running : Phase → Bool
  | .arming | .waiting | .exposing | .reading => true
  | _ => false

/-- The phases in which the sync filter uses the shot's debounce and counts its pulses (R35, R37). -/
def Phase.timed : Phase → Bool
  | .arming | .waiting | .exposing => true
  | _ => false

/-- The record in ARMING, WAITING, EXPOSING or READING (R10). -/
def Stb.current (t : Stb) : Option ShotRecord := t.records.find? fun r => r.phase.running

def Stb.inReading (t : Stb) : Option ShotRecord := t.records.find? fun r => r.phase == .reading

/-- The oldest HELD record in arm order. -/
def Stb.oldestHeld (t : Stb) : Option ShotRecord := t.records.find? fun r => r.phase == .held

/-- Changes the record of a shot. -/
def Stb.update (t : Stb) (shot : Nat) (f : ShotRecord → ShotRecord) : Stb :=
  { t with records := t.records.map fun r => if r.shot = shot then f r else r }

def Stb.setSlot (t : Stb) (i : Nat) (st : SlotState) : Stb := { t with slots := t.slots.set i st }

/-- A slot leaves the retained order (R6). -/
def Stb.unretain (t : Stb) (i : Nat) : Stb := { t with retained := t.retained.filter fun j => j != i }

/-- Frees the slot of a shot's record, which loses it (R13). -/
def Stb.freeSlot (t : Stb) (shot : Nat) : Stb :=
  match (t.find shot).bind (·.slot) with
  | none => t
  | some i => ((t.setSlot i .free).unretain i).update shot fun r => { r with slot := none }

/-! ### Phase moves (R11) -/

/-- The moves of R11. -/
def moveAllowed : Phase → Phase → Bool
  | .arming, .waiting | .arming, .aborted | .waiting, .exposing | .waiting, .expired | .waiting, .aborted
  | .exposing, .reading | .reading, .held | .reading, .calibrated | .held, .storing | .held, .discarded
  | .storing, .held | .storing, .stored => true
  | _, _ => false

/-- The slot state that goes with a phase; none where the record holds no slot (R10). -/
def Phase.slotState : Phase → Option SlotState
  | .arming | .waiting | .exposing => some .armed
  | .reading => some .readout
  | .held => some .held
  | .storing => some .draining
  | .stored => some .retained
  | _ => none

/-- Makes a phase move that the table of R11 allows, the slot moving with it; any other is refused. -/
def Stb.move (t : Stb) (shot : Nat) (dst : Phase) : Stb :=
  match t.find shot with
  | none => t
  | some r =>
    if moveAllowed r.phase dst then
      let t := t.update shot fun r => { r with phase := dst }
      match dst.slotState, r.slot with
      | some st, some i =>
        let t := t.setSlot i st
        if dst = .stored then { t with retained := t.retained ++ [i] } else t
      | none, _ => t.freeSlot shot
      | _, none => t
    else t

/-! ### Allocation, room, numbering (R14 to R18) -/

/-- The lowest-numbered FREE slot. -/
def Stb.freeIndex (t : Stb) : Option Nat := (List.range t.count).find? fun i => t.slotState i == .free

/-- The slot a reclaim takes: the oldest retained whose record lacks KEEP (R15). -/
def Stb.reclaimable (t : Stb) : Option Nat :=
  t.retained.find? fun i => match t.holder i with
    | some r => !r.flags.keep
    | none => false

/-- Whether a slot can be had (R15). -/
def Stb.slotFor (t : Stb) : Option Nat := t.freeIndex.or t.reclaimable

/-- Takes the slot from the record that retains it, if one does (R15). -/
def Stb.takeSlot (t : Stb) (i : Nat) : Stb :=
  match t.holder i with
  | some r => t.freeSlot r.shot
  | none => t

/-- The oldest record in a final phase (R16). -/
def Stb.oldestFinal (t : Stb) : Option ShotRecord := t.records.find? fun r => r.phase.final

/-- Removes the record of a shot, freeing a slot it retains. -/
def Stb.remove (t : Stb) (shot : Nat) : Stb :=
  let t := t.freeSlot shot
  { t with records := t.records.filter fun r => r.shot != shot }

/-- The record that must go to make room for a new one (R16). -/
def Stb.victim (t : Stb) : Option ShotRecord := if t.records.length < 16 then none else t.oldestFinal

/-- The lowest-numbered empty table position (R9). -/
def Stb.emptyEntry (t : Stb) : Nat :=
  ((List.range 16).find? fun e => t.records.all fun r => r.entry != e).getD 0

/-- The next shot number after one is taken (R17). -/
def nextNumber (n : Nat) : Nat := if n = max32 then 1 else n + 1

/-- The content of a mirror entry (R9). -/
def Stb.entryContent (t : Stb) (e : Nat) : Option ShotRecord := t.records.find? fun r => r.entry == e

/-- The raise of the next shot number at a mount (R18). -/
def Stb.raiseNumber (t : Stb) (highest : Nat) : Stb :=
  if highest ≥ max32 then t
  else if t.records.any fun r => decide (t.nextShot ≤ r.shot) then t
  else { t with nextShot := max t.nextShot (highest + 1) }

/-- SET_SLOTS takes effect (R3): every RETAINED slot is dropped, the order is emptied, the layout changes. -/
def Stb.relayout (t : Stb) (size : Nat) : Stb :=
  { t with
    records := t.records.map fun r => if r.phase = .stored then { r with slot := none } else r
    retained := []
    slotSize := size
    slots := List.replicate (slotCountOf size) .free }

end Sys2Proof.Machine
end

