-- ==== Sys2Proof/Machine/Layout.lean ====
section
/-! DEFINITION. The byte layouts the host and the card see (11 sections 11.5 to 11.10). -/

namespace Sys2Proof.Machine

/-! ### Encodings (11 section 11.5) -/

def Phase.code : Phase → Nat
  | .arming => 0 | .waiting => 1 | .exposing => 2 | .reading => 3 | .held => 4 | .storing => 5 | .stored => 6
  | .expired => 7 | .aborted => 8 | .discarded => 9 | .calibrated => 10

def SlotState.code : SlotState → Nat
  | .free => 0 | .armed => 1 | .readout => 2 | .held => 3 | .draining => 4 | .retained => 5

def slotCode : Option Nat → Nat
  | some i => i
  | none => 0xFF

def ShotMode.code : ShotMode → Nat
  | .span => 0 | .window => 1 | .timed => 2

def ExposureSource.code : ExposureSource → Nat
  | .syncSpan => 0 | .window => 1 | .timed => 2 | .limit => 3 | .early => 4 | .abort => 5

def StoreResult.code : StoreResult → Nat
  | .none => 0 | .stored => 1 | .removed => 2 | .writeFail => 3 | .cardFull => 4 | .parked => 5

def SeqState.code : SeqState → Nat
  | .idle => 0 | .quieting => 1 | .flush => 2 | .settle => 2 | .waiting => 3 | .opened => 4 | .tail => 5

def PathState.code : PathState → Nat
  | .filling => 0 | .run => 1 | .entering => 2 | .standby => 3 | .waking => 4

def ResetCause.code : ResetCause → Nat
  | .powerOn => 1 | .pin => 2

def WakeCause.code : WakeCause → Nat
  | .none => 0 | .hostAccess => 1 | .sync => 2 | .cardDetect => 3

def CardState.code : CardState → Nat
  | .absent => 0 | .discharging => 1 | .powering => 2 | .identifying => 3 | .mounting => 4 | .ready => 5
  | .writing => 6 | .reading => 7 | .parked => 8 | .unformatted => 9 | .fault => 10

def RailState.code : RailState → Nat
  | .off => 0 | .discharging => 1 | .ramping => 2 | .on => 3

def FaultCause.code : FaultCause → Nat
  | .none => 0 | .ramp => 1 | .discharge => 2 | .overcurrent => 3 | .ident => 4 | .timeout => 5 | .writeFail => 6

def DrainStage.code : DrainStage → Nat
  | .summing => 1 | .header => 2 | .data => 3 | .commit => 4 | .logUpdate => 5

def TempLevel.code : TempLevel → Nat
  | .normal => 0 | .warn => 1 | .limit => 2

def BattLevel.code : BattLevel → Nat
  | .normal => 0 | .low => 1 | .critical => 2

def ProfileEntry.code (e : ProfileEntry) : Nat :=
  match e.live, e.waiting with
  | none, _ => 0
  | some _, none => 1
  | some _, some _ => 2

def ErrorClass.code : ErrorClass → Nat
  | .uncorrectable => 1 | .poisoned => 2 | .portParity => 3

def ErrorSource.code : ErrorSource → Nat
  | .hostRead => 1 | .hostRmw => 2 | .captureRmw => 3 | .drain => 4 | .scrub => 5 | .cardReadMerge => 6 | .request => 7

def ReadOutcome.code : ReadOutcome → Nat
  | .done => 1 | .crcFail => 2 | .removed => 3 | .fault => 4

def Code.code : Code → Nat
  | .done => 1 | .started => 2 | .busy => 3 | .badRequest => 4 | .noSlot => 5 | .noProfile => 6 | .slotTooSmall => 7
  | .tooHot => 8 | .lowBattery => 9 | .notFound => 10 | .cardAbsent => 11 | .cardNotReady => 12 | .memError => 13

/-- The bit of an event flag. -/
def EventFlag.bit : EventFlag → Nat
  | .exposed => 0 | .held => 1 | .stored => 2 | .expired => 3 | .missedSync => 4 | .cardInserted => 5
  | .cardRemoved => 6 | .cardReadDone => 7 | .memCorrected => 8 | .memUncorrectable => 9 | .guard => 10
  | .ringFault => 11 | .mapFull => 12 | .profileApplied => 13 | .tempAlarm => 14 | .batteryAlarm => 15
  | .cardFault => 16 | .cardFull => 17

def EventFlag.mask (f : EventFlag) : BitVec 18 := 1#18 <<< f.bit

def RecordFlags.code (f : RecordFlags) : Nat :=
  bit f.keep + 2 * bit f.darkCal + 4 * bit f.earlySync + 8 * bit f.quietMissed + 16 * bit f.quietBroken +
    32 * bit f.tempWarn + 64 * bit f.incomplete + 128 * bit f.damaged + 256 * bit f.abortedOpen + 512 * bit f.limited

/-- An optional number, zero when absent. -/
def natOr0 (o : Option Nat) : Nat := o.getD 0
def intOr0 (o : Option Int) : Int := o.getD 0

/-! ### Shot table mirror entry (11 section 11.8) -/

/-- The presence bits of a record. -/
def ShotRecord.presence (r : ShotRecord) : Nat :=
  bit r.integration.isSome + 2 * bit r.exposure.isSome + 4 * bit r.tempStart.isSome + 8 * bit r.tempEnd.isSome +
    16 * bit r.battery.isSome + 32 * bit r.stats.blackMin.isSome + 64 * bit r.containerStart.isSome +
    128 * bit r.pitch.isSome

/-- The 256 bytes of a mirror entry with its update number: a record, or empty (R206). -/
def mirrorEntry (update : Nat) : Option ShotRecord → List Byte
  | none => le 4 update ++ List.replicate 248 0 ++ le 4 update
  | some r =>
    le 4 update ++ le 1 1 ++ le 1 r.phase.code ++ le 1 (slotCode r.slot) ++ le 1 r.profile ++ le 4 r.shot ++
    le 1 r.mode.code ++ le 1 ((r.source.map ExposureSource.code).getD 0xFF) ++ le 2 r.flags.code ++
    le 2 r.presence ++ le 1 r.store.code ++ le 1 r.rejected ++ le 1 r.early ++ le 1 r.violations ++
    le 1 r.missed ++ le 1 0 ++ le 4 r.timestamp ++ le 4 (natOr0 r.integration) ++ le 4 (natOr0 r.exposure) ++
    leInt 2 (intOr0 r.tempStart) ++ leInt 2 (intOr0 r.tempEnd) ++ leInt 2 (intOr0 r.battery) ++ le 2 r.dark ++
    le 2 (natOr0 r.pitch) ++ le 2 r.stats.lines ++ le 4 r.stats.gaps ++ le 4 r.stats.behind ++
    le 4 r.stats.partials ++ le 4 r.stats.clipped ++ le 4 r.stats.substituted ++ le 2 r.stats.blackRejects ++
    le 2 r.stats.heldBlack ++ le 2 (natOr0 r.stats.blackMin) ++ le 2 (natOr0 r.stats.blackMax) ++
    le 2 r.corrected ++ le 2 r.uncorrectable ++ le 4 (natOr0 r.containerStart) ++ le 4 (natOr0 r.containerLen) ++
    r.stats.histogram.flatMap (le 4) ++ List.replicate 100 0 ++ le 4 update

/-! ### Error log mirror (11 section 11.8) -/

def errorHeaderBytes (update count overflow : Nat) : List Byte :=
  padTo 32 (le 4 update ++ le 1 count ++ le 3 0 ++ le 4 overflow)

def errorEntryBytes : Option LogEntry → List Byte
  | none => List.replicate 32 0
  | some e =>
    padTo 32 (le 4 e.addr ++ le 1 1 ++ le 1 e.syndrome.toNat ++ le 1 e.cls.code ++ le 1 e.source.code ++
      le 2 e.hits ++ le 1 (bit e.shot.isSome) ++ le 1 0 ++ le 4 (natOr0 e.shot))

/-! ### Defect entries (11 section 11.8) -/

/-- A defect entry as the mirror shows it; none is an empty position. -/
def defectBytes : Option DefectEntry → List Byte
  | none => List.replicate 8 0
  | some e =>
    le 2 e.row ++ le 2 e.column ++ le 1 (if e.length.isSome then 2 else 1) ++ le 1 (if e.found then 2 else 1) ++
      le 2 (natOr0 e.length)

/-- Reads a list entry, none where a value is out of range (R118, check 1). -/
def defectOf (bs : List Byte) : Option DefectEntry :=
  let row := field bs 0 2
  let column := field bs 2 2
  let kind := field bs 4 1
  let origin := field bs 5 1
  let length := field bs 6 2
  if row ≤ 9215 ∧ column ≤ 12287 ∧ (kind = 1 ∨ kind = 2) ∧ (origin = 1 ∨ origin = 2) ∧
      (kind = 2 → 2 ≤ length ∧ length ≤ 9216 ∧ row + length ≤ 9216) then
    some { row, column, length := if kind = 2 then some length else none, found := decide (origin = 2) }
  else none

/-! ### Completion (11 section 11.6) -/

/-- The 32 bytes of a completion (R198). -/
def completionBytes (tag index number : Nat) (a : Answer) : List Byte :=
  padTo 32 (le 2 tag ++ le 1 a.code.code ++ le 1 index ++ le 4 number ++ a.result)

/-! ### Request entry (11 section 11.6) -/

/-- The argument field of `k` bytes at offset `o` of an entry. -/
def arg (bs : List Byte) (o k w : Nat) : BitVec w := BitVec.ofNat w (field bs o k)

/-- The request an entry's 96 bytes name; none where the kind is 0 or above 17 (R197). -/
def requestOf (bs : List Byte) : Option Request :=
  match field bs 0 2 with
  | 1 => some (.setSlots (arg bs 8 4 32))
  | 2 => some (.loadProfile (arg bs 8 1 8) (arg bs 12 4 32))
  | 3 => some (.loadDefects (arg bs 8 4 32) (arg bs 12 4 32))
  | 4 => some .clearFound
  | 5 => some (.arm (arg bs 8 1 8) (arg bs 9 1 8) ((arg bs 10 1 8).getLsbD 0) ((arg bs 10 1 8).getLsbD 1)
      (arg bs 12 4 32) (arg bs 16 4 32) (arg bs 20 4 32) (arg bs 24 4 32))
  | 6 => some .abort
  | 7 => some (.discard (arg bs 8 4 32))
  | 8 => some (.release (arg bs 8 4 32))
  | 9 => some (.retire (arg bs 8 4 32))
  | 10 => some (.readCard (arg bs 8 4 32) (arg bs 12 4 32) (arg bs 16 4 32) (arg bs 20 2 16))
  | 11 => some .formatCard
  | 12 => some .resetCard
  | 13 => some .clearErrlog
  | 14 => some (.injectCheck (arg bs 8 4 32) (arg bs 12 1 8))
  | 15 => some (.setMonitor
      { selection := arg bs 8 1 8, tempSlope := arg bs 12 2 16, tempOffset := arg bs 14 2 16,
        battSlope := arg bs 16 2 16, battOffset := arg bs 18 2 16, cardSlope := arg bs 20 2 16,
        cardOffset := arg bs 22 2 16, warn := arg bs 24 2 16, limit := arg bs 26 2 16, armFloor := arg bs 28 4 32,
        critFloor := arg bs 32 4 32, interval := arg bs 36 4 32 })
  | 16 => some (.setEvents (arg bs 8 4 32))
  | 17 => some .standby
  | _ => none

/-! ### Status block (11 section 11.7) -/

/-- The state of slot `i` as the status block shows it: 0xFF where it is not present. -/
def slotByte (t : Stb) (i : Nat) : Byte := byteOf (if i < t.count then (t.slotState i).code else 0xFF)

/-- Whether the quiet is granted: QUIET_REQ and QUIET_ACK are both asserted (R30). -/
def quietGranted (s : State) : Bool := s.exs.quietReq && s.pins.quietAck

/-- The flags in the image of piece 0: those set and those raised (R201). -/
def shownFlags (q : Rqe) : BitVec 18 := q.made.foldl (fun w f => w ||| f.mask) q.flags

def foundCount (d : Dfm) : Nat := d.entries.countP (·.found)

def resultBytes : Option ReadResult → List Byte
  | none => List.replicate 16 0
  | some r => padTo 16 (le 2 r.tag ++ le 1 r.outcome.code ++ le 1 0 ++ le 4 r.done ++ le 4 r.number)

/-- The value of a channel as shown: zero while it is not valid (R150). -/
def shownValue (valid : Bool) (v : Option Int) : Int := if valid then intOr0 v else 0

/-- The fields of piece `k` of the status block as the image stands (11 section 11.7). -/
def pieceFields (k : Nat) (s : State) : List Byte :=
  match k with
  | 0 =>
    le 2 1 ++ le 1 s.rqe.resetCause.code ++ le 1 s.hmp.wake.code ++ le 1 s.hmp.path.code ++
    le 1 (bit s.exs.quietReq + 2 * bit (quietGranted s)) ++ le 1 s.rqe.head ++ le 1 0 ++
    le 4 (shownFlags s.rqe).toNat ++ le 4 s.rqe.enables.toNat ++ le 4 s.rqe.ringFaults ++ le 4 s.hmp.outOfRange ++
    le 4 s.hmp.guardDrops ++ le 4 s.exs.missed ++ le 4 s.rqe.completionNo
  | 1 =>
    le 1 s.exs.seq.code ++ le 1 (bit s.stb.current.isSome) ++ le 2 0 ++
    le 4 (natOr0 (s.stb.current.map (·.shot))) ++ le 4 s.stb.nextShot ++ le 2 s.stb.slotSize ++
    le 1 s.stb.count ++ le 1 0 ++ (List.range 8).map (slotByte s.stb) ++
    s.prs.entries.map (fun e => byteOf e.code)
  | 2 =>
    le 1 s.cde.state.code ++ le 1 s.cde.rail.code ++ le 1 s.cde.faultCause.code ++
    le 1 (bit s.cde.capacity.isSome + 2 * bit s.cde.geometry.isSome + 4 * bit s.cde.container.isSome) ++
    le 4 (natOr0 s.cde.capacity) ++ le 4 (natOr0 (s.cde.geometry.map (·.nextFree))) ++
    le 4 (natOr0 (s.cde.geometry.map (·.count))) ++ le 4 (natOr0 (s.cde.geometry.map (·.highest))) ++
    le 4 (natOr0 (s.cde.geometry.map (·.formatId))) ++ le 4 (natOr0 (s.cde.container.map (·.shot))) ++
    le 4 (natOr0 (s.cde.container.map (·.done))) ++ le 1 (natOr0 (s.cde.container.map (·.stage.code)))
  | 3 =>
    leInt 2 (shownValue s.amn.tempValid s.amn.temp) ++ leInt 2 (shownValue s.amn.battValid s.amn.batt) ++
    leInt 2 (shownValue s.amn.cardValid s.amn.card) ++
    le 1 (bit s.amn.tempValid + 2 * bit s.amn.battValid + 4 * bit s.amn.cardValid) ++
    le 1 s.amn.tempLevel.code ++ le 1 s.amn.battLevel.code
  | 4 =>
    le 4 s.fmc.corrGeneral ++ le 4 s.fmc.corrFrame ++ le 4 s.fmc.corrControl ++ le 4 s.fmc.uncorrectable ++
    le 4 s.fmc.overflow ++ le 4 s.fmc.scrubPos ++ le 4 s.fmc.passes ++ le 1 (bit s.fmc.injection.isSome) ++
    le 1 ((s.fmc.injection.map (·.2.toNat)).getD 0) ++ le 2 0 ++ le 4 ((s.fmc.injection.map (·.1)).getD 0)
  | 5 =>
    le 2 s.dfm.entries.length ++ le 2 (foundCount s.dfm) ++ le 4 s.dfm.sequence ++ le 4 s.dfm.drops
  | 6 => s.cde.results.flatMap resultBytes
  | _ => []

/-- The 64 bytes of piece `k` of the status block (R200). -/
def statusPiece (k : Nat) (s : State) : List Byte := (padTo 64 (pieceFields k s)).take 64

/-- All 4,096 bytes of the status block (R200). -/
def statusBlock (s : State) : List Byte :=
  padTo 4096 ((List.range 7).flatMap fun k => statusPiece k s)

/-! ### Card blocks (R207) -/

def textBytes (cs : List Nat) : List Byte := cs.map byteOf

/-- The marks KVSHOTLG, KVCONTHD and KVCOMMIT. -/
def logMark : List Byte := textBytes [0x4B, 0x56, 0x53, 0x48, 0x4F, 0x54, 0x4C, 0x47]
def headerMark : List Byte := textBytes [0x4B, 0x56, 0x43, 0x4F, 0x4E, 0x54, 0x48, 0x44]
def commitMark : List Byte := textBytes [0x4B, 0x56, 0x43, 0x4F, 0x4D, 0x4D, 0x49, 0x54]

/-- Block 0 (R178). -/
def logHeaderBlock (capacity : Nat) (g : Geometry) : List Byte :=
  padTo 512 (logMark ++ le 4 512 ++ le 4 capacity ++ le 4 g.nextFree ++ le 4 g.count ++ le 4 g.highest ++ le 4 g.formatId)

/-- The geometry of block 0 when it is valid (R178). -/
def logHeaderOf (capacity : Nat) (bs : List Byte) : Option Geometry :=
  let nf := field bs 16 4
  if bs.take 8 = logMark ∧ field bs 8 4 = 512 ∧ field bs 12 4 = capacity ∧ 1 ≤ nf ∧ nf ≤ capacity then
    some { nextFree := nf, count := field bs 20 4, highest := field bs 24 4, formatId := field bs 28 4 }
  else none

/-- The container header block (R179); the record copy has both update numbers zero (R207). -/
def containerHeaderBlock (formatId : Nat) (c : Container) (dataCrc : BitVec 32) (copy : Option ShotRecord) : List Byte :=
  padTo 512 (padTo 64 (headerMark ++ le 4 formatId ++ le 4 c.index ++ le 4 c.shot ++ le 4 c.blocks ++ le 4 c.pitch ++
    le 4 c.lines ++ le 1 c.profile ++ le 3 0 ++ le 4 dataCrc.toNat) ++ mirrorEntry 0 copy)

/-- The commit block (R179). -/
def commitBlock (formatId : Nat) (c : Container) (dataCrc : BitVec 32) : List Byte :=
  padTo 512 (commitMark ++ le 4 formatId ++ le 4 c.index ++ le 4 c.shot ++ le 4 c.start ++ le 4 dataCrc.toNat ++
    le 4 (crc32 c.header).toNat)

/-- A container header block as the scan reads it (R181, step 1). -/
def headerFieldsOf (bs : List Byte) : Option HeaderFields :=
  if bs.take 8 = headerMark then
    some { formatId := field bs 8 4, index := field bs 12 4, shot := field bs 16 4, blocks := field bs 20 4,
           crc := crc32 bs }
  else none

/-- Whether a block is the commit block of a header at block `q` (R181, step 2). -/
def commitMatches (h : HeaderFields) (q : Nat) (bs : List Byte) : Bool :=
  decide (bs.take 8 = commitMark ∧ field bs 8 4 = h.formatId ∧ field bs 12 4 = h.index ∧ field bs 16 4 = h.shot ∧
    field bs 20 4 = q ∧ field bs 28 4 = h.crc.toNat)

end Sys2Proof.Machine
end

