-- ==== Sys2Proof/Machine/Flags.lean ====
section
/-! DEFINITION. Event flags, ATTN, marked pieces, mirror writes and answers (chapter 11). -/

namespace Sys2Proof.Machine

/-! ### Flags and ATTN -/

/-- ATTN is asserted exactly when some flag and its enable are both set (R205). -/
def attnOf (flags enables : BitVec 18) : Bool := decide (flags &&& enables ≠ 0)

/-- The flags take a new value and ATTN follows (R205). -/
def Rqe.setFlags (q : Rqe) (flags : BitVec 18) : Rqe := { q with flags := flags, attn := attnOf flags q.enables }

/-- The enables take a new value and ATTN follows (R204, R205). -/
def Rqe.setEnables (q : Rqe) (enables : BitVec 18) : Rqe :=
  { q with enables := enables, attn := attnOf q.flags enables }

/-- Marks a piece, unless it is marked already (R200). -/
def Rqe.mark (q : Rqe) (k : Nat) : Rqe := if q.marked.contains k then q else { q with marked := q.marked ++ [k] }

/-- An owner has an occurrence of an event to raise (R201): it does so once what shows the event has been written. -/
def Rqe.raise (q : Rqe) (f : EventFlag) : Rqe := { q with raises := q.raises ++ [{ flag := f, hold := none }] }

def raise (f : EventFlag) (s : State) : State := { s with rqe := s.rqe.raise f }
def mark (k : Nat) (s : State) : State := { s with rqe := s.rqe.mark k }

/-- Everything that was to be written first has been written. -/
def Hold.done (h : Hold) : Bool := h.jobs == 0 && h.pieces.isEmpty && !h.writing

/-- A mirror write has been made: one fewer to wait for. -/
def Hold.jobDone (h : Hold) : Hold := { h with jobs := h.jobs - 1 }

/-- A piece is granted the port: its write is in progress. -/
def Hold.pieceGranted (k : Nat) (h : Hold) : Hold :=
  { h with pieces := h.pieces.filter fun j => j != k, writing := h.writing || h.pieces.contains k }

/-- The write of a piece is complete. -/
def Hold.pieceDone (h : Hold) : Hold := { h with writing := false }

/-- Changes what the request in service waits for before it is answered. -/
def Service.mapHold (f : Hold → Hold) (v : Service) : Service :=
  match v.stage with
  | .answering a h => { v with stage := .answering a (f h) }
  | .reading .. | .handed _ | .answered _ => v

/-- Changes what every owner waits for. -/
def Rqe.mapHolds (f : Hold → Hold) (q : Rqe) : Rqe :=
  { q with raises := q.raises.map fun r => { r with hold := r.hold.map f }, service := q.service.map (Service.mapHold f) }

/-- What an occurrence waits for has all been written. -/
def Raise.ripe (r : Raise) : Bool := r.hold.any Hold.done

/-- A raise reaches the RQE: the flag goes into the image and piece 0 is marked; to a flag set or raised already it adds
nothing (R201). -/
def Rqe.make (q : Rqe) (f : EventFlag) : Rqe :=
  if q.flags &&& f.mask ≠ 0 ∨ q.made.contains f then q else { q with made := q.made ++ [f] }.mark 0

/-- The owners whose writes are all made raise their flags, in the order of their occurrences (R201). -/
def Rqe.makeRaises (q : Rqe) : Rqe :=
  (q.raises.filter Raise.ripe).foldl (fun q r => q.make r.flag) { q with raises := q.raises.filter fun r => !r.ripe }

/-- Clears the flags of a mask, with the raises of them that the RQE has and has not set yet, and re-evaluates ATTN. An
occurrence whose owner has still to raise it is not lost (R202). -/
def Rqe.clear (q : Rqe) (m : BitVec 18) : Rqe :=
  let q := { q with made := q.made.filter fun f => f.mask &&& m == 0, carried := q.carried.filter fun f => f.mask &&& m == 0 }
  (q.setFlags (q.flags &&& ~~~m)).mark 0

/-- The write of piece 0 that carries them is complete: the carried flags become set (R201). -/
def Rqe.setCarried (q : Rqe) : Rqe :=
  let flags := q.carried.foldl (fun w f => w ||| f.mask) q.flags
  { q.setFlags flags with made := q.made.filter fun f => !q.carried.contains f, carried := [] }

/-! ### Mirror writes -/

/-- Queues the write of a shot table mirror entry, raising its update number (R206). -/
def Rqe.mirrorShot (q : Rqe) (e : Nat) (content : Option ShotRecord) : Rqe :=
  let u := wrapSucc (q.updates.getD e 0)
  { q with updates := q.updates.set e u, jobs := q.jobs ++ [.shotEntry e content u 0] }

/-- The content of the last write queued of an entry that has not begun, if there is one. -/
def Rqe.queuedContent (q : Rqe) (e : Nat) : Option (Option ShotRecord) :=
  q.jobs.reverse.findSome? fun j => match j with
    | .shotEntry d content _ 0 => if d = e then some content else none
    | .shotEntry .. | .errorEntry .. | .errorHeader .. => none

/-- Queues the rewrite of a shot's mirror entry at the moment a rule calls for it, whether or not the record changed: an
occurrence's charge, before the log's own writes (R134), the dark offset (R94), a TEMP warning (R156). -/
def rewriteShot (shot : Nat) (s : State) : State :=
  match s.stb.find shot with
  | some r => { s with rqe := s.rqe.mirrorShot r.entry (some r) }
  | none => s

def rewriteShots : List Nat → State → State
  | [], s => s
  | n :: ns, s => rewriteShots ns (rewriteShot n s)

/-- Queues the write of an error log position (R137). -/
def Rqe.mirrorError (q : Rqe) (k : Nat) (content : Option LogEntry) : Rqe :=
  { q with jobs := q.jobs ++ [.errorEntry k content] }

/-- Queues the write of the error log header, raising its update number (R137, R206). -/
def mirrorErrorHeader (s : State) : State :=
  let u := wrapSucc s.fmc.logUpdate
  { s with fmc := { s.fmc with logUpdate := u }
           rqe := { s.rqe with jobs := s.rqe.jobs ++ [.errorHeader u s.fmc.errlog.length s.fmc.overflow] } }

/-! ### Serving requests and answering (R197, R198) -/

/-- Whether the RQE serves requests (R197). -/
def serving (s : State) : Bool := s.hmp.path == .run && !s.hmp.sleepAsked

/-- The address of a ring entry, and of its completion. -/
def entryAddr (k : Nat) : Nat := Config.ringBase + 128 * k
def completionAddr (k : Nat) : Nat := entryAddr k + 96

/-- Presents a transaction to the arbiter: it arrives after every transaction that waits (R63). -/
def present (t : Txn) (s : State) : State := { s with fmc := { s.fmc with pending := s.fmc.pending ++ [t] } }

/-- The request in service is answered: its completion is presented as one transaction of four whole codewords (R198);
a request without a ring entry has none to write and leaves service (log 3). -/
def answer (a : Answer) (s : State) : State :=
  let s := { s with rqe := { s.rqe with lastAnswer := some a } }
  match s.rqe.service with
  | none => s
  | some v =>
    match v.index with
    | some k =>
      present { kind := .completionWrite, addr := completionAddr k, len := 32 }
        { s with rqe := { s.rqe with service := some { v with stage := .answered a } } }
    | none => { s with rqe := { s.rqe with service := none } }

/-- The owner has judged the request, and its answer waits until the next `jobs` mirror writes and a piece of the status block
have been written (R115, R138). -/
def answerAfter (a : Answer) (jobs piece : Nat) (s : State) : State :=
  let hold : Hold := { jobs := jobs, pieces := [piece], writing := false }
  { s with rqe := { s.rqe.mark piece with service := s.rqe.service.map fun v => { v with stage := .answering a hold } } }

/-- The answer that waits is given once all it waits for has been written (R115, R138). -/
def payReply (s : State) : State :=
  match s.rqe.service with
  | none => s
  | some v =>
    match v.stage with
    | .answering a h => if h.done then answer a s else s
    | .reading .. | .handed _ | .answered _ => s

/-- An answer without a result. -/
def reply (c : Code) (s : State) : State := answer { code := c } s

/-- The owner takes a request: the one handed to it by the RQE, or, when the ring has none in service, the one its
sender gives it directly (log 3). In any other case the owner has not been handed it and nothing happens. -/
def serve (q : Request) (judge : State → State) (s : State) : State :=
  match s.rqe.service with
  | some v => if v.stage = .handed q then judge s else s
  | none =>
    if serving s then judge { s with rqe := { s.rqe with service := some { index := none, tag := 0, stage := .handed q } } }
    else s

end Sys2Proof.Machine
end

