-- ==== Sys2Proof/Machine/Integrity.lean ====
section
/-! DEFINITION. The Frame Memory Controller's accesses (chapter 7): error occurrences, the error log, writes with their
merges, poison and injections, reads as their sources receive them. -/

namespace Sys2Proof.Machine

/-! ### Error occurrences (R134 to R137) -/

/-- One error the FMC has found: its class, none for a correctable one, with the first source it would be logged under. -/
structure Occurrence where
  addr     : Nat
  syndrome : BitVec 8
  cls      : Option ErrorClass
  source   : ErrorSource
  deriving DecidableEq, Repr

/-- Charges an occurrence to the record that holds the codeword's slot, whose mirror is written before the log's (R134,
R136). -/
def chargeRecord (o : Occurrence) (s : State) : State :=
  match s.stb.charged o.addr with
  | none => s
  | some r =>
    rewriteShot r.shot { s with stb := s.stb.update r.shot fun r =>
        match o.cls with
        | none => { r with corrected := satAdd max16 r.corrected 1 }
        | some _ => { r with uncorrectable := satAdd max16 r.uncorrectable 1, flags := { r.flags with damaged := true } } }

/-- The position, from `k` on, of the log entry for an address. -/
def logIndex (addr : Nat) : Nat → List LogEntry → Option Nat
  | _, [] => none
  | k, e :: es => if e.addr = addr then some k else logIndex addr (k + 1) es

/-- Enters an occurrence in the error log: a hit, a new entry, or an overflow, with the mirror writes of each (R135,
R137). DESIGN CHOICE (log 51): a hit whose count is saturated rewrites the position and the header like any other. -/
def logOccurrence (o : Occurrence) (cls : ErrorClass) (s : State) : State :=
  match logIndex o.addr 0 s.fmc.errlog with
  | some k =>
    let log := s.fmc.errlog.modify k fun e => { e with hits := satAdd max16 e.hits 1 }
    mirrorErrorHeader { s with fmc := { s.fmc with errlog := log }, rqe := s.rqe.mirrorError k log[k]? }
  | none =>
    if s.fmc.errlog.length < 16 then
      let e : LogEntry := { addr := o.addr, syndrome := o.syndrome, cls := cls, source := o.source, hits := 1,
                            shot := (s.stb.charged o.addr).map (·.shot) }
      mirrorErrorHeader { s with fmc := { s.fmc with errlog := s.fmc.errlog ++ [e] }
                                 rqe := s.rqe.mirrorError s.fmc.errlog.length (some e) }
    else mirrorErrorHeader { s with fmc := { s.fmc with overflow := satAdd max32 s.fmc.overflow 1 } }

/-- Counts a correctable occurrence by its region, any other in the uncorrectable counter (R134). -/
def Fmc.count (f : Fmc) (o : Occurrence) : Fmc :=
  match o.cls with
  | some _ => { f with uncorrectable := satAdd max32 f.uncorrectable 1 }
  | none =>
    if o.addr < Config.frameBase then { f with corrGeneral := satAdd max32 f.corrGeneral 1 }
    else if o.addr < Config.frameEnd then { f with corrFrame := satAdd max32 f.corrFrame 1 }
    else { f with corrControl := satAdd max32 f.corrControl 1 }

/-- Reports an occurrence: record, log, counters, event, in this order (R134). -/
def occur (o : Occurrence) (s : State) : State :=
  let s := chargeRecord o s
  let s := match o.cls with
    | some c => logOccurrence o c s
    | none => s
  raise (if o.cls.isSome then .memUncorrectable else .memCorrected) { s with fmc := s.fmc.count o }

/-- The class under which a read is logged (R135). -/
def WordClass.logged : WordClass → Option ErrorClass
  | .poisoned => some .poisoned
  | .uncorrectable => some .uncorrectable
  | _ => none

/-- Reports what the read of a codeword found, if it found an error. -/
def report (src : ErrorSource) (cw : Nat) (c : Checked) (s : State) : State :=
  if c.cls = .clean then s
  else occur { addr := cw, syndrome := c.syndrome, cls := c.cls.logged, source := src } s

/-- Offers a codeword to the corrected-address queue (R143). -/
def Fmc.offer (f : Fmc) (cw : Nat) : Fmc :=
  if f.corrected.contains cw || decide (8 ≤ f.corrected.length) then f
  else { f with corrected := f.corrected ++ [cw] }

/-! ### Writes (R129 to R131, R140, R144) -/

/-- The write of one codeword: an armed injection at it spoils the check bits and is disarmed (R140), and a watch on it
is marked (R144). -/
def storeWord (cw : Nat) (data : BitVec 64) (check : BitVec 8) (s : State) : State :=
  let spoiled := match s.fmc.injection with
    | some (a, m) => if a = cw then check ^^^ m else check
    | none => check
  let injection := s.fmc.injection.filter fun i => i.1 != cw
  let scrub := s.fmc.scrub.map fun st => if st.addr = cw then { st with watch := st.watch.map fun _ => true } else st
  { s with mem := s.mem.store cw data spoiled, fmc := { s.fmc with injection := injection, scrub := scrub } }

/-- Puts new bytes in place of a codeword's old ones. -/
def mergeBytes (cw : Nat) (old : List Byte) (cells : List Host.Cell) : List Byte :=
  (List.range 8).map fun k => ((cells.find? fun c => c.1 == cw + k).map (·.2)).getD (old.getD k 0)

/-- The check bits of data, with poison where it applies. -/
def checkOf (poisoned : Bool) (d : BitVec 64) : BitVec 8 := if poisoned then checkBits d ^^^ poison else checkBits d

/-- Reports the PORT_PARITY occurrence of a codeword a parity-marked burst writes (R131). -/
def reportParity (parity : Bool) (src : ErrorSource) (cw : Nat) (s : State) : State :=
  if parity then occur { addr := cw, syndrome := poison, cls := some .portParity, source := src } s else s

/-- Writes the bytes given of one codeword: whole without a read, or merged by read-modify-write, poisoned by a failed
merge or a parity mark (R129, R130, R131). -/
def writeCodeword (src : ErrorSource) (parity : Bool) (cells : List Host.Cell) (cw : Nat) (s : State) : State :=
  let mine := cells.filter fun c => codewordOf c.1 == cw
  if mine = [] then s
  else if (List.range 8).all fun k => mine.any fun c => c.1 == cw + k then
    let d := BitVec.ofNat 64 (fromLe (mergeBytes cw [] mine))
    reportParity parity src cw (storeWord cw d (checkOf parity d) s)
  else
    let c := s.mem.check? cw
    let d := BitVec.ofNat 64 (fromLe (mergeBytes cw (le 8 c.data.toNat) mine))
    let s := storeWord cw d (checkOf (parity || c.cls.bad) d) s
    reportParity parity src cw (report src cw c s)

/-- Writes bytes, codeword by codeword in ascending order. -/
def writeBytes (src : ErrorSource) (parity : Bool) (cells : List Host.Cell) : List Nat → State → State
  | [], s => s
  | cw :: cws, s => writeBytes src parity cells cws (writeCodeword src parity cells cw s)

/-- The part's own whole-codeword write of a record at an address (R129). -/
def writeRecord (addr : Nat) (bytes : List Byte) (s : State) : State :=
  writeBytes .hostRmw false (cellsAt addr bytes) (codewordsOf addr bytes.length) s

/-! ### Reads (R132, R133) -/

/-- What a read of codewords gives: the data bytes its reader uses, and whether some codeword was not usable. -/
structure ReadResultBytes where
  bytes : List Byte
  bad   : Bool
  deriving DecidableEq, Repr

/-- Reads codewords in ascending order, reporting errors and offering correctable addresses to the scrubber's queue. -/
def readCodewords (src : ErrorSource) : List Nat → State → ReadResultBytes × State
  | [], s => (⟨[], false⟩, s)
  | cw :: cws, s =>
    let c := s.mem.check? cw
    let s := report src cw c s
    let s := if c.cls = .correctable then { s with fmc := s.fmc.offer cw } else s
    let (r, s) := readCodewords src cws s
    (⟨le 8 c.data.toNat ++ r.bytes, c.cls.bad || r.bad⟩, s)

/-- Reads the bytes of a range: each codeword it touches is read once. -/
def readRange (src : ErrorSource) (a len : Nat) (s : State) : ReadResultBytes × State :=
  let (r, s) := readCodewords src (codewordsOf a len) s
  (⟨(r.bytes.drop (a % 8)).take len, r.bad⟩, s)

/-! ### Transactions (R62, R63) -/

def TxnKind.source : TxnKind → Source
  | .hostRead _ | .hostWrite | .captureWrite => .host
  | .entryRead | .completionWrite | .pieceWrite _ | .mirrorWrite => .rqe
  | .slotRead | .lostRead | .cardWrite => .cde
  | .scrubRead | .scrubRewrite _ => .scrubber
  | .imageRead => .prs
  | .listRead | .mapWrite => .dfm

/-- The codewords a transaction touches. -/
def Txn.codewords (t : Txn) : List Nat :=
  if t.bytes = [] then codewordsOf t.addr t.len else (t.bytes.map fun c => codewordOf c.1).dedup

/-- The transactions that R63 does not bar: those no earlier one shares a codeword with. -/
def readyTxns (seen : List Nat) : List Txn → List Txn
  | [] => []
  | t :: ts =>
    let cws := t.codewords
    if cws.any seen.contains then readyTxns (seen ++ cws) ts else t :: readyTxns (seen ++ cws) ts

def Fmc.waits (f : Fmc) (p : TxnKind → Bool) : Bool := f.pending.any fun t => p t.kind

end Sys2Proof.Machine
end

