-- ==== Sys2Proof/Machine/Defects.lean ====
section
/-! DEFINITION. The defect map: coverage, insertion, list checks and the mirror rewrite (chapter 6). -/

namespace Sys2Proof.Machine

/-- Whether an entry covers the pixel at line `y`, sensor column `c` (R113). -/
def DefectEntry.covers (e : DefectEntry) (y c : Nat) : Bool :=
  e.column == c && (match e.length with
    | none => e.row == y
    | some n => decide (e.row ≤ y ∧ y < e.row + n))

/-- Whether the map covers a pixel (R113, R121). -/
def Dfm.covers (d : Dfm) (y c : Nat) : Bool := d.entries.any fun e => e.covers y c

/-- The sorted order of (row, column) (R114). -/
def entryBefore (r c r' c' : Nat) : Bool := decide (r < r' ∨ (r = r' ∧ c < c'))

/-- The sorted position of a new entry at (row, column) (R124). -/
def Dfm.position (d : Dfm) (row column : Nat) : Nat := d.entries.countP fun e => entryBefore e.row e.column row column

/-! ### Mirror rewrite (R115) -/

/-- Begins a rewrite of positions `first` to `stop - 1`, the sequence becoming odd, or widens the one in progress. -/
def Dfm.beginRewrite (d : Dfm) (first stop : Nat) : Dfm :=
  if stop ≤ first then d
  else match d.rewrite with
    | some r => { d with rewrite := some { next := min r.next first, stop := max r.stop stop } }
    | none => { d with rewrite := some { next := first, stop := stop }, sequence := wrapSucc d.sequence }

/-- The bytes of `n` mirror positions from `k` on. -/
def Dfm.mirrorBytes (d : Dfm) (k n : Nat) : List Byte := (List.range n).flatMap fun i => defectBytes d.entries[k + i]?

/-- The first position at which two lists differ. -/
def firstDiff (k : Nat) : List DefectEntry → List DefectEntry → Nat
  | a :: as, b :: bs => if a = b then firstDiff (k + 1) as bs else k
  | _, _ => k

/-- Replaces the map, the rewrite running from the first position that differs (R119, R120). -/
def Dfm.replace (d : Dfm) (new : List DefectEntry) : Dfm :=
  { d with entries := new }.beginRewrite (firstDiff 0 d.entries new)
    (if d.entries = new then 0 else max d.entries.length new.length)

/-- Whether the rewrite of the reset is still in progress (R116): it alone runs at sequence 1. -/
def Dfm.resetRewrite (d : Dfm) : Bool := d.rewrite.isSome && d.sequence == 1

/-! ### Dark calibration (R124, R125) -/

/-- The rewrite of a line in which entries were inserted, at the line's end (R125). -/
def Dfm.endLine (d : Dfm) : Dfm :=
  match d.firstIns with
  | none => d
  | some p => { d with firstIns := none }.beginRewrite p d.entries.length

/-- The readout has moved to line `y` (R121, R125): an earlier line with insertions ends, the map cursor follows. DESIGN
CHOICE (log 50): at each beat taken the cursor stands past the entries whose row lies below the beat's line. -/
def Dfm.toLine (d : Dfm) (y : Nat) : Dfm :=
  let d := if d.insLine < y then d.endLine else d
  { d with insLine := y, cursor := d.entries.countP fun e => decide (e.row < y) }

/-- An insertion at position `p` during a rewrite widens it, so that no mirror that mixes two maps is ever shown as whole
(R115). -/
def Dfm.widen (d : Dfm) (p : Nat) : Dfm := if d.rewrite.isSome then d.beginRewrite p d.entries.length else d

/-- A candidate below the map's limit is inserted (R124). -/
def Dfm.insert (d : Dfm) (row column : Nat) : Dfm :=
  let p := d.position row column
  { d with entries := d.entries.insertIdx p { row := row, column := column, length := none, found := true }
           firstIns := some (match d.firstIns with
             | some q => min q p
             | none => p)
           insLine := row }.widen p

/-- A candidate is inserted, or dropped when the map is full (R124). -/
def calibrate (row column : Nat) (s : State) : State :=
  if s.dfm.entries.length < Config.mapLimit then { s with dfm := s.dfm.insert row column }
  else
    let first := !s.dfm.fullRaised
    let s := { s with dfm := { s.dfm with drops := satAdd max32 s.dfm.drops 1, fullRaised := true } }
    if first then raise .mapFull s else s

/-- The readout start as the map sees it (R121). -/
def Dfm.readoutStart (d : Dfm) : Dfm := { d with cursor := 0, firstIns := none, insLine := 0, fullRaised := false }

/-- The map gives up the readout (R126). -/
def Dfm.readoutEnd (d : Dfm) : Dfm := { d with cursor := 0, firstIns := none, insLine := 0, fullRaised := false }

/-! ### List checks (R118) -/

/-- Why a list is refused (11 section 11.6). -/
inductive DefectReason where
  | address | count | range | order | overlap
  deriving DecidableEq, Repr

def DefectReason.code : DefectReason → Nat
  | .address => 1 | .count => 2 | .range => 3 | .order => 4 | .overlap => 5

/-- The check of the next entry against those that have passed (R118). -/
def judgeEntry (passed : List DefectEntry) (bs : List Byte) : DefectEntry ⊕ DefectReason :=
  match defectOf bs with
  | none => .inr .range
  | some e =>
    match passed.getLast? with
    | none => .inl e
    | some p =>
      if entryBefore e.row e.column p.row p.column then .inr .order
      else if (e.row = p.row ∧ e.column = p.column) ∨
          passed.any (fun q => q.length.isSome && q.covers e.row e.column) then .inr .overlap
      else .inl e

/-- Judges entries in index order, stopping at the first that fails (R118): the entries passed, and the reason if one
failed. -/
def judgeEntries : Nat → List DefectEntry → List Byte → List DefectEntry × Option DefectReason
  | 0, passed, _ => (passed, none)
  | n + 1, passed, bs =>
    match judgeEntry passed (bs.take 8) with
    | .inl e => judgeEntries n (passed ++ [e]) (bs.drop 8)
    | .inr r => (passed, some r)

end Sys2Proof.Machine
end

