-- ==== Sys2Proof/Machine/Pixel.lean ====
section
/-! DEFINITION. The development arithmetic (chapter 5), in exact integers. -/

namespace Sys2Proof.Machine

/-! ### Line black (R91, R92) -/

/-- The rounded mean of the good masked pixels of a parity (R92). -/
def blackMean (n s : Nat) : Nat := (s + n / 2) / n

def natDiff (a b : Nat) : Nat := max a b - min a b

/-- What settling one parity gives: its black, the held black afterwards, whether a B_line was rejected, and the
accepted B_line (R92). -/
structure Settled where
  black    : Nat
  held     : Nat
  rejected : Bool
  accepted : Option Nat
  deriving DecidableEq, Repr

/-- The black of one parity of a line (R92). -/
def settleParity (n s held tolerance : Nat) : Settled :=
  if n = 0 then { black := held, held := held, rejected := false, accepted := none }
  else
    let b := blackMean n s
    if tolerance < natDiff b held then { black := held, held := held, rejected := true, accepted := none }
    else { black := b, held := b, rejected := false, accepted := some b }

def optMin (o : Option Nat) (n : Nat) : Option Nat := some (match o with
  | none => n
  | some m => min m n)
def optMax (o : Option Nat) (n : Nat) : Option Nat := some (match o with
  | none => n
  | some m => max m n)

/-- An accepted B_line is taken into black min and black max (R92). -/
def Stats.acceptBlack (t : Stats) : Option Nat → Stats
  | none => t
  | some b => { t with blackMin := optMin t.blackMin b, blackMax := optMax t.blackMax b }

/-! ### Dark offset (R95, R96) -/

/-- The temperature of a shot (R95). -/
def shotTemperature : Option Int → Option Int → Int
  | some a, some b => (a + b) / 2
  | none, some b => b
  | some a, none => a
  | none, none => 100

/-- The dark rate at a temperature (R95); the division truncates toward zero. -/
def darkRate (table : List Nat) (t : Int) : Int :=
  if t ≤ -40 then table.getD 0 0
  else if 280 ≤ t then table.getD 8 0
  else
    let i := ((t + 40) / 40).toNat
    let a : Int := table.getD i 0
    let c : Int := table.getD (i + 1) 0
    a + Int.tdiv ((c - a) * (t - (-40 + 40 * i))) 40

/-- The dark offset D (R96). -/
def darkOffset (table : List Nat) (temp : Int) (integration : Nat) : Nat :=
  (clampInt 0 4095 ((darkRate table temp * integration + 800000) / 1600000)).toNat

/-! ### Gain (R97, R98) -/

/-- The grid cell along one axis, and the place in it (R97). -/
def gridCell (x spacing nodes : Nat) : Nat × Nat :=
  let i := min (x / spacing) (nodes - 2)
  (i, min (x - i * spacing) spacing)

/-- The gain of an active pixel (R98). -/
def Profile.gainAt (p : Profile) (x y : Nat) : Nat :=
  let c := channelOf p.bayer x y
  let (i, dx) := gridCell x p.sx p.gc
  let (j, dy) := gridCell y p.sy p.gr
  let top := p.node c i j * (p.sx - dx) + p.node c (i + 1) j * dx
  let bottom := p.node c i (j + 1) * (p.sx - dx) + p.node c (i + 1) (j + 1) * dx
  (top * (p.sy - dy) + bottom * dy + p.sx * p.sy / 2) / (p.sx * p.sy)

/-! ### The developed value (R99, R100) -/

/-- The developed value of an uncovered active pixel below the white clip (R100). -/
def developValue (v black dark gain pedestal : Nat) : Nat :=
  let e : Int := (v : Int) - black - dark
  (clampInt 0 16383 ((pedestal : Int) + (e * gain + 2048) / 4096)).toNat

/-- The developed value of an uncovered active pixel, and whether it is clipped (R99, R100). -/
def Profile.develop (p : Profile) (v black dark x y : Nat) : Nat × Bool :=
  if p.whiteClip ≤ v then (16383, true)
  else (developValue v black dark (p.gainAt x y) p.pedestal, false)

/-- The value of a covered pixel from its usable neighbours (R122). -/
def substitute (left right : Option Nat) (pedestal : Nat) : Nat :=
  match left, right with
  | some l, some r => (l + r + 1) / 2
  | some l, none => l
  | none, some r => r
  | none, none => pedestal

/-- A final value is counted in its histogram bin (R104). -/
def Stats.countValue (t : Stats) (y : Nat) : Stats :=
  { t with histogram := t.histogram.modify (y / 1024) fun n => satAdd max32 n 1 }

end Sys2Proof.Machine
end

