-- ==== Sys2Proof/Machine/Readout.lean ====
section
/-! DEFINITION. The Pixel Conditioning Engine's readout (chapter 5): capture beats, the cursor, line black, the line hold
buffer, statistics, and the end of a readout with what the Profile Store does at it. -/

namespace Sys2Proof.Machine

/-! ### The Profile Store at the end of use (R51, R78) -/

/-- A profile stops being in use: a waiting image becomes live, and PROFILE_APPLIED is raised for it. -/
def releaseProfile (id : Nat) (s : State) : State :=
  match s.prs.entries[id]? with
  | some e =>
    match e.waiting with
    | some p =>
      raise .profileApplied
        <| mark 1 { s with prs := { s.prs with entries := s.prs.entries.set id { live := some p, waiting := none } } }
    | none => s
  | none => s

/-- The live image of a profile id. -/
def Prs.live (p : Prs) (id : Nat) : Option Profile := (p.entries[id]?).bind (·.live)

/-! ### Pixels of a beat (R87, R89) -/

/-- A pixel's container in a beat: received with its 14-bit raw value, with exactly one byte enabled, or not enabled. -/
inductive RawPixel where
  | absent | half | received (v : Nat)
  deriving DecidableEq, Repr

/-- The pixel of even (`k = 0`) or odd (`k = 1`) column of a beat (R87, R89). -/
def PostedBeat.pixel (b : PostedBeat) (k : Nat) : RawPixel :=
  match b.enables.getLsbD (2 * k), b.enables.getLsbD (2 * k + 1) with
  | true, true => .received ((b.data >>> (16 * k)).toNat % 16384)
  | false, false => .absent
  | _, _ => .half

def Stats.countPartial (t : Stats) : RawPixel → Stats
  | .half => { t with partials := satAdd max32 t.partials 1 }
  | _ => t

/-- The enabled bytes of a beat, as they came. -/
def PostedBeat.cells (b : PostedBeat) : List Host.Cell :=
  ((List.range 4).filter fun k => b.enables.getLsbD k).map fun k => (b.addr + k, laneOf b.data k)

/-! ### Words handed to the FMC (R90) -/

/-- A run of consecutive words of a burst: one transaction. `next` is the address the run would go on at. -/
structure WordRun where
  addr   : Nat
  next   : Nat
  cells  : List Host.Cell
  parity : Bool
  closed : Bool
  deriving DecidableEq, Repr

/-- A readout at work on a burst: the state, the readout, the runs of words it has for the FMC. -/
structure Work where
  s    : State
  r    : Readout
  runs : List WordRun

/-- Adds a word to the open run it continues, or begins a run. -/
def addWord (addr : Nat) (cells : List Host.Cell) (parity closed : Bool) (runs : List WordRun) : List WordRun :=
  match runs.getLast? with
  | some l =>
    if !l.closed && !closed && l.next == addr && l.parity == parity then
      runs.dropLast ++ [{ l with next := addr + 4, cells := l.cells ++ cells }]
    else runs ++ [{ addr := addr, next := addr + 4, cells := cells, parity := parity, closed := closed }]
  | none => [{ addr := addr, next := addr + 4, cells := cells, parity := parity, closed := closed }]

def closeRun (runs : List WordRun) : List WordRun :=
  match runs.getLast? with
  | some l => runs.dropLast ++ [{ l with closed := true }]
  | none => []

/-- The slot address of an offset. -/
def Work.addr (w : Work) (o : Nat) : Nat := w.s.stb.slotBase w.r.slot + o

/-- The two bytes of a pixel's container, in its low 14 bits (R90). -/
def pixelCells (a v : Nat) : List Host.Cell := cellsAt a (le 2 v)

def slotCells (a : Nat) : PixelSlot → List Host.Cell
  | .value y => pixelCells a y
  | _ => []

/-- Hands a word whose pixels have their values. -/
def Work.emit (w : Work) (o : Nat) (even odd : PixelSlot) (parity closed : Bool) : Work :=
  { w with runs := addWord (w.addr o) (slotCells (w.addr o) even ++ slotCells (w.addr o + 2) odd) parity closed w.runs }

def Work.emitRaw (w : Work) (b : PostedBeat) (parity : Bool) : Work :=
  { w with runs := addWord b.addr b.cells parity false w.runs }

/-- Presents the runs to the FMC as host transactions, in order (R90). DESIGN CHOICE (log 49): a run of words none of whose
bytes is enabled presents none. -/
def presentRuns : List WordRun → State → State
  | [], s => s
  | l :: ls, s =>
    presentRuns ls (if l.cells = [] then s
      else present { kind := .captureWrite, addr := l.addr, len := l.next - l.addr, bytes := l.cells, parity := l.parity } s)

/-! ### Substitution and the line hold buffer (R101 to R103, R122) -/

/-- A neighbour's value if it is usable: received with a developed value, and not covered now. -/
def usable (d : Dfm) (line column : Nat) (v : Option Nat) : Option Nat := if d.covers line column then none else v

/-- Settles a covered pixel at active coordinate `x` (R122); any other pixel keeps what it has. -/
def settlePixel (w : Work) (line x : Nat) (left right : Option Nat) : PixelSlot → PixelSlot × Stats
  | .covered =>
    let m := w.r.image.masked
    let l := if x < 2 then none else usable w.s.dfm line (m + x - 2) left
    let y := substitute l (usable w.s.dfm line (m + x + 2) right) w.r.image.pedestal
    (.value y, { w.r.stats with substituted := satAdd max32 w.r.stats.substituted 1 }.countValue y)
  | p => (p, w.r.stats)

/-- Settles the covered pixels of a word and hands it. -/
def Work.settleWord (w : Work) (h : HeldWord) (rightEven rightOdd : Option Nat) (closed : Bool) : Work :=
  let (even, stats) := settlePixel w h.line h.x h.leftEven rightEven h.even
  let w := { w with r := { w.r with stats := stats } }
  let (odd, stats) := settlePixel w h.line (h.x + 1) h.leftOdd rightOdd h.odd
  let w := { w with r := { w.r with stats := stats } }
  w.emit h.offset even odd h.parity closed

/-- Releases the waiting word, if there is one, with its right neighbours' values (R103). -/
def Work.release (w : Work) (rightEven rightOdd : Option Nat) : Work :=
  match w.r.wait with
  | none => w
  | some h => { w with r := { w.r with wait := none } }.settleWord h rightEven rightOdd true

/-! ### Masked columns (R91) -/

def BlackAcc.add (a : BlackAcc) (odd : Bool) (v : Nat) : BlackAcc :=
  if odd then { a with nOdd := a.nOdd + 1, sOdd := a.sOdd + v } else { a with nEven := a.nEven + 1, sEven := a.sEven + v }

/-- A masked pixel joins the accumulator of its line, unless the map covers it (R91). -/
def gatherBlack (d : Dfm) (line column : Nat) (px : RawPixel) (acc : Option BlackAcc) : Option BlackAcc :=
  match px with
  | .received v =>
    let a := match acc with
      | some a => if a.line = line then a else { line := line }
      | none => { line := line }
    some (if d.covers line column then a else a.add (column % 2 == 1) v)
  | _ => acc

/-- A received masked pixel is written as its raw value (R90). -/
def maskedSlot : RawPixel → PixelSlot
  | .received v => .value v
  | _ => .absent

def takeMasked (b : PostedBeat) (parity : Bool) (line column o : Nat) (w : Work) : Work :=
  let px0 := b.pixel 0
  let px1 := b.pixel 1
  let acc := gatherBlack w.s.dfm line (column + 1) px1 (gatherBlack w.s.dfm line column px0 w.r.acc)
  let stats := (w.r.stats.countPartial px0).countPartial px1
  { w with r := { w.r with acc := acc, stats := stats, last := some { offset := o, even := none, odd := none } } }.emit
    o (maskedSlot px0) (maskedSlot px1) parity false

/-! ### Active pixels (R92, R99, R100, R123) -/

/-- Settles the black of a line at its first active beat (R92). -/
def Readout.settleLine (r : Readout) (line : Nat) : Readout :=
  if r.settled.any fun b => b.line == line then r
  else
    let a := match r.acc with
      | some a => if a.line = line then a else { line := line }
      | none => { line := line }
    let e := settleParity a.nEven a.sEven r.heldEven r.image.tolerance
    let o := settleParity a.nOdd a.sOdd r.heldOdd r.image.tolerance
    let t := (r.stats.acceptBlack e.accepted).acceptBlack o.accepted
    { r with
      settled := some { line := line, even := e.black, odd := o.black }
      heldEven := e.held
      heldOdd := o.held
      stats := { t with
        blackRejects := satAdd max16 t.blackRejects (bit e.rejected + bit o.rejected)
        heldBlack := satAdd max16 t.heldBlack (bit (a.nEven == 0 || a.nOdd == 0)) } }

/-- The settled black of a parity. -/
def Readout.black (r : Readout) (odd : Bool) : Nat :=
  match r.settled with
  | some b => if odd then b.odd else b.even
  | none => 0

/-- Whether the shot is a dark calibration. -/
def Work.calibrating (w : Work) : Bool := ((w.s.stb.find w.r.shot).map (·.flags.darkCal)).getD false

/-- Takes one active pixel: covered, or developed, counted and, in a dark calibration, tested (R99, R100, R123). -/
def takePixel (line x : Nat) (px : RawPixel) (w : Work) : PixelSlot × Work :=
  let p := w.r.image
  let w := { w with r := { w.r with stats := w.r.stats.countPartial px } }
  match px with
  | .received v =>
    let w := if x + 1 = p.width then { w with r := { w.r with stats :=
      { w.r.stats with lines := satAdd 9216 w.r.stats.lines 1 } } } else w
    if w.s.dfm.covers line (p.masked + x) then (.covered, w)
    else
      let black := w.r.black (x % 2 == 1)
      let (y, clip) := p.develop v black (natOr0 w.r.dark) x line
      let t := w.r.stats.countValue y
      let w := { w with r := { w.r with stats := { t with clipped := satAdd max32 t.clipped (bit clip) } } }
      (.value y, if w.calibrating && decide (black + p.hot < v) then { w with s := calibrate line (p.masked + x) w.s } else w)
  | _ => (.absent, w)

/-- The developed value a neighbour would use. -/
def PixelSlot.developed : PixelSlot → Option Nat
  | .value y => some y
  | _ => none

/-- Takes an active beat (R92, R99 to R103). DESIGN CHOICE (log 63): the beat's candidates go into the map before the waiting
word that the beat releases is settled. -/
def takeActive (b : PostedBeat) (parity : Bool) (line x o : Nat) (w : Work) : Work :=
  let w := { w with r := w.r.settleLine line }
  let (even, w) := takePixel line x (b.pixel 0) w
  let (odd, w) := takePixel line (x + 1) (b.pixel 1) w
  let w := w.release even.developed odd.developed
  let left := if x < 2 then none else w.r.last.filter fun l => l.offset + 4 == o
  let h : HeldWord :=
    { offset := o, line := line, x := x, even := even, odd := odd, leftEven := left.bind (·.even),
      leftOdd := left.bind (·.odd), parity := parity }
  let w := { w with r := { w.r with last := some { offset := o, even := even.developed, odd := odd.developed } } }
  if even = .covered ∨ odd = .covered then
    if x + 2 < w.r.image.width then { w with r := { w.r with wait := some h }, runs := closeRun w.runs }
    else w.settleWord h none none false
  else w.emit o even odd parity false

/-! ### Beats and bursts (R87, R88) -/

/-- The cursor moves to `o`, past words it counts as gaps; a waiting word is released (R88, R103). -/
def Work.jump (w : Work) (o : Nat) : Work :=
  if w.r.cursor < o then
    let w := { w with r := { w.r with stats :=
      { w.r.stats with gaps := satAdd max32 w.r.stats.gaps ((o - w.r.cursor) / 4) } } }
    let w := w.release none none
    { w with r := { w.r with cursor := o } }
  else w

/-- Takes one capture beat by its kind and the cursor (R87, R88). -/
def takeBeat (parity : Bool) (b : PostedBeat) (w : Work) : Work :=
  let p := w.r.image
  let o := w.s.stb.offsetIn w.r.slot b.addr
  if p.frameBytes ≤ o then (w.jump p.frameBytes).emitRaw b parity
  else if o < w.r.cursor then
    { w with r := { w.r with stats := { w.r.stats with behind := satAdd max32 w.r.stats.behind 1 } } }
  else
    let w := w.jump o
    let w := { w with r := { w.r with cursor := o + 4 } }
    let line := o / p.pitch
    let at_ := o % p.pitch
    let w := { w with s := { w.s with dfm := w.s.dfm.toLine line } }
    if at_ < 2 * p.masked then takeMasked b parity line (at_ / 2) o w
    else if at_ < 2 * (p.masked + p.width) then takeActive b parity line (at_ / 2 - p.masked) o w
    else w.emitRaw b parity

def takeBeats (parity : Bool) : List PostedBeat → Work → Work
  | [], w => w
  | b :: bs, w => takeBeats parity bs (takeBeat parity b w)

/-- Whether a beat is an active beat at or after the cursor (R94). -/
def Readout.needsOffset (r : Readout) (base : Nat) (b : PostedBeat) : Bool :=
  let p := r.image
  let o := b.addr - base
  let at_ := o % p.pitch
  decide (o < p.frameBytes ∧ r.cursor ≤ o ∧ 2 * p.masked ≤ at_ ∧ at_ < 2 * (p.masked + p.width))

/-- Whether the PCE accepts the beats of a burst now (R94). -/
def accepts (s : State) (beats : List PostedBeat) : Bool :=
  match s.pce.readout with
  | none => true
  | some r => r.dark.isSome || r.ending.isSome || !beats.any (r.needsOffset (s.stb.slotBase r.slot))

/-! ### The end of a readout (R105 to R108, R126) -/

/-- The record leaves READING, the profile and the map are given up, the engine is IDLE (R108, R126). -/
def leaveReadout (r : Readout) (s : State) : State :=
  let cal := ((s.stb.find r.shot).map (·.flags.darkCal)).getD false
  let profile := (s.stb.find r.shot).map (·.profile)
  let s := { s with stb := s.stb.move r.shot (if cal then .calibrated else .held)
                    dfm := s.dfm.readoutEnd
                    pce := { readout := none, idle := none } }
  let s := match profile with
    | some id => releaseProfile id s
    | none => s
  if cal then s else raise .held s

/-- A readout ends, COMPLETE or INCOMPLETE (R108). A calibration readout first completes its mirror rewrite (R126). DESIGN
CHOICE (log 48): its statistics and INCOMPLETE are written into the record before that rewrite is complete. -/
def endReadout (incomplete : Bool) (r : Readout) (s : State) : State :=
  let w : Work := ({ s := s, r := r, runs := [] } : Work).release none none
  let s := presentRuns w.runs w.s
  let s := { s with stb := s.stb.update r.shot fun rec =>
    { rec with stats := w.r.stats, flags := { rec.flags with incomplete := rec.flags.incomplete || incomplete } } }
  let cal := ((s.stb.find r.shot).map (·.flags.darkCal)).getD false
  let s := if cal then { s with dfm := s.dfm.endLine } else s
  if cal && s.dfm.rewrite.isSome then
    { s with pce := { readout := some { w.r with ending := some incomplete }, idle := none } }
  else leaveReadout w.r s

/-- The microseconds of a readout's idle limit (R107). -/
def Readout.idleTime (r : Readout) : Nat := r.image.idleLimit * 1000

/-- The PCE takes the capture beats of a burst; a cursor at the frame bytes ends the readout COMPLETE (R87, R106). A
readout that has ended drops them (log 12). -/
def takeCapture (parity : Bool) (beats : List PostedBeat) (s : State) : State :=
  match s.pce.readout with
  | none => s
  | some r =>
    if r.ending.isSome then s
    else
      let w := takeBeats parity beats { s := s, r := r, runs := [] }
      let s := presentRuns w.runs w.s
      let s := { s with pce := { s.pce with readout := some w.r } }
      if w.r.image.frameBytes ≤ w.r.cursor then endReadout false w.r s else s

/-- The arrival of a capture burst starts the idle timer again (R107). -/
def restartIdle (s : State) : State :=
  match s.pce.readout with
  | some r => if r.ending.isSome then s else { s with pce := { s.pce with idle := some r.idleTime } }
  | none => s

/-- A readout starts (R86): the shot, the slot and the live image are taken, the record gets its line pitch. -/
def startReadout (shot slot : Nat) (p : Profile) (s : State) : State :=
  let readout : Readout :=
    { shot := shot, slot := slot, image := p, cursor := 0, heldEven := p.nominalBlack, heldOdd := p.nominalBlack,
      acc := none, settled := none, dark := none, wait := none, last := none, stats := {}, ending := none }
  { s with
    stb := s.stb.update shot fun r => { r with pitch := some p.pitch }
    dfm := s.dfm.readoutStart
    pce := { readout := some readout, idle := some readout.idleTime } }

end Sys2Proof.Machine
end

