-- ==== Sys2Proof/Machine/HostPort.lean ====
section
/-! DEFINITION. The Host Memory Port (chapter 3): bursts as they are taken, posted writes and their delivery, reads that
wait behind them, watched words. -/

namespace Sys2Proof.Machine

/-- The address of beat `k` of a burst (R53). -/
def beatAddr (a : BitVec 32) (k : Nat) : Nat := a.toNat / 4 * 4 + 4 * k

/-- Whether an address lies below the top of DRAM (R55). -/
def inRange (a : Nat) : Bool := decide (a < Config.dramTop)

/-- How many of a burst's beats are in range: a burst ascends, so they are its first ones. -/
def inRangeCount (a : BitVec 32) (count : Nat) : Nat := (List.range count).countP fun k => inRange (beatAddr a k)

def respond (r : Response) (s : State) : State := { s with hmp := { s.hmp with response := some r } }

/-- A burst taken while the quiet is granted adds one to the violations of the record that holds QUIET_REQ (R31). -/
def countViolation (s : State) : State :=
  if quietGranted s then
    match s.exs.current with
    | some e => { s with stb := s.stb.update e.shot fun r => { r with violations := satAdd max8 r.violations 1 } }
    | none => s
  else s

/-- A burst with an out-of-range beat is counted once (R55). -/
def countOutOfRange (out : Bool) (s : State) : State :=
  if out then { s with hmp := { s.hmp with outOfRange := satAdd max32 s.hmp.outOfRange 1 } } else s

/-- Whether a posted burst touches a byte of the range (R60). DESIGN CHOICE (log 45): all four bytes of each in-range beat
count, whatever its byte enables. -/
def Posted.touches (p : Posted) (a len : Nat) : Bool := p.beats.any fun b => decide (a < b.addr + 4 ∧ b.addr < a + len)

/-- The HMP takes a read burst (R53, R55, R60). -/
def takeRead (a : BitVec 32) (count : Nat) (s : State) : State :=
  let n := inRangeCount a count
  let s := countOutOfRange (decide (n < count)) (countViolation s)
  let start := beatAddr a 0
  if n = 0 then
    respond { write := false, error := true, beats := List.replicate count (0, parityBits 0) } s
  else
    match (s.hmp.queue.filter fun p => p.touches start (4 * n)).map (·.id) with
    | [] => present { kind := .hostRead count, addr := start, len := 4 * n } s
    | ids => { s with hmp := { s.hmp with reads := s.hmp.reads ++ [{ addr := start, count := count, after := ids }] } }

/-- The in-range beats of a write burst, and whether the burst is parity-marked (R54, R55). -/
def postedBeats (a : BitVec 32) (beats : List WriteBeat) : List PostedBeat :=
  (beats.zipIdx.filter fun b => inRange (beatAddr a b.2)).map fun b =>
    { addr := beatAddr a b.2, data := b.1.data, enables := b.1.enables }

def parityMarked (a : BitVec 32) (beats : List WriteBeat) : Bool :=
  beats.zipIdx.any fun b => inRange (beatAddr a b.2) && WriteBeat.badParity b.1

/-- The HMP takes a write burst into a posted-write buffer and answers it (R53, R55, R58). -/
def takeWrite (a : BitVec 32) (beats : List WriteBeat) (s : State) : State :=
  let mine := postedBeats a beats
  let out := decide (mine.length < beats.length)
  let s := respond { write := true, error := out, beats := [] } (countOutOfRange out (countViolation s))
  if mine = [] then s
  else
    let p : Posted := { id := s.hmp.nextId, beats := mine, parity := parityMarked a beats }
    { s with hmp := { s.hmp with queue := s.hmp.queue ++ [p], nextId := s.hmp.nextId + 1 } }

/-- The host presents a burst while the HMP serves bursts: a read is taken at once, a write when a buffer is free and
no write waits before it (R58). -/
def offerBurst (b : HostBurst) (s : State) : State :=
  match b with
  | .read a count => takeRead a count s
  | .write a beats =>
    if s.hmp.queue.length < 8 ∧ s.hmp.waiting = [] then takeWrite a beats s
    else { s with hmp := { s.hmp with waiting := s.hmp.waiting ++ [b] } }

/-- The bursts that wait are taken, in their order, as far as buffers allow (R58, R64, R68). -/
def admitWaiting (s : State) : State :=
  s.hmp.waiting.foldl (fun s b => offerBurst b s) { s with hmp := { s.hmp with waiting := [] } }

/-! ### Delivery (R56 to R59) -/

/-- The part-owned control areas (R57). -/
def partOwned (a : Nat) : Bool :=
  decide ((Config.statusBase ≤ a ∧ a < Config.statusBase + 0x1000) ∨
    (Config.ringBase ≤ a ∧ a < Config.ringBase + 0x1000 ∧ 96 ≤ (a - Config.ringBase) % 128) ∨
    (Config.shotMirror ≤ a ∧ a < Config.shotMirror + 0x1000) ∨
    (Config.errorMirror ≤ a ∧ a < Config.errorMirrorEnd) ∨
    (Config.mapMirror ≤ a ∧ a < Config.stagingBase))

/-- What becomes of a write beat (R56); a watched word passes through and is observed when it is written. -/
inductive BeatClass where
  | guarded | capture | pass
  deriving DecidableEq, Repr

def classifyBeat (t : Stb) (a : Nat) : BeatClass :=
  if partOwned a then .guarded
  else match t.stateAt a with
    | some .readout => .capture
    | some .free => .pass
    | some _ => .guarded
    | none => .pass

/-- Guarded beats are dropped, counted once for the burst, and raise GUARD (R57). -/
def dropGuarded (any : Bool) (s : State) : State :=
  if any then raise .guard { s with hmp := { s.hmp with guardDrops := satAdd max32 s.hmp.guardDrops 1 } } else s

/-- Presents the pass-through beats of a burst as one host transaction (R58). -/
def presentPass (parity : Bool) (beats : List PostedBeat) (s : State) : State :=
  match beats with
  | [] => s
  | b :: _ => present { kind := .hostWrite, addr := b.addr, len := 4 * beats.length,
                        bytes := beats.flatMap PostedBeat.cells, parity := parity } s

/-- Changes the buffer at the head of the queue, which leaves it when none of its parts waits. -/
def Hmp.settleHead (h : Hmp) (f : Posted → Posted) : Hmp :=
  match h.queue with
  | [] => h
  | p :: rest =>
    let p := f p
    { h with queue := if p.passWaits || !p.heldBeats.isEmpty then p :: rest else rest }

/-- Hands capture beats to the PCE, which takes them or holds them back: the beats still held (R59, R94). -/
def arriveCapture (parity : Bool) (beats : List PostedBeat) (s : State) : State × List PostedBeat :=
  if beats = [] then (s, [])
  else
    let s := restartIdle s
    if accepts s beats then (takeCapture parity beats s, []) else (s, beats)

/-- The delivery of the burst at the head of the queue (R56, R58). -/
def deliverHead (s : State) : State :=
  match s.hmp.queue with
  | [] => s
  | p :: _ =>
    if p.delivered then s
    else
      let live := p.beats.filter fun b => b.enables ≠ 0
      let cls := classifyBeat s.stb
      let pass := live.filter fun b => cls b.addr = .pass
      let capture := live.filter fun b => cls b.addr = .capture
      let s := dropGuarded (live.any fun b => cls b.addr = .guarded) s
      let s := presentPass p.parity pass s
      let (s, held) := arriveCapture p.parity capture s
      admitWaiting { s with hmp := s.hmp.settleHead fun p =>
        { p with delivered := true, passWaits := !pass.isEmpty, heldBeats := held } }

/-- The capture burst held for the dark offset is accepted (R94). -/
def acceptHeld (s : State) : State :=
  match s.hmp.queue with
  | [] => s
  | p :: _ =>
    if p.heldBeats = [] then s
    else
      let s := takeCapture p.parity p.heldBeats (restartIdle s)
      admitWaiting { s with hmp := s.hmp.settleHead fun p => { p with heldBeats := [] } }

/-- Whether a capture burst is held at the head of the queue. -/
def captureHeld (s : State) : Bool := s.hmp.queue.head?.any fun p => !p.heldBeats.isEmpty

/-! ### What a granted host write does (R58, R61) -/

/-- The watched words a write reached, as they stand in memory after it (R61). DESIGN CHOICE (log 46): of a burst that
writes both, the tail word is observed first. -/
def observeWords (cells : List Host.Cell) (s : State) : State :=
  let touched (a : Nat) := cells.any fun c => decide (a ≤ c.1 ∧ c.1 < a + 4)
  let value (a : Nat) := fromLe ((List.range 4).map fun k => s.mem.byte (a + k))
  let seen := (if touched Config.tailWord then [Observed.tail (value Config.tailWord)] else []) ++
    (if touched Config.clearWord then [Observed.clear (value Config.clearWord)] else [])
  { s with rqe := { s.rqe with observed := s.rqe.observed ++ seen } }

/-- The pass-through part of the head burst has been written (R58). -/
def passWritten (parity : Bool) (cells : List Host.Cell) (s : State) : State :=
  let s := if parity then s else observeWords cells s
  admitWaiting { s with hmp := s.hmp.settleHead fun p => { p with passWaits := false } }

/-! ### Reads that may go (R60) -/

/-- Presents the reads whose posted bursts have all left the queue. -/
def releaseReads (s : State) : State :=
  let gone (r : WaitingRead) := r.after.all fun i => s.hmp.queue.all fun p => p.id != i
  let ready := (s.hmp.reads.filter gone).map fun r =>
    ({ kind := .hostRead r.count, addr := r.addr, len := min (4 * r.count) (Config.dramTop - r.addr) } : Txn)
  { s with
    fmc := { s.fmc with pending := s.fmc.pending ++ ready }
    hmp := { s.hmp with reads := s.hmp.reads.filter fun r => !gone r } }

end Sys2Proof.Machine
end

