-- ==== Sys2Proof/Machine/Monitor.lean ====
section
/-! DEFINITION. The Analog Monitor (chapter 8): values, levels, on-demand requests, their TEMP answers, settings, stop and
resume. -/

namespace Sys2Proof.Machine

/-! ### Values and levels (R147, R153, R154) -/

/-- The range of a channel's value (R147). -/
def clampChannel : Channel → Int → Int
  | .temp, v => clampInt (-160) 500 v
  | .batt, v => clampInt 0 65535 v
  | .card, v => clampInt 0 65535 v

/-- The value a code stands for before its clamp; the floor is the true floor (R147). -/
def convert (slope offset : Int) (code : Nat) : Int := offset + ((code : Int) * slope) / 4096

/-- A channel's value from a code (R147). -/
def MonitorSettings.value (m : MonitorSettings) (c : Channel) (code : Nat) : Int :=
  clampChannel c (match c with
    | .temp => convert m.tempSlope m.tempOffset code
    | .batt => convert m.battSlope m.battOffset code
    | .card => convert m.cardSlope m.cardOffset code)

/-- The TEMP level after a conversion (R153). -/
def nextTempLevel (warn limit : Int) (l : TempLevel) (t : Int) : TempLevel :=
  if limit ≤ t then .limit
  else if l = .limit ∧ limit - 8 ≤ t then .limit
  else if warn ≤ t then .warn
  else if l ≠ .normal ∧ warn - 8 ≤ t then .warn
  else .normal

/-- The BATT level after a conversion (R154). -/
def nextBattLevel (armFloor critFloor : Int) (l : BattLevel) (v : Int) : BattLevel :=
  if v ≤ critFloor then .critical
  else if l = .critical ∧ v ≤ critFloor + 100 then .critical
  else if v ≤ armFloor then .low
  else if l ≠ .normal ∧ v ≤ armFloor + 100 then .low
  else .normal

/-- The phases in which a record gets TEMP_WARN (R156). -/
def Phase.warned : Phase → Bool
  | .waiting | .exposing => true
  | _ => false

/-- A record in WAITING or EXPOSING gets TEMP_WARN while the TEMP level is WARN or LIMIT, and its mirror is rewritten
(R156). -/
def warnRecord (s : State) : State :=
  if s.amn.tempLevel = .normal then s
  else
    rewriteShots ((s.stb.records.filter fun r => r.phase.warned).map (·.shot))
      { s with stb := { s.stb with records := s.stb.records.map fun r =>
        if r.phase.warned then { r with flags := { r.flags with tempWarn := true } } else r } }

/-! ### TEMP answers (R50, R94) -/

/-- The answer to a TEMP start request is written into the record, if it is still in the table (R50). -/
def answerTempStart (shot : Nat) (v : Option Int) (s : State) : State :=
  match v with
  | some t => { s with stb := s.stb.update shot fun r => { r with tempStart := some t } }
  | none => s

/-- The image whose dark rate table a shot's offset is taken from: the readout's, or after its end the live image of the
shot's profile (log 13). -/
def darkImage (r : ShotRecord) (s : State) : Option Profile :=
  match s.pce.readout with
  | some o => if o.shot = r.shot then some o.image else s.prs.live r.profile
  | none => s.prs.live r.profile

/-- The dark offset of a shot (R95, R96). -/
def shotDark (r : ShotRecord) (s : State) : Nat :=
  match darkImage r s with
  | some p => darkOffset p.dark (shotTemperature r.tempStart r.tempEnd) (natOr0 r.integration)
  | none => 0

/-- The readout of the shot takes its dark offset and the held capture burst is accepted (R94). -/
def giveOffset (shot d : Nat) (s : State) : State :=
  match s.pce.readout with
  | some o =>
    if o.shot = shot ∧ o.dark = none ∧ o.ending = none then
      acceptHeld { s with pce := { s.pce with readout := some { o with dark := some d } } }
    else s
  | none => s

/-- The answer to a TEMP end request: the temperature, the dark offset, and the readout going on (R50, R94). -/
def answerTempEnd (shot : Nat) (v : Option Int) (s : State) : State :=
  let s := match v with
    | some t => { s with stb := s.stb.update shot fun r => { r with tempEnd := some t } }
    | none => s
  match s.stb.find shot with
  | none => s
  | some r =>
    let d := shotDark r s
    giveOffset shot d (rewriteShot shot { s with stb := s.stb.update shot fun r => { r with dark := d } })

/-! ### On-demand requests (R148) -/

def Demand.samePurpose : Demand → Demand → Bool
  | .tempStart _, .tempStart _ => true
  | .tempEnd _, .tempEnd _ => true
  | .card, .card => true
  | _, _ => false

def putDemand (d : Demand) (s : State) : State := { s with amn := { s.amn with queue := s.amn.queue ++ [d] } }

/-- A request takes the place of the waiting one of its purpose. -/
def takePlace (d : Demand) (s : State) : State :=
  { s with amn := { s.amn with queue := s.amn.queue.map fun e => if e.samePurpose d then d else e } }

/-- An on-demand request arrives (R148): a CARD request joins one that waits; a TEMP request takes the place of one of its
purpose, which is answered at once without a valid value. -/
def ask (d : Demand) (s : State) : State :=
  match s.amn.queue.find? fun e => e.samePurpose d with
  | none => putDemand d s
  | some .card => s
  | some (.tempStart shot) => answerTempStart shot none (takePlace d s)
  | some (.tempEnd shot) => answerTempEnd shot none (takePlace d s)

/-! ### Schedule (R148, R158) -/

/-- Whether a sweep is in progress. -/
def Amn.sweeping (a : Amn) : Bool := a.sweep.isSome || a.conv.any fun c => c.demand.isNone

def Demand.channel : Demand → Channel
  | .tempStart _ => .temp
  | .tempEnd _ => .temp
  | .card => .card

/-- The channel a sweep goes on to (R148). -/
def Channel.after : Channel → Option Channel
  | .temp => some .batt
  | .batt => some .card
  | .card => none

def Amn.begin (a : Amn) (c : Channel) (d : Option Demand) : Amn :=
  { a with conv := some { channel := c, demand := d, stands := true, left := Config.conversionTime } }

/-- The free converter starts its next conversion: on demand first, then the sweep (R148). -/
def Amn.startNext (a : Amn) : Amn :=
  if a.conv.isSome || a.stopped || a.stopAsked then a
  else match a.queue, a.sweep with
    | d :: ds, _ => { a with queue := ds }.begin d.channel (some d)
    | [], some c => { a with sweep := c.after }.begin c none
    | [], none => a

/-- The sample timer starts again from the sample interval. -/
def Amn.restartTimer (a : Amn) : Amn := { a with sampleTimer := a.settings.interval * 1000 }

/-- The sample timer runs out (R148). -/
def Amn.sampleExpiry (a : Amn) : Amn :=
  if a.stopped then a
  else
    let b := a.restartTimer
    if a.sweeping then b else { b with sweep := some .temp }

/-- The monitor is asked to stop: at once with the converter free, else when the conversion completes (R158). -/
def Amn.askStop (a : Amn) : Amn := if a.conv.isSome then { a with stopAsked := true } else { a with stopped := true }

/-- The monitor resumes: a sweep begins and the sample timer is restarted (R158). One that has not been asked to stop goes
on as it was. -/
def Amn.resume (a : Amn) : Amn :=
  if a.stopped || a.stopAsked then { a with stopped := false, stopAsked := false, sweep := some .temp }.restartTimer else a

/-! ### Completion (R149, R150) -/

/-- The value of a conversion that stands is stored (R149, step 1). -/
def Amn.storeValue (a : Amn) (c : Channel) (v : Int) : Amn :=
  match c with
  | .temp => { a with temp := some v, tempValid := true }
  | .batt => { a with batt := some v, battValid := true }
  | .card => { a with card := some v, cardValid := true }

/-- The level of the channel is evaluated (R149, step 2). -/
def Amn.evaluate (a : Amn) (c : Channel) (v : Int) : Amn :=
  match c with
  | .temp => { a with tempLevel := nextTempLevel a.settings.warn a.settings.limit a.tempLevel v }
  | .batt => { a with battLevel := nextBattLevel a.settings.armFloor a.settings.critFloor a.battLevel v }
  | .card => a

/-- New settings take effect; a new sample interval restarts the sample timer (R152). -/
def Amn.applySettings (a : Amn) (m : MonitorSettings) : Amn :=
  let b := { a with settings := m, next := none }
  if m.interval = a.settings.interval then b else b.restartTimer

/-- The converter is free again; settings that wait take effect, and a stop that was asked takes place (R152, R158). -/
def Amn.finishConversion (a : Amn) : Amn :=
  let a := { a with conv := none }
  let a := match a.next with
    | some m => a.applySettings m
    | none => a
  if a.stopAsked then { a with stopAsked := false, stopped := true } else a

/-! ### SET_MONITOR (R151, R152) -/

def MonitorArgs.has (m : MonitorArgs) (k : Nat) : Bool := m.selection.getLsbD k

/-- A sample interval brought into range (R151). -/
def clampInterval (n : Nat) : Nat := clampNat 10 2550 (n / 10 * 10)

/-- The settings as a request leaves them (R151). -/
def MonitorSettings.apply (b : MonitorSettings) (m : MonitorArgs) : MonitorSettings :=
  let b := if MonitorArgs.has m 0 then { b with tempSlope := m.tempSlope.toInt, tempOffset := m.tempOffset.toInt } else b
  let b := if MonitorArgs.has m 1 then { b with battSlope := m.battSlope.toInt, battOffset := m.battOffset.toInt } else b
  let b := if MonitorArgs.has m 2 then { b with cardSlope := m.cardSlope.toInt, cardOffset := m.cardOffset.toInt } else b
  let b := if MonitorArgs.has m 3 then
    { b with warn := clampInt (-160) 500 m.warn.toInt, limit := clampInt (-160) 500 m.limit.toInt } else b
  let b := if MonitorArgs.has m 4 then
    { b with armFloor := clampInt 0 65535 m.armFloor.toInt, critFloor := clampInt 0 65535 m.critFloor.toInt } else b
  if MonitorArgs.has m 5 then { b with interval := clampInterval m.interval.toNat } else b

/-- Whether the thresholds of a request contradict each other (R151). -/
def monitorRefused (m : MonitorArgs) (b : MonitorSettings) : Bool :=
  (MonitorArgs.has m 3 && decide (b.limit < b.warn)) || (MonitorArgs.has m 4 && decide (b.armFloor < b.critFloor))

/-- A channel whose calibration changes is not valid any more, and its conversion in progress does not stand (R150,
R152). -/
def Amn.invalidate (a : Amn) (c : Channel) : Amn :=
  let a := { a with conv := a.conv.map fun (v : Conversion) => if v.channel = c then { v with stands := false } else v }
  match c with
  | .temp => { a with tempValid := false, tempLevel := .normal }
  | .batt => { a with battValid := false, battLevel := .normal }
  | .card => { a with cardValid := false }

/-- An accepted SET_MONITOR (R152). -/
def Amn.accept (a : Amn) (m : MonitorArgs) (b : MonitorSettings) : Amn :=
  let a := if MonitorArgs.has m 0 then a.invalidate .temp else a
  let a := if MonitorArgs.has m 1 then a.invalidate .batt else a
  let a := if MonitorArgs.has m 2 then a.invalidate .card else a
  if a.conv.isSome then { a with next := some b }
  else a.applySettings b

/-- The settings a request is applied to: those accepted and not yet in effect, or those in force. -/
def Amn.base (a : Amn) : MonitorSettings := a.next.getD a.settings

/-- The settings in the completion of SET_MONITOR (11 section 11.6). -/
def monitorResult (b : MonitorSettings) : List Byte :=
  leInt 2 b.tempSlope ++ leInt 2 b.tempOffset ++ leInt 2 b.battSlope ++ leInt 2 b.battOffset ++ leInt 2 b.cardSlope ++
    leInt 2 b.cardOffset ++ leInt 2 b.warn ++ leInt 2 b.limit ++ leInt 2 b.armFloor ++ leInt 2 b.critFloor ++
    le 2 b.interval

end Sys2Proof.Machine
end

