-- ==== Sys2Proof/Machine/Card.lean ====
section
/-! DEFINITION. Card power and the card bus (chapter 9): power-up, ramp, discharge, parks without a run, and what is sent
on the bus. -/

namespace Sys2Proof.Machine

def modCde (f : Cde → Cde) (s : State) : State := { s with cde := f s.cde }

/-- Whether the power cycle of a run is in progress; the card state then stays as it was (R175). -/
def Cde.cycling (c : Cde) : Bool := c.run.any fun r => r.stage == .cycling

/-- Enters a card state, unless a power cycle keeps it (R175). -/
def Cde.enter (c : Cde) (st : CardState) : Cde := if c.cycling then c else { c with state := st }

/-! ### Power-down and power-up (R161, R164) -/

/-- The discharge starts, afresh if one is running (R164). -/
def Cde.startDischarge (c : Cde) (why : DischargeFor) : Cde :=
  { c with rail := .discharging, discharge := true, dischargeTimer := some Config.dischargeTime, dischargeFor := why }

/-- A power-down (R164): bus lines, power, discharge, in this order; every power-up step under way ends. The comparator of
an unpowered rail reports nothing. -/
def powerDown (why : DischargeFor) (s : State) : State :=
  let c := { s.cde with lines := .highZ, pwrEn := false, rampTimer := none, busTimer := none, powerUp := none,
                        ident := none, identDrop := none, ocCount := 0 }
  { s with cde := c.startDischarge why, pins := { s.pins with overcurrent := false } }

/-- A power-down that leaves the card DISCHARGING. -/
def powerDownTo (why : DischargeFor) (s : State) : State :=
  modCde (fun c => { c with state := .discharging }) (powerDown why s)

/-- A power-up begins (R161): POWERING with the rail OFF, and a CARD conversion is asked for. -/
def startPowerUp (s : State) : State :=
  ask .card (modCde (fun c => { c with rail := .off, lines := .highZ, powerUp := some .reading }.enter .powering) s)

/-- The power-up proper (R161, R162): lines low, then CARD_PWR_EN, then the ramp. -/
def Cde.powerOn (c : Cde) : Cde :=
  { c with lines := .low, pwrEn := true, rail := .ramping, rampTimer := some Config.rampTime, powerUp := none, ocCount := 0 }

/-- What the discharge of a power-up serves: the power-up, or the power cycle of a run. -/
def Cde.upCause (c : Cde) : DischargeFor := if c.cycling then .cycle else .powerUp

/-- A reading is judged by a power-up (R161). -/
def judgeReading (v : Int) (s : State) : State :=
  if Config.safeLevel ≤ v then
    modCde (fun c => ({ c with powerUp := none }.startDischarge c.upCause).enter .discharging) s
  else if s.exs.quietReq then modCde (fun c => { c with powerUp := some .quiet }.enter .powering) s
  else modCde (fun c => c.powerOn.enter .powering) s

/-! ### Parked (R167, R190) -/

/-- The card reaches PARKED; a power-up begins at once when nothing keeps it parked (R190). -/
def reachParked (s : State) : State :=
  let s := modCde (fun c => { c with state := .parked, powerUp := none }) s
  if s.amn.battLevel ≠ .critical ∧ (s.hmp.path = .run ∨ s.hmp.path = .filling) then startPowerUp s else s

/-- A park while no run is in progress, by the card state (R167). A card read that has ended and whose result is owed keeps
no card up (log 58). DESIGN CHOICE (log 55): a park in MOUNTING, but for the rewrite of block 0, makes the geometry absent. -/
def parkNow (s : State) : State :=
  let s := modCde (fun c => { c with parkAsked := false, parkOwed := false }) s
  match s.cde.state with
  | .identifying =>
    if s.cde.ident = some .sent then modCde (fun c => { c with identDrop := some .park }) s else powerDownTo .park s
  | .mounting =>
    powerDownTo .park (modCde (fun c =>
      { c with geometry := if c.mount.any (fun m => m.stage == .rewrite) then c.geometry else none, mount := none }) s)
  | .ready | .unformatted | .reading => powerDownTo .park s
  | .powering => if s.cde.pwrEn then powerDownTo .park s else reachParked s
  | .discharging =>
    if s.cde.dischargeFor = .powerUp then modCde (fun c => { c with dischargeFor := .park }) s else s
  | .absent | .writing | .parked | .fault => s

/-! ### Discharge and ramp (R162, R164) -/

/-- The discharge has ended, below the safe level or by its timer: the switch goes off and the rail is OFF. -/
def Cde.endDischarge (c : Cde) : Cde := { c with discharge := false, dischargeTimer := none, rail := .off }

/-- The discharge ends with a reading below the safe level (R164). -/
def dischargeDone (v : Int) (s : State) : State :=
  let s := modCde Cde.endDischarge s
  match s.cde.dischargeFor with
  | .removal => modCde (fun c => { c with state := .absent }) s
  | .powerUp | .cycle => judgeReading v (modCde (fun c => c.enter .powering) s)
  | .park => reachParked s
  | .fault => s

/-- The ramp ends with a good reading (R162): IDENT waits to be sent. -/
def Cde.rampDone (c : Cde) : Cde :=
  { c with rampTimer := none, rail := .on, lines := .driven, ident := some .waiting }.enter .identifying

/-- A CARD reading reaches the engine (R159, R161, R162, R164). -/
def cardReading (v : Int) (s : State) : State :=
  let s := modCde (fun c => { c with reading := some v, readingAt := some s.exs.timeBase }) s
  if s.cde.discharge then (if v < Config.safeLevel then dischargeDone v s else s)
  else if s.cde.powerUp = some .reading then judgeReading v s
  else if s.cde.rampTimer.isSome ∧ Config.goodLevel ≤ v then modCde Cde.rampDone s
  else s

/-! ### Runs on the bus (R170 to R173) -/

/-- A user asks for a run; its command waits to be issued. -/
def startRun (u : RunUser) (write : Bool) (start count : Nat) (s : State) : State :=
  modCde (fun c => { c with run := some { user := u, write := write, start := start, count := count }, block := [] }) s

def modRun (f : Run → Run) (s : State) : State := modCde (fun c => { c with run := c.run.map f }) s

/-- The response timeout is counted (R171). -/
def awaitResponse (s : State) : State := modCde (fun c => { c with busTimer := some Config.responseTime }) s

/-- The command frame of a run with its CRC-16 (R170). -/
def runFrame (write : Bool) (start count : Nat) : BusSent :=
  if write then .writeRun start count (crc16 (Config.commandFrame 3 start count))
  else .readRun start count (crc16 (Config.commandFrame 2 start count))

/-- The run's command is issued for its blocks not yet done (R172, R173, R175). -/
def issueRun (s : State) : State :=
  match s.cde.run with
  | none => s
  | some r =>
    awaitResponse (modRun (fun r => { r with stage := .acking })
      (modCde (fun c => { c with sent := some (runFrame r.write (r.start + r.done) (r.count - r.done)) }) s))

/-- IDENT is sent (R163). -/
def sendIdent (s : State) : State :=
  awaitResponse (modCde (fun c => { c with ident := some .sent, sent := some (.ident (crc16 (Config.commandFrame 1 0 0))) }) s)

/-- A block is sent with its CRC-16 and its token awaited (R173). -/
def sendBlock (data : List Byte) (s : State) : State :=
  awaitResponse (modRun (fun r => { r with stage := .token })
    (modCde (fun c => { c with block := data, sent := some (.block data (crc16 data)) }) s))

/-- The stop mark is sent (R174). -/
def sendStop (s : State) : State :=
  awaitResponse (modRun (fun r => { r with stage := .stopping }) (modCde (fun c => { c with sent := some .stopMark }) s))

end Sys2Proof.Machine
end

