-- ==== Sys2Proof/Machine/ShotLog.lean ====
section
/-! DEFINITION. The shot log and card transfers (chapter 10), and the ends of runs (R172 to R176): mount, drain, card
reads, format, FAULT and removal. -/

namespace Sys2Proof.Machine

def capacityOf (s : State) : Nat := natOr0 s.cde.capacity

/-! ### READY (R183, R190) -/

/-- A park owed since a change to CRITICAL is made once no card read is left, if the level is still CRITICAL (R190). -/
def payPark (s : State) : State :=
  if s.cde.state = .ready ∧ s.cde.parkOwed ∧ s.cde.reads = [] ∧ s.amn.battLevel = .critical then parkNow s
  else s

/-- The card state returns to READY. -/
def becomeReady (s : State) : State := payPark (modCde (fun c => { c with state := .ready }) s)

/-! ### The container (R184 to R189) -/

/-- The data blocks of a frame (R179). -/
def dataBlocks (pitch lines : Nat) : Nat := (pitch * lines + 511) / 512

/-- The data bytes of a container. -/
def Container.total (c : Container) : Nat := c.pitch * c.lines

/-- A slot read of the CDE waits or is in progress. -/
def slotReadOut (s : State) : Bool :=
  s.fmc.pending.any (fun t => t.kind == .slotRead) || s.fmc.active.any fun t => t.kind == .slotRead

/-- The slot reads of a container that has ended are given up; a source with nothing pending has a pass-over count of 0
(R62). -/
def Fmc.dropSlotReads (f : Fmc) : Fmc :=
  let left := f.pending.filter fun t => t.kind != .slotRead
  { f with
    pending := left
    passOver := { f.passOver with cde := if left.any fun t => t.kind.source == .cde then f.passOver.cde else 0 }
    active := f.active.map fun t => if t.kind = .slotRead then { t with kind := .lostRead } else t }

def dropContainer (s : State) : State :=
  { s with cde := { s.cde with container := none }, fmc := s.fmc.dropSlotReads }

/-- A container ends without its commit: the record returns to HELD with a store result (R189, R190). After the commit
there is only the container to end. -/
def returnShot (res : StoreResult) (s : State) : State :=
  match s.cde.container with
  | none => s
  | some c =>
    let s := dropContainer s
    if c.stage = .logUpdate then s
    else { s with stb := (s.stb.move c.shot .held).update c.shot fun r => { r with store := res } }

/-- A drain stopped for a change to CRITICAL has come to its boundary (R190). -/
def containerParked (s : State) : State := becomeReady (returnShot .parked s)

/-- Asks for `n` bytes of the slot being drained, from offset `o`. -/
def readSlot (c : Container) (o n : Nat) (s : State) : State :=
  present { kind := .slotRead, addr := s.stb.slotBase c.slot + o, len := min 64 n } s

def modContainer (f : Container → Container) (s : State) : State :=
  modCde (fun c => { c with container := c.container.map f }) s

/-- SUMMING has read all: the header block is built from the record as it stands, and its run asked for (R185). -/
def finishSum (c : Container) (s : State) : State :=
  let crc := crc32End c.crc
  let header := containerHeaderBlock (natOr0 (s.cde.geometry.map (·.formatId))) c crc (s.stb.find c.shot)
  startRun .drain true c.start 1 (modContainer (fun c => { c with crc := crc, header := header, stage := .header }) s)

/-- SUMMING goes on: at a 512-byte boundary it stops for a park and pauses while QUIET_REQ is asserted (R185, R188). -/
def sumNext (s : State) : State :=
  match s.cde.container with
  | none => s
  | some c =>
    let boundary := c.summed % 512 == 0 || decide (c.total ≤ c.summed)
    if c.stage ≠ .summing then s
    else if c.park && boundary then containerParked s
    else if c.total ≤ c.summed then finishSum c s
    else if s.exs.quietReq && boundary then s
    else readSlot c c.summed (c.total - c.summed) s

/-- Bytes read while SUMMING are taken into the CRC-32 (R185). -/
def sumTake (bytes : List Byte) (s : State) : State :=
  sumNext (modContainer (fun c => { c with crc := crc32Step c.crc bytes, summed := c.summed + bytes.length }) s)

/-- The next run of DATA, to the end of its group of 256 data blocks, or the commit block (R186, R187). -/
def nextDataRun (c : Container) (s : State) : State :=
  let n := c.blocks
  let f := c.done - 1
  if f < n then startRun .drain true (c.start + 1 + f) (min n ((f / 256 + 1) * 256) - f) s
  else startRun .drain true (c.start + n + 1) 1 (modContainer (fun c => { c with stage := .commit }) s)

/-- The commit block is done (R187). -/
def commitDone (c : Container) (s : State) : State :=
  let s := { s with stb := (s.stb.move c.shot .stored).update c.shot fun r => { r with store := .stored } }
  let s := modCde (fun d => { d with geometry := d.geometry.map fun g =>
    { g with nextFree := c.start + c.blocks + 2, count := wrapSucc g.count, highest := max g.highest c.shot } }) s
  let s := modContainer (fun c => { c with stage := .logUpdate, done := c.blocks + 2 }) (raise .stored s)
  startRun .drain true 0 1 s

/-- A run of the drain has ended with `k` blocks done; `all` when it ended DONE (R185 to R188). -/
def drainEnded (k : Nat) (all : Bool) (s : State) : State :=
  let s := modContainer (fun c => if c.stage = .logUpdate ∨ c.stage = .commit then c else { c with done := c.done + k }) s
  match s.cde.container with
  | none => s
  | some c =>
    match c.stage with
    | .summing => s
    | .header =>
      if c.park then containerParked s
      else if all then nextDataRun c (modContainer (fun c => { c with stage := .data }) s)
      else startRun .drain true c.start 1 s
    | .data => if c.park then containerParked s else nextDataRun c s
    | .commit => if all then commitDone c s else startRun .drain true (c.start + c.blocks + 1) 1 s
    | .logUpdate => if all then becomeReady (dropContainer s) else startRun .drain true 0 1 s

/-- Whether the container of a HELD record fits on the card (R184). -/
def fits (r : ShotRecord) (s : State) : Bool :=
  match s.cde.geometry with
  | some g => decide (g.nextFree + dataBlocks (natOr0 r.pitch) r.stats.lines + 2 ≤ capacityOf s)
  | none => false

/-- The condition of CARD_FULL (R184). -/
def fullCondition (s : State) : Bool :=
  s.cde.state == .ready && s.stb.oldestHeld.any fun r => !fits r s

/-- The drain of a record starts (R184). -/
def startDrain (r : ShotRecord) (g : Geometry) (s : State) : State :=
  let n := dataBlocks (natOr0 r.pitch) r.stats.lines
  let stb := (s.stb.move r.shot .storing).update r.shot fun r =>
    { r with containerStart := some g.nextFree, containerLen := some (n + 2) }
  let c : Container :=
    { shot := r.shot, slot := natOr0 r.slot, start := g.nextFree, blocks := n, pitch := natOr0 r.pitch,
      lines := r.stats.lines, profile := r.profile, index := g.count, stage := .summing, done := 0, summed := 0,
      crc := crc32Start, header := [], park := false }
  sumNext (modCde (fun d => { d with state := .writing, container := some c }) { s with stb := stb })

/-- The drain of the oldest HELD record is tried (R184). -/
def tryDrain (r : ShotRecord) (s : State) : State :=
  if fits r s then
    match s.cde.geometry with
    | some g => startDrain r g s
    | none => s
  else raise .cardFull { s with stb := s.stb.update r.shot fun r => { r with store := .cardFull } }

/-! ### Card reads (R192, R193) -/

/-- The next run of a card read, to the end of its group of 256 blocks (R192). -/
def nextReadRun (r : CardRead) (s : State) : State :=
  startRun .read false (r.block + r.done) (min r.count ((r.done / 256 + 1) * 256) - r.done) s

/-- Consecutive cells cut at 64-byte boundaries, one transaction each. -/
def cardWrites (cells : List Host.Cell) : List Txn :=
  match cells, cells.getLast? with
  | c :: _, some l =>
    ((List.range (l.1 / 64 - c.1 / 64 + 1)).map fun w => cells.filter fun x => x.1 / 64 == c.1 / 64 + w).filterMap
      fun part => part.head?.map fun x => { kind := .cardWrite, addr := x.1, len := part.length, bytes := part }
  | _, _ => []

def presentAll (ts : List Txn) (s : State) : State := { s with fmc := { s.fmc with pending := s.fmc.pending ++ ts } }

/-- A block handed on by the bus goes to its place in the destination range, in whole codewords (R192). -/
def storeBlock (r : CardRead) (data : List Byte) (s : State) : State :=
  let a := r.dest + 512 * r.done
  let cells := r.carry ++ cellsAt a data
  let stop := if r.done + 1 = r.count then a + 512 else codewordOf (a + 512)
  let carry := cells.filter fun c => decide (stop ≤ c.1)
  let s := modCde (fun c => { c with serving := some { r with done := r.done + 1, carry := carry } }) s
  presentAll (cardWrites (cells.filter fun c => decide (c.1 < stop))) s

/-- The request being served ends (R193). -/
def endServing (o : ReadOutcome) (s : State) : State :=
  match s.cde.serving with
  | none => s
  | some r =>
    presentAll (cardWrites r.carry) (modCde (fun c =>
      { c with serving := none, ended := c.ended ++ [{ tag := r.tag, outcome := o, done := r.done }] }) s)

/-- Every card read ends (R193). -/
def endReads (o : ReadOutcome) (s : State) : State :=
  let s := endServing o s
  modCde (fun c => { c with
    reads := [], ended := c.ended ++ c.reads.map fun r => { tag := r.tag, outcome := o, done := r.done } }) s

/-- A run of a card read has ended DONE or STOPPED (R192). -/
def readEnded (s : State) : State :=
  match s.cde.serving with
  | none => s
  | some r => if r.count ≤ r.done then endServing .done s else nextReadRun r s

/-- The oldest request of the queue is served (R183, R192). -/
def serveRead (r : CardRead) (rest : List CardRead) (s : State) : State :=
  nextReadRun r (modCde (fun c => { c with state := .reading, reads := rest, serving := some r }) s)

/-- The entry a result goes to: an empty one, else the one with the oldest result (R193). -/
def resultEntry (last : Nat) (results : List (Option ReadResult)) : Nat :=
  let age (r : Option ReadResult) : Nat := match r with
    | none => 4294967296
    | some r => (last + 4294967296 - r.number) % 4294967296
  let ages := results.map age
  (ages.findIdx? fun a => ages.all fun b => decide (b ≤ a)).getD 0

/-- Whether a data write of the card reads is still to be made. -/
def cardWritesLeft (s : State) : Bool := s.fmc.waits fun k => k == .cardWrite

/-- A card event is raised after the user of the card has dealt with what it ended: once no result of a card read is still
to be written (R176). -/
def raiseCard (f : EventFlag) (s : State) : State :=
  if s.cde.ended = [] then raise f s
  else modCde (fun c => { c with owed := if c.owed.contains f then c.owed else c.owed ++ [f] }) s

/-- The card events that waited for results are raised. -/
def raiseOwed (s : State) : State := modCde (fun c => { c with owed := [] }) (s.cde.owed.foldl (fun s f => raise f s) s)

/-- The result of the oldest ended request is written (R193). -/
def writeResult (s : State) : State :=
  match s.cde.ended with
  | [] => s
  | e :: rest =>
    let no := wrapSucc s.cde.resultNo
    let s := modCde (fun c => { c with
      ended := rest
      resultNo := no
      results := c.results.set (resultEntry c.resultNo c.results)
        (some { tag := e.tag, outcome := e.outcome, done := e.done, number := no }) }) s
    let s := raise .cardReadDone s
    let s := if rest = [] then raiseOwed s else s
    if s.cde.state = .reading ∧ s.cde.serving = none ∧ rest = [] then becomeReady s else s

/-! ### Mount (R180 to R182) -/

/-- The mount ends: the number floor goes to the Shot Table and the card is READY (R182). -/
def mountDone (g : Geometry) (s : State) : State :=
  becomeReady (modCde (fun c => { c with mount := none }) { s with stb := s.stb.raiseNumber g.highest })

/-- The scan ends: block 0 is rewritten if a container was accepted (R182). -/
def scanEnd (m : Mount) (s : State) : State :=
  let s := modCde (fun c => { c with geometry := some m.geometry }) s
  if m.accepted then startRun .mount true 0 1 (modCde (fun c => { c with mount := some { m with stage := .rewrite } }) s)
  else mountDone m.geometry s

/-- The next step of the scan (R181). -/
def scanStep (m : Mount) (s : State) : State :=
  if capacityOf s ≤ m.geometry.nextFree then scanEnd m s
  else startRun .mount false m.geometry.nextFree 1
    (modCde (fun c => { c with mount := some { m with stage := .container } }) s)

/-- The mount begins with block 0 (R180). -/
def startMount (s : State) : State :=
  let g : Geometry := { nextFree := 0, count := 0, highest := 0, formatId := 0 }
  startRun .mount false 0 1
    (modCde (fun c => { c with state := .mounting, mount := some { stage := .logHeader, geometry := g, accepted := false } }) s)

def becomeUnformatted (s : State) : State :=
  modCde (fun c => { c with state := .unformatted, mount := none, geometry := none }) s

/-- Block 0 has been read (R180). -/
def judgeLogHeader (m : Mount) (bs : List Byte) (s : State) : State :=
  match logHeaderOf (capacityOf s) bs with
  | some g => scanStep { m with geometry := g } (modCde (fun c => { c with geometry := some g }) s)
  | none => becomeUnformatted s

/-- Block q has been read (R181, step 1). -/
def judgeHeader (m : Mount) (bs : List Byte) (s : State) : State :=
  match headerFieldsOf bs with
  | some h =>
    if h.formatId = m.geometry.formatId ∧ h.index = m.geometry.count ∧
        m.geometry.nextFree + h.blocks + 2 ≤ capacityOf s then
      startRun .mount false (m.geometry.nextFree + h.blocks + 1) 1
        (modCde (fun c => { c with mount := some { m with stage := .commit h } }) s)
    else scanEnd m s
  | none => scanEnd m s

/-- Block q + n + 1 has been read (R181, steps 2 and 3). -/
def judgeCommit (m : Mount) (h : HeaderFields) (bs : List Byte) (s : State) : State :=
  let g := m.geometry
  if commitMatches h g.nextFree bs then
    scanStep { m with
      geometry := { g with nextFree := g.nextFree + h.blocks + 2, count := wrapSucc g.count, highest := max g.highest h.shot }
      accepted := true } s
  else scanEnd m s

/-- A mount whose run came to a park ends (R167, R180); a park is made in place of its next step. -/
def mountAgain (m : Mount) (s : State) : State :=
  match m.stage with
  | .logHeader => startRun .mount false 0 1 s
  | .container => startRun .mount false m.geometry.nextFree 1 s
  | .commit h => startRun .mount false (m.geometry.nextFree + h.blocks + 1) 1 s
  | .rewrite => startRun .mount true 0 1 s

/-- A park that was asked is made (R167). -/
def payAsked (s : State) : State := if s.cde.parkAsked then parkNow s else s

/-- A run of the mount has ended DONE, STOPPED or CRC_FAIL with the block given (R180 to R182). A rewrite of block 0 that is
DONE completes the mount before a park. DESIGN CHOICE (log 55): after any other run a park that was asked ends the mount as
it stands, and a block that was read is not judged. -/
def mountEnded (o : RunOutcome) (bs : List Byte) (s : State) : State :=
  match s.cde.mount with
  | none => s
  | some m =>
    if m.stage = .rewrite ∧ o = .done then payAsked (mountDone m.geometry s)
    else if s.cde.parkAsked then parkNow s
    else match o with
      | .stopped => mountAgain m s
      | .done =>
        (match m.stage with
        | .logHeader => judgeLogHeader m bs s
        | .container => judgeHeader m bs s
        | .commit h => judgeCommit m h bs s
        | .rewrite => mountDone m.geometry s)
      | _ => if m.stage = .logHeader then becomeUnformatted s else scanEnd m s

/-! ### Format (R194) -/

/-- A run of the format has ended DONE or STOPPED. -/
def formatEnded (all : Bool) (s : State) : State :=
  if all then
    match s.cde.format with
    | some g => becomeReady (modCde (fun c => { c with geometry := some g, format := none }) s)
    | none => s
  else startRun .format true 0 1 s

/-! ### Losing the card, FAULT (R165, R168, R176) -/

/-- What every user of the card does when the card is lost or the engine enters FAULT: the shot returns to HELD, the reads
end, mount and format are dropped, the geometry is absent (R176, R177, R189, R193, R194). -/
def loseCard (res : StoreResult) (o : ReadOutcome) (s : State) : State :=
  modCde (fun c => { c with run := none, block := [], mount := none, format := none, geometry := none, powerUp := none,
                            ident := none, identDrop := none, busTimer := none, parkAsked := false, parkOwed := false })
    (endReads o (returnShot res s))

/-- The engine enters FAULT (R168): a powered card is powered down; CARD_FAULT is raised. -/
def enterFault (cause : FaultCause) (s : State) : State :=
  let s := loseCard .writeFail .fault s
  let s := if s.cde.pwrEn then powerDown .fault s else s
  raiseCard .cardFault (modCde (fun c => { c with state := .fault, faultCause := cause, rampTimer := none }) s)

/-- A run ends with an outcome that leaves the card up: its user acts on it (R176). -/
def endRun (o : RunOutcome) (s : State) : State :=
  match s.cde.run with
  | none => s
  | some r =>
    let bs := s.cde.block
    let s := modCde (fun c => { c with run := none, busTimer := none, block := [] }) s
    match r.user with
    | .mount => mountEnded o bs s
    | .drain => drainEnded r.done (o == .done) s
    | .read => if o = .crcFail then endServing .crcFail s else readEnded s
    | .format => formatEnded (o == .done) s

/-- A timeout of a run (R175): the first power-cycles the card, the second ends the run FAULT. -/
def runTimeout (r : Run) (s : State) : State :=
  if 1 ≤ r.timeouts then enterFault .timeout s
  else powerDown .cycle (modRun (fun r => { r with timeouts := 1, stage := .cycling, resends := 0 }) s)

/-- The run in progress is asked to stop at its next block boundary (R174); one that waits to issue a command ends at
once. -/
def askStop (s : State) : State :=
  match s.cde.run with
  | none => s
  | some r => if r.stage = .waiting then endRun .stopped s else modRun (fun r => { r with stop := true }) s

/-- The card is to be parked (R167). -/
def park (s : State) : State :=
  if s.cde.run.isSome then askStop (modCde (fun c => { c with parkAsked := true }) s) else parkNow s

/-! ### IDENT (R163, R167, R169, R175) -/

/-- IDENT has failed. -/
def identFailed (s : State) : State := enterFault .ident s

/-- IDENT's good response is taken: the mount begins, or the run of a power cycle goes on. -/
def identGood (capacity : Nat) (s : State) : State :=
  if s.cde.cycling then
    if s.cde.capacity = some capacity then
      let s := modRun (fun r => { r with stage := .waiting }) s
      if s.cde.run.any (·.stop) then endRun .stopped s else s
    else identFailed s
  else startMount (modCde (fun c => { c with capacity := some capacity }) s)

/-- IDENT ends, with the capacity of a good response of at least one block, or failed. A result to be discarded is
(R167, R169). -/
def identEnded (good : Option Nat) (s : State) : State :=
  let drop := s.cde.identDrop
  let s := modCde (fun c => { c with ident := none, identDrop := none, busTimer := none }) s
  match drop, good with
  | some .park, _ => powerDownTo .park s
  | some .reset, _ => powerDownTo .powerUp s
  | none, some n => identGood n s
  | none, none => identFailed s

/-! ### Blocks of a run (R172, R173, R174) -/

/-- The bytes a WRITE_RUN sends for its next block, for every user but DATA. -/
def fixedBlock (r : Run) (s : State) : Option (List Byte) :=
  let g := s.cde.geometry.getD { nextFree := 0, count := 0, highest := 0, formatId := 0 }
  match r.user, s.cde.container with
  | .format, _ => s.cde.format.map (logHeaderBlock (capacityOf s))
  | .drain, some c =>
    (match c.stage with
    | .header => some c.header
    | .commit => some (commitBlock g.formatId c c.crc)
    | .logUpdate => some (logHeaderBlock (capacityOf s) g)
    | .data | .summing => none)
  | _, _ => some (logHeaderBlock (capacityOf s) g)

/-- The data bytes of the block of DATA being sent: its offset and length in the slot's data (R186). -/
def dataSpan (r : Run) (c : Container) : Nat × Nat :=
  let o := (r.start + r.done - (c.start + 1)) * 512
  (o, min 512 (c.total - o))

/-- The next bytes of a block of DATA are read, or the block is sent with zeros at its unused end (R186). -/
def fetchNext (s : State) : State :=
  match s.cde.run, s.cde.container with
  | some r, some c =>
    let (o, n) := dataSpan r c
    let got := s.cde.block.length
    if got < n then readSlot c (o + got) (n - got) s else sendBlock (padTo 512 s.cde.block) s
  | _, _ => s

/-- A WRITE_RUN goes on with its next block. -/
def nextBlock (s : State) : State :=
  match s.cde.run with
  | none => s
  | some r =>
    match fixedBlock r s with
    | some bs => sendBlock bs s
    | none =>
      fetchNext (modRun (fun r => { r with stage := .fetching }) (modCde (fun c => { c with block := [], busTimer := none }) s))

/-- The run is at a block boundary (R172, R173, R174). -/
def atBoundary (s : State) : State :=
  match s.cde.run with
  | none => s
  | some r =>
    if r.count ≤ r.done then endRun .done s
    else if r.stop then sendStop s
    else if r.write then nextBlock s
    else awaitResponse (modRun (fun r => { r with stage := .receiving }) s)

/-- A run's command has been acknowledged (R172, R173). -/
def acknowledged (s : State) : State :=
  match s.cde.run with
  | none => s
  | some r => if r.write then nextBlock s else awaitResponse (modRun (fun r => { r with stage := .receiving }) s)

/-- A block of a READ_RUN arrives (R172). DESIGN CHOICE (log 54): a stop already asked when a block fails its CRC ends the
run STOPPED at once, without the retry. -/
def blockReceived (data : List Byte) (crc : BitVec 16) (s : State) : State :=
  match s.cde.run with
  | none => s
  | some r =>
    if r.stage ≠ .receiving then s
    else if crc16 data = crc then
      let s := modCde (fun c => { c with block := data }) s
      let s := match r.user, s.cde.serving with
        | .read, some q => storeBlock q data s
        | _, _ => s
      atBoundary (modRun (fun r => { r with done := r.done + 1 }) s)
    else if r.retries < 3 then
      let s := modRun (fun r => { r with retries := r.retries + 1, stage := .waiting }) (modCde (fun c => { c with busTimer := none }) s)
      if r.stop then endRun .stopped s else s
    else endRun .crcFail s

/-- A token for a sent block is taken (R173). DESIGN CHOICE (log 66): a block sent again is the one held, not read anew. -/
def takeToken (t : WriteToken) (s : State) : State :=
  match s.cde.run with
  | none => s
  | some r =>
    if r.stage ≠ .token then s
    else match t with
      | .accept => modRun (fun r => { r with stage := .busy }) (modCde (fun c => { c with busTimer := some Config.busyTime }) s)
      | .crcBad =>
        if r.resends < 3 then sendBlock s.cde.block (modRun (fun r => { r with resends := r.resends + 1 }) s)
        else enterFault .writeFail s
      | .writeFail => enterFault .writeFail s

/-- Busy is released (R173). -/
def busyReleased (s : State) : State :=
  match s.cde.run with
  | none => s
  | some r =>
    if r.stage ≠ .busy then s
    else atBoundary (modRun (fun r => { r with done := r.done + 1, resends := 0 }) (modCde (fun c => { c with busTimer := none }) s))

/-- The response awaited does not come, or comes bad (R171, R174, R175). -/
def responseFailed (s : State) : State :=
  if s.cde.ident = some .sent then identEnded none s
  else match s.cde.run with
    | none => s
    | some r =>
      match r.stage with
      | .acking | .receiving | .token | .stopping => runTimeout r s
      | .waiting | .fetching | .busy | .cycling => s

/-- A response arrives for a run command or a stop mark (R171, R174). -/
def responseArrived (good : Bool) (s : State) : State :=
  match s.cde.run with
  | none => responseFailed s
  | some r =>
    match r.stage with
    | .acking => if good then acknowledged s else runTimeout r s
    | .stopping => if good then endRun .stopped s else runTimeout r s
    | .cycling => responseFailed s
    | .waiting | .receiving | .fetching | .token | .busy => s

/-! ### QUIET_REQ and the battery (R161, R174, R188, R190) -/

/-- QUIET_REQ rises: the run in flight is asked to stop (R174). -/
def quietRose (s : State) : State := askStop s

/-- QUIET_REQ falls: a waiting power-up asks for a reading, SUMMING goes on (R161, R188). -/
def quietFell (s : State) : State :=
  let s := if s.cde.powerUp = some .quiet then ask .card (modCde (fun c => { c with powerUp := some .reading }) s) else s
  if slotReadOut s then s else sumNext s

/-- The blocks of the container not yet done (R190). -/
def blocksLeft (c : Container) (s : State) : Nat :=
  c.blocks + 2 - (c.done + (if c.stage = .logUpdate then 0 else natOr0 (s.cde.run.map (·.done))))

/-- The battery falls to CRITICAL during a container (R190). -/
def containerCritical (c : Container) (s : State) : State :=
  let s := modCde (fun c => { c with parkOwed := true }) s
  if blocksLeft c s ≤ 64 then s
  else
    let s := modContainer (fun c => { c with park := true }) s
    if c.stage = .summing then (if slotReadOut s then s else containerParked s) else askStop s

/-- A change of the BATT level to CRITICAL (R190). -/
def battCritical (s : State) : State :=
  match s.cde.state with
  | .ready | .reading => payPark (modCde (fun c => { c with parkOwed := true }) s)
  | .writing =>
    (match s.cde.container with
    | some c => containerCritical c s
    | none => modCde (fun c => { c with parkOwed := true }) s)
  | .powering | .identifying | .mounting | .unformatted => park s
  | .discharging => if s.cde.dischargeFor = .powerUp then park s else s
  | .absent | .parked | .fault => s

/-- A change of the BATT level away from CRITICAL (R190). -/
def battRecovered (s : State) : State :=
  let s := modCde (fun c => { c with parkOwed := false }) s
  if s.cde.state = .parked ∧ (s.hmp.path = .run ∨ s.hmp.path = .filling) then startPowerUp s else s

/-- The Card Engine is told of a BATT evaluation that changed the level (R149, R190). DESIGN CHOICE (log 56): a level that
SET_MONITOR took from CRITICAL to NORMAL (R152) has changed at no evaluation, and nothing is told. -/
def battChanged (before : BattLevel) (s : State) : State :=
  if s.amn.battLevel = before then s
  else if s.amn.battLevel = .critical then battCritical s
  else if before = .critical then battRecovered s
  else s

/-- A CARD result reaches the engine; CARD_FAULT and CARD_FULL are evaluated at it (R157, R168, R184). -/
def cardResult (v : Option Int) (s : State) : State :=
  let s := match v with
    | some x => cardReading x s
    | none => s
  if s.cde.state = .fault then raiseCard .cardFault s
  else if fullCondition s then raise .cardFull s
  else s

/-! ### Insertion, removal, overcurrent, timers (R160 to R166) -/

/-- An insertion (R160, R164): a power-up, after the discharge that runs if one does. While the standby entry is in
progress the card is parked at once (log 14). -/
def insertCard (s : State) : State :=
  let s := modCde (fun c => { c with detected := true, detCount := 50 }) s
  let s := if s.cde.discharge then modCde (fun c => { c with dischargeFor := .powerUp }) s else startPowerUp s
  raise .cardInserted (if s.hmp.path = .entering then park s else s)

/-- A removal (R165). -/
def removeCard (s : State) : State :=
  let s := loseCard .removed .removed s
  let s := modCde (fun c => { c with detected := false, detCount := 0, capacity := none }) s
  raiseCard .cardRemoved (powerDownTo .removal s)

/-- An overcurrent (R166). -/
def overcurrent (s : State) : State := if s.cde.pwrEn then enterFault .overcurrent s else s

/-- The ramp timer runs out (R162). -/
def rampExpired (s : State) : State := if s.cde.rampTimer.isSome then enterFault .ramp s else s

/-- The discharge timer runs out (R164): FAULT with cause DISCHARGE, unless the engine is in FAULT already. -/
def dischargeExpired (s : State) : State :=
  if s.cde.dischargeTimer.isSome then
    let s := modCde Cde.endDischarge s
    if s.cde.state = .fault then s else enterFault .discharge s
  else s

end Sys2Proof.Machine
end

