-- ==== Sys2Proof/Machine/Exposure.lean ====
section
/-! DEFINITION. The Exposure Sequencer (chapter 2): its states and lines, the quiet handshake, flush and settle, the sync
filter, the modes, expiry, abort and the end of integration; and the wake events of chapter 3. -/

namespace Sys2Proof.Machine

/-! ### States, lines, instants (R23 to R25) -/

/-- Enters a sequencer state with the lines of R23. -/
def Exs.enter (e : Exs) (q : SeqState) : Exs :=
  { e with
    seq := q
    quietReq := q != .idle
    snsFlush := q == .flush
    snsInteg := q == .waiting || q == .opened || q == .tail
    readyOut := q == .waiting }

/-- Enters a state and starts its timer of `us` microseconds. -/
def Exs.enterFor (e : Exs) (q : SeqState) (us : Nat) : Exs := { e.enter q with timer := some us }

def modExs (f : Exs → Exs) (s : State) : State := { s with exs := f s.exs }

/-- The difference of two instants, modulo 2^32 (R25). -/
def since (later earlier : Nat) : Nat := (later + 4294967296 - earlier) % 4294967296

/-- The later of two instants that both lie at or before `now`. -/
def laterOf (now a b : Nat) : Nat := if since now a ≤ since now b then a else b

/-- Changes the record of the shot the sequencer runs. -/
def modShot (f : ShotRecord → ShotRecord) (s : State) : State :=
  match s.exs.current with
  | some e => { s with stb := s.stb.update e.shot f }
  | none => s

def moveShot (p : Phase) (s : State) : State :=
  match s.exs.current with
  | some e => { s with stb := s.stb.move e.shot p }
  | none => s

def setFlag (f : RecordFlags → RecordFlags) (s : State) : State := modShot (fun r => { r with flags := f r.flags }) s

/-- The live image of the running shot's profile (R28). -/
def shotProfile (s : State) : Option Profile := s.exs.current.bind fun e => s.prs.live e.profile

/-- A time of the running shot's profile, in microseconds. -/
def profileTime (f : Profile → Nat) (s : State) : Nat := 1000 * natOr0 ((shotProfile s).map f)

/-! ### Wake events (R68, R69) -/

/-- The card is to be mounted at a wake (R68, R69): a parked card powers up, a park in progress gives way to a power-up. -/
def mountAtWake (s : State) : State :=
  let s := modCde (fun c => { c with
    parkAsked := false
    identDrop := if c.identDrop = some .park then none else c.identDrop
    dischargeFor := if c.dischargeFor = .park then .powerUp else c.dischargeFor }) s
  if s.cde.state = .parked then startPowerUp s else s

/-- A wake event (R68, R69): STANDBY is left by way of WAKING; an entry in progress is abandoned. -/
def wake (c : WakeCause) (s : State) : State :=
  match s.hmp.path with
  | .standby => { s with hmp := { s.hmp with path := .waking, wake := c } }
  | .entering =>
    mountAtWake { s with hmp := { s.hmp with path := .run, wake := c }, amn := s.amn.resume }
  | .filling | .run | .waking => s

/-! ### Missed syncs and the debounce in use (R35, R38) -/

/-- An accepted closure that cannot be used for timing (R38). -/
def missedSync (s : State) : State :=
  let stb := { s.stb with records := s.stb.records.map fun r =>
    if r.phase = .reading then { r with missed := satAdd max8 r.missed 1 } else r }
  raise .missedSync { s with exs := { s.exs with missed := satAdd max32 s.exs.missed 1 }, stb := stb }

def SyncFilter.accept (f : SyncFilter) (closed : Bool) : SyncFilter := { f with closed := closed, run := none }

/-- The filter accepts a run while the sequencer is IDLE (R38, R44). -/
def acceptIdle (closed : Bool) (s : State) : State :=
  let s := modExs (fun e => { e with sync := e.sync.accept closed }) s
  if closed then missedSync s else s

/-- The debounce in use changes, and a run in progress is judged against it (R35). The sequencer is IDLE at both changes. -/
def setDebounce (n : Nat) (s : State) : State :=
  let s := modExs (fun e => { e with sync := { e.sync with debounce := n } }) s
  match s.exs.sync.run with
  | some r => if n ≤ r.length then acceptIdle r.closed s else s
  | none => s

/-- The lines of the exposure and QUIET_REQ are released, and what waits for QUIET_REQ goes on (R45, R46, R48 steps 2 and
3, R161, R188). -/
def releaseLines (s : State) : State :=
  quietFell (modExs (fun e => { e with quietReq := false, snsFlush := false, snsInteg := false, readyOut := false }) s)

/-- The sequencer returns to IDLE, its lines released: the shot is given up, the debounce is 10 samples again (R24, R35). -/
def returnIdle (s : State) : State :=
  setDebounce Config.idleDebounce (modExs (fun e => { e.enter .idle with current := none, timer := none }) s)

/-! ### The end of integration (R48, R49) -/

/-- The time from the exposure's start to a release: zero for a release before the start (R49, log 15). -/
def releaseSpan (now : Nat) (e : Exposure) : Nat := if since now e.start < since now e.stop then 0 else since e.stop e.start

/-- The exposure time by the source of its end, in 10 us units: never more than the integration time (R49, log 15). -/
def exposureTime (src : ExposureSource) (now : Nat) (seq : SeqState) (e : Exposure) : Nat :=
  min (since now e.entry) (match src with
    | .timed => since now e.entry
    | .limit => max (100 * e.duration) (since e.accepted e.start)
    | .window => max (100 * e.duration) (since e.accepted e.start)
    | .abort => if seq = .tail then releaseSpan now e else since now e.start
    | .early => if e.mode = .window then 100 * e.duration else releaseSpan now e
    | .syncSpan => releaseSpan now e)

/-- The moves of the record at the end of integration (R43, R48). -/
def moveReading (s : State) : State := moveShot .reading (moveShot .exposing s)

/-- SNS_READ is pulsed for 10 microseconds (R24). -/
def pulseRead (s : State) : State := modExs (fun e => { e with snsRead := true, pulse := some Config.samplePeriod }) s

/-- The readout of the running shot's slot starts with its profile (R48, R86). -/
def beginReadout (e : Exposure) (s : State) : State :=
  match s.prs.live e.profile, (s.stb.find e.shot).bind (·.slot) with
  | some p, some slot => startReadout e.shot slot p s
  | _, _ => s

/-- Integration ends, by the ten steps of R48 in their order. -/
def endIntegration (src : ExposureSource) (s : State) : State :=
  match s.exs.current with
  | none => s
  | some e =>
    let now := s.exs.timeBase
    let seq := s.exs.seq
    let s := ask (.tempEnd e.shot) (releaseLines s)
    let s := modShot (fun r => { r with
      integration := some (since now e.entry)
      exposure := some (exposureTime src now seq e)
      source := some src }) s
    let s := beginReadout e (pulseRead s)
    raise .exposed (returnIdle (moveReading s))

/-- The source of an exposure a closure started, or of an early one (R49). -/
def Exposure.source (e : Exposure) : ExposureSource :=
  if e.early then .early else if e.mode = .window then .window else .syncSpan

/-! ### Start of the exposure (R39 to R42) -/

/-- The exposure limit runs out (R41). -/
def limitReached (s : State) : State := endIntegration .limit (setFlag (fun f => { f with limited := true }) s)

/-- The window ends (R42). -/
def windowReached (s : State) : State :=
  match s.exs.current with
  | some e => endIntegration e.source s
  | none => s

/-- The exposure starts (R39, R40, R42): OPEN, with the limit or the window running from the exposure start; one already
past ends integration at once. -/
def startExposure (start : Nat) (early : Bool) (s : State) : State :=
  match s.exs.current with
  | none => s
  | some e =>
    let now := s.exs.timeBase
    let elapsed := 10 * since now start
    let whole := 1000 * e.duration
    let s := modExs (fun x => { x.enterFor .opened (whole - elapsed) with
      current := some { e with start := start, accepted := now, early := early } }) s
    let s := moveShot .exposing s
    if whole ≤ elapsed then (if e.mode = .window then windowReached s else limitReached s) else s

/-! ### From ARM to WAITING (R29, R33, R34) -/

/-- Entry to WAITING begins integration (R34, R39, R156). -/
def enterWaiting (s : State) : State :=
  match s.exs.current with
  | none => s
  | some e =>
    let now := s.exs.timeBase
    let s := modExs (fun x => { x.enter .waiting with current := some { e with entry := now, start := now } }) s
    let s := warnRecord (moveShot .waiting s)
    let s := ask (.tempStart e.shot) s
    if e.mode = .timed then modExs (fun x => { x with timer := some (1000 * e.duration) }) s
    else if s.exs.sync.closed then
      let s := if e.closedBefore then
        modShot (fun r => { r with early := satAdd max8 r.early 1, flags := { r.flags with earlySync := true } }) s else s
      startExposure now true s
    else modExs (fun x => { x with timer := some (1000000 * e.waitLimit) }) s

/-- The flush time runs out: the settle stage, or WAITING with a settle time of 0 (R33). -/
def endFlush (s : State) : State :=
  let us := profileTime (·.settleTime) s
  let s := modExs (fun x => x.enterFor .settle us) s
  if us = 0 then enterWaiting s else s

/-- FLUSHING is entered (R33). -/
def enterFlush (s : State) : State :=
  let us := profileTime (·.flushTime) s
  modExs (fun x => x.enterFor .flush us) s

/-- The quiet wait has run out (R29). -/
def quietMissed (s : State) : State := enterFlush (setFlag (fun f => { f with quietMissed := true }) s)

/-- QUIETING is entered (R29). -/
def enterQuieting (s : State) : State :=
  let us := profileTime (·.quietWait) s
  let s := quietRose (modExs (fun x => x.enterFor .quieting us) s)
  if s.pins.quietAck then enterFlush s
  else if us = 0 then quietMissed s
  else s

/-! ### What the filter accepts (R35 to R44) -/

/-- A closure accepted in WAITING in SPAN or WINDOW (R40, R42). -/
def closureInWaiting (first : Nat) (e : Exposure) (s : State) : State :=
  startExposure (laterOf s.exs.timeBase first e.entry) false s

/-- The filter accepts a closure; the sequencer takes it by its state (R35, R38 to R44). -/
def takeClosure (first : Nat) (s : State) : State :=
  let s := modExs (fun e => { e with sync := e.sync.accept true }) s
  match s.exs.seq with
  | .idle => wake .sync (missedSync s)
  | .quieting | .flush | .settle =>
    modShot (fun r => { r with early := satAdd max8 r.early 1, flags := { r.flags with earlySync := true } }) s
  | .waiting =>
    (match s.exs.current with
    | some e => if e.mode = .timed then missedSync s else closureInWaiting first e s
    | none => s)
  | .opened | .tail => s

/-- The accepted release ends a SPAN exposure (R40). -/
def releaseInOpen (first : Nat) (e : Exposure) (s : State) : State :=
  let us := profileTime (·.tailTime) s
  let s := modExs (fun x => { x.enterFor .tail us with current := some { e with stop := first } }) s
  if us = 0 then endIntegration e.source s else s

/-- The filter accepts a release (R36, R40, R44). -/
def takeRelease (first : Nat) (s : State) : State :=
  let s := modExs (fun x => { x with
    sync := x.sync.accept false
    current := x.current.map fun e => { e with closedBefore := false } }) s
  match s.exs.seq, s.exs.current with
  | .opened, some e => if e.mode = .span then releaseInOpen first e s else s
  | _, _ => s

/-- A closed run ends below the debounce (R37). -/
def rejectedPulse (s : State) : State :=
  { s with stb := { s.stb with records := s.stb.records.map fun r =>
    if r.phase.timed then { r with rejected := satAdd max8 r.rejected 1 } else r } }

/-- One sample at SYNC_IN (R35 to R37). -/
def sampleSync (level : Bool) (s : State) : State :=
  let f := s.exs.sync
  let setRun (r : Option SyncRun) (s : State) : State := modExs (fun x => { x with sync := { x.sync with run := r } }) s
  if level = f.closed then
    match f.run with
    | some r => (if r.closed then rejectedPulse else id) (setRun none s)
    | none => s
  else
    let r : SyncRun := match f.run with
      | some r => { r with length := r.length + 1 }
      | none => { closed := level, length := 1, first := s.exs.timeBase }
    if f.debounce ≤ r.length then (if level then takeClosure r.first s else takeRelease r.first s)
    else setRun (some r) s

/-! ### Expiry and abort (R45, R46) -/

/-- The shot leaves its profile before any readout (R51). -/
def leaveShot (p : Phase) (s : State) : State :=
  match s.exs.current with
  | none => s
  | some e => releaseProfile e.profile (returnIdle (moveShot p (releaseLines s)))

/-- The wait limit runs out (R45). -/
def expireShot (s : State) : State := raise .expired (leaveShot .expired s)

/-- ABORT in OPEN or TAIL (R46). -/
def abortOpen (s : State) : State := endIntegration .abort (setFlag (fun f => { f with abortedOpen := true }) s)

/-! ### Timers of the sequencer -/

/-- The timer of a state runs out: nothing happens unless the sequencer is in a state it runs in. -/
def whenIn (q : SeqState) (f : State → State) (s : State) : State := if s.exs.seq = q then f s else s

/-- The mode of the running shot. -/
def shotMode (s : State) : Option ShotMode := s.exs.current.map (·.mode)

end Sys2Proof.Machine
end

