-- ==== Sys2Proof/Machine/Operands.lean ====
section
/-! DEFINITION. The arguments of commands as the part applies them: clamps, encodings and ranges (R3, R27, R191, 11 section
11.6). -/

namespace Sys2Proof.Machine

/-- The slot size applied, in MiB (R3). -/
def appliedSize (size : BitVec 32) : Nat := clampNat 1 752 size.toNat

/-- The mode an argument names (R26). -/
def modeOf (m : BitVec 8) : Option ShotMode :=
  match m.toNat with
  | 0 => some .span
  | 1 => some .window
  | 2 => some .timed
  | _ => none

/-- The debounce applied, in microseconds (R27). -/
def appliedDebounce (d : BitVec 32) : Nat := if d.toNat = 0 then 100 else clampNat 20 5000 (d.toNat / 10 * 10)

/-- The wait limit applied, in seconds (R27). -/
def appliedWait (w : BitVec 32) : Nat := clampNat 1 3600 w.toNat

/-- The duration applied, in milliseconds (R27). -/
def appliedDuration (d : BitVec 32) : Nat := clampNat 1 3600000 d.toNat

/-- The bits of an argument that name event flags (R202, R204). -/
def flagBits (v : BitVec 32) : BitVec 18 := v.setWidth 18

/-- Whether a range of bytes lies wholly inside an area. -/
def inside (lo hi first last : Nat) : Bool := decide (lo ≤ first ∧ last < hi)

/-- Whether a card read's arguments are in range (R191, check 1). -/
def destinationOk (t : Stb) (count dest : Nat) : Bool :=
  let last := dest + count * 512 - 1
  decide (1 ≤ count ∧ count ≤ 65536 ∧ dest % 4 = 0) &&
    (inside 0 Config.frameBase dest last || inside t.slotsEnd Config.frameEnd dest last ||
      inside 0x3F001008 0x3F002000 dest last || inside Config.errorMirrorEnd Config.mapMirror dest last ||
      inside Config.stagingBase Config.dramTop dest last)

/-- Whether a staged image or list of `n` bytes lies in the staging area, at a multiple of 8. -/
def staged (addr n : Nat) : Bool :=
  decide (addr % 8 = 0) && decide (Config.stagingBase ≤ addr ∧ addr + n ≤ Config.dramTop)

end Sys2Proof.Machine
end

