-- ==== Sys2Proof/Machine/Ops.lean ====
section
/-! DEFINITION. The shared operation every command ends in: what its changes call for in mirrors, status pieces, event
flags and transactions. -/

namespace Sys2Proof.Machine

/-! ### Mirrors and pieces that a change calls for (R9, R200, R201, R206) -/

/-- Queues the mirror write of each entry, of those listed, whose content a command changed, unless the write of just that
content is queued (log 9). -/
def mirrorChanges (before after : Stb) : List Nat → Rqe → Rqe
  | [], q => q
  | e :: es, q =>
    mirrorChanges before after es
      (if after.entryContent e = before.entryContent e ∨ q.queuedContent e = some (after.entryContent e) then q
       else q.mirrorShot e (after.entryContent e))

/-- Marks each piece, of those listed, whose content a command changed. -/
def markChanges (before after : State) : List Nat → Rqe → Rqe
  | [], q => q
  | k :: ks, q => markChanges before after ks (if statusPiece k after = statusPiece k before then q else q.mark k)

/-- What is still to be written: every mirror write queued and every piece of content marked or being written (log 10). -/
def Rqe.outstanding (q : Rqe) (writing : Bool) : Hold :=
  { jobs := q.jobs.length, pieces := q.marked.filter fun k => k != 0, writing := writing }

/-- The occurrences of the command wait for all that is now to be written (R201). -/
def Rqe.placeRaises (q : Rqe) (writing : Bool) : Rqe :=
  { q with raises := q.raises.map fun r => { r with hold := r.hold.or (some (q.outstanding writing)) } }

/-- The write of a piece of content is in progress. -/
def Fmc.writingContent (f : Fmc) : Bool := f.active.any fun t => match t.kind with
  | .pieceWrite k => k != 0
  | _ => false

/-- The order in which a command's pieces are marked: content first, flags last. -/
def pieceOrder : List Nat := [1, 2, 3, 4, 5, 6, 0]

/-- What the command's changes leave the RQE with. -/
def settleRqe (before after : State) : Rqe :=
  ((markChanges before after pieceOrder (mirrorChanges before.stb after.stb (List.range 16) after.rqe)).placeRaises
    after.fmc.writingContent).makeRaises

/-! ### Transactions of the RQE and the DFM (R62, R115, R206) -/

/-- Whether the port is served: in RUN and ENTERING (R64, R66, R67). -/
def portOpen (s : State) : Bool := s.hmp.path == .run || s.hmp.path == .entering

/-- A transaction of a kind waits or is in progress. -/
def Fmc.has (f : Fmc) (p : TxnKind → Bool) : Bool := f.waits p || f.active.any fun t => p t.kind

def TxnKind.isPiece : TxnKind → Bool
  | .pieceWrite _ => true
  | _ => false

/-- The address and the bytes of the next transaction of a mirror job: a shot table entry goes in four (R206). -/
def MirrorJob.chunk : MirrorJob → Nat × List Byte
  | .shotEntry e content update k => (Config.shotMirror + 256 * e + 64 * k, ((mirrorEntry update content).drop (64 * k)).take 64)
  | .errorEntry k content => (Config.errorMirror + 32 + 32 * k, errorEntryBytes content)
  | .errorHeader u n o => (Config.errorMirror, errorHeaderBytes u n o)

/-- The mirror write at the front is presented, unless one is. -/
def presentMirror (s : State) : State :=
  match s.rqe.jobs with
  | [] => s
  | j :: _ =>
    if s.fmc.has (· == .mirrorWrite) then s
    else present { kind := .mirrorWrite, addr := j.chunk.1, len := j.chunk.2.length, bytes := cellsAt j.chunk.1 j.chunk.2 } s

/-- The status block still has to be written with the map sequence (R115, step 1). -/
def sequenceOwed (s : State) : Bool := s.rqe.marked.contains 5 || s.fmc.active.any fun t => t.kind == .pieceWrite 5

/-- The next positions of the map mirror rewrite are presented, at most 8 of them, unless some are, once the status block
shows the odd sequence (R115; log 41). -/
def presentMap (s : State) : State :=
  match s.dfm.rewrite with
  | none => s
  | some r =>
    if r.stop ≤ r.next ∨ s.fmc.has (· == .mapWrite) ∨ sequenceOwed s then s
    else present { kind := .mapWrite, addr := Config.mapMirror + 8 * r.next, len := 8 * min 8 (r.stop - r.next) } s

/-- The part's own work and the reads that wait go to the arbiter while the port is served. -/
def presentWork (s : State) : State := if portOpen s then releaseReads (presentMap (presentMirror s)) else s

/-! ### Standby entry (R66, R158) -/

/-- In ENTERING the monitor stops once the card is ABSENT, PARKED or FAULT (R66, step 2). -/
def stopMonitor (s : State) : State :=
  if s.hmp.path = .entering ∧ (s.cde.state = .absent ∨ s.cde.state = .parked ∨ s.cde.state = .fault) ∧
      s.amn.stopped = false ∧ s.amn.stopAsked = false then
    { s with amn := s.amn.askStop }
  else s

/-! ### The end of every command -/

/-- What follows from the changes a command made to `before`. -/
def finish (before after : State) : State :=
  stopMonitor (presentWork { after with rqe := settleRqe before after })

/-- A command's effect, with what follows from it. While RESET_N is asserted the part does nothing (R65). -/
def event (s : State) (f : State → State) : Host.Outcome State Fault Refusal :=
  .next (if s.resetHeld then s else finish s (f s))

/-- A command that moves an input pin: the level changes even while RESET_N is asserted. -/
def pinEvent (s : State) (g : Pins → Pins) (f : State → State) : Host.Outcome State Fault Refusal :=
  .next (if s.resetHeld then { s with pins := g s.pins } else finish s (f { s with pins := g s.pins }))

end Sys2Proof.Machine
end

