-- ==== Sys2Proof/Machine/TableRequests.lean ====
section
/-! DEFINITION. The requests of the Shot Table and the Exposure Sequencer: SET_SLOTS, ARM, ABORT, DISCARD, RELEASE, RETIRE. -/

namespace Sys2Proof.Machine

/-! ### SET_SLOTS (R3) -/

/-- Whether a card read's destination range touches the frame region. -/
def CardRead.inFrame (r : CardRead) : Bool :=
  decide (r.dest < Config.frameEnd ∧ Config.frameBase < r.dest + r.count * 512)

/-- Whether a slot keeps the layout from changing (R3). -/
def Stb.slotBars (t : Stb) (i : Nat) : Bool :=
  match t.slotState i with
  | .free => false
  | .retained => (t.holder i).any fun r => r.flags.keep
  | .armed | .readout | .held | .draining => true

/-- The card reads queued or being served. -/
def cardReads (s : State) : List CardRead := s.cde.serving.toList ++ s.cde.reads

def slotsBusy (s : State) : Bool :=
  (List.range s.stb.count).any s.stb.slotBars || (cardReads s).any CardRead.inFrame

def judgeSetSlots (size : BitVec 32) (s : State) : State :=
  if slotsBusy s then reply .busy s
  else
    answer { code := .done, result := le 4 (appliedSize size) ++ le 1 (slotCountOf (appliedSize size)) }
      { s with stb := s.stb.relayout (appliedSize size) }

/-- SET_SLOTS (R3). -/
def execSetSlots (size : BitVec 32) (s : State) : Host.Outcome State Fault Refusal :=
  event s (serve (.setSlots size) (judgeSetSlots size))

/-! ### ARM (R26 to R28) -/

/-- The first check an ARM fails after its arguments are decoded (R26). -/
def armRefusal (profile : Nat) (s : State) : Option Code :=
  if s.stb.current.isSome then some .busy
  else match s.prs.live profile with
    | none => some .noProfile
    | some p =>
      if s.stb.slotBytes < p.frameBytes then some .slotTooSmall
      else if s.amn.tempValid ∧ s.amn.tempLevel = .limit then some .tooHot
      else if s.amn.battValid ∧ s.amn.battLevel ≠ .normal then some .lowBattery
      else if s.stb.slotFor = none then some .noSlot
      else none

/-- The oldest final record goes when the table is full, its mirror entry written empty (R16). -/
def makeRoom (s : State) : State :=
  match s.stb.victim with
  | some v => { s with stb := s.stb.remove v.shot, rqe := s.rqe.mirrorShot v.entry none }
  | none => s

/-- The record of an accepted ARM (R7). -/
def newRecord (profile : Nat) (mode : ShotMode) (keep darkCal : Bool) (timestamp : Nat) (slot : Nat) (s : State) :
    ShotRecord :=
  { entry := s.stb.emptyEntry, shot := s.stb.nextShot, phase := .arming, slot := some slot, profile := profile,
    mode := mode, flags := { keep := keep, darkCal := darkCal }, timestamp := timestamp,
    battery := if s.amn.battValid then s.amn.batt else none }

/-- The slot is taken, room made and the record created (R14, R28 step 1). -/
def createRecord (profile : Nat) (mode : ShotMode) (keep darkCal : Bool) (timestamp slot : Nat) (s : State) : State :=
  let s := makeRoom { s with stb := s.stb.takeSlot slot }
  let r := newRecord profile mode keep darkCal timestamp slot s
  let t := s.stb.setSlot slot .armed
  { s with stb := { t with records := t.records ++ [r], nextShot := nextNumber t.nextShot } }

/-- The EXS takes the shot and its applied parameters, and sets the debounce in use (R28 step 2). -/
def takeShot (shot profile : Nat) (mode : ShotMode) (debounce waitLimit duration : Nat) (s : State) : State :=
  let s := setDebounce (debounce / 10) s
  let e : Exposure :=
    { shot := shot, profile := profile, mode := mode, debounce := debounce, waitLimit := waitLimit, duration := duration,
      closedBefore := s.exs.sync.closed }
  modExs (fun x => { x with current := some e }) s

/-- The result of an accepted ARM (11 section 11.6). -/
def armResult (shot slot debounce waitLimit duration : Nat) : List Byte :=
  le 4 shot ++ le 1 slot ++ le 3 0 ++ le 4 debounce ++ le 4 waitLimit ++ le 4 duration

/-- An ARM that has passed its checks (R28). -/
def acceptArm (profile : Nat) (mode : ShotMode) (keep darkCal : Bool) (debounce waitLimit duration timestamp slot : Nat)
    (s : State) : State :=
  let shot := s.stb.nextShot
  let s := createRecord profile mode keep darkCal timestamp slot s
  let s := enterQuieting (takeShot shot profile mode debounce waitLimit duration s)
  answer { code := .started, result := armResult shot slot debounce waitLimit duration } s

def judgeArm (profile mode : BitVec 8) (keep darkCal : Bool) (debounce waitLimit duration timestamp : BitVec 32)
    (s : State) : State :=
  match modeOf mode with
  | none => reply .badRequest s
  | some m =>
    if 3 < profile.toNat then reply .badRequest s
    else match armRefusal profile.toNat s, s.stb.slotFor with
      | some c, _ => reply c s
      | none, none => reply .noSlot s
      | none, some slot =>
        acceptArm profile.toNat m keep darkCal (appliedDebounce debounce) (appliedWait waitLimit)
          (appliedDuration duration) timestamp.toNat slot s

/-- ARM (R26 to R28). -/
def execArm (profile mode : BitVec 8) (keep darkCal : Bool) (debounce waitLimit duration timestamp : BitVec 32)
    (s : State) : Host.Outcome State Fault Refusal :=
  event s (serve (.arm profile mode keep darkCal debounce waitLimit duration timestamp)
    (judgeArm profile mode keep darkCal debounce waitLimit duration timestamp))

/-! ### ABORT (R46) -/

/-- The result of ABORT: the shot and the phase it has after the request. -/
def abortResult (shot : Nat) (s : State) : List Byte :=
  le 4 shot ++ le 1 (((s.stb.find shot).map (·.phase.code)).getD 0)

def abortAnswer (shot : Nat) (s : State) : State := answer { code := .done, result := abortResult shot s } s

def judgeAbort (s : State) : State :=
  match s.exs.seq, s.exs.current with
  | .idle, _ => reply (if s.stb.inReading.isSome then .busy else .notFound) s
  | _, none => reply .notFound s
  | .quieting, some e => abortAnswer e.shot (leaveShot .aborted s)
  | .flush, some e => abortAnswer e.shot (leaveShot .aborted s)
  | .settle, some e => abortAnswer e.shot (leaveShot .aborted s)
  | .waiting, some e => abortAnswer e.shot (leaveShot .aborted s)
  | .opened, some e => abortAnswer e.shot (abortOpen s)
  | .tail, some e => abortAnswer e.shot (abortOpen s)

/-- ABORT (R46). -/
def execAbort (s : State) : Host.Outcome State Fault Refusal := event s (serve .abort judgeAbort)

/-! ### DISCARD, RELEASE, RETIRE (R19 to R21) -/

/-- The result of the three requests (11 section 11.6). -/
def shotResult (r : ShotRecord) : List Byte := le 4 r.shot ++ le 1 r.phase.code ++ le 1 (slotCode r.slot)

/-- Answers DONE with the record as it stands. -/
def answerShot (shot : Nat) (s : State) : State :=
  match s.stb.find shot with
  | some r => answer { code := .done, result := shotResult r } s
  | none => reply .done s

def judgeDiscard (shot : Nat) (s : State) : State :=
  match s.stb.find shot with
  | none => reply .notFound s
  | some r =>
    match r.phase with
    | .held => answerShot shot { s with stb := s.stb.move shot .discarded }
    | .stored => answerShot shot { s with stb := s.stb.freeSlot shot }
    | .expired | .aborted | .discarded | .calibrated => answerShot shot s
    | .arming | .waiting | .exposing | .reading | .storing => reply .busy s

/-- DISCARD (R19). -/
def execDiscard (shot : BitVec 32) (s : State) : Host.Outcome State Fault Refusal :=
  event s (serve (.discard shot) (judgeDiscard shot.toNat))

def judgeRelease (shot : Nat) (s : State) : State :=
  match s.stb.find shot with
  | none => reply .notFound s
  | some r =>
    let t := s.stb.update shot fun r => { r with flags := { r.flags with keep := false } }
    answerShot shot { s with stb := if r.phase = .stored then t.freeSlot shot else t }

/-- RELEASE (R20). -/
def execRelease (shot : BitVec 32) (s : State) : Host.Outcome State Fault Refusal :=
  event s (serve (.release shot) (judgeRelease shot.toNat))

def judgeRetire (shot : Nat) (s : State) : State :=
  match s.stb.find shot with
  | none => reply .notFound s
  | some r =>
    if r.phase.final then
      answer { code := .done, result := shotResult { r with slot := none } } { s with stb := s.stb.remove shot }
    else reply .busy s

/-- RETIRE (R21). -/
def execRetire (shot : BitVec 32) (s : State) : Host.Outcome State Fault Refusal :=
  event s (serve (.retire shot) (judgeRetire shot.toNat))

end Sys2Proof.Machine
end

