-- ==== Sys2Proof/Machine/LoadRequests.lean ====
section
/-! DEFINITION. The Profile Store's and the Defect Map's work: LOAD_PROFILE, LOAD_DEFECTS, CLEAR_FOUND, the judgement of
what they read, and the end of a mirror rewrite (R72 to R77, R115 to R120, R126). -/

namespace Sys2Proof.Machine

/-! ### LOAD_PROFILE (R72 to R77) -/

def modPrs (f : Prs → Prs) (s : State) : State := { s with prs := f s.prs }

/-- A load is refused BAD_REQUEST with its item number (R72, R73). -/
def refuseImage (item : Nat) (s : State) : State :=
  answer { code := .badRequest, result := le 1 item } (modPrs (fun p => { p with load := none }) s)

/-- The part of an image still to be read is asked for; a whole image waits for its judgement. DESIGN CHOICE (log 47): the
fixed part is one read of 40 bytes, and the tables go in reads of 64 from offset 40 on, across their bounds. -/
def readImage (l : ProfileLoad) (length : Nat) (s : State) : State :=
  let o := l.bytes.length
  if o < length then
    present { kind := .imageRead, addr := l.addr + o, len := min 64 (length - o) } (modPrs (fun p => { p with load := some l }) s)
  else modPrs (fun p => { p with load := some { l with image := some (imageOf l.bytes) } }) s

def judgeLoadProfile (id : BitVec 8) (addr : BitVec 32) (s : State) : State :=
  if s.prs.load.isSome then s
  else if 3 < id.toNat ∨ ¬ staged addr.toNat fixedLength then refuseImage 0 s
  else readImage { id := id.toNat, addr := addr.toNat, bytes := [], image := none } fixedLength s

/-- LOAD_PROFILE (R72). -/
def execLoadProfile (id : BitVec 8) (addr : BitVec 32) (s : State) : Host.Outcome State Fault Refusal :=
  event s (serve (.loadProfile id addr) (judgeLoadProfile id addr))

/-- A read of the image has completed (R72 to R74): the fixed part is judged once, then the tables are read. -/
def imageArrived (r : ReadResultBytes) (s : State) : State :=
  match s.prs.load with
  | none => s
  | some l =>
    if r.bad then reply .memError (modPrs (fun p => { p with load := none }) s)
    else
      let bytes := l.bytes ++ r.bytes
      let f := fixedPart bytes
      if l.bytes = [] then
        match badItem f with
        | some k => refuseImage k s
        | none =>
          if Config.dramTop < l.addr + imageLength f then refuseImage 0 s
          else readImage { l with bytes := bytes } (imageLength f) s
      else readImage { l with bytes := bytes } (imageLength f) s

/-- Whether a profile is in use (R76). -/
def Stb.inUse (t : Stb) (id : Nat) : Bool := t.records.any fun r => r.phase.running && r.profile == id

/-- The result of a load that passed (R75, 11 section 11.6). -/
def profileResult (waiting : Bool) (p : Profile) : List Byte :=
  le 1 (bit waiting) ++ le 1 (bit (!p.covered)) ++ le 2 p.minSlot ++ le 4 p.pitch ++ le 4 p.frameBytes

/-- The image becomes live, or waits while the profile is in use (R76, R77). -/
def placeImage (waiting : Bool) (p : Profile) (e : ProfileEntry) : ProfileEntry :=
  if waiting then { e with waiting := some p } else { e with live := some p }

/-- The image that has been read and validated is judged against the use of its profile (R76); the status block is
written with the change (R71). -/
def judgeImage (s : State) : State :=
  match s.prs.load with
  | none => s
  | some l =>
    match l.image with
    | none => s
    | some p =>
      let waiting := s.stb.inUse l.id
      answer { code := .done, result := profileResult waiting p }
        (mark 1 (modPrs (fun q => { q with entries := q.entries.modify l.id (placeImage waiting p), load := none }) s))

/-- PROFILE_IMAGE_JUDGED (R76). -/
def execProfileImageJudged (s : State) : Host.Outcome State Fault Refusal := event s judgeImage

/-! ### LOAD_DEFECTS (R117 to R119) -/

def modDfm (f : Dfm → Dfm) (s : State) : State := { s with dfm := f s.dfm }

def refuseList (r : DefectReason) (k : Nat) (s : State) : State :=
  answer { code := .badRequest, result := le 1 r.code ++ le 3 0 ++ le 4 k } (modDfm (fun d => { d with load := none }) s)

/-- The next entries of the list are asked for, at most eight (R117); a list that has passed whole waits for its
replacement. -/
def readList (l : DefectLoad) (s : State) : State :=
  let k := l.passed.length
  let s := modDfm (fun d => { d with load := some l }) s
  if k < l.count then present { kind := .listRead, addr := l.addr + 8 * k, len := 8 * min 8 (l.count - k) } s else s

/-- Whether the list's address is refused (R117). -/
def badListAddress (addr count : Nat) : Bool :=
  decide (addr < Config.stagingBase ∨ addr % 8 ≠ 0 ∨ Config.dramTop < addr + count * 8)

/-- The DFM takes LOAD_DEFECTS (R117, R119). DESIGN CHOICE (log 31): the address, then the count, then a record in READING. -/
def takeLoadDefects (addr count : Nat) (s : State) : State :=
  if badListAddress addr count then refuseList .address 0 s
  else if Config.mapLimit < count then refuseList .count 0 s
  else if s.stb.inReading.isSome then reply .busy s
  else readList { addr := addr, count := count, passed := [] } s

/-- The DFM is at work on a request. -/
def Dfm.working (d : Dfm) : Bool := d.load.isSome || d.waiting.isSome || d.owed.isSome

def judgeLoadDefects (addr count : BitVec 32) (s : State) : State :=
  if s.dfm.working then s
  else if s.dfm.resetRewrite then modDfm (fun d => { d with waiting := some (.loadDefects addr count) }) s
  else takeLoadDefects addr.toNat count.toNat s

/-- LOAD_DEFECTS (R117). -/
def execLoadDefects (addr count : BitVec 32) (s : State) : Host.Outcome State Fault Refusal :=
  event s (serve (.loadDefects addr count) (judgeLoadDefects addr count))

/-- A read of the list has completed (R118, R119). -/
def listArrived (r : ReadResultBytes) (s : State) : State :=
  match s.dfm.load with
  | none => s
  | some l =>
    if r.bad then reply .memError (modDfm (fun d => { d with load := none }) s)
    else
      match judgeEntries (r.bytes.length / 8) l.passed r.bytes with
      | (passed, none) => readList { l with passed := passed } s
      | (passed, some e) => refuseList e passed.length s

/-- An answer that waits for the rewrite of the mirror, if one is in progress (R119, R120). -/
def answerAfterRewrite (a : Answer) (s : State) : State :=
  if s.dfm.rewrite.isSome then modDfm (fun d => { d with owed := some a }) s else answer a s

/-- The list that has passed replaces the map (R119). -/
def replaceMap (s : State) : State :=
  match s.dfm.load with
  | none => s
  | some l =>
    if l.passed.length < l.count then s
    else
      let s := modDfm (fun d => { d with load := none }) s
      if s.stb.inReading.isSome then reply .busy s
      else
        let s := modDfm (fun d => d.replace (l.passed.take l.count)) s
        answerAfterRewrite { code := .done, result := le 2 s.dfm.entries.length ++ le 2 (foundCount s.dfm) } s

/-- DEFECT_LIST_REPLACE (R119). -/
def execDefectListReplace (s : State) : Host.Outcome State Fault Refusal := event s replaceMap

/-! ### CLEAR_FOUND (R120) -/

def takeClearFound (s : State) : State :=
  if s.stb.inReading.isSome then reply .busy s
  else
    let n := s.dfm.entries.length
    let s := modDfm (fun d => d.replace (d.entries.filter fun e => !e.found)) s
    let k := s.dfm.entries.length
    answerAfterRewrite { code := .done, result := le 2 (n - k) ++ le 2 k } s

def judgeClearFound (s : State) : State :=
  if s.dfm.working then s
  else if s.dfm.resetRewrite then modDfm (fun d => { d with waiting := some .clearFound }) s
  else takeClearFound s

/-- CLEAR_FOUND (R120). -/
def execClearFound (s : State) : Host.Outcome State Fault Refusal := event s (serve .clearFound judgeClearFound)

/-! ### The end of a mirror rewrite (R115, R116, R119, R126) -/

/-- Whether every position of the rewrite in progress has been written. -/
def rewriteWritten (s : State) : Bool :=
  s.dfm.rewrite.any (fun r => decide (r.stop ≤ r.next)) && !s.fmc.has (· == .mapWrite)

/-- A request that waited for the rewrite of a reset is served (R116). -/
def serveWaiting (s : State) : State :=
  let w := s.dfm.waiting
  let s := modDfm (fun d => { d with waiting := none }) s
  match w with
  | some (.loadDefects addr count) => takeLoadDefects addr.toNat count.toNat s
  | some .clearFound => takeClearFound s
  | _ => s

/-- The answer owed after the rewrite is given once the status block shows the even sequence, in piece 5 (R115, step 3; R119,
R120). -/
def payAnswer (s : State) : State :=
  match s.dfm.owed with
  | some a => answerAfter a 0 5 (modDfm (fun d => { d with owed := none }) s)
  | none => s

/-- A calibration readout that waited for the rewrite goes on to its end (R126). -/
def endCalibration (s : State) : State :=
  match s.pce.readout with
  | some r => if r.ending.isSome then leaveReadout r s else s
  | none => s

/-- The rewrite is done and the map sequence becomes even (R115). DESIGN CHOICE (log 64): a request that waited for it is
served before a calibration readout that waited for it ends. -/
def rewriteDone (s : State) : State :=
  if rewriteWritten s then
    endCalibration (serveWaiting (payAnswer
      (modDfm (fun d => { d with rewrite := none, sequence := wrapSucc d.sequence }) s)))
  else s

/-- DEFECT_MIRROR_REWRITE_DONE (R115). -/
def execDefectMirrorRewriteDone (s : State) : Host.Outcome State Fault Refusal := event s rewriteDone

end Sys2Proof.Machine
end

