-- ==== Sys2Proof/Machine/CardRequests.lean ====
section
/-! DEFINITION. The requests of the Card Engine: READ_CARD, FORMAT_CARD, RESET_CARD (R169, R191, R194). -/

namespace Sys2Proof.Machine

/-! ### READ_CARD (R191) -/

def judgeReadCard (block count dest : BitVec 32) (tag : BitVec 16) (s : State) : State :=
  if !destinationOk s.stb count.toNat dest.toNat then reply .badRequest s
  else if ¬ (s.cde.state = .ready ∨ s.cde.state = .writing ∨ s.cde.state = .reading) then reply .cardNotReady s
  else if capacityOf s < block.toNat + count.toNat then reply .badRequest s
  else if 4 ≤ s.cde.reads.length then reply .busy s
  else
    let r : CardRead := { block := block.toNat, count := count.toNat, dest := dest.toNat, tag := tag.toNat }
    answer { code := .started, result := le 1 s.cde.reads.length }
      (modCde (fun c => { c with reads := c.reads ++ [r] }) s)

/-- READ_CARD (R191). -/
def execReadCard (block count dest : BitVec 32) (tag : BitVec 16) (s : State) : Host.Outcome State Fault Refusal :=
  event s (serve (.readCard block count dest tag) (judgeReadCard block count dest tag))

/-! ### FORMAT_CARD (R194) -/

/-- The geometry a format writes (R194). -/
def formatGeometry (c : Cde) : Geometry :=
  { nextFree := 1, count := 0, highest := 0, formatId := match c.geometry with
    | some g => wrapSucc g.formatId
    | none => 1 }

def startFormat (s : State) : State :=
  startRun .format true 0 1 (modCde (fun c => { c with state := .writing, format := some (formatGeometry c) }) s)

def judgeFormat (s : State) : State :=
  if !s.cde.detected then reply .cardAbsent s
  else match s.cde.state with
    | .writing | .reading | .mounting => reply .busy s
    | .ready | .unformatted => reply .started (startFormat s)
    | .absent | .discharging | .powering | .identifying | .parked | .fault => reply .cardNotReady s

/-- FORMAT_CARD (R194). -/
def execFormatCard (s : State) : Host.Outcome State Fault Refusal := event s (serve .formatCard judgeFormat)

/-! ### RESET_CARD (R169) -/

/-- Whether RESET_CARD is refused BUSY. -/
def resetBusy (s : State) : Bool :=
  match s.cde.state with
  | .writing | .reading | .mounting | .parked => true
  | .discharging => s.cde.dischargeFor == .park || !s.cde.reads.isEmpty
  | .absent | .powering | .identifying | .ready | .unformatted | .fault => !s.cde.reads.isEmpty

/-- The engine leaves FAULT for a power-up; a discharge that still runs comes first (R169). -/
def leaveFault (s : State) : State :=
  if s.cde.discharge then modCde (fun c => { c with state := .discharging, dischargeFor := .powerUp }) s else startPowerUp s

/-- The power cycle of RESET_CARD, by the card state (R169). DESIGN CHOICE (log 53): in IDENTIFYING it takes the place of a
park that waits for the IDENT in progress. -/
def resetCycle (s : State) : State :=
  match s.cde.state with
  | .identifying =>
    if s.cde.ident = some .sent then modCde (fun c => { c with identDrop := some .reset }) s else powerDownTo .powerUp s
  | .ready | .unformatted => powerDownTo .powerUp s
  | .powering => if s.cde.pwrEn then powerDownTo .powerUp s else s
  | .fault => leaveFault s
  | .absent | .discharging | .mounting | .writing | .reading | .parked => s

def judgeResetCard (s : State) : State :=
  if !s.cde.detected then reply .cardAbsent s
  else if resetBusy s then reply .busy s
  else reply .started (resetCycle (modCde (fun c => { c with capacity := none, geometry := none, parkOwed := false }) s))

/-- RESET_CARD (R169). -/
def execResetCard (s : State) : Host.Outcome State Fault Refusal := event s (serve .resetCard judgeResetCard)

end Sys2Proof.Machine
end

