-- ==== Sys2Proof/Machine/ControlRequests.lean ====
section
/-! DEFINITION. The requests of the Frame Memory Controller, the Analog Monitor, the Request Engine and the Host Memory
Port: CLEAR_ERRLOG, INJECT_CHECK, SET_MONITOR, SET_EVENTS, STANDBY. -/

namespace Sys2Proof.Machine

/-! ### CLEAR_ERRLOG (R138) -/

def Fmc.clearLog (f : Fmc) : Fmc :=
  { f with errlog := [], overflow := 0, corrGeneral := 0, corrFrame := 0, corrControl := 0, uncorrectable := 0 }

/-- Every position of the error log mirror is written empty (R138). DESIGN CHOICE (log 65): one write for each, in ascending
order, before that of the header. -/
def emptyErrorMirror (q : Rqe) : Rqe := { q with jobs := q.jobs ++ (List.range 16).map fun k => .errorEntry k none }

/-- The log and its counters are emptied; the completion follows the writes of the mirror and of piece 4 (R138). -/
def judgeClearErrlog (s : State) : State :=
  let s := mirrorErrorHeader { s with fmc := s.fmc.clearLog, rqe := emptyErrorMirror s.rqe }
  answerAfter { code := .done } s.rqe.jobs.length 4 s

/-- CLEAR_ERRLOG (R138). -/
def execClearErrlog (s : State) : Host.Outcome State Fault Refusal := event s (serve .clearErrlog judgeClearErrlog)

/-! ### INJECT_CHECK (R140) -/

/-- The injection a request arms, none for a mask of 0 (R140). -/
def injectionOf (addr : BitVec 32) (mask : BitVec 8) : Option (Nat × BitVec 8) :=
  if mask = 0 then none else some (codewordOf addr.toNat, mask)

def judgeInjectCheck (addr : BitVec 32) (mask : BitVec 8) (s : State) : State :=
  if Config.dramTop ≤ addr.toNat then reply .badRequest s
  else
    answer { code := .done, result := le 4 (natOr0 ((injectionOf addr mask).map (·.1))) ++ le 1 mask.toNat }
      { s with fmc := { s.fmc with injection := injectionOf addr mask } }

/-- INJECT_CHECK (R140). -/
def execInjectCheck (addr : BitVec 32) (mask : BitVec 8) (s : State) : Host.Outcome State Fault Refusal :=
  event s (serve (.injectCheck addr mask) (judgeInjectCheck addr mask))

/-! ### SET_MONITOR (R151, R152) -/

/-- An accepted request has the status block written (R152). DESIGN CHOICE (log 56): a BATT level that it sets to NORMAL is
no evaluation, and the Card Engine is not told of it. -/
def judgeSetMonitor (m : MonitorArgs) (s : State) : State :=
  let b := s.amn.base.apply m
  if monitorRefused m b then reply .badRequest s
  else answer { code := .done, result := monitorResult b } (mark 3 { s with amn := s.amn.accept m b })

/-- SET_MONITOR (R151, R152). -/
def execSetMonitor (m : MonitorArgs) (s : State) : Host.Outcome State Fault Refusal :=
  event s (serve (.setMonitor m) (judgeSetMonitor m))

/-! ### SET_EVENTS (R204) -/

def judgeSetEvents (enables : BitVec 32) (s : State) : State :=
  answer { code := .done, result := le 4 (flagBits enables).toNat }
    { s with rqe := (s.rqe.setEnables (flagBits enables)).mark 0 }

/-- SET_EVENTS (R204). -/
def execSetEvents (enables : BitVec 32) (s : State) : Host.Outcome State Fault Refusal :=
  event s (serve (.setEvents enables) (judgeSetEvents enables))

/-! ### STANDBY (R66) -/

/-- Whether STANDBY is refused BUSY (R66). -/
def standbyBusy (s : State) : Bool :=
  s.stb.records.any (fun r => !r.phase.final) || !(cardReads s).isEmpty || s.cde.state == .writing

/-- The standby entry begins: the path is ENTERING and the card is parked (R66, step 1). -/
def beginEntering (s : State) : State :=
  park { s with hmp := { s.hmp with path := .entering, sleepAsked := false } }

/-- STANDBY is accepted: the entry begins once the completion and the advanced head are written, or at once for a request
without a ring entry (log 3). -/
def acceptStandby (s : State) : State :=
  let s := reply .done { s with hmp := { s.hmp with sleepAsked := true } }
  if s.rqe.service.isNone then beginEntering s else s

def judgeStandby (s : State) : State := if standbyBusy s then reply .busy s else acceptStandby s

/-- STANDBY (R66). -/
def execStandby (s : State) : Host.Outcome State Fault Refusal := event s (serve .standby judgeStandby)

end Sys2Proof.Machine
end

