-- ==== Sys2Proof/Machine/RequestEngine.lean ====
section
/-! DEFINITION. The Request Engine's own commands (R196 to R202): watched words, dispatch, completions, status pieces. -/

namespace Sys2Proof.Machine

def modRqe (f : Rqe → Rqe) (s : State) : State := { s with rqe := f s.rqe }

/-! ### Watched words (R61, R196, R202) -/

/-- The RQE acts on an observed word: the oldest observation, which must be this one, or, with none outstanding, a value
its sender gives directly (log 16). -/
def observe (o : Observed) (f : State → State) (s : State) : State :=
  match s.rqe.observed with
  | [] => f s
  | x :: rest => if x = o then f (modRqe (fun q => { q with observed := rest }) s) else s

/-- A tail value: 0..31 becomes the cached tail, any other is a ring fault (R196). -/
def takeTail (v : Nat) (s : State) : State :=
  if v < 32 then modRqe (fun q => { q with tail := v }) s
  else raise .ringFault (modRqe (fun q => { q with ringFaults := satAdd max32 q.ringFaults 1 }) s)

/-- REQUEST_TAIL_WORD_WRITE (R196). -/
def execRequestTailWordWrite (v : BitVec 32) (s : State) : Host.Outcome State Fault Refusal :=
  event s (observe (.tail v.toNat) (takeTail v.toNat))

/-- EVENT_CLEAR_WORD_WRITE (R202). -/
def execEventClearWordWrite (v : BitVec 32) (s : State) : Host.Outcome State Fault Refusal :=
  event s (observe (.clear v.toNat) (modRqe fun q => q.clear (flagBits v)))

/-! ### Dispatch (R197) -/

def readEntry (o n : Nat) (s : State) : State :=
  present { kind := .entryRead, addr := entryAddr s.rqe.head + o, len := n } s

/-- The entry at the head is taken and its reading begins (R197). -/
def takeEntry (s : State) : State :=
  readEntry 0 64 (modRqe (fun q => { q with service := some { index := some q.head, tag := 0, stage := .reading [] false } }) s)

/-- A read of the entry has completed: the second follows the first (R197). -/
def entryArrived (r : ReadResultBytes) (s : State) : State :=
  match s.rqe.service with
  | none => s
  | some v =>
    match v.stage with
    | .reading bytes bad =>
      let all := bytes ++ r.bytes
      let s := modRqe (fun q => { q with service := some { v with stage := .reading all (bad || r.bad) } }) s
      if all.length < 96 then readEntry all.length 32 s else s
    | .handed _ | .answering .. | .answered _ => s

/-- The entry that has been read is judged (R197). -/
def judgeRequest (v : Service) (bytes : List Byte) (bad : Bool) (s : State) : State :=
  let put (st : Stage) (s : State) : State :=
    modRqe (fun q => { q with service := some { v with tag := field bytes 2 2, stage := st } }) s
  if bad then reply .memError (put (.reading bytes bad) s)
  else match requestOf bytes with
    | some q => put (.handed q) s
    | none => reply .badRequest (put (.reading bytes bad) s)

/-- The RQE takes the entry at the head, or judges the one that has been read (R197). -/
def dispatch (s : State) : State :=
  match s.rqe.service with
  | none => if serving s ∧ s.rqe.head ≠ s.rqe.tail then takeEntry s else s
  | some v =>
    match v.stage with
    | .reading bytes bad => if bytes.length < 96 then s else judgeRequest v bytes bad s
    | .handed _ | .answering .. | .answered _ => s

/-- REQUEST_DISPATCH (R197). -/
def execRequestDispatch (s : State) : Host.Outcome State Fault Refusal := event s dispatch

/-! ### Completions and pieces (R198, R200, R201) -/

/-- The port is free again. -/
def freePort (s : State) : State := { s with fmc := { s.fmc with active := none } }

/-- The kind of the access in progress. -/
def activeKind (s : State) : Option TxnKind := s.fmc.active.map (·.kind)

/-- The completion has been written: the head advances and the request leaves service (R198). DESIGN CHOICE (log 57): a
cached tail that stands at the entry just served goes on with the head, which never passes it (R196). -/
def advanceHead (q : Rqe) : Rqe :=
  { q with head := (q.head + 1) % 32, tail := if q.tail = q.head then (q.head + 1) % 32 else q.tail,
           completionNo := wrapSucc q.completionNo, service := none }

def completionWritten (s : State) : State :=
  if activeKind s = some .completionWrite then
    let s := modRqe advanceHead (freePort s)
    if s.hmp.sleepAsked then beginEntering s else s
  else s

/-- COMPLETION_WRITE_DONE (R198). -/
def execCompletionWriteDone (s : State) : Host.Outcome State Fault Refusal := event s completionWritten

/-- The address of a status piece. -/
def pieceAddr (k : Nat) : Nat := Config.statusBase + 64 * k

/-- The oldest marked piece is presented as one transaction, unless one is outstanding (R200). -/
def presentPiece (s : State) : State :=
  match s.rqe.marked with
  | [] => s
  | k :: _ =>
    if portOpen s ∧ ¬ s.fmc.has TxnKind.isPiece then present { kind := .pieceWrite k, addr := pieceAddr k, len := 64 } s
    else s

/-- STATUS_PIECE_WRITE (R200). -/
def execStatusPieceWrite (s : State) : Host.Outcome State Fault Refusal := event s presentPiece

/-- The write of piece 0 sets the flags it carried; that of a piece of content is what owners and an answer may have
waited for (R115, R138, R201). -/
def pieceDone (k : Nat) (q : Rqe) : Rqe := if k = 0 then q.setCarried else q.mapHolds Hold.pieceDone

/-- A piece write has completed (R200, R201). -/
def pieceWritten (s : State) : State :=
  match activeKind s with
  | some (.pieceWrite k) => payReply (modRqe (pieceDone k) (freePort s))
  | _ => s

/-- STATUS_PIECE_WRITE_DONE (R201). -/
def execStatusPieceWriteDone (s : State) : Host.Outcome State Fault Refusal := event s pieceWritten

end Sys2Proof.Machine
end

