-- ==== Sys2Proof/WellFormed.lean ====
section
/-! DEFINITION. The commands a bus of the part can carry. Every other operand is bounded by its type. -/

namespace Sys2Proof

/-- A burst has 1..8 beats (R53). -/
def HostBurst.wf : HostBurst → Bool
  | .read _ count => decide (1 ≤ count ∧ count ≤ 8)
  | .write _ beats => decide (1 ≤ beats.length ∧ beats.length ≤ 8)

/-- A card block is 512 bytes (09 section 9.5). -/
def blockWf (data : List Byte) : Bool := decide (data.length = 512)

/-- The commands that can be presented to the part. -/
def Instr.wf : Instr → Bool
  | .hostBurst b => b.wf
  | .cardBlockReceived data _ => blockWf data
  | _ => true

end Sys2Proof
end

