-- ==== Sys2Proof/Machine/Arbiter.lean ====
section
/-! DEFINITION. The host bus, the arbiter, the reads' completions and the scrubber (chapters 3 and 7). -/

namespace Sys2Proof.Machine

/-! ### Host bursts and delivery (R53, R56, R58, R64, R67, R68) -/

def holdBurst (b : HostBurst) (s : State) : State := { s with hmp := { s.hmp with waiting := s.hmp.waiting ++ [b] } }

/-- A burst in its address phase: served in RUN and ENTERING, held otherwise; in STANDBY it wakes the part. -/
def presentBurst (b : HostBurst) (s : State) : State :=
  match s.hmp.path with
  | .run | .entering => offerBurst b s
  | .filling | .waking => holdBurst b s
  | .standby => wake .hostAccess (holdBurst b s)

/-- HOST_BURST (R53). -/
def execHostBurst (b : HostBurst) (s : State) : Host.Outcome State Fault Refusal :=
  if b.wf then event s (presentBurst b) else .fault .illFormed

/-- WRITE_BURST_DELIVERY (R56). -/
def execWriteBurstDelivery (s : State) : Host.Outcome State Fault Refusal :=
  event s fun s => if portOpen s then deliverHead s else s

/-- The readout idle timer runs out (R107). -/
def idleExpired (s : State) : State :=
  match s.pce.readout with
  | some r => if s.pce.idle.isSome ∧ r.ending = none ∧ ¬ captureHeld s then endReadout true r s else s
  | none => s

/-- READOUT_IDLE_EXPIRY (R107). -/
def execReadoutIdleExpiry (s : State) : Host.Outcome State Fault Refusal := event s idleExpired

/-! ### The arbiter (R62, R63) -/

def PassOver.get (p : PassOver) : Source → Nat
  | .host => 0
  | .rqe => p.rqe
  | .cde => p.cde
  | .scrubber => p.scrubber
  | .prs => p.prs
  | .dfm => p.dfm

/-- The part sources in round-robin order, from one of them on. -/
def partOrder : Source → List Source
  | .host | .rqe => [.rqe, .cde, .scrubber, .prs, .dfm]
  | .cde => [.cde, .scrubber, .prs, .dfm, .rqe]
  | .scrubber => [.scrubber, .prs, .dfm, .rqe, .cde]
  | .prs => [.prs, .dfm, .rqe, .cde, .scrubber]
  | .dfm => [.dfm, .rqe, .cde, .scrubber, .prs]

def Source.next : Source → Source
  | .host | .dfm => .rqe
  | .rqe => .cde
  | .cde => .scrubber
  | .scrubber => .prs
  | .prs => .dfm

/-- The oldest unbarred transaction of a source. -/
def firstOf (src : Source) (ts : List Txn) : Option Txn := ts.find? fun t => t.kind.source == src

def TxnKind.isHostRead : TxnKind → Bool
  | .hostRead _ => true
  | _ => false

/-- The host side's transaction: a read, else a pass-through write, else a developed write (R62). DESIGN CHOICE (log 62): of
several reads the one that arrived first. -/
def hostTxn (ts : List Txn) : Option Txn :=
  (ts.find? fun t => t.kind.isHostRead).or
    ((ts.find? fun t => t.kind == .hostWrite).or (ts.find? fun t => t.kind == .captureWrite))

/-- The transaction granted, of those not barred (R62, steps 1 to 3). -/
def choose (p : PassOver) (nextPart : Source) (ts : List Txn) : Option Txn :=
  let order := partOrder nextPart
  (order.findSome? fun src => if p.get src = 16 then firstOf src ts else none).or
    ((hostTxn ts).or (order.findSome? fun src => firstOf src ts))

/-- A part source's count after a host grant: up by one with an unbarred transaction, 0 with none at all. -/
def overCount (ready waiting : List Txn) (src : Source) (n : Nat) : Nat :=
  if (firstOf src waiting).isNone then 0 else if (firstOf src ready).isSome then min 16 (n + 1) else n

def PassOver.hostGrant (p : PassOver) (ready waiting : List Txn) : PassOver :=
  { rqe := overCount ready waiting .rqe p.rqe, cde := overCount ready waiting .cde p.cde,
    scrubber := overCount ready waiting .scrubber p.scrubber, prs := overCount ready waiting .prs p.prs,
    dfm := overCount ready waiting .dfm p.dfm }

/-- The arbiter's counts after a grant (R62). -/
def Fmc.counted (f : Fmc) (t : Txn) (ready : List Txn) : Fmc :=
  if t.kind.source = .host then { f with passOver := f.passOver.hostGrant ready f.pending }
  else { f with passOver := {}, nextPart := t.kind.source.next }

/-! ### What a grant does -/

def occupyPort (t : Txn) (s : State) : State := { s with fmc := { s.fmc with active := some t } }

/-- The part of a mirror job that has been written is done with; with its last part there is one write fewer to wait
for. -/
def mirrorWritten (q : Rqe) : Rqe :=
  match q.jobs with
  | .shotEntry e content u k :: rest =>
    if k < 3 then { q with jobs := .shotEntry e content u (k + 1) :: rest }
    else { q with jobs := rest }.mapHolds Hold.jobDone
  | .errorEntry _ _ :: rest => { q with jobs := rest }.mapHolds Hold.jobDone
  | .errorHeader _ _ _ :: rest => { q with jobs := rest }.mapHolds Hold.jobDone
  | [] => q

/-- A piece is written as the image stands; a change made after that marks it again (R200, R201). -/
def pieceGranted (k : Nat) (q : Rqe) : Rqe :=
  let q := { q with marked := q.marked.filter (· != k) }
  if k = 0 then { q with carried := q.made } else q.mapHolds (Hold.pieceGranted k)

/-- The completion of the request in service (R198). -/
def completionOf (q : Rqe) : List Byte :=
  match q.service with
  | some { index := some k, tag := tag, stage := .answered a } => completionBytes tag k (wrapSucc q.completionNo) a
  | _ => []

/-- Positions of the map mirror have been written (R115). -/
def Dfm.written (d : Dfm) (k n : Nat) : Dfm :=
  { d with rewrite := d.rewrite.map fun r => if r.next = k then { r with next := k + n } else r }

/-- Writes the map mirror as the map stands. -/
def writeMap (t : Txn) (s : State) : State :=
  let k := (t.addr - Config.mapMirror) / 8
  let n := t.len / 8
  let s := writeRecord t.addr (s.dfm.mirrorBytes k n) s
  { s with dfm := s.dfm.written k n }

/-- A scrub rewrite is made unless its watch is marked; the watch and the step end (R144). -/
def scrubWrite (addr : Nat) (d : BitVec 64) (s : State) : State :=
  let marked := s.fmc.scrub.any fun st => st.watch == some true
  let s := if marked then s else storeWord addr d (checkBits d) s
  { s with fmc := { s.fmc with scrub := none } }

/-- What the granted transaction does: reads and the writes whose end is a command of its own hold the port, every other
write is complete (log 8). -/
def grantEffect (t : Txn) (s : State) : State :=
  match t.kind with
  | .hostRead _ | .entryRead | .slotRead | .lostRead | .scrubRead | .imageRead | .listRead => occupyPort t s
  | .hostWrite => passWritten t.parity t.bytes (writeBytes .hostRmw t.parity t.bytes t.codewords s)
  | .captureWrite => writeBytes .captureRmw t.parity t.bytes t.codewords s
  | .cardWrite => writeBytes .cardReadMerge false t.bytes t.codewords s
  | .completionWrite => occupyPort t (writeRecord t.addr (completionOf s.rqe) s)
  | .pieceWrite k => occupyPort t (modRqe (pieceGranted k) (writeRecord t.addr (statusPiece k s) s))
  | .mirrorWrite => payReply (modRqe mirrorWritten (writeBytes .hostRmw false t.bytes t.codewords s))
  | .mapWrite => writeMap t s
  | .scrubRewrite d => scrubWrite t.addr d s

/-- A grant of the DRAM port (R62): one transaction at a time. -/
def grant (s : State) : State :=
  if s.fmc.active.isSome ∨ ¬ portOpen s then s
  else
    let ready := readyTxns [] s.fmc.pending
    match choose s.fmc.passOver s.fmc.nextPart ready with
    | none => s
    | some t =>
      let f := s.fmc.counted t ready
      grantEffect t { s with fmc := { f with pending := f.pending.erase t } }

/-- DRAM_GRANT (R62). -/
def execDramGrant (s : State) : Host.Outcome State Fault Refusal := event s grant

/-! ### Host reads (R53, R54, R55, R132) -/

/-- A bus word with its parity. -/
def busBeat (w : BitVec 32) : BitVec 32 × BitVec 4 := (w, parityBits w)

/-- The beats of a read: words of the bytes read, zeros beyond them (R55). -/
def readBeats (bytes : List Byte) (count : Nat) : List (BitVec 32 × BitVec 4) :=
  (List.range count).map fun k => busBeat (wordOf ((bytes.drop (4 * k)).take 4))

/-- The host read in progress completes. -/
def hostReadDone (s : State) : State :=
  match s.fmc.active with
  | none => s
  | some t =>
    match t.kind with
    | .hostRead count =>
      let (r, s) := readRange .hostRead t.addr t.len (freePort s)
      respond { write := false, error := r.bad || decide (t.len < 4 * count), beats := readBeats r.bytes count } s
    | _ => s

/-- HOST_READ_COMPLETE (R132). -/
def execHostReadComplete (s : State) : Host.Outcome State Fault Refusal := event s hostReadDone

/-! ### Part reads (R133) -/

/-- The CDE takes the bytes of a slot read, as read (R133, R185, R186). -/
def slotArrived (r : ReadResultBytes) (s : State) : State :=
  if s.cde.container.any fun c => c.stage == .summing then sumTake r.bytes s
  else if s.cde.run.any fun v => v.stage == .fetching then
    fetchNext (modCde (fun c => { c with block := c.block ++ r.bytes }) s)
  else s

/-- The part read in progress completes and its source acts on it (R133). -/
def partReadDone (s : State) : State :=
  match s.fmc.active with
  | none => s
  | some t =>
    match t.kind with
    | .entryRead => let (r, s) := readRange .request t.addr t.len (freePort s); entryArrived r s
    | .imageRead => let (r, s) := readRange .request t.addr t.len (freePort s); imageArrived r s
    | .listRead => let (r, s) := readRange .request t.addr t.len (freePort s); listArrived r s
    | .slotRead => let (r, s) := readRange .drain t.addr t.len (freePort s); slotArrived r s
    | .lostRead => (readRange .drain t.addr t.len (freePort s)).2
    | _ => s

/-- PART_READ_COMPLETE (R133). -/
def execPartReadComplete (s : State) : Host.Outcome State Fault Refusal := event s partReadDone

/-! ### The scrubber (R142 to R145) -/

/-- Whether an address lies in the slot in READOUT. -/
def Stb.inReadout (t : Stb) (a : Nat) : Bool := t.stateAt a == some .readout

/-- The codeword the walk takes next (R142). -/
def walkNext (s : State) : Nat :=
  match s.stb.slotAt s.fmc.scrubPos with
  | some i => if s.stb.slotState i = .readout then s.stb.slotBase (i + 1) else s.fmc.scrubPos
  | none => s.fmc.scrubPos

/-- A scrub step begins with the read of its codeword. -/
def beginStep (addr : Nat) (queued : Bool) (s : State) : State :=
  present { kind := .scrubRead, addr := addr, len := 8 }
    { s with fmc := { s.fmc with scrub := some { addr := addr, queued := queued, watch := none }
                                 scrubPos := if queued then s.fmc.scrubPos else addr } }

def restartPace (s : State) : State := { s with fmc := { s.fmc with pace := Config.scrubPace } }

/-- The pace timer runs out (R142). -/
def paceExpired (s : State) : State :=
  let s := restartPace s
  if s.fmc.scrub.isSome ∨ s.exs.quietReq ∨ s.hmp.path ≠ .run then s
  else match s.fmc.corrected.find? fun a => !s.stb.inReadout a with
    | some a => beginStep a true s
    | none => beginStep (walkNext s) false s

/-- SCRUB_PACE_EXPIRY (R142). -/
def execScrubPaceExpiry (s : State) : Host.Outcome State Fault Refusal := event s paceExpired

/-- The walk advances past a codeword; a pass is complete at its wrap (R142). -/
def Fmc.advanceWalk (f : Fmc) (addr : Nat) : Fmc :=
  if addr + 8 < Config.dramTop then { f with scrubPos := addr + 8 } else { f with scrubPos := 0, passes := wrapSucc f.passes }

/-- The read of a step leaves the queue or advances the walk. -/
def Fmc.stepRead (f : Fmc) (st : ScrubStep) : Fmc :=
  if st.queued then { f with corrected := f.corrected.filter (· != st.addr) } else f.advanceWalk st.addr

def endStep (s : State) : State := { s with fmc := { s.fmc with scrub := none } }

/-- A correctable codeword: a watch starts and the rewrite arrives at the arbiter (R144). -/
def callRewrite (st : ScrubStep) (d : BitVec 64) (s : State) : State :=
  present { kind := .scrubRewrite d, addr := st.addr, len := 8 }
    { s with fmc := { s.fmc with scrub := some { st with watch := some false } } }

/-- The scrub read is classed (R143, R144). -/
def scrubRead (st : ScrubStep) (s : State) : State :=
  let c := s.mem.check? st.addr
  let s := { s with fmc := s.fmc.stepRead st }
  match c.cls with
  | .clean => endStep s
  | .correctable => callRewrite st c.data (if st.queued then s else report .scrub st.addr c s)
  | .poisoned => endStep (report .scrub st.addr c s)
  | .uncorrectable => endStep (report .scrub st.addr c s)

/-- The scrub read in progress completes. -/
def scrubReadDone (s : State) : State :=
  match s.fmc.active, s.fmc.scrub with
  | some t, some st => if t.kind = .scrubRead then scrubRead st (freePort s) else s
  | _, _ => s

/-- SCRUB_READ_COMPLETE (R144). -/
def execScrubReadComplete (s : State) : Host.Outcome State Fault Refusal := event s scrubReadDone

end Sys2Proof.Machine
end

