-- ==== Sys2Proof/Machine/Sequencer.lean ====
section
/-! DEFINITION. The commands of the exposure (chapter 2). -/

namespace Sys2Proof.Machine

/-! ### Quiet handshake (R29, R30, R32) -/

/-- QUIET_ACK_RISE (R29, R30). -/
def execQuietAckRise (s : State) : Host.Outcome State Fault Refusal :=
  pinEvent s (fun p => { p with quietAck := true }) (whenIn .quieting enterFlush)

/-- QUIET_ACK_FALL (R32). -/
def execQuietAckFall (s : State) : Host.Outcome State Fault Refusal :=
  pinEvent s (fun p => { p with quietAck := false }) fun t =>
    if t.exs.quietReq ∧ s.pins.quietAck then setFlag (fun f => { f with quietBroken := true }) t else t

/-- QUIET_WAIT_EXPIRY (R29). -/
def execQuietWaitExpiry (s : State) : Host.Outcome State Fault Refusal := event s (whenIn .quieting quietMissed)

/-! ### Flush and settle (R33, R34) -/

/-- FLUSH_TIME_EXPIRY (R33). -/
def execFlushTimeExpiry (s : State) : Host.Outcome State Fault Refusal := event s (whenIn .flush endFlush)

/-- SETTLE_TIME_EXPIRY (R33, R34). -/
def execSettleTimeExpiry (s : State) : Host.Outcome State Fault Refusal := event s (whenIn .settle enterWaiting)

/-! ### The sync filter (R35 to R37) -/

/-- SYNC_CLOSURE_ACCEPTED (R35): a closure is accepted while the accepted state is OPEN. -/
def execSyncClosureAccepted (first : BitVec 32) (s : State) : Host.Outcome State Fault Refusal :=
  pinEvent s (fun p => { p with syncClosed := true }) fun t => if t.exs.sync.closed then t else takeClosure first.toNat t

/-- SYNC_RELEASE_ACCEPTED (R36): a release is accepted while the accepted state is CLOSED. -/
def execSyncReleaseAccepted (first : BitVec 32) (s : State) : Host.Outcome State Fault Refusal :=
  pinEvent s (fun p => { p with syncClosed := false }) fun t => if t.exs.sync.closed then takeRelease first.toNat t else t

def endRunOfSamples (s : State) : State := modExs (fun x => { x with sync := { x.sync with run := none } }) s

/-- SYNC_REJECTED_PULSE (R37): a closed run ends while the accepted state is OPEN. -/
def execSyncRejectedPulse (s : State) : Host.Outcome State Fault Refusal :=
  pinEvent s (fun p => { p with syncClosed := false }) fun t =>
    if t.exs.sync.closed then t else rejectedPulse (endRunOfSamples t)

/-! ### The timers of WAITING, OPEN and TAIL (R40 to R45) -/

/-- WAIT_LIMIT_EXPIRY (R45): the wait limit does not run in TIMED. -/
def execWaitLimitExpiry (s : State) : Host.Outcome State Fault Refusal :=
  event s (whenIn .waiting fun t => if shotMode t = some .timed then t else expireShot t)

/-- EXPOSURE_LIMIT_EXPIRY (R41). -/
def execExposureLimitExpiry (s : State) : Host.Outcome State Fault Refusal :=
  event s (whenIn .opened fun t => if shotMode t = some .span then limitReached t else t)

/-- WINDOW_END (R42). -/
def execWindowEnd (s : State) : Host.Outcome State Fault Refusal :=
  event s (whenIn .opened fun t => if shotMode t = some .window then windowReached t else t)

/-- TIMED_DURATION_EXPIRY (R43). -/
def execTimedDurationExpiry (s : State) : Host.Outcome State Fault Refusal :=
  event s (whenIn .waiting fun t => if shotMode t = some .timed then endIntegration .timed t else t)

/-- TAIL_TIME_EXPIRY (R40). -/
def execTailTimeExpiry (s : State) : Host.Outcome State Fault Refusal := event s (whenIn .tail windowReached)

/-- SNS_READ_PULSE_END (R24). -/
def execSnsReadPulseEnd (s : State) : Host.Outcome State Fault Refusal :=
  event s (modExs fun x => if x.pulse.isSome then { x with snsRead := false, pulse := none } else x)

end Sys2Proof.Machine
end

