-- ==== Sys2Proof/Machine/Analog.lean ====
section
/-! DEFINITION. The commands of the Analog Monitor (R148 to R156). -/

namespace Sys2Proof.Machine

def modAmn (f : Amn → Amn) (s : State) : State := { s with amn := f s.amn }

/-- SAMPLE_TIMER_EXPIRY (R148). -/
def execSampleTimerExpiry (s : State) : Host.Outcome State Fault Refusal := event s (modAmn Amn.sampleExpiry)

/-- CONVERSION_START (R148). -/
def execConversionStart (s : State) : Host.Outcome State Fault Refusal := event s (modAmn Amn.startNext)

/-- The answer of an on-demand TEMP conversion (R149, step 3). -/
def answerDemand (d : Option Demand) (v : Option Int) (s : State) : State :=
  match d with
  | some (.tempStart shot) => answerTempStart shot v s
  | some (.tempEnd shot) => answerTempEnd shot v s
  | some .card => s
  | none => s

/-- The alarm a channel's evaluation calls for (R155). -/
def alarm (c : Channel) (s : State) : State :=
  match c with
  | .temp => if s.amn.tempLevel = .normal then s else raise .tempAlarm s
  | .batt => if s.amn.battLevel = .normal then s else raise .batteryAlarm s
  | .card => s

/-- A conversion that stands: value, level, answer, watchers, alarm, in this order (R149, R156). -/
def standingResult (c : Conversion) (v : Int) (s : State) : State :=
  let before := s.amn.battLevel
  let s := modAmn (fun a => (a.storeValue c.channel v).evaluate c.channel v) s
  let s := if c.channel = .temp then warnRecord s else s
  let s := answerDemand c.demand (some v) s
  let s := if c.channel = .card then cardResult (some v) s else s
  let s := if c.channel = .batt then battChanged before s else s
  alarm c.channel s

/-- A conversion that does not stand: its requester gets no valid value (R149, R150). -/
def voidResult (c : Conversion) (s : State) : State :=
  let s := answerDemand c.demand none s
  if c.channel = .card then cardResult none s else s

/-- The conversion in progress completes (R149). -/
def conversionDone (code : Nat) (s : State) : State :=
  match s.amn.conv with
  | none => s
  | some c =>
    let v := s.amn.settings.value c.channel code
    modAmn Amn.finishConversion (if c.stands then standingResult c v s else voidResult c s)

/-- CONVERSION_COMPLETE (R149). -/
def execConversionComplete (code : BitVec 12) (s : State) : Host.Outcome State Fault Refusal :=
  event s (conversionDone code.toNat)

end Sys2Proof.Machine
end

