-- ==== Sys2Proof/Machine/CardBus.lean ====
section
/-! DEFINITION. The commands of the card: power, detection, bus and work (chapters 9 and 10). -/

namespace Sys2Proof.Machine

/-! ### Power and detection (R160 to R166) -/

/-- CARD_RAIL_POLL_TICK (R162, R164): a CARD conversion is asked for while the rail is discharged or ramped. -/
def execCardRailPollTick (s : State) : Host.Outcome State Fault Refusal :=
  event s fun s => if s.cde.discharge ∨ s.cde.rampTimer.isSome then ask .card s else s

/-- RAMP_TIMER_EXPIRY (R162). -/
def execRampTimerExpiry (s : State) : Host.Outcome State Fault Refusal := event s rampExpired

/-- DISCHARGE_TIMER_EXPIRY (R164). -/
def execDischargeTimerExpiry (s : State) : Host.Outcome State Fault Refusal := event s dischargeExpired

/-- The level at CARD_DET as it is seen: a change is a wake event (R68). -/
def seeDetect (level : Bool) (s : State) : State :=
  if s.cde.detLevel = level then s else wake .cardDetect (modCde (fun c => { c with detLevel := level }) s)

/-- CARD_INSERTION (R160). -/
def execCardInsertion (s : State) : Host.Outcome State Fault Refusal :=
  pinEvent s (fun p => { p with cardPresent := true }) fun t =>
    if t.cde.detected then t else insertCard (seeDetect true t)

/-- CARD_REMOVAL (R165). -/
def execCardRemoval (s : State) : Host.Outcome State Fault Refusal :=
  pinEvent s (fun p => { p with cardPresent := false }) fun t =>
    if t.cde.detected then removeCard (seeDetect false t) else t

/-- CARD_OVERCURRENT (R166). -/
def execCardOvercurrent (s : State) : Host.Outcome State Fault Refusal := event s overcurrent

/-! ### The bus (R163, R170 to R175) -/

/-- The CDE issues IDENT or the command of the run that waits, unless QUIET_REQ is asserted (R163, R172). -/
def issue (s : State) : State :=
  if s.exs.quietReq then s
  else if s.cde.ident = some .waiting then sendIdent s
  else if s.cde.run.any fun r => r.stage == .waiting then issueRun s
  else s

/-- CARD_RUN_ISSUE (R172). -/
def execCardRunIssue (s : State) : Host.Outcome State Fault Refusal := event s issue

/-- The capacity of a good IDENT response, of at least one block (R163). -/
def identCapacity (crcGood : Bool) (capacity : Nat) : Option Nat := if crcGood ∧ 0 < capacity then some capacity else none

/-- A response of IDENT arrives; one that answers no IDENT counts as a bad response (R163, R171). `crcGood` is the outcome of
the KB-180's check of the response's CRC-16: the spec lays out no response frame (log 59). -/
def identResponse (crcGood : Bool) (capacity : Nat) (s : State) : State :=
  if s.cde.ident = some .sent then identEnded (identCapacity crcGood capacity) s else responseArrived false s

/-- IDENT_RESPONSE (R163). -/
def execIdentResponse (crcGood : Bool) (capacity : BitVec 32) (s : State) : Host.Outcome State Fault Refusal :=
  event s (identResponse crcGood capacity.toNat)

/-- CARD_RESPONSE (R171). `good` says that the response's CRC-16 is right and that it answers the command (log 59). -/
def execCardResponse (good : Bool) (s : State) : Host.Outcome State Fault Refusal := event s (responseArrived good)

/-- CARD_BLOCK_RECEIVED (R172). -/
def execCardBlockReceived (data : List Byte) (crc : BitVec 16) (s : State) : Host.Outcome State Fault Refusal :=
  if blockWf data then event s (blockReceived data crc) else .fault .illFormed

/-- CARD_WRITE_TOKEN (R173). -/
def execCardWriteToken (t : WriteToken) (s : State) : Host.Outcome State Fault Refusal := event s (takeToken t)

/-- CARD_BUSY_RELEASE (R173). -/
def execCardBusyRelease (s : State) : Host.Outcome State Fault Refusal := event s busyReleased

/-- RESPONSE_TIMEOUT (R171). -/
def execResponseTimeout (s : State) : Host.Outcome State Fault Refusal := event s responseFailed

/-- The card holds busy past its timeout (R171, R175). -/
def busyExpired (s : State) : State :=
  match s.cde.run with
  | some r => if r.stage = .busy then runTimeout r s else s
  | none => s

/-- BUSY_TIMEOUT (R171). -/
def execBusyTimeout (s : State) : Host.Outcome State Fault Refusal := event s busyExpired

/-! ### Work (R183, R193) -/

/-- A READY card chooses its next work (R183). -/
def nextWork (s : State) : State :=
  if s.cde.state ≠ .ready ∨ s.exs.quietReq then s
  else match s.cde.reads with
    | r :: rest => serveRead r rest s
    | [] =>
      if s.amn.battLevel = .critical then s
      else match s.stb.oldestHeld with
        | some r => tryDrain r s
        | none => s

/-- CARD_NEXT_WORK (R183). -/
def execCardNextWork (s : State) : Host.Outcome State Fault Refusal := event s nextWork

/-- CARD_READ_RESULT_WRITE (R193). -/
def execCardReadResultWrite (s : State) : Host.Outcome State Fault Refusal :=
  event s fun s => if cardWritesLeft s then s else writeResult s

end Sys2Proof.Machine
end

