-- ==== Sys2Proof/Machine/Power.lean ====
section
/-! DEFINITION. Standby, power and reset (R64 to R69), and the idle step: one 10 us period of the part's clock. -/

namespace Sys2Proof.Machine

/-! ### Writing the status block and the mirrors at once (R64 to R68) -/

/-- A piece is written from its grant to its end: a piece of content that the write itself changed, by consuming an
injection (R140), is marked again, and the owners that waited for the write raise their flags (R200, R201). -/
def writePiece (k : Nat) (s : State) : State :=
  let w := modRqe (pieceGranted k) (writeRecord (pieceAddr k) (statusPiece k s) s)
  { w with rqe := (pieceDone k (markChanges s w [1, 2, 3, 4, 5, 6] w.rqe)).makeRaises }

def writePieces : List Nat → State → State
  | [], s => s
  | k :: ks, s => writePieces ks (writePiece k s)

/-- Every marked piece is written, in the order in which they were first marked (R200); and those that these writes marked
again, piece 0 for the flags that owners raised after them (R201), are written after them (DESIGN CHOICE, log 67). -/
def writeStatus (s : State) : State :=
  let w := writePieces s.rqe.marked s
  writePieces w.rqe.marked w

/-- An event whose status block write is part of it: the changes `f`, the write, then `g`. -/
def writtenEvent (s : State) (f g : State → State) : State :=
  let t := f s
  let w := writeStatus { t with rqe := settleRqe s t }
  finish w (g w)

/-- Every byte of a range becomes zero with the check bits of zero. -/
def Memory.clear (m : Memory) (lo hi : Nat) : Memory :=
  let keep := fun c : Host.Cell => !decide (lo ≤ c.1 ∧ c.1 < hi)
  { data := m.data.filter keep, check := m.check.filter keep }

/-- An empty shot table mirror entry with update number 1: only its two update fields are not zero (R206). -/
def writeEmptyEntry (e : Nat) (s : State) : State :=
  let a := Config.shotMirror + 256 * e
  writeRecord (a + 248) ((mirrorEntry 1 none).drop 248) (writeRecord a ((mirrorEntry 1 none).take 8) s)

def writeEmptyEntries : List Nat → State → State
  | [], s => s
  | e :: es, s => writeEmptyEntries es (writeEmptyEntry e s)

/-- The areas of the status block, the shot table mirror and the error log mirror become zero. -/
def clearAreas (s : State) : State :=
  { s with mem := ((s.mem.clear Config.statusBase (Config.statusBase + 0x1000)).clear Config.shotMirror
      (Config.shotMirror + 0x1000)).clear Config.errorMirror Config.errorMirrorEnd }

/-- The empty shot table mirror and the empty error log mirror are written (R22, R139, R200). -/
def emptyMirrors (s : State) : State :=
  writeRecord Config.errorMirror (errorHeaderBytes 1 0 0) (writeEmptyEntries (List.range 16) (clearAreas s))

/-- The update numbers of the empty mirrors, the rewrite of the empty map begun, and every piece owed, content first
(R116, R200, R206; log 67). -/
def markMirrors (s : State) : State :=
  { s with
    rqe := { s.rqe with updates := List.replicate 16 1, marked := pieceOrder }
    fmc := { s.fmc with logUpdate := 1 }
    dfm := s.dfm.beginRewrite 0 Config.mapLimit }

/-- The mirrors after a reset, before the status block is written (R22, R116, R139). -/
def writeMirrors (s : State) : State := markMirrors (emptyMirrors s)

/-- The part starts after a reset: mirrors, then the whole status block, then the first waiting burst (R64, R65). -/
def startUp (s : State) (f : State → State) : State := writtenEvent s (fun s => writeMirrors (f s)) admitWaiting

/-! ### Resets (R64, R65) -/

/-- POWER_ON_RESET (R64): the reset values; input levels and the queue of commands are not the part's. -/
def execPowerOnReset (s : State) : Host.Outcome State Fault Refusal :=
  .next { State.reset with pending := s.pending, pins := s.pins }

/-- The last fill codeword is written (R64). -/
def fillDone (s : State) : State :=
  if s.hmp.path = .filling then
    startUp s fun s => { s with mem := Memory.filled, fmc := { s.fmc with scrubPos := 0 }, hmp := { s.hmp with path := .run } }
  else s

/-- FILL_COMPLETE (R64). -/
def execFillComplete (s : State) : Host.Outcome State Fault Refusal := .next (if s.resetHeld then s else fillDone s)

/-- The state while RESET_N is asserted (R65): the reset values, but for DRAM, the scrub position and the completed
passes; a fill in progress will start again. -/
def pinReset (s : State) : State :=
  let filling := s.hmp.path == .filling
  { State.reset with
    pending := s.pending
    pins := s.pins
    resetHeld := true
    mem := s.mem
    hmp := { Hmp.reset with path := if filling then .filling else .run }
    fmc := { Fmc.reset with scrubPos := s.fmc.scrubPos, passes := s.fmc.passes }
    rqe := { Rqe.reset with resetCause := if filling then .powerOn else .pin } }

/-- PIN_RESET_ASSERT (R65). -/
def execPinResetAssert (s : State) : Host.Outcome State Fault Refusal := .next (pinReset s)

/-- RESET_N is released (R65). -/
def releaseReset (s : State) : State :=
  let s := { s with resetHeld := false }
  if s.hmp.path = .filling then s else startUp s id

/-- PIN_RESET_RELEASE (R65). -/
def execPinResetRelease (s : State) : Host.Outcome State Fault Refusal := .next (if s.resetHeld then releaseReset s else s)

/-! ### Standby (R66 to R69) -/

/-- Everything of the entry has been served: no burst, no transaction, no mirror write is left, and the monitor has
stopped (R66, step 4). -/
def drained (s : State) : Bool :=
  s.hmp.path == .entering && s.amn.stopped && s.hmp.queue.isEmpty && s.hmp.waiting.isEmpty && s.hmp.reads.isEmpty &&
    s.fmc.pending.isEmpty && s.fmc.active.isNone && s.rqe.jobs.isEmpty && s.dfm.rewrite.isNone

def enterStandby (s : State) : State :=
  if drained s then
    writtenEvent s (fun s => { s with hmp := { s.hmp with path := .standby } }) id
  else s

/-- STANDBY_ENTRY_DRAINED (R66). -/
def execStandbyEntryDrained (s : State) : Host.Outcome State Fault Refusal :=
  .next (if s.resetHeld then s else enterStandby s)

/-- CARD_DETECT_WAKE (R68): the level at CARD_DET changes. -/
def execCardDetectWake (s : State) : Host.Outcome State Fault Refusal :=
  pinEvent s (fun p => { p with cardPresent := !p.cardPresent }) fun t =>
    wake .cardDetect (modCde (fun c => { c with detLevel := t.pins.cardPresent }) t)

/-- The steps of the wake after the status block's write: held bursts, the monitor, the card (R68, steps 4 to 6). -/
def resumeWork (s : State) : State := mountAtWake (modAmn Amn.resume (admitWaiting s))

def finishWake (s : State) : State :=
  if s.hmp.path = .waking then
    writtenEvent s (fun s => { s with hmp := { s.hmp with path := .run } }) resumeWork
  else s

/-- WAKE_DRAM_READY (R68). -/
def execWakeDramReady (s : State) : Host.Outcome State Fault Refusal := .next (if s.resetHeld then s else finishWake s)

/-! ### The idle step (log 1) -/

/-- A timer runs down by one period; it does not run out by itself (log 2). -/
def runDown (t : Nat) : Nat := t - Config.samplePeriod

/-- The timers of the part after one period (R23, R24, R107, R142, R146, R148, R162, R164, R171). -/
def runTimers (s : State) : State :=
  { s with
    exs := { s.exs with timer := s.exs.timer.map runDown, pulse := s.exs.pulse.map runDown }
    amn := { s.amn with sampleTimer := if s.amn.stopped then s.amn.sampleTimer else runDown s.amn.sampleTimer
                        conv := s.amn.conv.map fun c => { c with left := runDown c.left } }
    cde := { s.cde with rampTimer := s.cde.rampTimer.map runDown, dischargeTimer := s.cde.dischargeTimer.map runDown
                        busTimer := s.cde.busTimer.map runDown }
    pce := { s.pce with idle := if captureHeld s then s.pce.idle else s.pce.idle.map runDown }
    fmc := { s.fmc with pace := runDown s.fmc.pace } }

/-- One sample at CARD_OC (R166). -/
def sampleOvercurrent (s : State) : State :=
  if !s.cde.pwrEn then s
  else if !s.pins.overcurrent then modCde (fun c => { c with ocCount := 0 }) s
  else if s.cde.ocCount = 0 then modCde (fun c => { c with ocCount := 1 }) s
  else overcurrent s

/-- One sample at CARD_DET (R160). -/
def sampleDetect (s : State) : State :=
  if s.pins.cardPresent then
    if s.cde.detected then s
    else if 49 ≤ s.cde.detCount then insertCard s
    else modCde (fun c => { c with detCount := c.detCount + 1 }) s
  else if s.cde.detected then removeCard s
  else modCde (fun c => { c with detCount := 0 }) s

/-- One 10 us period: the time base, the sync filter, the card's samples, the timers (R25, R35, R160, R166). DESIGN CHOICE
(log 61): in this order, so that a timer started by a sample of the period runs down by that period too. -/
def tick (s : State) : State :=
  let s := modExs (fun x => { x with timeBase := wrapSucc x.timeBase }) s
  let s := sampleSync s.pins.syncClosed s
  let s := seeDetect s.pins.cardPresent (sampleOvercurrent s)
  let s := if s.exs.timeBase % 100 = 0 then sampleDetect s else s
  runTimers s

/-- The idle step: nothing while RESET_N is asserted. -/
def idle (s : State) : Host.Outcome State Fault Refusal := event s tick

end Sys2Proof.Machine
end

