-- ==== Sys2Proof/Machine/Dispatch.lean ====
section
/-! DEFINITION. One arm per command: the meaning it calls. -/

namespace Sys2Proof.Machine

def exec (i : Instr) (s : State) : Host.Outcome State Fault Refusal :=
  match i with
  | .setSlots size => Sys2Proof.Machine.execSetSlots size s
  | .loadProfile id addr => Sys2Proof.Machine.execLoadProfile id addr s
  | .loadDefects addr count => Sys2Proof.Machine.execLoadDefects addr count s
  | .clearFound => Sys2Proof.Machine.execClearFound s
  | .arm profile mode keep darkCal debounce waitLimit duration timestamp => Sys2Proof.Machine.execArm profile mode keep darkCal debounce waitLimit duration timestamp s
  | .abort => Sys2Proof.Machine.execAbort s
  | .discard shot => Sys2Proof.Machine.execDiscard shot s
  | .release shot => Sys2Proof.Machine.execRelease shot s
  | .retire shot => Sys2Proof.Machine.execRetire shot s
  | .readCard block count dest tag => Sys2Proof.Machine.execReadCard block count dest tag s
  | .formatCard => Sys2Proof.Machine.execFormatCard s
  | .resetCard => Sys2Proof.Machine.execResetCard s
  | .clearErrlog => Sys2Proof.Machine.execClearErrlog s
  | .injectCheck addr mask => Sys2Proof.Machine.execInjectCheck addr mask s
  | .setMonitor args => Sys2Proof.Machine.execSetMonitor args s
  | .setEvents enables => Sys2Proof.Machine.execSetEvents enables s
  | .standby => Sys2Proof.Machine.execStandby s
  | .requestTailWordWrite value => Sys2Proof.Machine.execRequestTailWordWrite value s
  | .eventClearWordWrite value => Sys2Proof.Machine.execEventClearWordWrite value s
  | .requestDispatch => Sys2Proof.Machine.execRequestDispatch s
  | .completionWriteDone => Sys2Proof.Machine.execCompletionWriteDone s
  | .statusPieceWrite => Sys2Proof.Machine.execStatusPieceWrite s
  | .statusPieceWriteDone => Sys2Proof.Machine.execStatusPieceWriteDone s
  | .hostBurst burst => Sys2Proof.Machine.execHostBurst burst s
  | .writeBurstDelivery => Sys2Proof.Machine.execWriteBurstDelivery s
  | .readoutIdleExpiry => Sys2Proof.Machine.execReadoutIdleExpiry s
  | .dramGrant => Sys2Proof.Machine.execDramGrant s
  | .hostReadComplete => Sys2Proof.Machine.execHostReadComplete s
  | .partReadComplete => Sys2Proof.Machine.execPartReadComplete s
  | .profileImageJudged => Sys2Proof.Machine.execProfileImageJudged s
  | .defectListReplace => Sys2Proof.Machine.execDefectListReplace s
  | .defectMirrorRewriteDone => Sys2Proof.Machine.execDefectMirrorRewriteDone s
  | .scrubPaceExpiry => Sys2Proof.Machine.execScrubPaceExpiry s
  | .scrubReadComplete => Sys2Proof.Machine.execScrubReadComplete s
  | .quietAckRise => Sys2Proof.Machine.execQuietAckRise s
  | .quietAckFall => Sys2Proof.Machine.execQuietAckFall s
  | .quietWaitExpiry => Sys2Proof.Machine.execQuietWaitExpiry s
  | .flushTimeExpiry => Sys2Proof.Machine.execFlushTimeExpiry s
  | .settleTimeExpiry => Sys2Proof.Machine.execSettleTimeExpiry s
  | .syncClosureAccepted first => Sys2Proof.Machine.execSyncClosureAccepted first s
  | .syncReleaseAccepted first => Sys2Proof.Machine.execSyncReleaseAccepted first s
  | .syncRejectedPulse => Sys2Proof.Machine.execSyncRejectedPulse s
  | .waitLimitExpiry => Sys2Proof.Machine.execWaitLimitExpiry s
  | .exposureLimitExpiry => Sys2Proof.Machine.execExposureLimitExpiry s
  | .windowEnd => Sys2Proof.Machine.execWindowEnd s
  | .timedDurationExpiry => Sys2Proof.Machine.execTimedDurationExpiry s
  | .tailTimeExpiry => Sys2Proof.Machine.execTailTimeExpiry s
  | .snsReadPulseEnd => Sys2Proof.Machine.execSnsReadPulseEnd s
  | .sampleTimerExpiry => Sys2Proof.Machine.execSampleTimerExpiry s
  | .conversionStart => Sys2Proof.Machine.execConversionStart s
  | .conversionComplete code => Sys2Proof.Machine.execConversionComplete code s
  | .cardRailPollTick => Sys2Proof.Machine.execCardRailPollTick s
  | .rampTimerExpiry => Sys2Proof.Machine.execRampTimerExpiry s
  | .dischargeTimerExpiry => Sys2Proof.Machine.execDischargeTimerExpiry s
  | .cardInsertion => Sys2Proof.Machine.execCardInsertion s
  | .cardRemoval => Sys2Proof.Machine.execCardRemoval s
  | .cardOvercurrent => Sys2Proof.Machine.execCardOvercurrent s
  | .cardRunIssue => Sys2Proof.Machine.execCardRunIssue s
  | .identResponse crcGood capacity => Sys2Proof.Machine.execIdentResponse crcGood capacity s
  | .cardResponse good => Sys2Proof.Machine.execCardResponse good s
  | .cardBlockReceived data crc => Sys2Proof.Machine.execCardBlockReceived data crc s
  | .cardWriteToken token => Sys2Proof.Machine.execCardWriteToken token s
  | .cardBusyRelease => Sys2Proof.Machine.execCardBusyRelease s
  | .responseTimeout => Sys2Proof.Machine.execResponseTimeout s
  | .busyTimeout => Sys2Proof.Machine.execBusyTimeout s
  | .cardNextWork => Sys2Proof.Machine.execCardNextWork s
  | .cardReadResultWrite => Sys2Proof.Machine.execCardReadResultWrite s
  | .standbyEntryDrained => Sys2Proof.Machine.execStandbyEntryDrained s
  | .cardDetectWake => Sys2Proof.Machine.execCardDetectWake s
  | .wakeDramReady => Sys2Proof.Machine.execWakeDramReady s
  | .powerOnReset => Sys2Proof.Machine.execPowerOnReset s
  | .fillComplete => Sys2Proof.Machine.execFillComplete s
  | .pinResetAssert => Sys2Proof.Machine.execPinResetAssert s
  | .pinResetRelease => Sys2Proof.Machine.execPinResetRelease s

end Sys2Proof.Machine
end

