-- ==== Sys2Proof/Safety.lean ====
section
/-! DEFINITION. The terms claims are made in: the parts of the state for frames, the answer of a request, the invariants of
the part. -/

namespace Sys2Proof.Machine

/-! ### Frames -/

/-- The parts of the state a frame speaks of. -/
inductive Part where
  | resetHeld | pins | mem | stb | exs
  /-- the posted-write queue and the bursts not taken -/
  | posted
  /-- path state, wake cause, standby accepted -/
  | path
  | guardDrops | outOfRange | response
  /-- reads that wait for posted bursts -/
  | reads
  /-- transactions that wait at the arbiter -/
  | waiting
  /-- the access in progress, the arbiter's counts and its turn -/
  | port
  /-- the error log, its update number and the error counters -/
  | errors
  | injection | corrected
  /-- scrub position, passes, pace timer, step -/
  | scrubber
  | prs | pce | dfm
  /-- the Analog Monitor but for its stop -/
  | monitor
  | monitorStop
  | cde
  /-- request head and completion number -/
  | head
  /-- cached tail and ring-fault counter, and observations outstanding -/
  | tail
  /-- the request in service and the last answer -/
  | service
  /-- event flags, enables, ATTN -/
  | flags
  /-- occurrences that wait, flags raised, marked pieces and mirror writes that wait -/
  | reports
  | resetCause
  deriving DecidableEq, Repr

/-- Whether two states agree in a part. -/
def Part.agree (s t : State) : Part → Prop
  | .resetHeld => t.resetHeld = s.resetHeld
  | .pins => t.pins = s.pins
  | .mem => (∀ a, t.mem.byte a = s.mem.byte a) ∧ ∀ a, t.mem.checkAt a = s.mem.checkAt a
  | .stb => t.stb = s.stb
  | .exs => t.exs = s.exs
  | .posted => t.hmp.queue = s.hmp.queue ∧ t.hmp.waiting = s.hmp.waiting ∧ t.hmp.nextId = s.hmp.nextId
  | .path => t.hmp.path = s.hmp.path ∧ t.hmp.wake = s.hmp.wake ∧ t.hmp.sleepAsked = s.hmp.sleepAsked
  | .guardDrops => t.hmp.guardDrops = s.hmp.guardDrops
  | .outOfRange => t.hmp.outOfRange = s.hmp.outOfRange
  | .response => t.hmp.response = s.hmp.response
  | .reads => t.hmp.reads = s.hmp.reads
  | .waiting => t.fmc.pending = s.fmc.pending
  | .port => t.fmc.active = s.fmc.active ∧ t.fmc.passOver = s.fmc.passOver ∧ t.fmc.nextPart = s.fmc.nextPart
  | .errors => t.fmc.errlog = s.fmc.errlog ∧ t.fmc.overflow = s.fmc.overflow ∧ t.fmc.corrGeneral = s.fmc.corrGeneral ∧
      t.fmc.corrFrame = s.fmc.corrFrame ∧ t.fmc.corrControl = s.fmc.corrControl ∧
      t.fmc.uncorrectable = s.fmc.uncorrectable ∧ t.fmc.logUpdate = s.fmc.logUpdate
  | .injection => t.fmc.injection = s.fmc.injection
  | .corrected => t.fmc.corrected = s.fmc.corrected
  | .scrubber => t.fmc.scrubPos = s.fmc.scrubPos ∧ t.fmc.passes = s.fmc.passes ∧ t.fmc.pace = s.fmc.pace ∧
      t.fmc.scrub = s.fmc.scrub
  | .prs => t.prs = s.prs
  | .pce => t.pce = s.pce
  | .dfm => t.dfm = s.dfm
  | .monitor => { t.amn with stopped := s.amn.stopped, stopAsked := s.amn.stopAsked } = s.amn
  | .monitorStop => t.amn.stopped = s.amn.stopped ∧ t.amn.stopAsked = s.amn.stopAsked
  | .cde => t.cde = s.cde
  | .head => t.rqe.head = s.rqe.head ∧ t.rqe.completionNo = s.rqe.completionNo
  | .tail => t.rqe.tail = s.rqe.tail ∧ t.rqe.ringFaults = s.rqe.ringFaults ∧ t.rqe.observed = s.rqe.observed
  | .service => t.rqe.service = s.rqe.service ∧ t.rqe.lastAnswer = s.rqe.lastAnswer
  | .flags => t.rqe.flags = s.rqe.flags ∧ t.rqe.enables = s.rqe.enables ∧ t.rqe.attn = s.rqe.attn
  | .reports => t.rqe.raises = s.rqe.raises ∧ t.rqe.made = s.rqe.made ∧ t.rqe.carried = s.rqe.carried ∧
      t.rqe.marked = s.rqe.marked ∧ t.rqe.jobs = s.rqe.jobs ∧ t.rqe.updates = s.rqe.updates
  | .resetCause => t.rqe.resetCause = s.rqe.resetCause

/-- What follows from any change: mirror writes, marked pieces, raises, and work presented to the arbiter. -/
def followUp : List Part := [.reports, .waiting, .reads, .monitorStop]

/-- Every part but those listed and the follow-up stays as it was, and so does the queue of commands. -/
def OnlyChanges (ps : List Part) (s t : State) : Prop :=
  t.pending = s.pending ∧ ∀ p, p ∉ ps → p ∉ followUp → p.agree s t

/-! ### Reports -/

/-- Every status piece of content that a command changed is marked (R200). -/
def Marked (s t : State) : Prop := ∀ k, 1 ≤ k → k ≤ 6 → statusPiece k t ≠ statusPiece k s → k ∈ t.rqe.marked

/-- Every shot table mirror entry whose content a command changed has its write queued, from its first transaction on
(R9, R206). -/
def Mirrored (s t : State) : Prop :=
  ∀ e, e < 16 → t.stb.entryContent e ≠ s.stb.entryContent e →
    ∃ u, MirrorJob.shotEntry e (t.stb.entryContent e) u 0 ∈ t.rqe.jobs

/-- A piece of the status block stands in DRAM as its image is (R200). -/
def Shows (k : Nat) (t : State) : Prop :=
  ∀ j b, (statusPiece k t)[j]? = some b → t.mem.byte (0x3F000000 + 64 * k + j) = b

/-- What is still to be written (R201): every mirror write queued, every piece of content marked, and whether one of those
pieces is being written. -/
def unwritten (t : State) : Hold := t.rqe.outstanding t.fmc.writingContent

/-- An occurrence of an event calls for its flag (R201): with writes outstanding it waits for all of them, whatever the
flag shows meanwhile; with none it has been raised, and the flag is set or goes with the next write of piece 0. -/
def Raised (f : EventFlag) (t : State) : Prop :=
  if (unwritten t).done then t.rqe.flags &&& f.mask ≠ 0 ∨ f ∈ t.rqe.made
  else { flag := f, hold := some (unwritten t) } ∈ t.rqe.raises

/-- A transaction of a kind waits at the arbiter (R62). -/
def Presented (k : TxnKind) (addr len : Nat) (t : State) : Prop :=
  ({ kind := k, addr := addr, len := len } : Txn) ∈ t.fmc.pending

/-! ### Requests -/

/-- The owner is handed a request: by the RQE, or by its sender while the ring has none in service (log 3). -/
def Taken (q : Request) (s : State) : Prop :=
  s.resetHeld = false ∧
    ((∃ v, s.rqe.service = some v ∧ v.stage = .handed q) ∨ (s.rqe.service = none ∧ serving s = true))

/-- The request has been answered; one with a ring entry has its completion presented (R198). -/
def Answered (a : Answer) (s t : State) : Prop :=
  t.rqe.lastAnswer = some a ∧
  ∀ v k, s.rqe.service = some v → v.index = some k →
    t.rqe.service = some { v with stage := .answered a } ∧
    Presented .completionWrite (0x3F002000 + 128 * k + 96) 32 t

/-- A request is refused with a code, and nothing changes but its service. -/
def Refused (c : Code) (s t : State) : Prop := Answered { code := c } s t ∧ OnlyChanges [.service] s t

/-! ### The sequencer -/

/-- The sequencer back in IDLE: every line it drives released, no shot, no timer, the debounce 10 samples (R24, R35). -/
def idled (x : Exs) : Exs :=
  { x with seq := .idle, quietReq := false, snsFlush := false, snsInteg := false, readyOut := false, current := none,
           timer := none, sync := { x.sync with debounce := 10 } }

/-- Nothing waits for the sequencer's return to IDLE: no run of samples to be judged against the new debounce, no power-up
held for QUIET_REQ, no container. -/
def Quiescent (s : State) : Prop := s.exs.sync.run = none ∧ s.cde.powerUp ≠ some .quiet ∧ s.cde.container = none

/-- The running shot `e` has its record `r`, its slot `i` and its profile `p`, and its end waits for nothing else; a TEMP end
request that still waits is of no shot in a readout. -/
def Running (e : Exposure) (r : ShotRecord) (i : Nat) (p : Profile) (s : State) : Prop :=
  s.resetHeld = false ∧ s.exs.current = some e ∧ s.stb.find e.shot = some r ∧ r.slot = some i ∧
    i < s.stb.slots.length ∧ s.prs.live e.profile = some p ∧
    (∀ n o, Demand.tempEnd n ∈ s.amn.queue → s.pce.readout = some o → o.shot ≠ n) ∧ Quiescent s

/-- The difference of two instants (R25). -/
def span (later earlier : Nat) : Nat := (later + 4294967296 - earlier) % 4294967296

/-- The on-demand queue after a TEMP request has come (R148): it takes the place of one of its purpose that waits, or else goes
to the end. -/
def queuedFor (d : Demand) (q : List Demand) : List Demand :=
  if q.any (·.samePurpose d) then q.map fun e => if e.samePurpose d then d else e else q ++ [d]

/-- The dark offset of a record by an image and a temperature (R95, R96). -/
def offsetOf (g : Profile) (r : ShotRecord) (temp : Int) : Nat :=
  (max 0 (min 4095 ((darkRate g.dark temp * (r.integration.getD 0 : Nat) + 800000) / 1600000))).toNat

/-- The TEMP end request that waited, of another shot, is answered without a value (R94, R148): the dark offset goes into its
record by the start temperature alone, and the record's mirror is rewritten. -/
def AnsweredVoid (shot : Nat) (s t : State) : Prop :=
  ∀ n q g, s.amn.queue.find? (·.samePurpose (.tempEnd shot)) = some (.tempEnd n) → n ≠ shot → s.stb.find n = some q →
    q.tempEnd = none → s.prs.live q.profile = some g →
    let q' := { q with dark := offsetOf g q (q.tempStart.getD 100) }
    t.stb.find n = some q' ∧ ∃ u, MirrorJob.shotEntry q.entry (some q') u 0 ∈ t.rqe.jobs

/-- Integration has ended (R48, R49, R86) with a source, an exposure time and a record's flags: the lines, the record in
READING, the slot in READOUT, the readout begun, the end temperature asked for (R148), EXPOSED raised. -/
def Ended (e : Exposure) (i : Nat) (p : Profile) (src : ExposureSource) (time : Nat) (flags : RecordFlags) (s t : State) :
    Prop :=
  t.exs = { idled s.exs with snsRead := true, pulse := some 10 } ∧
  (∃ r, t.stb.find e.shot = some r ∧ r.phase = .reading ∧ r.slot = some i ∧ r.flags = flags ∧
    r.integration = some (span s.exs.timeBase e.entry) ∧ r.exposure = some time ∧ r.source = some src ∧
    r.pitch = some p.pitch) ∧
  t.stb.slotState i = .readout ∧
  (∃ o, t.pce.readout = some o ∧ o.shot = e.shot ∧ o.slot = i ∧ o.image = p ∧ o.cursor = 0 ∧
    o.heldEven = p.nominalBlack ∧ o.heldOdd = p.nominalBlack ∧ o.acc = none ∧ o.wait = none ∧ o.dark = none ∧
    o.stats = {} ∧ o.ending = none) ∧
  t.pce.idle = some (p.idleLimit * 1000) ∧ t.dfm.entries = s.dfm.entries ∧
  t.amn.queue = queuedFor (.tempEnd e.shot) s.amn.queue ∧ AnsweredVoid e.shot s t ∧ Raised .exposed t

/-! ### The line hold buffer -/

/-- A pixel of the waiting word as it is settled without a right neighbour (R103, R122): a covered one takes the value of its
left neighbour, if that can be used, else the pedestal. -/
def settledAlone (d : Dfm) (g : Profile) (line x : Nat) (left : Option Nat) : PixelSlot → Option Nat
  | .covered => some ((if x < 2 ∨ d.covers line (g.masked + x - 2) = true then none else left).getD g.pedestal)
  | .value y => some y
  | .absent => none

/-- The word handed to the FMC when the waiting word is released without right neighbours (R103): none while no word waits. -/
def releasedWord (s : State) (o : Readout) : List Txn :=
  match o.wait with
  | none => []
  | some h =>
    let a := s.stb.slotBase o.slot + h.offset
    let bytes := fun (a : Nat) (y : Option Nat) => cellsAt a ((y.map (le 2)).getD [])
    let cells := bytes a (settledAlone s.dfm o.image h.line h.x h.leftEven h.even) ++
      bytes (a + 2) (settledAlone s.dfm o.image h.line (h.x + 1) h.leftOdd h.odd)
    if cells = [] then [] else [⟨.captureWrite, a, 4, cells, h.parity⟩]

/-- The statistics after that release (R101, R104): each pixel substituted is counted, and its value in the histogram. -/
def releasedStats (s : State) (o : Readout) : Stats :=
  match o.wait with
  | none => o.stats
  | some h =>
    let count := fun (st : Stats) (x : Nat) (left : Option Nat) (p : PixelSlot) =>
      match p, settledAlone s.dfm o.image h.line x left p with
      | .covered, some y => { st with substituted := min 4294967295 (st.substituted + 1), histogram := st.histogram.modify (y / 1024) fun n => min 4294967295 (n + 1) }
      | _, _ => st
    count (count o.stats h.x h.leftEven h.even) (h.x + 1) h.leftOdd h.odd

/-! ### Invariants -/

/-- Memory is in canonical form. -/
def MemOk (s : State) : Prop := s.mem.wf = true

/-- The lines of the sequencer are those of its state (R23, R24). -/
def LinesOk (s : State) : Prop :=
  (s.exs.quietReq = true ↔ s.exs.seq ≠ .idle) ∧
  (s.exs.snsFlush = true ↔ s.exs.seq = .flush) ∧
  (s.exs.snsInteg = true ↔ s.exs.seq = .waiting ∨ s.exs.seq = .opened ∨ s.exs.seq = .tail) ∧
  (s.exs.readyOut = true ↔ s.exs.seq = .waiting)

/-- ATTN is asserted exactly when some event flag and its enable are both set (R205). -/
def AttnOk (s : State) : Prop :=
  s.rqe.attn = true ↔ ∃ k, k < 18 ∧ s.rqe.flags.getLsbD k = true ∧ s.rqe.enables.getLsbD k = true

/-- The error log holds at most 16 entries, no two with the same address (R135). -/
def LogOk (s : State) : Prop := s.fmc.errlog.length ≤ 16 ∧ (s.fmc.errlog.map (·.addr)).Nodup

/-- At most eight posted-write buffers are occupied (R58). -/
def QueueOk (s : State) : Prop := s.hmp.queue.length ≤ 8

/-- The defect map holds at most 8,192 entries, and so does a list being loaded (R114, R117). -/
def MapOk (s : State) : Prop := s.dfm.entries.length ≤ 8192 ∧ ∀ l, s.dfm.load = some l → l.count ≤ 8192

/-- Every record has a shot number below the next one, as long as the numbers have not wrapped (R17). -/
def NumbersOk (s : State) : Prop := ∀ r ∈ s.stb.records, r.shot < s.stb.nextShot

/-- A state a run may rest on: every invariant holds. -/
def Safe (s : State) : Prop := MemOk s ∧ LinesOk s ∧ AttnOk s ∧ LogOk s ∧ QueueOk s ∧ MapOk s ∧ NumbersOk s

end Sys2Proof.Machine
end

