-- ==== Sys2Proof/Certificates/Slice0/Obligations.lean ====
section
/-! DEFINITION. The statements for the provers. Each is named for what it states; `OBLIGATIONS.json` lists them. Two choices of
the model stand behind all of them: a request may be given to its owner by the ring or, while the ring has none in service, by
its sender (log 3), and the end of a time is a command, taken whenever that timer runs (log 2). -/

open Sys2Proof Sys2Proof.Machine

/-! ### The machine -/

/-- A step takes the command at the front of the queue and runs it with the queue's rest. That the part's events come in
through one queue, in one order, is the model's choice (log 38). -/
def Obligations.StepRunsTheFrontCommand : Prop :=
  ∀ (c : Instr) (rest : List Instr) (s : State), s.pending = c :: rest → step s = exec c { s with pending := rest }

/-- With no command waiting one 10 us period passes, and every timer has 10 us less to run; a timer at its end waits for its
command (the model's choices, logs 1 and 2); nothing happens while RESET_N is asserted. The time base counts on and wraps
(R25). One sample at SYNC_IN (R35 to R37): a run of samples begun or continued; a run as long as the debounce accepted, with
what SYNC_CLOSURE_ACCEPTED or SYNC_RELEASE_ACCEPTED does for its first sample; a run that ends below it, with what
SYNC_REJECTED_PULSE does. Each millisecond one sample at CARD_DET (R160): the fiftieth present one in a row inserts the card,
one absent one removes it. The second asserted sample at CARD_OC in a row is an overcurrent (R166). -/
def Obligations.IdleStepIsOnePeriod : Prop :=
  ∀ s : State, s.pending = [] →
    (s.resetHeld = true → step s = .next s) ∧
    (s.resetHeld = false → ∃ t, step s = .next t ∧ t.pending = [] ∧ t.resetHeld = false ∧
      let now := (s.exs.timeBase + 1) % 4294967296
      let sync := s.exs.sync
      let level := s.pins.syncClosed
      let run : SyncRun := match sync.run with
        | some r => { r with length := r.length + 1 }
        | none => ⟨level, 1, now⟩
      let down := fun us : Nat => us - 10
      let detecting := now % 100 = 0
      let steady := s.cde.detLevel = s.pins.cardPresent ∧ (¬ detecting ∨ s.pins.cardPresent = s.cde.detected)
      let still := (s.cde.pwrEn = false ∨ s.pins.overcurrent = false) ∧ steady
      let noReads := s.cde.ended = [] ∧ s.cde.reads = [] ∧ s.cde.serving = none
      let likeCommand := fun c : Instr => ∃ u, exec c { s with exs := { s.exs with timeBase := now } } = .next u ∧
        t.stb = u.stb ∧ t.exs = { u.exs with timer := u.exs.timer.map down, pulse := u.exs.pulse.map down }
      t.exs.timeBase = now ∧
      (level ≠ sync.closed → run.length < sync.debounce → t.exs.sync = { sync with run := some run }) ∧
      (level ≠ sync.closed → sync.debounce ≤ run.length → t.exs.sync.closed = level ∧ t.exs.sync.run = none ∧
        (still → run.first < 4294967296 → likeCommand (if level then .syncClosureAccepted (BitVec.ofNat 32 run.first)
          else .syncReleaseAccepted (BitVec.ofNat 32 run.first)))) ∧
      (level = sync.closed → t.exs.sync = { sync with run := none } ∧
        ∀ r, level = false → sync.run = some r → r.closed = true → still → likeCommand .syncRejectedPulse) ∧
      (detecting → s.cde.detected = false →
        (s.pins.cardPresent = true → s.cde.detCount < 49 →
          t.cde.detected = false ∧ t.cde.detCount = s.cde.detCount + 1) ∧
        (s.pins.cardPresent = true → 49 ≤ s.cde.detCount →
          t.cde.detected = true ∧ t.cde.detCount = 50 ∧ Raised .cardInserted t) ∧
        (s.pins.cardPresent = false → t.cde.detected = false ∧ t.cde.detCount = 0)) ∧
      (detecting → s.cde.detected = true → s.pins.cardPresent = false →
        t.cde.detected = false ∧ t.cde.detCount = 0 ∧ t.cde.capacity = none ∧ t.cde.state = .discharging ∧
        (noReads → Raised .cardRemoved t)) ∧
      (¬ detecting → t.cde.detected = s.cde.detected ∧ t.cde.detCount = s.cde.detCount) ∧
      (level = sync.closed → steady → s.cde.pwrEn = true →
        (s.pins.overcurrent = false → t.cde.ocCount = 0) ∧
        (s.pins.overcurrent = true → s.cde.ocCount = 0 → t.cde.ocCount = 1 ∧ t.cde.state = s.cde.state) ∧
        (s.pins.overcurrent = true → s.cde.ocCount ≠ 0 → t.cde.state = .fault ∧ t.cde.faultCause = .overcurrent ∧
          t.cde.pwrEn = false ∧ (noReads → Raised .cardFault t))) ∧
      (level = sync.closed → sync.run = none → still → (s.cde.pwrEn = true → s.cde.ocCount = 0) →
        (s.pins.cardPresent = false → s.cde.detCount = 0) →
        t.exs = { s.exs with timeBase := now, timer := s.exs.timer.map down, pulse := s.exs.pulse.map down } ∧
        { t.amn with stopped := s.amn.stopped, stopAsked := s.amn.stopAsked } = { s.amn with sampleTimer := if s.amn.stopped then s.amn.sampleTimer else s.amn.sampleTimer - 10, conv := s.amn.conv.map fun c => { c with left := c.left - 10 } } ∧
        t.cde = { s.cde with rampTimer := s.cde.rampTimer.map down, dischargeTimer := s.cde.dischargeTimer.map down, busTimer := s.cde.busTimer.map down } ∧
        t.pce.readout = s.pce.readout ∧
        (s.hmp.queue = [] → t.pce.idle = s.pce.idle.map down) ∧
        (∀ p more, s.hmp.queue = p :: more → t.pce.idle = if p.heldBeats = [] then s.pce.idle.map down else s.pce.idle) ∧
        t.fmc.pace = s.fmc.pace - 10 ∧ t.fmc.scrub = s.fmc.scrub ∧ t.fmc.scrubPos = s.fmc.scrubPos ∧
        t.fmc.passes = s.fmc.passes ∧ OnlyChanges [.exs, .monitor, .cde, .pce, .scrubber] s t))

/-- No command changes the queue of the commands that wait, neither a power-on reset nor the assertion of RESET_N. That is the
model's: one queue holds the commands that come from outside (log 38), and a reset of the part does not reach it (log 28). -/
def Obligations.CommandsKeepTheQueue : Prop :=
  ∀ (c : Instr) (s t : State), exec c s = .next t → t.pending = s.pending

/-- Every well-formed command completes, in every state; a burst of no beat or of more than 8, and a card block that is not
512 bytes, stop the machine. Both are the model's choices: that such a malformed command is a fault (log 27), and that a
command whose event the state rules out completes, changing nothing (log 7). -/
def Obligations.OnlyIllFormedCommandsStop : Prop :=
  ∀ (c : Instr) (s : State), (c.wf = true → ∃ t, exec c s = .next t) ∧ (c.wf = false → exec c s = .fault .illFormed)

/-- Right after power-on reset (R22, R52, R62, R64, R70, R71, R85, R114, R139, R146, R159, R177, R195, R201): the Shot Table
and the sequencer; the memory path, its errors, requests and reports; profiles, conditioning, map, monitor and card. -/
def Obligations.ResetValues : Prop :=
  let s := State.reset
  s.stb.records = [] ∧ s.stb.slotSize = 150 ∧ s.stb.count = 5 ∧ s.stb.slots = List.replicate 5 .free ∧
  s.stb.retained = [] ∧ s.stb.nextShot = 1 ∧
  s.exs.seq = .idle ∧ s.exs.current = none ∧ s.exs.quietReq = false ∧ s.exs.snsFlush = false ∧ s.exs.snsInteg = false ∧
  s.exs.readyOut = false ∧ s.exs.snsRead = false ∧ s.exs.timer = none ∧ s.exs.sync.closed = false ∧
  s.exs.sync.run = none ∧ s.exs.sync.debounce = 10 ∧ s.exs.missed = 0 ∧ s.exs.timeBase = 0 ∧
  s.hmp.path = .filling ∧ s.hmp.wake = .none ∧ s.hmp.guardDrops = 0 ∧ s.hmp.outOfRange = 0 ∧ s.hmp.queue = [] ∧
  s.fmc.passOver = {} ∧ s.fmc.nextPart = .rqe ∧ s.fmc.errlog = [] ∧ s.fmc.overflow = 0 ∧ s.fmc.corrGeneral = 0 ∧
  s.fmc.corrFrame = 0 ∧ s.fmc.corrControl = 0 ∧ s.fmc.uncorrectable = 0 ∧ s.fmc.corrected = [] ∧
  s.fmc.injection = none ∧ s.fmc.scrub = none ∧ s.fmc.scrubPos = 0 ∧ s.fmc.passes = 0 ∧
  s.rqe.head = 0 ∧ s.rqe.tail = 0 ∧ s.rqe.completionNo = 0 ∧ s.rqe.service = none ∧ s.rqe.ringFaults = 0 ∧
  s.rqe.flags = 0 ∧ s.rqe.enables = 0 ∧ s.rqe.attn = false ∧
  (∀ id < 4, s.prs.entries[id]? = some { live := none, waiting := none }) ∧ s.prs.load = none ∧ s.pce.readout = none ∧
  s.dfm.entries = [] ∧ s.dfm.drops = 0 ∧ s.dfm.load = none ∧ s.dfm.sequence = 0 ∧
  s.amn.temp = none ∧ s.amn.batt = none ∧ s.amn.card = none ∧ s.amn.tempValid = false ∧ s.amn.battValid = false ∧
  s.amn.cardValid = false ∧ s.amn.tempLevel = .normal ∧ s.amn.battLevel = .normal ∧
  s.amn.settings.tempSlope = 1000 ∧ s.amn.settings.tempOffset = -200 ∧ s.amn.settings.battSlope = 16000 ∧
  s.amn.settings.battOffset = 0 ∧ s.amn.settings.cardSlope = 4096 ∧ s.amn.settings.cardOffset = 0 ∧
  s.amn.settings.warn = 180 ∧ s.amn.settings.limit = 240 ∧ s.amn.settings.armFloor = 6400 ∧
  s.amn.settings.critFloor = 6000 ∧ s.amn.settings.interval = 100 ∧
  s.cde.state = .absent ∧ s.cde.rail = .off ∧ s.cde.pwrEn = false ∧ s.cde.detected = false ∧ s.cde.detCount = 0 ∧
  s.cde.capacity = none ∧ s.cde.geometry = none ∧ s.cde.container = none ∧ s.cde.format = none ∧ s.cde.reads = [] ∧
  s.cde.results = [none, none, none, none] ∧ s.cde.reading = none ∧ s.cde.readingAt = none ∧
  s.rqe.raises = [] ∧ s.rqe.made = [] ∧ s.rqe.marked = [] ∧ s.rqe.jobs = []

/-! ### Invariants -/

/-- Every invariant holds after reset. -/
def Obligations.ResetIsSafe : Prop := Safe State.reset

/-- Every step keeps memory in canonical form. -/
def Obligations.StepKeepsMemory : Prop := ∀ s t : State, MemOk s → step s = .next t → MemOk t

/-- Every step keeps the lines of the sequencer those of its state (R23, R24). -/
def Obligations.StepKeepsLines : Prop := ∀ s t : State, LinesOk s → step s = .next t → LinesOk t

/-- Every step keeps ATTN asserted exactly when an event flag and its enable are both set (R205). -/
def Obligations.StepKeepsAttn : Prop := ∀ s t : State, AttnOk s → step s = .next t → AttnOk t

/-- Every step keeps the error log at 16 entries at most, no address twice (R135). -/
def Obligations.StepKeepsErrorLog : Prop := ∀ s t : State, LogOk s → step s = .next t → LogOk t

/-- Every step keeps at most eight posted-write buffers occupied (R58), and the defect map, and a list being loaded, at 8,192
entries at most (R114, R117); and every step that does not wrap the next shot number keeps it above the number of every
record (R17). -/
def Obligations.StepKeepsBounds : Prop :=
  ∀ s t : State, step s = .next t → (QueueOk s → QueueOk t) ∧ (MapOk s → MapOk t) ∧
    (NumbersOk s → s.stb.nextShot < 4294967295 → NumbersOk t)

/-- What a command changes in a status piece of content (pieces 1 to 6) is marked for its write, and what it changes in a shot
table mirror entry has that entry's write queued (R9, R200, R206). Left out are piece 0, the idle step, and the six commands
that write the status block themselves: the resets, the end of the fill, the end of the standby entry and of the wake. -/
def Obligations.ChangesAreReported : Prop :=
  ∀ (c : Instr) (s t : State), s.resetHeld = false → exec c s = .next t →
    c ≠ .powerOnReset → c ≠ .fillComplete → c ≠ .pinResetAssert → c ≠ .pinResetRelease → c ≠ .standbyEntryDrained →
    c ≠ .wakeDramReady → Marked s t ∧ Mirrored s t

/-! ### Requests of the Shot Table -/

/-- A phase move of the table of R11 is made whole, the slot moving with it; any other is refused and changes nothing. -/
def Obligations.PhaseMoves : Prop :=
  ∀ (t : Stb) (shot : Nat) (r : ShotRecord) (p : Phase), t.find shot = some r →
    ((r.phase, p) ∈ [(.arming, .waiting), (.arming, .aborted), (.waiting, .exposing), (.waiting, .expired),
        (.waiting, .aborted), (.exposing, .reading), (.reading, .held), (.reading, .calibrated), (.held, .storing),
        (.held, .discarded), (.storing, .held), (.storing, .stored)] →
      ((p = .waiting ∨ p = .exposing ∨ p = .reading ∨ p = .held ∨ p = .storing ∨ p = .stored) →
        (t.move shot p).find shot = some { r with phase := p } ∧
        ∀ i, r.slot = some i → i < t.slots.length → (t.move shot p).slotState i =
          (if p = .reading then .readout else if p = .held then .held else if p = .storing then .draining
           else if p = .stored then .retained else .armed)) ∧
      ((p = .aborted ∨ p = .expired ∨ p = .calibrated ∨ p = .discarded) →
        (t.move shot p).find shot = some { r with phase := p, slot := none } ∧
        ∀ i, r.slot = some i → i < t.slots.length → (t.move shot p).slotState i = .free)) ∧
    ((r.phase, p) ∉ [(.arming, .waiting), (.arming, .aborted), (.waiting, .exposing), (.waiting, .expired),
        (.waiting, .aborted), (.exposing, .reading), (.reading, .held), (.reading, .calibrated), (.held, .storing),
        (.held, .discarded), (.storing, .held), (.storing, .stored)] → t.move shot p = t) ∧
    (∀ q, q ≠ shot → (t.move shot p).find q = t.find q) ∧
    (∀ j, r.slot ≠ some j → (t.move shot p).slotState j = t.slotState j)

/-- A record that gives up its slot (R13): the slot becomes FREE and leaves the retained order, the record keeps the rest. -/
def Obligations.SlotGivenUp : Prop :=
  ∀ (t : Stb) (shot i : Nat) (r : ShotRecord), t.find shot = some r → r.slot = some i → i < t.slots.length →
    (t.freeSlot shot).slotState i = .free ∧ i ∉ (t.freeSlot shot).retained ∧
    (t.freeSlot shot).find shot = some { r with slot := none } ∧
    (∀ j, j ≠ i → (t.freeSlot shot).slotState j = t.slotState j ∧
      (j ∈ (t.freeSlot shot).retained ↔ j ∈ t.retained)) ∧
    (∀ q, q ≠ shot → (t.freeSlot shot).find q = t.find q) ∧
    (t.freeSlot shot).slotSize = t.slotSize ∧ (t.freeSlot shot).nextShot = t.nextShot

/-- SET_SLOTS (R3): BUSY while a slot or a card read bars it, else the new layout with every slot FREE. -/
def Obligations.SetSlots : Prop :=
  ∀ (size : BitVec 32) (s : State), Taken (.setSlots size) s →
    let n := max 1 (min 752 size.toNat)
    let busy := (∃ i, i < s.stb.count ∧ (s.stb.slotState i = .armed ∨ s.stb.slotState i = .readout ∨
        s.stb.slotState i = .held ∨ s.stb.slotState i = .draining ∨
        (s.stb.slotState i = .retained ∧ ∃ r, s.stb.holder i = some r ∧ r.flags.keep = true))) ∨
      ∃ r, (r ∈ s.cde.reads ∨ s.cde.serving = some r) ∧ r.dest < 0x3F000000 ∧ 0x10000000 < r.dest + r.count * 512
    (busy → ∃ t, exec (.setSlots size) s = .next t ∧ Refused .busy s t) ∧
    (¬ busy → ∃ t, exec (.setSlots size) s = .next t ∧
      Answered ⟨.done, le 4 n ++ le 1 (min 8 (752 / n))⟩ s t ∧
      t.stb.records = s.stb.records.map (fun r => if r.phase = .stored then { r with slot := none } else r) ∧
      t.stb.retained = [] ∧ t.stb.slotSize = n ∧ t.stb.slots = List.replicate (min 8 (752 / n)) .free ∧
      t.stb.nextShot = s.stb.nextShot ∧
      Mirrored s t ∧ OnlyChanges [.stb, .service] s t)

/-- DISCARD (R19), by the phase of the shot's record. -/
def Obligations.Discard : Prop :=
  ∀ (shot : BitVec 32) (s : State), Taken (.discard shot) s →
    let n := shot.toNat
    let freed := fun (r : ShotRecord) (t : State) => ∀ i, r.slot = some i → i < s.stb.slots.length →
      t.stb.slotState i = .free ∧ i ∉ t.stb.retained
    (s.stb.find n = none → ∃ t, exec (.discard shot) s = .next t ∧ Refused .notFound s t) ∧
    ∀ r, s.stb.find n = some r →
      ((r.phase = .arming ∨ r.phase = .waiting ∨ r.phase = .exposing ∨ r.phase = .reading ∨ r.phase = .storing) →
        ∃ t, exec (.discard shot) s = .next t ∧ Refused .busy s t) ∧
      (r.phase = .held → ∃ t, exec (.discard shot) s = .next t ∧ t.stb = s.stb.move n .discarded ∧
        t.stb.find n = some { r with phase := .discarded, slot := none } ∧ freed r t ∧
        Answered ⟨.done, le 4 r.shot ++ [9, 0xFF]⟩ s t ∧ OnlyChanges [.stb, .service] s t) ∧
      (r.phase = .stored → ∃ t, exec (.discard shot) s = .next t ∧ t.stb = s.stb.freeSlot n ∧
        t.stb.find n = some { r with slot := none } ∧ freed r t ∧
        Answered ⟨.done, le 4 r.shot ++ [6, 0xFF]⟩ s t ∧ OnlyChanges [.stb, .service] s t) ∧
      ((r.phase = .expired ∨ r.phase = .aborted ∨ r.phase = .discarded ∨ r.phase = .calibrated) →
        ∃ t, exec (.discard shot) s = .next t ∧
          Answered ⟨.done, le 4 r.shot ++ le 1 r.phase.code ++ le 1 (slotCode r.slot)⟩ s t ∧
          OnlyChanges [.service] s t)

/-- RELEASE (R20): KEEP is cleared in every phase, and a STORED record's slot is given up. -/
def Obligations.Release : Prop :=
  ∀ (shot : BitVec 32) (s : State), Taken (.release shot) s →
    let n := shot.toNat
    (s.stb.find n = none → ∃ t, exec (.release shot) s = .next t ∧ Refused .notFound s t) ∧
    ∀ r, s.stb.find n = some r → ∃ t, exec (.release shot) s = .next t ∧
      (let u := s.stb.update n fun q => { q with flags := { q.flags with keep := false } }
       t.stb = if r.phase = .stored then u.freeSlot n else u) ∧
      t.stb.find n = some { r with flags := { r.flags with keep := false }, slot := if r.phase = .stored then none else r.slot } ∧
      (∀ i, r.phase = .stored → r.slot = some i → i < s.stb.slots.length →
        t.stb.slotState i = .free ∧ i ∉ t.stb.retained) ∧
      Answered ⟨.done, le 4 r.shot ++ le 1 r.phase.code ++
        le 1 (if r.phase = .stored then 0xFF else slotCode r.slot)⟩ s t ∧
      Mirrored s t ∧ OnlyChanges [.stb, .service] s t

/-- RETIRE (R21): a final record is removed, any other is BUSY. -/
def Obligations.Retire : Prop :=
  ∀ (shot : BitVec 32) (s : State), Taken (.retire shot) s →
    let n := shot.toNat
    (s.stb.find n = none → ∃ t, exec (.retire shot) s = .next t ∧ Refused .notFound s t) ∧
    ∀ r, s.stb.find n = some r →
      ((r.phase = .stored ∨ r.phase = .expired ∨ r.phase = .aborted ∨ r.phase = .discarded ∨ r.phase = .calibrated) →
        ∃ t, exec (.retire shot) s = .next t ∧
          t.stb = { s.stb.freeSlot n with records := (s.stb.freeSlot n).records.filter fun q => q.shot != n } ∧
          t.stb.find n = none ∧ (∀ i, r.slot = some i → i < s.stb.slots.length →
            t.stb.slotState i = .free ∧ i ∉ t.stb.retained) ∧
          Answered ⟨.done, le 4 r.shot ++ le 1 r.phase.code ++ [0xFF]⟩ s t ∧
          Mirrored s t ∧ OnlyChanges [.stb, .service] s t) ∧
      ((r.phase = .arming ∨ r.phase = .waiting ∨ r.phase = .exposing ∨ r.phase = .reading ∨ r.phase = .held ∨
          r.phase = .storing) → ∃ t, exec (.retire shot) s = .next t ∧ Refused .busy s t)

/-! ### Requests of the Profile Store and the Defect Map -/

/-- LOAD_PROFILE as it is taken (R72): refused with item 0, or the read of the 40 bytes of the fixed part begins. LOAD_DEFECTS
as it is taken (R116, R117, R119): while the mirror rewrite of a reset is in progress it waits, and nothing of it is judged;
else the refusals, or the read of the list's first eight entries. That the arguments are checked before the record in READING
is the model's choice (log 31), and so is telling the rewrite of a reset by the map sequence being 1 (log 41). -/
def Obligations.LoadsBegin : Prop :=
  (∀ (id : BitVec 8) (addr : BitVec 32) (s : State), Taken (.loadProfile id addr) s → s.prs.load = none →
     let a := addr.toNat
     let bad := 3 < id.toNat ∨ a % 8 ≠ 0 ∨ a < 0x3F020000 ∨ 0x40000000 < a + 40
     (bad → ∃ t, exec (.loadProfile id addr) s = .next t ∧ Answered ⟨.badRequest, [0]⟩ s t ∧
       OnlyChanges [.service] s t) ∧
     (¬ bad → ∃ t, exec (.loadProfile id addr) s = .next t ∧ t.prs.entries = s.prs.entries ∧
       t.prs.load = some ⟨id.toNat, a, [], none⟩ ∧ Presented .imageRead a 40 t ∧
       t.rqe.lastAnswer = s.rqe.lastAnswer ∧ OnlyChanges [.prs, .service] s t)) ∧
  (∀ (addr count : BitVec 32) (s : State), Taken (.loadDefects addr count) s → s.dfm.load = none →
     s.dfm.waiting = none → s.dfm.owed = none →
     let a := addr.toNat
     let n := count.toNat
     let bad := a < 0x3F020000 ∨ a % 8 ≠ 0 ∨ 0x40000000 < a + n * 8
     let reading := ∃ r ∈ s.stb.records, r.phase = .reading
     (s.dfm.rewrite ≠ none → s.dfm.sequence = 1 → ∃ t, exec (.loadDefects addr count) s = .next t ∧
       t.dfm = { s.dfm with waiting := some (.loadDefects addr count) } ∧ t.rqe.lastAnswer = s.rqe.lastAnswer ∧
       (∀ v, s.rqe.service = some v → t.rqe.service = some v) ∧ OnlyChanges [.dfm, .service] s t) ∧
     ((s.dfm.rewrite = none ∨ s.dfm.sequence ≠ 1) →
     (bad → ∃ t, exec (.loadDefects addr count) s = .next t ∧
       Answered ⟨.badRequest, [1, 0, 0, 0, 0, 0, 0, 0]⟩ s t ∧ OnlyChanges [.service] s t) ∧
     (¬ bad → 8192 < n → ∃ t, exec (.loadDefects addr count) s = .next t ∧
       Answered ⟨.badRequest, [2, 0, 0, 0, 0, 0, 0, 0]⟩ s t ∧ OnlyChanges [.service] s t) ∧
     (¬ bad → n ≤ 8192 → reading → ∃ t, exec (.loadDefects addr count) s = .next t ∧ Refused .busy s t) ∧
     (¬ bad → n ≤ 8192 → ¬ reading → ∃ t, exec (.loadDefects addr count) s = .next t ∧
       t.dfm = { s.dfm with load := some ⟨a, n, []⟩ } ∧ (0 < n → Presented .listRead a (8 * min 8 n) t) ∧
       t.rqe.lastAnswer = s.rqe.lastAnswer ∧ OnlyChanges [.dfm, .service] s t)))

/-- The reading of a profile image (R72 to R74), over clean codewords: of the fixed part, the first item out of its range
refuses the load by its number, an image that would pass the top of DRAM by item 0, else the tables are read in pieces of at
most 64 bytes; with the last piece the image stands as its bytes spell it. A codeword that is not usable refuses the load with
MEM_ERROR. That the fixed part is one read and the pieces cross the tables' bounds is the model's choice (log 47). The
judgement of a whole image (R75, R76): live at once when no record in ARMING, WAITING, EXPOSING or READING names its profile,
else waiting, in place of one that waited; the completion says which, with the three derived sizes; and what the sizes are. -/
def Obligations.ImageJudged : Prop :=
  (∀ (s : State) (x : Txn) (l : ProfileLoad), s.resetHeld = false → s.fmc.active = some x → x.kind = .imageRead →
     s.prs.load = some l → x.addr % 8 = 0 → x.len % 8 = 0 → 0 < x.len →
     let bytes := l.bytes ++ (List.range x.len).map fun k => s.mem.byte (x.addr + k)
     let u16 := fun o => field bytes o 2
     let u8 := fun o => field bytes o 1
     let spacing := fun n => decide (n = 64 ∨ n = 128 ∨ n = 256 ∨ n = 512 ∨ n = 1024)
     let items : List Bool :=
       [decide (16 ≤ u16 0 ∧ u16 0 ≤ 64 ∧ u16 0 % 2 = 0), decide (2 ≤ u16 2 ∧ u16 2 ≤ 12288 - u16 0 ∧ u16 2 % 2 = 0),
        decide (2 ≤ u16 4 ∧ u16 4 ≤ 9216 ∧ u16 4 % 2 = 0), decide (u8 6 ≤ 3), decide (u16 14 ≤ 16383),
        decide (u16 16 ≤ 4095), decide (u16 18 ≤ 1023), decide (1 ≤ u16 20 ∧ u16 20 ≤ 16383),
        decide (1 ≤ u16 22 ∧ u16 22 ≤ 16383), decide (u16 24 ≤ 500), decide (1 ≤ u16 26 ∧ u16 26 ≤ 100),
        decide (u16 28 ≤ 50), decide (u16 30 ≤ 50), decide (1 ≤ u16 32 ∧ u16 32 ≤ 10000), spacing (u16 10),
        spacing (u16 12), decide (2 ≤ u8 7 ∧ u8 7 ≤ 33), decide (2 ≤ u8 8 ∧ u8 8 ≤ 25)]
     let whole := 64 + 8 * u8 7 * u8 8
     let clean := ∀ k, k < x.len → k % 8 = 0 → (s.mem.check? (x.addr + k)).cls = .clean
     let freed := fun t : State => t.fmc.active = none ∧ t.fmc.passOver = s.fmc.passOver ∧
       t.fmc.nextPart = s.fmc.nextPart ∧ t.prs.entries = s.prs.entries
     let refused := fun item => ∃ t, exec .partReadComplete s = .next t ∧ freed t ∧ t.prs.load = none ∧
       t.rqe.lastAnswer = some ⟨.badRequest, le 1 item⟩ ∧ OnlyChanges [.port, .prs, .service] s t
     let goesOn := ∃ t, exec .partReadComplete s = .next t ∧ freed t ∧ t.prs.load = some { l with bytes := bytes } ∧
       Presented .imageRead (l.addr + bytes.length) (min 64 (whole - bytes.length)) t ∧ OnlyChanges [.port, .prs] s t
     (clean → l.bytes = [] → x.len = 40 → l.image = none →
       (∀ k, items[k]? = some false → (∀ j < k, items[j]? = some true) → refused (k + 1)) ∧
       ((∀ b ∈ items, b = true) → 0x40000000 < l.addr + whole → refused 0) ∧
       ((∀ b ∈ items, b = true) → l.addr + whole ≤ 0x40000000 → goesOn)) ∧
     (clean → 40 ≤ l.bytes.length → l.image = none → (bytes.length < whole → goesOn) ∧
       (bytes.length = whole → ∃ t, exec .partReadComplete s = .next t ∧ freed t ∧
         t.prs.load = some { l with bytes := bytes, image := some (imageOf bytes) } ∧ OnlyChanges [.port, .prs] s t)) ∧
     ((∃ k, k < x.len ∧ k % 8 = 0 ∧ ((s.mem.check? (x.addr + k)).cls = .poisoned ∨
         (s.mem.check? (x.addr + k)).cls = .uncorrectable)) →
       ∃ t, exec .partReadComplete s = .next t ∧ freed t ∧ t.prs.load = none ∧
         t.rqe.lastAnswer = some ⟨.memError, []⟩ ∧ Raised .memUncorrectable t ∧
         OnlyChanges [.port, .prs, .service, .errors, .stb, .corrected] s t)) ∧
  (∀ (s : State) (l : ProfileLoad) (p : Profile) (e : ProfileEntry), s.resetHeld = false → s.prs.load = some l →
     l.image = some p → s.prs.entries[l.id]? = some e →
     let used := ∃ r ∈ s.stb.records, r.profile = l.id ∧
       (r.phase = .arming ∨ r.phase = .waiting ∨ r.phase = .exposing ∨ r.phase = .reading)
     let judged := fun (waits : Byte) (t : State) => t.prs.load = none ∧ 1 ∈ t.rqe.marked ∧
       t.rqe.lastAnswer = some ⟨.done, [waits, if p.covered then 0 else 1] ++ le 2 p.minSlot ++ le 4 p.pitch ++
         le 4 p.frameBytes⟩ ∧
       (∀ k, k ≠ l.id → t.prs.entries[k]? = s.prs.entries[k]?) ∧ OnlyChanges [.prs, .service] s t
     (used → ∃ t, exec .profileImageJudged s = .next t ∧ judged 1 t ∧
       t.prs.entries[l.id]? = some { live := e.live, waiting := some p }) ∧
     (¬ used → ∃ t, exec .profileImageJudged s = .next t ∧ judged 0 t ∧
       t.prs.entries[l.id]? = some { live := some p, waiting := e.waiting })) ∧
  ∀ p : Profile, p.pitch % 64 = 0 ∧ (p.masked + p.width) * 2 ≤ p.pitch ∧ p.pitch < (p.masked + p.width) * 2 + 64 ∧
    p.frameBytes = p.pitch * p.lines ∧ p.frameBytes ≤ p.minSlot * 1048576 ∧
    (0 < p.minSlot → (p.minSlot - 1) * 1048576 < p.frameBytes)

/-- CLEAR_FOUND (R116, R120): while the mirror rewrite of a reset is in progress (told by the map sequence being 1, the model's
choice, log 41) it waits; else BUSY during a readout; and with no rewrite in progress nothing to remove, or the FOUND entries
go, the rewrite begins at the first of them, the sequence counts on, and the answer waits for the rewrite. -/
def Obligations.ClearFound : Prop :=
  ∀ s : State, Taken .clearFound s → s.dfm.load = none → s.dfm.waiting = none → s.dfm.owed = none →
    let reading := ∃ r ∈ s.stb.records, r.phase = .reading
    let old := s.dfm.entries
    let kept := old.filter fun e => !e.found
    (s.dfm.rewrite ≠ none → s.dfm.sequence = 1 → ∃ t, exec .clearFound s = .next t ∧
      t.dfm = { s.dfm with waiting := some .clearFound } ∧ t.rqe.lastAnswer = s.rqe.lastAnswer ∧
      (∀ v, s.rqe.service = some v → t.rqe.service = some v) ∧ OnlyChanges [.dfm, .service] s t) ∧
    ((s.dfm.rewrite = none ∨ s.dfm.sequence ≠ 1) → reading → ∃ t, exec .clearFound s = .next t ∧ Refused .busy s t) ∧
    (s.dfm.rewrite = none → ¬ reading → (∀ e ∈ old, e.found = false) → ∃ t, exec .clearFound s = .next t ∧
      Answered ⟨.done, le 2 0 ++ le 2 old.length⟩ s t ∧ OnlyChanges [.service] s t) ∧
    (s.dfm.rewrite = none → ¬ reading → ∀ (k : Nat) (e : DefectEntry), old[k]? = some e → e.found = true →
      (∀ j < k, ∀ x, old[j]? = some x → x.found = false) →
      ∃ t, exec .clearFound s = .next t ∧ t.dfm.entries = kept ∧ t.dfm.rewrite = some ⟨k, old.length⟩ ∧
        t.dfm.sequence = (s.dfm.sequence + 1) % 4294967296 ∧ t.dfm.drops = s.dfm.drops ∧
        t.dfm.owed = some ⟨.done, le 2 (old.length - kept.length) ++ le 2 kept.length⟩ ∧
        t.rqe.lastAnswer = s.rqe.lastAnswer ∧ OnlyChanges [.dfm, .service] s t)

/-- The reading of a defect list (R118, R119), over clean codewords, `defectOf` reading an entry whose fields are in range: the
entries that pass join those that have passed, in rising order of row and column and covered by no run before them, and the
next eight are asked for; the first that fails refuses the list with its reason and its index. A codeword that is not usable
refuses it with MEM_ERROR. The replacement of the map by a list that has passed whole (R119), while no rewrite is in progress:
BUSY during a readout; nothing to rewrite when the list equals the map; or the new map, its rewrite from the first position
that differs, and the answer that waits for it. -/
def Obligations.MapReplaced : Prop :=
  (∀ (s : State) (x : Txn) (l : DefectLoad) (m : Nat) (es : List DefectEntry), s.resetHeld = false →
     s.fmc.active = some x → x.kind = .listRead → s.dfm.load = some l → x.addr % 8 = 0 → x.len = 8 * m → 1 ≤ m →
     let entry := fun k => defectOf ((List.range 8).map fun b => s.mem.byte (x.addr + 8 * k + b))
     let before := fun a b : DefectEntry => a.row < b.row ∨ a.row = b.row ∧ a.column < b.column
     let covered := fun (passed : List DefectEntry) (e : DefectEntry) => ∃ q n, q ∈ passed ∧ q.length = some n ∧
       q.column = e.column ∧ q.row ≤ e.row ∧ e.row < q.row + n
     let after := fun (passed : List DefectEntry) (e : DefectEntry) => ∀ q, passed.getLast? = some q → before q e
     let freed := fun t : State => t.fmc.active = none ∧ t.fmc.passOver = s.fmc.passOver ∧
       t.fmc.nextPart = s.fmc.nextPart
     let passed := l.passed ++ es
     (∀ k, k < m → (s.mem.check? (x.addr + 8 * k)).cls = .clean) →
     (∀ k e, es[k]? = some e → entry k = some e ∧ after (l.passed ++ es.take k) e ∧ ¬ covered (l.passed ++ es.take k) e) →
     (es.length = m → ∃ t, exec .partReadComplete s = .next t ∧ freed t ∧
       t.dfm = { s.dfm with load := some { l with passed := passed } } ∧
       (passed.length < l.count → Presented .listRead (l.addr + 8 * passed.length) (8 * min 8 (l.count - passed.length)) t) ∧
       t.rqe.lastAnswer = s.rqe.lastAnswer ∧ OnlyChanges [.port, .dfm] s t) ∧
     (es.length < m →
       let refused := fun reason => ∃ t, exec .partReadComplete s = .next t ∧ freed t ∧
         t.dfm = { s.dfm with load := none } ∧
         t.rqe.lastAnswer = some ⟨.badRequest, [reason, 0, 0, 0] ++ le 4 passed.length⟩ ∧
         OnlyChanges [.port, .dfm, .service] s t
       (entry es.length = none → refused 3) ∧
       ∀ e, entry es.length = some e →
         (∀ q, passed.getLast? = some q → before e q → refused 4) ∧
         ((∃ q, passed.getLast? = some q ∧ q.row = e.row ∧ q.column = e.column) ∨ after passed e ∧ covered passed e →
           refused 5))) ∧
  (∀ (s : State) (x : Txn) (l : DefectLoad), s.resetHeld = false → s.fmc.active = some x → x.kind = .listRead →
     s.dfm.load = some l → x.addr % 8 = 0 →
     (∃ k, k < x.len ∧ k % 8 = 0 ∧ ((s.mem.check? (x.addr + k)).cls = .poisoned ∨
       (s.mem.check? (x.addr + k)).cls = .uncorrectable)) →
     ∃ t, exec .partReadComplete s = .next t ∧ t.dfm = { s.dfm with load := none } ∧
       t.rqe.lastAnswer = some ⟨.memError, []⟩ ∧ Raised .memUncorrectable t ∧
       OnlyChanges [.port, .dfm, .service, .errors, .stb, .corrected] s t) ∧
  ∀ (s : State) (l : DefectLoad), s.resetHeld = false → s.dfm.load = some l → l.passed.length = l.count →
    s.dfm.rewrite = none →
    let reading := ∃ r ∈ s.stb.records, r.phase = .reading
    let found := l.passed.countP (·.found)
    (reading → ∃ t, exec .defectListReplace s = .next t ∧ t.dfm = { s.dfm with load := none } ∧
      t.rqe.lastAnswer = some ⟨.busy, []⟩ ∧ OnlyChanges [.dfm, .service] s t) ∧
    (¬ reading → l.passed = s.dfm.entries → ∃ t, exec .defectListReplace s = .next t ∧
      t.dfm = { s.dfm with load := none } ∧ t.rqe.lastAnswer = some ⟨.done, le 2 l.count ++ le 2 found⟩ ∧
      OnlyChanges [.dfm, .service] s t) ∧
    (¬ reading → l.passed ≠ s.dfm.entries → ∃ t, exec .defectListReplace s = .next t ∧ t.dfm.load = none ∧
      t.dfm.entries = l.passed ∧ t.dfm.sequence = (s.dfm.sequence + 1) % 4294967296 ∧ t.dfm.drops = s.dfm.drops ∧
      (∃ k, t.dfm.rewrite = some ⟨k, max s.dfm.entries.length l.count⟩ ∧
        (∀ j < k, l.passed[j]? = s.dfm.entries[j]?) ∧ l.passed[k]? ≠ s.dfm.entries[k]?) ∧
      t.dfm.owed = some ⟨.done, le 2 l.count ++ le 2 found⟩ ∧ t.rqe.lastAnswer = s.rqe.lastAnswer ∧
      OnlyChanges [.dfm] s t)

/-- The end of a mirror rewrite whose every position is written (R115, R116, R119, R120, R126): the sequence counts on and
piece 5 is marked; the answer owed waits for the write of that piece, which shows the even sequence. A LOAD_DEFECTS or
CLEAR_FOUND that waited for the rewrite is served now: refused, its list read, or the FOUND entries removed. A calibration
readout that waited for the rewrite is over: its record is CALIBRATED and its slot FREE. That the arguments of LOAD_DEFECTS are
checked before the record in READING is the model's choice (log 31). -/
def Obligations.RewriteDone : Prop :=
  ∀ (s : State) (r : MapRewrite), s.resetHeld = false → s.dfm.rewrite = some r → r.stop ≤ r.next →
    (∀ x ∈ s.fmc.pending, x.kind ≠ .mapWrite) → (∀ x, s.fmc.active = some x → x.kind ≠ .mapWrite) →
    let evened := { s.dfm with rewrite := none, sequence := (s.dfm.sequence + 1) % 4294967296 }
    let rewritten := fun t : State => t.dfm.rewrite = none ∧ t.dfm.entries = s.dfm.entries ∧
      t.dfm.sequence = evened.sequence ∧ t.dfm.owed = none ∧ 5 ∈ t.rqe.marked ∧
      (∀ a, s.dfm.owed = some a → t.rqe.service = s.rqe.service.map fun v => { v with stage := .answering a ⟨0, [5], false⟩ }) ∧
      (s.dfm.owed = none → t.rqe.service = s.rqe.service) ∧ t.rqe.lastAnswer = s.rqe.lastAnswer
    let quiet := ∀ o, s.pce.readout = some o → o.ending = none
    (s.dfm.waiting = none → quiet →
      ∃ t, exec .defectMirrorRewriteDone s = .next t ∧ rewritten t ∧ OnlyChanges [.dfm, .service] s t) ∧
    (s.dfm.waiting = none → ∀ o q i inc, s.pce.readout = some o → o.ending = some inc → s.stb.find o.shot = some q →
      q.phase = .reading → q.slot = some i → i < s.stb.slots.length → q.flags.darkCal = true →
      (∀ e, s.prs.entries[q.profile]? = some e → e.waiting = none) →
      ∃ t, exec .defectMirrorRewriteDone s = .next t ∧ rewritten t ∧ t.pce = ⟨none, none⟩ ∧
        t.stb.find o.shot = some { q with phase := .calibrated, slot := none } ∧ t.stb.slotState i = .free ∧
        (∀ n, n ≠ o.shot → t.stb.find n = s.stb.find n) ∧ OnlyChanges [.dfm, .service, .stb, .pce] s t) ∧
    (s.dfm.owed = none → s.dfm.load = none → quiet →
      let base := { evened with waiting := none }
      let reading := ∃ r ∈ s.stb.records, r.phase = .reading
      let answers := fun ans => ∃ t, exec .defectMirrorRewriteDone s = .next t ∧ t.dfm = base ∧ 5 ∈ t.rqe.marked ∧
        Answered ans s t ∧ OnlyChanges [.dfm, .service] s t
      let goesOn := fun d p => ∃ t, exec .defectMirrorRewriteDone s = .next t ∧ t.dfm = d ∧ 5 ∈ t.rqe.marked ∧ p t ∧
        OnlyChanges [.dfm] s t
      (∀ addr count, s.dfm.waiting = some (.loadDefects addr count) →
        let a := addr.toNat
        let n := count.toNat
        let bad := a < 0x3F020000 ∨ a % 8 ≠ 0 ∨ 0x40000000 < a + n * 8
        (bad → answers ⟨.badRequest, [1, 0, 0, 0, 0, 0, 0, 0]⟩) ∧
        (¬ bad → 8192 < n → answers ⟨.badRequest, [2, 0, 0, 0, 0, 0, 0, 0]⟩) ∧
        (¬ bad → n ≤ 8192 → reading → answers ⟨.busy, []⟩) ∧
        (¬ bad → n ≤ 8192 → ¬ reading → goesOn { base with load := some ⟨a, n, []⟩ } fun t =>
          0 < n → Presented .listRead a (8 * min 8 n) t)) ∧
      (s.dfm.waiting = some .clearFound →
        let old := s.dfm.entries
        let kept := old.filter fun e => !e.found
        (reading → answers ⟨.busy, []⟩) ∧
        (¬ reading → (∀ e ∈ old, e.found = false) → answers ⟨.done, le 2 0 ++ le 2 old.length⟩) ∧
        (¬ reading → ∀ (k : Nat) (e : DefectEntry), old[k]? = some e → e.found = true →
          (∀ j < k, ∀ x, old[j]? = some x → x.found = false) →
          goesOn { base with entries := kept, rewrite := some ⟨k, old.length⟩, sequence := (s.dfm.sequence + 2) % 4294967296, owed := some ⟨.done, le 2 (old.length - kept.length) ++ le 2 kept.length⟩ } fun _ => True)))

/-! ### Requests of the Exposure Sequencer -/

/-- An ARM refused (R26): the arguments, then the six checks in order, the first that fails giving the code; nothing
changes. -/
def Obligations.ArmRefused : Prop :=
  ∀ (profile mode : BitVec 8) (keep darkCal : Bool) (debounce waitLimit duration timestamp : BitVec 32) (s : State),
    let q := Request.arm profile mode keep darkCal debounce waitLimit duration timestamp
    let c := Instr.arm profile mode keep darkCal debounce waitLimit duration timestamp
    Taken q s →
    let refused := fun code => ∃ t, exec c s = .next t ∧ Refused code s t
    let running := ∃ r ∈ s.stb.records,
      r.phase = .arming ∨ r.phase = .waiting ∨ r.phase = .exposing ∨ r.phase = .reading
    let hot := s.amn.tempValid = true ∧ s.amn.tempLevel = .limit
    let low := s.amn.battValid = true ∧ (s.amn.battLevel = .low ∨ s.amn.battLevel = .critical)
    let noSlot := (∀ i < s.stb.count, s.stb.slotState i ≠ .free) ∧
      ∀ i ∈ s.stb.retained, ∀ r, s.stb.holder i = some r → r.flags.keep = true
    (3 < profile.toNat ∨ 2 < mode.toNat → refused .badRequest) ∧
    (profile.toNat ≤ 3 → mode.toNat ≤ 2 → running → refused .busy) ∧
    (profile.toNat ≤ 3 → mode.toNat ≤ 2 → ¬ running → s.prs.live profile.toNat = none → refused .noProfile) ∧
    ∀ p, profile.toNat ≤ 3 → mode.toNat ≤ 2 → ¬ running → s.prs.live profile.toNat = some p →
      (s.stb.slotSize * 1048576 < p.frameBytes → refused .slotTooSmall) ∧
      (p.frameBytes ≤ s.stb.slotSize * 1048576 → hot → refused .tooHot) ∧
      (p.frameBytes ≤ s.stb.slotSize * 1048576 → ¬ hot → low → refused .lowBattery) ∧
      (p.frameBytes ≤ s.stb.slotSize * 1048576 → ¬ hot → ¬ low → noSlot → refused .noSlot)

/-- An ARM accepted (R27, R28): the record, the slot, the shot number, QUIETING with its quiet wait, the debounce, the
clamped arguments, the answer. The slot is the lowest FREE one, or, with none FREE, the oldest RETAINED one whose record
lacks KEEP, which loses it (R14, R15); a full table first loses its oldest final record (R16). With QUIET_ACK asserted
already, or with a quiet wait of 0, FLUSHING begins at once (R29). The record takes the lowest empty position of the table
(R9) and the next shot number, which no record bears (R17). A card run is asked to stop, and one whose command waits ends
STOPPED, whereupon its user asks for its next run: so R174 has it of a retry's command, and of a first command it is the
model's reading (log 34). A run of samples at SYNC_IN that is long enough for the new debounce is accepted now (R35; the
model's reading, log 33). -/
def Obligations.ArmAccepted : Prop :=
  ∀ (profile mode : BitVec 8) (keep darkCal : Bool) (debounce waitLimit duration timestamp : BitVec 32) (s : State)
    (m : ShotMode) (p : Profile) (i : Nat) (T U : Stb),
    Taken (.arm profile mode keep darkCal debounce waitLimit duration timestamp) s → profile.toNat ≤ 3 →
    (mode.toNat = 0 ∧ m = .span ∨ mode.toNat = 1 ∧ m = .window ∨ mode.toNat = 2 ∧ m = .timed) →
    (∀ r ∈ s.stb.records, r.phase ≠ .arming ∧ r.phase ≠ .waiting ∧ r.phase ≠ .exposing ∧ r.phase ≠ .reading) →
    (∀ r ∈ s.stb.records, r.shot ≠ s.stb.nextShot) → s.prs.live profile.toNat = some p → p.frameBytes ≤ s.stb.slotSize * 1048576 →
    ¬ (s.amn.tempValid = true ∧ s.amn.tempLevel = .limit) → (s.amn.battValid = true → s.amn.battLevel = .normal) →
    (i < s.stb.count ∧ s.stb.slotState i = .free ∧ (∀ j < i, s.stb.slotState j ≠ .free) ∧
        (∀ r ∈ s.stb.records, r.slot ≠ some i) ∧ T = s.stb ∨
      (∀ j < s.stb.count, s.stb.slotState j ≠ .free) ∧ ∃ before after q, s.stb.retained = before ++ i :: after ∧
        (∀ j ∈ before, ∀ r, s.stb.holder j = some r → r.flags.keep = true) ∧ s.stb.holder i = some q ∧
        q.flags.keep = false ∧ T = s.stb.freeSlot q.shot) →
    (T.records.length < 16 ∧ U = T ∨
      16 ≤ T.records.length ∧ ∃ before v after, T.records = before ++ v :: after ∧
        (∀ r ∈ before, r.phase = .held ∨ r.phase = .storing) ∧
        (v.phase = .stored ∨ v.phase = .expired ∨ v.phase = .aborted ∨ v.phase = .discarded ∨ v.phase = .calibrated) ∧
        U = { T.freeSlot v.shot with records := (T.freeSlot v.shot).records.filter fun r => r.shot != v.shot }) →
    let d := if debounce.toNat = 0 then 100 else max 20 (min 5000 (debounce.toNat / 10 * 10))
    let w := max 1 (min 3600 waitLimit.toNat)
    let l := max 1 (min 3600000 duration.toNat)
    let judged := s.exs.sync.run.any fun v => decide (d / 10 ≤ v.length)
    let late := s.exs.sync.run.any fun v => decide (d / 10 ≤ v.length) && v.closed
    let sync : SyncFilter := ⟨if judged then late else s.exs.sync.closed, if judged then none else s.exs.sync.run, d / 10⟩
    let missed := if late then min 4294967295 (s.exs.missed + 1) else s.exs.missed
    let flushes := s.pins.quietAck || decide (p.quietWait = 0)
    let time := if flushes then p.flushTime else p.quietWait
    let asks := fun (c : Cde) (u : RunUser) (write : Bool) (start count : Nat) =>
      { c with busTimer := none, block := [], run := some ⟨u, write, start, count, 0, 0, 0, 0, false, .waiting⟩ }
    let again := fun (v : Run) (d : Cde) => match v.user with
      | .read => ∃ q, s.cde.serving = some q ∧ q.done < q.count ∧
          d = asks s.cde .read false (q.block + q.done) (min q.count ((q.done / 256 + 1) * 256) - q.done)
      | .format => d = asks s.cde .format true 0 1
      | .mount => s.cde.parkAsked = false ∧ ∃ c, s.cde.mount = some c ∧ match c.stage with
          | .logHeader => d = asks s.cde .mount false 0 1
          | .container => d = asks s.cde .mount false c.geometry.nextFree 1
          | .commit h => d = asks s.cde .mount false (c.geometry.nextFree + h.blocks + 1) 1
          | .rewrite => d = asks s.cde .mount true 0 1
      | .drain => ∃ c, s.cde.container = some c ∧ c.park = false ∧
          let k := c.done + v.done
          match c.stage with
          | .summing => False
          | .header => d = asks { s.cde with container := some { c with done := k } } .drain true c.start 1
          | .data => 1 ≤ k ∧ k ≤ c.blocks ∧ d = asks { s.cde with container := some { c with done := k } } .drain true (c.start + k) (min c.blocks (((k - 1) / 256 + 1) * 256) - (k - 1))
          | .commit => d = asks s.cde .drain true (c.start + c.blocks + 1) 1
          | .logUpdate => d = asks s.cde .drain true 0 1
    ∀ stopped : Cde, (match s.cde.run with
      | none => stopped = s.cde
      | some v => (v.stage = .waiting → again v stopped) ∧
          (v.stage ≠ .waiting → stopped = { s.cde with run := some { v with stop := true } })) →
    ∃ (t : State) (r : ShotRecord) (e : Exposure), exec (.arm profile mode keep darkCal debounce waitLimit duration timestamp) s = .next t ∧
      t.stb.records = U.records ++ [r] ∧
      (∀ k < 16, (∀ q ∈ U.records, q.entry ≠ k) → (∀ j < k, ∃ q ∈ U.records, q.entry = j) → r.entry = k) ∧
      (r.shot = s.stb.nextShot ∧ r.phase = .arming ∧ r.slot = some i ∧ r.profile = profile.toNat ∧ r.mode = m ∧
        r.flags = { keep := keep, darkCal := darkCal, quietMissed := !s.pins.quietAck && decide (p.quietWait = 0) } ∧
        r.timestamp = timestamp.toNat ∧ r.integration = none ∧
        r.exposure = none ∧ r.source = none ∧ r.tempStart = none ∧ r.tempEnd = none ∧
        r.battery = (if s.amn.battValid then s.amn.batt else none) ∧ r.dark = 0 ∧ r.rejected = 0 ∧ r.early = 0 ∧
        r.violations = 0 ∧ r.missed = 0 ∧ r.stats = {} ∧ r.corrected = 0 ∧ r.uncorrectable = 0 ∧
        r.containerStart = none ∧ r.containerLen = none ∧ r.store = .none) ∧
      t.stb.slots = U.slots.set i .armed ∧ t.stb.retained = U.retained ∧ t.stb.slotSize = s.stb.slotSize ∧
      t.stb.nextShot = (if s.stb.nextShot = 4294967295 then 1 else s.stb.nextShot + 1) ∧
      t.exs.current = some e ∧
      (e.shot = s.stb.nextShot ∧ e.profile = profile.toNat ∧ e.mode = m ∧ e.debounce = d ∧ e.waitLimit = w ∧
        e.duration = l ∧ e.closedBefore = sync.closed) ∧
      t.exs = { s.exs with seq := if flushes then .flush else .quieting, quietReq := true, snsFlush := flushes, snsInteg := false, readyOut := false, timer := some (1000 * time), current := some e, sync := sync, missed := missed } ∧
      (late = true → Raised .missedSync t) ∧ t.cde = stopped ∧ Mirrored s t ∧
      Answered ⟨.started, le 4 s.stb.nextShot ++ le 1 i ++ [0, 0, 0] ++ le 4 d ++ le 4 w ++ le 4 l⟩ s t ∧
      OnlyChanges [.stb, .exs, .cde, .service] s t

/-- ABORT before the exposure has opened (R46), and the wait limit running out (R45): every line is released, the record moves
to ABORTED or EXPIRED and loses its slot, the sequencer is IDLE; an image that waited for the profile becomes live, with
PROFILE_APPLIED (R51, R78). -/
def Obligations.ShotLeftBeforeExposure : Prop :=
  ∀ (s : State) (e : Exposure) (r : ShotRecord) (i : Nat), Quiescent s → s.exs.current = some e →
    s.stb.find e.shot = some r → r.slot = some i →
    let none? := ∀ x, s.prs.entries[e.profile]? = some x → x.waiting = none
    let applied := fun (t : State) (p : Profile) => t.prs.entries = s.prs.entries.set e.profile ⟨some p, none⟩ ∧
      t.prs.load = s.prs.load ∧ 1 ∈ t.rqe.marked ∧ Raised .profileApplied t
    (Taken .abort s → ((s.exs.seq = .quieting ∨ s.exs.seq = .flush ∨ s.exs.seq = .settle) ∧ r.phase = .arming ∨
        s.exs.seq = .waiting ∧ r.phase = .waiting) →
      let left := fun t : State => t.stb = s.stb.move e.shot .aborted ∧ t.exs = idled s.exs ∧
        Answered ⟨.done, le 4 e.shot ++ [8]⟩ s t
      (none? → ∃ t, exec .abort s = .next t ∧ left t ∧ OnlyChanges [.stb, .exs, .service] s t) ∧
      ∀ x p, s.prs.entries[e.profile]? = some x → x.waiting = some p → ∃ t, exec .abort s = .next t ∧ left t ∧
        applied t p ∧ OnlyChanges [.stb, .exs, .prs, .service] s t) ∧
    (s.resetHeld = false → s.exs.seq = .waiting → r.phase = .waiting → e.mode ≠ .timed →
      let left := fun t : State => t.stb = s.stb.move e.shot .expired ∧ t.exs = idled s.exs ∧ Raised .expired t
      (none? → ∃ t, exec .waitLimitExpiry s = .next t ∧ left t ∧ OnlyChanges [.stb, .exs] s t) ∧
      ∀ x p, s.prs.entries[e.profile]? = some x → x.waiting = some p → ∃ t, exec .waitLimitExpiry s = .next t ∧
        left t ∧ applied t p ∧ OnlyChanges [.stb, .exs, .prs] s t)

/-- The ends of integration by the limit, the window, the TIMED duration and the tail (R40 to R43, R48, R49). That an
exposure time is never more than the integration time is taken from R49's sentence (log 15). -/
def Obligations.IntegrationEnds : Prop :=
  ∀ (s : State) (e : Exposure) (r : ShotRecord) (i : Nat) (p : Profile), Running e r i p s →
    let whole := span s.exs.timeBase e.entry
    let window := max (100 * e.duration) (span e.accepted e.start)
    (s.exs.seq = .opened → e.mode = .span → r.phase = .exposing →
      ∃ t, exec .exposureLimitExpiry s = .next t ∧
        Ended e i p .limit (min whole window) { r.flags with limited := true } s t ∧
        OnlyChanges [.stb, .exs, .pce, .dfm, .monitor] s t) ∧
    (s.exs.seq = .opened → e.mode = .window → r.phase = .exposing →
      ∃ t, exec .windowEnd s = .next t ∧
        (if e.early then Ended e i p .early (min whole (100 * e.duration)) r.flags s t
         else Ended e i p .window (min whole window) r.flags s t) ∧
        OnlyChanges [.stb, .exs, .pce, .dfm, .monitor] s t) ∧
    (s.exs.seq = .waiting → e.mode = .timed → r.phase = .waiting →
      ∃ t, exec .timedDurationExpiry s = .next t ∧ Ended e i p .timed whole r.flags s t ∧
        OnlyChanges [.stb, .exs, .pce, .dfm, .monitor] s t) ∧
    (s.exs.seq = .tail → e.mode = .span → r.phase = .exposing →
      span s.exs.timeBase e.stop ≤ span s.exs.timeBase e.start →
      ∃ t, exec .tailTimeExpiry s = .next t ∧
        Ended e i p (if e.early then .early else .syncSpan) (min whole (span e.stop e.start)) r.flags s t ∧
        OnlyChanges [.stb, .exs, .pce, .dfm, .monitor] s t)

/-- ABORT with the sequencer IDLE (R46): BUSY during a readout, else NOT_FOUND. ABORT in OPEN or TAIL (R46, R49): integration
ends at once with source ABORT; in OPEN the exposure ends at the moment ABORT is taken, in TAIL at the release. That a release
before the exposure's start gives an exposure time of 0, and that it is never more than the integration time, is log 15. -/
def Obligations.AbortInIdleAndOpen : Prop :=
  (∀ s : State, Taken .abort s → s.exs.seq = .idle →
     ((∃ r ∈ s.stb.records, r.phase = .reading) → ∃ t, exec .abort s = .next t ∧ Refused .busy s t) ∧
     ((¬ ∃ r ∈ s.stb.records, r.phase = .reading) → ∃ t, exec .abort s = .next t ∧ Refused .notFound s t)) ∧
  ∀ (s : State) (e : Exposure) (r : ShotRecord) (i : Nat) (p : Profile), Running e r i p s → Taken .abort s →
    r.phase = .exposing →
    let whole := span s.exs.timeBase e.entry
    let ended := fun time => ∃ t, exec .abort s = .next t ∧
      Ended e i p .abort (min whole time) { r.flags with abortedOpen := true } s t ∧
      Answered ⟨.done, le 4 e.shot ++ [3]⟩ s t ∧ OnlyChanges [.stb, .exs, .pce, .dfm, .monitor, .service] s t
    (s.exs.seq = .opened → ended (span s.exs.timeBase e.start)) ∧
    (s.exs.seq = .tail → ended (if span s.exs.timeBase e.start < span s.exs.timeBase e.stop then 0 else span e.stop e.start))

/-- The quiet handshake (R29, R30, R32): QUIET_ACK rising in QUIETING begins FLUSHING, and does nothing more in any other
state, with a shot or without; falling while both are asserted marks the record QUIET_BROKEN, and does nothing more
otherwise; the quiet wait running out begins FLUSHING with QUIET_MISSED. -/
def Obligations.QuietHandshake : Prop :=
  ∀ s : State, s.resetHeld = false →
    (s.exs.seq ≠ .quieting → ∃ t, exec .quietAckRise s = .next t ∧ t.pins = { s.pins with quietAck := true } ∧
      OnlyChanges [.pins] s t) ∧
    (s.exs.quietReq = false ∨ s.pins.quietAck = false → ∃ t, exec .quietAckFall s = .next t ∧
      t.pins = { s.pins with quietAck := false } ∧ OnlyChanges [.pins] s t) ∧
    ∀ (e : Exposure) (r : ShotRecord) (p : Profile), s.exs.current = some e → s.stb.find e.shot = some r →
      s.prs.live e.profile = some p →
      let flushing := { s.exs with seq := .flush, quietReq := true, snsFlush := true, snsInteg := false, readyOut := false, timer := some (1000 * p.flushTime) }
      let flag := fun (f : RecordFlags → RecordFlags) => s.stb.update e.shot fun r => { r with flags := f r.flags }
      (s.exs.seq = .quieting → ∃ t, exec .quietAckRise s = .next t ∧ t.exs = flushing ∧
        t.pins = { s.pins with quietAck := true } ∧ OnlyChanges [.exs, .pins] s t) ∧
      (s.exs.quietReq = true → s.pins.quietAck = true → ∃ t, exec .quietAckFall s = .next t ∧
        t.stb = flag (fun f => { f with quietBroken := true }) ∧ t.pins = { s.pins with quietAck := false } ∧
        OnlyChanges [.stb, .pins] s t) ∧
      (s.exs.seq = .quieting → ∃ t, exec .quietWaitExpiry s = .next t ∧ t.exs = flushing ∧
        t.stb = flag (fun f => { f with quietMissed := true }) ∧ OnlyChanges [.stb, .exs] s t)

/-- Flush, settle and the entry to WAITING (R33, R34, R39, R43, R148, R156), the entry at the end of the settle time, or with a
settle time of 0 at the end of the flush time: a shot that waits for a closure; a TIMED shot; a shot that finds the contact
closed and starts early, the closure counted as early now if it was accepted before the ARM. The start temperature is asked for
in the place of a request of that purpose that waits; the record gets TEMP_WARN at a TEMP level above NORMAL. -/
def Obligations.FlushSettleWait : Prop :=
  ∀ (s : State) (e : Exposure) (r : ShotRecord) (p : Profile), s.resetHeld = false → s.exs.current = some e →
    s.stb.find e.shot = some r → s.prs.live e.profile = some p →
    (s.exs.seq = .flush → 0 < p.settleTime → ∃ t, exec .flushTimeExpiry s = .next t ∧
      t.exs = { s.exs with seq := .settle, quietReq := true, snsFlush := false, snsInteg := false, readyOut := false, timer := some (1000 * p.settleTime) } ∧
      OnlyChanges [.exs] s t) ∧
    ∀ i : Instr, (s.exs.seq = .flush ∧ p.settleTime = 0 ∧ i = .flushTimeExpiry ∨
        s.exs.seq = .settle ∧ i = .settleTimeExpiry) →
      let e' := { e with entry := s.exs.timeBase, start := s.exs.timeBase }
      let moved := s.stb.move e.shot .waiting
      let entered := if s.amn.tempLevel = .normal then moved else { moved with records := moved.records.map fun q => if q.phase = .waiting ∨ q.phase = .exposing then { q with flags := { q.flags with tempWarn := true } } else q }
      let counted := if e.closedBefore then entered.update e.shot fun q =>
        { q with early := min 255 (q.early + 1), flags := { q.flags with earlySync := true } } else entered
      let enters := fun (x : Exs) (st : Stb) => ∃ t, exec i s = .next t ∧ t.exs = x ∧ t.stb = st ∧
        t.amn.queue = queuedFor (.tempStart e.shot) s.amn.queue ∧ OnlyChanges [.exs, .stb, .monitor] s t
      let waits := fun us => { s.exs with seq := .waiting, quietReq := true, snsFlush := false, snsInteg := true, readyOut := true, timer := some us, current := some e' }
      (e.mode ≠ .timed → s.exs.sync.closed = false → enters (waits (1000000 * e.waitLimit)) entered) ∧
      (e.mode = .timed → enters (waits (1000 * e.duration)) entered) ∧
      (e.mode ≠ .timed → s.exs.sync.closed = true → 0 < e.duration →
        enters { s.exs with seq := .opened, quietReq := true, snsFlush := false, snsInteg := true, readyOut := false, timer := some (1000 * e.duration), current := some { e' with accepted := s.exs.timeBase, early := true } } (counted.move e.shot .exposing))

/-- A closure accepted while the accepted state is OPEN (R35, R38 to R44), by the sequencer's state; the exposure it starts
has not already run its duration. -/
def Obligations.ClosureAccepted : Prop :=
  ∀ (first : BitVec 32) (s : State), s.resetHeld = false → s.exs.sync.closed = false →
    let sync := { s.exs.sync with closed := true, run := none }
    let pins := { s.pins with syncClosed := true }
    let missed := fun t : State => t.exs = { s.exs with sync := sync, missed := min 4294967295 (s.exs.missed + 1) } ∧
      t.stb.records = (s.stb.records.map fun r =>
        if r.phase = .reading then { r with missed := min 255 (r.missed + 1) } else r) ∧
      t.pins = pins ∧ Raised .missedSync t ∧ OnlyChanges [.exs, .stb, .pins] s t
    (s.exs.seq = .idle → s.hmp.path = .run → ∃ t, exec (.syncClosureAccepted first) s = .next t ∧ missed t) ∧
    ((s.exs.seq = .opened ∨ s.exs.seq = .tail) → ∃ t, exec (.syncClosureAccepted first) s = .next t ∧
      t.exs = { s.exs with sync := sync } ∧ t.pins = pins ∧ OnlyChanges [.exs, .pins] s t) ∧
    ∀ e, s.exs.current = some e →
      ((s.exs.seq = .quieting ∨ s.exs.seq = .flush ∨ s.exs.seq = .settle) →
        ∃ t, exec (.syncClosureAccepted first) s = .next t ∧ t.exs = { s.exs with sync := sync } ∧
          t.stb = (s.stb.update e.shot fun r =>
            { r with early := min 255 (r.early + 1), flags := { r.flags with earlySync := true } }) ∧
          t.pins = pins ∧ OnlyChanges [.exs, .stb, .pins] s t) ∧
      (s.exs.seq = .waiting → e.mode = .timed → ∃ t, exec (.syncClosureAccepted first) s = .next t ∧ missed t) ∧
      (s.exs.seq = .waiting → e.mode ≠ .timed →
        let now := s.exs.timeBase
        let start := if span now first.toNat ≤ span now e.entry then first.toNat else e.entry
        10 * span now start < 1000 * e.duration →
        ∃ t, exec (.syncClosureAccepted first) s = .next t ∧
          t.exs = { s.exs with seq := .opened, quietReq := true, snsFlush := false, snsInteg := true, readyOut := false, timer := some (1000 * e.duration - 10 * span now start), current := some { e with start := start, accepted := now, early := false }, sync := sync } ∧
          t.stb = s.stb.move e.shot .exposing ∧ t.pins = pins ∧ OnlyChanges [.exs, .stb, .pins] s t)

/-- A release accepted while the accepted state is CLOSED (R36, R40, R44): in OPEN in SPAN it begins the tail, or with a tail
time of 0 ends integration at once (R48, R49); anywhere else it changes the filter's accepted state alone. A shot armed on a
closed contact is no longer so (R39). That a release before the exposure's start gives an exposure time of 0, and that it is
never more than the integration time, is log 15. -/
def Obligations.ReleaseAccepted : Prop :=
  ∀ (first : BitVec 32) (s : State), s.resetHeld = false → s.exs.sync.closed = true →
    let sync := { s.exs.sync with closed := false, run := none }
    let pins := { s.pins with syncClosed := false }
    let opened := s.exs.current.map fun e => { e with closedBefore := false }
    (∀ e p, s.exs.seq = .opened → s.exs.current = some e → e.mode = .span → s.prs.live e.profile = some p →
      0 < p.tailTime → ∃ t, exec (.syncReleaseAccepted first) s = .next t ∧
        t.exs = { s.exs with seq := .tail, quietReq := true, snsFlush := false, snsInteg := true, readyOut := false, timer := some (1000 * p.tailTime), current := some { e with closedBefore := false, stop := first.toNat }, sync := sync } ∧
        t.pins = pins ∧ OnlyChanges [.exs, .pins] s t) ∧
    (∀ (e : Exposure) (r : ShotRecord) (i : Nat) (p : Profile),
      let filtered := { s with exs := { s.exs with sync := sync } }
      Running e r i p filtered → s.exs.seq = .opened → e.mode = .span → r.phase = .exposing → p.tailTime = 0 →
      let now := s.exs.timeBase
      let time := if span now e.start < span now first.toNat then 0 else span first.toNat e.start
      ∃ t, exec (.syncReleaseAccepted first) s = .next t ∧
        Ended e i p (if e.early then .early else .syncSpan) (min (span now e.entry) time) r.flags filtered t ∧
        t.pins = pins ∧ OnlyChanges [.pins, .stb, .exs, .pce, .dfm, .monitor] s t) ∧
    ((s.exs.seq ≠ .opened ∨ ∀ e, s.exs.current = some e → e.mode ≠ .span) →
      ∃ t, exec (.syncReleaseAccepted first) s = .next t ∧ t.exs = { s.exs with sync := sync, current := opened } ∧
        t.pins = pins ∧ OnlyChanges [.exs, .pins] s t)

/-- A closed run that ends below the debounce (R37), and the end of the SNS_READ pulse (R24). -/
def Obligations.RejectedPulseAndReadPulse : Prop :=
  ∀ s : State, s.resetHeld = false →
    (s.exs.sync.closed = false → ∃ t, exec .syncRejectedPulse s = .next t ∧
      t.exs = { s.exs with sync := { s.exs.sync with run := none } } ∧
      t.stb.records = (s.stb.records.map fun r =>
        if r.phase = .arming ∨ r.phase = .waiting ∨ r.phase = .exposing then
          { r with rejected := min 255 (r.rejected + 1) } else r) ∧
      t.pins = { s.pins with syncClosed := false } ∧ OnlyChanges [.exs, .stb, .pins] s t) ∧
    (s.exs.pulse.isSome = true → ∃ t, exec .snsReadPulseEnd s = .next t ∧
      t.exs = { s.exs with snsRead := false, pulse := none } ∧ OnlyChanges [.exs] s t)

/-! ### Requests of the Card Engine -/

/-- READ_CARD (R191): the four checks in order, or the request joins the queue and is told its place in it. That the read
being served is not one of the four that wait, nor counts in the place told, is the model's reading (log 21). -/
def Obligations.ReadCard : Prop :=
  ∀ (block count dest : BitVec 32) (tag : BitVec 16) (s : State), Taken (.readCard block count dest tag) s →
    let c := Instr.readCard block count dest tag
    let n := count.toNat
    let d := dest.toNat
    let refused := fun code => ∃ t, exec c s = .next t ∧ Refused code s t
    let within := fun lo hi => lo ≤ d ∧ d + n * 512 ≤ hi
    let ok := 1 ≤ n ∧ n ≤ 65536 ∧ d % 4 = 0 ∧
      (within 0 0x10000000 ∨ within (0x10000000 + s.stb.count * (s.stb.slotSize * 1048576)) 0x3F000000 ∨
        within 0x3F001008 0x3F002000 ∨ within 0x3F005000 0x3F010000 ∨ within 0x3F020000 0x40000000)
    let up := s.cde.state = .ready ∨ s.cde.state = .writing ∨ s.cde.state = .reading
    (¬ ok → refused .badRequest) ∧ (ok → ¬ up → refused .cardNotReady) ∧
    ∀ size, s.cde.capacity = some size → ok → up →
      (size < block.toNat + n → refused .badRequest) ∧
      (block.toNat + n ≤ size → 4 ≤ s.cde.reads.length → refused .busy) ∧
      (block.toNat + n ≤ size → s.cde.reads.length < 4 → ∃ t, exec c s = .next t ∧
        t.cde = { s.cde with reads := s.cde.reads ++ [⟨block.toNat, n, d, tag.toNat, 0, []⟩] } ∧
        Answered ⟨.started, le 1 s.cde.reads.length⟩ s t ∧ OnlyChanges [.cde, .service] s t)

/-- FORMAT_CARD and RESET_CARD (R169, R194), by the card state: the refusals; the pending format with its run waiting to be
issued; the power cycle with its power-down, or as far as the power-up under way goes on by itself. The model's readings: in
FAULT a discharge that runs goes on, with its timer, as the power-up's (log 30), and in IDENTIFYING the reset takes the place
of a park that waits (log 53). -/
def Obligations.FormatAndResetCard : Prop :=
  ∀ s : State,
    (Taken .formatCard s →
      let refused := fun code => ∃ t, exec .formatCard s = .next t ∧ Refused code s t
      (s.cde.detected = false → refused .cardAbsent) ∧
      (s.cde.detected = true → (s.cde.state = .writing ∨ s.cde.state = .reading ∨ s.cde.state = .mounting) →
        refused .busy) ∧
      (s.cde.detected = true → (s.cde.state = .powering ∨ s.cde.state = .identifying ∨ s.cde.state = .discharging ∨
        s.cde.state = .parked ∨ s.cde.state = .fault) → refused .cardNotReady) ∧
      (s.cde.detected = true → (s.cde.state = .ready ∨ s.cde.state = .unformatted) →
        ∃ t, exec .formatCard s = .next t ∧
          t.cde = { s.cde with state := .writing, block := [], run := some ⟨.format, true, 0, 1, 0, 0, 0, 0, false, .waiting⟩, format := some ⟨1, 0, 0, (s.cde.geometry.map fun g => (g.formatId + 1) % 4294967296).getD 1⟩ } ∧
          Answered ⟨.started, []⟩ s t ∧ OnlyChanges [.cde, .service] s t)) ∧
    (Taken .resetCard s →
      let refused := fun code => ∃ t, exec .resetCard s = .next t ∧ Refused code s t
      let base := { s.cde with capacity := none, geometry := none, parkOwed := false }
      let accepted := fun (c : Cde) (ps : List Part) => ∃ t, exec .resetCard s = .next t ∧ t.cde = c ∧
        Answered ⟨.started, []⟩ s t ∧ OnlyChanges ([.cde, .service] ++ ps) s t
      (s.cde.detected = false → refused .cardAbsent) ∧
      (s.cde.detected = true → (s.cde.state = .writing ∨ s.cde.state = .reading ∨ s.cde.state = .mounting ∨
        s.cde.state = .parked ∨ (s.cde.state = .discharging ∧ s.cde.dischargeFor = .park) ∨ s.cde.reads ≠ []) →
        refused .busy) ∧
      (s.cde.detected = true → s.cde.reads = [] →
        ((s.cde.state = .ready ∨ s.cde.state = .unformatted ∨
            (s.cde.state = .identifying ∧ s.cde.ident ≠ some .sent) ∨ (s.cde.state = .powering ∧ s.cde.pwrEn = true)) →
          accepted { base with state := .discharging, rail := .discharging, lines := .highZ, pwrEn := false, discharge := true, dischargeTimer := some 500000, dischargeFor := .powerUp, rampTimer := none, busTimer := none, powerUp := none, ident := none, identDrop := none, ocCount := 0 } [.pins]) ∧
        (s.cde.state = .identifying → s.cde.ident = some .sent → accepted { base with identDrop := some .reset } []) ∧
        ((s.cde.state = .powering ∧ s.cde.pwrEn = false ∨
            s.cde.state = .discharging ∧ s.cde.dischargeFor = .powerUp) → accepted base []) ∧
        (s.cde.state = .fault → s.cde.discharge = true →
          accepted { base with state := .discharging, dischargeFor := .powerUp } []) ∧
        (s.cde.state = .fault → s.cde.discharge = false → s.cde.run = none → Demand.card ∉ s.amn.queue →
          ∃ t, exec .resetCard s = .next t ∧
            t.cde = { base with state := .powering, rail := .off, lines := .highZ, powerUp := some .reading } ∧
            t.amn.queue = s.amn.queue ++ [.card] ∧ Answered ⟨.started, []⟩ s t ∧
            OnlyChanges [.cde, .service, .monitor] s t)))

/-! ### Requests of the Frame Memory Controller, the Analog Monitor, the Request Engine and the Host Memory Port -/

/-- CLEAR_ERRLOG and INJECT_CHECK (R138, R140): the log and its counters emptied, with the empty mirror queued position by
position and then its header and piece 4 marked, the answer waiting until all of it is written; the injection armed,
replaced, disarmed or refused. That a mask of 0 is answered with zeros is the model's choice (log 24). The log itself (R134
to R137), on a host read that finds one codeword not usable: the record that holds the slot charged and its mirror queued
first; a hit on the first entry of the address, a new entry, or an overflow; the positions and the header queued; the counter;
MEM_UNCORRECTABLE. That a hit whose count is saturated is written like any other is the model's choice (log 51). -/
def Obligations.ErrorLogAndInjection : Prop :=
  (∀ s : State,
    (Taken .clearErrlog s → ∃ t, exec .clearErrlog s = .next t ∧ t.fmc.errlog = [] ∧ t.fmc.overflow = 0 ∧
      t.fmc.corrGeneral = 0 ∧ t.fmc.corrFrame = 0 ∧ t.fmc.corrControl = 0 ∧ t.fmc.uncorrectable = 0 ∧
      t.fmc.logUpdate = (s.fmc.logUpdate + 1) % 4294967296 ∧
      t.rqe.jobs = s.rqe.jobs ++ (List.range 16).map (fun k => .errorEntry k none) ++
        [.errorHeader ((s.fmc.logUpdate + 1) % 4294967296) 0 0] ∧ 4 ∈ t.rqe.marked ∧
      t.rqe.lastAnswer = s.rqe.lastAnswer ∧
      t.rqe.service = some { s.rqe.service.getD ⟨none, 0, .handed .clearErrlog⟩ with stage := .answering ⟨.done, []⟩ ⟨s.rqe.jobs.length + 17, [4], false⟩ } ∧
      Marked s t ∧ OnlyChanges [.errors, .service] s t) ∧
    ∀ (addr : BitVec 32) (mask : BitVec 8), Taken (.injectCheck addr mask) s →
      (0x40000000 ≤ addr.toNat → ∃ t, exec (.injectCheck addr mask) s = .next t ∧ Refused .badRequest s t) ∧
      (addr.toNat < 0x40000000 → mask = 0 → ∃ t, exec (.injectCheck addr mask) s = .next t ∧ t.fmc.injection = none ∧
        Answered ⟨.done, [0, 0, 0, 0, 0]⟩ s t ∧ OnlyChanges [.injection, .service] s t) ∧
      (addr.toNat < 0x40000000 → mask ≠ 0 → ∃ t, exec (.injectCheck addr mask) s = .next t ∧
        t.fmc.injection = some (addr.toNat / 8 * 8, mask) ∧
        Answered ⟨.done, le 4 (addr.toNat / 8 * 8) ++ [mask]⟩ s t ∧ OnlyChanges [.injection, .service] s t)) ∧
  ∀ (s : State) (x : Txn) (n cw : Nat), s.resetHeld = false → s.fmc.active = some x → x.kind = .hostRead n →
    cw = x.addr / 8 * 8 → 0 < x.len → x.addr + x.len ≤ cw + 8 →
    ((s.mem.check? cw).cls = .poisoned ∨ (s.mem.check? cw).cls = .uncorrectable) →
    let c := s.mem.check? cw
    let cls := if c.cls = .poisoned then ErrorClass.poisoned else .uncorrectable
    let upd := (s.fmc.logUpdate + 1) % 4294967296
    let log := s.fmc.errlog
    let absent := ∀ e ∈ log, e.addr ≠ cw
    let logged := fun (shot : Option Nat) (charge : List MirrorJob) (t : State) =>
      let queued := fun js => ∃ more, t.rqe.jobs = s.rqe.jobs ++ charge ++ js ++ more
      t.fmc.uncorrectable = min 4294967295 (s.fmc.uncorrectable + 1) ∧ t.fmc.logUpdate = upd ∧
      Raised .memUncorrectable t ∧
      (∀ k e, log[k]? = some e → e.addr = cw → (∀ j y, j < k → log[j]? = some y → y.addr ≠ cw) →
        let e' := { e with hits := min 65535 (e.hits + 1) }
        t.fmc.errlog = log.set k e' ∧ t.fmc.overflow = s.fmc.overflow ∧
        queued [.errorEntry k (some e'), .errorHeader upd log.length s.fmc.overflow]) ∧
      (absent → log.length < 16 →
        let e : LogEntry := ⟨cw, c.syndrome, cls, .hostRead, 1, shot⟩
        t.fmc.errlog = log ++ [e] ∧ t.fmc.overflow = s.fmc.overflow ∧
        queued [.errorEntry log.length (some e), .errorHeader upd (log.length + 1) s.fmc.overflow]) ∧
      (absent → 16 ≤ log.length → t.fmc.errlog = log ∧ t.fmc.overflow = min 4294967295 (s.fmc.overflow + 1) ∧
        queued [.errorHeader upd log.length (min 4294967295 (s.fmc.overflow + 1))]) ∧
      OnlyChanges [.port, .response, .errors, .stb] s t
    ((∀ i, s.stb.slotAt cw = some i → s.stb.holder i = none) →
      ∃ t, exec .hostReadComplete s = .next t ∧ logged none [] t ∧ t.stb = s.stb) ∧
    (∀ i r, s.stb.slotAt cw = some i → s.stb.holder i = some r → s.stb.find r.shot = some r →
      let charge := fun r : ShotRecord =>
        { r with uncorrectable := min 65535 (r.uncorrectable + 1), flags := { r.flags with damaged := true } }
      ∃ t, exec .hostReadComplete s = .next t ∧ t.stb = s.stb.update r.shot charge ∧
        logged (some r.shot) [.shotEntry r.entry (some (charge r)) ((s.rqe.updates.getD r.entry 0 + 1) % 4294967296) 0] t)

/-- SET_MONITOR (R151, R152): the settings after every clamp; refused when the thresholds contradict each other; in force at
once with the converter free, else kept for the end of the conversion in progress, whose result no longer stands when its
channel's calibration changes; piece 3 marked. The model's choices: an interval equal to the one in force does not restart the
sample timer (log 25), and a BATT level set to NORMAL is told to nobody (log 56). -/
def Obligations.SetMonitor : Prop :=
  ∀ (m : MonitorArgs) (s : State), Taken (.setMonitor m) s →
    let sel := fun k => m.selection.getLsbD k
    let b := s.amn.next.getD s.amn.settings
    let u : MonitorSettings :=
      ⟨if sel 0 then m.tempSlope.toInt else b.tempSlope, if sel 0 then m.tempOffset.toInt else b.tempOffset,
       if sel 1 then m.battSlope.toInt else b.battSlope, if sel 1 then m.battOffset.toInt else b.battOffset,
       if sel 2 then m.cardSlope.toInt else b.cardSlope, if sel 2 then m.cardOffset.toInt else b.cardOffset,
       if sel 3 then max (-160) (min 500 m.warn.toInt) else b.warn,
       if sel 3 then max (-160) (min 500 m.limit.toInt) else b.limit,
       if sel 4 then max 0 (min 65535 m.armFloor.toInt) else b.armFloor,
       if sel 4 then max 0 (min 65535 m.critFloor.toInt) else b.critFloor,
       if sel 5 then max 10 (min 2550 (m.interval.toNat / 10 * 10)) else b.interval⟩
    let contradicts := sel 3 = true ∧ u.limit < u.warn ∨ sel 4 = true ∧ u.armFloor < u.critFloor
    let cleared := { s.amn with tempValid := s.amn.tempValid && !sel 0, tempLevel := if sel 0 then .normal else s.amn.tempLevel, battValid := s.amn.battValid && !sel 1, battLevel := if sel 1 then .normal else s.amn.battLevel, cardValid := s.amn.cardValid && !sel 2 }
    let result := leInt 2 u.tempSlope ++ leInt 2 u.tempOffset ++ leInt 2 u.battSlope ++ leInt 2 u.battOffset ++
      leInt 2 u.cardSlope ++ leInt 2 u.cardOffset ++ leInt 2 u.warn ++ leInt 2 u.limit ++ leInt 2 u.armFloor ++
      leInt 2 u.critFloor ++ le 2 u.interval
    let takes := fun (a : Amn) => ∃ t, exec (.setMonitor m) s = .next t ∧
      { t.amn with stopped := s.amn.stopped, stopAsked := s.amn.stopAsked } = a ∧
      Answered ⟨.done, result⟩ s t ∧ 3 ∈ t.rqe.marked ∧ Marked s t ∧ OnlyChanges [.monitor, .service] s t
    (contradicts → ∃ t, exec (.setMonitor m) s = .next t ∧ Refused .badRequest s t) ∧
    (¬ contradicts → s.amn.conv = none →
      takes { cleared with settings := u, next := none, sampleTimer := if u.interval = s.amn.settings.interval then s.amn.sampleTimer else u.interval * 1000 }) ∧
    (¬ contradicts → ∀ v, s.amn.conv = some v →
      let recalibrated := v.channel = .temp ∧ sel 0 = true ∨ v.channel = .batt ∧ sel 1 = true ∨
        v.channel = .card ∧ sel 2 = true
      (recalibrated → takes { cleared with next := some u, conv := some { v with stands := false } }) ∧
      (¬ recalibrated → takes { cleared with next := some u }))

/-- SET_EVENTS (R204): the 18 enables are replaced, ATTN follows, piece 0 is marked, no flag changes. -/
def Obligations.SetEvents : Prop :=
  ∀ (enables : BitVec 32) (s : State), Taken (.setEvents enables) s → ∃ t, exec (.setEvents enables) s = .next t ∧
    (∀ k, k < 18 → t.rqe.enables.getLsbD k = enables.getLsbD k) ∧ t.rqe.flags = s.rqe.flags ∧ AttnOk t ∧
    0 ∈ t.rqe.marked ∧ Answered ⟨.done, le 4 (enables.toNat % 262144)⟩ s t ∧ OnlyChanges [.flags, .service] s t

/-- STANDBY (R66): BUSY while a shot or the card is at work; else accepted, the request's completion being written before
the entry begins. -/
def Obligations.Standby : Prop :=
  ∀ s : State, Taken .standby s →
    let busy := (∃ r ∈ s.stb.records, r.phase = .arming ∨ r.phase = .waiting ∨ r.phase = .exposing ∨
        r.phase = .reading ∨ r.phase = .held ∨ r.phase = .storing) ∨
      s.cde.reads ≠ [] ∨ s.cde.serving ≠ none ∨ s.cde.state = .writing
    (busy → ∃ t, exec .standby s = .next t ∧ Refused .busy s t) ∧
    (¬ busy → ∀ v k, s.rqe.service = some v → v.index = some k → ∃ t, exec .standby s = .next t ∧
      t.hmp.sleepAsked = true ∧ t.hmp.path = s.hmp.path ∧ t.hmp.wake = s.hmp.wake ∧ Answered ⟨.done, []⟩ s t ∧
      OnlyChanges [.path, .service] s t)

/-! ### The Request Engine -/

/-- The watched words (R196, R202), for the oldest observation outstanding or, with none outstanding, for a value its sender
gives directly (log 16): the cached tail or a ring fault; the flags cleared with the raises of them made and not set yet,
ATTN, piece 0. An occurrence whose owner still waits for its writes is not cleared (R201, R202). -/
def Obligations.WatchedWords : Prop :=
  ∀ (v : BitVec 32) (s : State) (rest : List Observed), s.resetHeld = false →
    (s.rqe.observed = .tail v.toNat :: rest ∨ s.rqe.observed = [] ∧ rest = [] →
      (v.toNat < 32 → ∃ t, exec (.requestTailWordWrite v) s = .next t ∧ t.rqe.tail = v.toNat ∧
        t.rqe.ringFaults = s.rqe.ringFaults ∧ t.rqe.observed = rest ∧ OnlyChanges [.tail] s t) ∧
      (32 ≤ v.toNat → ∃ t, exec (.requestTailWordWrite v) s = .next t ∧ t.rqe.tail = s.rqe.tail ∧
        t.rqe.ringFaults = min 4294967295 (s.rqe.ringFaults + 1) ∧ Raised .ringFault t ∧ t.rqe.observed = rest ∧
        OnlyChanges [.tail] s t)) ∧
    (s.rqe.observed = .clear v.toNat :: rest ∨ s.rqe.observed = [] ∧ rest = [] →
      ∃ t, exec (.eventClearWordWrite v) s = .next t ∧
        (∀ k, k < 18 → t.rqe.flags.getLsbD k = (s.rqe.flags.getLsbD k && !v.getLsbD k)) ∧
        (∀ f, f ∈ t.rqe.carried ↔ v.getLsbD f.bit = false ∧ f ∈ s.rqe.carried) ∧
        (∀ f ∈ s.rqe.made, v.getLsbD f.bit = false → f ∈ t.rqe.made) ∧
        (∀ f ∈ t.rqe.made, v.getLsbD f.bit = true → ∃ r ∈ s.rqe.raises, r.flag = f) ∧
        (∀ r h, r ∈ s.rqe.raises → r.hold = some h → h ≠ ⟨0, [], false⟩ → r ∈ t.rqe.raises) ∧
        t.rqe.enables = s.rqe.enables ∧ AttnOk t ∧ 0 ∈ t.rqe.marked ∧ t.rqe.tail = s.rqe.tail ∧
        t.rqe.ringFaults = s.rqe.ringFaults ∧ t.rqe.observed = rest ∧ OnlyChanges [.flags, .tail] s t)

/-- REQUEST_DISPATCH (R197): the entry at the head is taken and its first 64 bytes asked for; an entry that has been read is
completed MEM_ERROR or BAD_REQUEST, or handed to its owner. That a dispatch is two commands, the taking and the judgement of
the entry, is the model's choice (log 20). -/
def Obligations.RequestDispatch : Prop :=
  ∀ s : State, s.resetHeld = false →
    (s.rqe.service = none → s.hmp.path = .run → s.hmp.sleepAsked = false → s.rqe.head ≠ s.rqe.tail →
      ∃ t, exec .requestDispatch s = .next t ∧ t.rqe.service = some ⟨some s.rqe.head, 0, .reading [] false⟩ ∧
        Presented .entryRead (0x3F002000 + 128 * s.rqe.head) 64 t ∧ t.rqe.lastAnswer = s.rqe.lastAnswer ∧
        OnlyChanges [.service] s t) ∧
    ∀ v bytes bad k, s.rqe.service = some v → v.stage = .reading bytes bad → v.index = some k → bytes.length = 96 →
      let tag := field bytes 2 2
      let kind := field bytes 0 2
      let completed := fun code => ∃ t, exec .requestDispatch s = .next t ∧
        t.rqe.service = some ⟨some k, tag, .answered ⟨code, []⟩⟩ ∧ t.rqe.lastAnswer = some ⟨code, []⟩ ∧
        Presented .completionWrite (0x3F002000 + 128 * k + 96) 32 t ∧ OnlyChanges [.service] s t
      (bad = true → completed .memError) ∧
      (bad = false → (kind = 0 ∨ 17 < kind) → completed .badRequest) ∧
      (bad = false → 1 ≤ kind → kind ≤ 17 → ∃ t q, exec .requestDispatch s = .next t ∧ requestOf bytes = some q ∧
        t.rqe.service = some ⟨some k, tag, .handed q⟩ ∧ t.rqe.lastAnswer = s.rqe.lastAnswer ∧
        OnlyChanges [.service] s t)

/-- The end of a completion's write (R198): the head and the completion number advance, the request leaves service; a cached
tail that stands at the entry just served goes on with the head, which never passes it (R196; the model's choice, log 57).
After the completion of an accepted STANDBY the entry begins (R66) with a park by what the card is at (R167): a card that is
up is powered down, one in READING too, whose last read has ended with its result owed (the model's reading, log 58); with
the card ABSENT, PARKED or FAULT the monitor is asked to stop, and stops at once while the converter is free (R158). -/
def Obligations.CompletionWritten : Prop :=
  ∀ (s : State) (x : Txn), s.resetHeld = false → s.fmc.active = some x → x.kind = .completionWrite →
    let advanced := fun t : State => t.rqe.head = (s.rqe.head + 1) % 32 ∧
      t.rqe.tail = (if s.rqe.tail = s.rqe.head then (s.rqe.head + 1) % 32 else s.rqe.tail) ∧
      t.rqe.ringFaults = s.rqe.ringFaults ∧ t.rqe.observed = s.rqe.observed ∧
      t.rqe.completionNo = (s.rqe.completionNo + 1) % 4294967296 ∧ t.rqe.service = none ∧
      t.rqe.lastAnswer = s.rqe.lastAnswer ∧ t.fmc.active = none ∧ t.fmc.passOver = s.fmc.passOver ∧
      t.fmc.nextPart = s.fmc.nextPart
    let entering := fun t : State => t.hmp.path = .entering ∧ t.hmp.wake = s.hmp.wake ∧ t.hmp.sleepAsked = false
    let parts : List Part := [.head, .tail, .service, .port]
    (s.hmp.sleepAsked = false → ∃ t, exec .completionWriteDone s = .next t ∧ advanced t ∧ OnlyChanges parts s t) ∧
    (s.hmp.sleepAsked = true →
      let none' := { s.cde with parkAsked := false, parkOwed := false }
      let parked := { none' with state := .discharging, rail := .discharging, lines := .highZ, pwrEn := false, discharge := true, dischargeTimer := some 500000, dischargeFor := .park, rampTimer := none, busTimer := none, powerUp := none, ident := none, identDrop := none, ocCount := 0 }
      let asked := fun t : State => s.amn.stopped = false → s.amn.stopAsked = false →
        (s.amn.conv = none → t.amn.stopped = true) ∧ (s.amn.conv ≠ none → t.amn.stopAsked = true ∧ t.amn.stopped = false)
      let goes := fun t : State => t.amn.stopped = s.amn.stopped ∧ t.amn.stopAsked = s.amn.stopAsked
      let enters := fun (d : Cde) (ps : List Part) (monitor : State → Prop) => ∃ t, exec .completionWriteDone s = .next t ∧
        advanced t ∧ entering t ∧ t.cde = d ∧ monitor t ∧ OnlyChanges (parts ++ .path :: .cde :: ps) s t
      (s.cde.run = none →
        (s.cde.state = .absent ∨ s.cde.state = .parked ∨ s.cde.state = .fault → enters none' [] asked) ∧
        (s.cde.state = .ready ∨ s.cde.state = .unformatted ∨ s.cde.state = .reading → enters parked [.pins] goes) ∧
        (s.cde.state = .powering → s.cde.pwrEn = true → enters parked [.pins] goes) ∧
        (s.cde.state = .powering → s.cde.pwrEn = false → enters { none' with state := .parked, powerUp := none } [] asked) ∧
        (s.cde.state = .identifying →
          (s.cde.ident = some .sent → enters { none' with identDrop := some .park } [] goes) ∧
          (s.cde.ident ≠ some .sent → enters parked [.pins] goes)) ∧
        (s.cde.state = .discharging → enters (if s.cde.dischargeFor = .powerUp then { none' with dischargeFor := .park } else none') [] goes)) ∧
      ∀ r, s.cde.run = some r → r.stage ≠ .waiting → s.cde.state = .mounting →
        enters { s.cde with parkAsked := true, run := some { r with stop := true } } [] goes)

/-- The writes of status pieces (R200, R201): the piece first marked goes first, one at a time; when the write of piece 0
has completed, the flags it carried are set, their raises are done with, and ATTN follows; when the write of a piece of
content has completed, the occurrences that waited only for it have their flags raised, and an answer that waited only for it
is given (R138). -/
def Obligations.StatusPieces : Prop :=
  ∀ s : State, s.resetHeld = false →
    let freed := fun t : State => t.fmc.active = none ∧ t.fmc.passOver = s.fmc.passOver ∧ t.fmc.nextPart = s.fmc.nextPart
    (∀ k rest, (s.hmp.path = .run ∨ s.hmp.path = .entering) → s.rqe.marked = k :: rest →
      (∀ x ∈ s.fmc.pending, ∀ j, x.kind ≠ .pieceWrite j) → (∀ x, s.fmc.active = some x → ∀ j, x.kind ≠ .pieceWrite j) →
      ∃ t, exec .statusPieceWrite s = .next t ∧ Presented (.pieceWrite k) (0x3F000000 + 64 * k) 64 t ∧
        OnlyChanges [] s t) ∧
    (∀ x, s.fmc.active = some x → x.kind = .pieceWrite 0 →
      (∀ v a h, s.rqe.service = some v → v.stage = .answering a h → h ≠ ⟨0, [], false⟩) →
      ∃ t, exec .statusPieceWriteDone s = .next t ∧
      (∀ k, k < 18 → (t.rqe.flags.getLsbD k = true ↔
        s.rqe.flags.getLsbD k = true ∨ ∃ f ∈ s.rqe.carried, f.bit = k)) ∧
      t.rqe.enables = s.rqe.enables ∧ AttnOk t ∧ t.rqe.carried = [] ∧ (∀ f ∈ s.rqe.carried, f ∉ t.rqe.made) ∧
      (∀ f ∈ s.rqe.made, f ∉ s.rqe.carried → f ∈ t.rqe.made) ∧ freed t ∧ OnlyChanges [.flags, .port] s t) ∧
    (∀ x k, s.fmc.active = some x → x.kind = .pieceWrite (k + 1) → ∃ t, exec .statusPieceWriteDone s = .next t ∧ freed t ∧
      (∀ r h, r ∈ s.rqe.raises → r.hold = some h →
        if h.jobs = 0 ∧ h.pieces = [] then t.rqe.flags &&& r.flag.mask ≠ 0 ∨ r.flag ∈ t.rqe.made
        else { r with hold := some { h with writing := false } } ∈ t.rqe.raises) ∧
      (∀ v a h, s.rqe.service = some v → v.stage = .answering a h →
        if h.jobs = 0 ∧ h.pieces = [] then Answered a s t
        else t.rqe.service = some { v with stage := .answering a { h with writing := false } } ∧
          t.rqe.lastAnswer = s.rqe.lastAnswer) ∧
      ((∀ v a h, s.rqe.service = some v → v.stage ≠ .answering a h) → OnlyChanges [.port] s t) ∧
      OnlyChanges [.port, .service] s t)

/-! ### The host bus and the posted writes -/

/-- A burst as the HMP takes it (R31, R53, R54, R55, R58, R60): the violation of a granted quiet and the out-of-range counter;
a read answered at once when no beat is in range, presented when no posted burst touches it, else waiting behind those that
do; a write answered and posted with its beats in range and its parity mark; a write that finds no buffer. The model's
readings: a burst that passes 2^32 does not wrap (log 18), a read waits for the bursts posted when it was taken (log 11), and
all four bytes of a posted beat count as touched (log 45). -/
def Obligations.BurstTaken : Prop :=
  ∀ s : State, s.resetHeld = false → (s.hmp.path = .run ∨ s.hmp.path = .entering) →
    let counted := fun t : State => t.stb = match s.exs.current with
      | some e => if s.exs.quietReq && s.pins.quietAck then
          s.stb.update e.shot fun r => { r with violations := min 255 (r.violations + 1) } else s.stb
      | none => s.stb
    let out := fun (b : Bool) (t : State) =>
      t.hmp.outOfRange = if b then min 4294967295 (s.hmp.outOfRange + 1) else s.hmp.outOfRange
    (∀ (a : BitVec 32) (n : Nat), 1 ≤ n → n ≤ 8 →
      let base := a.toNat / 4 * 4
      let m := min n ((0x40000000 - base) / 4)
      let touches := fun p : Posted => ∃ b ∈ p.beats, base < b.addr + 4 ∧ b.addr < base + 4 * m
      (m = 0 → ∃ t, exec (.hostBurst (.read a n)) s = .next t ∧ counted t ∧ out true t ∧
        t.hmp.response = some ⟨false, true, List.replicate n (0, 0)⟩ ∧
        OnlyChanges [.stb, .outOfRange, .response] s t) ∧
      (0 < m → (∀ p ∈ s.hmp.queue, ¬ touches p) → ∃ t, exec (.hostBurst (.read a n)) s = .next t ∧ counted t ∧
        out (decide (m < n)) t ∧ Presented (.hostRead n) base (4 * m) t ∧ OnlyChanges [.stb, .outOfRange] s t) ∧
      (0 < m → (∃ p ∈ s.hmp.queue, touches p) → ∃ t, exec (.hostBurst (.read a n)) s = .next t ∧ counted t ∧
        out (decide (m < n)) t ∧ (∃ r ∈ t.hmp.reads, r.addr = base ∧ r.count = n ∧
          ∀ i, i ∈ r.after ↔ ∃ p ∈ s.hmp.queue, touches p ∧ p.id = i) ∧ OnlyChanges [.stb, .outOfRange] s t)) ∧
    (∀ (a : BitVec 32) (beats : List WriteBeat), 1 ≤ beats.length → beats.length ≤ 8 →
      let base := a.toNat / 4 * 4
      let m := min beats.length ((0x40000000 - base) / 4)
      let c := Instr.hostBurst (.write a beats)
      let taken := fun t : State => counted t ∧ out (decide (m < beats.length)) t ∧
        t.hmp.response = some ⟨true, decide (m < beats.length), []⟩ ∧ t.hmp.waiting = []
      (s.hmp.queue.length < 8 → s.hmp.waiting = [] → m = 0 → ∃ t, exec c s = .next t ∧ taken t ∧
        OnlyChanges [.stb, .outOfRange, .response] s t) ∧
      (s.hmp.queue.length < 8 → s.hmp.waiting = [] → 0 < m → ∃ t p, exec c s = .next t ∧ taken t ∧
        t.hmp.queue = s.hmp.queue ++ [p] ∧ p.beats.length = m ∧
        (∀ (k : Nat) (b : WriteBeat), k < m → beats[k]? = some b →
          p.beats[k]? = some ⟨base + 4 * k, b.data, b.enables⟩) ∧
        (p.parity = true ↔ ∃ b ∈ beats.take m, WriteBeat.badParity b = true) ∧ p.delivered = false ∧
        OnlyChanges [.stb, .outOfRange, .response, .posted] s t) ∧
      (8 ≤ s.hmp.queue.length ∨ s.hmp.waiting ≠ [] → ∃ t, exec c s = .next t ∧
        t.hmp.waiting = s.hmp.waiting ++ [.write a beats] ∧ t.hmp.queue = s.hmp.queue ∧ OnlyChanges [.posted] s t))

/-- The delivery of the burst at the head (R56 to R59, R94): all its beats to the FMC as one transaction; all dropped by the
guard, counted once; capture beats that need the dark offset held back, the idle limit counted from their arrival. And of a
burst whose beats fall in different classes, each beat by its own address: those that pass go as one transaction, the guarded
ones are counted once, the capture beats are held back, or taken as a burst of them alone would be. -/
def Obligations.PostedDelivery : Prop :=
  ∀ (s : State) (p : Posted) (rest : List Posted), s.resetHeld = false →
    (s.hmp.path = .run ∨ s.hmp.path = .entering) → s.hmp.queue = p :: rest → p.delivered = false →
    s.hmp.waiting = [] →
    let owned := fun a => (0x3F000000 ≤ a ∧ a < 0x3F001000) ∨
      (0x3F002000 ≤ a ∧ a < 0x3F003000 ∧ 96 ≤ (a - 0x3F002000) % 128) ∨ (0x3F003000 ≤ a ∧ a < 0x3F005000) ∨
      (0x3F010000 ≤ a ∧ a < 0x3F020000)
    let barred := fun st => st = SlotState.armed ∨ st = .held ∨ st = .draining ∨ st = .retained
    (∀ b0 more, (∀ b ∈ p.beats, b.enables ≠ 0) → p.beats = b0 :: more →
    ((∀ b ∈ p.beats, ¬ owned b.addr ∧ ∀ st, s.stb.stateAt b.addr = some st → st = .free) →
      ∃ t, exec .writeBurstDelivery s = .next t ∧
        t.hmp.queue = { p with delivered := true, passWaits := true, heldBeats := [] } :: rest ∧
        (⟨.hostWrite, b0.addr, 4 * p.beats.length, p.beats.flatMap PostedBeat.cells, p.parity⟩ : Txn) ∈ t.fmc.pending ∧
        OnlyChanges [.posted] s t) ∧
    ((∀ b ∈ p.beats, owned b.addr ∨ ∃ st, s.stb.stateAt b.addr = some st ∧ barred st) →
      ∃ t, exec .writeBurstDelivery s = .next t ∧ t.hmp.queue = rest ∧
        t.hmp.guardDrops = min 4294967295 (s.hmp.guardDrops + 1) ∧ Raised .guard t ∧
        OnlyChanges [.posted, .guardDrops] s t) ∧
    (∀ o, s.pce.readout = some o → o.dark = none → o.ending = none →
      (∀ b ∈ p.beats, s.stb.stateAt b.addr = some .readout) →
      (let d := b0.addr - s.stb.slotBase o.slot
       d < o.image.frameBytes ∧ o.cursor ≤ d ∧ 2 * o.image.masked ≤ d % o.image.pitch ∧
         d % o.image.pitch < 2 * (o.image.masked + o.image.width)) →
      ∃ t, exec .writeBurstDelivery s = .next t ∧
        t.hmp.queue = { p with delivered := true, passWaits := false, heldBeats := p.beats } :: rest ∧
        t.pce = { s.pce with idle := some (o.image.idleLimit * 1000) } ∧ OnlyChanges [.posted, .pce] s t)) ∧
    -- beats of different classes
    (let passing := fun a => decide (¬ owned a) && (s.stb.stateAt a == none || s.stb.stateAt a == some .free)
     let capturing := fun a => decide (¬ owned a) && s.stb.stateAt a == some .readout
     let live := p.beats.filter fun b => b.enables != 0
     let passes := live.filter fun b => passing b.addr
     let captures := live.filter fun b => capturing b.addr
     let guarded := live.any fun b => !passing b.addr && !capturing b.addr
     let leaves := fun (held : List PostedBeat) (t : State) =>
       t.hmp.queue = (if passes = [] ∧ held = [] then rest
         else { p with delivered := true, passWaits := !passes.isEmpty, heldBeats := held } :: rest) ∧
       (∀ c more, passes = c :: more →
         (⟨.hostWrite, c.addr, 4 * passes.length, passes.flatMap PostedBeat.cells, p.parity⟩ : Txn) ∈ t.fmc.pending) ∧
       t.hmp.guardDrops = (if guarded then min 4294967295 (s.hmp.guardDrops + 1) else s.hmp.guardDrops) ∧
       (guarded = true → Raised .guard t)
     (captures = [] → ∃ t, exec .writeBurstDelivery s = .next t ∧ leaves [] t ∧ OnlyChanges [.posted, .guardDrops] s t) ∧
     ∀ o, s.pce.readout = some o → captures ≠ [] → o.ending = none →
       let needs := ∃ b ∈ captures, (let d := b.addr - s.stb.slotBase o.slot
         d < o.image.frameBytes ∧ o.cursor ≤ d ∧ 2 * o.image.masked ≤ d % o.image.pitch ∧
           d % o.image.pitch < 2 * (o.image.masked + o.image.width))
       (o.dark = none → needs → ∃ t, exec .writeBurstDelivery s = .next t ∧ leaves captures t ∧
         t.pce = { s.pce with idle := some (o.image.idleLimit * 1000) } ∧ OnlyChanges [.posted, .guardDrops, .pce] s t) ∧
       (o.dark ≠ none ∨ ¬ needs → ∃ t u, exec .writeBurstDelivery s = .next t ∧ leaves [] t ∧
         exec .writeBurstDelivery { s with hmp := { s.hmp with queue := { p with beats := captures } :: rest } } = .next u ∧
         t.pce = u.pce ∧ t.dfm = u.dfm ∧ t.stb = u.stb ∧ t.prs = u.prs ∧
         (∀ x ∈ u.fmc.pending, x.kind = .captureWrite → x ∈ t.fmc.pending) ∧
         OnlyChanges [.posted, .guardDrops, .pce, .dfm, .stb, .prs] s t))

/-! ### Readout -/

/-- One capture beat, alone in its burst, in a readout (R87 to R93, R99 to R104, R122 to R126, R105, R108). A beat of masked
columns, its pixels received, half received or not: the raw values go to the FMC, the good pixels join the line's black,
words passed over count as gaps, half pixels as partials. A beat behind the cursor is counted and dropped. A pad beat and
one beyond the frame are handed on as they came, and one that takes the cursor to the frame's end ends the readout. A beat
of two active pixels, neither covered: the line's black settles at the first of them, by the rounded means and the
tolerance; the two developed values go to the FMC in the beat's place. A covered even pixel waits for its right neighbour,
and the next beat settles it; a beat of masked columns, a pad beat or one beyond the frame that the cursor jumps to releases
the waiting word without right neighbours, and its word goes to the FMC ahead of the beat's (R103). A dark calibration puts
an even pixel hotter than the limit into the map, or counts it dropped; its line's end begins the rewrite. The last beat
ends the readout: HELD, or CALIBRATED, or, with the rewrite of its line begun, waiting for it. The model's choices: that a
word of no enabled byte is no transaction (log 49), and that the record has its statistics while it waits for that rewrite
(log 48). -/
def Obligations.CaptureDeveloped : Prop :=
  ∀ (s : State) (p : Posted) (b : PostedBeat) (o : Readout) (off : Nat), s.resetHeld = false →
    (s.hmp.path = .run ∨ s.hmp.path = .entering) → s.hmp.queue = [p] → p.delivered = false → s.hmp.waiting = [] →
    p.beats = [b] → b.enables ≠ 0 → s.pce.readout = some o → o.ending = none → s.stb.stateAt b.addr = some .readout →
    b.addr = s.stb.slotBase o.slot + off →
    let g := o.image
    let line := off / g.pitch
    let at_ := off % g.pitch
    let idle := some (g.idleLimit * 1000)
    let v0 := b.data.toNat % 16384
    let v1 := b.data.toNat / 65536 % 16384
    let hands := fun (a : Nat) (cells : List Host.Cell) (parity : Bool) (t : State) =>
      (⟨.captureWrite, a, 4, cells, parity⟩ : Txn) ∈ t.fmc.pending
    let handsNothing := fun t : State => ∀ y ∈ t.fmc.pending, y.kind = .captureWrite → y ∈ s.fmc.pending
    let mapKept := fun t : State => t.dfm.entries = s.dfm.entries ∧ t.dfm.rewrite = s.dfm.rewrite ∧
      t.dfm.drops = s.dfm.drops ∧ t.dfm.sequence = s.dfm.sequence
    let took := fun (o' : Readout) (t : State) => t.hmp.queue = [] ∧ t.pce = ⟨some o', idle⟩ ∧ mapKept t ∧
      OnlyChanges [.posted, .pce, .dfm] s t
    let acc : BlackAcc := match o.acc with
      | some a => if a.line = line then a else { line := line }
      | none => { line := line }
    let cal := ∃ r, s.stb.find o.shot = some r ∧ r.flags.darkCal = true
    -- masked columns (R88 to R91), and the end of a line with insertions (R125)
    (∀ col, off < g.frameBytes → off + 4 < g.frameBytes → o.cursor ≤ off → at_ = 2 * col → col % 2 = 0 → col < g.masked →
      let on := fun k => b.enables.getLsbD k
      let got0 := on 0 && on 1
      let got1 := on 2 && on 3
      let half := (if on 0 = on 1 then 0 else 1) + (if on 2 = on 3 then 0 else 1)
      let good0 := got0 && !s.dfm.covers line col
      let good1 := got1 && !s.dfm.covers line (col + 1)
      let cells := (if got0 then cellsAt b.addr (le 2 v0) else []) ++ (if got1 then cellsAt (b.addr + 2) (le 2 v1) else [])
      let acc' : BlackAcc := ⟨line, if good0 then acc.nEven + 1 else acc.nEven, if good0 then acc.sEven + v0 else acc.sEven,
        if good1 then acc.nOdd + 1 else acc.nOdd, if good1 then acc.sOdd + v1 else acc.sOdd⟩
      let jumps := o.cursor < off
      let o' := { o with cursor := off + 4, last := some ⟨off, none, none⟩, acc := if got0 || got1 then some acc' else o.acc, wait := if jumps then none else o.wait, stats := { (if jumps then releasedStats s o else o.stats) with gaps := if o.cursor < off then min 4294967295 (o.stats.gaps + (off - o.cursor) / 4) else o.stats.gaps, partials := if half = 0 then o.stats.partials else min 4294967295 (o.stats.partials + half) } }
      (s.dfm.firstIns = none → ∃ t, exec .writeBurstDelivery s = .next t ∧ took o' t ∧
        ∃ more, t.fmc.pending = s.fmc.pending ++ (if jumps then releasedWord s o else []) ++
          (if cells = [] then [] else [⟨.captureWrite, b.addr, 4, cells, p.parity⟩]) ++ more ∧
          ∀ y ∈ more, y.kind ≠ .captureWrite) ∧
      (∀ k, s.dfm.firstIns = some k → s.dfm.insLine < line → k < s.dfm.entries.length → s.dfm.rewrite = none →
        ∃ t, exec .writeBurstDelivery s = .next t ∧ t.pce = ⟨some o', idle⟩ ∧ t.dfm.firstIns = none ∧
          t.dfm.entries = s.dfm.entries ∧ t.dfm.rewrite = some ⟨k, s.dfm.entries.length⟩ ∧
          t.dfm.sequence = (s.dfm.sequence + 1) % 4294967296 ∧ OnlyChanges [.posted, .pce, .dfm] s t)) ∧
    -- behind the cursor (R88)
    (off < o.cursor → o.cursor < g.frameBytes → ∃ t, exec .writeBurstDelivery s = .next t ∧
      took { o with stats := { o.stats with behind := min 4294967295 (o.stats.behind + 1) } } t ∧ handsNothing t) ∧
    -- pad beats, and beats beyond the frame (R88, R90, R106)
    ((o.wait = none ∨ o.cursor < off) → s.dfm.firstIns = none → o.cursor < g.frameBytes →
      let raw := ((List.range 4).filter fun k => b.enables.getLsbD k).map fun k => (b.addr + k, laneOf b.data k)
      let skipped := fun upTo => { releasedStats s o with gaps := if o.cursor < upTo then min 4294967295 (o.stats.gaps + (upTo - o.cursor) / 4) else o.stats.gaps }
      let pad := off < g.frameBytes ∧ 2 * (g.masked + g.width) ≤ at_ ∧ o.cursor ≤ off
      let handed := fun t : State => ∃ more, t.fmc.pending = s.fmc.pending ++ releasedWord s o ++
        [⟨.captureWrite, b.addr, 4, raw, p.parity⟩] ++ more
      (pad → off + 4 < g.frameBytes → ∃ t, exec .writeBurstDelivery s = .next t ∧ handed t ∧
        took { o with cursor := off + 4, wait := none, stats := skipped off } t) ∧
      (∀ r i, pad ∧ off + 4 = g.frameBytes ∨ g.frameBytes ≤ off → s.stb.find o.shot = some r → r.phase = .reading →
        r.slot = some i → i < s.stb.slots.length → r.flags.darkCal = false →
        (∀ e, s.prs.entries[r.profile]? = some e → e.waiting = none) →
        ∃ t, exec .writeBurstDelivery s = .next t ∧ handed t ∧ t.hmp.queue = [] ∧ t.pce = ⟨none, none⟩ ∧
          t.stb.find o.shot = some { r with phase := .held, stats := skipped (min off g.frameBytes) } ∧
          (∀ n, n ≠ o.shot → t.stb.find n = s.stb.find n) ∧ t.stb.slotState i = .held ∧ t.dfm.entries = s.dfm.entries ∧
          Raised .held t ∧ OnlyChanges [.posted, .pce, .dfm, .stb] s t)) ∧
    -- active pixels
    ∀ d x, b.enables = 15 → o.dark = some d → o.cursor = off → off < g.frameBytes → at_ = 2 * (g.masked + x) → x % 2 = 0 →
      x + 2 ≤ g.width → g.masked % 2 = 0 → s.dfm.covers line (g.masked + x + 1) = false →
      let column := g.masked + x
      let developed := fun (v black x : Nat) => if g.whiteClip ≤ v then 16383 else
        (max 0 (min 16383 ((g.pedestal : Int) + (((v : Int) - black - d) * g.gainAt x line + 2048) / 4096))).toNat
      let bin := fun (y : Nat) (h : List Nat) => h.modify (y / 1024) fun n => min 4294967295 (n + 1)
      let word := fun (y0 y1 : Nat) (t : State) => hands b.addr (cellsAt b.addr (le 2 y0 ++ le 2 y1)) p.parity t
      let clips := (if g.whiteClip ≤ v0 then 1 else 0) + (if g.whiteClip ≤ v1 then 1 else 0)
      let counted := fun (be bo : Nat) (st : Stats) => { st with clipped := if clips = 0 then st.clipped else min 4294967295 (st.clipped + clips), histogram := bin (developed v1 bo (x + 1)) (bin (developed v0 be x) st.histogram) }
      -- the line's black settles (R92, R93)
      (s.dfm.covers line column = false → s.dfm.firstIns = none → ¬ cal → o.wait = none → x + 2 < g.width →
        off + 4 < g.frameBytes → o.stats.clipped ≤ 4294967295 → (∀ l, o.settled = some l → l.line ≠ line) →
        let far := fun n sum held : Nat => decide (n ≠ 0 ∧ g.tolerance < max ((sum + n / 2) / n) held - min ((sum + n / 2) / n) held)
        let black := fun n sum held : Nat => if n = 0 ∨ far n sum held then held else (sum + n / 2) / n
        let be := black acc.nEven acc.sEven o.heldEven
        let bo := black acc.nOdd acc.sOdd o.heldOdd
        let rejects := (if far acc.nEven acc.sEven o.heldEven then 1 else 0) + (if far acc.nOdd acc.sOdd o.heldOdd then 1 else 0)
        let accepted := (if acc.nEven = 0 ∨ far acc.nEven acc.sEven o.heldEven then [] else [be]) ++
          (if acc.nOdd = 0 ∨ far acc.nOdd acc.sOdd o.heldOdd then [] else [bo])
        let st := { o.stats with blackRejects := min 65535 (o.stats.blackRejects + rejects), heldBlack := min 65535 (o.stats.heldBlack + if acc.nEven = 0 ∨ acc.nOdd = 0 then 1 else 0), blackMin := (o.stats.blackMin.toList ++ accepted).min?, blackMax := (o.stats.blackMax.toList ++ accepted).max? }
        ∃ t, exec .writeBurstDelivery s = .next t ∧ word (developed v0 be x) (developed v1 bo (x + 1)) t ∧
          took { o with cursor := off + 4, settled := some ⟨line, be, bo⟩, heldEven := be, heldOdd := bo, last := some ⟨off, some (developed v0 be x), some (developed v1 bo (x + 1))⟩, stats := counted be bo st } t) ∧
      ∀ be bo, o.settled = some ⟨line, be, bo⟩ → o.stats.clipped ≤ 4294967295 →
        let y0 := developed v0 be x
        let y1 := developed v1 bo (x + 1)
        let o' := { o with cursor := off + 4, last := some ⟨off, some y0, some y1⟩, stats := counted be bo o.stats }
        let more := x + 2 < g.width ∧ off + 4 < g.frameBytes
        let last := x + 2 = g.width ∧ off + 4 = g.frameBytes
        -- developed (R99, R100, R104)
        (s.dfm.covers line column = false → s.dfm.firstIns = none → ¬ cal → o.wait = none → more →
          ∃ t, exec .writeBurstDelivery s = .next t ∧ word y0 y1 t ∧ took o' t) ∧
        -- covered, and waiting for its right neighbour (R102)
        (s.dfm.covers line column = true → s.dfm.firstIns = none → ¬ cal → o.wait = none → more →
          let left := if x < 2 then none else o.last.filter fun l => l.offset + 4 == off
          ∃ t st, exec .writeBurstDelivery s = .next t ∧ handsNothing t ∧
            st.histogram = bin y1 o.stats.histogram ∧ st.substituted = o.stats.substituted ∧
            took { o with cursor := off + 4, last := some ⟨off, none, some y1⟩, wait := some ⟨off, line, x, .covered, .value y1, left.bind (·.even), left.bind (·.odd), p.parity⟩, stats := st } t) ∧
        -- its right neighbour has come (R103, R122)
        (∀ h w, s.dfm.covers line column = false → s.dfm.firstIns = none → ¬ cal → more → o.wait = some h → h.line = line →
          h.x + 2 = x → h.offset + 4 = off → h.even = .covered → h.odd = .value w →
          let left := if h.x < 2 ∨ s.dfm.covers line (g.masked + h.x - 2) then none else h.leftEven
          let y := match left with
            | some l => (l + y0 + 1) / 2
            | none => y0
          let a := s.stb.slotBase o.slot + h.offset
          ∃ t st more, exec .writeBurstDelivery s = .next t ∧
            t.fmc.pending = s.fmc.pending ++ [⟨.captureWrite, a, 4, cellsAt a (le 2 y ++ le 2 w), h.parity⟩,
              ⟨.captureWrite, b.addr, 4, cellsAt b.addr (le 2 y0 ++ le 2 y1), p.parity⟩] ++ more ∧
            st.substituted = min 4294967295 (o.stats.substituted + 1) ∧
            st.histogram = bin y (bin y1 (bin y0 o.stats.histogram)) ∧
            took { o' with wait := none, stats := st } t) ∧
        -- dark calibration (R123, R124)
        (s.dfm.covers line column = false → cal → o.wait = none → more → be + g.hot < v0 → v1 ≤ bo + g.hot →
          (s.dfm.firstIns = none ∨ line ≤ s.dfm.insLine) → s.dfm.rewrite = none →
          let k := s.dfm.entries.countP fun e => decide (e.row < line ∨ e.row = line ∧ e.column < column)
          (s.dfm.entries.length < 8192 → ∃ t, exec .writeBurstDelivery s = .next t ∧ word y0 y1 t ∧
            t.pce = ⟨some o', idle⟩ ∧ t.dfm.entries = s.dfm.entries.insertIdx k ⟨line, column, none, true⟩ ∧
            (s.dfm.firstIns = none → t.dfm.firstIns = some k) ∧
            (∀ j, s.dfm.firstIns = some j → t.dfm.firstIns = some (min j k)) ∧ t.dfm.insLine = line ∧
            t.dfm.rewrite = none ∧ t.dfm.drops = s.dfm.drops ∧ t.dfm.sequence = s.dfm.sequence ∧
            OnlyChanges [.posted, .pce, .dfm] s t) ∧
          (8192 ≤ s.dfm.entries.length → ∃ t, exec .writeBurstDelivery s = .next t ∧ word y0 y1 t ∧
            t.pce = ⟨some o', idle⟩ ∧ t.dfm.entries = s.dfm.entries ∧ t.dfm.drops = min 4294967295 (s.dfm.drops + 1) ∧
            t.dfm.fullRaised = true ∧ (s.dfm.fullRaised = false → Raised .mapFull t) ∧
            OnlyChanges [.posted, .pce, .dfm] s t)) ∧
        -- the last beat (R105, R106, R108, R126)
        (∀ r i, s.dfm.covers line column = false → o.wait = none → last → s.stb.find o.shot = some r → r.phase = .reading →
          r.slot = some i → i < s.stb.slots.length → (∀ e, s.prs.entries[r.profile]? = some e → e.waiting = none) →
          let st := { counted be bo o.stats with lines := min 9216 (o.stats.lines + 1) }
          let closed := fun t : State => word y0 y1 t ∧ t.hmp.queue = [] ∧
            (∀ n, n ≠ o.shot → t.stb.find n = s.stb.find n) ∧ t.dfm.entries = s.dfm.entries
          (s.dfm.firstIns = none → r.flags.darkCal = false → ∃ t, exec .writeBurstDelivery s = .next t ∧ closed t ∧
            t.pce = ⟨none, none⟩ ∧ t.stb.find o.shot = some { r with phase := .held, stats := st } ∧
            t.stb.slotState i = .held ∧ Raised .held t ∧ OnlyChanges [.posted, .pce, .dfm, .stb] s t) ∧
          (r.flags.darkCal = true → v0 ≤ be + g.hot → v1 ≤ bo + g.hot → s.dfm.rewrite = none →
            (s.dfm.firstIns = none → ∃ t, exec .writeBurstDelivery s = .next t ∧ closed t ∧ t.pce = ⟨none, none⟩ ∧
              t.stb.find o.shot = some { r with phase := .calibrated, slot := none, stats := st } ∧
              t.stb.slotState i = .free ∧ OnlyChanges [.posted, .pce, .dfm, .stb] s t) ∧
            (∀ k, s.dfm.firstIns = some k → k < s.dfm.entries.length → ∃ t, exec .writeBurstDelivery s = .next t ∧ closed t ∧
              t.pce = ⟨some { o' with stats := st, ending := some false }, none⟩ ∧
              t.stb.find o.shot = some { r with stats := st } ∧ t.dfm.rewrite = some ⟨k, s.dfm.entries.length⟩ ∧
              t.dfm.sequence = (s.dfm.sequence + 1) % 4294967296 ∧ OnlyChanges [.posted, .pce, .dfm, .stb] s t)))

/-- The readout idle limit runs out (R12, R78, R103, R105 to R108) in no dark calibration: the word that waits in the line hold
buffer is released without right neighbours; the record is HELD and INCOMPLETE with the statistics, the engine is IDLE, HELD is
raised; an image that waited becomes live. -/
def Obligations.ReadoutIdle : Prop :=
  ∀ (s : State) (o : Readout) (r : ShotRecord) (i us : Nat) (e : ProfileEntry), s.resetHeld = false →
    s.pce.readout = some o → s.pce.idle = some us → o.ending = none →
    (∀ p ∈ s.hmp.queue, p.heldBeats = []) → s.stb.find o.shot = some r → r.phase = .reading → r.slot = some i →
    i < s.stb.slots.length → r.flags.darkCal = false → s.prs.entries[r.profile]? = some e →
    let left := fun t : State => t.pce = ⟨none, none⟩ ∧ t.stb.slotState i = .held ∧
      t.stb.find o.shot = some { r with phase := .held, stats := releasedStats s o, flags := { r.flags with incomplete := true } } ∧
      (∀ n, n ≠ o.shot → t.stb.find n = s.stb.find n) ∧ t.dfm.entries = s.dfm.entries ∧
      t.dfm.rewrite = s.dfm.rewrite ∧ (∃ more, t.fmc.pending = s.fmc.pending ++ releasedWord s o ++ more) ∧ Raised .held t
    (e.waiting = none → ∃ t, exec .readoutIdleExpiry s = .next t ∧ left t ∧ OnlyChanges [.stb, .pce, .dfm] s t) ∧
    (∀ p, e.waiting = some p → ∃ t, exec .readoutIdleExpiry s = .next t ∧ left t ∧
      t.prs.entries = s.prs.entries.set r.profile ⟨some p, none⟩ ∧ t.prs.load = s.prs.load ∧
      Raised .profileApplied t ∧ OnlyChanges [.stb, .pce, .dfm, .prs] s t)

/-! ### The DRAM port -/

/-- The choice of the arbiter among the transactions that are not barred (R62): a part source passed over 16 times, in
round-robin order; else the host's read, pass-through write or developed write; else a part source in round-robin order. -/
def Obligations.ArbiterChoice : Prop :=
  ∀ (p : PassOver) (ts : List Txn) (k : Nat) (start : Source),
    ([.rqe, .cde, .scrubber, .prs, .dfm] : List Source)[k]? = some start →
    let order := ([.rqe, .cde, .scrubber, .prs, .dfm] : List Source).rotate k
    let oldest := fun src : Source => ts.find? fun t => t.kind.source == src
    let due := fun src : Source => p.get src = 16 ∧ oldest src ≠ none
    let hostOf := fun kind => ts.find? fun t : Txn => t.kind == kind
    let reads := ts.find? fun t : Txn => match t.kind with
      | .hostRead _ => true
      | _ => false
    let noneDue := ∀ src ∈ order, ¬ due src
    (∀ (j : Nat) (src : Source), order[j]? = some src → due src → (∀ (i : Nat) (q : Source), i < j → order[i]? = some q → ¬ due q) →
      choose p start ts = oldest src) ∧
    (noneDue → reads ≠ none → choose p start ts = reads) ∧
    (noneDue → reads = none → hostOf .hostWrite ≠ none → choose p start ts = hostOf .hostWrite) ∧
    (noneDue → reads = none → hostOf .hostWrite = none → hostOf .captureWrite ≠ none →
      choose p start ts = hostOf .captureWrite) ∧
    (noneDue → oldest .host = none →
      (∀ (j : Nat) (src : Source), order[j]? = some src → oldest src ≠ none → (∀ (i : Nat) (q : Source), i < j → order[i]? = some q → oldest q = none) →
        choose p start ts = oldest src) ∧
      ((∀ src ∈ order, oldest src = none) → choose p start ts = none))

/-- A grant (R62, R61, R129 to R131, R140, R143, R144): the counts and the turn after it; a read holds the port until it
completes. A write of the host, of developed pixels or of a card read replaces the bytes it brings and no other: in a codeword
it fills, with no read; in a part of one, by a merge that mends a correctable codeword and poisons one that is not usable; a
burst marked for its parity poisons every codeword it writes. Fresh check bits, spoiled once by an injection armed there; the
watch of a scrub step marked; the occurrences reported. A host write leaves its buffer and has the watched words observed, the
tail first (log 46). The model's choices: a write acts at its grant (log 8), and a source whose transactions are all barred
keeps its count (log 17). -/
def Obligations.PortGrant : Prop :=
  ∀ (s : State) (x : Txn), s.resetHeld = false → (s.hmp.path = .run ∨ s.hmp.path = .entering) →
    s.fmc.active = none → choose s.fmc.passOver s.fmc.nextPart (readyTxns [] s.fmc.pending) = some x →
    let host := x.kind.source = .host
    let counts := fun t : State =>
      (host → t.fmc.nextPart = s.fmc.nextPart ∧ ∀ src, src ≠ .host → t.fmc.passOver.get src =
        if (s.fmc.pending.find? fun t => t.kind.source == src) = none then 0
        else if ((readyTxns [] s.fmc.pending).find? fun t => t.kind.source == src) = none then s.fmc.passOver.get src
        else min 16 (s.fmc.passOver.get src + 1)) ∧
      (¬ host → t.fmc.passOver = {} ∧ t.fmc.nextPart = x.kind.source.next) ∧
      ∃ more, t.fmc.pending = s.fmc.pending.erase x ++ more
    ((∃ n, x.kind = .hostRead n ∨ x.kind = .entryRead ∨ x.kind = .slotRead ∨ x.kind = .scrubRead ∨ x.kind = .imageRead ∨
        x.kind = .listRead) → ∃ t, exec .dramGrant s = .next t ∧ counts t ∧ t.fmc.active = some x ∧
      OnlyChanges [.port] s t) ∧
    ((x.kind = .hostWrite ∨ x.kind = .captureWrite ∨ x.kind = .cardWrite) → MemOk s → x.bytes ≠ [] →
      (x.bytes.map (·.1)).Nodup → (x.kind = .hostWrite → s.hmp.waiting = []) →
      let written := x.bytes.map (·.1)
      let touched := fun cw => cw % 8 = 0 ∧ ∃ a ∈ written, cw ≤ a ∧ a < cw + 8
      let whole := fun cw => ∀ k < 8, cw + k ∈ written
      let cls := fun cw => (s.mem.check? cw).cls
      let parity := x.parity = true ∧ x.kind ≠ .cardWrite
      let bad := fun cw => ¬ whole cw ∧ (cls cw = .poisoned ∨ cls cw = .uncorrectable)
      let spoil : Nat → BitVec 8 := fun cw => match s.fmc.injection with
        | some (a, m) => if a = cw then m else 0
        | none => 0
      let failed := parity ∨ ∃ cw, touched cw ∧ bad cw
      let mended := ∃ cw, touched cw ∧ ¬ whole cw ∧ cls cw = .correctable
      let parts : List Part := [.port, .mem, .injection, .scrubber] ++
        if x.kind = .hostWrite then [.posted, .tail] else []
      ∃ t, exec .dramGrant s = .next t ∧ counts t ∧ t.fmc.active = none ∧
        (∀ c ∈ x.bytes, t.mem.byte c.1 = c.2) ∧
        (∀ a, a ∉ written → (touched (a / 8 * 8) → t.mem.byte a =
            ((s.mem.check? (a / 8 * 8)).data >>> (8 * (a % 8))).setWidth 8) ∧
          (¬ touched (a / 8 * 8) → t.mem.byte a = s.mem.byte a)) ∧
        (∀ cw, touched cw →
          (parity ∨ bad cw → t.mem.checkAt cw = checkBits (t.mem.wordAt cw) ^^^ 0x81 ^^^ spoil cw) ∧
          (¬ parity → ¬ bad cw → t.mem.checkAt cw = checkBits (t.mem.wordAt cw) ^^^ spoil cw)) ∧
        (∀ a, ¬ touched a → t.mem.checkAt a = s.mem.checkAt a) ∧
        (s.fmc.injection = none → t.fmc.injection = none) ∧
        (∀ a m, s.fmc.injection = some (a, m) → (touched a → t.fmc.injection = none) ∧
          (¬ touched a → t.fmc.injection = some (a, m))) ∧
        (s.fmc.scrub = none → t.fmc.scrub = none) ∧
        (∀ st, s.fmc.scrub = some st →
          (touched st.addr → t.fmc.scrub = some { st with watch := st.watch.map fun _ => true }) ∧
          (¬ touched st.addr → t.fmc.scrub = some st)) ∧
        t.fmc.scrubPos = s.fmc.scrubPos ∧ t.fmc.passes = s.fmc.passes ∧ t.fmc.pace = s.fmc.pace ∧
        (failed → Raised .memUncorrectable t ∧
          (s.fmc.uncorrectable < 4294967295 → s.fmc.uncorrectable < t.fmc.uncorrectable)) ∧
        (mended → Raised .memCorrected t) ∧
        (x.kind = .hostWrite →
          (∀ p more, s.hmp.queue = p :: more →
            t.hmp.queue = if p.heldBeats = [] then more else { p with passWaits := false } :: more) ∧
          let saw := fun a => !x.parity && x.bytes.any fun c => decide (a ≤ c.1 ∧ c.1 < a + 4)
          let value := fun a => fromLe ((List.range 4).map fun k => t.mem.byte (a + k))
          t.rqe.observed = s.rqe.observed ++ (if saw 0x3F001000 then [.tail (value 0x3F001000)] else []) ++
            (if saw 0x3F001004 then [.clear (value 0x3F001004)] else []) ∧
          t.rqe.tail = s.rqe.tail ∧ t.rqe.ringFaults = s.rqe.ringFaults ∧ t.hmp.waiting = [] ∧
          t.hmp.nextId = s.hmp.nextId) ∧
        (¬ failed → ¬ mended → OnlyChanges parts s t) ∧ OnlyChanges (parts ++ [.stb, .errors]) s t)

/-- The part's own writes as they are granted (R115, R140, R144, R198, R200, R201, R206), all of whole codewords with fresh
check bits, spoiled once by an injection armed there, the watch of a scrub step on them marked: the completion of the request
in service; a piece of the status block, as the image stands; a shot table mirror entry in four parts, its update number in
the first and in the last; a position of the error log mirror, and its header; positions of the defect map mirror, as the map
stands; a scrub rewrite, which is withdrawn when its watch is marked. A mirror write that is complete counts for the
occurrences, and for an answer, that wait for it. That a write acts at its grant is the model's choice (log 8). -/
def Obligations.PortWrites : Prop :=
  ∀ (s : State) (x : Txn), s.resetHeld = false → (s.hmp.path = .run ∨ s.hmp.path = .entering) →
    s.fmc.active = none → choose s.fmc.passOver s.fmc.nextPart (readyTxns [] s.fmc.pending) = some x → MemOk s →
    let put := fun (a : Nat) (bs : List Byte) (t : State) =>
      let inside := fun c => a ≤ c ∧ c < a + bs.length
      (∀ k b, bs[k]? = some b → t.mem.byte (a + k) = b) ∧ (∀ j, ¬ inside j → t.mem.byte j = s.mem.byte j) ∧
      (∀ cw, cw % 8 = 0 → inside cw → t.mem.checkAt cw = checkBits (t.mem.wordAt cw) ^^^
        match s.fmc.injection with
        | some (c, m) => if c = cw then m else 0
        | none => 0) ∧
      (∀ j, ¬ (j % 8 = 0 ∧ inside j) → t.mem.checkAt j = s.mem.checkAt j) ∧
      (s.fmc.injection = none → t.fmc.injection = none) ∧
      (∀ c m, s.fmc.injection = some (c, m) → t.fmc.injection = if c % 8 = 0 ∧ inside c then none else some (c, m)) ∧
      t.fmc.scrubPos = s.fmc.scrubPos ∧ t.fmc.passes = s.fmc.passes ∧ t.fmc.pace = s.fmc.pace ∧
      t.fmc.passOver = {} ∧ t.fmc.nextPart = x.kind.source.next
    let watched := fun (a n : Nat) (t : State) => (s.fmc.scrub = none → t.fmc.scrub = none) ∧
      ∀ st, s.fmc.scrub = some st → t.fmc.scrub = some (if st.addr % 8 = 0 ∧ a ≤ st.addr ∧ st.addr < a + n then
        { st with watch := st.watch.map fun _ => true } else st)
    let base : List Part := [.port, .mem, .injection, .scrubber]
    let noAnswer := ∀ v a h, s.rqe.service = some v → v.stage ≠ .answering a h
    let held := fun (f : Hold → Hold) (t : State) =>
      (∀ r h, r ∈ s.rqe.raises → r.hold = some h →
        if (f h).done then t.rqe.flags &&& r.flag.mask ≠ 0 ∨ r.flag ∈ t.rqe.made
        else { r with hold := some (f h) } ∈ t.rqe.raises) ∧
      (∀ v a h, s.rqe.service = some v → v.stage = .answering a h →
        if (f h).done then Answered a s t else t.rqe.service = some { v with stage := .answering a (f h) } ∧
          t.rqe.lastAnswer = s.rqe.lastAnswer)
    (∀ k tag a, x.kind = .completionWrite → x.addr = 0x3F002060 + 128 * k →
      s.rqe.service = some ⟨some k, tag, .answered a⟩ → a.result.length ≤ 24 →
      let bs := le 2 tag ++ le 1 a.code.code ++ le 1 k ++ le 4 ((s.rqe.completionNo + 1) % 4294967296) ++ a.result ++
        List.replicate (24 - a.result.length) 0
      ∃ t, exec .dramGrant s = .next t ∧ put x.addr bs t ∧ watched x.addr 32 t ∧ t.fmc.active = some x ∧
        OnlyChanges base s t) ∧
    (∀ k, x.kind = .pieceWrite k → x.addr = 0x3F000000 + 64 * k → (statusPiece k s).length = 64 →
      ∃ t, exec .dramGrant s = .next t ∧ put x.addr (statusPiece k s) t ∧ watched x.addr 64 t ∧ t.fmc.active = some x ∧
        (k = 0 → t.rqe.carried = s.rqe.made ∧ OnlyChanges base s t) ∧
        (0 < k → t.rqe.carried = s.rqe.carried ∧ (s.fmc.injection = none → k ∉ t.rqe.marked) ∧
          (∀ r h, r ∈ s.rqe.raises → r.hold = some h → k ∈ h.pieces →
            { r with hold := some { h with pieces := h.pieces.filter (· != k), writing := true } } ∈ t.rqe.raises) ∧
          (∀ v a h, s.rqe.service = some v → v.stage = .answering a h → k ∈ h.pieces → t.rqe.service =
            some { v with stage := .answering a { h with pieces := h.pieces.filter (· != k), writing := true } }) ∧
          (noAnswer → OnlyChanges base s t) ∧ OnlyChanges (base ++ [.service]) s t)) ∧
    (x.kind = .mirrorWrite →
      let done := fun (a : Nat) (bs : List Byte) (rest : List MirrorJob) => x.bytes = cellsAt a bs →
        ∃ t, exec .dramGrant s = .next t ∧ put a bs t ∧ watched a bs.length t ∧ t.fmc.active = none ∧
          t.rqe.jobs = rest ∧ held (fun h => { h with jobs := h.jobs - 1 }) t ∧ (noAnswer → OnlyChanges base s t) ∧
          OnlyChanges (base ++ [.service]) s t
      (∀ e c u k rest, s.rqe.jobs = .shotEntry e c u k :: rest → k ≤ 3 →
        (∀ r, c = some r → r.stats.histogram.length = 16) →
        let a := 0x3F003000 + 256 * e + 64 * k
        let bs := ((mirrorEntry u c).drop (64 * k)).take 64
        bs.length = 64 ∧ (k = 0 → bs.take 4 = le 4 u) ∧ (k = 3 → bs.drop 60 = le 4 u) ∧
        (k = 3 → done a bs rest) ∧
        (k < 3 → (∀ v a h, s.rqe.service = some v → v.stage = .answering a h → h ≠ ⟨0, [], false⟩) →
          x.bytes = cellsAt a bs → ∃ t, exec .dramGrant s = .next t ∧ put a bs t ∧ watched a 64 t ∧
            t.fmc.active = none ∧ t.rqe.jobs = .shotEntry e c u (k + 1) :: rest ∧ OnlyChanges base s t)) ∧
      (∀ k c rest, s.rqe.jobs = .errorEntry k c :: rest → done (0x3F004020 + 32 * k) (errorEntryBytes c) rest) ∧
      (∀ u n o rest, s.rqe.jobs = .errorHeader u n o :: rest → done 0x3F004000 (errorHeaderBytes u n o) rest)) ∧
    (∀ r k n, x.kind = .mapWrite → x.addr = 0x3F010000 + 8 * k → x.len = 8 * n → s.dfm.rewrite = some r → r.next = k →
      let bs := (List.range n).flatMap fun i => defectBytes s.dfm.entries[k + i]?
      ∃ t, exec .dramGrant s = .next t ∧ put x.addr bs t ∧ watched x.addr (8 * n) t ∧ t.fmc.active = none ∧
        t.dfm = { s.dfm with rewrite := some { r with next := k + n } } ∧ OnlyChanges (base ++ [.dfm]) s t) ∧
    (∀ st d, x.kind = .scrubRewrite d → x.addr % 8 = 0 → s.fmc.scrub = some st →
      (st.watch = some true → ∃ t, exec .dramGrant s = .next t ∧ t.fmc.active = none ∧ t.fmc.scrub = none ∧
        t.fmc.scrubPos = s.fmc.scrubPos ∧ t.fmc.passes = s.fmc.passes ∧ t.fmc.pace = s.fmc.pace ∧
        OnlyChanges [.port, .scrubber] s t) ∧
      (st.watch ≠ some true → ∃ t, exec .dramGrant s = .next t ∧ put x.addr (le 8 d.toNat) t ∧ t.fmc.scrub = none ∧
        t.fmc.active = none ∧ OnlyChanges base s t))

/-- Parity on the bus is even (R54): eight bits and their parity bit hold an even number of ones. The classes of a codeword
(R127, R128): clean as written; every single error in a data bit or a check bit is correctable, with the data as written; a
codeword written with poison is poisoned; two errors are never taken for one error or for none. -/
def Obligations.ParityAndCodewords : Prop :=
  (∀ (b : WriteBeat) (w : BitVec 32),
     (WriteBeat.badParity b = true ↔ ∃ k, k < 4 ∧ b.enables.getLsbD k = true ∧
       (List.range 8).countP (fun j => b.data.getLsbD (8 * k + j)) % 2 ≠ (if b.parity.getLsbD k then 1 else 0)) ∧
     ∀ k, k < 4 → (parityBits w).getLsbD k = decide ((List.range 8).countP (fun j => w.getLsbD (8 * k + j)) % 2 = 1)) ∧
  ∀ d : BitVec 64,
    classify d (checkBits d) = ⟨.clean, 0, d⟩ ∧
    (∀ k, k < 64 → ∃ syn, columns[k]? = some syn ∧
      classify (d ^^^ (1#64 <<< k)) (checkBits d) = ⟨.correctable, syn, d⟩) ∧
    (∀ k, k < 8 → classify d (checkBits d ^^^ (1#8 <<< k)) = ⟨.correctable, 1#8 <<< k, d⟩) ∧
    classify d (checkBits d ^^^ 0x81) = ⟨.poisoned, 0x81, d⟩ ∧
    (∀ j k, j < 64 → k < 64 → j ≠ k →
      let c := classify (d ^^^ (1#64 <<< j) ^^^ (1#64 <<< k)) (checkBits d)
      c.cls = .poisoned ∨ c.cls = .uncorrectable) ∧
    (∀ j k, j < 8 → k < 8 → j ≠ k →
      let c := classify d (checkBits d ^^^ (1#8 <<< j) ^^^ (1#8 <<< k))
      c.cls = .poisoned ∨ c.cls = .uncorrectable) ∧
    (∀ j k, j < 64 → k < 8 →
      let c := classify (d ^^^ (1#64 <<< j)) (checkBits d ^^^ (1#8 <<< k))
      c.cls = .poisoned ∨ c.cls = .uncorrectable)

/-- Reads of the port complete (R53, R55, R132, R143, R197); those of an image, a list and a slot stand with the loads and the
drain. A host read over clean codewords: each beat carries memory's bytes or, out of range, zeros, with its parity; over
correctable ones too, the bytes corrected, memory as it was, the occurrence reported, the addresses offered to the scrubber's
queue; over a codeword that is not usable the burst is answered ERROR. A read of the ring entry: its bytes join those read,
and the second read of the entry follows the first. -/
def Obligations.ReadsComplete : Prop :=
  (∀ (s : State) (x : Txn) (n m : Nat), s.resetHeld = false → s.fmc.active = some x → x.kind = .hostRead n →
     x.addr % 4 = 0 → x.len = 4 * m → 1 ≤ m → m ≤ n →
     let touched := fun cw => cw % 8 = 0 ∧ x.addr < cw + 8 ∧ cw < x.addr + x.len
     let cls := fun cw => (s.mem.check? cw).cls
     let freed := fun t : State => t.fmc.active = none ∧ t.fmc.passOver = s.fmc.passOver ∧ t.fmc.nextPart = s.fmc.nextPart
     let carries := fun (byte : Nat → Byte) (r : Response) => r.write = false ∧ (r.error = true ↔ m < n) ∧
       r.beats.length = n ∧ ∀ k, k < n → ∃ w, r.beats[k]? = some (w, parityBits w) ∧
         if k < m then ∀ j, j < 4 → laneOf w j = byte (x.addr + 4 * k + j) else w = 0
     ((∀ cw, touched cw → cls cw = .clean) → ∃ t r, exec .hostReadComplete s = .next t ∧ freed t ∧
       t.hmp.response = some r ∧ carries s.mem.byte r ∧ OnlyChanges [.port, .response] s t) ∧
     ((∀ cw, touched cw → cls cw = .clean ∨ cls cw = .correctable) → (∃ cw, touched cw ∧ cls cw = .correctable) →
       ∃ t r, exec .hostReadComplete s = .next t ∧ freed t ∧ t.hmp.response = some r ∧
         carries (fun a => ((s.mem.check? (a / 8 * 8)).data >>> (8 * (a % 8))).setWidth 8) r ∧
         Raised .memCorrected t ∧ (∃ more, t.fmc.corrected = s.fmc.corrected ++ more) ∧
         (∀ cw, touched cw → cls cw = .correctable → cw ∈ t.fmc.corrected ∨ 8 ≤ t.fmc.corrected.length) ∧
         (x.addr + x.len ≤ 0x10000000 → s.fmc.corrGeneral < 4294967295 → s.fmc.corrGeneral < t.fmc.corrGeneral) ∧
         t.fmc.errlog = s.fmc.errlog ∧ t.fmc.uncorrectable = s.fmc.uncorrectable ∧
         OnlyChanges [.port, .response, .errors, .stb, .corrected] s t) ∧
     ((∃ cw, touched cw ∧ (cls cw = .poisoned ∨ cls cw = .uncorrectable)) →
       ∃ t r, exec .hostReadComplete s = .next t ∧ freed t ∧ t.hmp.response = some r ∧ r.write = false ∧
         r.error = true ∧ r.beats.length = n ∧ Raised .memUncorrectable t ∧
         (s.fmc.uncorrectable < 4294967295 → s.fmc.uncorrectable < t.fmc.uncorrectable) ∧
         OnlyChanges [.port, .response, .errors, .stb, .corrected] s t)) ∧
  ∀ (s : State) (x : Txn) (v : Service) (bytes : List Byte) (bad : Bool), s.resetHeld = false →
    s.fmc.active = some x → x.kind = .entryRead → x.addr % 8 = 0 → (x.len = 64 ∨ x.len = 32) →
    s.rqe.service = some v → v.stage = .reading bytes bad →
    (∀ k, k < x.len → k % 8 = 0 → (s.mem.check? (x.addr + k)).cls = .clean) →
    let all := bytes ++ (List.range x.len).map fun k => s.mem.byte (x.addr + k)
    ∃ t, exec .partReadComplete s = .next t ∧ t.rqe.service = some { v with stage := .reading all bad } ∧
      (all.length < 96 → Presented .entryRead (0x3F002000 + 128 * s.rqe.head + all.length) 32 t) ∧
      t.rqe.lastAnswer = s.rqe.lastAnswer ∧ t.fmc.active = none ∧ t.fmc.passOver = s.fmc.passOver ∧
      t.fmc.nextPart = s.fmc.nextPart ∧ OnlyChanges [.service, .port] s t

/-- The scrubber (R142 to R145): a step begun at the pace timer, of the corrected-address queue or of the walk, or none; its
read classed; a correctable codeword's rewrite presented under a watch. -/
def Obligations.ScrubSteps : Prop :=
  ∀ s : State, s.resetHeld = false →
    let free := s.fmc.scrub = none ∧ s.exs.quietReq = false ∧ s.hmp.path = .run
    let begun := fun (addr pos : Nat) (queued : Bool) (t : State) => t.fmc.pace = 64 ∧
      t.fmc.scrub = some ⟨addr, queued, none⟩ ∧ t.fmc.scrubPos = pos ∧ t.fmc.passes = s.fmc.passes ∧
      Presented .scrubRead addr 8 t ∧ OnlyChanges [.scrubber] s t
    (¬ free → ∃ t, exec .scrubPaceExpiry s = .next t ∧ t.fmc.pace = 64 ∧ t.fmc.scrub = s.fmc.scrub ∧
      t.fmc.scrubPos = s.fmc.scrubPos ∧ t.fmc.passes = s.fmc.passes ∧ OnlyChanges [.scrubber] s t) ∧
    (free → ∀ before a more, s.fmc.corrected = before ++ a :: more →
      (∀ q ∈ before, s.stb.stateAt q = some .readout) → s.stb.stateAt a ≠ some .readout →
      ∃ t, exec .scrubPaceExpiry s = .next t ∧ begun a s.fmc.scrubPos true t) ∧
    (free → (∀ q ∈ s.fmc.corrected, s.stb.stateAt q = some .readout) →
      (s.stb.stateAt s.fmc.scrubPos ≠ some .readout → ∃ t, exec .scrubPaceExpiry s = .next t ∧
        begun s.fmc.scrubPos s.fmc.scrubPos false t) ∧
      (∀ i, s.stb.slotAt s.fmc.scrubPos = some i → s.stb.slotState i = .readout →
        ∃ t, exec .scrubPaceExpiry s = .next t ∧ begun (s.stb.slotBase (i + 1)) (s.stb.slotBase (i + 1)) false t)) ∧
    (∀ x st, s.fmc.active = some x → x.kind = .scrubRead → s.fmc.scrub = some st →
      let c := s.mem.check? st.addr
      let moved := fun t : State => t.fmc.active = none ∧ t.fmc.passOver = s.fmc.passOver ∧
        t.fmc.nextPart = s.fmc.nextPart ∧ t.fmc.pace = s.fmc.pace ∧
        if st.queued then t.fmc.corrected = s.fmc.corrected.filter (· != st.addr) ∧
          t.fmc.scrubPos = s.fmc.scrubPos ∧ t.fmc.passes = s.fmc.passes
        else t.fmc.corrected = s.fmc.corrected ∧
          (if st.addr + 8 < 0x40000000 then t.fmc.scrubPos = st.addr + 8 ∧ t.fmc.passes = s.fmc.passes
           else t.fmc.scrubPos = 0 ∧ t.fmc.passes = (s.fmc.passes + 1) % 4294967296)
      (c.cls = .clean → ∃ t, exec .scrubReadComplete s = .next t ∧ moved t ∧ t.fmc.scrub = none ∧
        OnlyChanges [.port, .scrubber, .corrected] s t) ∧
      (c.cls = .correctable → st.queued = true → ∃ t, exec .scrubReadComplete s = .next t ∧ moved t ∧
        t.fmc.scrub = some { st with watch := some false } ∧ Presented (.scrubRewrite c.data) st.addr 8 t ∧
        OnlyChanges [.port, .scrubber, .corrected] s t) ∧
      (c.cls = .correctable → st.queued = false → ∃ t, exec .scrubReadComplete s = .next t ∧ moved t ∧
        t.fmc.scrub = some { st with watch := some false } ∧ Presented (.scrubRewrite c.data) st.addr 8 t ∧
        Raised .memCorrected t ∧ OnlyChanges [.port, .scrubber, .corrected, .stb, .errors] s t) ∧
      ((c.cls = .poisoned ∨ c.cls = .uncorrectable) → ∃ t, exec .scrubReadComplete s = .next t ∧ moved t ∧
        t.fmc.scrub = none ∧ Raised .memUncorrectable t ∧
        OnlyChanges [.port, .scrubber, .corrected, .stb, .errors] s t))

/-! ### The Analog Monitor -/

/-- The schedule of the monitor (R148): the sample timer begins a sweep unless one is in progress; the free converter takes
the oldest on-demand request, else the sweep's next channel, and each conversion lasts 40 us. -/
def Obligations.MonitorSchedule : Prop :=
  ∀ s : State, s.resetHeld = false → s.amn.stopped = false →
    let same := fun (a : Amn) (t : State) => { t.amn with stopped := s.amn.stopped, stopAsked := s.amn.stopAsked } = a
    let sweeping := s.amn.sweep ≠ none ∨ ∃ c, s.amn.conv = some c ∧ c.demand = none
    (sweeping → ∃ t, exec .sampleTimerExpiry s = .next t ∧
      same { s.amn with sampleTimer := s.amn.settings.interval * 1000 } t ∧ OnlyChanges [.monitor] s t) ∧
    (¬ sweeping → ∃ t, exec .sampleTimerExpiry s = .next t ∧
      same { s.amn with sampleTimer := s.amn.settings.interval * 1000, sweep := some .temp } t ∧
      OnlyChanges [.monitor] s t) ∧
    (s.amn.conv = none → s.amn.stopAsked = false →
      (∀ d more, s.amn.queue = d :: more → ∃ t, exec .conversionStart s = .next t ∧
        same { s.amn with queue := more, conv := some ⟨if d = .card then .card else .temp, some d, true, 40⟩ } t ∧
        OnlyChanges [.monitor] s t) ∧
      (∀ c, s.amn.queue = [] → s.amn.sweep = some c → ∃ t, exec .conversionStart s = .next t ∧
        same { s.amn with sweep := if c = .temp then some .batt else if c = .batt then some .card else none, conv := some ⟨c, none, true, 40⟩ } t ∧
        OnlyChanges [.monitor] s t) ∧
      (s.amn.queue = [] → s.amn.sweep = none → ∃ t, exec .conversionStart s = .next t ∧ same s.amn t ∧
        OnlyChanges [] s t))

/-- A conversion completes (R50, R94 to R96, R147, R149, R150, R152 to R156, R190). Settings that wait take effect with its
end. A result that does not stand is dropped: a void start temperature leaves its record as it was, a void end temperature
gives the dark offset from what the record has. TEMP gives value, level, alarm and TEMP_WARN, with the rewrite of every
record warned; a shot's start temperature goes to its record; its end temperature gives the dark offset and its rewrite,
whether or not the record changed (the rewrites' moments are the model's choice, log 9), and the capture burst held at the
head of the posted-write queue is taken in the same event, as its delivery would take it then. BATT gives value, level and
alarm, and its change to or from CRITICAL parks or powers up the card by what the card is at: in RUN and FILLING a parked
card is powered up, and in the standby entry, STANDBY and the wake it is not (the model's reading, log 23). A CARD value
that no step of the card waits for is held with its moment. -/
def Obligations.ConversionEnds : Prop :=
  ∀ (code : BitVec 12) (s : State) (c : Conversion), s.resetHeld = false → s.amn.conv = some c →
    let m := s.amn.settings
    let value := fun (lo hi slope offset : Int) => max lo (min hi (offset + (code.toNat : Int) * slope / 4096))
    let fin := fun (a : Amn) => match s.amn.next with
      | none => { a with conv := none }
      | some n => { a with conv := none, settings := n, next := none, sampleTimer := if n.interval = m.interval then a.sampleTimer else n.interval * 1000 }
    let same := fun (a : Amn) (t : State) => { t.amn with stopped := s.amn.stopped, stopAsked := s.amn.stopAsked } = fin a
    let queued := fun (r : ShotRecord) (t : State) => ∃ u, MirrorJob.shotEntry r.entry (some r) u 0 ∈ t.rqe.jobs
    let awaits := fun (n : Nat) (o : Readout) => s.pce.readout = some o ∧ o.shot = n ∧ o.dark = none ∧ o.ending = none ∧
      ∀ p ∈ s.hmp.queue, p.heldBeats = []
    let holds := fun (n : Nat) (o : Readout) (p : Posted) (rest : List Posted) => s.pce.readout = some o ∧ o.shot = n ∧
      o.dark = none ∧ o.ending = none ∧ s.hmp.queue = p :: rest ∧ p.heldBeats ≠ [] ∧ s.hmp.waiting = [] ∧
      (s.hmp.path = .run ∨ s.hmp.path = .entering) ∧
      ∀ b ∈ p.heldBeats, b.enables ≠ 0 ∧ s.stb.stateAt b.addr = some .readout
    let takesHeld := fun (o : Readout) (p : Posted) (rest : List Posted) (d : Nat) (st : Stb) (fine : State → Prop) =>
      ∃ t u, exec (.conversionComplete code) s = .next t ∧ fine t ∧
        exec .writeBurstDelivery { s with stb := st, pce := ⟨some { o with dark := some d }, s.pce.idle⟩, hmp := { s.hmp with queue := { p with beats := p.heldBeats, delivered := false } :: rest } } = .next u ∧
        t.stb = u.stb ∧ t.pce = u.pce ∧ t.dfm = u.dfm ∧ t.prs = u.prs ∧
        t.hmp.queue = (if p.passWaits then { p with heldBeats := [] } :: rest else rest) ∧
        (∀ x ∈ u.fmc.pending, x.kind = .captureWrite → x ∈ t.fmc.pending) ∧
        OnlyChanges [.monitor, .stb, .pce, .dfm, .prs, .posted] s t
    (c.stands = false →
      ((c.channel ≠ .card ∧ c.demand = none ∨ (∃ n, c.channel ≠ .card ∧ c.demand = some (.tempStart n)) ∨
          c.channel = .card ∧ (c.demand = none ∨ c.demand = some .card) ∧ s.cde.state ≠ .fault ∧ s.cde.state ≠ .ready) →
        ∃ t, exec (.conversionComplete code) s = .next t ∧ same s.amn t ∧ OnlyChanges [.monitor] s t) ∧
      (∀ n r o, c.channel ≠ .card → c.demand = some (.tempEnd n) → s.stb.find n = some r → r.tempEnd = none →
        awaits n o →
        let d := offsetOf o.image r (r.tempStart.getD 100)
        ∃ t, exec (.conversionComplete code) s = .next t ∧ same s.amn t ∧
          t.stb = s.stb.update n (fun r => { r with dark := d }) ∧ queued { r with dark := d } t ∧
          t.pce = ⟨some { o with dark := some d }, s.pce.idle⟩ ∧ OnlyChanges [.monitor, .stb, .pce] s t) ∧
      (∀ n r o p rest, c.channel ≠ .card → c.demand = some (.tempEnd n) → s.stb.find n = some r → r.tempEnd = none →
        holds n o p rest →
        let d := offsetOf o.image r (r.tempStart.getD 100)
        takesHeld o p rest d (s.stb.update n fun r => { r with dark := d }) fun t =>
          same s.amn t ∧ queued { r with dark := d } t)) ∧
    (c.stands = true → c.channel = .temp →
      let v := value (-160) 500 m.tempSlope m.tempOffset
      let level := if m.limit ≤ v then TempLevel.limit
        else if s.amn.tempLevel = .limit ∧ m.limit - 8 ≤ v then .limit else if m.warn ≤ v then .warn
        else if s.amn.tempLevel ≠ .normal ∧ m.warn - 8 ≤ v then .warn else .normal
      let warned := { s.stb with records := if level = .normal then s.stb.records else s.stb.records.map fun r => if r.phase = .waiting ∨ r.phase = .exposing then { r with flags := { r.flags with tempWarn := true } } else r }
      let temp := fun t : State => same { s.amn with temp := some v, tempValid := true, tempLevel := level } t ∧
        (level ≠ .normal → Raised .tempAlarm t ∧ ∀ r, warned.find r.shot = some r →
          (r.phase = .waiting ∨ r.phase = .exposing) → queued r t)
      (c.demand = none → ∃ t, exec (.conversionComplete code) s = .next t ∧ temp t ∧ t.stb = warned ∧
        OnlyChanges [.monitor, .stb] s t) ∧
      (∀ n, c.demand = some (.tempStart n) → ∃ t, exec (.conversionComplete code) s = .next t ∧ temp t ∧
        t.stb = warned.update n (fun r => { r with tempStart := some v }) ∧ OnlyChanges [.monitor, .stb] s t) ∧
      (∀ n r o, c.demand = some (.tempEnd n) → warned.find n = some r → awaits n o →
        let d := offsetOf o.image r (match r.tempStart with | some a => (a + v) / 2 | none => v)
        ∃ t, exec (.conversionComplete code) s = .next t ∧ temp t ∧
          t.stb = (warned.update n (fun r => { r with tempEnd := some v, dark := d })) ∧
          queued { r with tempEnd := some v, dark := d } t ∧ t.pce = ⟨some { o with dark := some d }, s.pce.idle⟩ ∧
          OnlyChanges [.monitor, .stb, .pce] s t) ∧
      (∀ n r o p rest, c.demand = some (.tempEnd n) → warned.find n = some r → holds n o p rest →
        let d := offsetOf o.image r (match r.tempStart with | some a => (a + v) / 2 | none => v)
        takesHeld o p rest d (warned.update n fun r => { r with tempEnd := some v, dark := d }) fun t =>
          temp t ∧ queued { r with tempEnd := some v, dark := d } t)) ∧
    (c.stands = true → c.channel = .batt → c.demand = none →
      let v := value 0 65535 m.battSlope m.battOffset
      let level := if v ≤ m.critFloor then BattLevel.critical
        else if s.amn.battLevel = .critical ∧ v ≤ m.critFloor + 100 then .critical else if v ≤ m.armFloor then .low
        else if s.amn.battLevel ≠ .normal ∧ v ≤ m.armFloor + 100 then .low else .normal
      let batt := { s.amn with batt := some v, battValid := true, battLevel := level }
      let then' := fun (d : Cde) (ps : List Part) => ∃ t, exec (.conversionComplete code) s = .next t ∧ same batt t ∧
        (level ≠ .normal → Raised .batteryAlarm t) ∧ t.cde = d ∧ OnlyChanges (.monitor :: .cde :: ps) s t
      let owes := { s.cde with parkOwed := true }
      let parked := { s.cde with parkAsked := false, parkOwed := false, lines := .highZ, pwrEn := false, rail := .discharging, discharge := true, dischargeTimer := some 500000, dischargeFor := .park, rampTimer := none, busTimer := none, powerUp := none, ident := none, identDrop := none, ocCount := 0, state := .discharging }
      let falls := level = .critical ∧ s.amn.battLevel ≠ .critical
      let recovers := level ≠ .critical ∧ s.amn.battLevel = .critical
      (¬ falls → ¬ recovers → then' s.cde []) ∧
      (falls →
        ((s.cde.state = .absent ∨ s.cde.state = .parked ∨ s.cde.state = .fault) → then' s.cde []) ∧
        (s.cde.state = .reading ∨ (s.cde.state = .ready ∧ s.cde.reads ≠ []) ∨
          (s.cde.state = .writing ∧ s.cde.container = none) → then' owes []) ∧
        (s.cde.state = .ready → s.cde.reads = [] → then' parked [.pins]) ∧
        (s.cde.state = .unformatted → s.cde.run = none → then' parked [.pins]) ∧
        (s.cde.state = .powering → s.cde.run = none → s.cde.pwrEn = false →
          then' { s.cde with parkAsked := false, parkOwed := false, state := .parked, powerUp := none } []) ∧
        (s.cde.state = .powering → s.cde.run = none → s.cde.pwrEn = true → then' parked [.pins]) ∧
        (s.cde.state = .identifying → s.cde.run = none →
          (s.cde.ident = some .sent → then' { s.cde with parkAsked := false, parkOwed := false, identDrop := some .park } []) ∧
          (s.cde.ident ≠ some .sent → then' parked [.pins])) ∧
        (s.cde.state = .discharging → s.cde.run = none →
          then' (if s.cde.dischargeFor = .powerUp then { s.cde with parkAsked := false, parkOwed := false, dischargeFor := .park } else s.cde) []) ∧
        (∀ k r, s.cde.state = .writing → s.cde.container = some k → k.stage ≠ .logUpdate → s.cde.run = some r →
          let left := k.blocks + 2 - (k.done + r.done)
          (left ≤ 64 → then' owes []) ∧
          (64 < left → k.stage ≠ .summing → r.stage ≠ .waiting →
            then' { owes with container := some { k with park := true }, run := some { r with stop := true } } [])) ∧
        (∀ k, s.cde.state = .writing → s.cde.container = some k → k.stage = .logUpdate → k.done = k.blocks + 2 →
          then' owes []) ∧
        (∀ k, s.cde.state = .writing → s.cde.container = some k → k.stage = .summing → s.cde.run = none → k.done = 0 →
          62 < k.blocks → (∃ x, s.fmc.active = some x ∧ x.kind = .slotRead) →
          then' { owes with container := some { k with park := true } } [])) ∧
      (recovers →
        (s.cde.state = .parked → s.cde.run = none → (s.hmp.path = .run ∨ s.hmp.path = .filling) →
          Demand.card ∉ s.amn.queue → ∃ t, exec (.conversionComplete code) s = .next t ∧
          same { batt with queue := s.amn.queue ++ [.card] } t ∧ (level ≠ .normal → Raised .batteryAlarm t) ∧
          t.cde = { s.cde with parkOwed := false, rail := .off, lines := .highZ, powerUp := some .reading, state := .powering } ∧
          OnlyChanges [.monitor, .cde] s t) ∧
        (s.cde.state ≠ .parked ∨ (s.hmp.path ≠ .run ∧ s.hmp.path ≠ .filling) →
          then' { s.cde with parkOwed := false } []))) ∧
    (c.stands = true → c.channel = .card → (c.demand = none ∨ c.demand = some .card) → s.cde.discharge = false →
      s.cde.powerUp ≠ some .reading → s.cde.rampTimer = none →
      let v := value 0 65535 m.cardSlope m.cardOffset
      let read := fun t : State => same { s.amn with card := some v, cardValid := true } t
      let held := { s.cde with reading := some v, readingAt := some s.exs.timeBase }
      (s.cde.state ≠ .fault → s.cde.state ≠ .ready → ∃ t, exec (.conversionComplete code) s = .next t ∧ read t ∧
        t.cde = held ∧ OnlyChanges [.monitor, .cde] s t) ∧
      (s.cde.state = .fault → s.cde.ended = [] → ∃ t, exec (.conversionComplete code) s = .next t ∧ read t ∧
        t.cde = held ∧ Raised .cardFault t ∧ OnlyChanges [.monitor, .cde] s t) ∧
      (∀ before r after g size, s.cde.state = .ready → s.stb.records = before ++ r :: after →
        (∀ q ∈ before, q.phase ≠ .held) → r.phase = .held → s.cde.geometry = some g → s.cde.capacity = some size →
        ∃ t, exec (.conversionComplete code) s = .next t ∧ read t ∧ t.cde = held ∧
          (size < g.nextFree + (r.pitch.getD 0 * r.stats.lines + 511) / 512 + 2 → Raised .cardFull t) ∧
          OnlyChanges [.monitor, .cde] s t))

/-! ### The card -/

/-- Power and detection of a card (R160 to R168, R176): the poll of the rail; a CARD reading that decides a power-up (also
that of a run's power cycle, which keeps the card's state, R175), ends the ramp, or ends a discharge by what the discharge
is for; the ends of the ramp's and the discharge's time, and an overcurrent, by FAULT; insertion and removal, with the
record of a container cut short by the removal. The flag of a fault or a removal is raised once no card read's result is
owed. The model's readings: a park's discharge ends PARKED, with no power-up, outside RUN and FILLING too (log 23), and the
reading that ends a power-up's discharge is judged as the power-up's first (log 29). -/
def Obligations.CardPower : Prop :=
  ∀ s : State, s.resetHeld = false →
    let dropped := fun (c : Cde) => { c with run := none, block := [], mount := none, format := none, geometry := none, powerUp := none, ident := none, identDrop := none, busTimer := none, parkAsked := false, parkOwed := false }
    let down := fun (why : DischargeFor) (c : Cde) => { c with lines := .highZ, pwrEn := false, rail := .discharging, discharge := true, dischargeTimer := some 500000, dischargeFor := why, rampTimer := none, ocCount := 0 }
    let nowork := s.cde.container = none ∧ s.cde.reads = [] ∧ s.cde.serving = none
    let owes := fun (f : EventFlag) (c : Cde) => { c with owed := if s.cde.ended = [] ∨ f ∈ s.cde.owed then s.cde.owed else s.cde.owed ++ [f] }
    let faulted := fun (c : Instr) (cause : FaultCause) => ∃ t, exec c s = .next t ∧
      t.cde = owes .cardFault { down .fault (dropped s.cde) with state := .fault, faultCause := cause } ∧
      (s.cde.ended = [] → Raised .cardFault t) ∧ OnlyChanges [.cde, .pins] s t
    ((s.cde.discharge = true ∨ s.cde.rampTimer ≠ none) → Demand.card ∉ s.amn.queue →
      ∃ t, exec .cardRailPollTick s = .next t ∧ t.amn.queue = s.amn.queue ++ [.card] ∧ OnlyChanges [.monitor] s t) ∧
    (s.cde.discharge = false → s.cde.rampTimer = none →
      ∃ t, exec .cardRailPollTick s = .next t ∧ OnlyChanges [] s t) ∧
    (∀ (code : BitVec 12) (c : Conversion), s.amn.conv = some c → c.stands = true → c.channel = .card →
      (c.demand = none ∨ c.demand = some .card) → s.cde.state ≠ .fault → s.cde.state ≠ .ready →
      let v := max 0 (min 65535 (s.amn.settings.cardOffset + (code.toNat : Int) * s.amn.settings.cardSlope / 4096))
      let cycling := ∃ r, s.cde.run = some r ∧ r.stage = .cycling
      let held := { s.cde with reading := some v, readingAt := some s.exs.timeBase }
      let off := { held with discharge := false, dischargeTimer := none, rail := .off }
      let becomes := fun (d : Cde) => ∃ t, exec (.conversionComplete code) s = .next t ∧ t.cde = d ∧
        OnlyChanges [.monitor, .cde] s t
      let enters := fun (st : CardState) (d : Cde) => (cycling → becomes { d with state := s.cde.state }) ∧
        (¬ cycling → becomes { d with state := st })
      let on := fun (d : Cde) => { d with lines := .low, pwrEn := true, rail := .ramping, rampTimer := some 20000, powerUp := none, ocCount := 0 }
      let judged := fun (d : Cde) => (s.exs.quietReq = true → enters .powering { d with powerUp := some .quiet }) ∧
        (s.exs.quietReq = false → enters .powering (on d))
      (s.cde.discharge = false → s.cde.powerUp = some .reading →
        (300 ≤ v → enters .discharging { held with powerUp := none, rail := .discharging, discharge := true, dischargeTimer := some 500000, dischargeFor := if s.cde.run.any (fun r => r.stage == .cycling) then .cycle else .powerUp }) ∧
        (v < 300 → judged held)) ∧
      (s.cde.discharge = false → s.cde.powerUp ≠ some .reading → s.cde.rampTimer ≠ none →
        (2900 ≤ v → enters .identifying { held with rampTimer := none, rail := .on, lines := .driven, ident := some .waiting }) ∧
        (v < 2900 → becomes held)) ∧
      (s.cde.discharge = true → 300 ≤ v → becomes held) ∧
      (s.cde.discharge = true → v < 300 →
        (s.cde.dischargeFor = .removal → becomes { off with state := .absent }) ∧
        (s.cde.dischargeFor = .powerUp ∨ s.cde.dischargeFor = .cycle → judged off) ∧
        (s.cde.dischargeFor = .park → s.cde.run = none →
          (s.amn.battLevel = .critical ∨ (s.hmp.path ≠ .run ∧ s.hmp.path ≠ .filling) →
            becomes { off with state := .parked, powerUp := none }) ∧
          (s.amn.battLevel ≠ .critical → (s.hmp.path = .run ∨ s.hmp.path = .filling) → Demand.card ∉ s.amn.queue →
            ∃ t, exec (.conversionComplete code) s = .next t ∧
              t.cde = { off with state := .powering, powerUp := some .reading, lines := .highZ } ∧
              t.amn.queue = s.amn.queue ++ [.card] ∧ OnlyChanges [.monitor, .cde] s t)))) ∧
    (∀ (code : BitVec 12) (c : Conversion), s.amn.conv = some c → c.stands = true → c.channel = .card →
      (c.demand = none ∨ c.demand = some .card) → s.cde.state = .fault → s.cde.discharge = true →
      s.cde.dischargeFor = .fault → s.cde.ended = [] →
      s.amn.settings.cardOffset + (code.toNat : Int) * s.amn.settings.cardSlope / 4096 < 300 →
      ∃ t, exec (.conversionComplete code) s = .next t ∧ t.cde.discharge = false ∧ t.cde.dischargeTimer = none ∧
        t.cde.rail = .off ∧ t.cde.state = .fault ∧ Raised .cardFault t ∧ OnlyChanges [.monitor, .cde] s t) ∧
    (nowork → s.cde.pwrEn = true → s.cde.rampTimer ≠ none → faulted .rampTimerExpiry .ramp) ∧
    (nowork → s.cde.pwrEn = true → faulted .cardOvercurrent .overcurrent) ∧
    (s.cde.pwrEn = false → ∃ t, exec .cardOvercurrent s = .next t ∧ OnlyChanges [] s t) ∧
    (nowork → s.cde.pwrEn = false → s.cde.dischargeTimer ≠ none → s.cde.state ≠ .fault →
      ∃ t, exec .dischargeTimerExpiry s = .next t ∧
        t.cde = owes .cardFault { dropped s.cde with discharge := false, dischargeTimer := none, rail := .off, rampTimer := none, state := .fault, faultCause := .discharge } ∧
        (s.cde.ended = [] → Raised .cardFault t) ∧ OnlyChanges [.cde] s t) ∧
    (s.cde.dischargeTimer ≠ none → s.cde.state = .fault → ∃ t, exec .dischargeTimerExpiry s = .next t ∧
      t.cde = { s.cde with discharge := false, dischargeTimer := none, rail := .off } ∧ OnlyChanges [.cde] s t) ∧
    (s.cde.detected = false → s.hmp.path = .run → s.cde.discharge = false → s.cde.run = none →
      Demand.card ∉ s.amn.queue → ∃ t, exec .cardInsertion s = .next t ∧
        t.cde = { s.cde with detected := true, detCount := 50, detLevel := true, rail := .off, lines := .highZ, powerUp := some .reading, state := .powering } ∧
        t.amn.queue = s.amn.queue ++ [.card] ∧ t.pins = { s.pins with cardPresent := true } ∧ Raised .cardInserted t ∧
        OnlyChanges [.cde, .pins, .monitor] s t) ∧
    (s.cde.detected = false → s.hmp.path = .run → s.cde.discharge = true → ∃ t, exec .cardInsertion s = .next t ∧
      t.cde = { s.cde with detected := true, detCount := 50, detLevel := true, dischargeFor := .powerUp } ∧
      t.pins = { s.pins with cardPresent := true } ∧ Raised .cardInserted t ∧ OnlyChanges [.cde, .pins] s t) ∧
    (s.cde.detected = true → s.hmp.path = .run →
      let removed := fun t : State => t.pins.cardPresent = false ∧
        t.pins.syncClosed = s.pins.syncClosed ∧ t.pins.quietAck = s.pins.quietAck
      let gone := fun (c : Cde) => { down .removal (dropped c) with detected := false, detCount := 0, detLevel := false, capacity := none, state := .discharging }
      (nowork → ∃ t, exec .cardRemoval s = .next t ∧ removed t ∧ t.cde = owes .cardRemoved (gone s.cde) ∧
        (s.cde.ended = [] → Raised .cardRemoved t) ∧ OnlyChanges [.cde, .pins] s t) ∧
      (s.cde.container = none → s.cde.ended = [] → (s.cde.serving ≠ none ∨ s.cde.reads ≠ []) →
        s.cde.owed = [] → ∃ t, exec .cardRemoval s = .next t ∧ removed t ∧
        t.cde = { gone s.cde with reads := [], serving := none, ended := (s.cde.serving.toList ++ s.cde.reads).map (fun q => ⟨q.tag, .removed, q.done⟩), owed := [.cardRemoved] } ∧
        OnlyChanges [.cde, .pins] s t) ∧
      (∀ c r i, s.cde.container = some c → c.stage ≠ .logUpdate → s.stb.find c.shot = some r → r.phase = .storing →
        r.slot = some i → i < s.stb.slots.length → s.cde.reads = [] → s.cde.serving = none →
        ∃ t, exec .cardRemoval s = .next t ∧ removed t ∧
          t.cde = owes .cardRemoved (gone { s.cde with container := none }) ∧ (s.cde.ended = [] → Raised .cardRemoved t) ∧
          t.stb.find c.shot = some { r with phase := .held, store := .removed } ∧ t.stb.slotState i = .held ∧
          (∀ n, n ≠ c.shot → t.stb.find n = s.stb.find n) ∧ OnlyChanges [.cde, .pins, .stb, .port] s t))

/-- The bus and the mount (R18, R163, R170 to R175, R180 to R182, R192, R194): what is issued, unless QUIET_REQ is asserted;
IDENT's outcome, also of a run's power cycle, after which the run goes on from its first block not done, or ends STOPPED and
is asked for again; an acknowledgement, of a command and of the stop mark; a block read, within its run, at its end and at
the end of the request; the tokens and the release of busy; a first timeout by a power cycle, a second by FAULT. The mount
judges block 0, each container's header and commit block, and ends with the rewrite of block 0 if it took a container: then
the number floor is raised and the card is READY. The model's choices and readings: a park that meets the mount (log 55),
the frames' bytes that a CRC-16 covers and a response's check as an operand (log 59), a card that stays READING until the
result of its last read is written (log 40). -/
def Obligations.CardBus : Prop :=
  ∀ s : State, s.resetHeld = false →
    let nowork := s.cde.container = none ∧ s.cde.reads = [] ∧ s.cde.serving = none
    let becomes := fun (i : Instr) (c : Cde) => ∃ t, exec i s = .next t ∧ t.cde = c ∧ OnlyChanges [.cde] s t
    let faulted := fun (i : Instr) (cause : FaultCause) => ∃ t, exec i s = .next t ∧
      t.cde = { s.cde with run := none, block := [], mount := none, format := none, geometry := none, powerUp := none, ident := none, identDrop := none, busTimer := none, parkAsked := false, parkOwed := false, lines := .highZ, pwrEn := false, rail := .discharging, discharge := true, dischargeTimer := some 500000, dischargeFor := .fault, rampTimer := none, ocCount := 0, state := .fault, faultCause := cause, owed := if s.cde.ended = [] ∨ EventFlag.cardFault ∈ s.cde.owed then s.cde.owed else s.cde.owed ++ [.cardFault] } ∧
      (s.cde.ended = [] → Raised .cardFault t) ∧ OnlyChanges [.cde, .pins] s t
    (s.exs.quietReq = true → becomes .cardRunIssue s.cde) ∧
    (s.exs.quietReq = false → s.cde.ident = some .waiting →
      becomes .cardRunIssue { s.cde with ident := some .sent, sent := some (.ident (crc16 (Config.commandFrame 1 0 0))), busTimer := some 10000 }) ∧
    (s.cde.ident = some .sent → s.cde.run = none → s.cde.identDrop = none → ∀ n : BitVec 32,
      (0 < n.toNat → becomes (.identResponse true n) { s.cde with ident := none, busTimer := none, capacity := some n.toNat, state := .mounting, block := [], mount := some ⟨.logHeader, ⟨0, 0, 0, 0⟩, false⟩, run := some ⟨.mount, false, 0, 1, 0, 0, 0, 0, false, .waiting⟩ }) ∧
      (nowork → s.cde.pwrEn = true → faulted (.identResponse false n) .ident ∧
        faulted (.identResponse true 0) .ident ∧ faulted .responseTimeout .ident)) ∧
    (∀ (r : Run) (n : BitVec 32), s.cde.ident = some .sent → s.cde.identDrop = none → s.cde.run = some r → r.stage = .cycling →
      let back := { s.cde with ident := none, busTimer := none }
      let again := fun (u : RunUser) (write : Bool) (start count : Nat) =>
        { back with block := [], run := some ⟨u, write, start, count, 0, 0, 0, 0, false, .waiting⟩ }
      (0 < n.toNat → s.cde.capacity = some n.toNat →
        (r.stop = false → becomes (.identResponse true n) { back with run := some { r with stage := .waiting } }) ∧
        (r.stop = true → r.user = .format → becomes (.identResponse true n) (again .format true 0 1)) ∧
        (∀ q, r.stop = true → r.user = .read → s.cde.serving = some q → q.done < q.count →
          becomes (.identResponse true n) (again .read false (q.block + q.done) (min q.count ((q.done / 256 + 1) * 256) - q.done)))) ∧
      (nowork → s.cde.pwrEn = true → faulted (.identResponse false n) .ident ∧ faulted .responseTimeout .ident ∧
        (s.cde.capacity ≠ some n.toNat → faulted (.identResponse true n) .ident))) ∧
    ∀ r, s.cde.run = some r → s.cde.ident = none →
      let ends := { s.cde with run := none, busTimer := none, block := [] }
      let asks := fun (write : Bool) (start count : Nat) (u : RunUser) => some (⟨u, write, start, count, 0, 0, 0, 0, false, .waiting⟩ : Run)
      (s.exs.quietReq = false → r.stage = .waiting → becomes .cardRunIssue { s.cde with run := some { r with stage := .acking }, sent := some (if r.write then .writeRun (r.start + r.done) (r.count - r.done) (crc16 (Config.commandFrame 3 (r.start + r.done) (r.count - r.done))) else .readRun (r.start + r.done) (r.count - r.done) (crc16 (Config.commandFrame 2 (r.start + r.done) (r.count - r.done)))), busTimer := some 10000 }) ∧
      (r.stage = .acking → r.write = false → becomes (.cardResponse true)
        { s.cde with run := some { r with stage := .receiving }, busTimer := some 10000 }) ∧
      (r.stage = .acking → r.write = true → r.user = .format → ∀ g size, s.cde.format = some g → s.cde.capacity = some size →
        let data := padTo 512 ([0x4B, 0x56, 0x53, 0x48, 0x4F, 0x54, 0x4C, 0x47] ++ le 4 512 ++ le 4 size ++ le 4 g.nextFree ++ le 4 g.count ++ le 4 g.highest ++ le 4 g.formatId)
        becomes (.cardResponse true) { s.cde with block := data, run := some { r with stage := .token }, sent := some (.block data (crc16 data)), busTimer := some 10000 }) ∧
      (∀ q (data : List Byte) (crc : BitVec 16), r.stage = .receiving → r.user = .read → s.cde.serving = some q →
        data.length = 512 → r.write = false → r.stop = false →
        let stored := fun t : State => ∀ k b, data[k]? = some b → ∃ x ∈ t.fmc.pending, x.kind = .cardWrite ∧
          (q.dest + 512 * q.done + k, b) ∈ x.bytes
        let takes := fun (d : Cde) => ∃ t, exec (.cardBlockReceived data crc) s = .next t ∧ t.cde = d ∧ stored t ∧
          OnlyChanges [.cde] s t
        (crc = crc16 data → q.carry = [] → q.dest % 8 = 0 →
          (r.done + 1 < r.count → takes { s.cde with block := data, run := some { r with done := r.done + 1, stage := .receiving }, serving := some { q with done := q.done + 1 }, busTimer := some 10000 }) ∧
          (r.count ≤ r.done + 1 → q.count ≤ q.done + 1 → takes { ends with serving := none, ended := s.cde.ended ++ [⟨q.tag, .done, q.done + 1⟩] }) ∧
          (r.count ≤ r.done + 1 → q.done + 1 < q.count → takes { ends with serving := some { q with done := q.done + 1 }, run := asks false (q.block + q.done + 1) (min q.count (((q.done + 1) / 256 + 1) * 256) - (q.done + 1)) .read })) ∧
        (crc ≠ crc16 data → r.retries < 3 → becomes (.cardBlockReceived data crc)
          { s.cde with run := some { r with retries := r.retries + 1, stage := .waiting }, busTimer := none }) ∧
        (crc ≠ crc16 data → 3 ≤ r.retries → q.carry = [] → becomes (.cardBlockReceived data crc)
          { ends with serving := none, ended := s.cde.ended ++ [⟨q.tag, .crcFail, q.done⟩] })) ∧
      (r.stage = .token →
        becomes (.cardWriteToken .accept) { s.cde with run := some { r with stage := .busy }, busTimer := some 250000 } ∧
        (r.resends < 3 → becomes (.cardWriteToken .crcBad) { s.cde with run := some { r with resends := r.resends + 1 }, sent := some (.block s.cde.block (crc16 s.cde.block)), busTimer := some 10000 }) ∧
        (nowork → s.cde.pwrEn = true → 3 ≤ r.resends → faulted (.cardWriteToken .crcBad) .writeFail) ∧
        (nowork → s.cde.pwrEn = true → faulted (.cardWriteToken .writeFail) .writeFail)) ∧
      (r.stage = .busy → r.done + 1 < r.count → r.stop = true → becomes .cardBusyRelease { s.cde with run := some { r with done := r.done + 1, resends := 0, stage := .stopping }, sent := some .stopMark, busTimer := some 10000 }) ∧
      (∀ g, r.stage = .busy → r.done + 1 = r.count → r.user = .format → s.cde.format = some g → s.cde.parkOwed = false →
        becomes .cardBusyRelease { ends with state := .ready, geometry := some g, format := none }) ∧
      (r.stage = .stopping →
        (∀ q, r.user = .read → s.cde.serving = some q → q.done < q.count → becomes (.cardResponse true)
          { ends with run := asks false (q.block + q.done) (min q.count ((q.done / 256 + 1) * 256) - q.done) .read }) ∧
        (r.user = .format → becomes (.cardResponse true) { ends with run := asks true 0 1 .format }) ∧
        (∀ m, r.user = .mount → s.cde.mount = some m →
          (s.cde.parkAsked = false → becomes (.cardResponse true) { ends with run := match m.stage with
            | .logHeader => asks false 0 1 .mount
            | .container => asks false m.geometry.nextFree 1 .mount
            | .commit h => asks false (m.geometry.nextFree + h.blocks + 1) 1 .mount
            | .rewrite => asks true 0 1 .mount }) ∧
          (s.cde.parkAsked = true → s.cde.state = .mounting → ∃ t, exec (.cardResponse true) s = .next t ∧
            t.cde = { ends with parkAsked := false, parkOwed := false, geometry := if m.stage = .rewrite then s.cde.geometry else none, mount := none, lines := .highZ, pwrEn := false, rail := .discharging, discharge := true, dischargeTimer := some 500000, dischargeFor := .park, rampTimer := none, powerUp := none, identDrop := none, ocCount := 0, state := .discharging } ∧
            OnlyChanges [.cde, .pins] s t))) ∧
      (∀ m size, r.user = .mount → s.cde.mount = some m → s.cde.capacity = some size → s.cde.parkAsked = false →
        let mounted := fun (i : Instr) (g : Geometry) (d : Cde) => s.cde.parkOwed = false → ∃ t, exec i s = .next t ∧
          t.cde = { d with mount := none, state := .ready } ∧
          t.stb = { s.stb with nextShot := if 4294967295 ≤ g.highest ∨ s.stb.records.any (fun r => decide (s.stb.nextShot ≤ r.shot)) = true then s.stb.nextShot else max s.stb.nextShot (g.highest + 1) } ∧
          OnlyChanges [.cde, .stb] s t
        (r.stage = .busy → r.done + 1 = r.count → m.stage = .rewrite → mounted .cardBusyRelease m.geometry ends) ∧
        (∀ (data : List Byte) (crc : BitVec 16), r.stage = .receiving → r.done + 1 = r.count → data.length = 512 →
          let i := Instr.cardBlockReceived data crc
          let scanned := fun (m : Mount) =>
            (m.accepted = true → becomes i { ends with geometry := some m.geometry, mount := some { m with stage := .rewrite }, run := asks true 0 1 .mount }) ∧
            (m.accepted = false → mounted i m.geometry { ends with geometry := some m.geometry })
          let steps := fun (m : Mount) (g : Option Geometry) => (size ≤ m.geometry.nextFree → scanned m) ∧
            (m.geometry.nextFree < size → becomes i { ends with geometry := g, mount := some { m with stage := .container }, run := asks false m.geometry.nextFree 1 .mount })
          let unformatted := becomes i { ends with state := .unformatted, mount := none, geometry := none }
          let u32 := fun o => field data o 4
          let n := u32 20
          let q := m.geometry.nextFree
          (crc = crc16 data →
            (m.stage = .logHeader →
              let valid := data.take 8 = [0x4B, 0x56, 0x53, 0x48, 0x4F, 0x54, 0x4C, 0x47] ∧ u32 8 = 512 ∧ u32 12 = size ∧
                1 ≤ u32 16 ∧ u32 16 ≤ size
              let g : Geometry := ⟨u32 16, u32 20, u32 24, u32 28⟩
              (valid → steps { m with geometry := g } (some g)) ∧ (¬ valid → unformatted)) ∧
            (m.stage = .container →
              let valid := data.take 8 = [0x4B, 0x56, 0x43, 0x4F, 0x4E, 0x54, 0x48, 0x44] ∧ u32 8 = m.geometry.formatId ∧
                u32 12 = m.geometry.count ∧ q + n + 2 ≤ size
              (valid → becomes i { ends with mount := some { m with stage := .commit ⟨u32 8, u32 12, u32 16, n, crc32 data⟩ }, run := asks false (q + n + 1) 1 .mount }) ∧
              (¬ valid → scanned m)) ∧
            (∀ h, m.stage = .commit h →
              let valid := data.take 8 = [0x4B, 0x56, 0x43, 0x4F, 0x4D, 0x4D, 0x49, 0x54] ∧ u32 8 = h.formatId ∧
                u32 12 = h.index ∧ u32 16 = h.shot ∧ u32 20 = q ∧ u32 28 = h.crc.toNat
              (valid → steps { m with geometry := { m.geometry with nextFree := q + h.blocks + 2, count := (m.geometry.count + 1) % 4294967296, highest := max m.geometry.highest h.shot }, accepted := true } s.cde.geometry) ∧
              (¬ valid → scanned m))) ∧
          (crc ≠ crc16 data → r.retries = 3 →
            (m.stage = .logHeader → unformatted) ∧ (m.stage = .container ∨ (∃ h, m.stage = .commit h) → scanned m)))) ∧
      (let cycled := { s.cde with run := some { r with timeouts := 1, stage := .cycling, resends := 0 }, lines := .highZ, pwrEn := false, rail := .discharging, discharge := true, dischargeTimer := some 500000, dischargeFor := .cycle, rampTimer := none, busTimer := none, powerUp := none, ident := none, identDrop := none, ocCount := 0 }
       let awaits := r.stage = .acking ∨ r.stage = .receiving ∨ r.stage = .token ∨ r.stage = .stopping
       let cycles := fun i : Instr => ∃ t, exec i s = .next t ∧ t.cde = cycled ∧ OnlyChanges [.cde, .pins] s t
       (awaits → r.timeouts = 0 → cycles .responseTimeout) ∧ (r.stage = .busy → r.timeouts = 0 → cycles .busyTimeout) ∧
       (nowork → s.cde.pwrEn = true → 1 ≤ r.timeouts →
         (awaits → faulted .responseTimeout .timeout) ∧ (r.stage = .busy → faulted .busyTimeout .timeout)))

/-- The work of a card (R161, R176, R183 to R190, R192, R193). A READY card serves a read, which leaves the queue when it is
served (log 21), or tries the drain of the oldest HELD record. The drain: the slot's bytes go into the CRC-32, the header is
built, the runs of HEADER, DATA, COMMIT and the log update follow one another, with their blocks, pauses and what a park or a
failed write makes of the record; the commit block's end makes the record STORED. QUIET_REQ falling lets SUMMING and a held
power-up go on. A result takes an empty entry or the oldest; the card stays READING until the last result is written (log
40), and the card events that waited for it are raised with it. -/
def Obligations.CardWork : Prop :=
  ∀ s : State, s.resetHeld = false →
    (s.cde.state = .ready → s.exs.quietReq = false →
      (∀ q more, s.cde.reads = q :: more → ∃ t, exec .cardNextWork s = .next t ∧
        t.cde = { s.cde with state := .reading, reads := more, serving := some q, block := [], run := some ⟨.read, false, q.block + q.done, min q.count ((q.done / 256 + 1) * 256) - q.done, 0, 0, 0, 0, false, .waiting⟩ } ∧
        OnlyChanges [.cde] s t) ∧
      (s.cde.reads = [] → s.amn.battLevel = .critical →
        ∃ t, exec .cardNextWork s = .next t ∧ OnlyChanges [] s t) ∧
      (∀ before r after g pitch size i, s.cde.reads = [] → s.amn.battLevel ≠ .critical →
        s.stb.records = before ++ r :: after → (∀ q ∈ before, q.phase ≠ .held ∧ q.shot ≠ r.shot) → r.phase = .held →
        s.cde.geometry = some g → r.pitch = some pitch → s.cde.capacity = some size → r.slot = some i →
        i < s.stb.slots.length →
        let n := (pitch * r.stats.lines + 511) / 512
        (g.nextFree + n + 2 ≤ size → 0 < pitch * r.stats.lines → ∃ t, exec .cardNextWork s = .next t ∧
          t.cde = { s.cde with state := .writing, container := some ⟨r.shot, i, g.nextFree, n, pitch, r.stats.lines, r.profile, g.count, .summing, 0, 0, 0xFFFFFFFF, [], false⟩ } ∧
          t.stb.find r.shot = some { r with phase := .storing, containerStart := some g.nextFree, containerLen := some (n + 2) } ∧
          t.stb.slotState i = .draining ∧
          Presented .slotRead (0x10000000 + i * (s.stb.slotSize * 1048576)) (min 64 (pitch * r.stats.lines)) t ∧
          OnlyChanges [.cde, .stb] s t) ∧
        (size < g.nextFree + n + 2 → ∃ t, exec .cardNextWork s = .next t ∧
          t.stb = s.stb.update r.shot (fun r => { r with store := .cardFull }) ∧ Raised .cardFull t ∧
          OnlyChanges [.stb] s t))) ∧
    (∀ c, s.cde.container = some c →
      let base := 0x10000000 + c.slot * (s.stb.slotSize * 1048576)
      let total := c.pitch * c.lines
      let asks := fun (start count : Nat) => some (⟨.drain, true, start, count, 0, 0, 0, 0, false, .waiting⟩ : Run)
      let follows := fun (d : Cde) (done : Nat) => if done ≤ c.blocks
        then { d with container := some { c with stage := .data, done := done }, block := [], run := asks (c.start + done) (min c.blocks (((done - 1) / 256 + 1) * 256) - (done - 1)) }
        else { d with container := some { c with stage := .commit, done := done }, block := [], run := asks (c.start + c.blocks + 1) 1 }
      let becomes := fun (i : Instr) (d : Cde) => ∃ t, exec i s = .next t ∧ t.cde = d ∧ OnlyChanges [.cde] s t
      let returns := fun (i : Instr) => ∀ r j, s.stb.find c.shot = some r → r.phase = .storing → r.slot = some j →
        j < s.stb.slots.length → ∃ t, exec i s = .next t ∧ t.cde.container = none ∧ t.cde.run = none ∧
        t.stb.find c.shot = some { r with phase := .held, store := .parked } ∧ t.stb.slotState j = .held ∧
        t.cde.state = (if s.cde.parkOwed = true ∧ s.cde.reads = [] ∧ s.amn.battLevel = .critical then .discharging else .ready) ∧
        OnlyChanges [.cde, .pins, .stb, .port] s t
      let blockOf := fun (mark : List Byte) (fields : List Nat) => padTo 512 (mark ++ fields.flatMap (le 4))
      (∀ x, s.fmc.active = some x → x.kind = .slotRead → x.addr % 8 = 0 → x.len % 8 = 0 → 0 < x.len →
        let bytes := (List.range x.len).map fun k => (((s.mem.check? ((x.addr + k) / 8 * 8)).data >>> (8 * ((x.addr + k) % 8))).setWidth 8 : Byte)
        let clean := ∀ k, k < x.len → k % 8 = 0 → (s.mem.check? (x.addr + k)).cls = .clean
        let bad := ∃ k, k < x.len ∧ k % 8 = 0 ∧ ((s.mem.check? (x.addr + k)).cls = .poisoned ∨
          (s.mem.check? (x.addr + k)).cls = .uncorrectable)
        let reads := fun (p : State → Prop) => ∃ t, exec .partReadComplete s = .next t ∧ t.fmc.active = none ∧
          t.fmc.passOver = s.fmc.passOver ∧ t.fmc.nextPart = s.fmc.nextPart ∧ p t ∧ (bad → Raised .memUncorrectable t) ∧
          (clean → OnlyChanges [.port, .cde] s t) ∧ OnlyChanges [.port, .cde, .errors, .stb, .corrected] s t
        let summed := c.summed + x.len
        let sum := crc32Step c.crc bytes
        (c.stage = .summing → c.park = false →
          (summed < total → s.exs.quietReq = false ∨ summed % 512 ≠ 0 → reads fun t =>
            t.cde = { s.cde with container := some { c with crc := sum, summed := summed } } ∧
            Presented .slotRead (base + summed) (min 64 (total - summed)) t) ∧
          (summed < total → s.exs.quietReq = true → summed % 512 = 0 → (∀ y ∈ s.fmc.pending, y.kind ≠ .slotRead) →
            reads fun t => t.cde = { s.cde with container := some { c with crc := sum, summed := summed } } ∧
              ∀ y ∈ t.fmc.pending, y.kind ≠ .slotRead) ∧
          (summed = total → ∀ g, s.cde.geometry = some g → reads fun t =>
            let crc := sum ^^^ 0xFFFFFFFF
            let header := padTo 512 (padTo 64 ([0x4B, 0x56, 0x43, 0x4F, 0x4E, 0x54, 0x48, 0x44] ++ [g.formatId, c.index, c.shot, c.blocks, c.pitch, c.lines, c.profile % 256, crc.toNat].flatMap (le 4)) ++ mirrorEntry 0 (t.stb.find c.shot))
            t.cde = { s.cde with container := some { c with crc := crc, summed := summed, header := header, stage := .header }, block := [], run := asks c.start 1 })) ∧
        (c.stage = .summing → c.park = true → clean → s.cde.run = none → (summed % 512 = 0 ∨ total ≤ summed) →
          returns .partReadComplete) ∧
        (∀ r, c.stage = .data → s.cde.run = some r → r.stage = .fetching →
          let o := (r.start + r.done - (c.start + 1)) * 512
          let n := min 512 (total - o)
          let got := s.cde.block ++ bytes
          (got.length < n → reads fun t => t.cde = { s.cde with block := got } ∧
            Presented .slotRead (base + (o + got.length)) (min 64 (n - got.length)) t) ∧
          (got.length = n → let data := got ++ List.replicate (512 - n) 0
            reads fun t => t.cde = { s.cde with block := data, run := some { r with stage := .token }, sent := some (.block data (crc16 data)), busTimer := some 10000 }))) ∧
      (∀ r g size, s.cde.run = some r → r.user = .drain → s.cde.ident = none → s.cde.geometry = some g →
        s.cde.capacity = some size →
        let ends := { s.cde with run := none, busTimer := none }
        let sends := fun (data : List Byte) => becomes (.cardResponse true) { s.cde with block := data, run := some { r with stage := .token }, sent := some (.block data (crc16 data)), busTimer := some 10000 }
        (r.stage = .acking → r.write = true →
          (c.stage = .header → sends c.header) ∧
          (c.stage = .commit → sends (blockOf [0x4B, 0x56, 0x43, 0x4F, 0x4D, 0x4D, 0x49, 0x54] [g.formatId, c.index, c.shot, c.start, c.crc.toNat, (crc32 c.header).toNat])) ∧
          (c.stage = .logUpdate → sends (blockOf [0x4B, 0x56, 0x53, 0x48, 0x4F, 0x54, 0x4C, 0x47] [512, size, g.nextFree, g.count, g.highest, g.formatId])) ∧
          (c.stage = .data → let o := (r.start + r.done - (c.start + 1)) * 512
            o < total → ∃ t, exec (.cardResponse true) s = .next t ∧
              t.cde = { s.cde with block := [], busTimer := none, run := some { r with stage := .fetching } } ∧
              Presented .slotRead (base + o) (min 64 (min 512 (total - o))) t ∧ OnlyChanges [.cde] s t)) ∧
        (r.stage = .busy → r.done + 1 = r.count →
          (c.stage = .header → c.done = 0 → r.done = 0 → (c.park = false → becomes .cardBusyRelease (follows ends 1)) ∧
            (c.park = true → returns .cardBusyRelease)) ∧
          (c.stage = .data → 1 ≤ c.done →
            (c.park = false → becomes .cardBusyRelease (follows ends (c.done + r.count))) ∧
            (c.park = true → returns .cardBusyRelease)) ∧
          (c.stage = .commit → ∀ v j, s.stb.find c.shot = some v → v.phase = .storing → v.slot = some j →
            j < s.stb.slots.length → ∃ t, exec .cardBusyRelease s = .next t ∧
              t.stb.find c.shot = some { v with phase := .stored, store := .stored } ∧ t.stb.slotState j = .retained ∧
              t.stb.retained = s.stb.retained ++ [j] ∧ (∀ n, n ≠ c.shot → t.stb.find n = s.stb.find n) ∧
              t.cde = { ends with geometry := some ⟨c.start + c.blocks + 2, (g.count + 1) % 4294967296, max g.highest c.shot, g.formatId⟩, container := some { c with stage := .logUpdate, done := c.blocks + 2 }, block := [], run := asks 0 1 } ∧
              Raised .stored t ∧ OnlyChanges [.cde, .stb] s t) ∧
          (c.stage = .logUpdate → s.cde.parkOwed = false → ∃ t, exec .cardBusyRelease s = .next t ∧
            t.cde = { ends with container := none, block := [], state := .ready } ∧ t.stb = s.stb ∧
            OnlyChanges [.cde, .port] s t)) ∧
        (r.stage = .stopping →
          (c.stage = .header → c.park = false → becomes (.cardResponse true) { ends with block := [], container := some { c with done := c.done + r.done }, run := asks c.start 1 }) ∧
          (c.stage = .data → 1 ≤ c.done → c.park = false → becomes (.cardResponse true) (follows ends (c.done + r.done))) ∧
          (c.stage = .header ∨ c.stage = .data → c.park = true → returns (.cardResponse true))) ∧
        (r.stage = .token → s.cde.pwrEn = true → c.stage ≠ .logUpdate → s.cde.ended = [] → s.cde.reads = [] →
          s.cde.serving = none → ∀ v j, s.stb.find c.shot = some v → v.phase = .storing → v.slot = some j →
          j < s.stb.slots.length → ∃ t, exec (.cardWriteToken .writeFail) s = .next t ∧ t.cde.state = .fault ∧
            t.cde.faultCause = .writeFail ∧ t.cde.run = none ∧ t.cde.container = none ∧ t.cde.geometry = none ∧
            t.cde.pwrEn = false ∧ t.cde.rail = .discharging ∧ t.stb.find c.shot = some { v with phase := .held, store := .writeFail } ∧
            t.stb.slotState j = .held ∧ Raised .cardFault t ∧ OnlyChanges [.cde, .pins, .stb, .port] s t))) ∧
    (∀ e, s.exs.seq = .waiting → s.exs.current = some e → e.mode ≠ .timed →
      (∀ c, s.cde.container = some c → c.stage = .summing → c.park = false → c.summed < c.pitch * c.lines →
        s.cde.powerUp ≠ some .quiet → (∀ x ∈ s.fmc.pending, x.kind ≠ .slotRead) →
        (∀ x, s.fmc.active = some x → x.kind ≠ .slotRead) → ∃ t, exec .waitLimitExpiry s = .next t ∧
        t.exs.quietReq = false ∧ t.cde = s.cde ∧
        Presented .slotRead (0x10000000 + c.slot * (s.stb.slotSize * 1048576) + c.summed) (min 64 (c.pitch * c.lines - c.summed)) t) ∧
      (s.cde.container = none → s.cde.powerUp = some .quiet → Demand.card ∉ s.amn.queue →
        ∃ t, exec .waitLimitExpiry s = .next t ∧ t.exs.quietReq = false ∧ t.cde = { s.cde with powerUp := some .reading } ∧
        t.amn.queue = s.amn.queue ++ [.card])) ∧
    (∀ e more, s.cde.ended = e :: more → (∀ x ∈ s.fmc.pending, x.kind ≠ .cardWrite) → s.cde.results.length = 4 →
      (∀ r, some r ∈ s.cde.results → r.number ≤ s.cde.resultNo ∧ s.cde.resultNo < 4294967296) →
      let no := (s.cde.resultNo + 1) % 4294967296
      let chosen := fun k => k < 4 ∧ (s.cde.results[k]? = some none ∨ ∃ r, s.cde.results[k]? = some (some r) ∧
        ∀ q ∈ s.cde.results, ∃ u, q = some u ∧ r.number ≤ u.number)
      ∃ t k, exec .cardReadResultWrite s = .next t ∧ chosen k ∧ t.cde.ended = more ∧ t.cde.resultNo = no ∧
        t.cde.results = s.cde.results.set k (some ⟨e.tag, e.outcome, e.done, no⟩) ∧ Raised .cardReadDone t ∧
        (more = [] → t.cde.owed = [] ∧ ∀ f ∈ s.cde.owed, Raised f t) ∧ (more ≠ [] → t.cde.owed = s.cde.owed) ∧
        (s.cde.state = .reading → s.cde.serving = none → more = [] → s.cde.parkOwed = false → t.cde.state = .ready) ∧
        (s.cde.state = .reading → s.cde.serving = none → more = [] → s.cde.parkOwed = true → s.cde.reads = [] →
          s.amn.battLevel = .critical → t.cde.state = .discharging ∧ t.cde.dischargeFor = .park ∧ t.cde.pwrEn = false) ∧
        (s.cde.parkOwed = false → OnlyChanges [.cde] s t))

/-! ### Standby and reset -/

/-- The standby entry's end and the wakes (R66 to R69): nothing before everything is served; then the path is STANDBY, piece
0 is written, with the wake cause and STANDBY, and the marked pieces are, so that each that is not marked again stands in
DRAM as its image is; a burst, a change at CARD_DET or a sync closure begins the wake, or gives up an entry in progress,
whose monitor sweeps again and whose card, parked or on the way there, powers up; one that arrives in WAKING has its own
effect and keeps the cause. At the wake's end piece 0, with the wake cause and RUN, and the marked pieces are written
likewise, the held burst is taken, the monitor sweeps again and a parked card is powered up. The model's: CARD_DETECT_WAKE
turns the level at CARD_DET round (log 36); a piece marked by these writes is written within the command too (log 67). -/
def Obligations.StandbyAndWake : Prop :=
  ∀ s : State, s.resetHeld = false → MemOk s → (∀ k ∈ s.rqe.marked, k ≤ 6) →
    (∀ v a h, s.rqe.service = some v → v.stage ≠ .answering a h) →
    let shows := fun (path : Byte) (t : State) => t.mem.byte 0x3F000004 = path ∧
      t.mem.byte 0x3F000003 = BitVec.ofNat 8 s.hmp.wake.code ∧
      (∀ k, (k = 0 ∨ k ∈ s.rqe.marked) → k ∈ t.rqe.marked ∨ Shows k t) ∧
      ∀ a, (a < 0x3F000000 ∨ 0x3F0001C0 ≤ a) → t.mem.byte a = s.mem.byte a
    let written : List Part := [.path, .mem, .injection, .scrubber, .flags]
    let missed := fun t : State => t.exs.missed = min 4294967295 (s.exs.missed + 1) ∧ Raised .missedSync t
    let detects := { s.cde with detLevel := !s.pins.cardPresent }
    let pinned := fun t : State => t.pins = { s.pins with cardPresent := !s.pins.cardPresent }
    let powers := fun (d : Cde) => { d with state := .powering, powerUp := some .reading, rail := .off, lines := .highZ }
    let gives := fun (d : Cde) => { d with parkAsked := false, identDrop := if d.identDrop = some .park then none else d.identDrop, dischargeFor := if d.dischargeFor = .park then .powerUp else d.dischargeFor }
    (s.hmp.path = .entering →
      (s.amn.stopped = true → s.hmp.queue = [] → s.hmp.waiting = [] → s.hmp.reads = [] → s.fmc.pending = [] →
        s.fmc.active = none → s.rqe.jobs = [] → s.dfm.rewrite = none → ∃ t, exec .standbyEntryDrained s = .next t ∧
        t.hmp.path = .standby ∧ t.hmp.wake = s.hmp.wake ∧ shows 3 t ∧
        (s.fmc.injection = none ∨ s.rqe.raises = [] → t.rqe.marked = []) ∧ OnlyChanges written s t) ∧
      ((s.amn.stopped = false ∨ s.hmp.queue ≠ [] ∨ s.fmc.pending ≠ [] ∨ s.fmc.active ≠ none ∨ s.rqe.jobs ≠ []) →
        ∃ t, exec .standbyEntryDrained s = .next t ∧ t = s)) ∧
    (s.hmp.path = .standby →
      (∀ b, b.wf = true → ∃ t, exec (.hostBurst b) s = .next t ∧ t.hmp.path = .waking ∧ t.hmp.wake = .hostAccess ∧
        t.hmp.waiting = s.hmp.waiting ++ [b] ∧ t.hmp.queue = s.hmp.queue ∧ OnlyChanges [.path, .posted] s t) ∧
      (∃ t, exec .cardDetectWake s = .next t ∧ t.hmp.path = .waking ∧ t.hmp.wake = .cardDetect ∧ pinned t ∧
        t.cde = detects ∧ OnlyChanges [.path, .pins, .cde] s t) ∧
      (∀ first, s.exs.seq = .idle → s.exs.sync.closed = false → ∃ t, exec (.syncClosureAccepted first) s = .next t ∧
        t.hmp.path = .waking ∧ t.hmp.wake = .sync ∧ missed t ∧ OnlyChanges [.path, .pins, .exs, .stb] s t)) ∧
    (s.hmp.path = .waking →
      (∀ b, b.wf = true → ∃ t, exec (.hostBurst b) s = .next t ∧ t.hmp.waiting = s.hmp.waiting ++ [b] ∧
        t.hmp.queue = s.hmp.queue ∧ OnlyChanges [.posted] s t) ∧
      (∃ t, exec .cardDetectWake s = .next t ∧ pinned t ∧ t.cde = detects ∧ OnlyChanges [.pins, .cde] s t) ∧
      (∀ first, s.exs.seq = .idle → s.exs.sync.closed = false → ∃ t, exec (.syncClosureAccepted first) s = .next t ∧
        missed t ∧ OnlyChanges [.pins, .exs, .stb] s t)) ∧
    (s.hmp.path = .entering →
      let swept := fun t : State => t.amn.stopped = false ∧ t.amn.stopAsked = false ∧
        (s.amn.stopped = true ∨ s.amn.stopAsked = true →
          t.amn.sweep = some .temp ∧ t.amn.sampleTimer = s.amn.settings.interval * 1000)
      let gaveUp := fun (i : Instr) (cause : WakeCause) (ps : List Part) (p : State → Prop) (d : Cde) =>
        (s.cde.state ≠ .parked → ∃ t, exec i s = .next t ∧ t.hmp.path = .run ∧ t.hmp.wake = cause ∧ swept t ∧ p t ∧
          t.cde = gives d ∧ OnlyChanges (.path :: .cde :: .monitor :: ps) s t) ∧
        (s.cde.state = .parked → s.cde.run = none → Demand.card ∉ s.amn.queue → ∃ t, exec i s = .next t ∧
          t.hmp.path = .run ∧ t.hmp.wake = cause ∧ swept t ∧ p t ∧ t.cde = powers (gives d) ∧
          t.amn.queue = s.amn.queue ++ [.card] ∧ OnlyChanges (.path :: .cde :: .monitor :: ps) s t)
      gaveUp .cardDetectWake .cardDetect [.pins] pinned detects ∧
      ∀ first, s.exs.seq = .idle → s.exs.sync.closed = false →
        gaveUp (.syncClosureAccepted first) .sync [.pins, .exs, .stb] missed s.cde) ∧
    (s.hmp.path = .waking → s.amn.stopped = true →
      let resumed := fun (ps : List Part) (t : State) => t.hmp.path = .run ∧ t.hmp.wake = s.hmp.wake ∧ shows 1 t ∧
        t.hmp.waiting = [] ∧ t.amn.stopped = false ∧ t.amn.sweep = some .temp ∧
        t.amn.sampleTimer = s.amn.settings.interval * 1000 ∧ OnlyChanges (written ++ .monitor :: .cde :: ps) s t
      (s.hmp.waiting = [] → s.cde.state = .absent → ∃ t, exec .wakeDramReady s = .next t ∧ resumed [] t ∧
        t.cde.state = .absent) ∧
      (s.hmp.waiting = [] → s.cde.state = .parked → s.cde.run = none → Demand.card ∉ s.amn.queue →
        ∃ t, exec .wakeDramReady s = .next t ∧ resumed [] t ∧ t.cde = powers (gives s.cde) ∧
        t.amn.queue = s.amn.queue ++ [.card]) ∧
      (∀ (a : BitVec 32) (n : Nat), s.hmp.waiting = [.read a n] → 1 ≤ n → n ≤ 8 →
        a.toNat / 4 * 4 + 4 * n ≤ 0x40000000 → s.hmp.queue = [] → s.exs.quietReq = false → s.cde.state = .absent →
        ∃ t, exec .wakeDramReady s = .next t ∧ resumed [.posted] t ∧ t.hmp.queue = [] ∧
          Presented (.hostRead n) (a.toNat / 4 * 4) (4 * n) t) ∧
      (∀ (a : BitVec 32) (n : Nat), s.hmp.waiting = [.read a n] → 1 ≤ n → n ≤ 8 → 0x40000000 ≤ a.toNat →
        s.exs.quietReq = false → s.cde.state = .absent → ∃ t, exec .wakeDramReady s = .next t ∧
          resumed [.posted, .response, .outOfRange] t ∧ t.hmp.queue = s.hmp.queue ∧
          t.hmp.response = some ({ write := false, error := true, beats := List.replicate n (0, 0) } : Response) ∧
          t.hmp.outOfRange = min 4294967295 (s.hmp.outOfRange + 1)) ∧
      (∀ (a : BitVec 32) (beats : List WriteBeat), s.hmp.waiting = [.write a beats] → 1 ≤ beats.length →
        beats.length ≤ 8 → a.toNat / 4 * 4 + 4 * beats.length ≤ 0x40000000 → s.hmp.queue = [] →
        s.exs.quietReq = false → s.cde.state = .absent → ∃ (t : State) (p : Posted), exec .wakeDramReady s = .next t ∧
          resumed [.posted, .response] t ∧ t.hmp.queue = [p] ∧ p.delivered = false ∧
          p.beats.length = beats.length ∧ (∀ (k : Nat) (b : WriteBeat), beats[k]? = some b →
            p.beats[k]? = some (⟨a.toNat / 4 * 4 + 4 * k, b.data, b.enables⟩ : PostedBeat)) ∧
          t.hmp.response = some ({ write := true, error := false, beats := [] } : Response)))

/-- The resets (R64, R65): power-on reset; the assertion of RESET_N, which keeps DRAM, the scrub position and the passes;
its release, and the end of the fill, which write the empty mirrors and the whole status block: its seven pieces stand in
DRAM as their images are, with the reset cause and RUN, and the rest of it is zero. The model's choices: the pins and the
commands that wait stay as they are, and the injection, the corrected-address queue and the pace timer are reset (log 28);
the mirrors and the pieces are written within the one command (logs 19, 67); the levels last seen and the model's own
records begin as `State.reset` has them (logs 4 and 5). -/
def Obligations.Resets : Prop :=
  ∀ s : State,
    exec .powerOnReset s = .next { State.reset with pending := s.pending, pins := s.pins } ∧
    (∃ t, exec .pinResetAssert s = .next t ∧ t.resetHeld = true ∧ t.mem = s.mem ∧ t.fmc.scrubPos = s.fmc.scrubPos ∧
      t.fmc.passes = s.fmc.passes ∧ t.pending = s.pending ∧ t.pins = s.pins ∧
      { t.fmc with scrubPos := 0, passes := 0 } = State.reset.fmc ∧ t.stb = State.reset.stb ∧ t.exs = State.reset.exs ∧
      t.prs = State.reset.prs ∧ t.pce = State.reset.pce ∧ t.dfm = State.reset.dfm ∧ t.amn = State.reset.amn ∧
      t.cde = State.reset.cde ∧
      (s.hmp.path = .filling → t.hmp = State.reset.hmp ∧ t.rqe = State.reset.rqe) ∧
      (s.hmp.path ≠ .filling → t.hmp = { State.reset.hmp with path := .run } ∧
        t.rqe = { State.reset.rqe with resetCause := .pin })) ∧
    (s.resetHeld = true → s.hmp.path = .filling →
      exec .pinResetRelease s = .next { s with resetHeld := false }) ∧
    (MemOk s →
      let started := fun t : State => t.hmp.path = .run ∧ t.resetHeld = false ∧ t.rqe.updates = List.replicate 16 1 ∧
        t.fmc.logUpdate = 1 ∧ t.dfm.rewrite = some ⟨0, 8192⟩ ∧
        t.dfm.sequence = (s.dfm.sequence + 1) % 4294967296 ∧ t.mem.byte 0x3F000004 = 1 ∧
        t.mem.byte 0x3F000002 = BitVec.ofNat 8 s.rqe.resetCause.code ∧ (∀ k < 7, Shows k t) ∧ t.rqe.marked = [] ∧
        (∀ b, 0x1C0 ≤ b → b < 0x1000 → t.mem.byte (0x3F000000 + b) = 0) ∧
        (∀ e b, e < 16 → b < 256 → t.mem.byte (0x3F003000 + 256 * e + b) = if b = 0 ∨ b = 252 then 1 else 0) ∧
        ∀ b, b < 0x1000 → t.mem.byte (0x3F004000 + b) = if b = 0 then 1 else 0
      let others : List Part := [.path, .mem, .injection, .scrubber, .errors, .dfm, .flags]
      s.stb.records = [] → s.dfm.rewrite = none → s.rqe.service = none → s.hmp.waiting = [] → s.rqe.jobs = [] →
      (s.resetHeld = true → s.hmp.path = .run → ∃ t, exec .pinResetRelease s = .next t ∧ started t ∧
        (∀ a, a < 0x3F000000 → t.mem.byte a = s.mem.byte a) ∧ OnlyChanges (.resetHeld :: others) s t) ∧
      (s.resetHeld = false → s.hmp.path = .filling → ∃ t, exec .fillComplete s = .next t ∧ started t ∧
        (∀ a, a < 0x3F000000 → t.mem.byte a = 0 ∧ t.mem.checkAt a = 0) ∧ t.fmc.scrubPos = 0 ∧ OnlyChanges others s t))
end

