-- ==== Sys2Proof/Laws/State.lean ====
section
/-! SUPPORT. What the updates of one part of the state do to every part: the part they change, and the others kept. -/

namespace Sys2Proof.Machine

variable (s : State)

@[simp] theorem present_pending (t : Txn) : (present t s).pending = s.pending := rfl
@[simp] theorem present_resetHeld (t : Txn) : (present t s).resetHeld = s.resetHeld := rfl
@[simp] theorem present_pins (t : Txn) : (present t s).pins = s.pins := rfl
@[simp] theorem present_mem (t : Txn) : (present t s).mem = s.mem := rfl
@[simp] theorem present_stb (t : Txn) : (present t s).stb = s.stb := rfl
@[simp] theorem present_exs (t : Txn) : (present t s).exs = s.exs := rfl
@[simp] theorem present_hmp (t : Txn) : (present t s).hmp = s.hmp := rfl
@[simp] theorem present_fmc (t : Txn) : (present t s).fmc = { s.fmc with pending := s.fmc.pending ++ [t] } := rfl
@[simp] theorem present_prs (t : Txn) : (present t s).prs = s.prs := rfl
@[simp] theorem present_pce (t : Txn) : (present t s).pce = s.pce := rfl
@[simp] theorem present_dfm (t : Txn) : (present t s).dfm = s.dfm := rfl
@[simp] theorem present_amn (t : Txn) : (present t s).amn = s.amn := rfl
@[simp] theorem present_cde (t : Txn) : (present t s).cde = s.cde := rfl
@[simp] theorem present_rqe (t : Txn) : (present t s).rqe = s.rqe := rfl

@[simp] theorem raise_pending (f : EventFlag) : (raise f s).pending = s.pending := rfl
@[simp] theorem raise_resetHeld (f : EventFlag) : (raise f s).resetHeld = s.resetHeld := rfl
@[simp] theorem raise_pins (f : EventFlag) : (raise f s).pins = s.pins := rfl
@[simp] theorem raise_mem (f : EventFlag) : (raise f s).mem = s.mem := rfl
@[simp] theorem raise_stb (f : EventFlag) : (raise f s).stb = s.stb := rfl
@[simp] theorem raise_exs (f : EventFlag) : (raise f s).exs = s.exs := rfl
@[simp] theorem raise_hmp (f : EventFlag) : (raise f s).hmp = s.hmp := rfl
@[simp] theorem raise_fmc (f : EventFlag) : (raise f s).fmc = s.fmc := rfl
@[simp] theorem raise_prs (f : EventFlag) : (raise f s).prs = s.prs := rfl
@[simp] theorem raise_pce (f : EventFlag) : (raise f s).pce = s.pce := rfl
@[simp] theorem raise_dfm (f : EventFlag) : (raise f s).dfm = s.dfm := rfl
@[simp] theorem raise_amn (f : EventFlag) : (raise f s).amn = s.amn := rfl
@[simp] theorem raise_cde (f : EventFlag) : (raise f s).cde = s.cde := rfl
@[simp] theorem raise_rqe (f : EventFlag) : (raise f s).rqe = s.rqe.raise f := rfl

@[simp] theorem mark_pending (k : Nat) : (mark k s).pending = s.pending := rfl
@[simp] theorem mark_resetHeld (k : Nat) : (mark k s).resetHeld = s.resetHeld := rfl
@[simp] theorem mark_pins (k : Nat) : (mark k s).pins = s.pins := rfl
@[simp] theorem mark_mem (k : Nat) : (mark k s).mem = s.mem := rfl
@[simp] theorem mark_stb (k : Nat) : (mark k s).stb = s.stb := rfl
@[simp] theorem mark_exs (k : Nat) : (mark k s).exs = s.exs := rfl
@[simp] theorem mark_hmp (k : Nat) : (mark k s).hmp = s.hmp := rfl
@[simp] theorem mark_fmc (k : Nat) : (mark k s).fmc = s.fmc := rfl
@[simp] theorem mark_prs (k : Nat) : (mark k s).prs = s.prs := rfl
@[simp] theorem mark_pce (k : Nat) : (mark k s).pce = s.pce := rfl
@[simp] theorem mark_dfm (k : Nat) : (mark k s).dfm = s.dfm := rfl
@[simp] theorem mark_amn (k : Nat) : (mark k s).amn = s.amn := rfl
@[simp] theorem mark_cde (k : Nat) : (mark k s).cde = s.cde := rfl
@[simp] theorem mark_rqe (k : Nat) : (mark k s).rqe = s.rqe.mark k := rfl

@[simp] theorem modCde_pending (f : Cde → Cde) : (modCde f s).pending = s.pending := rfl
@[simp] theorem modCde_resetHeld (f : Cde → Cde) : (modCde f s).resetHeld = s.resetHeld := rfl
@[simp] theorem modCde_pins (f : Cde → Cde) : (modCde f s).pins = s.pins := rfl
@[simp] theorem modCde_mem (f : Cde → Cde) : (modCde f s).mem = s.mem := rfl
@[simp] theorem modCde_stb (f : Cde → Cde) : (modCde f s).stb = s.stb := rfl
@[simp] theorem modCde_exs (f : Cde → Cde) : (modCde f s).exs = s.exs := rfl
@[simp] theorem modCde_hmp (f : Cde → Cde) : (modCde f s).hmp = s.hmp := rfl
@[simp] theorem modCde_fmc (f : Cde → Cde) : (modCde f s).fmc = s.fmc := rfl
@[simp] theorem modCde_prs (f : Cde → Cde) : (modCde f s).prs = s.prs := rfl
@[simp] theorem modCde_pce (f : Cde → Cde) : (modCde f s).pce = s.pce := rfl
@[simp] theorem modCde_dfm (f : Cde → Cde) : (modCde f s).dfm = s.dfm := rfl
@[simp] theorem modCde_amn (f : Cde → Cde) : (modCde f s).amn = s.amn := rfl
@[simp] theorem modCde_cde (f : Cde → Cde) : (modCde f s).cde = f s.cde := rfl
@[simp] theorem modCde_rqe (f : Cde → Cde) : (modCde f s).rqe = s.rqe := rfl

@[simp] theorem modRqe_pending (f : Rqe → Rqe) : (modRqe f s).pending = s.pending := rfl
@[simp] theorem modRqe_resetHeld (f : Rqe → Rqe) : (modRqe f s).resetHeld = s.resetHeld := rfl
@[simp] theorem modRqe_pins (f : Rqe → Rqe) : (modRqe f s).pins = s.pins := rfl
@[simp] theorem modRqe_mem (f : Rqe → Rqe) : (modRqe f s).mem = s.mem := rfl
@[simp] theorem modRqe_stb (f : Rqe → Rqe) : (modRqe f s).stb = s.stb := rfl
@[simp] theorem modRqe_exs (f : Rqe → Rqe) : (modRqe f s).exs = s.exs := rfl
@[simp] theorem modRqe_hmp (f : Rqe → Rqe) : (modRqe f s).hmp = s.hmp := rfl
@[simp] theorem modRqe_fmc (f : Rqe → Rqe) : (modRqe f s).fmc = s.fmc := rfl
@[simp] theorem modRqe_prs (f : Rqe → Rqe) : (modRqe f s).prs = s.prs := rfl
@[simp] theorem modRqe_pce (f : Rqe → Rqe) : (modRqe f s).pce = s.pce := rfl
@[simp] theorem modRqe_dfm (f : Rqe → Rqe) : (modRqe f s).dfm = s.dfm := rfl
@[simp] theorem modRqe_amn (f : Rqe → Rqe) : (modRqe f s).amn = s.amn := rfl
@[simp] theorem modRqe_cde (f : Rqe → Rqe) : (modRqe f s).cde = s.cde := rfl
@[simp] theorem modRqe_rqe (f : Rqe → Rqe) : (modRqe f s).rqe = f s.rqe := rfl

@[simp] theorem modExs_pending (f : Exs → Exs) : (modExs f s).pending = s.pending := rfl
@[simp] theorem modExs_resetHeld (f : Exs → Exs) : (modExs f s).resetHeld = s.resetHeld := rfl
@[simp] theorem modExs_pins (f : Exs → Exs) : (modExs f s).pins = s.pins := rfl
@[simp] theorem modExs_mem (f : Exs → Exs) : (modExs f s).mem = s.mem := rfl
@[simp] theorem modExs_stb (f : Exs → Exs) : (modExs f s).stb = s.stb := rfl
@[simp] theorem modExs_exs (f : Exs → Exs) : (modExs f s).exs = f s.exs := rfl
@[simp] theorem modExs_hmp (f : Exs → Exs) : (modExs f s).hmp = s.hmp := rfl
@[simp] theorem modExs_fmc (f : Exs → Exs) : (modExs f s).fmc = s.fmc := rfl
@[simp] theorem modExs_prs (f : Exs → Exs) : (modExs f s).prs = s.prs := rfl
@[simp] theorem modExs_pce (f : Exs → Exs) : (modExs f s).pce = s.pce := rfl
@[simp] theorem modExs_dfm (f : Exs → Exs) : (modExs f s).dfm = s.dfm := rfl
@[simp] theorem modExs_amn (f : Exs → Exs) : (modExs f s).amn = s.amn := rfl
@[simp] theorem modExs_cde (f : Exs → Exs) : (modExs f s).cde = s.cde := rfl
@[simp] theorem modExs_rqe (f : Exs → Exs) : (modExs f s).rqe = s.rqe := rfl

@[simp] theorem modAmn_pending (f : Amn → Amn) : (modAmn f s).pending = s.pending := rfl
@[simp] theorem modAmn_resetHeld (f : Amn → Amn) : (modAmn f s).resetHeld = s.resetHeld := rfl
@[simp] theorem modAmn_pins (f : Amn → Amn) : (modAmn f s).pins = s.pins := rfl
@[simp] theorem modAmn_mem (f : Amn → Amn) : (modAmn f s).mem = s.mem := rfl
@[simp] theorem modAmn_stb (f : Amn → Amn) : (modAmn f s).stb = s.stb := rfl
@[simp] theorem modAmn_exs (f : Amn → Amn) : (modAmn f s).exs = s.exs := rfl
@[simp] theorem modAmn_hmp (f : Amn → Amn) : (modAmn f s).hmp = s.hmp := rfl
@[simp] theorem modAmn_fmc (f : Amn → Amn) : (modAmn f s).fmc = s.fmc := rfl
@[simp] theorem modAmn_prs (f : Amn → Amn) : (modAmn f s).prs = s.prs := rfl
@[simp] theorem modAmn_pce (f : Amn → Amn) : (modAmn f s).pce = s.pce := rfl
@[simp] theorem modAmn_dfm (f : Amn → Amn) : (modAmn f s).dfm = s.dfm := rfl
@[simp] theorem modAmn_amn (f : Amn → Amn) : (modAmn f s).amn = f s.amn := rfl
@[simp] theorem modAmn_cde (f : Amn → Amn) : (modAmn f s).cde = s.cde := rfl
@[simp] theorem modAmn_rqe (f : Amn → Amn) : (modAmn f s).rqe = s.rqe := rfl

@[simp] theorem modPrs_pending (f : Prs → Prs) : (modPrs f s).pending = s.pending := rfl
@[simp] theorem modPrs_resetHeld (f : Prs → Prs) : (modPrs f s).resetHeld = s.resetHeld := rfl
@[simp] theorem modPrs_pins (f : Prs → Prs) : (modPrs f s).pins = s.pins := rfl
@[simp] theorem modPrs_mem (f : Prs → Prs) : (modPrs f s).mem = s.mem := rfl
@[simp] theorem modPrs_stb (f : Prs → Prs) : (modPrs f s).stb = s.stb := rfl
@[simp] theorem modPrs_exs (f : Prs → Prs) : (modPrs f s).exs = s.exs := rfl
@[simp] theorem modPrs_hmp (f : Prs → Prs) : (modPrs f s).hmp = s.hmp := rfl
@[simp] theorem modPrs_fmc (f : Prs → Prs) : (modPrs f s).fmc = s.fmc := rfl
@[simp] theorem modPrs_prs (f : Prs → Prs) : (modPrs f s).prs = f s.prs := rfl
@[simp] theorem modPrs_pce (f : Prs → Prs) : (modPrs f s).pce = s.pce := rfl
@[simp] theorem modPrs_dfm (f : Prs → Prs) : (modPrs f s).dfm = s.dfm := rfl
@[simp] theorem modPrs_amn (f : Prs → Prs) : (modPrs f s).amn = s.amn := rfl
@[simp] theorem modPrs_cde (f : Prs → Prs) : (modPrs f s).cde = s.cde := rfl
@[simp] theorem modPrs_rqe (f : Prs → Prs) : (modPrs f s).rqe = s.rqe := rfl

@[simp] theorem modDfm_pending (f : Dfm → Dfm) : (modDfm f s).pending = s.pending := rfl
@[simp] theorem modDfm_resetHeld (f : Dfm → Dfm) : (modDfm f s).resetHeld = s.resetHeld := rfl
@[simp] theorem modDfm_pins (f : Dfm → Dfm) : (modDfm f s).pins = s.pins := rfl
@[simp] theorem modDfm_mem (f : Dfm → Dfm) : (modDfm f s).mem = s.mem := rfl
@[simp] theorem modDfm_stb (f : Dfm → Dfm) : (modDfm f s).stb = s.stb := rfl
@[simp] theorem modDfm_exs (f : Dfm → Dfm) : (modDfm f s).exs = s.exs := rfl
@[simp] theorem modDfm_hmp (f : Dfm → Dfm) : (modDfm f s).hmp = s.hmp := rfl
@[simp] theorem modDfm_fmc (f : Dfm → Dfm) : (modDfm f s).fmc = s.fmc := rfl
@[simp] theorem modDfm_prs (f : Dfm → Dfm) : (modDfm f s).prs = s.prs := rfl
@[simp] theorem modDfm_pce (f : Dfm → Dfm) : (modDfm f s).pce = s.pce := rfl
@[simp] theorem modDfm_dfm (f : Dfm → Dfm) : (modDfm f s).dfm = f s.dfm := rfl
@[simp] theorem modDfm_amn (f : Dfm → Dfm) : (modDfm f s).amn = s.amn := rfl
@[simp] theorem modDfm_cde (f : Dfm → Dfm) : (modDfm f s).cde = s.cde := rfl
@[simp] theorem modDfm_rqe (f : Dfm → Dfm) : (modDfm f s).rqe = s.rqe := rfl

@[simp] theorem respond_pending (r : Response) : (respond r s).pending = s.pending := rfl
@[simp] theorem respond_resetHeld (r : Response) : (respond r s).resetHeld = s.resetHeld := rfl
@[simp] theorem respond_pins (r : Response) : (respond r s).pins = s.pins := rfl
@[simp] theorem respond_mem (r : Response) : (respond r s).mem = s.mem := rfl
@[simp] theorem respond_stb (r : Response) : (respond r s).stb = s.stb := rfl
@[simp] theorem respond_exs (r : Response) : (respond r s).exs = s.exs := rfl
@[simp] theorem respond_hmp (r : Response) : (respond r s).hmp = { s.hmp with response := some r } := rfl
@[simp] theorem respond_fmc (r : Response) : (respond r s).fmc = s.fmc := rfl
@[simp] theorem respond_prs (r : Response) : (respond r s).prs = s.prs := rfl
@[simp] theorem respond_pce (r : Response) : (respond r s).pce = s.pce := rfl
@[simp] theorem respond_dfm (r : Response) : (respond r s).dfm = s.dfm := rfl
@[simp] theorem respond_amn (r : Response) : (respond r s).amn = s.amn := rfl
@[simp] theorem respond_cde (r : Response) : (respond r s).cde = s.cde := rfl
@[simp] theorem respond_rqe (r : Response) : (respond r s).rqe = s.rqe := rfl

@[simp] theorem freePort_pending : (freePort s).pending = s.pending := rfl
@[simp] theorem freePort_resetHeld : (freePort s).resetHeld = s.resetHeld := rfl
@[simp] theorem freePort_pins : (freePort s).pins = s.pins := rfl
@[simp] theorem freePort_mem : (freePort s).mem = s.mem := rfl
@[simp] theorem freePort_stb : (freePort s).stb = s.stb := rfl
@[simp] theorem freePort_exs : (freePort s).exs = s.exs := rfl
@[simp] theorem freePort_hmp : (freePort s).hmp = s.hmp := rfl
@[simp] theorem freePort_fmc : (freePort s).fmc = { s.fmc with active := none } := rfl
@[simp] theorem freePort_prs : (freePort s).prs = s.prs := rfl
@[simp] theorem freePort_pce : (freePort s).pce = s.pce := rfl
@[simp] theorem freePort_dfm : (freePort s).dfm = s.dfm := rfl
@[simp] theorem freePort_amn : (freePort s).amn = s.amn := rfl
@[simp] theorem freePort_cde : (freePort s).cde = s.cde := rfl
@[simp] theorem freePort_rqe : (freePort s).rqe = s.rqe := rfl

@[simp] theorem occupyPort_pending (t : Txn) : (occupyPort t s).pending = s.pending := rfl
@[simp] theorem occupyPort_resetHeld (t : Txn) : (occupyPort t s).resetHeld = s.resetHeld := rfl
@[simp] theorem occupyPort_pins (t : Txn) : (occupyPort t s).pins = s.pins := rfl
@[simp] theorem occupyPort_mem (t : Txn) : (occupyPort t s).mem = s.mem := rfl
@[simp] theorem occupyPort_stb (t : Txn) : (occupyPort t s).stb = s.stb := rfl
@[simp] theorem occupyPort_exs (t : Txn) : (occupyPort t s).exs = s.exs := rfl
@[simp] theorem occupyPort_hmp (t : Txn) : (occupyPort t s).hmp = s.hmp := rfl
@[simp] theorem occupyPort_fmc (t : Txn) : (occupyPort t s).fmc = { s.fmc with active := some t } := rfl
@[simp] theorem occupyPort_prs (t : Txn) : (occupyPort t s).prs = s.prs := rfl
@[simp] theorem occupyPort_pce (t : Txn) : (occupyPort t s).pce = s.pce := rfl
@[simp] theorem occupyPort_dfm (t : Txn) : (occupyPort t s).dfm = s.dfm := rfl
@[simp] theorem occupyPort_amn (t : Txn) : (occupyPort t s).amn = s.amn := rfl
@[simp] theorem occupyPort_cde (t : Txn) : (occupyPort t s).cde = s.cde := rfl
@[simp] theorem occupyPort_rqe (t : Txn) : (occupyPort t s).rqe = s.rqe := rfl

@[simp] theorem holdBurst_pending (b : HostBurst) : (holdBurst b s).pending = s.pending := rfl
@[simp] theorem holdBurst_resetHeld (b : HostBurst) : (holdBurst b s).resetHeld = s.resetHeld := rfl
@[simp] theorem holdBurst_pins (b : HostBurst) : (holdBurst b s).pins = s.pins := rfl
@[simp] theorem holdBurst_mem (b : HostBurst) : (holdBurst b s).mem = s.mem := rfl
@[simp] theorem holdBurst_stb (b : HostBurst) : (holdBurst b s).stb = s.stb := rfl
@[simp] theorem holdBurst_exs (b : HostBurst) : (holdBurst b s).exs = s.exs := rfl
@[simp] theorem holdBurst_hmp (b : HostBurst) : (holdBurst b s).hmp = { s.hmp with waiting := s.hmp.waiting ++ [b] } := rfl
@[simp] theorem holdBurst_fmc (b : HostBurst) : (holdBurst b s).fmc = s.fmc := rfl
@[simp] theorem holdBurst_prs (b : HostBurst) : (holdBurst b s).prs = s.prs := rfl
@[simp] theorem holdBurst_pce (b : HostBurst) : (holdBurst b s).pce = s.pce := rfl
@[simp] theorem holdBurst_dfm (b : HostBurst) : (holdBurst b s).dfm = s.dfm := rfl
@[simp] theorem holdBurst_amn (b : HostBurst) : (holdBurst b s).amn = s.amn := rfl
@[simp] theorem holdBurst_cde (b : HostBurst) : (holdBurst b s).cde = s.cde := rfl
@[simp] theorem holdBurst_rqe (b : HostBurst) : (holdBurst b s).rqe = s.rqe := rfl

@[simp] theorem putDemand_pending (d : Demand) : (putDemand d s).pending = s.pending := rfl
@[simp] theorem putDemand_resetHeld (d : Demand) : (putDemand d s).resetHeld = s.resetHeld := rfl
@[simp] theorem putDemand_pins (d : Demand) : (putDemand d s).pins = s.pins := rfl
@[simp] theorem putDemand_mem (d : Demand) : (putDemand d s).mem = s.mem := rfl
@[simp] theorem putDemand_stb (d : Demand) : (putDemand d s).stb = s.stb := rfl
@[simp] theorem putDemand_exs (d : Demand) : (putDemand d s).exs = s.exs := rfl
@[simp] theorem putDemand_hmp (d : Demand) : (putDemand d s).hmp = s.hmp := rfl
@[simp] theorem putDemand_fmc (d : Demand) : (putDemand d s).fmc = s.fmc := rfl
@[simp] theorem putDemand_prs (d : Demand) : (putDemand d s).prs = s.prs := rfl
@[simp] theorem putDemand_pce (d : Demand) : (putDemand d s).pce = s.pce := rfl
@[simp] theorem putDemand_dfm (d : Demand) : (putDemand d s).dfm = s.dfm := rfl
@[simp] theorem putDemand_cde (d : Demand) : (putDemand d s).cde = s.cde := rfl
@[simp] theorem putDemand_rqe (d : Demand) : (putDemand d s).rqe = s.rqe := rfl

@[simp] theorem takePlace_pending (d : Demand) : (takePlace d s).pending = s.pending := rfl
@[simp] theorem takePlace_resetHeld (d : Demand) : (takePlace d s).resetHeld = s.resetHeld := rfl
@[simp] theorem takePlace_pins (d : Demand) : (takePlace d s).pins = s.pins := rfl
@[simp] theorem takePlace_mem (d : Demand) : (takePlace d s).mem = s.mem := rfl
@[simp] theorem takePlace_stb (d : Demand) : (takePlace d s).stb = s.stb := rfl
@[simp] theorem takePlace_exs (d : Demand) : (takePlace d s).exs = s.exs := rfl
@[simp] theorem takePlace_hmp (d : Demand) : (takePlace d s).hmp = s.hmp := rfl
@[simp] theorem takePlace_fmc (d : Demand) : (takePlace d s).fmc = s.fmc := rfl
@[simp] theorem takePlace_prs (d : Demand) : (takePlace d s).prs = s.prs := rfl
@[simp] theorem takePlace_pce (d : Demand) : (takePlace d s).pce = s.pce := rfl
@[simp] theorem takePlace_dfm (d : Demand) : (takePlace d s).dfm = s.dfm := rfl
@[simp] theorem takePlace_cde (d : Demand) : (takePlace d s).cde = s.cde := rfl
@[simp] theorem takePlace_rqe (d : Demand) : (takePlace d s).rqe = s.rqe := rfl

@[simp] theorem presentAll_pending (ts : List Txn) : (presentAll ts s).pending = s.pending := rfl
@[simp] theorem presentAll_resetHeld (ts : List Txn) : (presentAll ts s).resetHeld = s.resetHeld := rfl
@[simp] theorem presentAll_pins (ts : List Txn) : (presentAll ts s).pins = s.pins := rfl
@[simp] theorem presentAll_mem (ts : List Txn) : (presentAll ts s).mem = s.mem := rfl
@[simp] theorem presentAll_stb (ts : List Txn) : (presentAll ts s).stb = s.stb := rfl
@[simp] theorem presentAll_exs (ts : List Txn) : (presentAll ts s).exs = s.exs := rfl
@[simp] theorem presentAll_hmp (ts : List Txn) : (presentAll ts s).hmp = s.hmp := rfl
@[simp] theorem presentAll_fmc (ts : List Txn) : (presentAll ts s).fmc = { s.fmc with pending := s.fmc.pending ++ ts } := rfl
@[simp] theorem presentAll_prs (ts : List Txn) : (presentAll ts s).prs = s.prs := rfl
@[simp] theorem presentAll_pce (ts : List Txn) : (presentAll ts s).pce = s.pce := rfl
@[simp] theorem presentAll_dfm (ts : List Txn) : (presentAll ts s).dfm = s.dfm := rfl
@[simp] theorem presentAll_amn (ts : List Txn) : (presentAll ts s).amn = s.amn := rfl
@[simp] theorem presentAll_cde (ts : List Txn) : (presentAll ts s).cde = s.cde := rfl
@[simp] theorem presentAll_rqe (ts : List Txn) : (presentAll ts s).rqe = s.rqe := rfl

@[simp] theorem endStep_pending : (endStep s).pending = s.pending := rfl
@[simp] theorem endStep_resetHeld : (endStep s).resetHeld = s.resetHeld := rfl
@[simp] theorem endStep_pins : (endStep s).pins = s.pins := rfl
@[simp] theorem endStep_mem : (endStep s).mem = s.mem := rfl
@[simp] theorem endStep_stb : (endStep s).stb = s.stb := rfl
@[simp] theorem endStep_exs : (endStep s).exs = s.exs := rfl
@[simp] theorem endStep_hmp : (endStep s).hmp = s.hmp := rfl
@[simp] theorem endStep_fmc : (endStep s).fmc = { s.fmc with scrub := none } := rfl
@[simp] theorem endStep_prs : (endStep s).prs = s.prs := rfl
@[simp] theorem endStep_pce : (endStep s).pce = s.pce := rfl
@[simp] theorem endStep_dfm : (endStep s).dfm = s.dfm := rfl
@[simp] theorem endStep_amn : (endStep s).amn = s.amn := rfl
@[simp] theorem endStep_cde : (endStep s).cde = s.cde := rfl
@[simp] theorem endStep_rqe : (endStep s).rqe = s.rqe := rfl

@[simp] theorem restartPace_pending : (restartPace s).pending = s.pending := rfl
@[simp] theorem restartPace_resetHeld : (restartPace s).resetHeld = s.resetHeld := rfl
@[simp] theorem restartPace_pins : (restartPace s).pins = s.pins := rfl
@[simp] theorem restartPace_mem : (restartPace s).mem = s.mem := rfl
@[simp] theorem restartPace_stb : (restartPace s).stb = s.stb := rfl
@[simp] theorem restartPace_exs : (restartPace s).exs = s.exs := rfl
@[simp] theorem restartPace_hmp : (restartPace s).hmp = s.hmp := rfl
@[simp] theorem restartPace_fmc : (restartPace s).fmc = { s.fmc with pace := Config.scrubPace } := rfl
@[simp] theorem restartPace_prs : (restartPace s).prs = s.prs := rfl
@[simp] theorem restartPace_pce : (restartPace s).pce = s.pce := rfl
@[simp] theorem restartPace_dfm : (restartPace s).dfm = s.dfm := rfl
@[simp] theorem restartPace_amn : (restartPace s).amn = s.amn := rfl
@[simp] theorem restartPace_cde : (restartPace s).cde = s.cde := rfl
@[simp] theorem restartPace_rqe : (restartPace s).rqe = s.rqe := rfl

/-- The rewrite of a mirror entry touches the RQE alone. -/
theorem rewriteShot_eq (n : Nat) : ∃ q, rewriteShot n s = { s with rqe := q } := by
  unfold rewriteShot
  split
  · exact ⟨_, rfl⟩
  · exact ⟨s.rqe, rfl⟩

@[simp] theorem rewriteShot_pending (n : Nat) : (rewriteShot n s).pending = s.pending := by
  obtain ⟨q, h⟩ := rewriteShot_eq s n; rw [h]
@[simp] theorem rewriteShot_resetHeld (n : Nat) : (rewriteShot n s).resetHeld = s.resetHeld := by
  obtain ⟨q, h⟩ := rewriteShot_eq s n; rw [h]
@[simp] theorem rewriteShot_pins (n : Nat) : (rewriteShot n s).pins = s.pins := by
  obtain ⟨q, h⟩ := rewriteShot_eq s n; rw [h]
@[simp] theorem rewriteShot_mem (n : Nat) : (rewriteShot n s).mem = s.mem := by
  obtain ⟨q, h⟩ := rewriteShot_eq s n; rw [h]
@[simp] theorem rewriteShot_stb (n : Nat) : (rewriteShot n s).stb = s.stb := by
  obtain ⟨q, h⟩ := rewriteShot_eq s n; rw [h]
@[simp] theorem rewriteShot_exs (n : Nat) : (rewriteShot n s).exs = s.exs := by
  obtain ⟨q, h⟩ := rewriteShot_eq s n; rw [h]
@[simp] theorem rewriteShot_hmp (n : Nat) : (rewriteShot n s).hmp = s.hmp := by
  obtain ⟨q, h⟩ := rewriteShot_eq s n; rw [h]
@[simp] theorem rewriteShot_fmc (n : Nat) : (rewriteShot n s).fmc = s.fmc := by
  obtain ⟨q, h⟩ := rewriteShot_eq s n; rw [h]
@[simp] theorem rewriteShot_prs (n : Nat) : (rewriteShot n s).prs = s.prs := by
  obtain ⟨q, h⟩ := rewriteShot_eq s n; rw [h]
@[simp] theorem rewriteShot_pce (n : Nat) : (rewriteShot n s).pce = s.pce := by
  obtain ⟨q, h⟩ := rewriteShot_eq s n; rw [h]
@[simp] theorem rewriteShot_dfm (n : Nat) : (rewriteShot n s).dfm = s.dfm := by
  obtain ⟨q, h⟩ := rewriteShot_eq s n; rw [h]
@[simp] theorem rewriteShot_amn (n : Nat) : (rewriteShot n s).amn = s.amn := by
  obtain ⟨q, h⟩ := rewriteShot_eq s n; rw [h]
@[simp] theorem rewriteShot_cde (n : Nat) : (rewriteShot n s).cde = s.cde := by
  obtain ⟨q, h⟩ := rewriteShot_eq s n; rw [h]

@[simp] theorem answerAfter_pending (a : Answer) (j k : Nat) : (answerAfter a j k s).pending = s.pending := rfl
@[simp] theorem answerAfter_resetHeld (a : Answer) (j k : Nat) : (answerAfter a j k s).resetHeld = s.resetHeld := rfl
@[simp] theorem answerAfter_pins (a : Answer) (j k : Nat) : (answerAfter a j k s).pins = s.pins := rfl
@[simp] theorem answerAfter_mem (a : Answer) (j k : Nat) : (answerAfter a j k s).mem = s.mem := rfl
@[simp] theorem answerAfter_stb (a : Answer) (j k : Nat) : (answerAfter a j k s).stb = s.stb := rfl
@[simp] theorem answerAfter_exs (a : Answer) (j k : Nat) : (answerAfter a j k s).exs = s.exs := rfl
@[simp] theorem answerAfter_hmp (a : Answer) (j k : Nat) : (answerAfter a j k s).hmp = s.hmp := rfl
@[simp] theorem answerAfter_fmc (a : Answer) (j k : Nat) : (answerAfter a j k s).fmc = s.fmc := rfl
@[simp] theorem answerAfter_prs (a : Answer) (j k : Nat) : (answerAfter a j k s).prs = s.prs := rfl
@[simp] theorem answerAfter_pce (a : Answer) (j k : Nat) : (answerAfter a j k s).pce = s.pce := rfl
@[simp] theorem answerAfter_dfm (a : Answer) (j k : Nat) : (answerAfter a j k s).dfm = s.dfm := rfl
@[simp] theorem answerAfter_amn (a : Answer) (j k : Nat) : (answerAfter a j k s).amn = s.amn := rfl
@[simp] theorem answerAfter_cde (a : Answer) (j k : Nat) : (answerAfter a j k s).cde = s.cde := rfl

end Sys2Proof.Machine
end

