-- ==== Sys2Proof/Laws/Finish.lean ====
section
/-! SUPPORT. What the end of every command leaves as it was, how frames compose, and what an answer does. -/

namespace Sys2Proof.Machine

/-! ### The RQE after its settling -/

/-- Two engines that differ at most in what a follow-up changes. -/
structure SameRing (q r : Rqe) : Prop where
  head : r.head = q.head
  tail : r.tail = q.tail
  completionNo : r.completionNo = q.completionNo
  ringFaults : r.ringFaults = q.ringFaults
  service : r.service = q.service
  lastAnswer : r.lastAnswer = q.lastAnswer
  observed : r.observed = q.observed
  flags : r.flags = q.flags
  enables : r.enables = q.enables
  attn : r.attn = q.attn
  carried : r.carried = q.carried
  resetCause : r.resetCause = q.resetCause

theorem SameRing.refl (q : Rqe) : SameRing q q := ⟨rfl, rfl, rfl, rfl, rfl, rfl, rfl, rfl, rfl, rfl, rfl, rfl⟩

theorem SameRing.trans {q r u : Rqe} (h : SameRing q r) (k : SameRing r u) : SameRing q u :=
  ⟨k.1.trans h.1, k.2.trans h.2, k.3.trans h.3, k.4.trans h.4, k.5.trans h.5, k.6.trans h.6, k.7.trans h.7,
    k.8.trans h.8, k.9.trans h.9, k.10.trans h.10, k.11.trans h.11, k.12.trans h.12⟩

theorem mark_sameRing (q : Rqe) (k : Nat) : SameRing q (q.mark k) := by
  unfold Rqe.mark
  split
  · exact SameRing.refl q
  · exact ⟨rfl, rfl, rfl, rfl, rfl, rfl, rfl, rfl, rfl, rfl, rfl, rfl⟩

theorem raise_sameRing (q : Rqe) (f : EventFlag) : SameRing q (q.raise f) :=
  ⟨rfl, rfl, rfl, rfl, rfl, rfl, rfl, rfl, rfl, rfl, rfl, rfl⟩

theorem mirrorShot_sameRing (q : Rqe) (e : Nat) (c : Option ShotRecord) : SameRing q (q.mirrorShot e c) :=
  ⟨rfl, rfl, rfl, rfl, rfl, rfl, rfl, rfl, rfl, rfl, rfl, rfl⟩

theorem mirrorChanges_sameRing (b a : Stb) (es : List Nat) (q : Rqe) : SameRing q (mirrorChanges b a es q) := by
  induction es generalizing q with
  | nil => exact SameRing.refl q
  | cons e es ih =>
    unfold mirrorChanges
    split
    · exact ih q
    · exact (mirrorShot_sameRing q e _).trans (ih _)

theorem markChanges_sameRing (b a : State) (ks : List Nat) (q : Rqe) : SameRing q (markChanges b a ks q) := by
  induction ks generalizing q with
  | nil => exact SameRing.refl q
  | cons k ks ih =>
    unfold markChanges
    split
    · exact ih q
    · exact (mark_sameRing q k).trans (ih _)

theorem placeRaises_sameRing (q : Rqe) (w : Bool) : SameRing q (q.placeRaises w) :=
  ⟨rfl, rfl, rfl, rfl, rfl, rfl, rfl, rfl, rfl, rfl, rfl, rfl⟩

theorem make_sameRing (q : Rqe) (f : EventFlag) : SameRing q (q.make f) := by
  unfold Rqe.make
  split
  · exact SameRing.refl q
  · exact SameRing.trans (r := { q with made := q.made ++ [f] })
      ⟨rfl, rfl, rfl, rfl, rfl, rfl, rfl, rfl, rfl, rfl, rfl, rfl⟩ (mark_sameRing _ 0)

theorem makeAll_sameRing (rs : List Raise) (q : Rqe) : SameRing q (rs.foldl (fun q r => q.make r.flag) q) := by
  induction rs generalizing q with
  | nil => exact SameRing.refl q
  | cons r rs ih => exact (make_sameRing q r.flag).trans (ih _)

theorem makeRaises_sameRing (q : Rqe) : SameRing q q.makeRaises :=
  SameRing.trans (r := { q with raises := q.raises.filter fun r => !r.ripe })
    ⟨rfl, rfl, rfl, rfl, rfl, rfl, rfl, rfl, rfl, rfl, rfl, rfl⟩ (makeAll_sameRing _ _)

theorem settleRqe_sameRing (b a : State) : SameRing a.rqe (settleRqe b a) :=
  (mirrorChanges_sameRing b.stb a.stb _ a.rqe).trans
    ((markChanges_sameRing b a _ _).trans ((placeRaises_sameRing _ _).trans (makeRaises_sameRing _)))

/-! ### The follow-up -/

/-- Two states that differ at most in what a follow-up changes; transactions are only added. -/
structure FollowUp (s t : State) : Prop where
  pending : t.pending = s.pending
  resetHeld : t.resetHeld = s.resetHeld
  pins : t.pins = s.pins
  mem : t.mem = s.mem
  stb : t.stb = s.stb
  exs : t.exs = s.exs
  hmp : { t.hmp with reads := s.hmp.reads } = s.hmp
  fmc : { t.fmc with pending := s.fmc.pending } = s.fmc
  added : ∃ ts, t.fmc.pending = s.fmc.pending ++ ts
  prs : t.prs = s.prs
  pce : t.pce = s.pce
  dfm : t.dfm = s.dfm
  amn : { t.amn with stopped := s.amn.stopped, stopAsked := s.amn.stopAsked } = s.amn
  cde : t.cde = s.cde
  rqe : SameRing s.rqe t.rqe

theorem FollowUp.refl (s : State) : FollowUp s s :=
  ⟨rfl, rfl, rfl, rfl, rfl, rfl, rfl, rfl, ⟨[], by simp⟩, rfl, rfl, rfl, rfl, rfl, SameRing.refl _⟩

theorem FollowUp.trans {s t u : State} (h : FollowUp s t) (k : FollowUp t u) : FollowUp s u where
  pending := k.pending.trans h.pending
  resetHeld := k.resetHeld.trans h.resetHeld
  pins := k.pins.trans h.pins
  mem := k.mem.trans h.mem
  stb := k.stb.trans h.stb
  exs := k.exs.trans h.exs
  hmp := by
    have h1 := h.hmp
    have k1 := k.hmp
    rw [← h1, ← k1]
  fmc := by
    have h1 := h.fmc
    have k1 := k.fmc
    rw [← h1, ← k1]
  added := by
    obtain ⟨a, ha⟩ := h.added
    obtain ⟨b, hb⟩ := k.added
    exact ⟨a ++ b, by rw [hb, ha, List.append_assoc]⟩
  prs := k.prs.trans h.prs
  pce := k.pce.trans h.pce
  dfm := k.dfm.trans h.dfm
  amn := by
    have h1 := h.amn
    have k1 := k.amn
    rw [← h1, ← k1]
  cde := k.cde.trans h.cde
  rqe := h.rqe.trans k.rqe

theorem present_followUp (t : Txn) (s : State) : FollowUp s (present t s) :=
  ⟨rfl, rfl, rfl, rfl, rfl, rfl, rfl, rfl, ⟨[t], rfl⟩, rfl, rfl, rfl, rfl, rfl, SameRing.refl _⟩

theorem releaseReads_followUp (s : State) : FollowUp s (releaseReads s) :=
  ⟨rfl, rfl, rfl, rfl, rfl, rfl, rfl, rfl, ⟨_, rfl⟩, rfl, rfl, rfl, rfl, rfl, SameRing.refl _⟩

theorem presentMirror_followUp (s : State) : FollowUp s (presentMirror s) := by
  unfold presentMirror
  split
  · exact FollowUp.refl s
  · split
    · exact FollowUp.refl s
    · exact present_followUp _ s

theorem presentMap_followUp (s : State) : FollowUp s (presentMap s) := by
  unfold presentMap
  split
  · exact FollowUp.refl s
  · split
    · exact FollowUp.refl s
    · exact present_followUp _ s

theorem presentWork_followUp (s : State) : FollowUp s (presentWork s) := by
  unfold presentWork
  split
  · exact ((presentMirror_followUp s).trans (presentMap_followUp _)).trans (releaseReads_followUp _)
  · exact FollowUp.refl s

theorem stopMonitor_followUp (s : State) : FollowUp s (stopMonitor s) := by
  unfold stopMonitor
  split
  · refine ⟨rfl, rfl, rfl, rfl, rfl, rfl, rfl, rfl, ⟨[], by simp⟩, rfl, rfl, rfl, ?_, rfl, SameRing.refl _⟩
    simp only [Amn.askStop]
    split <;> rfl
  · exact FollowUp.refl s

theorem withRqe_followUp (a : State) {q : Rqe} (h : SameRing a.rqe q) : FollowUp a { a with rqe := q } :=
  ⟨rfl, rfl, rfl, rfl, rfl, rfl, rfl, rfl, ⟨[], by simp⟩, rfl, rfl, rfl, rfl, rfl, h⟩

theorem settle_followUp (b a : State) : FollowUp a { a with rqe := settleRqe b a } :=
  withRqe_followUp a (settleRqe_sameRing b a)

/-- All that the end of a command can change. -/
theorem finish_followUp (before after : State) : FollowUp after (finish before after) :=
  ((settle_followUp before after).trans (presentWork_followUp _)).trans (stopMonitor_followUp _)

variable (before after : State)

@[simp] theorem finish_pending : (finish before after).pending = after.pending := (finish_followUp before after).pending
@[simp] theorem finish_resetHeld : (finish before after).resetHeld = after.resetHeld :=
  (finish_followUp before after).resetHeld
@[simp] theorem finish_pins : (finish before after).pins = after.pins := (finish_followUp before after).pins
@[simp] theorem finish_mem : (finish before after).mem = after.mem := (finish_followUp before after).mem
@[simp] theorem finish_stb : (finish before after).stb = after.stb := (finish_followUp before after).stb
@[simp] theorem finish_exs : (finish before after).exs = after.exs := (finish_followUp before after).exs
@[simp] theorem finish_prs : (finish before after).prs = after.prs := (finish_followUp before after).prs
@[simp] theorem finish_pce : (finish before after).pce = after.pce := (finish_followUp before after).pce
@[simp] theorem finish_dfm : (finish before after).dfm = after.dfm := (finish_followUp before after).dfm
@[simp] theorem finish_cde : (finish before after).cde = after.cde := (finish_followUp before after).cde

/-! ### What the end of a command reports -/

theorem mem_mark (q : Rqe) (k j : Nat) : j ∈ (q.mark k).marked ↔ j ∈ q.marked ∨ j = k := by
  unfold Rqe.mark
  split
  · simp_all
  · simp

theorem markChanges_mem (b a : State) (ks : List Nat) (q : Rqe) (j : Nat) :
    j ∈ (markChanges b a ks q).marked ↔ j ∈ q.marked ∨ (j ∈ ks ∧ statusPiece j a ≠ statusPiece j b) := by
  induction ks generalizing q with
  | nil => simp [markChanges]
  | cons k ks ih =>
    unfold markChanges
    rw [ih]
    split
    · grind
    · rw [mem_mark]; grind

@[simp] theorem mark_jobs (q : Rqe) (k : Nat) : (q.mark k).jobs = q.jobs := by
  unfold Rqe.mark
  split <;> rfl

@[simp] theorem mark_raises (q : Rqe) (k : Nat) : (q.mark k).raises = q.raises := by
  unfold Rqe.mark
  split <;> rfl

@[simp] theorem markChanges_jobs (b a : State) (ks : List Nat) (q : Rqe) : (markChanges b a ks q).jobs = q.jobs := by
  induction ks generalizing q with
  | nil => rfl
  | cons k ks ih =>
    unfold markChanges
    rw [ih]
    split <;> simp

@[simp] theorem markChanges_raises (b a : State) (ks : List Nat) (q : Rqe) :
    (markChanges b a ks q).raises = q.raises := by
  induction ks generalizing q with
  | nil => rfl
  | cons k ks ih =>
    unfold markChanges
    rw [ih]
    split <;> simp

@[simp] theorem placeRaises_jobs (q : Rqe) (w : Bool) : (q.placeRaises w).jobs = q.jobs := rfl
@[simp] theorem placeRaises_marked (q : Rqe) (w : Bool) : (q.placeRaises w).marked = q.marked := rfl
@[simp] theorem placeRaises_flags (q : Rqe) (w : Bool) : (q.placeRaises w).flags = q.flags := rfl

@[simp] theorem make_jobs (q : Rqe) (f : EventFlag) : (q.make f).jobs = q.jobs := by
  unfold Rqe.make
  split <;> simp

@[simp] theorem make_raises (q : Rqe) (f : EventFlag) : (q.make f).raises = q.raises := by
  unfold Rqe.make
  split <;> simp

@[simp] theorem make_flags (q : Rqe) (f : EventFlag) : (q.make f).flags = q.flags := (make_sameRing q f).flags

@[simp] theorem mark_made (q : Rqe) (k : Nat) : (q.mark k).made = q.made := by
  unfold Rqe.mark
  split <;> rfl

/-- A raise leaves the pieces of content as they were. -/
theorem make_marked (q : Rqe) (f : EventFlag) : (q.make f).marked = q.marked ∨ (q.make f).marked = q.marked ++ [0] := by
  unfold Rqe.make Rqe.mark
  split
  · exact .inl rfl
  · split
    · exact .inl rfl
    · exact .inr rfl

/-- The raises of a list of occurrences: what they change, and that each leaves its flag set or made. -/
theorem makeAll (rs : List Raise) (q : Rqe) :
    let u := rs.foldl (fun q r => q.make r.flag) q
    u.jobs = q.jobs ∧ u.raises = q.raises ∧ u.flags = q.flags ∧
      (∀ j, j ≠ 0 → (j ∈ u.marked ↔ j ∈ q.marked)) ∧ (∀ j ∈ q.marked, j ∈ u.marked) ∧
      u.marked.filter (· != 0) = q.marked.filter (· != 0) ∧ (∀ f ∈ q.made, f ∈ u.made) ∧
      ∀ r ∈ rs, u.flags &&& r.flag.mask ≠ 0 ∨ r.flag ∈ u.made := by
  induction rs generalizing q with
  | nil => simp
  | cons r rs ih =>
    obtain ⟨h1, h2, h3, h4, h5, h6, h7, h8⟩ := ih (q.make r.flag)
    have hm : ∀ f ∈ q.made, f ∈ (q.make r.flag).made := by
      intro f hf
      unfold Rqe.make
      split
      · exact hf
      · simp [hf]
    have hs : (q.make r.flag).flags &&& r.flag.mask ≠ 0 ∨ r.flag ∈ (q.make r.flag).made := by
      unfold Rqe.make
      split
      · rename_i h
        simpa using h
      · simp
    refine ⟨by simpa using h1, by simpa using h2, by simpa using h3, ?_, ?_, ?_, fun f hf => h7 f (hm f hf), ?_⟩
    · intro j hj
      rw [List.foldl_cons, h4 j hj]
      rcases make_marked q r.flag with h | h <;> simp [h, hj]
    · intro j hj
      refine h5 j ?_
      rcases make_marked q r.flag with h | h <;> simp [h, hj]
    · rw [List.foldl_cons, h6]
      rcases make_marked q r.flag with h | h <;> simp [h]
    · intro x hx
      rcases List.mem_cons.1 hx with rfl | hx
      · rcases hs with hs | hs
        · refine .inl ?_
          rw [List.foldl_cons, h3]
          exact hs
        · exact .inr (h7 _ hs)
      · exact h8 x hx

/-- The raises that are due have been made. -/
theorem makeRaises_cases (q : Rqe) :
    q.makeRaises.jobs = q.jobs ∧ q.makeRaises.raises = (q.raises.filter fun r => !r.ripe) ∧
      q.makeRaises.flags = q.flags ∧ (∀ j ∈ q.marked, j ∈ q.makeRaises.marked) ∧
      q.makeRaises.marked.filter (· != 0) = q.marked.filter (· != 0) ∧
      ∀ r ∈ q.raises, r.ripe = true → q.makeRaises.flags &&& r.flag.mask ≠ 0 ∨ r.flag ∈ q.makeRaises.made := by
  obtain ⟨h1, h2, h3, -, h5, h6, -, h8⟩ :=
    makeAll (q.raises.filter Raise.ripe) { q with raises := q.raises.filter fun r => !r.ripe }
  exact ⟨h1, h2, h3, h5, h6, fun r hr hp => h8 r (List.mem_filter.2 ⟨hr, hp⟩)⟩

theorem queuedContent_mem {q : Rqe} {e : Nat} {c : Option ShotRecord} (h : q.queuedContent e = some c) :
    ∃ u, MirrorJob.shotEntry e c u 0 ∈ q.jobs := by
  unfold Rqe.queuedContent at h
  obtain ⟨j, hj, hc⟩ := List.exists_of_findSome?_eq_some h
  rw [List.mem_reverse] at hj
  revert hc
  split
  · rename_i d content u
    intro hc
    by_cases hd : d = e
    · subst hd
      simp only [if_true, Option.some.injEq] at hc
      subst hc
      exact ⟨u, hj⟩
    · simp [hd] at hc
  all_goals simp

theorem mirrorChanges_jobs (b a : Stb) (es : List Nat) (q : Rqe) :
    ∃ js, (mirrorChanges b a es q).jobs = q.jobs ++ js ∧
      ∀ e ∈ es, a.entryContent e ≠ b.entryContent e → ∃ u, MirrorJob.shotEntry e (a.entryContent e) u 0 ∈ q.jobs ++ js := by
  induction es generalizing q with
  | nil => exact ⟨[], by simp [mirrorChanges]⟩
  | cons e es ih =>
    unfold mirrorChanges
    split
    · rename_i he
      obtain ⟨js, hj, hm⟩ := ih q
      refine ⟨js, hj, fun x hx hn => ?_⟩
      rcases List.mem_cons.1 hx with rfl | hx
      · rcases he with he | he
        · exact absurd he hn
        · obtain ⟨u, hu⟩ := queuedContent_mem he
          exact ⟨u, List.mem_append_left _ hu⟩
      · exact hm x hx hn
    · obtain ⟨js, hj, hm⟩ := ih (q.mirrorShot e (a.entryContent e))
      refine ⟨.shotEntry e (a.entryContent e) (wrapSucc (q.updates.getD e 0)) 0 :: js, by rw [hj]; simp [Rqe.mirrorShot], ?_⟩
      intro x hx hn
      rcases List.mem_cons.1 hx with rfl | hx
      · exact ⟨_, List.mem_append_right _ List.mem_cons_self⟩
      · obtain ⟨u, hu⟩ := hm x hx hn
        refine ⟨u, ?_⟩
        simpa [Rqe.mirrorShot, or_assoc] using hu

@[simp] theorem mirrorShot_marked (q : Rqe) (e : Nat) (c : Option ShotRecord) : (q.mirrorShot e c).marked = q.marked := rfl
@[simp] theorem mirrorShot_raises (q : Rqe) (e : Nat) (c : Option ShotRecord) : (q.mirrorShot e c).raises = q.raises := rfl

@[simp] theorem mirrorChanges_marked (b a : Stb) (es : List Nat) (q : Rqe) :
    (mirrorChanges b a es q).marked = q.marked := by
  induction es generalizing q with
  | nil => rfl
  | cons e es ih =>
    unfold mirrorChanges
    rw [ih]
    split <;> simp

@[simp] theorem mirrorChanges_raises (b a : Stb) (es : List Nat) (q : Rqe) :
    (mirrorChanges b a es q).raises = q.raises := by
  induction es generalizing q with
  | nil => rfl
  | cons e es ih =>
    unfold mirrorChanges
    rw [ih]
    split <;> simp

/-- The engine before its owners raise what is due. -/
theorem settleRqe_eq (b a : State) : ∃ q : Rqe, settleRqe b a = (q.placeRaises a.fmc.writingContent).makeRaises ∧
    q.raises = a.rqe.raises ∧ q.flags = a.rqe.flags ∧ (∀ k ∈ a.rqe.marked, k ∈ q.marked) ∧
    (∀ k, k ≤ 6 → statusPiece k a ≠ statusPiece k b → k ∈ q.marked) ∧ ∃ js, q.jobs = a.rqe.jobs ++ js ∧
      ∀ e < 16, a.stb.entryContent e ≠ b.stb.entryContent e →
        ∃ u, MirrorJob.shotEntry e (a.stb.entryContent e) u 0 ∈ a.rqe.jobs ++ js := by
  obtain ⟨js, hj, hm⟩ := mirrorChanges_jobs b.stb a.stb (List.range 16) a.rqe
  refine ⟨_, rfl, by simp, ?_, ?_, ?_, js, by simp [hj], fun e he hn => hm e (List.mem_range.2 he) hn⟩
  · exact ((mirrorChanges_sameRing b.stb a.stb _ a.rqe).trans (markChanges_sameRing b a _ _)).flags
  · intro k hk
    rw [markChanges_mem]
    exact .inl (by simpa using hk)
  · intro k h6 h
    rw [markChanges_mem]
    exact .inr ⟨by simp [pieceOrder]; omega, h⟩

theorem settleRqe_marked (b a : State) {k : Nat} (h : k ∈ a.rqe.marked) : k ∈ (settleRqe b a).marked := by
  obtain ⟨q, hq, -, -, hm, -⟩ := settleRqe_eq b a
  rw [hq]
  exact (makeRaises_cases _).2.2.2.1 k (hm k h)

theorem settleRqe_marks (b a : State) {k : Nat} (h6 : k ≤ 6) (h : statusPiece k a ≠ statusPiece k b) :
    k ∈ (settleRqe b a).marked := by
  obtain ⟨q, hq, -, -, -, hc, -⟩ := settleRqe_eq b a
  rw [hq]
  exact (makeRaises_cases _).2.2.2.1 k (hc k h6 h)

theorem settleRqe_jobs (b a : State) :
    ∃ js, (settleRqe b a).jobs = a.rqe.jobs ++ js ∧
      ∀ e < 16, a.stb.entryContent e ≠ b.stb.entryContent e →
        ∃ u, MirrorJob.shotEntry e (a.stb.entryContent e) u 0 ∈ a.rqe.jobs ++ js := by
  obtain ⟨q, hq, -, -, -, -, js, hj, hm⟩ := settleRqe_eq b a
  exact ⟨js, by rw [hq, (makeRaises_cases _).1, placeRaises_jobs, hj], hm⟩

theorem presentMirror_rqe (s : State) : (presentMirror s).rqe = s.rqe := by
  unfold presentMirror
  split
  · rfl
  · split <;> rfl

theorem presentMap_rqe (s : State) : (presentMap s).rqe = s.rqe := by
  unfold presentMap
  split
  · rfl
  · split <;> rfl

theorem presentWork_rqe (s : State) : (presentWork s).rqe = s.rqe := by
  unfold presentWork
  split
  · show (presentMap (presentMirror s)).rqe = s.rqe
    rw [presentMap_rqe, presentMirror_rqe]
  · rfl

theorem stopMonitor_rqe (s : State) : (stopMonitor s).rqe = s.rqe := by
  unfold stopMonitor
  split <;> rfl

@[simp] theorem finish_rqe : (finish before after).rqe = settleRqe before after := by
  unfold finish
  rw [stopMonitor_rqe, presentWork_rqe]

/-- A transaction that a command presents waits at its end. -/
theorem finish_presented {k : TxnKind} {addr len : Nat} (h : Presented k addr len after) :
    Presented k addr len (finish before after) := by
  obtain ⟨ts, h'⟩ := (finish_followUp before after).added
  unfold Presented at *
  rw [h']
  exact List.mem_append_left _ h

/-- Status pieces of content do not depend on the RQE or the arbiter. -/
theorem finish_statusPiece {k : Nat} (h : 1 ≤ k) : statusPiece k (finish before after) = statusPiece k after := by
  have f := finish_followUp before after
  have a1 := congrArg Amn.temp f.amn
  have a2 := congrArg Amn.batt f.amn
  have a3 := congrArg Amn.card f.amn
  have a4 := congrArg Amn.tempValid f.amn
  have a5 := congrArg Amn.battValid f.amn
  have a6 := congrArg Amn.cardValid f.amn
  have a7 := congrArg Amn.tempLevel f.amn
  have a8 := congrArg Amn.battLevel f.amn
  have f5 := congrArg Fmc.overflow f.fmc
  have f6 := congrArg Fmc.corrGeneral f.fmc
  have f7 := congrArg Fmc.corrFrame f.fmc
  have f8 := congrArg Fmc.corrControl f.fmc
  have f9 := congrArg Fmc.uncorrectable f.fmc
  have f11 := congrArg Fmc.injection f.fmc
  have f13 := congrArg Fmc.scrubPos f.fmc
  have f14 := congrArg Fmc.passes f.fmc
  simp only at *
  match k, h with
  | 1, _ => simp [statusPiece, pieceFields]
  | 2, _ => simp [statusPiece, pieceFields]
  | 3, _ => simp [statusPiece, pieceFields, a1, a2, a3, a4, a5, a6, a7, a8]
  | 4, _ => simp [statusPiece, pieceFields, f5, f6, f7, f8, f9, f11, f13, f14]
  | 5, _ => simp [statusPiece, pieceFields]
  | 6, _ => simp [statusPiece, pieceFields]
  | _ + 7, _ => rfl

theorem finish_marked {k : Nat} (h : k ∈ after.rqe.marked) : k ∈ (finish before after).rqe.marked := by
  rw [finish_rqe]
  exact settleRqe_marked before after h

/-- The write of a piece that is in progress is not ended by a follow-up. -/
theorem finish_writing : (finish before after).fmc.writingContent = after.fmc.writingContent := by
  have h := congrArg Fmc.active (finish_followUp before after).fmc
  simp only at h
  unfold Fmc.writingContent
  rw [h]

/-- An occurrence of the command is raised at its end, or waits for all that is still to be written. -/
theorem finish_raised {f : EventFlag} (h : { flag := f, hold := none } ∈ after.rqe.raises) :
    Raised f (finish before after) := by
  obtain ⟨q, hq, hr, hf, -⟩ := settleRqe_eq before after
  obtain ⟨h1, h2, h3, -, h5, h6⟩ := makeRaises_cases (q.placeRaises after.fmc.writingContent)
  have hu : unwritten (finish before after) = q.outstanding after.fmc.writingContent := by
    simp only [unwritten, Rqe.outstanding, finish_rqe, finish_writing, hq, h1, h5, placeRaises_jobs, placeRaises_marked]
  have hmem : ({ flag := f, hold := some (q.outstanding after.fmc.writingContent) } : Raise) ∈
      (q.placeRaises after.fmc.writingContent).raises := by
    simp only [Rqe.placeRaises, List.mem_map]
    exact ⟨_, hr ▸ h, rfl⟩
  unfold Raised
  rw [hu, finish_rqe, hq]
  split
  · rename_i hd
    simpa using h6 _ hmem (by simpa [Raise.ripe] using hd)
  · rename_i hd
    rw [h2]
    exact List.mem_filter.2 ⟨hmem, by simpa [Raise.ripe] using hd⟩

@[simp] theorem raise_raises (f : EventFlag) (q : Rqe) : (q.raise f).raises = q.raises ++ [{ flag := f, hold := none }] := rfl

/-! ### Frames -/

theorem Part.agree_refl (p : Part) (s : State) : p.agree s s := by cases p <;> simp [Part.agree]

theorem Part.agree_trans {p : Part} {s t u : State} (h : p.agree s t) (k : p.agree t u) : p.agree s u := by
  cases p <;> simp only [Part.agree] at * <;> grind

theorem FollowUp.agree {s t : State} (h : FollowUp s t) {p : Part} (hp : p ∉ followUp) : p.agree s t := by
  have hh : ∀ (g : Hmp → Hmp), (g { t.hmp with reads := s.hmp.reads }) = g s.hmp := fun g => by rw [h.hmp]
  have h1 := congrArg Hmp.queue h.hmp
  have h2 := congrArg Hmp.waiting h.hmp
  have h3 := congrArg Hmp.nextId h.hmp
  have h4 := congrArg Hmp.path h.hmp
  have h5 := congrArg Hmp.wake h.hmp
  have h6 := congrArg Hmp.sleepAsked h.hmp
  have h7 := congrArg Hmp.guardDrops h.hmp
  have h8 := congrArg Hmp.outOfRange h.hmp
  have h9 := congrArg Hmp.response h.hmp
  have f1 := congrArg Fmc.active h.fmc
  have f2 := congrArg Fmc.passOver h.fmc
  have f3 := congrArg Fmc.nextPart h.fmc
  have f4 := congrArg Fmc.errlog h.fmc
  have f5 := congrArg Fmc.overflow h.fmc
  have f6 := congrArg Fmc.corrGeneral h.fmc
  have f7 := congrArg Fmc.corrFrame h.fmc
  have f8 := congrArg Fmc.corrControl h.fmc
  have f9 := congrArg Fmc.uncorrectable h.fmc
  have f10 := congrArg Fmc.logUpdate h.fmc
  have f11 := congrArg Fmc.injection h.fmc
  have f12 := congrArg Fmc.corrected h.fmc
  have f13 := congrArg Fmc.scrubPos h.fmc
  have f14 := congrArg Fmc.passes h.fmc
  have f15 := congrArg Fmc.pace h.fmc
  have f16 := congrArg Fmc.scrub h.fmc
  cases p <;>
    simp_all [Part.agree, followUp, h.resetHeld, h.pins, h.mem, h.stb, h.exs, h.prs, h.pce, h.dfm, h.cde, h.amn,
      h.rqe.head, h.rqe.tail, h.rqe.completionNo, h.rqe.ringFaults, h.rqe.observed, h.rqe.service, h.rqe.lastAnswer,
      h.rqe.flags, h.rqe.enables, h.rqe.attn, h.rqe.resetCause]

theorem OnlyChanges.refl (ps : List Part) (s : State) : OnlyChanges ps s s := ⟨rfl, fun p _ _ => p.agree_refl s⟩

theorem OnlyChanges.trans {ps : List Part} {s t u : State} (h : OnlyChanges ps s t) (k : OnlyChanges ps t u) :
    OnlyChanges ps s u :=
  ⟨k.1.trans h.1, fun p hp hf => Part.agree_trans (h.2 p hp hf) (k.2 p hp hf)⟩

theorem OnlyChanges.mono {ps qs : List Part} {s t : State} (h : OnlyChanges ps s t) (hs : ∀ p ∈ ps, p ∈ qs) :
    OnlyChanges qs s t :=
  ⟨h.1, fun p hp hf => h.2 p (fun hq => hp (hs p hq)) hf⟩

theorem FollowUp.onlyChanges {s t : State} (h : FollowUp s t) (ps : List Part) : OnlyChanges ps s t :=
  ⟨h.pending, fun _ _ hf => h.agree hf⟩

/-- A frame of a command's own effect is a frame of the command. -/
theorem OnlyChanges.finish {ps : List Part} {s t : State} (b : State) (h : OnlyChanges ps s t) :
    OnlyChanges ps s (finish b t) :=
  h.trans ((finish_followUp b t).onlyChanges ps)

/-! ### Commands and answers -/

theorem event_next {s : State} (f : State → State) (h : s.resetHeld = false) : event s f = .next (finish s (f s)) := by
  simp [event, h]

theorem pinEvent_next {s : State} (g : Pins → Pins) (f : State → State) (h : s.resetHeld = false) :
    pinEvent s g f = .next (finish s (f { s with pins := g s.pins })) := by
  simp [pinEvent, h]

/-- The owner judges the request in a state that differs at most in its service. -/
theorem serve_taken {q : Request} {s : State} (h : Taken q s) (judge : State → State) :
    ∃ v : Service, serve q judge s = judge { s with rqe := { s.rqe with service := some v } } ∧
      (s.rqe.service = some v ∨ s.rqe.service = none ∧ v = { index := none, tag := 0, stage := .handed q }) := by
  obtain ⟨-, ⟨v, hv, hs⟩ | ⟨hn, hs⟩⟩ := h
  · refine ⟨v, ?_, .inl hv⟩
    simp only [serve, hv, hs, if_true]
    congr
    rw [← hv]
  · exact ⟨_, by simp [serve, hn, hs], .inr ⟨hn, rfl⟩⟩

/-- What an answer does. -/
theorem answer_cases (a : Answer) (s : State) :
    (s.rqe.service = none ∧ answer a s = { s with rqe := { s.rqe with lastAnswer := some a } }) ∨
    (∃ v, s.rqe.service = some v ∧ v.index = none ∧
      answer a s = { s with rqe := { s.rqe with lastAnswer := some a, service := none } }) ∨
    ∃ v k, s.rqe.service = some v ∧ v.index = some k ∧
      answer a s = present { kind := .completionWrite, addr := completionAddr k, len := 32 }
        { s with rqe := { s.rqe with lastAnswer := some a, service := some { v with stage := .answered a } } } := by
  unfold answer
  rcases hs : s.rqe.service with _ | v
  · simp [hs]
  · rcases hi : v.index with _ | k
    · simp [hs, hi]
    · simp [hs, hi]

theorem answer_onlyChanges (a : Answer) (s : State) : OnlyChanges [.service] s (answer a s) := by
  obtain ⟨-, h⟩ | ⟨v, -, -, h⟩ | ⟨v, k, -, -, h⟩ := answer_cases a s <;> rw [h]
  all_goals refine ⟨rfl, fun p hp hf => ?_⟩
  all_goals cases p <;> simp_all [Part.agree, followUp]

/-! ### Requests answered -/

/-- The state with its service replaced. -/
def withService (v : Service) (s : State) : State := { s with rqe := { s.rqe with service := some v } }

theorem withService_onlyChanges (v : Service) (s : State) : OnlyChanges [.service] s (withService v s) := by
  refine ⟨rfl, fun p hp hf => ?_⟩
  cases p <;> simp_all [Part.agree, withService]

/-- A request that its owner answers with `a` after the changes `g`: the command's end has the answer and the frame of
those changes. -/
theorem taken_answered {q : Request} {s : State} (h : Taken q s) {judge : State → State} {a : Answer} {g : State → State}
    (hj : ∀ v, judge (withService v s) = answer a (g (withService v s)))
    (hg : ∀ v, (g (withService v s)).rqe.service = some v) :
    ∃ (v : Service) (u : State), serve q judge s = u ∧ Answered a s (finish s u) ∧
      OnlyChanges [.service] (g (withService v s)) (finish s u) ∧
      u.stb = (g (withService v s)).stb ∧ u.exs = (g (withService v s)).exs ∧ u.hmp = (g (withService v s)).hmp ∧
      u.prs = (g (withService v s)).prs ∧ u.pce = (g (withService v s)).pce ∧ u.dfm = (g (withService v s)).dfm ∧
      u.amn = (g (withService v s)).amn ∧ u.cde = (g (withService v s)).cde ∧ u.mem = (g (withService v s)).mem ∧
      u.rqe.flags = (g (withService v s)).rqe.flags ∧ u.rqe.enables = (g (withService v s)).rqe.enables ∧
      u.rqe.attn = (g (withService v s)).rqe.attn ∧ u.rqe.jobs = (g (withService v s)).rqe.jobs ∧
      u.rqe.marked = (g (withService v s)).rqe.marked ∧ u.rqe.raises = (g (withService v s)).rqe.raises ∧
      (∀ x ∈ (g (withService v s)).fmc.pending, x ∈ u.fmc.pending) := by
  obtain ⟨v, hs, hv⟩ := serve_taken h judge
  have hs' : serve q judge s = answer a (g (withService v s)) := by rw [hs]; exact hj v
  refine ⟨v, answer a (g (withService v s)), hs', ?_, ((answer_onlyChanges a _).finish s), ?_⟩
  · have hgv := hg v
    refine ⟨?_, ?_⟩
    · rw [finish_rqe, (settleRqe_sameRing s _).lastAnswer]
      obtain ⟨-, he⟩ | ⟨w, -, -, he⟩ | ⟨w, k, -, -, he⟩ := answer_cases a (g (withService v s)) <;> rw [he] <;> rfl
    · intro w k hw hk
      have hwv : w = v := by
        rcases hv with hv | ⟨hn, -⟩
        · rw [hv] at hw; exact (Option.some.inj hw).symm
        · rw [hn] at hw; exact absurd hw (by simp)
      subst hwv
      obtain ⟨hn, -⟩ | ⟨x, hx, hi, -⟩ | ⟨x, j, hx, hi, he⟩ := answer_cases a (g (withService w s))
      · rw [hgv] at hn; exact absurd hn (by simp)
      · rw [hgv] at hx; cases hx; rw [hk] at hi; exact absurd hi (by simp)
      · rw [hgv] at hx; cases hx; rw [hk] at hi; cases hi
        rw [he]
        refine ⟨?_, ?_⟩
        · rw [finish_rqe, (settleRqe_sameRing s _).service]; rfl
        · apply finish_presented
          simp [Presented, completionAddr, entryAddr]
  · obtain ⟨-, he⟩ | ⟨w, -, -, he⟩ | ⟨w, k, -, -, he⟩ := answer_cases a (g (withService v s)) <;> rw [he] <;>
      refine ⟨rfl, rfl, rfl, rfl, rfl, rfl, rfl, rfl, rfl, rfl, rfl, rfl, rfl, rfl, rfl, ?_⟩ <;>
      intro x hx <;> simp [hx]

/-- A request that its owner refuses with a code. -/
theorem taken_refused {q : Request} {s : State} (h : Taken q s) {judge : State → State} {c : Code}
    (hj : ∀ v, judge (withService v s) = reply c (withService v s)) :
    ∃ t, event s (serve q judge) = .next t ∧ Refused c s t := by
  obtain ⟨v, u, hs, ha, ho, -⟩ := taken_answered h (a := { code := c }) (g := id) hj (fun _ => rfl)
  refine ⟨_, event_next _ h.1, ?_⟩
  rw [hs]
  exact ⟨ha, (withService_onlyChanges v s).trans ho⟩

end Sys2Proof.Machine
end

