-- ==== Sys2Proof/Laws/Commands.lean ====
section
/-! SUPPORT. The three forms a command's meaning has. -/

namespace Sys2Proof.Machine

/-- The commands that write the status block themselves: the resets, and the ends of the fill, of the standby entry and of
the wake. -/
def writesStatus (c : Instr) : Prop :=
  c = .powerOnReset ∨ c = .fillComplete ∨ c = .pinResetAssert ∨ c = .pinResetRelease ∨ c = .standbyEntryDrained ∨
    c = .wakeDramReady

/-- Every command is an event, a change of an input pin, one of the six that write the status block themselves, or a
fault. -/
theorem exec_form (c : Instr) (s : State) :
    (∃ f, exec c s = event s f) ∨ (∃ g f, exec c s = pinEvent s g f) ∨ writesStatus c ∨ exec c s = .fault .illFormed := by
  cases c
  case setSlots => left; simp only [exec, execSetSlots]; exact ⟨_, rfl⟩
  case loadProfile => left; simp only [exec, execLoadProfile]; exact ⟨_, rfl⟩
  case loadDefects => left; simp only [exec, execLoadDefects]; exact ⟨_, rfl⟩
  case clearFound => left; simp only [exec, execClearFound]; exact ⟨_, rfl⟩
  case arm => left; simp only [exec, execArm]; exact ⟨_, rfl⟩
  case abort => left; simp only [exec, execAbort]; exact ⟨_, rfl⟩
  case discard => left; simp only [exec, execDiscard]; exact ⟨_, rfl⟩
  case release => left; simp only [exec, execRelease]; exact ⟨_, rfl⟩
  case retire => left; simp only [exec, execRetire]; exact ⟨_, rfl⟩
  case readCard => left; simp only [exec, execReadCard]; exact ⟨_, rfl⟩
  case formatCard => left; simp only [exec, execFormatCard]; exact ⟨_, rfl⟩
  case resetCard => left; simp only [exec, execResetCard]; exact ⟨_, rfl⟩
  case clearErrlog => left; simp only [exec, execClearErrlog]; exact ⟨_, rfl⟩
  case injectCheck => left; simp only [exec, execInjectCheck]; exact ⟨_, rfl⟩
  case setMonitor => left; simp only [exec, execSetMonitor]; exact ⟨_, rfl⟩
  case setEvents => left; simp only [exec, execSetEvents]; exact ⟨_, rfl⟩
  case standby => left; simp only [exec, execStandby]; exact ⟨_, rfl⟩
  case requestTailWordWrite => left; simp only [exec, execRequestTailWordWrite]; exact ⟨_, rfl⟩
  case eventClearWordWrite => left; simp only [exec, execEventClearWordWrite]; exact ⟨_, rfl⟩
  case requestDispatch => left; simp only [exec, execRequestDispatch]; exact ⟨_, rfl⟩
  case completionWriteDone => left; simp only [exec, execCompletionWriteDone]; exact ⟨_, rfl⟩
  case statusPieceWrite => left; simp only [exec, execStatusPieceWrite]; exact ⟨_, rfl⟩
  case statusPieceWriteDone => left; simp only [exec, execStatusPieceWriteDone]; exact ⟨_, rfl⟩
  case hostBurst b =>
    by_cases h : b.wf = true
    · left
      refine ⟨presentBurst b, ?_⟩
      simp only [exec, execHostBurst, h, if_true]
    · simp [exec, execHostBurst, h]
  case writeBurstDelivery => left; simp only [exec, execWriteBurstDelivery]; exact ⟨_, rfl⟩
  case readoutIdleExpiry => left; simp only [exec, execReadoutIdleExpiry]; exact ⟨_, rfl⟩
  case dramGrant => left; simp only [exec, execDramGrant]; exact ⟨_, rfl⟩
  case hostReadComplete => left; simp only [exec, execHostReadComplete]; exact ⟨_, rfl⟩
  case partReadComplete => left; simp only [exec, execPartReadComplete]; exact ⟨_, rfl⟩
  case profileImageJudged => left; simp only [exec, execProfileImageJudged]; exact ⟨_, rfl⟩
  case defectListReplace => left; simp only [exec, execDefectListReplace]; exact ⟨_, rfl⟩
  case defectMirrorRewriteDone => left; simp only [exec, execDefectMirrorRewriteDone]; exact ⟨_, rfl⟩
  case scrubPaceExpiry => left; simp only [exec, execScrubPaceExpiry]; exact ⟨_, rfl⟩
  case scrubReadComplete => left; simp only [exec, execScrubReadComplete]; exact ⟨_, rfl⟩
  case quietAckRise => right; left; simp only [exec, execQuietAckRise]; exact ⟨_, _, rfl⟩
  case quietAckFall => right; left; simp only [exec, execQuietAckFall]; exact ⟨_, _, rfl⟩
  case quietWaitExpiry => left; simp only [exec, execQuietWaitExpiry]; exact ⟨_, rfl⟩
  case flushTimeExpiry => left; simp only [exec, execFlushTimeExpiry]; exact ⟨_, rfl⟩
  case settleTimeExpiry => left; simp only [exec, execSettleTimeExpiry]; exact ⟨_, rfl⟩
  case syncClosureAccepted => right; left; simp only [exec, execSyncClosureAccepted]; exact ⟨_, _, rfl⟩
  case syncReleaseAccepted => right; left; simp only [exec, execSyncReleaseAccepted]; exact ⟨_, _, rfl⟩
  case syncRejectedPulse => right; left; simp only [exec, execSyncRejectedPulse]; exact ⟨_, _, rfl⟩
  case waitLimitExpiry => left; simp only [exec, execWaitLimitExpiry]; exact ⟨_, rfl⟩
  case exposureLimitExpiry => left; simp only [exec, execExposureLimitExpiry]; exact ⟨_, rfl⟩
  case windowEnd => left; simp only [exec, execWindowEnd]; exact ⟨_, rfl⟩
  case timedDurationExpiry => left; simp only [exec, execTimedDurationExpiry]; exact ⟨_, rfl⟩
  case tailTimeExpiry => left; simp only [exec, execTailTimeExpiry]; exact ⟨_, rfl⟩
  case snsReadPulseEnd => left; simp only [exec, execSnsReadPulseEnd]; exact ⟨_, rfl⟩
  case sampleTimerExpiry => left; simp only [exec, execSampleTimerExpiry]; exact ⟨_, rfl⟩
  case conversionStart => left; simp only [exec, execConversionStart]; exact ⟨_, rfl⟩
  case conversionComplete => left; simp only [exec, execConversionComplete]; exact ⟨_, rfl⟩
  case cardRailPollTick => left; simp only [exec, execCardRailPollTick]; exact ⟨_, rfl⟩
  case rampTimerExpiry => left; simp only [exec, execRampTimerExpiry]; exact ⟨_, rfl⟩
  case dischargeTimerExpiry => left; simp only [exec, execDischargeTimerExpiry]; exact ⟨_, rfl⟩
  case cardInsertion => right; left; simp only [exec, execCardInsertion]; exact ⟨_, _, rfl⟩
  case cardRemoval => right; left; simp only [exec, execCardRemoval]; exact ⟨_, _, rfl⟩
  case cardOvercurrent => left; simp only [exec, execCardOvercurrent]; exact ⟨_, rfl⟩
  case cardRunIssue => left; simp only [exec, execCardRunIssue]; exact ⟨_, rfl⟩
  case identResponse => left; simp only [exec, execIdentResponse]; exact ⟨_, rfl⟩
  case cardResponse => left; simp only [exec, execCardResponse]; exact ⟨_, rfl⟩
  case cardBlockReceived d k =>
    by_cases h : blockWf d = true
    · left
      refine ⟨blockReceived d k, ?_⟩
      simp only [exec, execCardBlockReceived, h, if_true]
    · simp [exec, execCardBlockReceived, h]
  case cardWriteToken => left; simp only [exec, execCardWriteToken]; exact ⟨_, rfl⟩
  case cardBusyRelease => left; simp only [exec, execCardBusyRelease]; exact ⟨_, rfl⟩
  case responseTimeout => left; simp only [exec, execResponseTimeout]; exact ⟨_, rfl⟩
  case busyTimeout => left; simp only [exec, execBusyTimeout]; exact ⟨_, rfl⟩
  case cardNextWork => left; simp only [exec, execCardNextWork]; exact ⟨_, rfl⟩
  case cardReadResultWrite => left; simp only [exec, execCardReadResultWrite]; exact ⟨_, rfl⟩
  case standbyEntryDrained => right; right; left; simp [writesStatus]
  case cardDetectWake => right; left; simp only [exec, execCardDetectWake]; exact ⟨_, _, rfl⟩
  case wakeDramReady => right; right; left; simp [writesStatus]
  case powerOnReset => right; right; left; simp [writesStatus]
  case fillComplete => right; right; left; simp [writesStatus]
  case pinResetAssert => right; right; left; simp [writesStatus]
  case pinResetRelease => right; right; left; simp [writesStatus]

end Sys2Proof.Machine
end

