-- ==== Sys2Proof/Laws/Memory.lean ====
section
/-! SUPPORT. Memory keeps its canonical form under every operation; a read after a write. -/

namespace Sys2Proof.Machine

/-! ### Cells -/

/-- A key above a bound. -/
def above (lo : Option Nat) (k : Nat) : Prop := ∀ n, lo = some n → n < k

theorem cellsWfFrom_cons (lo : Option Nat) (k : Nat) (v : Byte) (t : List Host.Cell) :
    cellsWfFrom lo ((k, v) :: t) = true ↔ above lo k ∧ v ≠ 0 ∧ cellsWfFrom (some k) t = true := by
  cases lo <;> simp [cellsWfFrom, above, and_assoc]

theorem cellsWfFrom_weaken {lo lo' : Option Nat} {l : List Host.Cell} (h : cellsWfFrom lo l = true)
    (hl : ∀ k, above lo k → above lo' k) : cellsWfFrom lo' l = true := by
  cases l with
  | nil => rfl
  | cons c t =>
    obtain ⟨k, v⟩ := c
    rw [cellsWfFrom_cons] at *
    exact ⟨hl k h.1, h.2⟩

theorem consCell_wf {lo : Option Nat} {a : Nat} {v : Byte} {t : List Host.Cell} (ha : above lo a)
    (h : cellsWfFrom (some a) t = true) : cellsWfFrom lo (consCell a v t) = true := by
  unfold consCell
  split
  · exact cellsWfFrom_weaken h fun k hk n hn => Nat.lt_trans (ha n hn) (hk a rfl)
  · rw [cellsWfFrom_cons]
    exact ⟨ha, ‹_›, h⟩

/-- A write keeps the canonical form. -/
theorem writeCell_wf {lo : Option Nat} {l : List Host.Cell} (a : Nat) (v : Byte) (h : cellsWfFrom lo l = true)
    (ha : above lo a) : cellsWfFrom lo (writeCell l a v) = true := by
  induction l generalizing lo with
  | nil => exact consCell_wf ha rfl
  | cons c t ih =>
    obtain ⟨k, w⟩ := c
    rw [cellsWfFrom_cons] at h
    unfold writeCell
    split
    · refine consCell_wf ha ?_
      rw [cellsWfFrom_cons]
      exact ⟨fun n hn => by cases hn; assumption, h.2.1, h.2.2⟩
    · split
      · rename_i hk
        subst hk
        exact consCell_wf ha h.2.2
      · rw [cellsWfFrom_cons]
        exact ⟨h.1, h.2.1, ih h.2.2 fun n hn => by cases hn; omega⟩

theorem above_none (k : Nat) : above none k := fun _ h => nomatch h

theorem writeCells_wf {l : List Host.Cell} (cells : List Host.Cell) (h : cellsWfFrom none l = true) :
    cellsWfFrom none (writeCells l cells) = true := by
  unfold writeCells
  induction cells generalizing l with
  | nil => exact h
  | cons c cs ih => exact ih (writeCell_wf c.1 c.2 h (above_none _))

theorem filter_wf {lo : Option Nat} {l : List Host.Cell} (p : Host.Cell → Bool) (h : cellsWfFrom lo l = true) :
    cellsWfFrom lo (l.filter p) = true := by
  induction l generalizing lo with
  | nil => rfl
  | cons c t ih =>
    obtain ⟨k, v⟩ := c
    rw [cellsWfFrom_cons] at h
    rw [List.filter_cons]
    split
    · rw [cellsWfFrom_cons]
      exact ⟨h.1, h.2.1, ih h.2.2⟩
    · exact cellsWfFrom_weaken (ih h.2.2) fun j hj n hn => Nat.lt_trans (h.1 n hn) (hj k rfl)

/-- Below a bound nothing is listed. -/
theorem readCell_below {a : Nat} {l : List Host.Cell} (h : cellsWfFrom (some a) l = true) (b : Nat) (hb : b ≤ a) :
    readCell l b = 0 := by
  induction l generalizing a with
  | nil => rfl
  | cons c t ih =>
    obtain ⟨k, v⟩ := c
    rw [cellsWfFrom_cons] at h
    have := h.1 a rfl
    simp only [readCell]
    rw [if_neg (by omega)]
    exact ih h.2.2 (by omega)

theorem readCell_consCell {a : Nat} {v : Byte} {t : List Host.Cell} (h : cellsWfFrom (some a) t = true) (b : Nat) :
    readCell (consCell a v t) b = if b = a then v else readCell t b := by
  unfold consCell
  split
  · rename_i hv
    split
    · rw [readCell_below h b (by omega), hv]
    · rfl
  · simp only [readCell, eq_comm]

/-- A read after a write: the value written at its address, what was there at every other. -/
theorem readCell_writeCell {lo : Option Nat} {l : List Host.Cell} (a : Nat) (v : Byte) (h : cellsWfFrom lo l = true)
    (b : Nat) : readCell (writeCell l a v) b = if b = a then v else readCell l b := by
  induction l generalizing lo with
  | nil =>
    unfold writeCell
    exact readCell_consCell rfl b
  | cons c t ih =>
    obtain ⟨k, w⟩ := c
    rw [cellsWfFrom_cons] at h
    unfold writeCell
    split
    · refine readCell_consCell ?_ b
      rw [cellsWfFrom_cons]
      exact ⟨fun n hn => by cases hn; assumption, h.2⟩
    · split
      · rename_i hk
        subst hk
        rw [readCell_consCell h.2.2 b]
        split
        · rfl
        · simp only [readCell]
          rw [if_neg (by omega)]
      · rename_i h1 h2
        simp only [readCell]
        split
        · rw [if_neg (by omega)]
        · exact ih h.2.2

/-! ### Memory -/

theorem Memory.wf_iff (m : Memory) : m.wf = true ↔ cellsWfFrom none m.data = true ∧ cellsWfFrom none m.check = true := by
  simp [Memory.wf]

/-- Storing a codeword keeps the canonical form. -/
theorem Memory.store_wf {m : Memory} (h : m.wf = true) (cw : Nat) (d : BitVec 64) (c : BitVec 8) :
    (m.store cw d c).wf = true := by
  rw [Memory.wf_iff] at *
  exact ⟨writeCells_wf _ h.1, writeCell_wf cw c h.2 (above_none _)⟩

theorem Memory.clear_wf {m : Memory} (h : m.wf = true) (lo hi : Nat) : (m.clear lo hi).wf = true := by
  rw [Memory.wf_iff] at *
  exact ⟨filter_wf _ h.1, filter_wf _ h.2⟩

theorem Memory.filled_wf : Memory.filled.wf = true := rfl

theorem reset_mem_wf : State.reset.mem.wf = true := rfl

/-! ### The operations that write memory -/

theorem storeWord_mem (cw : Nat) (d : BitVec 64) (c : BitVec 8) (s : State) :
    ∃ c', (storeWord cw d c s).mem = s.mem.store cw d c' := ⟨_, rfl⟩

theorem storeWord_wf {s : State} (h : s.mem.wf = true) (cw : Nat) (d : BitVec 64) (c : BitVec 8) :
    (storeWord cw d c s).mem.wf = true := Memory.store_wf h _ _ _

@[simp] theorem chargeRecord_mem (o : Occurrence) (s : State) : (chargeRecord o s).mem = s.mem := by
  unfold chargeRecord; split <;> simp

@[simp] theorem mirrorErrorHeader_mem (s : State) : (mirrorErrorHeader s).mem = s.mem := rfl

@[simp] theorem logOccurrence_mem (o : Occurrence) (c : ErrorClass) (s : State) : (logOccurrence o c s).mem = s.mem := by
  unfold logOccurrence; split <;> (try split) <;> rfl

@[simp] theorem occur_mem (o : Occurrence) (s : State) : (occur o s).mem = s.mem := by
  unfold occur; cases o.cls <;> simp

@[simp] theorem report_mem (src : ErrorSource) (cw : Nat) (c : Checked) (s : State) : (report src cw c s).mem = s.mem := by
  unfold report; split <;> simp

@[simp] theorem reportParity_mem (p : Bool) (src : ErrorSource) (cw : Nat) (s : State) :
    (reportParity p src cw s).mem = s.mem := by
  unfold reportParity; split <;> simp

theorem writeCodeword_wf {s : State} (h : s.mem.wf = true) (src : ErrorSource) (p : Bool) (cells : List Host.Cell)
    (cw : Nat) : (writeCodeword src p cells cw s).mem.wf = true := by
  simp only [writeCodeword]
  split
  · exact h
  · split
    · simpa using storeWord_wf h _ _ _
    · simpa using storeWord_wf h _ _ _

/-- Every write of bytes keeps the canonical form. -/
theorem writeBytes_wf {s : State} (src : ErrorSource) (p : Bool) (cells : List Host.Cell) (cws : List Nat)
    (h : s.mem.wf = true) : (writeBytes src p cells cws s).mem.wf = true := by
  induction cws generalizing s with
  | nil => exact h
  | cons cw cws ih => exact ih (writeCodeword_wf h src p cells cw)

theorem writeRecord_wf {s : State} (a : Nat) (bytes : List Byte) (h : s.mem.wf = true) :
    (writeRecord a bytes s).mem.wf = true := writeBytes_wf _ _ _ _ h

theorem readCodewords_mem (src : ErrorSource) (cws : List Nat) (s : State) : (readCodewords src cws s).2.mem = s.mem := by
  induction cws generalizing s with
  | nil => rfl
  | cons cw cws ih =>
    simp only [readCodewords]
    split <;> rw [ih] <;> simp

@[simp] theorem readRange_mem (src : ErrorSource) (a n : Nat) (s : State) : (readRange src a n s).2.mem = s.mem :=
  readCodewords_mem src _ s

theorem scrubWrite_wf {s : State} (a : Nat) (d : BitVec 64) (h : s.mem.wf = true) : (scrubWrite a d s).mem.wf = true := by
  simp only [scrubWrite]
  split
  · exact h
  · exact storeWord_wf h _ _ _

theorem writeMap_wf {s : State} (t : Txn) (h : s.mem.wf = true) : (writeMap t s).mem.wf = true := by
  simp only [writeMap]
  exact writeRecord_wf _ _ h

theorem writePiece_wf {s : State} (k : Nat) (h : s.mem.wf = true) : (writePiece k s).mem.wf = true := writeRecord_wf _ _ h

theorem writePieces_wf {s : State} (ks : List Nat) (h : s.mem.wf = true) : (writePieces ks s).mem.wf = true := by
  induction ks generalizing s with
  | nil => exact h
  | cons k ks ih => exact ih (writePiece_wf k h)

theorem writeStatus_wf {s : State} (h : s.mem.wf = true) : (writeStatus s).mem.wf = true :=
  writePieces_wf _ (writePieces_wf _ h)

theorem writeEmptyEntries_wf {s : State} (es : List Nat) (h : s.mem.wf = true) : (writeEmptyEntries es s).mem.wf = true := by
  induction es generalizing s with
  | nil => exact h
  | cons e es ih =>
    refine ih ?_
    rw [writeEmptyEntry]
    exact writeRecord_wf _ _ (writeRecord_wf _ _ h)

theorem clearAreas_wf {s : State} (h : s.mem.wf = true) : (clearAreas s).mem.wf = true := by
  rw [clearAreas]
  exact Memory.clear_wf (Memory.clear_wf (Memory.clear_wf h _ _) _ _) _ _

theorem emptyMirrors_wf {s : State} (h : s.mem.wf = true) : (emptyMirrors s).mem.wf = true := by
  rw [emptyMirrors]
  exact writeRecord_wf _ _ (writeEmptyEntries_wf _ (clearAreas_wf h))

@[simp] theorem markMirrors_mem (s : State) : (markMirrors s).mem = s.mem := rfl

theorem writeMirrors_wf {s : State} (h : s.mem.wf = true) : (writeMirrors s).mem.wf = true := by
  rw [writeMirrors, markMirrors_mem]
  exact emptyMirrors_wf h

end Sys2Proof.Machine
end

