-- ==== Sys2Proof/Laws/Status.lean ====
section
/-! SUPPORT. What a record written by the part leaves in DRAM, and what the write of the status block leaves (R200). -/

namespace Sys2Proof.Machine

/-! ### Bytes and cells -/

theorem fromLe_lt (bs : List Byte) : fromLe bs < 256 ^ bs.length := by
  induction bs with
  | nil => simp [fromLe]
  | cons b bs ih =>
    have := b.isLt
    simp only [fromLe, List.length_cons, Nat.pow_succ]
    omega

theorem le_fromLe (bs : List Byte) : le bs.length (fromLe bs) = bs := by
  induction bs with
  | nil => rfl
  | cons b bs ih =>
    have := b.isLt
    simp only [List.length_cons, le, fromLe, byteOf]
    rw [show (b.toNat + 256 * fromLe bs) / 256 = fromLe bs by omega, ih]
    congr 1
    apply BitVec.eq_of_toNat_eq
    simp only [BitVec.toNat_ofNat]
    omega

/-- The cell of an address among bytes laid at consecutive addresses. -/
theorem find_cellsAt (a : Nat) (bs : List Byte) (b : Nat) :
    (cellsAt a bs).find? (fun c => c.1 == b) = if a ≤ b then bs[b - a]?.map fun v => (b, v) else none := by
  induction bs generalizing a with
  | nil => simp [cellsAt]
  | cons v vs ih =>
    simp only [cellsAt, List.find?_cons]
    by_cases h : a = b
    · subst h
      simp
    · rw [show (a == b) = false by simp [h]]
      simp only [ih]
      by_cases h1 : a ≤ b
      · rw [if_pos (by omega), if_pos h1, show b - a = (b - (a + 1)) + 1 by omega, List.getElem?_cons_succ]
      · rw [if_neg (by omega), if_neg h1]

/-- A read after a write of bytes at consecutive addresses. -/
theorem readCell_writeCells {l : List Host.Cell} (h : cellsWfFrom none l = true) (a : Nat) (bs : List Byte) (b : Nat) :
    readCell (writeCells l (cellsAt a bs)) b =
      if a ≤ b ∧ b < a + bs.length then bs.getD (b - a) 0 else readCell l b := by
  induction bs generalizing a l with
  | nil => simp [cellsAt, writeCells]
  | cons v vs ih =>
    have step : writeCells l (cellsAt a (v :: vs)) = writeCells (writeCell l a v) (cellsAt (a + 1) vs) := rfl
    rw [step, ih (writeCell_wf a v h (above_none a)), readCell_writeCell a v h, List.length_cons]
    by_cases h0 : b = a
    · subst h0
      rw [if_neg (by omega), if_pos rfl, if_pos (by omega)]
      simp
    · by_cases h1 : a + 1 ≤ b ∧ b < a + 1 + vs.length
      · rw [if_pos h1, if_pos (by omega), show b - a = (b - (a + 1)) + 1 by omega, List.getD_cons_succ]
      · rw [if_neg h1, if_neg h0, if_neg (by omega)]

/-- A codeword stored: its eight bytes, and no other. -/
theorem Memory.byte_store {m : Memory} (h : m.wf = true) (cw : Nat) (d : BitVec 64) (c : BitVec 8) (b : Nat) :
    (m.store cw d c).byte b = if cw ≤ b ∧ b < cw + 8 then (le 8 d.toNat).getD (b - cw) 0 else m.byte b :=
  readCell_writeCells (((m.wf_iff).1 h).1) cw (le 8 d.toNat) b

/-! ### The record a part writes (R129) -/

/-- The eight bytes a whole codeword of a record is written with. -/
def recordWord (a : Nat) (bs : List Byte) (cw : Nat) : List Byte := (List.range 8).map fun k => bs.getD (cw + k - a) 0

/-- A codeword that lies whole in a record is stored with the record's bytes. -/
theorem writeCodeword_whole (src : ErrorSource) (a : Nat) (bs : List Byte) (cw : Nat) (s : State) (h8 : cw % 8 = 0)
    (hl : a ≤ cw) (hh : cw + 8 ≤ a + bs.length) : ∃ c,
      writeCodeword src false (cellsAt a bs) cw s = storeWord cw (BitVec.ofNat 64 (fromLe (recordWord a bs cw))) c s := by
  have at_ : ∀ k, k < 8 → (cellsAt a bs).find? (fun c => codewordOf c.1 == cw && c.1 == cw + k) =
      some (cw + k, bs.getD (cw + k - a) 0) := by
    intro k hk
    have hp : (fun c : Host.Cell => codewordOf c.1 == cw && c.1 == cw + k) = fun c => c.1 == cw + k := by
      funext c
      by_cases hc : c.1 = cw + k
      · have : codewordOf c.1 = cw := by rw [hc, codewordOf]; omega
        simp [hc]
        rw [← hc, this]
      · simp [hc]
    rw [hp, find_cellsAt, if_pos (by omega), List.getElem?_eq_getElem (by omega)]
    simp [List.getD_eq_getElem?_getD, List.getElem?_eq_getElem (show cw + k - a < bs.length by omega)]
  have mine : ∀ k, k < 8 → ((cellsAt a bs).filter fun c => codewordOf c.1 == cw).find? (fun c => c.1 == cw + k) =
      some (cw + k, bs.getD (cw + k - a) 0) := by
    intro k hk
    rw [List.find?_filter, ← at_ k hk]
    congr 1
    funext c
    simp [beq_eq_decide]
  have merge : mergeBytes cw [] ((cellsAt a bs).filter fun c => codewordOf c.1 == cw) = recordWord a bs cw := by
    unfold mergeBytes recordWord
    refine List.map_congr_left fun k hk => ?_
    rw [mine k (List.mem_range.1 hk)]
    rfl
  have ne : ((cellsAt a bs).filter fun c => codewordOf c.1 == cw) ≠ [] := by
    intro h
    have := mine 0 (by omega)
    rw [h] at this
    simp at this
  have all : ((List.range 8).all fun k => ((cellsAt a bs).filter fun c => codewordOf c.1 == cw).any fun c => c.1 == cw + k) = true := by
    rw [List.all_eq_true]
    intro k hk
    have := mine k (List.mem_range.1 hk)
    rw [List.any_eq_true]
    exact ⟨_, List.mem_of_find?_eq_some this, by simp⟩
  exact ⟨checkOf false (BitVec.ofNat 64 (fromLe (recordWord a bs cw))), by simp only [writeCodeword, ne, if_false, all, if_true, merge, reportParity, Bool.false_eq_true]⟩

theorem recordWord_byte (a : Nat) (bs : List Byte) (cw b : Nat) (h : cw ≤ b) (hb : b < cw + 8) :
    (le 8 (BitVec.ofNat 64 (fromLe (recordWord a bs cw))).toNat).getD (b - cw) 0 = bs.getD (b - a) 0 := by
  have hl : (recordWord a bs cw).length = 8 := by simp [recordWord]
  have hlt := fromLe_lt (recordWord a bs cw)
  rw [hl] at hlt
  rw [BitVec.toNat_ofNat, Nat.mod_eq_of_lt (by omega)]
  have := le_fromLe (recordWord a bs cw)
  rw [hl] at this
  rw [this, recordWord]
  simp only [List.getD_eq_getElem?_getD, List.getElem?_map, List.getElem?_range (show b - cw < 8 by omega), Option.map_some,
    Option.getD_some]
  rw [show cw + (b - cw) - a = b - a by omega]

/-- What a write of a record in whole codewords changes: the bytes of the codewords, an injection armed in one of them, the
scrub step's watch. -/
theorem writeBytes_whole (src : ErrorSource) (a : Nat) (bs : List Byte) (cws : List Nat) (s : State) (hm : s.mem.wf = true)
    (hc : ∀ cw ∈ cws, cw % 8 = 0 ∧ a ≤ cw ∧ cw + 8 ≤ a + bs.length) :
    ∃ m i st, writeBytes src false (cellsAt a bs) cws s =
        { s with mem := m, fmc := { s.fmc with injection := i, scrub := st } } ∧ m.wf = true ∧
      ∀ b, m.byte b = if codewordOf b ∈ cws then bs.getD (b - a) 0 else s.mem.byte b := by
  induction cws generalizing s with
  | nil => exact ⟨_, _, _, rfl, hm, fun b => by simp⟩
  | cons cw cws ih =>
    obtain ⟨c0, c1, c2⟩ := hc cw (by simp)
    obtain ⟨c, he⟩ := writeCodeword_whole src a bs cw s c0 c1 c2
    simp only [writeBytes, he]
    obtain ⟨m, i, st, e, hw, hb⟩ := ih (storeWord cw (BitVec.ofNat 64 (fromLe (recordWord a bs cw))) c s)
      (storeWord_wf hm _ _ _) fun x hx => hc x (by simp [hx])
    refine ⟨m, i, st, e, hw, fun b => ?_⟩
    rw [hb b]
    obtain ⟨c', hs⟩ := storeWord_mem cw (BitVec.ofNat 64 (fromLe (recordWord a bs cw))) c s
    rw [hs, Memory.byte_store hm]
    by_cases hx : codewordOf b ∈ cws
    · simp [hx]
    · by_cases hy : codewordOf b = cw
      · have h1 : cw ≤ b ∧ b < cw + 8 := by rw [← hy, codewordOf]; omega
        rw [if_neg hx, if_pos h1, if_pos (by simp [hy]), recordWord_byte a bs cw b h1.1 h1.2]
      · have h1 : ¬ (cw ≤ b ∧ b < cw + 8) := by rw [codewordOf] at hy; omega
        rw [if_neg hx, if_neg h1, if_neg (by simp [hx, hy])]

/-- A record written in whole codewords stands in DRAM; nothing else changes but an injection armed there and the scrub
step's watch. -/
theorem writeRecord_whole (a : Nat) (bs : List Byte) (s : State) (hm : s.mem.wf = true) (ha : a % 8 = 0)
    (hl : bs.length % 8 = 0) (h0 : bs ≠ []) :
    ∃ m i st, writeRecord a bs s = { s with mem := m, fmc := { s.fmc with injection := i, scrub := st } } ∧ m.wf = true ∧
      ∀ b, m.byte b = if a ≤ b ∧ b < a + bs.length then bs.getD (b - a) 0 else s.mem.byte b := by
  have hp : 0 < bs.length := List.length_pos_of_ne_nil h0
  have mem : ∀ cw, cw ∈ codewordsOf a bs.length ↔ cw % 8 = 0 ∧ a ≤ cw ∧ cw + 8 ≤ a + bs.length := by
    intro cw
    rw [codewordsOf, if_neg (by omega)]
    simp only [List.mem_map, List.mem_range]
    constructor
    · rintro ⟨k, hk, rfl⟩
      omega
    · intro h
      exact ⟨cw / 8 - a / 8, by omega, by omega⟩
  obtain ⟨m, i, st, e, hw, hb⟩ := writeBytes_whole .hostRmw a bs (codewordsOf a bs.length) s hm fun cw h => (mem cw).1 h
  refine ⟨m, i, st, e, hw, fun b => ?_⟩
  rw [hb b]
  refine if_congr ?_ rfl rfl
  rw [mem, codewordOf]
  omega

/-! ### The write of a piece (R200, R201) -/

@[simp] theorem statusPiece_length (k : Nat) (s : State) : (statusPiece k s).length = 64 := by
  simp only [statusPiece, padTo, List.length_take, List.length_append, List.length_replicate]
  omega

/-- A piece of content is no matter of the RQE's. -/
theorem statusPiece_withRqe {k : Nat} (h : k ≠ 0) (s : State) (q : Rqe) :
    statusPiece k { s with rqe := q } = statusPiece k s := by
  match k, h with
  | 1, _ | 2, _ | 3, _ | 4, _ | 5, _ | 6, _ | _ + 7, _ => rfl

/-- Piece 0 shows of the RQE only these. -/
theorem statusPiece_zero {s : State} {q : Rqe} {f : Fmc} {m : Memory} (h1 : q.resetCause = s.rqe.resetCause)
    (h2 : q.head = s.rqe.head) (h3 : shownFlags q = shownFlags s.rqe) (h4 : q.enables = s.rqe.enables)
    (h5 : q.ringFaults = s.rqe.ringFaults) (h6 : q.completionNo = s.rqe.completionNo) :
    statusPiece 0 { s with rqe := q, fmc := f, mem := m } = statusPiece 0 s := by
  simp only [statusPiece, pieceFields, h1, h2, h3, h4, h5, h6, quietGranted]

/-- What the RQE keeps, up to a raise that marks piece 0. -/
structure SameImage (q r : Rqe) : Prop where
  resetCause : r.resetCause = q.resetCause
  head : r.head = q.head
  enables : r.enables = q.enables
  ringFaults : r.ringFaults = q.ringFaults
  completionNo : r.completionNo = q.completionNo
  shown : 0 ∈ r.marked ∨ shownFlags r = shownFlags q

theorem shownFlags_setCarried (q : Rqe) (h : q.carried = q.made) : shownFlags q.setCarried = shownFlags q := by
  have : (q.made.filter fun f => !q.made.contains f) = [] := by
    rw [List.filter_eq_nil_iff]
    intro f hf
    simpa using hf
  simp only [shownFlags, Rqe.setCarried, Rqe.setFlags, h, this, List.foldl_nil]

@[simp] theorem mark_carried (q : Rqe) (k : Nat) : (q.mark k).carried = q.carried := (mark_sameRing q k).carried

@[simp] theorem markChanges_made (b a : State) (ks : List Nat) (q : Rqe) : (markChanges b a ks q).made = q.made := by
  induction ks generalizing q with
  | nil => rfl
  | cons k ks ih =>
    unfold markChanges
    rw [ih]
    split <;> simp

/-- A raise that changes the image marks piece 0. -/
theorem make_shown (q : Rqe) (f : EventFlag) : 0 ∈ (q.make f).marked ∨ q.make f = q := by
  unfold Rqe.make
  split
  · exact .inr rfl
  · exact .inl ((mem_mark _ 0 0).2 (.inr rfl))

theorem makeAll_shown (rs : List Raise) (q : Rqe) :
    0 ∈ (rs.foldl (fun q r => q.make r.flag) q).marked ∨ rs.foldl (fun q r => q.make r.flag) q = q := by
  induction rs generalizing q with
  | nil => exact .inr rfl
  | cons r rs ih =>
    rw [List.foldl_cons]
    rcases make_shown q r.flag with h | h
    · exact .inl ((makeAll rs (q.make r.flag)).2.2.2.2.1 0 h)
    · rw [h]
      exact ih q

theorem makeRaises_sameImage (q : Rqe) : SameImage q q.makeRaises := by
  have h := makeRaises_sameRing q
  refine ⟨h.resetCause, h.head, h.enables, h.ringFaults, h.completionNo, ?_⟩
  rcases makeAll_shown (q.raises.filter Raise.ripe) { q with raises := q.raises.filter fun r => !r.ripe } with h | h
  · exact .inl h
  · exact .inr ((congrArg shownFlags h).trans rfl)

/-- What a piece's write leaves the RQE with: the image as it was, or marked. -/
theorem pieceDone_sameImage (k : Nat) (s w : State) (q : Rqe) :
    SameImage q (pieceDone k (markChanges s w [1, 2, 3, 4, 5, 6] (pieceGranted k q))).makeRaises := by
  have hc := markChanges_sameRing s w [1, 2, 3, 4, 5, 6] (pieceGranted k q)
  have hm := markChanges_made s w [1, 2, 3, 4, 5, 6] (pieceGranted k q)
  generalize markChanges s w [1, 2, 3, 4, 5, 6] (pieceGranted k q) = u at hc hm
  have hr := makeRaises_sameImage (pieceDone k u)
  by_cases h : k = 0
  · subst h
    refine ⟨hr.resetCause.trans hc.resetCause, hr.head.trans hc.head, hr.enables.trans hc.enables,
      hr.ringFaults.trans hc.ringFaults, hr.completionNo.trans hc.completionNo, hr.shown.imp_right fun e => e.trans ?_⟩
    have : u.carried = u.made := by rw [hc.carried, hm]; rfl
    show shownFlags u.setCarried = _
    rw [shownFlags_setCarried u this]
    simp only [shownFlags, hc.flags, hm]
    rfl
  · have hd : pieceDone k u = u.mapHolds Hold.pieceDone := if_neg h
    have hg : pieceGranted k q = { q with marked := q.marked.filter (· != k) }.mapHolds (Hold.pieceGranted k) := if_neg h
    rw [hd] at hr ⊢
    rw [hg] at hc hm
    refine ⟨hr.resetCause.trans hc.resetCause, hr.head.trans hc.head, hr.enables.trans hc.enables,
      hr.ringFaults.trans hc.ringFaults, hr.completionNo.trans hc.completionNo, hr.shown.imp_right fun e => e.trans ?_⟩
    simp only [shownFlags, Rqe.mapHolds] at *
    rw [hc.flags, hm]

theorem pieceGranted_marked (k : Nat) (q : Rqe) : (pieceGranted k q).marked = q.marked.filter (· != k) := by
  unfold pieceGranted
  split <;> rfl

theorem pieceDone_marked (k : Nat) (q : Rqe) : (pieceDone k q).marked = q.marked := by
  unfold pieceDone
  split <;> rfl

/-- The marks after a piece's write: those of the other pieces stay, and only pieces of the block are added. -/
theorem pieceDone_marks (k : Nat) (s w : State) (q : Rqe) :
    let r := (pieceDone k (markChanges s w [1, 2, 3, 4, 5, 6] (pieceGranted k q))).makeRaises
    (∀ j ∈ q.marked, j ≠ k → j ∈ r.marked) ∧
      (∀ j, 1 ≤ j → j ≤ 6 → statusPiece j w ≠ statusPiece j s → j ∈ r.marked) ∧
      ∀ j ∈ r.marked, j ∈ q.marked ∨ j ≤ 6 := by
  obtain ⟨-, -, -, h1, h2, -⟩ := makeRaises_cases (pieceDone k (markChanges s w [1, 2, 3, 4, 5, 6] (pieceGranted k q)))
  rw [pieceDone_marked] at h1 h2
  refine ⟨fun j hj hk => h1 j ?_, fun j hj h6 hn => h1 j ?_, fun j hj => ?_⟩
  · rw [markChanges_mem, pieceGranted_marked]
    exact .inl (List.mem_filter.2 ⟨hj, by simpa using hk⟩)
  · rw [markChanges_mem]
    exact .inr ⟨by simp; omega, hn⟩
  · by_cases h0 : j = 0
    · exact .inr (by omega)
    · have : j ∈ (markChanges s w [1, 2, 3, 4, 5, 6] (pieceGranted k q)).marked.filter (· != 0) := by
        rw [← h2]
        exact List.mem_filter.2 ⟨hj, by simpa using h0⟩
      rcases (markChanges_mem _ _ _ _ _).1 (List.mem_filter.1 this).1 with h | ⟨h, -⟩
      · rw [pieceGranted_marked] at h
        exact .inl (List.mem_filter.1 h).1
      · refine .inr ?_
        simp at h
        omega

/-- The write of a piece: it stands in DRAM as its image stood, and every piece of the block whose image the write changed is
marked; nothing changes but DRAM, the injection, the scrub step's watch and the RQE. -/
theorem writePiece_spec (k : Nat) {s : State} (hm : s.mem.wf = true) :
    ∃ m i st q, writePiece k s = { s with mem := m, fmc := { s.fmc with injection := i, scrub := st }, rqe := q } ∧
      m.wf = true ∧
      (∀ b, m.byte b = if pieceAddr k ≤ b ∧ b < pieceAddr k + 64 then (statusPiece k s).getD (b - pieceAddr k) 0
        else s.mem.byte b) ∧
      (∀ j ∈ s.rqe.marked, j ≠ k → j ∈ q.marked) ∧ (∀ j ∈ q.marked, j ∈ s.rqe.marked ∨ j ≤ 6) ∧
      ∀ j ≤ 6, j ∈ q.marked ∨ statusPiece j (writePiece k s) = statusPiece j s := by
  have ha : pieceAddr k % 8 = 0 := by simp only [pieceAddr, Config.statusBase]; omega
  have hn : statusPiece k s ≠ [] := by
    intro h
    have := statusPiece_length k s
    rw [h] at this
    simp at this
  obtain ⟨m, i, st, e, hw, hb⟩ := writeRecord_whole (pieceAddr k) (statusPiece k s) s hm ha (by simp) hn
  rw [statusPiece_length] at hb
  obtain ⟨h1, h2, h3⟩ := pieceDone_marks k s (modRqe (pieceGranted k) (writeRecord (pieceAddr k) (statusPiece k s) s)) s.rqe
  have hi := pieceDone_sameImage k s (modRqe (pieceGranted k) (writeRecord (pieceAddr k) (statusPiece k s) s)) s.rqe
  have hq : writePiece k s = { s with mem := m, fmc := { s.fmc with injection := i, scrub := st }, rqe := (pieceDone k (markChanges s (modRqe (pieceGranted k) (writeRecord (pieceAddr k) (statusPiece k s) s)) [1, 2, 3, 4, 5, 6] (pieceGranted k s.rqe))).makeRaises } := by
    simp only [writePiece, modRqe, e]
  refine ⟨m, i, st, _, hq, hw, hb, h1, h3, fun j hj => ?_⟩
  by_cases h0 : j = 0
  · subst h0
    rcases hi.shown with h | h
    · exact .inl h
    · refine .inr ?_
      rw [hq]
      exact statusPiece_zero hi.resetCause hi.head h hi.enables hi.ringFaults hi.completionNo
  · by_cases h : statusPiece j (modRqe (pieceGranted k) (writeRecord (pieceAddr k) (statusPiece k s) s)) = statusPiece j s
    · refine .inr (Eq.trans ?_ h)
      rw [hq]
      simp only [modRqe, e]
      exact (statusPiece_withRqe h0 { s with mem := m, fmc := { s.fmc with injection := i, scrub := st } } _).trans
        (statusPiece_withRqe h0 { s with mem := m, fmc := { s.fmc with injection := i, scrub := st } } _).symm
    · exact .inl (h2 j (by omega) hj h)

/-! ### The write of the status block (R200) -/

/-- A piece is still to be written, or stands in DRAM as its image. -/
def PieceSettled (k : Nat) (s : State) : Prop := k ∈ s.rqe.marked ∨ Shows k s

theorem shows_of_bytes {k : Nat} {t : State} {l : List Byte} (h : statusPiece k t = l)
    (hb : ∀ j, j < 64 → t.mem.byte (pieceAddr k + j) = l.getD j 0) : Shows k t := by
  intro j b hj
  have hl : j < 64 := by
    have := (List.getElem?_eq_some_iff.1 hj).1
    simpa using this
  rw [h] at hj
  have := hb j hl
  rw [List.getD_eq_getElem?_getD, hj] at this
  simpa [pieceAddr, Config.statusBase, Nat.mul_comm] using this

/-- A piece written is settled, and a settled one stays so. -/
theorem writePiece_settled {k j : Nat} {s : State} (hm : s.mem.wf = true) (hj : j ≤ 6) (h : j = k ∨ PieceSettled j s) :
    PieceSettled j (writePiece k s) := by
  obtain ⟨m, i, st, q, e, -, hb, hk, -, hs⟩ := writePiece_spec k hm
  rcases hs j hj with h1 | h1
  · left
    rw [e]
    exact h1
  by_cases hjk : j = k
  · subst hjk
    refine .inr (shows_of_bytes h1 fun o ho => ?_)
    rw [e]
    show m.byte _ = _
    rw [hb, if_pos (by omega)]
    congr 1
    omega
  · rcases h.resolve_left hjk with h2 | h2
    · left
      rw [e]
      exact hk j h2 hjk
    · refine .inr (shows_of_bytes h1 fun o ho => ?_)
      rw [e]
      show m.byte _ = _
      rw [hb, if_neg (by simp only [pieceAddr]; omega)]
      have hl : o < (statusPiece j s).length := by simpa using ho
      rw [List.getD_eq_getElem?_getD, List.getElem?_eq_getElem hl]
      have := h2 o _ (List.getElem?_eq_getElem hl)
      simpa [pieceAddr, Config.statusBase, Nat.mul_comm] using this

/-- What a list of piece writes does. -/
theorem writePieces_spec (ks : List Nat) (hk : ∀ k ∈ ks, k ≤ 6) {s : State} (hm : s.mem.wf = true) :
    ∃ m i st q, writePieces ks s = { s with mem := m, fmc := { s.fmc with injection := i, scrub := st }, rqe := q } ∧
      m.wf = true ∧ (∀ b, b < 0x3F000000 ∨ 0x3F0001C0 ≤ b → m.byte b = s.mem.byte b) ∧
      (∀ j ∈ q.marked, j ∈ s.rqe.marked ∨ j ≤ 6) ∧ ∀ j ≤ 6, j ∈ ks ∨ PieceSettled j s → PieceSettled j (writePieces ks s) := by
  induction ks generalizing s with
  | nil => exact ⟨s.mem, s.fmc.injection, s.fmc.scrub, s.rqe, rfl, hm, fun _ _ => rfl, fun j h => .inl h,
      fun j _ h => h.elim (fun h => nomatch h) id⟩
  | cons k ks ih =>
    obtain ⟨m, i, st, q, e, hw, hb, -, hq, -⟩ := writePiece_spec k hm
    have hw' : (writePiece k s).mem.wf = true := writePiece_wf k hm
    obtain ⟨m', i', st', q', e', hw2, hb', hq', hs'⟩ := ih (fun x hx => hk x (by simp [hx])) hw'
    refine ⟨m', i', st', q', ?_, hw2, fun b h => ?_, fun j h => ?_, fun j hj h => ?_⟩
    · show writePieces ks (writePiece k s) = _
      rw [e', e]
    · have h6 : k ≤ 6 := hk k (by simp)
      rw [hb' b h, e]
      show m.byte b = _
      rw [hb, if_neg (by simp only [pieceAddr, Config.statusBase]; omega)]
    · rcases hq' j h with h | h
      · rw [e] at h
        exact hq j h
      · exact .inr h
    · refine hs' j hj ?_
      rcases h with h | h
      · rcases List.mem_cons.1 h with h | h
        · exact .inr (writePiece_settled hm hj (.inl h))
        · exact .inl h
      · exact .inr (writePiece_settled hm hj (.inr h))

/-- The write of the status block: every piece that was marked, and is not marked again, stands in DRAM as its image; nothing
changes but the seven pieces in DRAM, the injection, the scrub step's watch and the RQE. -/
theorem writeStatus_spec {s : State} (hm : s.mem.wf = true) (h6 : ∀ k ∈ s.rqe.marked, k ≤ 6) :
    ∃ m i st q, writeStatus s = { s with mem := m, fmc := { s.fmc with injection := i, scrub := st }, rqe := q } ∧
      m.wf = true ∧ (∀ b, b < 0x3F000000 ∨ 0x3F0001C0 ≤ b → m.byte b = s.mem.byte b) ∧
      ∀ j ≤ 6, PieceSettled j s → PieceSettled j (writeStatus s) := by
  obtain ⟨m, i, st, q, e, hw, hb, hq, hs⟩ := writePieces_spec s.rqe.marked h6 hm
  have hk : ∀ k ∈ (writePieces s.rqe.marked s).rqe.marked, k ≤ 6 := by
    intro k h
    rw [e] at h
    rcases hq k h with h | h
    · exact h6 k h
    · exact h
  obtain ⟨m', i', st', q', e', hw', hb', -, hs'⟩ :=
    writePieces_spec (writePieces s.rqe.marked s).rqe.marked hk (writePieces_wf s.rqe.marked hm)
  refine ⟨m', i', st', q', ?_, hw', fun b h => ?_, fun j hj h => hs' j hj (.inr (hs j hj (.inr h)))⟩
  · show writePieces (writePieces s.rqe.marked s).rqe.marked (writePieces s.rqe.marked s) = _
    rw [e', e]
  · rw [hb' b h, e]
    exact hb b h

/-- The reset cause, the wake cause and the path state as DRAM shows them. -/
def HeadShown (s : State) : Prop :=
  s.mem.byte 0x3F000002 = byteOf s.rqe.resetCause.code ∧ s.mem.byte 0x3F000003 = byteOf s.hmp.wake.code ∧
    s.mem.byte 0x3F000004 = byteOf s.hmp.path.code

theorem statusPiece_head (s : State) : ∃ a b rest, statusPiece 0 s =
    a :: b :: byteOf s.rqe.resetCause.code :: byteOf s.hmp.wake.code :: byteOf s.hmp.path.code :: rest := by
  simp only [statusPiece, pieceFields, padTo, le, List.cons_append, List.nil_append, List.take_succ_cons]
  exact ⟨_, _, _, rfl⟩

theorem writePiece_head {k : Nat} {s : State} (hm : s.mem.wf = true) (h : k = 0 ∨ HeadShown s) :
    HeadShown (writePiece k s) := by
  have hr : (writePiece k s).rqe.resetCause = s.rqe.resetCause := by
    have := (pieceDone_sameImage k s (modRqe (pieceGranted k) (writeRecord (pieceAddr k) (statusPiece k s) s)) s.rqe).resetCause
    obtain ⟨m, i, st, e, -⟩ := writeRecord_whole (pieceAddr k) (statusPiece k s) s hm
      (by simp only [pieceAddr, Config.statusBase]; omega) (by simp) (by
        intro h
        have := statusPiece_length k s
        rw [h] at this
        simp at this)
    simp only [writePiece, modRqe, e] at this ⊢
    exact this
  obtain ⟨m, i, st, q, e, -, hb, -⟩ := writePiece_spec k hm
  rw [e] at hr ⊢
  simp only [HeadShown] at h ⊢
  rw [hb, hb, hb]
  by_cases hk : k = 0
  · subst hk
    obtain ⟨a, c, rest, hs⟩ := statusPiece_head s
    rw [hr, hs]
    simp [pieceAddr, Config.statusBase]
  · have : ∀ o, o < 64 → ¬ (pieceAddr k ≤ 0x3F000000 + o ∧ 0x3F000000 + o < pieceAddr k + 64) := by
      intro o ho
      simp only [pieceAddr, Config.statusBase]
      omega
    rw [if_neg (this 2 (by omega)), if_neg (this 3 (by omega)), if_neg (this 4 (by omega)), hr]
    exact h.resolve_left hk

theorem writePieces_head (ks : List Nat) {s : State} (hm : s.mem.wf = true) (h : 0 ∈ ks ∨ HeadShown s) :
    HeadShown (writePieces ks s) := by
  induction ks generalizing s with
  | nil => exact h.elim (fun h => nomatch h) id
  | cons k ks ih =>
    refine ih (writePiece_wf k hm) ?_
    rcases h with h | h
    · rcases List.mem_cons.1 h with h | h
      · exact .inr (writePiece_head hm (.inl h.symm))
      · exact .inl h
    · exact .inr (writePiece_head hm (.inr h))

/-- With piece 0 marked, the write of the status block shows the causes and the path state. -/
theorem writeStatus_head {s : State} (hm : s.mem.wf = true) (h0 : 0 ∈ s.rqe.marked) : HeadShown (writeStatus s) :=
  writePieces_head _ (writePieces_wf _ hm) (.inr (writePieces_head _ hm (.inl h0)))

end Sys2Proof.Machine
end

