-- ==== Sys2Proof/Tests/Slice0.lean ====
section
/-! SUPPORT. Tests of the model against values worked out from the spec, and, for each statement with hypotheses, a state
and operands that meet them (`wit_…`, clause by clause in the statement's order). -/

namespace Sys2Proof.Tests

open Sys2Proof.Machine

/-! ### States the witnesses are built on -/

/-- The part with its memory path in RUN. -/
def up : State := { State.reset with hmp := { Hmp.reset with path := .run } }

def rec1 (p : Phase) : ShotRecord := { entry := 0, shot := 1, phase := p, slot := some 0, profile := 0, mode := .span, flags := {}, timestamp := 0 }

/-- Shot 1 in a phase, its slot 0 in a state, four slots free. -/
def withShot (p : Phase) (st : SlotState) : State := { up with stb := { Stb.reset with records := [rec1 p], slots := [st, .free, .free, .free, .free], nextShot := 2 } }

/-- A record in a final phase, its slot given up. -/
def ended (p : Phase) : State := { up with stb := { Stb.reset with records := [{ rec1 p with slot := none }], nextShot := 2 } }

/-- A small image: 16 masked and 32 active columns, 4 lines. -/
def img : Profile := ⟨16, 32, 4, .rggb, 64, 64, 512, 16000, 16383, 500, 20, 5, 10, 1000, 64, 64, 2, 2, List.replicate 9 0, List.replicate 16 4096⟩

def oneImage : Prs := ⟨[⟨some img, none⟩, ⟨none, none⟩, ⟨none, none⟩, ⟨none, none⟩], none⟩

def expo (m : ShotMode) : Exposure := { shot := 1, profile := 0, mode := m, debounce := 100, waitLimit := 30, duration := 1000, closedBefore := false }

/-- Shot 1 running: the sequencer's state, the record's phase, the trigger mode. -/
def shooting (q : SeqState) (p : Phase) (m : ShotMode) : State :=
  { withShot p .armed with prs := oneImage, exs := { Exs.reset with seq := q, current := some (expo m), quietReq := true, snsFlush := q == .flush, snsInteg := q == .waiting || q == .opened || q == .tail, readyOut := q == .waiting, timer := some 1000 } }

/-- The state with a request of the ring's entry 3 handed to its owner. -/
def handed (q : Request) (s : State) : State := { s with rqe := { s.rqe with service := some ⟨some 3, 7, .handed q⟩ } }

/-- The next state is reached and passes a check. -/
def next? (o : Host.Outcome State Fault Refusal) (p : State → Bool) : Bool := match o with
  | .next t => p t
  | .fault _ => false
  | .refused _ => false

theorem taken {q : Request} {s : State} (h : s.resetHeld = false ∧ s.rqe.service = none ∧ serving s = true) : Taken q s :=
  ⟨h.1, .inr h.2⟩

theorem takenRing {q : Request} {s : State} (h : s.resetHeld = false) : Taken q (handed q s) :=
  ⟨h, .inl ⟨_, rfl, rfl⟩⟩

/-! ### The commands a bus can carry -/

theorem test_wf_read_beats : (Instr.hostBurst (.read 0 0)).wf = false ∧ (Instr.hostBurst (.read 0 9)).wf = false ∧
    (Instr.hostBurst (.read 0 1)).wf = true ∧ (Instr.hostBurst (.read 0 8)).wf = true := by decide

theorem test_wf_write_beats : (Instr.hostBurst (.write 0 [])).wf = false ∧
    (Instr.hostBurst (.write 0 (List.replicate 9 ⟨0, 15, 0⟩))).wf = false ∧
    (Instr.hostBurst (.write 0 [⟨0, 15, 0⟩])).wf = true := by decide

theorem test_wf_block : (Instr.cardBlockReceived (List.replicate 511 0) 0).wf = false ∧
    (Instr.cardBlockReceived (List.replicate 513 0) 0).wf = false ∧
    (Instr.cardBlockReceived (List.replicate 512 0) 0).wf = true := by decide +kernel

/-- A malformed burst stops the machine, at the front of the queue as well as by itself. -/
theorem test_malformed_burst : exec (.hostBurst (.read 0 9)) up = .fault .illFormed ∧
    step { up with pending := [.hostBurst (.write 0 [])] } = .fault .illFormed := ⟨rfl, rfl⟩

/-- The table gives no row bits. -/
theorem test_no_words : decodeTableWord 16 0 = none ∧ up.withFetchWord 16 0 = up := ⟨rfl, rfl⟩

/-! ### Sums, columns, layouts -/

/-- The check values of the two sums over the digits 1 to 9. -/
theorem test_sums :
    let digits : List Byte := [0x31, 0x32, 0x33, 0x34, 0x35, 0x36, 0x37, 0x38, 0x39]
    crc16 digits = 0x31C3 ∧ crc32 digits = 0xCBF43926 := by decide +kernel

/-- Check bits worked in R127: bit 0 gives 0x07, bits 0 and 63 give 0x88. -/
theorem test_check_bits : checkBits 0 = 0 ∧ checkBits 1 = 0x07 ∧ checkBits 0x8000000000000001 = 0x88 := by
  decide +kernel

/-- The injection tests of 07 section 7.8: data 1 with the check bits stored. -/
theorem test_injected_classes :
    classify 1 0x17 = ⟨.correctable, 0x10, 1⟩ ∧ classify 1 0x09 = ⟨.correctable, 0x0E, 9⟩ ∧
    classify 1 0x86 = ⟨.poisoned, 0x81, 1⟩ ∧ (classify 1 0x04).cls = .uncorrectable ∧
    (classify 1 0x04).syndrome = 0x03 := by decide +kernel

/-- An ARM entry, byte by byte from 11 section 11.6. -/
theorem test_request_arm :
    requestOf ([5, 0, 0x34, 0x12, 0, 0, 0, 0, 2, 1, 3, 0, 0x78, 0, 0, 0, 30, 0, 0, 0, 0x10, 0x27, 0, 0, 99] ++ List.replicate 71 0) =
      some (.arm 2 1 true true 120 30 10000 99) := by decide +kernel

/-- A READ_CARD entry, byte by byte from 11 section 11.6; kind 0 and kind 18 name no request. -/
theorem test_request_read_card :
    requestOf ([10, 0, 0, 0, 0, 0, 0, 0, 1, 2, 0, 0, 3, 0, 0, 0, 0, 0, 0x10, 0, 0xCD, 0xAB] ++ List.replicate 74 0) =
      some (.readCard 0x201 3 0x100000 0xABCD) ∧
    requestOf (List.replicate 96 0) = none ∧ requestOf (18 :: List.replicate 95 0) = none := by decide +kernel

/-! ### Worked cases of the spec -/

/-- The worked frame of 05 section 5.11, with the four gain nodes around its pixel. -/
def worked : Profile := { img with masked := 32, width := 11648, lines := 8736, nominalBlack := 512, tolerance := 16, pedestal := 256, whiteClip := 16000, sx := 512, sy := 512, gc := 24, gr := 19, dark := [0, 0, 0, 320, 640, 0, 0, 0, 0], gains := ((((List.replicate 456 0).set 82 4096).set 83 4608).set 106 4352).set 107 5120 }

theorem test_worked_sizes : worked.pitch = 23360 ∧ worked.frameBytes = 204072960 ∧ worked.minSlot = 195 ∧
    slotCountOf 195 = 3 ∧ worked.covered = true := by decide +kernel

theorem test_worked_black : settleParity 15 7712 512 16 = ⟨514, 514, false, some 514⟩ ∧
    settleParity 15 7650 509 16 = ⟨510, 510, false, some 510⟩ ∧ darkOffset worked.dark 100 420000 = 126 := by
  decide +kernel

theorem test_worked_pixel : worked.gainAt 5248 1920 = 4464 ∧ worked.develop 5000 514 126 5248 1920 = (5008, false) ∧
    worked.develop 400 514 126 5248 1920 = (0, false) ∧ worked.develop 16200 514 126 5248 1920 = (16383, true) := by
  decide +kernel

/-- The warming sensor of 08 section 8.7. -/
theorem test_warming :
    let m : MonitorSettings := {}
    m.value .temp 1450 = 154 ∧ m.value .temp 1557 = 180 ∧ m.value .temp 1530 = 173 ∧ m.value .temp 1520 = 171 ∧
    nextTempLevel 180 240 .normal 154 = .normal ∧ nextTempLevel 180 240 .normal 180 = .warn ∧
    nextTempLevel 180 240 .warn 173 = .warn ∧ nextTempLevel 180 240 .warn 171 = .normal ∧
    shotTemperature (some 154) (some 171) = 162 := by decide

/-- The sagging battery of 08 section 8.8. -/
theorem test_sagging :
    let m : MonitorSettings := {}
    m.value .batt 1700 = 6640 ∧ m.value .batt 1638 = 6398 ∧ m.value .batt 1536 = 6000 ∧ m.value .batt 1560 = 6093 ∧
    m.value .batt 1580 = 6171 ∧ nextBattLevel 6400 6000 .normal 6398 = .low ∧
    nextBattLevel 6400 6000 .low 6000 = .critical ∧ nextBattLevel 6400 6000 .critical 6093 = .critical ∧
    nextBattLevel 6400 6000 .critical 6171 = .low := by decide

/-! ### The machine and its invariants -/

theorem wit_StepRunsTheFrontCommand : ({ up with pending := [.abort, .clearFound] } : State).pending = .abort :: [.clearFound] := rfl

/-- A run at its first sample, at the debounce and ended too early; the samples of CARD_DET one before and at the fiftieth,
and an absent one; the two of CARD_OC; the time base at its wrap. -/
theorem wit_IdleStepIsOnePeriod :
    let sync (closed level : Bool) (r : Option SyncRun) : State := { up with pins := { Pins.reset with syncClosed := level }, exs := { Exs.reset with sync := ⟨closed, r, 10⟩ } }
    let det (present detected : Bool) (n : Nat) : State := { up with pins := { Pins.reset with cardPresent := present }, exs := { Exs.reset with timeBase := 99 }, cde := { Cde.reset with detected := detected, detCount := n, detLevel := present } }
    let oc (n : Nat) : State := { up with pins := { Pins.reset with overcurrent := true }, cde := { Cde.reset with pwrEn := true, ocCount := n } }
    up.pending = [] ∧ up.resetHeld = false ∧ ({ up with resetHeld := true } : State).resetHeld = true ∧
    (0 + 1) % 4294967296 % 100 ≠ 0 ∧ (4294967295 + 1) % 4294967296 = 0 ∧ (99 + 1) % 4294967296 % 100 = 0 ∧
    (sync false true none).pins.syncClosed ≠ (sync false true none).exs.sync.closed ∧ 1 < 10 ∧
    (sync false true (some ⟨true, 9, 3⟩)).exs.sync.run = some ⟨true, 9, 3⟩ ∧ 10 ≤ 9 + 1 ∧
    (sync true false (some ⟨false, 9, 4294967295⟩)).exs.sync.closed = true ∧ 4294967295 < 4294967296 ∧
    (sync false false (some ⟨true, 9, 3⟩)).pins.syncClosed = (sync false false (some ⟨true, 9, 3⟩)).exs.sync.closed ∧
    up.cde.pwrEn = false ∧ up.cde.detLevel = up.pins.cardPresent ∧ up.pins.cardPresent = up.cde.detected ∧
    (det true false 48).cde.detCount < 49 ∧ 49 ≤ (det true false 49).cde.detCount ∧ (det true false 49).pins.cardPresent = true ∧
    (det false false 49).cde.detected = false ∧ (det false true 50).pins.cardPresent = false ∧
    ((det false true 50).cde.ended = [] ∧ (det false true 50).cde.reads = [] ∧ (det false true 50).cde.serving = none) ∧
    (oc 0).cde.ocCount = 0 ∧ (oc 1).cde.ocCount ≠ 0 ∧ (oc 1).pins.overcurrent = true ∧ (oc 0).cde.pwrEn = true ∧
    (oc 0).cde.detLevel = (oc 0).pins.cardPresent ∧ up.exs.sync.run = none ∧ up.cde.detCount = 0 ∧ up.hmp.queue = [] := by
  decide

theorem wit_CommandsKeepTheQueue : next? (exec .abort { up with pending := [.clearFound] }) (fun t => t.pending == [.clearFound]) = true := by
  decide +kernel

theorem wit_OnlyIllFormedCommandsStop : Instr.wf (.hostBurst (.read 0 8)) = true ∧ Instr.wf (.hostBurst (.read 0 9)) = false ∧
    Instr.wf .abort = true := by decide

/-- A running shot with a posted burst, a logged error, a defect and a flag that is enabled. -/
def busy : State :=
  let s := shooting .opened .exposing .span
  { s with pending := [.syncReleaseAccepted 0], exs := { s.exs with sync := { s.exs.sync with closed := true } }, mem := ⟨[(16, 1)], [(16, 7)]⟩, hmp := { s.hmp with queue := [⟨0, [⟨0, 1, 15⟩], false, false, false, []⟩] }, fmc := { Fmc.reset with errlog := [⟨16, 0x81, .poisoned, .scrub, 1, none⟩] }, dfm := { Dfm.reset with entries := [⟨0, 20, none, false⟩] }, rqe := { Rqe.reset with flags := 1, enables := 3, attn := true } }

/-- The invariants hold of that state, its next shot number does not wrap, and it has a step, which moves the sequencer on. -/
theorem wit_invariants : Safe busy ∧ busy.stb.nextShot < 4294967295 ∧ next? (step busy) (fun t => t.exs.seq == .tail) = true := by
  refine ⟨⟨by unfold MemOk; decide, by unfold LinesOk; decide, ?_, by unfold LogOk; decide, by unfold QueueOk; decide,
    ⟨by decide, by intro l h; cases h⟩, by unfold NumbersOk; decide⟩, by decide, by decide +kernel⟩
  exact ⟨fun _ => ⟨0, by decide⟩, fun _ => rfl⟩

theorem wit_ChangesAreReported : up.resetHeld = false ∧ next? (exec (.setSlots 94) up) (fun t => t.stb != up.stb) = true ∧
    Instr.setSlots 94 ≠ .powerOnReset ∧ Instr.setSlots 94 ≠ .fillComplete ∧ Instr.setSlots 94 ≠ .pinResetAssert ∧
    Instr.setSlots 94 ≠ .pinResetRelease ∧ Instr.setSlots 94 ≠ .standbyEntryDrained ∧ Instr.setSlots 94 ≠ .wakeDramReady := by
  refine ⟨rfl, by decide +kernel, by decide, by decide, by decide, by decide, by decide, by decide⟩

/-! ### The Shot Table -/

/-- An allowed move to a phase that keeps the slot, one that gives it up, and a refused one. -/
theorem wit_PhaseMoves :
    (withShot .held .held).stb.find 1 = some (rec1 .held) ∧ 0 < (withShot .held .held).stb.slots.length ∧
    moveAllowed .held .storing = true ∧ moveAllowed .held .discarded = true ∧ moveAllowed .held .stored = false := by
  decide

theorem wit_SlotGivenUp :
    let t := (withShot .stored .retained).stb
    t.find 1 = some (rec1 .stored) ∧ (rec1 .stored).slot = some 0 ∧ 0 < t.slots.length := by decide

/-- By a slot, by a RETAINED slot with KEEP, by a card read into the frame region, and not at all; the sizes at their
bounds. -/
theorem wit_SetSlots :
    let kept : State := { withShot .stored .retained with stb := { (withShot .stored .retained).stb with records := [{ rec1 .stored with flags := { keep := true } }] } }
    let reading : State := { up with cde := { Cde.reset with reads := [{ block := 0, count := 1, dest := 0x3EFFFE00, tag := 0 }] } }
    Taken (.setSlots 0) (withShot .held .held) ∧ (withShot .held .held).stb.slotState 0 = .held ∧
    (∃ r, kept.stb.holder 0 = some r ∧ r.flags.keep = true) ∧ kept.stb.slotState 0 = .retained ∧ Taken (.setSlots 752) kept ∧
    Taken (.setSlots 753) reading ∧ (∃ r ∈ reading.cde.reads, r.dest < 0x3F000000 ∧ 0x10000000 < r.dest + r.count * 512) ∧
    Taken (.setSlots 0xFFFFFFFF) up ∧ (∀ i, i < up.stb.count → up.stb.slotState i = .free) ∧ up.cde.reads = [] ∧
    up.cde.serving = none := by
  exact ⟨taken (by decide), by decide, ⟨_, rfl, by decide⟩, by decide, taken (by decide), taken (by decide), by decide,
    taken (by decide), by decide, rfl, rfl⟩

theorem wit_Discard : Taken (.discard 0) up ∧ up.stb.find 0 = none ∧
    (∀ p ∈ [Phase.arming, .waiting, .exposing, .reading, .storing, .held, .stored],
      (withShot p .armed).stb.find 1 = some (rec1 p)) ∧ Taken (.discard 1) (withShot .held .held) ∧
    (∀ p ∈ [Phase.expired, .aborted, .discarded, .calibrated], (ended p).stb.find 1 = some { rec1 p with slot := none }) ∧
    Taken (.discard 1) (ended .expired) ∧ Taken (.discard 1) (handed (.discard 1) (withShot .stored .retained)) := by
  exact ⟨taken (by decide), by decide, by decide, taken (by decide), by decide, taken (by decide), takenRing rfl⟩

theorem wit_Release : Taken (.release 0) up ∧ up.stb.find 0 = none ∧ Taken (.release 1) (withShot .stored .retained) ∧
    (withShot .stored .retained).stb.find 1 = some (rec1 .stored) ∧ Taken (.release 1) (withShot .waiting .armed) ∧
    (withShot .waiting .armed).stb.find 1 = some (rec1 .waiting) := by
  exact ⟨taken (by decide), by decide, taken (by decide), by decide, taken (by decide), by decide⟩

theorem wit_Retire : Taken (.retire 0) up ∧ up.stb.find 0 = none ∧ Taken (.retire 1) (withShot .stored .retained) ∧
    (withShot .stored .retained).stb.find 1 = some (rec1 .stored) ∧ Taken (.retire 1) (ended .aborted) ∧
    (ended .aborted).stb.find 1 = some { rec1 .aborted with slot := none } ∧ Taken (.retire 1) (withShot .held .held) ∧
    (withShot .held .held).stb.find 1 = some (rec1 .held) := by
  exact ⟨taken (by decide), by decide, taken (by decide), by decide, taken (by decide), by decide, taken (by decide), by decide⟩

/-! ### Profiles and the defect map -/

def mapState (es : List DefectEntry) : State := { up with dfm := { Dfm.reset with entries := es } }
def point (c : Nat) (f : Bool) : DefectEntry := ⟨0, c, none, f⟩
def readout1 : State := withShot .reading .readout

/-- The bytes of `img`, its fixed part being the first 40, and a memory that holds them at the staging address. -/
def imgBytes : List Byte := le 2 16 ++ le 2 32 ++ le 2 4 ++ [0, 2, 2, 0] ++ le 2 64 ++ le 2 64 ++ le 2 64 ++ le 2 512 ++ le 2 0 ++ le 2 16000 ++ le 2 16383 ++ le 2 500 ++ le 2 20 ++ le 2 5 ++ le 2 10 ++ le 2 1000 ++ List.replicate 6 0

/-- A request that comes during the rewrite of a reset, and one during a later rewrite. -/
def rewriting (n : Nat) : State := { up with dfm := { Dfm.reset with rewrite := some ⟨0, 8192⟩, sequence := n } }

/-- Image numbers and addresses at the edge of what is taken; a list of none, of 8,192 and of 8,193 entries; a list during the
rewrite of a reset. -/
theorem wit_LoadsBegin :
    Taken (.loadProfile 3 0x3FFFFFD8) up ∧ up.prs.load = none ∧ (0x3FFFFFD8 % 8 = 0 ∧ 0x3FFFFFD8 + 40 = 0x40000000) ∧
    Taken (.loadProfile 4 0x3F020000) up ∧ Taken (.loadProfile 0 0x3FFFFFE0) up ∧ 0x40000000 < 0x3FFFFFE0 + 40 ∧
    Taken (.loadDefects 0x3F01FFF8 0) up ∧ Taken (.loadDefects 0x3F020000 8193) up ∧ Taken (.loadDefects 0x3FFF0000 8192) up ∧
    0x3FFF0000 + 8192 * 8 = 0x40000000 ∧ Taken (.loadDefects 0x3F020000 0) readout1 ∧
    (∃ r ∈ readout1.stb.records, r.phase = .reading) ∧
    up.dfm.load = none ∧ up.dfm.waiting = none ∧ up.dfm.owed = none ∧ up.dfm.rewrite = none ∧
    Taken (.loadDefects 0x3F020000 0) (rewriting 1) ∧ (rewriting 1).dfm.rewrite ≠ none ∧ (rewriting 1).dfm.sequence = 1 := by
  exact ⟨taken (by decide), rfl, by decide, taken (by decide), taken (by decide), by decide, taken (by decide), taken (by decide),
    taken (by decide), by decide, taken (by decide), by decide, rfl, rfl, rfl, rfl, taken (by decide), by decide, rfl⟩

/-- The first bytes at their least and greatest, with the image within DRAM and past its top; the last piece and one before
it; a codeword that is poisoned; an image judged, its profile free and in use. -/
theorem wit_ImageJudged :
    let load (addr : Nat) (bytes : List Byte) (len : Nat) (m : Memory) : State := { up with mem := m, prs := { Prs.reset with load := some ⟨0, addr, bytes, none⟩ }, fmc := { Fmc.reset with active := some ⟨.imageRead, addr + bytes.length, len, [], false⟩ } }
    let at' (addr : Nat) : Memory := (writeRecord addr imgBytes up).mem
    let l : ProfileLoad := ⟨0, 0x3F020000, [], some img⟩
    let free : State := { up with prs := { Prs.reset with load := some l } }
    let used : State := { withShot .arming .armed with prs := { oneImage with load := some l } }
    imgBytes.length = 40 ∧ field imgBytes 0 2 = 16 ∧ field imgBytes 7 1 = 2 ∧ field imgBytes 8 1 = 2 ∧ field imgBytes 32 2 = 1000 ∧
    ((List.range 40).all fun k => (at' 0x3F020000).byte (0x3F020000 + k) == imgBytes.getD k 0) = true ∧
    ((List.range 5).all fun k => ((at' 0x3F020000).check? (0x3F020000 + 8 * k)).cls == .clean) = true ∧
    (load 0x3F020000 [] 40 ⟨[], []⟩).fmc.active = some ⟨.imageRead, 0x3F020000, 40, [], false⟩ ∧
    0x3F020000 + (64 + 8 * 2 * 2) ≤ 0x40000000 ∧ 0x40000000 < 0x3FFFFFD8 + (64 + 8 * 2 * 2) ∧ 0x3FFFFFD8 % 8 = 0 ∧
    (load 0x3F020000 imgBytes 56 ⟨[], []⟩).prs.load = some ⟨0, 0x3F020000, imgBytes, none⟩ ∧ 40 + 56 = 64 + 8 * 2 * 2 ∧
    (load 0x3F020000 imgBytes 48 ⟨[], []⟩).fmc.active = some ⟨.imageRead, 0x3F020028, 48, [], false⟩ ∧ 40 + 48 < 64 + 8 * 2 * 2 ∧
    (Memory.check? ⟨[], [(0x3F020020, 0x81)]⟩ 0x3F020020).cls = .poisoned ∧
    free.prs.load = some l ∧ free.prs.entries[0]? = some ⟨none, none⟩ ∧ free.stb.records = [] ∧
    used.prs.load = some l ∧ used.prs.entries[0]? = some ⟨some img, none⟩ ∧
    (∃ r ∈ used.stb.records, r.profile = 0 ∧ r.phase = .arming) ∧ 0 < img.minSlot := by decide +kernel

theorem wit_ClearFound :
    let found := mapState [point 20 false, point 21 true, point 30 true]
    Taken .clearFound readout1 ∧ (∃ r ∈ readout1.stb.records, r.phase = .reading) ∧
    Taken .clearFound (mapState [point 20 false]) ∧ (∀ e ∈ (mapState [point 20 false]).dfm.entries, e.found = false) ∧
    Taken .clearFound found ∧ found.dfm.entries[1]? = some (point 21 true) ∧
    (∀ j < 1, ∀ x, found.dfm.entries[j]? = some x → x.found = false) ∧ found.dfm.load = none ∧ found.dfm.waiting = none ∧
    found.dfm.owed = none ∧ found.dfm.rewrite = none ∧ (¬ ∃ r ∈ found.stb.records, r.phase = .reading) ∧
    Taken .clearFound (rewriting 1) ∧ (rewriting 1).dfm.rewrite ≠ none ∧ (rewriting 1).dfm.sequence = 1 ∧
    (rewriting 3).dfm.sequence ≠ 1 := by
  refine ⟨taken (by decide), by decide, taken (by decide), by decide, taken (by decide), by decide, ?_, rfl, rfl, rfl, rfl, by decide,
    taken (by decide), by decide, rfl, by decide⟩
  intro j hj x hx
  obtain rfl : j = 0 := by omega
  cases hx; rfl

/-- One entry that passes, as the last of its list or not; entries out of range, below the last, equal to it and covered by a
run; a poisoned list; and the three replacements. -/
theorem wit_MapReplaced :
    let bytes : List Byte := [1, 0, 20, 0, 1, 1, 0, 0]
    let m : Memory := (writeRecord 0x3F020000 bytes up).mem
    let next (passed : List DefectEntry) (e : DefectEntry) := match passed.getLast? with
      | some q => decide (q.row < e.row ∨ q.row = e.row ∧ q.column < e.column)
      | none => true
    let load (ps : List DefectEntry) (s : State) : State := { s with dfm := { s.dfm with load := some ⟨0x3F020000, ps.length, ps⟩ } }
    let same := load [point 20 false] (mapState [point 20 false])
    let new := load [point 20 false, point 21 true] (mapState [point 20 false])
    defectOf bytes = some ⟨1, 20, none, false⟩ ∧ defectOf (List.replicate 8 0) = none ∧
    ((List.range 8).all fun k => m.byte (0x3F020000 + k) == bytes.getD k 0) = true ∧ (m.check? 0x3F020000).cls = .clean ∧
    next [] ⟨1, 20, none, false⟩ = true ∧ next [point 20 false] ⟨1, 20, none, false⟩ = true ∧ [point 20 false].length + 1 < 9 ∧
    next [⟨1, 20, none, false⟩] ⟨1, 20, none, false⟩ = false ∧ next [⟨1, 21, none, false⟩] ⟨1, 20, none, false⟩ = false ∧
    next [⟨0, 20, some 2, false⟩] ⟨1, 20, none, false⟩ = true ∧ (0 ≤ 1 ∧ 1 < 0 + 2) ∧
    (Memory.check? ⟨[], [(0x3F020000, 0x81)]⟩ 0x3F020000).cls = .poisoned ∧
    (∃ r ∈ (load [] readout1).stb.records, r.phase = .reading) ∧ (load [] readout1).dfm.rewrite = none ∧
    same.dfm.load = some ⟨0x3F020000, 1, same.dfm.entries⟩ ∧ new.dfm.load = some ⟨0x3F020000, 2, [point 20 false, point 21 true]⟩ ∧
    new.dfm.entries ≠ [point 20 false, point 21 true] ∧ new.dfm.rewrite = none ∧ new.stb.records = [] := by decide +kernel

/-- With an answer owed, and with a calibration readout that waits. -/
theorem wit_RewriteDone :
    let s : State := { up with dfm := { Dfm.reset with rewrite := some ⟨2, 2⟩, owed := some ⟨.done, [0, 0, 0, 0]⟩ }, rqe := { Rqe.reset with service := some ⟨some 0, 0, .handed .clearFound⟩ } }
    let q : ShotRecord := { rec1 .reading with flags := { darkCal := true } }
    let o : Readout := ⟨1, 0, img, 512, 64, 64, none, none, some 0, none, none, {}, some false⟩
    let c : State := { s with prs := oneImage, stb := { (withShot .reading .readout).stb with records := [q] }, pce := ⟨some o, none⟩ }
    s.dfm.rewrite = some ⟨2, 2⟩ ∧ s.fmc.pending = [] ∧ s.fmc.active = none ∧ s.dfm.waiting = none ∧ s.pce.readout = none ∧
    c.dfm.rewrite = some ⟨2, 2⟩ ∧ c.pce.readout = some o ∧ c.stb.find 1 = some q ∧ q.slot = some 0 ∧ 0 < c.stb.slots.length ∧
    c.prs.entries[0]? = some ⟨some img, none⟩ ∧
    (let waits (q : Request) (r : Phase) (es : List DefectEntry) : State := { withShot r .held with dfm := { Dfm.reset with entries := es, rewrite := some ⟨8192, 8192⟩, sequence := 1, waiting := some q }, rqe := { Rqe.reset with service := some ⟨some 0, 0, .handed q⟩ } }
     let w := waits (.loadDefects 0x3FFF0000 8192) .held []
     w.dfm.owed = none ∧ w.dfm.load = none ∧ w.pce.readout = none ∧ w.dfm.rewrite = some ⟨8192, 8192⟩ ∧
     0x3FFF0000 + 8192 * 8 = 0x40000000 ∧ (∃ r ∈ (waits .clearFound .reading []).stb.records, r.phase = .reading) ∧
     (¬ ∃ r ∈ w.stb.records, r.phase = .reading) ∧ (waits .clearFound .held [point 2 true]).dfm.entries[0]? = some (point 2 true)) := by decide

/-! ### The exposure -/

/-- The state with the contact accepted closed. -/
def closedIn (s : State) : State := { s with exs := { s.exs with sync := { s.exs.sync with closed := true } } }

def armed0 : State := { up with prs := oneImage }

/-- Each refusal of R26 by itself, the profile and the mode at the edge of their ranges. -/
theorem wit_ArmRefused :
    let arm := fun p m => Request.arm p m false false 0 30 1000 9
    let hot : State := { armed0 with amn := { Amn.reset with tempValid := true, tempLevel := .limit, temp := some 240 } }
    let low : State := { armed0 with amn := { Amn.reset with battValid := true, battLevel := .low, batt := some 6400 } }
    let full : State := { armed0 with stb := { Stb.reset with slotSize := 752, slots := [.held], records := [rec1 .held], nextShot := 2 } }
    let big : State := { up with prs := { oneImage with entries := [⟨some worked, none⟩] } }
    Taken (arm 4 0) armed0 ∧ Taken (arm 3 3) armed0 ∧
    Taken (arm 3 2) (withShot .reading .readout) ∧ (withShot .reading .readout).stb.records = [rec1 .reading] ∧
    Taken (arm 3 2) armed0 ∧ armed0.prs.live 3 = none ∧
    Taken (arm 0 0) big ∧ big.prs.live 0 = some worked ∧ big.stb.slotSize * 1048576 < worked.frameBytes ∧
    Taken (arm 0 0) hot ∧ hot.prs.live 0 = some img ∧ img.frameBytes ≤ hot.stb.slotSize * 1048576 ∧ hot.stb.records = [] ∧
    Taken (arm 0 0) low ∧ low.prs.live 0 = some img ∧ low.amn.tempValid = false ∧
    Taken (arm 0 0) full ∧ full.prs.live 0 = some img ∧ full.amn.tempValid = false ∧ full.amn.battValid = false ∧
    img.frameBytes ≤ full.stb.slotSize * 1048576 ∧ (∀ r ∈ full.stb.records, r.phase = .held) ∧
    (∀ i < full.stb.count, full.stb.slotState i ≠ .free) ∧ full.stb.retained = [] := by
  exact ⟨taken (by decide), taken (by decide), taken (by decide), rfl, taken (by decide), rfl, taken (by decide), rfl,
    by decide, taken (by decide), rfl, by decide, rfl, taken (by decide), rfl, rfl, taken (by decide), rfl, rfl, rfl, by decide,
    by decide, by decide, rfl⟩

/-- A free slot; the oldest RETAINED slot, behind one whose record has KEEP; a full table; QUIET_ACK asserted; a run of samples
long enough for the least debounce; a read's run that waits, with its last block to come, and one that does not wait. -/
theorem wit_ArmAccepted :
    let arm : Request := .arm 0 2 true false 5001 0 0xFFFFFFFF 9
    let kept : ShotRecord := { rec1 .stored with shot := 2, entry := 1, slot := some 1, flags := { keep := true } }
    let full : State := { armed0 with stb := { Stb.reset with slotSize := 376, slots := [.retained, .retained], retained := [1, 0], records := [rec1 .stored, kept], nextShot := 3 } }
    let table : State := { armed0 with stb := { Stb.reset with nextShot := 17, records := { rec1 .held with slot := some 1 } :: (List.range 15).map fun k => { rec1 .expired with shot := k + 2, entry := k + 1, slot := none } } }
    let pulse : State := { armed0 with exs := { Exs.reset with sync := ⟨false, some ⟨true, 500, 0⟩, 10⟩, missed := 4294967295 } }
    let q : CardRead := ⟨1, 2, 0, 0, 1, []⟩
    let waits (u : RunUser) (k : Nat) (m : Option Mount) (st : Option DrainStage) : State := { armed0 with cde := { Cde.reset with mount := m, run := some ⟨u, true, 2, 2, k, 0, 0, 0, false, .waiting⟩, container := st.map fun st => ⟨9, 0, 1, 300, 128, 1200, 0, 0, st, 255, 0, 0, [], false⟩ } }
    let reads (st : RunStage) : State := { armed0 with cde := { Cde.reset with state := .reading, serving := some q, run := some ⟨.read, false, 2, 1, 0, 0, 0, 0, false, st⟩ } }
    Taken arm armed0 ∧ armed0.stb.records = [] ∧
    armed0.prs.live 0 = some img ∧ img.frameBytes ≤ armed0.stb.slotSize * 1048576 ∧ armed0.amn.tempValid = false ∧
    armed0.amn.battValid = false ∧ 0 < armed0.stb.count ∧ armed0.stb.slotState 0 = .free ∧ armed0.exs.sync.run = none ∧
    armed0.cde.run = none ∧ armed0.pins.quietAck = false ∧ 0 < img.quietWait ∧
    Taken arm full ∧ full.stb.count = 2 ∧ full.stb.slotState 0 = .retained ∧ full.stb.slotState 1 = .retained ∧
    full.stb.retained = [1] ++ 0 :: [] ∧ full.stb.holder 1 = some kept ∧ full.stb.holder 0 = some (rec1 .stored) ∧
    (rec1 .stored).flags.keep = false ∧ img.frameBytes ≤ full.stb.slotSize * 1048576 ∧
    Taken arm table ∧ 16 ≤ table.stb.records.length ∧ table.stb.slotState 0 = .free ∧ (∀ r ∈ table.stb.records, r.slot ≠ some 0) ∧
    (table.stb.records[1]?.map fun r => (r.phase, r.shot)) = some (.expired, 2) ∧
    (∀ s ∈ [armed0, full, table, pulse], ∀ r ∈ s.stb.records, r.shot ≠ s.stb.nextShot) ∧
    (let u := table.stb.records.filter fun r => r.shot != 2
     (∀ q ∈ u, q.entry ≠ 1) ∧ ∀ j < 1, ∃ q ∈ u, q.entry = j) ∧
    Taken arm { armed0 with pins := { Pins.reset with quietAck := true } } ∧ Taken arm pulse ∧ 5000 / 10 ≤ 500 ∧
    Taken arm (reads .waiting) ∧ (reads .waiting).cde.run = some ⟨.read, false, 2, 1, 0, 0, 0, 0, false, .waiting⟩ ∧ q.done < q.count ∧
    Taken arm (reads .receiving) ∧
    (∀ u : RunUser, Taken arm (waits u 1 none none)) ∧ (waits .mount 0 (some ⟨.commit ⟨3, 0, 1, 2, 0⟩, ⟨1, 0, 0, 3⟩, false⟩) none).cde.parkAsked = false ∧
    (∀ st : DrainStage, ∃ c, (waits .drain 1 none (some st)).cde.container = some c ∧
      c.stage = st ∧ c.park = false ∧ 1 ≤ c.done + 1 ∧ c.done + 1 ≤ c.blocks) := by
  refine ⟨taken (by decide), rfl, rfl, by decide, rfl, rfl, by decide, rfl, rfl, rfl, rfl, by decide, taken (by decide), rfl, rfl, rfl,
    rfl, by decide, by decide, rfl, by decide, taken (by decide), by decide, rfl, by decide, by decide, by decide, by decide,
    taken (by decide), taken (by decide), by decide, taken (by decide), rfl, by decide, taken (by decide),
    fun _ => taken ⟨rfl, rfl, rfl⟩, rfl, fun _ => ⟨_, rfl, rfl, rfl, by simp, by simp⟩⟩

theorem test_arm_clamps : next? (exec (.arm 0 2 true false 5001 0 0xFFFFFFFF 9) armed0) (fun t =>
    t.rqe.lastAnswer == some ⟨.started, [1, 0, 0, 0, 0, 0, 0, 0, 0x88, 0x13, 0, 0, 1, 0, 0, 0, 0x80, 0xEE, 0x36, 0]⟩ &&
    t.exs.quietReq && t.exs.seq == .quieting && t.stb.slotState 0 == .armed) = true := by decide +kernel

/-- Each with no image that waits, and with one. -/
theorem wit_ShotLeftBeforeExposure :
    let a := shooting .settle .arming .timed
    let w := shooting .waiting .waiting .span
    let two (s : State) : State := { s with prs := { oneImage with entries := [⟨some img, some img⟩] } }
    Quiescent a ∧ a.exs.current = some (expo .timed) ∧ a.stb.find 1 = some (rec1 .arming) ∧
    a.prs.entries[0]? = some ⟨some img, none⟩ ∧ Taken .abort a ∧ a.exs.seq = .settle ∧
    Quiescent w ∧ w.exs.current = some (expo .span) ∧ w.stb.find 1 = some (rec1 .waiting) ∧ Taken .abort w ∧
    w.exs.seq = .waiting ∧ w.resetHeld = false ∧ (expo .span).mode ≠ .timed ∧ Quiescent (two a) ∧ Taken .abort (two a) ∧
    (two a).prs.entries[0]? = some ⟨some img, some img⟩ ∧ Quiescent (two w) ∧ (two w).exs.seq = .waiting := by
  exact ⟨by unfold Quiescent; decide, rfl, rfl, rfl, taken (by decide), rfl, by unfold Quiescent; decide, rfl, rfl,
    taken (by decide), rfl, rfl, by decide, by unfold Quiescent; decide, taken (by decide), rfl, by unfold Quiescent; decide, rfl⟩

/-- R45, R201: with the EXPIRED flag set already, the occurrence still waits for its mirror, to set it again. -/
theorem test_expired_again :
    let s := shooting .waiting .waiting .span
    next? (exec .waitLimitExpiry { s with rqe := { s.rqe with flags := EventFlag.expired.mask } })
      (fun t => t.rqe.raises.map (·.flag) == [.expired] && t.rqe.made == []) = true := by decide +kernel

/-- A shot in OPEN, in WAITING in TIMED and in TAIL, each able to end its integration. -/
theorem wit_IntegrationEnds :
    let ended (q : SeqState) (p : Phase) (m : ShotMode) := Running (expo m) (rec1 p) 0 img (shooting q p m) ∧ (shooting q p m).exs.seq = q
    ended .opened .exposing .span ∧ ended .opened .exposing .window ∧ ended .waiting .waiting .timed ∧
    (∃ (s : State) (q : ShotRecord), Running (expo .timed) (rec1 .waiting) 0 img s ∧ s.exs.seq = .waiting ∧
      s.amn.queue.find? (·.samePurpose (.tempEnd 1)) = some (.tempEnd 7) ∧ s.stb.find 7 = some q ∧ q.tempEnd = none ∧
      s.prs.live q.profile = some img) ∧
    ended .tail .exposing .span ∧ span (shooting .tail .exposing .span).exs.timeBase (expo .span).stop ≤
      span (shooting .tail .exposing .span).exs.timeBase (expo .span).start := by
  have r : ∀ q p m, Running (expo m) (rec1 p) 0 img (shooting q p m) := fun q p m =>
    ⟨rfl, rfl, rfl, rfl, by simp [shooting, withShot], rfl, by simp [shooting, withShot, up, State.reset, Amn.reset],
      rfl, by simp [shooting, withShot, up, State.reset, Cde.reset], rfl⟩
  let s := shooting .waiting .waiting .timed
  refine ⟨⟨r _ _ _, rfl⟩, ⟨r _ _ _, rfl⟩, ⟨r _ _ _, rfl⟩, ⟨{ s with amn := { Amn.reset with queue := [.card, .tempEnd 7] }, stb := { s.stb with records := s.stb.records ++ [{ rec1 .held with shot := 7 }] } },
    _, ⟨rfl, rfl, rfl, rfl, by simp [s, shooting, withShot], rfl, (by intro _ o _ h; cases h), rfl, by simp [s, shooting, withShot, up, State.reset, Cde.reset], rfl⟩, rfl, rfl, rfl, rfl, rfl⟩, ⟨r _ _ _, rfl⟩, by decide⟩

/-- In OPEN, and in TAIL with the release after the exposure's start and before it. -/
theorem wit_AbortInIdleAndOpen :
    let tail (start : Nat) : State := { shooting .tail .exposing .span with exs := { (shooting .tail .exposing .span).exs with timeBase := 9, current := some { expo .span with start := start, stop := 4 } } }
    Taken .abort readout1 ∧ readout1.exs.seq = .idle ∧ (∃ r ∈ readout1.stb.records, r.phase = .reading) ∧
    Taken .abort up ∧ up.exs.seq = .idle ∧ up.stb.records = [] ∧
    Running (expo .window) (rec1 .exposing) 0 img (shooting .opened .exposing .window) ∧
    Taken .abort (shooting .opened .exposing .window) ∧ (shooting .opened .exposing .window).exs.seq = .opened ∧
    (∀ n, Running { expo .span with start := n, stop := 4 } (rec1 .exposing) 0 img (tail n) ∧ Taken .abort (tail n) ∧
      (tail n).exs.seq = .tail) ∧ ¬ span 9 3 < span 9 4 ∧ span 9 5 < span 9 4 := by
  refine ⟨taken (by decide), rfl, by decide, taken (by decide), rfl, rfl, ?_, taken (by decide), rfl, fun n => ⟨?_, taken ⟨rfl, rfl, rfl⟩, rfl⟩, by decide, by decide⟩
  · exact ⟨rfl, rfl, rfl, rfl, by decide, rfl, by simp [shooting, withShot, up, State.reset, Amn.reset], rfl, by decide, rfl⟩
  · exact ⟨rfl, rfl, rfl, rfl, by simp [shooting, withShot], rfl, by simp [shooting, withShot, up, State.reset, Amn.reset], rfl, by simp [shooting, withShot, up, State.reset, Cde.reset], rfl⟩

/-- R48: QUIET_REQ falls, and a power-up held for it asks for its reading, before the end temperature is asked for. -/
theorem test_release_order : next? (exec .timedDurationExpiry
    { shooting .waiting .waiting .timed with cde := { Cde.reset with state := .powering, detected := true, powerUp := some .quiet } })
    (fun t => t.amn.queue == [.card, .tempEnd 1] && !t.exs.quietReq) = true := by decide +kernel

theorem wit_QuietHandshake :
    let q := shooting .quieting .arming .span
    let f := shooting .flush .arming .span
    up.exs.seq ≠ .quieting ∧ up.exs.quietReq = false ∧ f.pins.quietAck = false ∧ f.exs.quietReq = true ∧
    q.exs.current = some (expo .span) ∧ q.stb.find 1 = some (rec1 .arming) ∧ q.prs.live 0 = some img ∧
    q.exs.seq = .quieting ∧ f.exs.seq ≠ .quieting ∧ ({ f with pins := { Pins.reset with quietAck := true } } : State).pins.quietAck = true ∧
    f.exs.current = some (expo .span) := by
  exact ⟨by decide, rfl, rfl, rfl, rfl, rfl, rfl, rfl, by decide, rfl, rfl⟩

/-- A settle time above 0 and one of 0; a shot that waits, a TIMED one at a TEMP level above NORMAL with a start request that
waits, and one that finds the contact closed, since the ARM or from before it. -/
theorem wit_FlushSettleWait :
    let ready (s : State) (m : ShotMode) := s.resetHeld = false ∧ s.exs.current = some (expo m) ∧ s.stb.find 1 = some (rec1 .arming) ∧
      s.prs.live 0 = some img ∧ 0 < (expo m).duration
    let unsettled : State := { shooting .flush .arming .span with prs := { oneImage with entries := [⟨some { img with settleTime := 0 }, none⟩] } }
    let warm : State := { shooting .settle .arming .timed with amn := { Amn.reset with tempLevel := .warn, queue := [.tempStart 9, .card] } }
    ready (shooting .flush .arming .span) .span ∧ (shooting .flush .arming .span).exs.seq = .flush ∧ 0 < img.settleTime ∧
    unsettled.exs.seq = .flush ∧ unsettled.prs.live 0 = some { img with settleTime := 0 } ∧
    ready (shooting .settle .arming .span) .span ∧ (shooting .settle .arming .span).exs.sync.closed = false ∧
    ready warm .timed ∧ (expo .timed).mode = .timed ∧ queuedFor (.tempStart 1) warm.amn.queue = [.tempStart 1, .card] ∧
    ready (closedIn (shooting .settle .arming .window)) .window ∧ (expo .window).mode ≠ .timed ∧
    (expo .window).closedBefore = false ∧ ({ expo .window with closedBefore := true } : Exposure).closedBefore = true := by
  have r : ∀ q m, (shooting q .arming m).resetHeld = false ∧ (shooting q .arming m).exs.current = some (expo m) ∧
      (shooting q .arming m).stb.find 1 = some (rec1 .arming) ∧ (shooting q .arming m).prs.live 0 = some img ∧
      0 < (expo m).duration := fun _ _ => ⟨rfl, rfl, rfl, rfl, by simp [expo]⟩
  exact ⟨r _ _, rfl, by decide, rfl, rfl, r _ _, rfl, r .settle .timed, rfl, rfl, r .settle .window, by decide, rfl, rfl⟩

/-- A closure in each state; in WAITING at the instant the shot entered it, and just before its duration would be over. -/
theorem wit_ClosureAccepted :
    let late : State := { shooting .waiting .waiting .span with exs := { (shooting .waiting .waiting .span).exs with timeBase := 99999 } }
    up.exs.sync.closed = false ∧ up.exs.seq = .idle ∧ up.hmp.path = .run ∧
    (shooting .opened .exposing .span).exs.sync.closed = false ∧ (shooting .tail .exposing .span).exs.seq = .tail ∧
    (shooting .quieting .arming .span).exs.current = some (expo .span) ∧
    (shooting .waiting .waiting .timed).exs.current = some (expo .timed) ∧ late.exs.current = some (expo .span) ∧
    10 * span 99999 0 < 1000 * (expo .span).duration ∧ span 99999 0 ≤ span 99999 (expo .span).entry := by decide

theorem wit_ReleaseAccepted :
    (closedIn (shooting .opened .exposing .span)).exs.sync.closed = true ∧
    (closedIn (shooting .opened .exposing .span)).exs.current = some (expo .span) ∧ (shooting .opened .exposing .span).prs.live 0 = some img ∧
    0 < img.tailTime ∧ (closedIn up).exs.seq ≠ .opened ∧
    (closedIn (shooting .opened .exposing .window)).exs.current = some (expo .window) ∧ (expo .window).mode ≠ .span ∧
    (let s := closedIn (shooting .opened .exposing .span)
     let tailless : State := { s with prs := { oneImage with entries := [⟨some { img with tailTime := 0 }, none⟩] } }
     Running (expo .span) (rec1 .exposing) 0 { img with tailTime := 0 } { tailless with exs := { tailless.exs with sync := ⟨false, none, 10⟩ } } ∧
     tailless.exs.seq = .opened) := by
  exact ⟨rfl, rfl, rfl, by decide, by decide, rfl, by decide, ⟨rfl, rfl, rfl, rfl, by decide, rfl, (by intro _ _ _ h; cases h), rfl, by decide, rfl⟩, rfl⟩

theorem wit_RejectedPulseAndReadPulse : up.exs.sync.closed = false ∧
    ({ up with exs := { Exs.reset with pulse := some 10, snsRead := true } } : State).exs.pulse.isSome = true := ⟨rfl, rfl⟩

/-! ### The other requests -/

/-- A card of 1,000 blocks in a state, powered, its log empty. -/
def card (st : CardState) : State :=
  { up with cde := { Cde.reset with state := st, rail := .on, pwrEn := true, lines := .driven, detected := true, detCount := 50, detLevel := true, capacity := some 1000, geometry := some ⟨1, 0, 0, 3⟩ }, pins := { Pins.reset with cardPresent := true } }

def withReads (n : Nat) (s : State) : State := { s with cde := { s.cde with reads := List.replicate n ⟨0, 1, 0, 0, 0, []⟩ } }

/-- The edges of the regions and of the card, the queue with room and full. -/
theorem wit_ReadCard :
    Taken (.readCard 0 0 0 0) (card .ready) ∧ Taken (.readCard 0 1 0x0FFFFE04 0) (card .ready) ∧ 0x10000000 < 0x0FFFFE04 + 512 ∧
    Taken (.readCard 0 1 0x0FFFFE00 0) (card .parked) ∧ 0x0FFFFE00 + 1 * 512 = 0x10000000 ∧
    Taken (.readCard 1000 1 0x3FFFFE00 0) (card .ready) ∧ Taken (.readCard 999 1 0x3FFFFE00 0) (withReads 4 (card .writing)) ∧
    Taken (.readCard 999 1 0x3F001008 0xFFFF) (withReads 3 (card .reading)) ∧ (card .ready).cde.capacity = some 1000 ∧
    (withReads 4 (card .writing)).cde.reads.length = 4 ∧ (withReads 3 (card .reading)).cde.reads.length = 3 := by
  exact ⟨taken (by decide), taken (by decide), by decide, taken (by decide), by decide, taken (by decide), taken (by decide),
    taken (by decide), rfl, rfl, rfl⟩

theorem wit_FormatAndResetCard :
    let has (c : Cde) : State := { card .ready with cde := c }
    let base := (card .ready).cde
    Taken .formatCard up ∧ up.cde.detected = false ∧ (∀ st, Taken .formatCard (card st) ∧ (card st).cde.state = st) ∧
    Taken .resetCard up ∧ (∀ st, Taken .resetCard (card st) ∧ (card st).cde.reads = [] ∧ (card st).cde.pwrEn = true) ∧
    Taken .resetCard (has { base with state := .identifying, ident := some .sent }) ∧
    Taken .resetCard (has { base with state := .powering, pwrEn := false }) ∧
    Taken .resetCard (has { base with state := .discharging, dischargeFor := .powerUp }) ∧
    Taken .resetCard (has { base with state := .discharging, dischargeFor := .park }) ∧
    Taken .resetCard (has { base with state := .fault, pwrEn := false, discharge := true }) ∧
    Taken .resetCard (has { base with state := .fault, pwrEn := false, discharge := false }) ∧
    (card .fault).cde.run = none ∧ (card .fault).amn.queue = [] := by
  exact ⟨taken (by decide), rfl, fun st => ⟨taken ⟨rfl, rfl, rfl⟩, rfl⟩, taken (by decide),
    fun st => ⟨taken ⟨rfl, rfl, rfl⟩, rfl, rfl⟩, taken (by decide), taken (by decide), taken (by decide), taken (by decide),
    taken (by decide), taken (by decide), rfl, rfl⟩

/-- The requests at the edge of DRAM; a host read of one poisoned codeword, of general memory and of a HELD slot, with the log
empty, holding the address and full. -/
theorem wit_ErrorLogAndInjection :
    let finds (cw : Nat) (log : List LogEntry) (s : State) : State := { s with mem := ⟨[], [(cw, 0x81)]⟩, fmc := { Fmc.reset with errlog := log, active := some ⟨.hostRead 1, cw + 4, 4, [], false⟩ } }
    let other (a : Nat) : LogEntry := ⟨a, 3, .uncorrectable, .scrub, 65535, none⟩
    let full := (List.range 16).map fun k => other (8 * k + 8)
    Taken .clearErrlog up ∧ Taken (.injectCheck 0x40000000 1) up ∧
    Taken (.injectCheck 0x3FFFFFFF 0) up ∧ Taken (.injectCheck 0x3FFFFFFF 0xFF) up ∧ (0xFF : BitVec 8) ≠ 0 ∧
    ((finds 0 [] up).mem.check? 0).cls = .poisoned ∧ (finds 0 [] up).fmc.active = some ⟨.hostRead 1, 4, 4, [], false⟩ ∧
    4 / 8 * 8 = 0 ∧ 4 + 4 ≤ 0 + 8 ∧ up.stb.slotAt 0 = none ∧ (finds 0 [other 8, other 0] up).fmc.errlog[1]? = some (other 0) ∧
    (other 8).addr ≠ 0 ∧ (∀ e ∈ full, e.addr ≠ 0) ∧ 16 ≤ full.length ∧
    (withShot .held .held).stb.slotAt 0x10000000 = some 0 ∧ (withShot .held .held).stb.holder 0 = some (rec1 .held) ∧
    (withShot .held .held).stb.find 1 = some (rec1 .held) ∧
    ((finds 0x10000000 [] (withShot .held .held)).mem.check? 0x10000000).cls = .poisoned := by
  exact ⟨taken (by decide), taken (by decide), taken (by decide), taken (by decide), by decide, by decide +kernel, rfl, by decide, by decide,
    by decide, rfl, by decide, by decide, by decide, by decide, rfl, rfl, by decide +kernel⟩

/-- R138: the completion waits for the 17 mirror writes and piece 4. -/
theorem test_clear_errlog_waits : next? (exec .clearErrlog (handed .clearErrlog up)) (fun t =>
    t.rqe.lastAnswer == none && (t.rqe.service.map (·.stage)) == some (.answering ⟨.done, []⟩ ⟨17, [4], false⟩)) = true := by decide +kernel

/-- Thresholds that contradict each other and that do not, with the converter free and in use on the channel recalibrated
and on another. -/
theorem wit_SetMonitor :
    let m : MonitorArgs := ⟨0x3F, 1000, 0, 16000, 0, 4096, 0, 180, 240, 6400, 6000, 100⟩
    let busy (c : Channel) : State := { up with amn := { Amn.reset with conv := some ⟨c, none, true, 40⟩ } }
    Taken (.setMonitor { m with limit := 179 }) up ∧ Taken (.setMonitor m) up ∧ up.amn.conv = none ∧
    Taken (.setMonitor m) (busy .card) ∧ (busy .card).amn.conv = some ⟨.card, none, true, 40⟩ ∧
    m.selection.getLsbD 2 = true ∧ Taken (.setMonitor { m with selection := 0x3E }) (busy .temp) ∧
    (0x3E : BitVec 8).getLsbD 0 = false := by
  exact ⟨taken (by decide), taken (by decide), rfl, taken (by decide), rfl, by decide, taken (by decide), by decide⟩

theorem test_set_monitor_clamps :
    next? (exec (.setMonitor ⟨0x3F, 1, 2, 3, 4, 5, 6, 0xFF00, 501, 65536, 0xFFFFFFFF, 9⟩) up) (fun t =>
      t.amn.settings == ⟨1, 2, 3, 4, 5, 6, -160, 500, 65535, 0, 10⟩ && t.amn.sampleTimer == 10000) = true := by decide +kernel

theorem wit_SetEvents : Taken (.setEvents 0xFFFFFFFF) up ∧ Taken (.setEvents 0) busy := by
  exact ⟨taken (by decide), taken (by decide)⟩

theorem wit_Standby :
    Taken .standby (withShot .held .held) ∧ (∃ r ∈ (withShot .held .held).stb.records, r.phase = .held) ∧
    Taken .standby (withReads 1 (card .ready)) ∧ Taken .standby (card .writing) ∧
    Taken .standby (handed .standby (card .ready)) ∧ (card .ready).stb.records = [] ∧ (card .ready).cde.reads = [] ∧
    (card .ready).cde.serving = none ∧
    (handed .standby (card .ready)).rqe.service = some ⟨some 3, 7, .handed .standby⟩ := by
  exact ⟨taken (by decide), by decide, taken (by decide), taken (by decide), takenRing rfl, rfl, rfl, rfl, rfl⟩

/-! ### The Request Engine -/

theorem wit_WatchedWords :
    let saw (o : Observed) : State := { up with rqe := { Rqe.reset with observed := [o], flags := 1, made := [.held, .stored], carried := [.held], raises := [⟨.held, some ⟨1, [], false⟩⟩] } }
    (saw (.tail 31)).rqe.observed = [.tail (31 : BitVec 32).toNat] ∧ (saw (.tail 32)).rqe.observed = [.tail (32 : BitVec 32).toNat] ∧
    (saw (.clear 3)).rqe.observed = [.clear (3 : BitVec 32).toNat] ∧ up.rqe.observed = [] ∧ up.resetHeld = false ∧
    (3 : BitVec 32).getLsbD EventFlag.held.bit = true ∧ (3 : BitVec 32).getLsbD EventFlag.stored.bit = false ∧
    (⟨1, [], false⟩ : Hold) ≠ ⟨0, [], false⟩ := by decide

/-- R202: the flags and the raise made go, the occurrence whose owner waits stays. -/
theorem test_clear_keeps_occurrence : next? (exec (.eventClearWordWrite 0xFFFFFFFF)
    { up with rqe := { Rqe.reset with flags := 5, enables := 5, attn := true, made := [.held], raises := [⟨.stored, some ⟨1, [], false⟩⟩] } })
    (fun t => t.rqe.flags == 0 && !t.rqe.attn && t.rqe.made == [] && t.rqe.raises == [⟨.stored, some ⟨1, [], false⟩⟩]) = true := by
  decide +kernel

/-- A ring with an entry to take; an entry read whole, whose second read was not usable; of kind 0, 18, 1 and 17. -/
theorem wit_RequestDispatch :
    let ring : State := { up with rqe := { Rqe.reset with tail := 1 } }
    let read (kind : Byte) (bad : Bool) : Service := ⟨some 31, 0, .reading (kind :: List.replicate 95 0) bad⟩
    ring.rqe.service = none ∧ ring.hmp.path = .run ∧ ring.hmp.sleepAsked = false ∧ ring.rqe.head ≠ ring.rqe.tail ∧
    (read 1 true).stage = .reading (1 :: List.replicate 95 0) true ∧ (List.replicate 95 (0 : Byte)).length = 95 ∧
    field (0 :: List.replicate 95 0) 0 2 = 0 ∧ field (18 :: List.replicate 95 0) 0 2 = 18 ∧
    field (1 :: List.replicate 95 0) 0 2 = 1 ∧ field (17 :: List.replicate 95 0) 0 2 = 17 := by decide +kernel

def completing (s : State) : State :=
  { s with fmc := { s.fmc with active := some ⟨.completionWrite, 0x3F002060, 32, [], false⟩ }, rqe := { s.rqe with service := some ⟨some 0, 0, .answered ⟨.done, []⟩⟩ } }

theorem wit_CompletionWritten :
    let asleep (s : State) : State := completing { s with hmp := { s.hmp with sleepAsked := true } }
    (completing up).fmc.active = some ⟨.completionWrite, 0x3F002060, 32, [], false⟩ ∧ (completing up).hmp.sleepAsked = false ∧
    (asleep up).hmp.sleepAsked = true ∧ (asleep up).cde.run = none ∧ (asleep up).cde.state = .absent ∧
    (asleep up).amn.conv = none ∧ (asleep up).amn.stopped = false ∧ (asleep up).amn.stopAsked = false ∧
    (∀ st ∈ ([.parked, .fault, .ready, .unformatted, .reading, .powering, .identifying, .discharging] : List CardState),
      (asleep (card st)).cde.state = st ∧ (asleep (card st)).cde.run = none) ∧ (card .powering).cde.pwrEn = true ∧
    Cde.reset.pwrEn = false ∧ (card .identifying).cde.ident ≠ some .sent := by decide

/-- R196: a tail that stands at the entry just served goes on with the head (log 57). -/
theorem test_tail_at_head : next? (exec .completionWriteDone (completing { up with rqe := { Rqe.reset with head := 31, tail := 31 } }))
    (fun t => t.rqe.head == 0 && t.rqe.tail == 0 && t.rqe.service == none) = true := by decide +kernel

/-- R66, R167: the card whose last read has ended is parked by the entry, its result still to be written. -/
theorem test_standby_parks :
    let s := completing (card .reading)
    next? (exec .completionWriteDone { s with hmp := { s.hmp with sleepAsked := true }, cde := { s.cde with ended := [⟨9, .done, 1⟩] } })
      (fun t => t.hmp.path == .entering && t.cde.state == .discharging && t.cde.dischargeFor == .park) = true := by decide +kernel

/-- A piece to present; the flags set; occurrences and an answer that wait for the piece alone, and for more. -/
theorem wit_StatusPieces :
    let hold (n : Nat) : Hold := ⟨n, [], true⟩
    let writing (k n : Nat) : State := { up with fmc := { Fmc.reset with active := some ⟨.pieceWrite k, 0x3F000000 + 64 * k, 64, [], false⟩ }, rqe := { Rqe.reset with carried := [.held], made := [.held, .stored], enables := 2, raises := [⟨.guard, some (hold n)⟩], service := some ⟨some 0, 0, .answering ⟨.done, []⟩ (hold n)⟩ } }
    ({ up with rqe := { Rqe.reset with marked := [0] } } : State).rqe.marked = [0] ∧ up.fmc.pending = [] ∧ up.fmc.active = none ∧
    (writing 0 1).fmc.active = some ⟨.pieceWrite 0, 0x3F000000, 64, [], false⟩ ∧ hold 1 ≠ ⟨0, [], false⟩ ∧
    (writing 6 0).fmc.active = some ⟨.pieceWrite (5 + 1), 0x3F000180, 64, [], false⟩ ∧
    (writing 6 0).rqe.raises = [⟨.guard, some (hold 0)⟩] ∧ (hold 0).jobs = 0 ∧ (hold 0).pieces = [] ∧ (hold 1).jobs ≠ 0 := by decide

/-- With ENABLE of HELD, the write of piece 0 that carried it asserts ATTN. -/
theorem test_flag_set : next? (exec .statusPieceWriteDone
    { up with fmc := { Fmc.reset with active := some ⟨.pieceWrite 0, 0x3F000000, 64, [], false⟩ }, rqe := { Rqe.reset with carried := [.held], enables := 2 } })
    (fun t => t.rqe.flags == 2 && t.rqe.attn) = true := by decide +kernel

/-! ### The memory path -/

def posted (i : Nat) (bs : List PostedBeat) : Posted := ⟨i, bs, false, false, false, []⟩
def queued (ps : List Posted) (s : State) : State := { s with hmp := { s.hmp with queue := ps } }

/-- Reads above the top, across it and below it, free of the queue and behind it; writes likewise, with eight buffers used. -/
theorem wit_BurstTaken :
    let one := queued [posted 5 [⟨0x100, 1, 15⟩]] up
    let full := queued (List.replicate 8 (posted 5 [⟨0x100, 1, 15⟩])) up
    up.resetHeld = false ∧ up.hmp.path = .run ∧
    min 8 ((0x40000000 - (0x40000000 : BitVec 32).toNat / 4 * 4) / 4) = 0 ∧
    min 8 ((0x40000000 - (0x3FFFFFFF : BitVec 32).toNat / 4 * 4) / 4) = 1 ∧
    (∀ p ∈ one.hmp.queue, ¬ ∃ b ∈ p.beats, 0x104 < b.addr + 4 ∧ b.addr < 0x104 + 4 * 8) ∧
    (∃ p ∈ one.hmp.queue, ∃ b ∈ p.beats, 0x100 < b.addr + 4 ∧ b.addr < 0x100 + 4 * 1) ∧
    one.hmp.queue.length < 8 ∧ one.hmp.waiting = [] ∧ 8 ≤ full.hmp.queue.length ∧
    ([⟨7, 15, 1⟩] : List WriteBeat).length = 1 := by decide

/-- A read of two beats behind a posted burst waits; the highest word is read and the beat above it is not. -/
theorem test_read_edge :
    next? (exec (.hostBurst (.read 0x3FFFFFFF 2)) up) (fun t =>
      t.fmc.pending == [⟨.hostRead 2, 0x3FFFFFFC, 4, [], false⟩] && t.hmp.outOfRange == 1) = true ∧
    next? (exec (.hostBurst (.read 0x100 2)) (queued [posted 5 [⟨0x104, 1, 15⟩]] up)) (fun t =>
      t.hmp.reads == [⟨0x100, 2, [5]⟩] && t.fmc.pending == []) = true := by decide +kernel

/-- The eight beats of a write whose first four are in range, with one byte's parity wrong in the first. -/
theorem test_write_edge : next? (exec (.hostBurst (.write 0x3FFFFFF0 (⟨1, 15, 0⟩ :: List.replicate 7 ⟨0, 15, 0⟩))) up) (fun t =>
    t.hmp.queue == [⟨0, [⟨0x3FFFFFF0, 1, 15⟩, ⟨0x3FFFFFF4, 0, 15⟩, ⟨0x3FFFFFF8, 0, 15⟩, ⟨0x3FFFFFFC, 0, 15⟩], true, false, false, []⟩] &&
    t.hmp.response == some ⟨true, true, []⟩) = true := by decide +kernel

/-- Shot 1 in READING with its readout, its dark offset known or not. -/
def capturing (d : Option Nat) : State :=
  { readout1 with prs := oneImage, pce := { readout := some ⟨1, 0, img, 32, 64, 64, none, some ⟨0, 64, 64⟩, d, none, none, {}, none⟩, idle := some 1000000 } }

/-- `img` with lines that end at their last pixel. -/
def img32 : Profile := { img with masked := 32 }

/-- A readout of `img` with its cursor, what waits of it and its settled black, one beat in the queue. -/
def beatIn (o : Readout) (b : PostedBeat) (dark : Bool) (d : Dfm) : State :=
  let s := { readout1 with prs := oneImage, stb := { readout1.stb with records := [{ rec1 .reading with flags := { darkCal := dark } }] }, dfm := d, pce := ⟨some o, some 1000⟩ }
  { s with hmp := { s.hmp with queue := [⟨0, [b], false, false, false, []⟩] } }

/-- A FREE slot's last word and the highest word below the frame region; a part-owned word and the first of an ARMED slot;
the first active word of a readout without its dark offset. -/
theorem wit_PostedDelivery :
    let armed := withShot .arming .armed
    up.hmp.path = .run ∧ up.stb.stateAt (0x10000000 + 150 * 1048576 - 4) = some .free ∧ up.stb.stateAt 0x0FFFFFFC = none ∧
    up.stb.stateAt 0x3F000FFC = none ∧ armed.stb.stateAt 0x10000000 = some .armed ∧
    (queued [posted 0 [⟨0x0FFFFFFC, 1, 15⟩, ⟨0x10000000, 1, 15⟩]] up).hmp.queue = posted 0 [⟨0x0FFFFFFC, 1, 15⟩, ⟨0x10000000, 1, 15⟩] :: [] ∧
    (capturing none).pce.readout.map (·.dark) = some none ∧ (capturing none).stb.stateAt 0x10000020 = some .readout ∧
    (0x10000020 - (capturing none).stb.slotBase 0 = 32 ∧ 32 < img.frameBytes ∧ 2 * img.masked ≤ 32 % img.pitch ∧
      32 % img.pitch < 2 * (img.masked + img.width)) ∧
    -- of different classes: a guarded beat beside one that passes; capture beats, held and taken, behind a pass-through one
    ((up.stb.stateAt 0x3F000000 = none ∧ up.stb.stateAt 0x3F001000 = none) ∧
      (capturing (some 3)).stb.stateAt 0x0FFFFFFC = none ∧ (capturing (some 3)).stb.stateAt 0x10000000 = some .readout ∧
      ((capturing (some 3)).pce.readout.map fun o => (o.ending, o.dark)) = some (none, some 3) ∧
      ((capturing none).pce.readout.map fun o => (o.ending, o.dark, o.cursor)) = some (none, none, 32) ∧
      0x10000000 - (capturing none).stb.slotBase 0 < 32) := by decide +kernel

/-- Masked beats whole, half and after a gap, and one that ends a line with insertions; one behind; pad beats within the frame
and at its end, one beyond it; the first active beat of a line, whose black settles; one of a settled line, covered, after a
word that waits, hotter than the limit with room in the map and without, and the last of the frame. -/
theorem wit_CaptureDeveloped :
    let o (cursor : Nat) : Readout := ⟨1, 0, img, cursor, 64, 64, none, none, some 3, none, none, {}, none⟩
    let on (line : Nat) (r : Readout) : Readout := { r with settled := some ⟨line, 64, 64⟩ }
    let beat (off : Nat) (en : BitVec 4) : PostedBeat := ⟨0x10000000 + off, 0x3FFF3FFF, en⟩
    let d (es : List DefectEntry) : Dfm := { Dfm.reset with entries := es }
    let hold : HeldWord := ⟨32, 0, 0, .covered, .value 77, some 5, none, false⟩
    let base := beatIn (o 0) (beat 0 15) false (d [])
    let ends := { d [point 20 false] with firstIns := some 0, insLine := 0 }
    let last : Readout := { on 3 (o 508) with image := img32 }
    base.hmp.path = .run ∧ base.pce.readout = some (o 0) ∧ base.stb.stateAt 0x10000000 = some .readout ∧
    0x10000000 = base.stb.slotBase 0 + 0 ∧ base.hmp.waiting = [] ∧ img.pitch = 128 ∧ img.frameBytes = 512 ∧ base.dfm.firstIns = none ∧
    -- masked
    (28 % 128 = 2 * 14 ∧ 14 < img.masked ∧ 28 + 4 < img.frameBytes ∧ (o 0).cursor < 28) ∧ (beat 28 1).enables ≠ 0 ∧
    (beat 28 1).enables.getLsbD 0 = true ∧ (beatIn (o 128) (beat 128 15) true ends).dfm.firstIns = some 0 ∧
    ends.insLine < 128 / 128 ∧ 0 < ends.entries.length ∧ ends.rewrite = none ∧
    -- behind, pad, beyond
    (0 < (o 4).cursor ∧ (o 508).cursor < img.frameBytes) ∧ (2 * (img.masked + img.width) ≤ 96 % 128 ∧ 96 + 4 < img.frameBytes) ∧
    (2 * (img.masked + img.width) ≤ 508 % 128 ∧ 508 + 4 = img.frameBytes) ∧ (o 96).wait = none ∧ img.frameBytes ≤ 512 ∧
    base.stb.stateAt (0x10000000 + 512) = some .readout ∧ base.stb.find 1 = some { rec1 .reading with flags := { darkCal := false } } ∧
    base.prs.entries[0]? = some ⟨some img, none⟩ ∧ 0 < base.stb.slots.length ∧
    -- active
    (32 % 128 = 2 * (img.masked + 0) ∧ 0 + 2 < img.width ∧ 32 + 4 < img.frameBytes ∧ img.masked % 2 = 0) ∧ (o 32).settled = none ∧
    (d []).covers 0 16 = false ∧ (d []).covers 0 17 = false ∧ (on 0 (o 32)).settled = some ⟨0, 64, 64⟩ ∧
    (d [⟨0, 16, none, false⟩]).covers 0 16 = true ∧ (d [⟨0, 16, none, false⟩]).covers 0 17 = false ∧
    ({ on 0 (o 36) with wait := some hold } : Readout).wait = some hold ∧ hold.x + 2 = 2 ∧ hold.offset + 4 = 36 ∧ 36 % 128 = 2 * (img.masked + 2) ∧
    ({ img with hot := 0 } : Profile).hot + 64 < 0x3FFF ∧ (d []).entries.length < 8192 ∧
    -- the last beat
    (508 % img32.pitch = 2 * (img32.masked + 30) ∧ 30 + 2 = img32.width ∧ 508 + 4 = img32.frameBytes) ∧ last.settled = some ⟨508 / img32.pitch, 64, 64⟩ ∧
    (beatIn last (beat 508 15) true (d [])).stb.find 1 = some { rec1 .reading with flags := { darkCal := true } } ∧
    0x3FFF ≤ 64 + img.hot := by
  decide +kernel

/-- A word that waits, which the cursor's jump to a pad beat, to a masked beat and past the frame releases: its covered pixel
takes the pedestal at the line's first columns, else its left neighbour's value. -/
theorem wit_CaptureDeveloped_released :
    let h : HeldWord := ⟨32, 0, 0, .covered, .value 77, some 5, none, false⟩
    let o : Readout := ⟨1, 0, img, 36, 64, 64, none, some ⟨0, 64, 64⟩, some 3, some h, none, {}, none⟩
    let s (off : Nat) := beatIn o ⟨0x10000000 + off, 0x3FFF3FFF, 15⟩ false Dfm.reset
    o.wait = some h ∧ (o.cursor < 96 ∧ 96 + 4 < img.frameBytes) ∧ (o.cursor < 128 ∧ 128 % img.pitch = 2 * 0) ∧ img.frameBytes ≤ 512 ∧
    (s 96).dfm.firstIns = none ∧
    releasedWord (s 96) o = [⟨.captureWrite, 0x10000020, 4, cellsAt 0x10000020 (le 2 512 ++ le 2 77), false⟩] ∧
    (releasedStats (s 96) o).substituted = 1 ∧ settledAlone Dfm.reset img 0 2 (some 5) .covered = some 5 := by
  refine ⟨rfl, by decide, by decide, by decide, rfl, by decide +kernel, rfl, by decide⟩

/-- A full map is no obstacle to the clauses of a dark calibration. -/
theorem wit_CaptureDeveloped_full :
    let d : Dfm := { Dfm.reset with entries := List.replicate 8192 ⟨9000, 0, none, false⟩ }
    8192 ≤ d.entries.length ∧ d.covers 0 16 = false ∧ d.covers 0 17 = false ∧ d.fullRaised = false ∧ d.rewrite = none := by
  refine ⟨Nat.le_of_eq List.length_replicate.symm, ?_, ?_, rfl, rfl⟩ <;>
    exact List.any_eq_false.mpr fun e h => by obtain rfl := List.eq_of_mem_replicate h; decide

/-- Raw 0x40 and 0x50 with black 64 and dark offset 3 at gain 1 give 512 - 3 and 512 + 13. -/
theorem test_capture : next? (exec .writeBurstDelivery (queued [posted 0 [⟨0x10000020, 0x00500040, 15⟩]] (capturing (some 3))))
    (fun t => t.fmc.pending == [⟨.captureWrite, 0x10000020, 4, [(0x10000020, 0xFD), (0x10000021, 1), (0x10000022, 0x0D), (0x10000023, 2)], false⟩] &&
      t.pce.readout.map (·.cursor) == some 36) = true := by decide +kernel

theorem wit_ReadoutIdle :
    let s := capturing (some 3)
    let waits : State := { s with prs := { oneImage with entries := [⟨some img, some img⟩] } }
    (s.pce.readout.map (·.ending)) = some none ∧ s.pce.idle = some 1000000 ∧ s.hmp.queue = [] ∧
    s.stb.find 1 = some (rec1 .reading) ∧ (rec1 .reading).slot = some 0 ∧ 0 < s.stb.slots.length ∧
    (rec1 .reading).flags.darkCal = false ∧ s.prs.entries[0]? = some ⟨some img, none⟩ ∧
    waits.prs.entries[0]? = some ⟨some img, some img⟩ := by decide +kernel

/-! ### The DRAM port -/

def rd : Txn := ⟨.hostRead 1, 0, 4, [], false⟩
def wr : Txn := ⟨.hostWrite, 0, 4, [], false⟩
def cap : Txn := ⟨.captureWrite, 0x10000000, 4, [], false⟩
def ent : Txn := ⟨.entryRead, 0x3F002000, 64, [], false⟩
def scr : Txn := ⟨.scrubRead, 8, 8, [], false⟩

/-- A part source due before every host transaction; the host's three kinds in turn; the part sources from the scrubber
round to the RQE; none. -/
theorem wit_ArbiterChoice :
    ({ scrubber := 16 } : PassOver).get .scrubber = 16 ∧ [rd, scr].find? (fun t => t.kind.source == .scrubber) = some scr ∧
    ([.rqe, .cde, .scrubber, .prs, .dfm] : List Source)[2]? = some .scrubber ∧
    [wr, rd].find? (fun t => t.kind.source == .host) = some wr ∧ [ent, scr].find? (fun t => t.kind.source == .host) = none ∧
    ([].find? fun t : Txn => t.kind.source == .host) = none := by decide

theorem test_choice :
    choose { scrubber := 16 } .rqe [rd, scr] = some scr ∧ choose { scrubber := 15 } .rqe [cap, wr, rd, scr] = some rd ∧
    choose {} .rqe [cap, wr, ent] = some wr ∧ choose {} .rqe [ent, cap] = some cap ∧ choose {} .scrubber [ent, scr] = some scr ∧
    choose {} .prs [scr, ent] = some ent ∧ choose {} .rqe [] = none := by decide

def pendingOne (x : Txn) (m : Memory) : State := { up with mem := m, fmc := { Fmc.reset with pending := [x] } }

/-- A host read; writes of the host, of developed pixels and of a card read, into a clean codeword, whole and in part, into a
poisoned and a correctable one in part, of a parity-marked burst, and over both watched words, with an injection armed there
and a scrub step on it. -/
theorem wit_PortGrant :
    let part (k : TxnKind) (parity : Bool) : Txn := ⟨k, 16, 4, cellsAt 20 [1, 2, 3, 4], parity⟩
    let whole : Txn := ⟨.cardWrite, 16, 8, cellsAt 16 [1, 2, 3, 4, 5, 6, 7, 8], false⟩
    let words : Txn := ⟨.hostWrite, 0x3F001000, 8, cellsAt 0x3F001000 [1, 0, 0, 0, 2, 0, 0, 0], false⟩
    let with' (x : Txn) (check : Byte) : State :=
      let s := queued [posted 0 [⟨16, 1, 15⟩]] (pendingOne x ⟨[], [(16, check)]⟩)
      { s with fmc := { s.fmc with injection := some (16, 7), scrub := some ⟨16, false, some false⟩ } }
    choose {} .rqe (readyTxns [] (pendingOne rd ⟨[], []⟩).fmc.pending) = some rd ∧
    (∀ x ∈ [part .hostWrite false, part .captureWrite true, part .cardWrite false, whole, words], ∀ c ∈ ([0x81, 1] : List Byte),
      choose {} .rqe (readyTxns [] (with' x c).fmc.pending) = some x ∧ (x.bytes.map (·.1)).Nodup ∧ x.bytes ≠ [] ∧
      (with' x c).mem.wf = true ∧ (with' x c).hmp.waiting = [] ∧ (with' x c).fmc.active = none) ∧
    ((with' whole 0x81).mem.check? 16).cls = .poisoned ∧ ((with' whole 1).mem.check? 16).cls = .correctable ∧
    ((with' words 1).mem.check? 0x3F001000).cls = .clean := by decide +kernel

/-- A completion; piece 0 and a piece of content, with an occurrence and an answer that wait for it; the four parts of a shot
table entry, an error log position and its header; a piece of the map rewrite; a scrub rewrite unmarked and withdrawn. -/
theorem wit_PortWrites :
    let on (x : Txn) (f : State → State) : State := f (pendingOne x ⟨[], []⟩)
    let job (j : MirrorJob) : Txn := ⟨.mirrorWrite, j.chunk.1, j.chunk.2.length, cellsAt j.chunk.1 j.chunk.2, false⟩
    let jobs (j : MirrorJob) (s : State) : State := { s with rqe := { s.rqe with jobs := [j], raises := [⟨.held, some ⟨1, [], false⟩⟩], service := some ⟨some 3, 7, .answering ⟨.done, []⟩ ⟨1, [4], false⟩⟩ } }
    let done : Txn := ⟨.completionWrite, 0x3F002060 + 128 * 31, 32, [], false⟩
    let piece (k : Nat) : Txn := ⟨.pieceWrite k, 0x3F000000 + 64 * k, 64, [], false⟩
    let map : Txn := ⟨.mapWrite, 0x3F010000 + 8 * 8191, 8, [], false⟩
    let scrub : Txn := ⟨.scrubRewrite 5, 0x3FFFFFF8, 8, [], false⟩
    let answered : Service := ⟨some 31, 7, .answered ⟨.done, [1]⟩⟩
    (∀ x ∈ [done, piece 0, piece 4, job (.errorHeader 1 0 0), job (.errorEntry 15 none), map, scrub] ++ (List.range 4).map (fun k => job (.shotEntry 15 (some (rec1 .held)) 4294967295 k)),
      choose {} .rqe (readyTxns [] (on x id).fmc.pending) = some x) ∧ (on done id).mem.wf = true ∧ (on done id).hmp.path = .run ∧
    (on done fun s => { s with rqe := { s.rqe with service := some answered } }).rqe.service = some answered ∧ [(1 : Byte)].length ≤ 24 ∧
    (statusPiece 0 (on (piece 0) id)).length = 64 ∧ (statusPiece 4 (on (piece 4) (jobs (.errorEntry 15 none)))).length = 64 ∧
    ((on (piece 4) (jobs (.errorEntry 15 none))).rqe.service.map (·.stage)) = some (.answering ⟨.done, []⟩ ⟨1, [4], false⟩) ∧
    (on (job (.errorEntry 15 none)) (jobs (.errorEntry 15 none))).rqe.jobs = [.errorEntry 15 none] ∧
    (job (.errorEntry 15 none)).bytes = cellsAt (0x3F004020 + 32 * 15) (errorEntryBytes none) ∧
    (job (.errorHeader 1 0 0)).bytes = cellsAt 0x3F004000 (errorHeaderBytes 1 0 0) ∧ (rec1 .held).stats.histogram.length = 16 ∧
    (∀ k < 4, (job (.shotEntry 15 (some (rec1 .held)) 4294967295 k)).bytes = cellsAt (0x3F003000 + 256 * 15 + 64 * k) (((mirrorEntry 4294967295 (some (rec1 .held))).drop (64 * k)).take 64)) ∧
    (⟨1, [4], false⟩ : Hold) ≠ ⟨0, [], false⟩ ∧
    (on map fun s => { s with dfm := { s.dfm with rewrite := some ⟨8191, 8192⟩ } }).dfm.rewrite = some ⟨8191, 8192⟩ ∧
    (on scrub fun s => { s with fmc := { s.fmc with scrub := some ⟨0x3FFFFFF8, true, some true⟩ } }).fmc.scrub = some ⟨0x3FFFFFF8, true, some true⟩ ∧
    (on scrub fun s => { s with fmc := { s.fmc with scrub := some ⟨0x3FFFFFF8, true, some false⟩ } }).fmc.scrub = some ⟨0x3FFFFFF8, true, some false⟩ := by
  decide +kernel

def reading (x : Txn) (m : Memory) : State := { up with mem := m, fmc := { Fmc.reset with active := some x }, rqe := { Rqe.reset with service := some ⟨some 0, 0, .reading [] false⟩ } }

/-- A host read over a clean codeword, a correctable and a poisoned one, and the first read of a ring entry. -/
theorem wit_ReadsComplete :
    let two : Txn := ⟨.hostRead 2, 0x3FFFFFFC, 4, [], false⟩
    two.addr % 4 = 0 ∧ two.len = 4 * 1 ∧ (Memory.check? ⟨[], []⟩ 0x3FFFFFF8).cls = .clean ∧
    (∀ cw, cw % 8 = 0 ∧ two.addr < cw + 8 ∧ cw < two.addr + two.len → cw = 0x3FFFFFF8) ∧
    (Memory.check? ⟨[], [(0x3FFFFFF8, 0x81)]⟩ 0x3FFFFFF8).cls = .poisoned ∧
    (Memory.check? ⟨[], [(0x3FFFFFF8, 0x80)]⟩ 0x3FFFFFF8).cls = .correctable ∧
    (reading ent ⟨[], []⟩).rqe.service = some ⟨some 0, 0, .reading [] false⟩ ∧
    (reading ent ⟨[], []⟩).fmc.active = some ent ∧ ent.addr % 8 = 0 ∧ ent.len = 64 ∧
    (∀ k < 64, k % 8 = 0 → (Memory.check? ⟨[], []⟩ (ent.addr + k)).cls = .clean) := by
  refine ⟨by decide, by decide, by decide +kernel, ?_, by decide +kernel, by decide +kernel, rfl, rfl, by decide, rfl, by decide +kernel⟩
  intro cw h
  have h1 := h.2.1; have h2 := h.2.2
  simp only at h1 h2
  omega

/-- The word's beat and the beat out of range, each with its parity. -/
theorem test_read_complete : next? (exec .hostReadComplete (reading ⟨.hostRead 2, 0x3FFFFFFC, 4, [], false⟩ ⟨[(0x3FFFFFFC, 1)], [(0x3FFFFFF8, 0x4F)]⟩))
    (fun t => t.hmp.response == some ⟨false, true, [(1, 1), (0, 0)]⟩) = true := by decide +kernel

/-- A step refused by QUIET_REQ; of the queue, whose first address is in a readout; of the walk; past a slot in READOUT; a
read of each class, queued and walking, at the last codeword. -/
theorem wit_ScrubSteps :
    let q (s : State) : State := { s with fmc := { s.fmc with corrected := [0x10000000, 8] } }
    let at' (p : Nat) (s : State) : State := { s with fmc := { s.fmc with scrubPos := p } }
    let read (queued : Bool) (check : Byte) : State := { up with mem := ⟨[], if check = 0 then [] else [(0x3FFFFFF8, check)]⟩, fmc := { Fmc.reset with active := some ⟨.scrubRead, 0x3FFFFFF8, 8, [], false⟩, scrub := some ⟨0x3FFFFFF8, queued, none⟩ } }
    (shooting .flush .arming .span).exs.quietReq = true ∧ up.fmc.scrub = none ∧ up.exs.quietReq = false ∧ up.hmp.path = .run ∧
    (q readout1).fmc.corrected = [0x10000000] ++ 8 :: [] ∧ readout1.stb.stateAt 0x10000000 = some .readout ∧
    readout1.stb.stateAt 8 ≠ some .readout ∧ up.fmc.corrected = [] ∧ up.stb.stateAt up.fmc.scrubPos ≠ some .readout ∧
    (at' 0x10000000 readout1).stb.slotAt 0x10000000 = some 0 ∧ readout1.stb.slotState 0 = .readout ∧
    ((read false 0).mem.check? 0x3FFFFFF8).cls = .clean ∧ ((read true 0x01).mem.check? 0x3FFFFFF8).cls = .correctable ∧
    ((read false 0x07).mem.check? 0x3FFFFFF8).cls = .correctable ∧ ((read false 0x03).mem.check? 0x3FFFFFF8).cls = .uncorrectable ∧
    (read true 0x81).fmc.scrub = some ⟨0x3FFFFFF8, true, none⟩ := by decide +kernel

/-! ### The Analog Monitor -/

def amn (a : Amn) : State := { up with amn := a }

/-- A sweep to come, one under way by its conversion alone, none; a request and each channel of the sweep to start. -/
theorem wit_MonitorSchedule :
    let conv := amn { Amn.reset with sweep := none, conv := some ⟨.card, none, true, 40⟩ }
    let demand := amn { Amn.reset with queue := [.tempEnd 1] }
    up.amn.stopped = false ∧ up.amn.sweep ≠ none ∧ (∃ c, conv.amn.conv = some c ∧ c.demand = none) ∧
    ((amn { Amn.reset with sweep := none }).amn.sweep = none ∧ (amn { Amn.reset with sweep := none }).amn.conv = none) ∧
    demand.amn.queue = .tempEnd 1 :: [] ∧ demand.amn.conv = none ∧ demand.amn.stopAsked = false ∧ up.amn.queue = [] ∧
    up.amn.sweep = some .temp := by
  exact ⟨rfl, by decide, ⟨_, rfl, rfl⟩, ⟨rfl, rfl⟩, rfl, rfl, rfl, rfl, rfl⟩

def converting (ch : Channel) (d : Option Demand) (stands : Bool) (s : State) : State :=
  { s with amn := { Amn.reset with sweep := none, conv := some ⟨ch, d, stands, 40⟩ } }

/-- A result that does not stand, of the sweep, of each shot temperature and of CARD; TEMP for the sweep and for the shot, with a
readout that awaits its offset; BATT falling to CRITICAL by what the card is at, with a container at the 64 blocks and above
them, and recovering; CARD with nothing that waits for it, in FAULT and in READY; settings that wait. -/
theorem wit_ConversionEnds :
    let last := converting .temp (some (.tempEnd 1)) true (capturing none)
    let void := converting .temp (some (.tempEnd 1)) false (capturing none)
    let m : MonitorSettings := {}
    let drain (st : DrainStage) (blocks done : Nat) (r : Option Run) : State := { converting .batt none true up with cde := { Cde.reset with state := .writing, container := some ⟨1, 0, 1, blocks, 128, 4, 0, 0, st, done, 0, 0, [], false⟩, run := r } }
    let r1 : Run := ⟨.drain, true, 1, 1, 0, 0, 0, 0, false, .busy⟩
    let critical (c : Cde) : State := { converting .batt none true up with amn := { (converting .batt none true up).amn with battLevel := .critical }, cde := c }
    let ready : State := { withShot .held .held with cde := { Cde.reset with state := .ready, geometry := some ⟨1, 0, 0, 3⟩, capacity := some 3 } }
    (converting .temp none false up).amn.conv = some ⟨.temp, none, false, 40⟩ ∧
    (converting .temp (some (.tempStart 1)) false up).amn.conv = some ⟨.temp, some (.tempStart 1), false, 40⟩ ∧
    (converting .card (some .card) false up).amn.conv = some ⟨.card, some .card, false, 40⟩ ∧ up.cde.state = .absent ∧
    void.stb.find 1 = some (rec1 .reading) ∧ (rec1 .reading).tempEnd = none ∧
    (void.pce.readout.map fun o => (o.shot, o.dark, o.ending)) = some (1, none, none) ∧ void.hmp.queue = [] ∧
    (converting .temp none true up).amn.next = none ∧ ({ (converting .temp none true up).amn with next := some m } : Amn).next = some m ∧
    (converting .temp (some (.tempStart 1)) true up).amn.conv = some ⟨.temp, some (.tempStart 1), true, 40⟩ ∧
    last.amn.conv = some ⟨.temp, some (.tempEnd 1), true, 40⟩ ∧ last.stb.find 1 = some (rec1 .reading) ∧
    (last.pce.readout.map fun o => (o.shot, o.dark, o.ending)) = some (1, none, none) ∧
    (let p : Posted := ⟨0, [⟨0x10000020, 1, 15⟩], false, true, false, [⟨0x10000020, 1, 15⟩]⟩
     let held := queued [p] last
     held.hmp.queue = p :: [] ∧ p.heldBeats ≠ [] ∧ held.hmp.waiting = [] ∧ held.hmp.path = .run ∧
     held.stb.stateAt 0x10000020 = some .readout ∧ (15 : BitVec 4) ≠ 0 ∧ (queued [p] void).hmp.queue = p :: []) ∧
    m.value .batt 1536 = m.critFloor ∧ m.value .batt 1537 = 6003 ∧ up.amn.battLevel = .normal ∧
    (∀ st ∈ ([.absent, .parked, .fault, .reading, .ready, .unformatted, .powering, .identifying, .discharging] : List CardState),
      ({ converting .batt none true up with cde := { Cde.reset with state := st } } : State).cde.state = st) ∧
    (drain .data 62 0 (some r1)).cde.run = some r1 ∧ 62 + 2 - (0 + 0) ≤ 64 ∧ 64 < 63 + 2 - (0 + 0) ∧ r1.stage ≠ .waiting ∧
    (drain .logUpdate 62 64 none).cde.state = .writing ∧ 64 = 62 + 2 ∧ (drain .summing 63 0 none).cde.run = none ∧ 62 < 63 ∧
    (critical { Cde.reset with state := .parked }).amn.battLevel = .critical ∧ (critical Cde.reset).hmp.path = .run ∧
    m.value .batt 1562 = 6101 ∧ nextBattLevel 6400 6000 .critical 6101 = .low ∧ (critical Cde.reset).amn.queue = [] ∧
    up.cde.discharge = false ∧ up.cde.powerUp = none ∧ up.cde.rampTimer = none ∧ up.cde.ended = [] ∧
    ready.stb.records = [] ++ rec1 .held :: [] ∧ ready.cde.geometry = some ⟨1, 0, 0, 3⟩ ∧ ready.cde.capacity = some 3 ∧
    ¬ 3 < 1 + ((rec1 .held).pitch.getD 0 * 0 + 511) / 512 + 2 ∧ 2 < 1 + ((rec1 .held).pitch.getD 0 * 0 + 511) / 512 + 2 := by
  refine ⟨rfl, rfl, rfl, rfl, rfl, rfl, rfl, rfl, rfl, rfl, rfl, rfl, rfl, rfl, ?_⟩
  decide +kernel

theorem test_temp_alarm : next? (exec (.conversionComplete 1557) (converting .temp none true (shooting .waiting .waiting .span)))
    (fun t => t.amn.temp == some 180 && t.amn.tempLevel == .warn && t.stb.records.all (·.flags.tempWarn) &&
      t.rqe.raises.any (·.flag == .tempAlarm)) = true := by decide +kernel

/-! ### The card -/

def cde (c : Cde) : State := { card .ready with cde := c }

/-- A CARD reading at each step of the card, at 299 mV and 300 mV, 2,899 mV and 2,900 mV; the timers and the pins. -/
theorem wit_CardPower :
    let base := (card .ready).cde
    let off := Cde.reset
    let reads (c : Cde) : State := converting .card (some .card) true { up with cde := c }
    (cde { base with discharge := true }).amn.queue = [] ∧ (card .ready).cde.discharge = false ∧ (card .ready).cde.rampTimer = none ∧
    ((reads { off with state := .powering, powerUp := some .reading }).amn.conv = some ⟨.card, some .card, true, 40⟩) ∧
    (({} : MonitorSettings).value .card 299 = 299 ∧ ({} : MonitorSettings).value .card 300 = 300 ∧
      ({} : MonitorSettings).value .card 2899 = 2899 ∧ ({} : MonitorSettings).value .card 2900 = 2900) ∧
    (reads { off with state := .powering, powerUp := some .reading }).cde.run = none ∧
    (reads { off with state := .writing, powerUp := some .reading, run := some { user := .drain, write := true, start := 1, count := 1, stage := .cycling } }).cde.state = .writing ∧
    (reads { off with state := .powering, rampTimer := some 1 }).cde.rampTimer ≠ none ∧
    (∀ why, (reads { off with state := .discharging, discharge := true, dischargeFor := why }).cde.dischargeFor = why) ∧
    (reads off).amn.battLevel = .normal ∧ (reads off).hmp.path = .run ∧
    (reads { off with state := .fault, discharge := true, dischargeFor := .fault }).cde.ended = [] ∧
    base.container = none ∧ base.reads = [] ∧ base.serving = none ∧ base.pwrEn = true ∧
    (cde { base with rampTimer := some 100000 }).cde.rampTimer ≠ none ∧ up.cde.pwrEn = false ∧
    (cde { off with dischargeTimer := some 1, state := .discharging }).cde.state ≠ .fault ∧
    (cde { off with dischargeTimer := some 1, state := .fault }).cde.dischargeTimer ≠ none ∧
    up.cde.detected = false ∧ up.hmp.path = .run ∧ up.cde.run = none ∧ up.amn.queue = [] ∧
    (cde { off with discharge := true }).cde.discharge = true ∧ base.detected = true ∧ (card .ready).hmp.path = .run ∧
    (cde { base with state := .reading, serving := some ⟨1, 2, 0, 0, 1, []⟩, reads := [⟨1, 2, 0, 1, 0, []⟩] }).cde.ended = [] ∧
    base.owed = [] := by
  refine ⟨rfl, rfl, rfl, rfl, by decide, rfl, rfl, by decide, fun _ => rfl, rfl, rfl, rfl, rfl, rfl, rfl, rfl, by decide, rfl, by decide, by decide, rfl, rfl, rfl, rfl, rfl, rfl, rfl, rfl, rfl⟩

/-- The card's run at a stage. -/
def run1 (u : RunUser) (write : Bool) (st : RunStage) (count : Nat) : Run := ⟨u, write, 1, count, 0, 0, 0, 0, false, st⟩

/-- A mount at a step, its run at a stage, on a card of 4 blocks. -/
def mounting (st : MountStage) (g : Geometry) (accepted : Bool) (r : Run) : State :=
  cde { (card .mounting).cde with capacity := some 4, mount := some ⟨st, g, accepted⟩, run := some r }

/-- Block 0 of a log of format 1 whose first container is at block 1, and a container header with one data block. -/
def block0 : List Byte := padTo 512 ([0x4B, 0x56, 0x53, 0x48, 0x4F, 0x54, 0x4C, 0x47] ++ le 4 512 ++ le 4 4 ++ le 4 1 ++ le 4 0 ++ le 4 0 ++ le 4 1)

def header1 : List Byte := padTo 512 ([0x4B, 0x56, 0x43, 0x4F, 0x4E, 0x54, 0x48, 0x44] ++ le 4 1 ++ le 4 0 ++ le 4 7 ++ le 4 1)

/-- Shot 1 draining its frame, which needs 1 block, into a container at block 1. -/
def draining : State :=
  { withShot .storing .draining with cde := { (card .ready).cde with state := .writing, container := some ⟨1, 0, 1, 1, 128, 4, 0, 0, .data, 0, 512, 0, [], false⟩ } }

/-- Shot 1's drain at a stage, its frame of `blocks` blocks, its run at a stage. -/
def drainAt (st : DrainStage) (blocks done summed : Nat) (park : Bool) (r : Option Run) (x : Option Txn) : State :=
  { draining with fmc := { Fmc.reset with active := x }, cde := { draining.cde with run := r, container := some ⟨1, 0, 1, blocks, 128, 4 * blocks, 0, 0, st, done, summed, 0xFFFFFFFF, [], park⟩ } }

theorem wit_CardPower_removal : draining.cde.detected = true ∧ draining.hmp.path = .run ∧
    draining.stb.find 1 = some (rec1 .storing) ∧ 0 < draining.stb.slots.length ∧ draining.cde.reads = [] ∧
    draining.cde.serving = none := by decide

/-- IDENT waiting and sent; a run at each stage, its retries, resends and timeouts at both ends of their ranges; a mount at each
step, with blocks that fit and that do not, with a container taken and with none, and with a park asked. -/
theorem wit_CardBus :
    let base := (card .ready).cde
    let q : CardRead := ⟨1, 2, 0, 0, 0, []⟩
    let at' (r : Run) : State := cde { base with run := some r }
    let serve (r : Run) : State := cde { base with state := .reading, serving := some q, run := some r }
    let g : Geometry := ⟨1, 0, 0, 1⟩
    let commit := padTo 512 ([0x4B, 0x56, 0x43, 0x4F, 0x4D, 0x4D, 0x49, 0x54] ++ le 4 1 ++ le 4 0 ++ le 4 7 ++ le 4 1 ++ le 4 0 ++ le 4 9)
    let zeros : List Byte := List.replicate 512 0
    (shooting .flush .arming .span).exs.quietReq = true ∧ up.exs.quietReq = false ∧
    (cde { base with ident := some .waiting }).cde.ident = some .waiting ∧
    (cde { base with ident := some .sent }).cde.run = none ∧ (cde { base with ident := some .sent }).cde.identDrop = none ∧
    0 < (1 : BitVec 32).toNat ∧ base.container = none ∧ base.reads = [] ∧ base.serving = none ∧ base.pwrEn = true ∧
    (at' (run1 .read false .waiting 2)).cde.ident = none ∧ (run1 .read false .acking 2).stage = .acking ∧
    (cde { base with state := .writing, run := some (run1 .format true .acking 1), format := some ⟨1, 0, 0, 4⟩ }).cde.capacity = some 1000 ∧
    (serve (run1 .read false .receiving 2)).cde.serving = some q ∧ zeros.length = 512 ∧
    (∀ crc : BitVec 16, crc + 1 ≠ crc) ∧ 0 + 1 < (run1 .read false .receiving 2).count ∧ q.dest % 8 = 0 ∧ q.carry = [] ∧
    ((run1 .read false .receiving 1).count ≤ 0 + 1 ∧ ({ q with done := 1 } : CardRead).count ≤ 1 + 1 ∧ q.done + 1 < q.count) ∧
    ({ run1 .read false .receiving 2 with retries := 2 } : Run).retries < 3 ∧
    3 ≤ ({ run1 .read false .receiving 2 with retries := 3 } : Run).retries ∧
    ({ run1 .drain true .token 2 with resends := 2 } : Run).resends < 3 ∧
    3 ≤ ({ run1 .drain true .token 2 with resends := 3 } : Run).resends ∧
    ({ run1 .drain true .busy 2 with stop := true } : Run).done + 1 < 2 ∧
    (let f := cde { base with state := .writing, run := some (run1 .format true .busy 1), format := some ⟨1, 0, 0, 4⟩ }
     f.cde.format = some ⟨1, 0, 0, 4⟩ ∧ f.cde.parkOwed = false ∧ (run1 .format true .busy 1).done + 1 = 1) ∧
    (serve (run1 .read false .stopping 2)).cde.serving = some q ∧ q.done < q.count ∧
    ((mounting .rewrite g true (run1 .mount true .stopping 1)).cde.parkAsked = false ∧ (mounting .rewrite g true (run1 .mount true .stopping 1)).cde.state = .mounting) ∧
    ((mounting .rewrite g true (run1 .mount true .busy 1)).cde.mount = some ⟨.rewrite, g, true⟩ ∧ (run1 .mount true .busy 1).done + 1 = (run1 .mount true .busy 1).count) ∧
    (block0.length = 512 ∧ block0.take 8 = [0x4B, 0x56, 0x53, 0x48, 0x4F, 0x54, 0x4C, 0x47] ∧ field block0 8 4 = 512 ∧ field block0 12 4 = 4 ∧
      field block0 16 4 = 1 ∧ field block0 28 4 = 1 ∧ zeros.take 8 ≠ block0.take 8) ∧
    (header1.length = 512 ∧ header1.take 8 = [0x4B, 0x56, 0x43, 0x4F, 0x4E, 0x54, 0x48, 0x44] ∧ field header1 8 4 = g.formatId ∧
      field header1 12 4 = g.count ∧ g.nextFree + field header1 20 4 + 2 ≤ 4) ∧
    (commit.length = 512 ∧ commit.take 8 = [0x4B, 0x56, 0x43, 0x4F, 0x4D, 0x4D, 0x49, 0x54] ∧ field commit 8 4 = 1 ∧ field commit 12 4 = 0 ∧
      field commit 16 4 = 7 ∧ field commit 20 4 = g.nextFree ∧ field commit 28 4 = (9 : BitVec 32).toNat) ∧
    (4 ≤ g.nextFree + 1 + 2 ∧ g.nextFree < 4) ∧ ({ run1 .mount false .receiving 1 with retries := 3 } : Run).retries = 3 ∧
    (run1 .mount false .stopping 1).timeouts = 0 ∧ 1 ≤ ({ run1 .format true .busy 1 with timeouts := 1 } : Run).timeouts := by
  refine ⟨by decide, by decide, by decide, by decide, by decide, by decide, by decide, by decide, by decide, by decide, by decide, by decide, rfl, by decide, List.length_replicate, fun c h => by simp at h, by decide, by decide, by decide, by decide, by decide, by decide, by decide, by decide, by decide, by decide, by decide, by decide, by decide, by decide, by decide +kernel, by decide +kernel, by decide +kernel, by decide, by decide, by decide, by decide⟩

/-- IDENT's answer in a run's power cycle: the capacity as before, with a stop asked and without; another capacity. -/
theorem wit_CardBus_cycled :
    let r := run1 .format true .cycling 1
    let c (stop : Bool) : State := cde { (card .ready).cde with ident := some .sent, run := some { r with stop := stop } }
    let q : CardRead := ⟨1, 2, 0, 0, 1, []⟩
    (c true).cde.run = some { r with stop := true } ∧ (c true).cde.identDrop = none ∧ (c true).cde.pwrEn = true ∧
    (c false).cde.capacity = some (1000 : BitVec 32).toNat ∧ 0 < (1000 : BitVec 32).toNat ∧ r.stage = .cycling ∧
    (c false).cde.capacity ≠ some (1001 : BitVec 32).toNat ∧ (run1 .read false .cycling 1).user = .read ∧ q.done < q.count := by
  decide

/-- A card read to serve; none and a CRITICAL battery; a HELD record whose container just fits, and just does not. -/
theorem wit_CardWork :
    let held (size : Nat) : State := { withShot .held .held with stb := { (withShot .held .held).stb with records := [{ rec1 .held with pitch := some 128, stats := { lines := 4 } }] }, cde := { (card .ready).cde with capacity := some size } }
    let done : State := cde { (card .ready).cde with state := .reading, ended := [⟨7, .done, 1⟩], results := [some ⟨1, .done, 1, 9⟩, some ⟨2, .done, 1, 6⟩, some ⟨3, .done, 1, 7⟩, some ⟨4, .done, 1, 8⟩], resultNo := 9, owed := [.cardFault] }
    (withReads 1 (card .ready)).cde.state = .ready ∧ (withReads 1 (card .ready)).cde.reads = ⟨0, 1, 0, 0, 0, []⟩ :: [] ∧
    (card .ready).cde.reads = [] ∧ (amn { Amn.reset with battLevel := .critical }).amn.battLevel = .critical ∧
    (held 4).stb.records = [] ++ { rec1 .held with pitch := some 128, stats := { lines := 4 } } :: [] ∧
    (held 4).cde.geometry = some ⟨1, 0, 0, 3⟩ ∧ (held 4).amn.battLevel ≠ .critical ∧ 0 < (held 4).stb.slots.length ∧
    1 + (128 * 4 + 511) / 512 + 2 ≤ 4 ∧ 3 < 1 + (128 * 4 + 511) / 512 + 2 ∧ (held 3).cde.capacity = some 3 ∧
    done.cde.ended = ⟨7, .done, 1⟩ :: [] ∧ done.fmc.pending = [] ∧ done.cde.results.length = 4 ∧
    (∀ r ∈ done.cde.results, (r.map (·.number)).getD 0 ≤ done.cde.resultNo) ∧ done.cde.resultNo < 4294967296 ∧
    done.cde.serving = none ∧ done.cde.parkOwed = false ∧ done.cde.reads = [] := by decide +kernel

/-- The drain's summing within a block, at a block's end and at the frame's; with a park; its fetch within a block and at its end;
each of its runs acknowledged, done, stopped and refused; a shot that leaves QUIET_REQ to a drain and to a power-up. -/
theorem wit_CardWork_drain :
    let slot (a : Nat) : Option Txn := some ⟨.slotRead, 0x10000000 + a, 64, [], false⟩
    let run (write : Bool) (st : RunStage) : Option Run := some ⟨.drain, write, 1, 1, 0, 0, 0, 0, false, st⟩
    let data : Option Run := some ⟨.drain, true, 2, 2, 1, 0, 0, 0, false, .fetching⟩
    let quiet (c : Cde) : State := { shooting .waiting .waiting .span with cde := c }
    (drainAt .summing 2 0 448 false none (slot 448)).fmc.active = slot 448 ∧ (0x10000000 + 448) % 8 = 0 ∧ 64 % 8 = 0 ∧
    (drainAt .summing 2 0 448 false none none).exs.quietReq = false ∧ 448 + 64 < 128 * (4 * 2) ∧ (384 + 64) % 512 ≠ 0 ∧ (448 + 64) % 512 = 0 ∧
    ({ (drainAt .summing 2 0 448 false none none).exs with quietReq := true } : Exs).quietReq = true ∧ 960 + 64 = 128 * (4 * 2) ∧
    (drainAt .summing 2 0 960 false none none).cde.geometry = some ⟨1, 0, 0, 3⟩ ∧
    ((Memory.check? ⟨[], []⟩ 0x10000000).cls = .clean ∧ (Memory.check? ⟨[], [(0x10000000, 3)]⟩ 0x10000000).cls = .uncorrectable) ∧
    ((drainAt .summing 2 0 448 true none (slot 448)).stb.find 1 = some (rec1 .storing) ∧ (rec1 .storing).phase = .storing ∧ (rec1 .storing).slot = some 0 ∧ 0 < draining.stb.slots.length) ∧
    ((drainAt .data 2 1 1024 false data (slot 512)).cde.run = data ∧ (2 + 1 - (1 + 1)) * 512 = 512 ∧ 0 + 64 < min 512 (128 * 8 - 512) ∧ 448 + 64 = min 512 (128 * 8 - 512)) ∧
    (∀ st, (drainAt st 2 0 1024 false (run true .acking) none).cde.run = run true .acking) ∧ draining.cde.capacity = some 1000 ∧
    draining.cde.ident = none ∧ (2 + 0 - (1 + 1)) * 512 < 128 * 8 ∧ 0 + 1 = 1 ∧
    (∀ st b, ((drainAt st 2 1 1024 b (run true .busy) none).cde.container.map (·.park)) = some b) ∧ draining.cde.parkOwed = false ∧
    (∀ st b, (drainAt st 2 1 1024 b (run true .stopping) none).cde.run = run true .stopping) ∧
    ((drainAt .commit 2 3 1024 false (run true .token) none).cde.pwrEn = true ∧ draining.cde.ended = [] ∧ draining.cde.reads = [] ∧ draining.cde.serving = none) ∧
    ((quiet draining.cde).exs.seq = .waiting ∧ (quiet draining.cde).exs.current = some (expo .span) ∧ (expo .span).mode ≠ .timed) ∧
    (quiet { Cde.reset with state := .powering, powerUp := some .quiet }).cde.powerUp = some .quiet ∧ draining.cde.powerUp ≠ some .quiet ∧
    0 < 128 * (4 * 2) := by
  refine ⟨rfl, by decide, by decide, rfl, by decide, by decide, by decide, rfl, by decide, rfl, by decide +kernel, by decide, by decide, fun _ => rfl, rfl, rfl, by decide, rfl, fun _ _ => rfl, rfl, fun _ _ => rfl, by decide, by decide, rfl, by decide, by decide⟩

/-- The result numbered 6 is the oldest, and its place is taken. -/
theorem test_result_place : next? (exec .cardReadResultWrite
    (cde { (card .ready).cde with state := .reading, ended := [⟨7, .done, 1⟩], results := [some ⟨1, .done, 1, 9⟩, some ⟨2, .done, 1, 6⟩, some ⟨3, .done, 1, 7⟩, some ⟨4, .done, 1, 8⟩], resultNo := 9 }))
    (fun t => t.cde.results == [some ⟨1, .done, 1, 9⟩, some ⟨7, .done, 1, 10⟩, some ⟨3, .done, 1, 7⟩, some ⟨4, .done, 1, 8⟩] &&
      t.cde.state == .ready) = true := by decide +kernel

/-- R176: a removal waits for the result of the read it ends, and its flag follows that result. -/
theorem test_removal_waits : next? (exec .cardRemoval (cde { (card .reading).cde with serving := some ⟨1, 2, 0, 9, 1, []⟩ }))
      (fun t => t.rqe.raises == [] && t.rqe.made == [] && t.cde.owed == [.cardRemoved] && t.cde.ended == [⟨9, .removed, 1⟩]) = true ∧
    next? (exec .cardReadResultWrite (cde { (card .discharging).cde with ended := [⟨9, .removed, 1⟩], owed := [.cardRemoved] }))
      (fun t => t.rqe.raises.map (·.flag) == [.cardReadDone, .cardRemoved] && t.cde.owed == []) = true := by decide +kernel

/-! ### Standby and reset -/

def onPath (p : PathState) (s : State) : State := { s with hmp := { s.hmp with path := p }, amn := { s.amn with stopped := true } }

/-- An entry drained, and one that is not; a card parked and one that is not; the three wake events in STANDBY, WAKING and
ENTERING; at the wake's end no burst held, a read in range at both ends, one above the top, a write. -/
theorem wit_StandbyAndWake :
    let drained := onPath .entering up
    let asleep := onPath .standby up
    let waking := onPath .waking up
    let parked (p : PathState) := onPath p (cde { (card .parked).cde with rail := .off, pwrEn := false, lines := .highZ })
    let burst (b : HostBurst) : State := { waking with hmp := { waking.hmp with waiting := [b] } }
    up.mem.wf = true ∧ up.rqe.marked = [] ∧ (∀ k ∈ [0, 2], k ≤ 6) ∧ up.fmc.injection = none ∧ up.rqe.service = none ∧ drained.amn.stopped = true ∧ drained.hmp.queue = [] ∧ drained.hmp.waiting = [] ∧
    drained.hmp.reads = [] ∧ drained.fmc.pending = [] ∧ drained.fmc.active = none ∧ drained.rqe.jobs = [] ∧
    drained.dfm.rewrite = none ∧ (onPath .entering (queued [posted 0 []] up)).hmp.queue ≠ [] ∧ asleep.hmp.path = .standby ∧
    HostBurst.wf (.read 0 8) = true ∧ asleep.exs.seq = .idle ∧ asleep.exs.sync.closed = false ∧ waking.hmp.path = .waking ∧
    drained.cde.state ≠ .parked ∧ (parked .entering).cde.state = .parked ∧ (parked .entering).cde.run = none ∧ (parked .entering).amn.queue = [] ∧
    waking.hmp.waiting = [] ∧ waking.amn.stopped = true ∧ waking.cde.state = .absent ∧ (parked .waking).cde.state = .parked ∧
    (parked .waking).amn.queue = [] ∧ (burst (.read 0x3FFFFFFF 1)).hmp.waiting = [.read 0x3FFFFFFF 1] ∧
    (0x3FFFFFFF : BitVec 32).toNat / 4 * 4 + 4 * 1 ≤ 0x40000000 ∧ (burst (.read 0 8)).hmp.queue = [] ∧ 0x40000000 ≤ (0x40000000 : BitVec 32).toNat ∧
    (burst (.write 0x3FFFFFFC [⟨1, 15, 1⟩])).hmp.waiting = [.write 0x3FFFFFFC [⟨1, 15, 1⟩]] ∧ waking.exs.quietReq = false := by decide

/-- R200, R201: at a wake piece 0, marked first, is written before piece 2; the flag that waited for piece 2 is raised after it
and goes with a second write of piece 0 (log 67). -/
theorem test_pieces_in_order :
    let s : State := { up with rqe := { Rqe.reset with marked := [0, 2], raises := [⟨.cardInserted, some ⟨0, [2], false⟩⟩] } }
    let w := writePieces [0, 2] s
    w.rqe.flags = 0 ∧ w.rqe.marked = [0] ∧ w.rqe.made = [.cardInserted] ∧
    (writeStatus s).rqe.flags = EventFlag.cardInserted.mask ∧ (writeStatus s).rqe.marked = [] := by decide +kernel

/-- RESET_N held and released, during the fill and after it; the end of the fill. -/
theorem wit_Resets :
    let held (p : PathState) : State := { State.reset with resetHeld := true, hmp := { Hmp.reset with path := p } }
    (held .filling).resetHeld = true ∧ (held .filling).hmp.path = .filling ∧ (held .run).hmp.path = .run ∧
    State.reset.hmp.path = .filling ∧ up.hmp.path ≠ .filling ∧ State.reset.mem.wf = true ∧ (held .run).stb.records = [] ∧
    (held .run).dfm.rewrite = none ∧ (held .run).rqe.service = none ∧ (held .run).hmp.waiting = [] ∧ (held .run).rqe.jobs = [] ∧
    State.reset.resetHeld = false := by decide

end Sys2Proof.Tests
end

section
/-! PROOFS. The requests of the Shot Table: SET_SLOTS, DISCARD, RELEASE, RETIRE (R3, R19 to R21). First what the operations
on a table do to the record of a shot and to its slot, then what each owner decides, then the statements. -/

namespace Sys2Proof.Machine

/-! ### The record and the slot of a shot -/

section Table

variable {t : Stb} {n i : Nat} {r : ShotRecord}

/-- A change that keeps the shot number reaches the record found under it. -/
theorem Stb.find_update {f : ShotRecord → ShotRecord} (hf : ∀ q, (f q).shot = q.shot) (h : t.find n = some r) :
    (t.update n f).find n = some (f r) := by
  have hr : r.shot = n := by simpa using List.find?_some h
  have hsame : ((fun q : ShotRecord => q.shot == n) ∘ fun q => if q.shot = n then f q else q) =
      fun q => q.shot == n := by
    funext q
    by_cases hq : q.shot = n <;> simp [hq, hf]
  unfold Stb.find at h
  rw [Stb.find, Stb.update, List.find?_map, hsame, h, Option.map_some, if_pos hr]

theorem Stb.freeSlot_of_none (h : t.find n = some r) (hs : r.slot = none) : t.freeSlot n = t := by
  simp [Stb.freeSlot, h, hs]

theorem Stb.freeSlot_of_some (h : t.find n = some r) (hs : r.slot = some i) :
    t.freeSlot n = ((t.setSlot i .free).unretain i).update n fun q => { q with slot := none } := by
  simp [Stb.freeSlot, h, hs]

theorem Stb.find_freeSlot (h : t.find n = some r) : (t.freeSlot n).find n = some { r with slot := none } := by
  rcases hs : r.slot with _ | i
  · rw [Stb.freeSlot_of_none h hs, h, ← hs]
  · rw [Stb.freeSlot_of_some h hs]
    exact Stb.find_update (t := (t.setSlot i .free).unretain i) (fun _ => rfl) h

/-- The slot a record gives up is FREE and out of the retained order (R13). -/
theorem Stb.freeSlot_frees (h : t.find n = some r) (hs : r.slot = some i) (hi : i < t.slots.length) :
    (t.freeSlot n).slotState i = .free ∧ i ∉ (t.freeSlot n).retained := by
  rw [Stb.freeSlot_of_some h hs]
  simp [Stb.update, Stb.unretain, Stb.setSlot, Stb.slotState, hi]

/-- The move of DISCARD: a HELD record becomes DISCARDED and gives up its slot (R11). -/
theorem Stb.move_discarded (h : t.find n = some r) (hp : r.phase = .held) :
    t.move n .discarded = (t.update n fun q => { q with phase := .discarded }).freeSlot n := by
  simp [Stb.move, h, hp, moveAllowed, Phase.slotState]

theorem Stb.find_move_discarded (h : t.find n = some r) (hp : r.phase = .held) :
    (t.move n .discarded).find n = some { r with phase := .discarded, slot := none } := by
  rw [Stb.move_discarded h hp]
  exact Stb.find_freeSlot (Stb.find_update (f := fun q => { q with phase := .discarded }) (fun _ => rfl) h)

theorem Stb.move_discarded_frees (h : t.find n = some r) (hp : r.phase = .held) (hs : r.slot = some i)
    (hi : i < t.slots.length) :
    (t.move n .discarded).slotState i = .free ∧ i ∉ (t.move n .discarded).retained := by
  rw [Stb.move_discarded h hp]
  exact Stb.freeSlot_frees (t := t.update n _) (Stb.find_update (fun _ => rfl) h) hs hi

/-- The table after RELEASE: KEEP cleared in the record, and the slot of a STORED one given up (R20). -/
def Stb.release (t : Stb) (n : Nat) (p : Phase) : Stb :=
  let u := t.update n fun q => { q with flags := { q.flags with keep := false } }
  if p = .stored then u.freeSlot n else u

theorem Stb.find_release (h : t.find n = some r) (p : Phase) : (t.release n p).find n =
    some { r with flags := { r.flags with keep := false }, slot := if p = .stored then none else r.slot } := by
  have hk := Stb.find_update (f := fun q => { q with flags := { q.flags with keep := false } }) (fun _ => rfl) h
  unfold Stb.release
  by_cases hp : p = .stored
  · simpa [hp] using Stb.find_freeSlot hk
  · simpa [hp] using hk

theorem Stb.release_frees (h : t.find n = some r) (hs : r.slot = some i) (hi : i < t.slots.length) :
    (t.release n .stored).slotState i = .free ∧ i ∉ (t.release n .stored).retained :=
  Stb.freeSlot_frees (t := t.update n _) (Stb.find_update (fun _ => rfl) h) hs hi

theorem Stb.find_remove : (t.remove n).find n = none := by
  simp [Stb.remove, Stb.find, List.find?_eq_none]

end Table

/-! ### What keeps the layout from changing (R3) -/

theorem Stb.slotBars_iff (t : Stb) (i : Nat) : t.slotBars i = true ↔
    t.slotState i = .armed ∨ t.slotState i = .readout ∨ t.slotState i = .held ∨ t.slotState i = .draining ∨
      (t.slotState i = .retained ∧ ∃ r, t.holder i = some r ∧ r.flags.keep = true) := by
  unfold Stb.slotBars
  cases t.slotState i <;> simp [Option.any_eq_true]

theorem slotsBusy_iff (s : State) : slotsBusy s = true ↔
    (∃ i, i < s.stb.count ∧ (s.stb.slotState i = .armed ∨ s.stb.slotState i = .readout ∨
        s.stb.slotState i = .held ∨ s.stb.slotState i = .draining ∨
        (s.stb.slotState i = .retained ∧ ∃ r, s.stb.holder i = some r ∧ r.flags.keep = true))) ∨
      ∃ r, (r ∈ s.cde.reads ∨ s.cde.serving = some r) ∧ r.dest < 0x3F000000 ∧ 0x10000000 < r.dest + r.count * 512 := by
  have hread (r : CardRead) : r ∈ cardReads s ↔ r ∈ s.cde.reads ∨ s.cde.serving = some r := by
    simp [cardReads, or_comm]
  simp only [slotsBusy, Bool.or_eq_true, List.any_eq_true, List.mem_range, Stb.slotBars_iff, hread, CardRead.inFrame,
    decide_eq_true_eq]

/-! ### A request of the Shot Table, answered -/

section Answers

variable {q : Request} {s : State} {judge : State → State} {a : Answer}

/-- What a command changed in the table has its mirror writes queued at the command's end (R9). -/
theorem finish_mirrored (s u : State) : Mirrored s (finish s u) := by
  obtain ⟨js, hjs, hm⟩ := settleRqe_jobs s u
  intro e he hne
  rw [finish_stb] at hne ⊢
  rw [finish_rqe, hjs]
  exact hm e he hne

/-- The state with its Shot Table replaced. -/
def withStb (t : Stb) (s : State) : State := { s with stb := t }

theorem withStb_onlyChanges (t : Stb) (s : State) : OnlyChanges [.stb] s (withStb t s) := by
  refine ⟨rfl, fun p hp _ => ?_⟩
  cases p <;> simp_all [Part.agree, withStb]

/-- The owner answers and changes nothing. -/
theorem taken_answered_unchanged (h : Taken q s) (hj : ∀ v, judge (withService v s) = answer a (withService v s)) :
    ∃ t, event s (serve q judge) = .next t ∧ Answered a s t ∧ OnlyChanges [.service] s t := by
  obtain ⟨v, u, hs, ha, ho, -⟩ := taken_answered h (g := id) hj fun _ => rfl
  refine ⟨_, event_next _ h.1, ?_⟩
  rw [hs]
  exact ⟨ha, (withService_onlyChanges v s).trans ho⟩

/-- The owner answers and leaves the Shot Table as `T`. -/
theorem taken_answered_stb (h : Taken q s) (T : Stb)
    (hj : ∀ v, judge (withService v s) = answer a (withStb T (withService v s))) :
    ∃ t, event s (serve q judge) = .next t ∧ t.stb = T ∧ Answered a s t ∧ Mirrored s t ∧
      OnlyChanges [.stb, .service] s t := by
  obtain ⟨v, u, hs, ha, ho, hstb, -⟩ := taken_answered h (g := withStb T) hj fun _ => rfl
  refine ⟨_, event_next _ h.1, ?_⟩
  rw [hs]
  have hv := (withService_onlyChanges v s).mono (qs := [.stb, .service]) (by simp)
  have hT := (withStb_onlyChanges T (withService v s)).mono (qs := [.stb, .service]) (by simp)
  exact ⟨by rw [finish_stb, hstb]; rfl, ha, finish_mirrored s u, (hv.trans hT).trans (ho.mono (by simp))⟩

end Answers

/-! ### What the owner decides -/

section Judged

variable {s : State} {n : Nat} {r : ShotRecord}

theorem answerShot_of_find (h : s.stb.find n = some r) : answerShot n s = answer ⟨.done, shotResult r⟩ s := by
  simp [answerShot, h]

theorem answerShot_withStb {T : Stb} (h : T.find n = some r) :
    answerShot n (withStb T s) = answer ⟨.done, shotResult r⟩ (withStb T s) :=
  answerShot_of_find h

theorem judgeDiscard_of_none (h : s.stb.find n = none) : judgeDiscard n s = reply .notFound s := by
  simp [judgeDiscard, h]

theorem judgeDiscard_of_busy (h : s.stb.find n = some r)
    (hp : r.phase = .arming ∨ r.phase = .waiting ∨ r.phase = .exposing ∨ r.phase = .reading ∨ r.phase = .storing) :
    judgeDiscard n s = reply .busy s := by
  rcases hp with hp | hp | hp | hp | hp <;> simp [judgeDiscard, h, hp]

theorem judgeDiscard_of_held (h : s.stb.find n = some r) (hp : r.phase = .held) : judgeDiscard n s =
    answer ⟨.done, shotResult { r with phase := .discarded, slot := none }⟩
      (withStb (s.stb.move n .discarded) s) := by
  rw [← answerShot_withStb (Stb.find_move_discarded h hp)]
  simp [judgeDiscard, h, hp, withStb]

theorem judgeDiscard_of_stored (h : s.stb.find n = some r) (hp : r.phase = .stored) : judgeDiscard n s =
    answer ⟨.done, shotResult { r with slot := none }⟩ (withStb (s.stb.freeSlot n) s) := by
  rw [← answerShot_withStb (Stb.find_freeSlot h)]
  simp [judgeDiscard, h, hp, withStb]

theorem judgeDiscard_of_ended (h : s.stb.find n = some r)
    (hp : r.phase = .expired ∨ r.phase = .aborted ∨ r.phase = .discarded ∨ r.phase = .calibrated) :
    judgeDiscard n s = answer ⟨.done, shotResult r⟩ s := by
  rw [← answerShot_of_find h]
  rcases hp with hp | hp | hp | hp <;> simp [judgeDiscard, h, hp]

theorem judgeRelease_of_none (h : s.stb.find n = none) : judgeRelease n s = reply .notFound s := by
  simp [judgeRelease, h]

theorem judgeRelease_of_find (h : s.stb.find n = some r) : judgeRelease n s =
    answer ⟨.done, shotResult { r with slot := if r.phase = .stored then none else r.slot }⟩
      (withStb (s.stb.release n r.phase) s) := by
  have ha := answerShot_withStb (s := s) (Stb.find_release h r.phase)
  simp only [judgeRelease, h]
  exact ha

theorem judgeRetire_of_none (h : s.stb.find n = none) : judgeRetire n s = reply .notFound s := by
  simp [judgeRetire, h]

theorem judgeRetire_of_final (h : s.stb.find n = some r) (hp : r.phase.final = true) : judgeRetire n s =
    answer ⟨.done, shotResult { r with slot := none }⟩ (withStb (s.stb.remove n) s) := by
  simp [judgeRetire, h, hp, withStb]

theorem judgeRetire_of_not_final (h : s.stb.find n = some r) (hp : r.phase.final = false) :
    judgeRetire n s = reply .busy s := by
  simp [judgeRetire, h, hp]

end Judged

/-- The result of a request that leaves the record without a slot ends in 0xFF (11 section 11.6). -/
theorem shotResult_of_no_slot {r : ShotRecord} {p : Phase} (hs : r.slot = none) (hp : r.phase = p) :
    shotResult r = le 4 r.shot ++ le 1 p.code ++ [0xFF] := by
  rw [shotResult, hs, hp]
  rfl

/-! ### The commands as events -/

theorem exec_setSlots (size : BitVec 32) (s : State) :
    exec (.setSlots size) s = event s (serve (.setSlots size) (judgeSetSlots size)) := rfl

theorem exec_discard (shot : BitVec 32) (s : State) :
    exec (.discard shot) s = event s (serve (.discard shot) (judgeDiscard shot.toNat)) := rfl

theorem exec_release (shot : BitVec 32) (s : State) :
    exec (.release shot) s = event s (serve (.release shot) (judgeRelease shot.toNat)) := rfl

theorem exec_retire (shot : BitVec 32) (s : State) :
    exec (.retire shot) s = event s (serve (.retire shot) (judgeRetire shot.toNat)) := rfl

/-! ### The statements -/

/-- Settles O15: the bars of the statement are those the owner looks at, and the new layout is `Stb.relayout`. -/
theorem setSlots : Obligations.SetSlots := by
  intro size s h n busy
  have hbusy : busy ↔ slotsBusy s = true := (slotsBusy_iff s).symm
  rw [hbusy, exec_setSlots]
  constructor
  · intro hb
    have hbv (v : Service) : slotsBusy (withService v s) = true := hb
    exact taken_refused h fun v => by simp [judgeSetSlots, hbv]
  · intro hb
    have hbv (v : Service) : ¬ slotsBusy (withService v s) = true := hb
    obtain ⟨t, ht, hstb, ha, hm, ho⟩ := taken_answered_stb h (s.stb.relayout n)
      (judge := judgeSetSlots size) (a := ⟨.done, le 4 n ++ le 1 (slotCountOf n)⟩)
      fun v => by rw [judgeSetSlots, if_neg (hbv v)]; rfl
    exact ⟨t, ht, ha, congrArg Stb.records hstb, congrArg Stb.retained hstb, congrArg Stb.slotSize hstb,
      congrArg Stb.slots hstb, by rw [hstb]; rfl, hm, ho⟩

/-- Settles O16: one case for each group of phases that `judgeDiscard` tells apart. -/
theorem discard : Obligations.Discard := by
  intro shot s h n freed
  rw [exec_discard]
  refine ⟨fun hf => taken_refused h fun _ => judgeDiscard_of_none hf, fun r hf => ⟨fun hp => ?_, fun hp => ?_,
    fun hp => ?_, fun hp => ?_⟩⟩
  · exact taken_refused h fun _ => judgeDiscard_of_busy hf hp
  · obtain ⟨t, ht, hstb, ha, -, ho⟩ := taken_answered_stb h (s.stb.move n .discarded) (judge := judgeDiscard n)
      fun _ => judgeDiscard_of_held hf hp
    refine ⟨t, ht, hstb, ?_, fun i hs hi => ?_, ?_, ho⟩
    · rw [hstb]
      exact Stb.find_move_discarded hf hp
    · rw [hstb]
      exact Stb.move_discarded_frees hf hp hs hi
    · rw [shotResult_of_no_slot rfl rfl] at ha
      exact ha
  · obtain ⟨t, ht, hstb, ha, -, ho⟩ := taken_answered_stb h (s.stb.freeSlot n) (judge := judgeDiscard n)
      fun _ => judgeDiscard_of_stored hf hp
    refine ⟨t, ht, hstb, ?_, fun i hs hi => ?_, ?_, ho⟩
    · rw [hstb]
      exact Stb.find_freeSlot hf
    · rw [hstb]
      exact Stb.freeSlot_frees hf hs hi
    · rw [shotResult_of_no_slot (r := { r with slot := none }) rfl hp] at ha
      exact ha
  · exact taken_answered_unchanged h fun _ => judgeDiscard_of_ended hf hp

/-- Settles O17: the table after the request is `Stb.release`. -/
theorem release : Obligations.Release := by
  intro shot s h n
  rw [exec_release]
  refine ⟨fun hf => taken_refused h fun _ => judgeRelease_of_none hf, fun r hf => ?_⟩
  obtain ⟨t, ht, hstb, ha, hm, ho⟩ := taken_answered_stb h (s.stb.release n r.phase) (judge := judgeRelease n)
      fun _ => judgeRelease_of_find hf
  refine ⟨t, ht, hstb, ?_, fun i hp hs hi => ?_, ?_, hm, ho⟩
  · rw [hstb]
    exact Stb.find_release hf r.phase
  · rw [hstb, hp]
    exact Stb.release_frees hf hs hi
  · by_cases hp : r.phase = .stored
    · simpa [shotResult, slotCode, hp] using ha
    · simpa [shotResult, hp] using ha

/-- Settles O18: a final phase is one of the five the statement lists. -/
theorem retire : Obligations.Retire := by
  intro shot s h n
  rw [exec_retire]
  refine ⟨fun hf => taken_refused h fun _ => judgeRetire_of_none hf, fun r hf => ⟨fun hp => ?_, fun hp => ?_⟩⟩
  · have hfin : r.phase.final = true := by rcases hp with hp | hp | hp | hp | hp <;> rw [hp] <;> rfl
    obtain ⟨t, ht, hstb, ha, hm, ho⟩ := taken_answered_stb h (s.stb.remove n) (judge := judgeRetire n)
      fun _ => judgeRetire_of_final hf hfin
    refine ⟨t, ht, hstb, ?_, fun i hs hi => ?_, ?_, hm, ho⟩
    · rw [hstb]
      exact Stb.find_remove
    · rw [hstb]
      exact Stb.freeSlot_frees hf hs hi
    · rw [shotResult_of_no_slot rfl rfl] at ha
      exact ha
  · have hfin : r.phase.final = false := by rcases hp with hp | hp | hp | hp | hp | hp <;> rw [hp] <;> rfl
    exact taken_refused h fun _ => judgeRetire_of_not_final hf hfin

end Sys2Proof.Machine
end

section
/-! PROOFS. The refusals of ARM (R26). First each check in the terms of the statement, then what the owner decides, then the
statement. -/

namespace Sys2Proof.Machine

/-! ### The checks -/

theorem Phase.running_iff (p : Phase) :
    p.running = true ↔ p = .arming ∨ p = .waiting ∨ p = .exposing ∨ p = .reading := by
  cases p <;> simp [Phase.running]

theorem BattLevel.ne_normal_iff (l : BattLevel) : l ≠ .normal ↔ l = .low ∨ l = .critical := by
  cases l <;> simp

/-- The modes are 0, 1 and 2 (11 section 11.5). -/
theorem modeOf_eq_none_iff (m : BitVec 8) : modeOf m = none ↔ 2 < m.toNat := by
  unfold modeOf
  split
  case h_1 h | h_2 h | h_3 h => simp [h]
  case h_4 h0 h1 h2 =>
    have h : m.toNat ≠ 0 ∧ m.toNat ≠ 1 ∧ m.toNat ≠ 2 := ⟨h0, h1, h2⟩
    simp only [true_iff]
    omega

section Table

variable (t : Stb)

theorem Stb.current_isSome_iff : t.current.isSome = true ↔
    ∃ r ∈ t.records, r.phase = .arming ∨ r.phase = .waiting ∨ r.phase = .exposing ∨ r.phase = .reading := by
  simp only [Stb.current, List.find?_isSome, Phase.running_iff]

theorem Stb.freeIndex_eq_none_iff : t.freeIndex = none ↔ ∀ i < t.count, t.slotState i ≠ .free := by
  simp [Stb.freeIndex]

/-- A retained slot no record holds is no more reclaimed than one whose record has KEEP (R15). -/
theorem Stb.reclaimable_eq_none_iff :
    t.reclaimable = none ↔ ∀ i ∈ t.retained, ∀ r, t.holder i = some r → r.flags.keep = true := by
  simp only [Stb.reclaimable, List.find?_eq_none]
  refine forall₂_congr fun i _ => ?_
  cases t.holder i <;> simp

theorem Stb.slotFor_eq_none_iff : t.slotFor = none ↔ (∀ i < t.count, t.slotState i ≠ .free) ∧
    ∀ i ∈ t.retained, ∀ r, t.holder i = some r → r.flags.keep = true := by
  rw [Stb.slotFor, Option.or_eq_none_iff, Stb.freeIndex_eq_none_iff, Stb.reclaimable_eq_none_iff]

end Table

/-! ### What the owner decides -/

section Judged

variable {s : State} {n : Nat} {p : Profile} {c : Code}

theorem armRefusal_of_current (h : s.stb.current.isSome = true) : armRefusal n s = some .busy := if_pos h

theorem armRefusal_of_empty (h : ¬ s.stb.current.isSome = true) (hp : s.prs.live n = none) :
    armRefusal n s = some .noProfile := by
  rw [armRefusal, if_neg h, hp]

/-- The checks left to a profile with an image while no shot runs. -/
theorem armRefusal_of_live (h : ¬ s.stb.current.isSome = true) (hp : s.prs.live n = some p) : armRefusal n s =
    if s.stb.slotSize * 1048576 < p.frameBytes then some .slotTooSmall
    else if s.amn.tempValid = true ∧ s.amn.tempLevel = .limit then some .tooHot
    else if s.amn.battValid = true ∧ (s.amn.battLevel = .low ∨ s.amn.battLevel = .critical) then some .lowBattery
    else if s.stb.slotFor = none then some .noSlot
    else none := by
  simp only [armRefusal, if_neg h, hp, BattLevel.ne_normal_iff, Stb.slotBytes]

variable {profile mode : BitVec 8} {keep darkCal : Bool} {debounce waitLimit duration timestamp : BitVec 32}

theorem judgeArm_of_bad_arguments (h : 3 < profile.toNat ∨ 2 < mode.toNat) :
    judgeArm profile mode keep darkCal debounce waitLimit duration timestamp s = reply .badRequest s := by
  unfold judgeArm
  rcases hm : modeOf mode with _ | m
  · rfl
  · have hmode : ¬ 2 < mode.toNat := by simp [← modeOf_eq_none_iff, hm]
    exact if_pos (h.resolve_right hmode)

theorem judgeArm_of_refusal (hp : profile.toNat ≤ 3) (hm : mode.toNat ≤ 2) (hr : armRefusal profile.toNat s = some c) :
    judgeArm profile mode keep darkCal debounce waitLimit duration timestamp s = reply c s := by
  have hmode : modeOf mode ≠ none := fun hn => by
    rw [modeOf_eq_none_iff] at hn
    omega
  obtain ⟨m, hmo⟩ := Option.ne_none_iff_exists'.mp hmode
  simp only [judgeArm, hmo, if_neg (Nat.not_lt.mpr hp), hr]

end Judged

theorem exec_arm (profile mode : BitVec 8) (keep darkCal : Bool) (debounce waitLimit duration timestamp : BitVec 32)
    (s : State) : exec (.arm profile mode keep darkCal debounce waitLimit duration timestamp) s =
      event s (serve (.arm profile mode keep darkCal debounce waitLimit duration timestamp)
        (judgeArm profile mode keep darkCal debounce waitLimit duration timestamp)) := rfl

/-! ### The statement -/

/-- Settles O24: the arguments are judged before the table is looked at, and each later clause is one branch of
`armRefusal`, whose checks do not see the request in service. -/
theorem armRefused : Obligations.ArmRefused := by
  intro profile mode keep darkCal debounce waitLimit duration timestamp s q c h refused running hot low noSlot
  have hrun : running ↔ s.stb.current.isSome = true := s.stb.current_isSome_iff.symm
  have hslot : noSlot → s.stb.slotFor = none := s.stb.slotFor_eq_none_iff.mpr
  have refuse {code : Code} (hp : profile.toNat ≤ 3) (hm : mode.toNat ≤ 2)
      (hr : armRefusal profile.toNat s = some code) : refused code :=
    taken_refused h fun _ => judgeArm_of_refusal hp hm hr
  rw [hrun]
  refine ⟨fun hbad => taken_refused h fun _ => judgeArm_of_bad_arguments hbad,
    fun hp hm hc => refuse hp hm (armRefusal_of_current hc),
    fun hp hm hc hl => refuse hp hm (armRefusal_of_empty hc hl), fun p hp hm hc hl => ?_⟩
  have hchecks := armRefusal_of_live hc hl
  refine ⟨fun hbig => refuse hp hm ?_, fun hfits hhot => refuse hp hm ?_,
    fun hfits hcool hlow => refuse hp hm ?_, fun hfits hcool hfull hno => refuse hp hm ?_⟩
  · rw [hchecks, if_pos hbig]
  · rw [hchecks, if_neg (Nat.not_lt.mpr hfits), if_pos hhot]
  · rw [hchecks, if_neg (Nat.not_lt.mpr hfits), if_neg hcool, if_pos hlow]
  · rw [hchecks, if_neg (Nat.not_lt.mpr hfits), if_neg hcool, if_neg hfull, if_pos (hslot hno)]

end Sys2Proof.Machine
end

section
/-! PROOFS. SET_EVENTS (R204). First ATTN as the statement speaks of it, then the state with its enables replaced, then the
statement. -/

namespace Sys2Proof.Machine

/-! ### ATTN (R205) -/

/-- A word of flags is not zero exactly when one of its bits is set, so ATTN is the bit by bit rule of R205. -/
theorem attnOf_iff (flags enables : BitVec 18) :
    attnOf flags enables = true ↔ ∃ k, k < 18 ∧ flags.getLsbD k = true ∧ enables.getLsbD k = true := by
  have hzero : flags &&& enables = 0 ↔ ∀ k, k < 18 → (flags &&& enables).getLsbD k = false :=
    ⟨fun h k _ => by simp [h], fun h => BitVec.eq_of_getLsbD_eq fun k hk => by simp [h k hk]⟩
  simp only [attnOf, decide_eq_true_eq, ne_eq, hzero]
  simp

/-- ATTN follows once the engine shows it as the function of its flags and enables. -/
theorem attnOk_of_eq {s : State} (h : s.rqe.attn = attnOf s.rqe.flags s.rqe.enables) : AttnOk s := by
  rw [AttnOk, h]
  exact attnOf_iff _ _

/-! ### The enables replaced -/

section Enables

variable (e : BitVec 18) (s : State)

/-- The state with its enables replaced, ATTN after them, and piece 0 marked. -/
def withEnables : State := { s with rqe := (s.rqe.setEnables e).mark 0 }

theorem withEnables_sameRing : SameRing (s.rqe.setEnables e) (withEnables e s).rqe := mark_sameRing _ 0

@[simp] theorem withEnables_flags : (withEnables e s).rqe.flags = s.rqe.flags := (withEnables_sameRing e s).flags
@[simp] theorem withEnables_enables : (withEnables e s).rqe.enables = e := (withEnables_sameRing e s).enables
@[simp] theorem withEnables_attn : (withEnables e s).rqe.attn = attnOf s.rqe.flags e := (withEnables_sameRing e s).attn
@[simp] theorem withEnables_service : (withEnables e s).rqe.service = s.rqe.service := (withEnables_sameRing e s).service

theorem withEnables_marks : 0 ∈ (withEnables e s).rqe.marked := (mem_mark _ 0 0).2 (.inr rfl)

theorem withEnables_onlyChanges : OnlyChanges [.flags] s (withEnables e s) := by
  have hset : OnlyChanges [.flags] s { s with rqe := s.rqe.setEnables e } := by
    refine ⟨rfl, fun p hp _ => ?_⟩
    cases p <;> simp_all [Part.agree, Rqe.setEnables]
  exact hset.trans ((withRqe_followUp _ (withEnables_sameRing e s)).onlyChanges _)

end Enables

/-! ### What the owner decides -/

theorem judgeSetEvents_eq (enables : BitVec 32) (s : State) : judgeSetEvents enables s =
    answer ⟨.done, le 4 (flagBits enables).toNat⟩ (withEnables (flagBits enables) s) := rfl

theorem flagBits_toNat (v : BitVec 32) : (flagBits v).toNat = v.toNat % 262144 := BitVec.toNat_setWidth 18 v

theorem flagBits_getLsbD (v : BitVec 32) {k : Nat} (hk : k < 18) : (flagBits v).getLsbD k = v.getLsbD k := by
  simp [flagBits, hk]

theorem exec_setEvents (enables : BitVec 32) (s : State) :
    exec (.setEvents enables) s = event s (serve (.setEvents enables) (judgeSetEvents enables)) := rfl

/-! ### The statement -/

/-- Settles O38: the answer and the command's end leave flags, enables and ATTN as the owner set them, and keep the mark. -/
theorem setEvents : Obligations.SetEvents := by
  intro enables s h
  obtain ⟨v, u, hserve, hanswered, hends, -, -, -, -, -, -, -, -, -, -, -, -, -, hmarked, -⟩ :=
    taken_answered h (g := withEnables (flagBits enables)) (fun _ => judgeSetEvents_eq enables _) fun v =>
      withEnables_service _ (withService v s)
  obtain ⟨hflags, henables, hattn⟩ := hends.2 .flags (by decide) (by decide)
  rw [withEnables_flags] at hflags
  rw [withEnables_enables] at henables
  rw [withEnables_attn, ← hflags, ← henables] at hattn
  rw [flagBits_toNat] at hanswered
  have hmark : 0 ∈ u.rqe.marked := hmarked ▸ withEnables_marks _ _
  have hservice := (withService_onlyChanges v s).mono (qs := [.flags, .service]) (by decide)
  have hset := (withEnables_onlyChanges (flagBits enables) (withService v s)).mono (qs := [.flags, .service]) (by decide)
  have hframe := (hservice.trans hset).trans (hends.mono (by decide))
  have hbits : ∀ k, k < 18 → (finish s u).rqe.enables.getLsbD k = enables.getLsbD k := fun k hk => by
    rw [henables, flagBits_getLsbD enables hk]
  rw [exec_setEvents, event_next _ h.1, hserve]
  exact ⟨_, rfl, hbits, hflags, attnOk_of_eq hattn, finish_marked s u hmark, hanswered, hframe⟩

end Sys2Proof.Machine
end

section
/-! PROOFS. What every operation of the part keeps: the queue of commands and the invariants (O3, O7 to O11). One lemma for
each operation, in the order of the definitions; the statements follow from the lemma of each command. -/

namespace Sys2Proof.Machine

set_option Elab.async false

/-! ### What is kept -/

/-- The fields the invariants look at. -/
def looked (s : State) :=
  ((s.pending, s.resetHeld, s.mem, s.stb.records, s.stb.nextShot), (s.exs.seq, s.exs.quietReq, s.exs.snsFlush, s.exs.snsInteg,
    s.exs.readyOut), (s.hmp.queue, s.fmc.errlog, s.dfm.entries, s.dfm.load), s.rqe.flags, s.rqe.enables, s.rqe.attn)

/-- From `b` to `s` the queue of commands stays and no invariant is lost; the lines of the sequencer are those of its state
where `L` holds: it is False between the release of the lines and the return to IDLE, the one time they are not. -/
structure Kept (L : Prop) (b s : State) : Prop where
  pending : s.pending = b.pending
  held : s.resetHeld = b.resetHeld
  mem : MemOk b → MemOk s
  lines : L → LinesOk b → LinesOk s
  attn : AttnOk b → AttnOk s
  log : LogOk b → LogOk s
  posted : QueueOk b → QueueOk s
  map : MapOk b → MapOk s
  numbers : b.stb.nextShot < 4294967295 → NumbersOk b → NumbersOk s

theorem Kept.refl (L : Prop) (s : State) : Kept L s s := ⟨rfl, rfl, id, fun _ => id, id, id, id, id, fun _ => id⟩

theorem Kept.trans {L : Prop} {b s t : State} (h : Kept L b s) (k : Kept L s t) (hn : s.stb.nextShot = b.stb.nextShot) :
    Kept L b t :=
  ⟨k.pending.trans h.pending, k.held.trans h.held, k.mem ∘ h.mem, fun l => k.lines l ∘ h.lines l, k.attn ∘ h.attn, k.log ∘ h.log,
    k.posted ∘ h.posted, k.map ∘ h.map, fun n o => k.numbers (hn ▸ n) (h.numbers n o)⟩

theorem looked_eq {s t : State} (h : looked t = looked s) :
    (t.pending = s.pending ∧ t.resetHeld = s.resetHeld ∧ t.mem = s.mem ∧ t.stb.records = s.stb.records ∧
      t.stb.nextShot = s.stb.nextShot) ∧
    (t.exs.seq = s.exs.seq ∧ t.exs.quietReq = s.exs.quietReq ∧ t.exs.snsFlush = s.exs.snsFlush ∧
      t.exs.snsInteg = s.exs.snsInteg ∧ t.exs.readyOut = s.exs.readyOut) ∧
    (t.hmp.queue = s.hmp.queue ∧ t.fmc.errlog = s.fmc.errlog ∧ t.dfm.entries = s.dfm.entries ∧ t.dfm.load = s.dfm.load) ∧
    t.rqe.flags = s.rqe.flags ∧ t.rqe.enables = s.rqe.enables ∧ t.rqe.attn = s.rqe.attn := by
  simpa [looked] using h

section Primitive

variable {L : Prop} {b s t : State}

theorem Kept.of_looked (e : looked t = looked s) : Kept L s t := by
  obtain ⟨⟨p1, p2, p3, p4, p5⟩, ⟨l1, l2, l3, l4, l5⟩, ⟨q1, q2, q3, q4⟩, f1, f2, f3⟩ := looked_eq e
  refine ⟨p1, p2, ?_, fun _ => ?_, ?_, ?_, ?_, ?_, fun _ => ?_⟩
  · simp [MemOk, p3]
  · simp [LinesOk, l1, l2, l3, l4, l5]
  · simp [AttnOk, f1, f2, f3]
  · simp [LogOk, q2]
  · simp [QueueOk, q1]
  · simp [MapOk, q3, q4]
  · simp [NumbersOk, p4, p5]

/-- An operation that changes nothing the invariants look at keeps them. -/
theorem Kept.same (h : Kept L b s) (e : looked t = looked s := by exact rfl) : Kept L b t := by
  have k : Kept L s t := .of_looked e
  obtain ⟨⟨-, -, -, hr, hn⟩, -⟩ := looked_eq e
  refine ⟨k.pending.trans h.pending, k.held.trans h.held, k.mem ∘ h.mem, fun l => k.lines l ∘ h.lines l, k.attn ∘ h.attn,
    k.log ∘ h.log, k.posted ∘ h.posted, k.map ∘ h.map, fun n o => ?_⟩
  simpa [NumbersOk, hr, hn] using h.numbers n o

/-- The engine's flags, enables and ATTN stay. -/
theorem Kept.ring (h : Kept L b s) {q : Rqe} (hq : SameRing s.rqe q) : Kept L b { s with rqe := q } :=
  h.same (by simp [looked, hq.flags, hq.enables, hq.attn])

/-- A new table whose records have shot numbers of the old one. -/
theorem Kept.table (h : Kept L b s) {u : Stb} (hr : ∀ r ∈ u.records, ∃ q ∈ s.stb.records, r.shot = q.shot)
    (hn : s.stb.nextShot ≤ u.nextShot) : Kept L b { s with stb := u } := by
  refine ⟨h.pending, h.held, h.mem, h.lines, h.attn, h.log, h.posted, h.map, fun n o r hm => ?_⟩
  obtain ⟨q, hq, e⟩ := hr r hm
  exact e ▸ lt_of_lt_of_le (h.numbers n o q hq) hn

/-- The table's records changed one by one, each keeping its shot number. -/
theorem Kept.mapRecords (h : Kept L b s) {f : ShotRecord → ShotRecord} (hf : ∀ r, (f r).shot = r.shot) :
    Kept L b { s with stb := { s.stb with records := s.stb.records.map f } } :=
  h.table (by simpa using fun r hm => ⟨r, hm, hf r⟩) le_rfl

theorem Kept.update (h : Kept L b s) {n : Nat} {f : ShotRecord → ShotRecord} (hf : ∀ r, (f r).shot = r.shot := by intro r; rfl) :
    Kept L b { s with stb := s.stb.update n f } :=
  h.mapRecords (f := fun r => if r.shot = n then f r else r) fun r => by split <;> simp [hf]

/-- Lines that stay as they are, or those of a state entered. -/
theorem Kept.modExs (h : Kept L b s) {f : Exs → Exs} (hf : ∀ x, (f x).seq = x.seq ∧ (f x).quietReq = x.quietReq ∧
    (f x).snsFlush = x.snsFlush ∧ (f x).snsInteg = x.snsInteg ∧ (f x).readyOut = x.readyOut := by
      intro x; exact ⟨rfl, rfl, rfl, rfl, rfl⟩) : Kept L b (modExs f s) := by
  obtain ⟨h1, h2, h3, h4, h5⟩ := hf s.exs
  exact h.same (by simp [looked, h1, h2, h3, h4, h5])

end Primitive

end Sys2Proof.Machine
end

section
/-! PROOFS. The Shot Table, answers, the error log, writes and reads of memory, and the defect map keep the invariants. -/

namespace Sys2Proof.Machine

set_option Elab.async false

/-! ### The Shot Table -/

/-- Every record of `u` has the shot number of one of `t`, and the next number has not gone down. -/
def Stb.NumbersFrom (t u : Stb) : Prop :=
  (∀ r ∈ u.records, ∃ q ∈ t.records, r.shot = q.shot) ∧ t.nextShot ≤ u.nextShot

section Table

variable {t u v : Stb}

theorem Stb.NumbersFrom.refl (t : Stb) : t.NumbersFrom t := ⟨fun r h => ⟨r, h, rfl⟩, le_refl _⟩

theorem Stb.NumbersFrom.trans (h : t.NumbersFrom u) (k : u.NumbersFrom v) : t.NumbersFrom v := by
  refine ⟨fun r hr => ?_, h.2.trans k.2⟩
  obtain ⟨q, hq, e⟩ := k.1 r hr
  obtain ⟨p, hp, e'⟩ := h.1 q hq
  exact ⟨p, hp, e.trans e'⟩

theorem Stb.update_numbers (t : Stb) (n : Nat) {f : ShotRecord → ShotRecord} (hf : ∀ r, (f r).shot = r.shot) :
    t.NumbersFrom (t.update n f) := by
  refine ⟨fun r hr => ?_, le_refl _⟩
  obtain ⟨q, hq, rfl⟩ := List.mem_map.1 hr
  exact ⟨q, hq, by split <;> simp [hf]⟩

theorem Stb.freeSlot_numbers (t : Stb) (n : Nat) : t.NumbersFrom (t.freeSlot n) := by
  unfold Stb.freeSlot
  split
  · exact .refl t
  · rename_i i _
    exact Stb.update_numbers ((t.setSlot i .free).unretain i) n fun _ => rfl

theorem Stb.move_numbers (t : Stb) (n : Nat) (p : Phase) : t.NumbersFrom (t.move n p) := by
  have h := t.update_numbers n (f := fun r => { r with phase := p }) fun _ => rfl
  simp only [Stb.move]
  split
  · exact .refl t
  · split
    · split
      · split
        · exact h
        · exact h
      · exact h.trans (Stb.freeSlot_numbers _ n)
      · exact h
    · exact .refl t

theorem Stb.remove_numbers (t : Stb) (n : Nat) : t.NumbersFrom (t.remove n) := by
  refine (t.freeSlot_numbers n).trans ⟨fun r hr => ⟨r, ?_, rfl⟩, le_refl _⟩
  exact List.mem_of_mem_filter hr

theorem Stb.takeSlot_numbers (t : Stb) (i : Nat) : t.NumbersFrom (t.takeSlot i) := by
  unfold Stb.takeSlot
  split
  · exact t.freeSlot_numbers _
  · exact .refl t

theorem Stb.raiseNumber_numbers (t : Stb) (n : Nat) : t.NumbersFrom (t.raiseNumber n) := by
  unfold Stb.raiseNumber
  split
  · exact .refl t
  · split
    · exact .refl t
    · exact ⟨fun r hr => ⟨r, hr, rfl⟩, Nat.le_max_left _ _⟩

theorem Stb.relayout_numbers (t : Stb) (n : Nat) : t.NumbersFrom (t.relayout n) := by
  refine ⟨fun r hr => ?_, le_refl _⟩
  obtain ⟨q, hq, rfl⟩ := List.mem_map.1 hr
  exact ⟨q, hq, by split <;> rfl⟩

end Table

section Operations

variable {L : Prop} {b s t : State}

theorem Kept.stb (h : Kept L b s) {u : Stb} (hu : s.stb.NumbersFrom u) : Kept L b { s with stb := u } := h.table hu.1 hu.2

/-! ### Marks, raises, mirror writes and answers -/

theorem mark_kept (h : Kept L b s) (k : Nat) : Kept L b (mark k s) := h.ring (mark_sameRing _ k)

theorem rewriteShot_kept (h : Kept L b s) (n : Nat) : Kept L b (rewriteShot n s) := by
  unfold rewriteShot
  split
  · exact h.same
  · exact h

theorem rewriteShots_kept (h : Kept L b s) (ns : List Nat) : Kept L b (rewriteShots ns s) := by
  induction ns generalizing s with
  | nil => exact h
  | cons n ns ih => exact ih (rewriteShot_kept h n)

theorem answer_kept (h : Kept L b s) (a : Answer) : Kept L b (answer a s) := by
  obtain ⟨-, e⟩ | ⟨v, -, -, e⟩ | ⟨v, k, -, -, e⟩ := answer_cases a s <;> rw [e] <;> exact h.same

theorem answerAfter_kept (h : Kept L b s) (a : Answer) (j k : Nat) : Kept L b (answerAfter a j k s) :=
  (mark_kept h k).same

theorem reply_kept (h : Kept L b s) (c : Code) : Kept L b (reply c s) := answer_kept h _

theorem payReply_kept (h : Kept L b s) : Kept L b (payReply s) := by
  unfold payReply
  split
  · exact h
  · split
    · split
      · exact answer_kept h _
      · exact h
    all_goals exact h

theorem serve_kept (h : Kept L b s) (q : Request) {judge : State → State}
    (hj : ∀ u, Kept L b u → u.stb = s.stb → Kept L b (judge u)) : Kept L b (serve q judge s) := by
  unfold serve
  split
  · split
    · exact hj s h rfl
    · exact h
  · split
    · exact hj _ h.same rfl
    · exact h

/-! ### Error occurrences and the log -/

theorem chargeRecord_kept (h : Kept L b s) (o : Occurrence) : Kept L b (chargeRecord o s) := by
  unfold chargeRecord
  split
  · exact h
  · exact rewriteShot_kept (h.update fun r => by split <;> rfl) _

theorem logIndex_none {a k : Nat} {l : List LogEntry} (h : logIndex a k l = none) : a ∉ l.map (·.addr) := by
  induction l generalizing k with
  | nil => simp
  | cons e es ih =>
    unfold logIndex at h
    split at h
    · exact absurd h (by simp)
    · rename_i hne
      simpa [Ne.symm hne] using ih h

theorem map_modify_hits (l : List LogEntry) (k : Nat) (f : LogEntry → LogEntry) (hf : ∀ e, (f e).addr = e.addr) :
    (l.modify k f).map (·.addr) = l.map (·.addr) := by
  apply List.ext_getElem
  · simp
  · intro i h1 h2
    simp only [List.getElem_map, List.getElem_modify]
    split <;> simp [hf]

/-- A change of the error log alone. -/
theorem Kept.errlog (h : Kept L b s) (ht : looked { t with fmc := { t.fmc with errlog := s.fmc.errlog } } = looked s)
    (hl : LogOk s → LogOk t) : Kept L b t := by
  have k := h.same ht
  exact ⟨k.pending, k.held, k.mem, k.lines, k.attn, hl ∘ h.log, k.posted, k.map, k.numbers⟩

theorem logOccurrence_kept (h : Kept L b s) (o : Occurrence) (c : ErrorClass) : Kept L b (logOccurrence o c s) := by
  unfold logOccurrence
  split
  · refine h.errlog rfl fun ⟨hl, hd⟩ => ?_
    simp only [LogOk, mirrorErrorHeader, List.length_modify]
    rw [map_modify_hits s.fmc.errlog _ (fun e => { e with hits := satAdd max16 e.hits 1 }) fun _ => rfl]
    exact ⟨hl, hd⟩
  · rename_i hn
    split
    · rename_i hlt
      refine h.errlog rfl fun ⟨_, hd⟩ => ⟨?_, ?_⟩
      · simp only [mirrorErrorHeader, List.length_append, List.length_singleton]
        omega
      · simp only [mirrorErrorHeader, List.map_append, List.map_cons, List.map_nil]
        refine List.nodup_append.2 ⟨hd, by simp, fun a ha c hc e => logIndex_none hn ?_⟩
        rwa [← List.mem_singleton.1 hc, ← e]
    · exact h.same

theorem occur_kept (h : Kept L b s) (o : Occurrence) : Kept L b (occur o s) := by
  have hc : ∀ u, (Fmc.count u o).errlog = u.errlog := by
    intro u
    unfold Fmc.count
    split
    · rfl
    · split
      · rfl
      · split <;> rfl
  have hk := chargeRecord_kept h o
  rcases ho : o.cls with _ | c
  · exact hk.same (by simp [occur, ho, looked, hc, Rqe.raise])
  · exact (logOccurrence_kept hk o c).same (by simp [occur, ho, looked, hc, Rqe.raise])

theorem report_kept (h : Kept L b s) (src : ErrorSource) (cw : Nat) (c : Checked) : Kept L b (report src cw c s) := by
  unfold report
  split
  · exact h
  · exact occur_kept h _

theorem reportParity_kept (h : Kept L b s) (p : Bool) (src : ErrorSource) (cw : Nat) :
    Kept L b (reportParity p src cw s) := by
  unfold reportParity
  split
  · exact occur_kept h _
  · exact h

theorem offer_errlog (f : Fmc) (cw : Nat) : (f.offer cw).errlog = f.errlog := by
  unfold Fmc.offer
  split <;> rfl

/-! ### Writes and reads of memory -/

/-- A change of memory alone. -/
theorem Kept.memory (h : Kept L b s) (ht : looked { t with mem := s.mem } = looked s) (hm : MemOk s → MemOk t) :
    Kept L b t := by
  have k := h.same ht
  exact ⟨k.pending, k.held, hm ∘ h.mem, k.lines, k.attn, k.log, k.posted, k.map, k.numbers⟩

theorem storeWord_kept (h : Kept L b s) (cw : Nat) (d : BitVec 64) (c : BitVec 8) : Kept L b (storeWord cw d c s) :=
  h.memory rfl fun hm => storeWord_wf hm cw d c

theorem writeCodeword_kept (h : Kept L b s) (src : ErrorSource) (p : Bool) (cells : List Host.Cell) (cw : Nat) :
    Kept L b (writeCodeword src p cells cw s) := by
  simp only [writeCodeword]
  split
  · exact h
  · split
    · exact reportParity_kept (storeWord_kept h _ _ _) _ _ _
    · exact reportParity_kept (report_kept (storeWord_kept h _ _ _) _ _ _) _ _ _

theorem writeBytes_kept (h : Kept L b s) (src : ErrorSource) (p : Bool) (cells : List Host.Cell) (cws : List Nat) :
    Kept L b (writeBytes src p cells cws s) := by
  induction cws generalizing s with
  | nil => exact h
  | cons cw cws ih => exact ih (writeCodeword_kept h src p cells cw)

theorem writeRecord_kept (h : Kept L b s) (a : Nat) (bs : List Byte) : Kept L b (writeRecord a bs s) :=
  writeBytes_kept h _ _ _ _

theorem readCodewords_kept (h : Kept L b s) (src : ErrorSource) (cws : List Nat) :
    Kept L b (readCodewords src cws s).2 := by
  induction cws generalizing s with
  | nil => exact h
  | cons cw cws ih =>
    have hr := report_kept h src cw (s.mem.check? cw)
    simp only [readCodewords]
    apply ih
    split
    · exact hr.same (by simp [looked, offer_errlog])
    · exact hr

theorem readRange_kept (h : Kept L b s) (src : ErrorSource) (a n : Nat) : Kept L b (readRange src a n s).2 :=
  readCodewords_kept h src _

/-! ### The defect map -/

/-- A change of the defect map alone. -/
theorem Kept.dfm (h : Kept L b s) (d : Dfm) (hd : MapOk s → MapOk { s with dfm := d }) : Kept L b { s with dfm := d } :=
  ⟨h.pending, h.held, h.mem, h.lines, h.attn, h.log, h.posted, hd ∘ h.map, h.numbers⟩

/-- A change of the map that leaves its entries and the list being loaded. -/
theorem Kept.sameMap (h : Kept L b s) {d : Dfm} (he : d.entries = s.dfm.entries) (hl : d.load = s.dfm.load) :
    Kept L b { s with dfm := d } :=
  h.same (by simp [looked, he, hl])

@[simp] theorem beginRewrite_entries (d : Dfm) (m n : Nat) : (d.beginRewrite m n).entries = d.entries := by
  unfold Dfm.beginRewrite
  split
  · rfl
  · split <;> rfl

@[simp] theorem beginRewrite_load (d : Dfm) (m n : Nat) : (d.beginRewrite m n).load = d.load := by
  unfold Dfm.beginRewrite
  split
  · rfl
  · split <;> rfl

@[simp] theorem endLine_entries (d : Dfm) : d.endLine.entries = d.entries := by
  unfold Dfm.endLine
  split <;> simp

@[simp] theorem endLine_load (d : Dfm) : d.endLine.load = d.load := by
  unfold Dfm.endLine
  split <;> simp

@[simp] theorem toLine_entries (d : Dfm) (y : Nat) : (d.toLine y).entries = d.entries := by
  simp only [Dfm.toLine]
  split <;> simp

@[simp] theorem toLine_load (d : Dfm) (y : Nat) : (d.toLine y).load = d.load := by
  simp only [Dfm.toLine]
  split <;> simp

@[simp] theorem insert_entries (d : Dfm) (r c : Nat) : (d.insert r c).entries =
    d.entries.insertIdx (d.position r c) { row := r, column := c, length := none, found := true } := by
  simp only [Dfm.insert, Dfm.widen]
  split <;> simp

@[simp] theorem insert_load (d : Dfm) (r c : Nat) : (d.insert r c).load = d.load := by
  simp only [Dfm.insert, Dfm.widen]
  split <;> simp

@[simp] theorem replace_entries (d : Dfm) (l : List DefectEntry) : (d.replace l).entries = l := by simp [Dfm.replace]
@[simp] theorem replace_load (d : Dfm) (l : List DefectEntry) : (d.replace l).load = d.load := by simp [Dfm.replace]

theorem calibrate_kept (h : Kept L b s) (r c : Nat) : Kept L b (calibrate r c s) := by
  simp only [calibrate]
  split
  · rename_i hlt
    refine h.dfm _ fun ⟨_, hl⟩ => ⟨?_, by simpa using hl⟩
    simp only [insert_entries]
    exact List.length_insertIdx_le_succ.trans hlt
  · split <;> exact h.same

end Operations

end Sys2Proof.Machine
end

section
/-! PROOFS. The readout, the host bursts and the Analog Monitor's requests keep the invariants. -/

namespace Sys2Proof.Machine

set_option Elab.async false

section Readout

variable {L : Prop} {b s : State}

/-! ### The readout -/

theorem releaseProfile_kept (h : Kept L b s) (id : Nat) : Kept L b (releaseProfile id s) := by
  unfold releaseProfile
  split
  · split
    · exact (mark_kept (h.same (t := { s with prs := _ }) rfl) 1).same
    · exact h
  · exact h

theorem presentRuns_kept (h : Kept L b s) (ls : List WordRun) : Kept L b (presentRuns ls s) := by
  induction ls generalizing s with
  | nil => exact h
  | cons l ls ih =>
    apply ih
    split
    · exact h
    · exact h.same

theorem settleWord_s (w : Work) (g : HeldWord) (re ro : Option Nat) (c : Bool) : (w.settleWord g re ro c).s = w.s := rfl

theorem release_s (w : Work) (re ro : Option Nat) : (w.release re ro).s = w.s := by
  unfold Work.release
  split <;> rfl

theorem jump_s (w : Work) (o : Nat) : (w.jump o).s = w.s := by
  simp only [Work.jump]
  split
  · exact release_s _ _ _
  · rfl

/-- A pixel taken changes the state at most by a candidate of a dark calibration. -/
theorem takePixel_s (w : Work) (line x : Nat) (px : RawPixel) : (takePixel line x px w).2.s = w.s ∨
    (takePixel line x px w).2.s = calibrate line (w.r.image.masked + x) w.s := by
  cases px with
  | received v =>
    simp only [takePixel]
    generalize hu : (ite (x + 1 = w.r.image.width) _ _ : Work) = u
    have hs : u.s = w.s := by
      rw [← hu]
      split <;> rfl
    split
    · exact .inl hs
    · split
      · exact .inr (congrArg (calibrate line (w.r.image.masked + x)) hs)
      · exact .inl hs
  | absent => exact .inl rfl
  | half => exact .inl rfl

theorem takePixel_kept {w : Work} (h : Kept L b w.s) (line x : Nat) (px : RawPixel) :
    Kept L b (takePixel line x px w).2.s := by
  obtain e | e := takePixel_s w line x px <;> rw [e]
  · exact h
  · exact calibrate_kept h _ _

theorem takeActive_kept {w : Work} (h : Kept L b w.s) (bt : PostedBeat) (p : Bool) (line x o : Nat) :
    Kept L b (takeActive bt p line x o w).s := by
  have h1 := takePixel_kept (w := { w with r := w.r.settleLine line }) h line x (bt.pixel 0)
  have h2 := takePixel_kept h1 line (x + 1) (bt.pixel 1)
  have h3 := fun re ro => (release_s (takePixel line (x + 1) (bt.pixel 1)
    (takePixel line x (bt.pixel 0) { w with r := w.r.settleLine line }).2).2 re ro).symm ▸ h2
  simp only [takeActive]
  split
  · split
    · exact h3 _ _
    · exact h3 _ _
  · exact h3 _ _

theorem takeMasked_s (bt : PostedBeat) (p : Bool) (line column o : Nat) (w : Work) :
    (takeMasked bt p line column o w).s = w.s := rfl

theorem emitRaw_s (w : Work) (bt : PostedBeat) (p : Bool) : (w.emitRaw bt p).s = w.s := rfl

/-- A readout at a beat it takes: past the words passed over, the cursor behind the beat, the map at its line (R88, R121). -/
def Work.reach (w : Work) (o line : Nat) : Work :=
  let w := w.jump o
  let w := { w with r := { w.r with cursor := o + 4 } }
  { w with s := { w.s with dfm := w.s.dfm.toLine line } }

/-- A beat at its offset in the slot. -/
def takeBeatAt (parity : Bool) (b : PostedBeat) (w : Work) (o : Nat) : Work :=
  let p := w.r.image
  if p.frameBytes ≤ o then (w.jump p.frameBytes).emitRaw b parity
  else if o < w.r.cursor then
    { w with r := { w.r with stats := { w.r.stats with behind := satAdd max32 w.r.stats.behind 1 } } }
  else
    let line := o / p.pitch
    let at_ := o % p.pitch
    if at_ < 2 * p.masked then takeMasked b parity line (at_ / 2) o (w.reach o line)
    else if at_ < 2 * (p.masked + p.width) then takeActive b parity line (at_ / 2 - p.masked) o (w.reach o line)
    else (w.reach o line).emitRaw b parity

theorem takeBeat_eq (p : Bool) (bt : PostedBeat) (w : Work) :
    takeBeat p bt w = takeBeatAt p bt w (w.s.stb.offsetIn w.r.slot bt.addr) := by
  unfold takeBeat
  generalize w.s.stb.offsetIn w.r.slot bt.addr = o
  rfl

theorem reach_kept {w : Work} (h : Kept L b w.s) (o line : Nat) : Kept L b (w.reach o line).s :=
  Kept.sameMap (s := (w.jump o).s) ((jump_s w o).symm ▸ h) (toLine_entries _ line) (toLine_load _ line)

theorem takeBeat_kept {w : Work} (h : Kept L b w.s) (p : Bool) (bt : PostedBeat) : Kept L b (takeBeat p bt w).s := by
  rw [takeBeat_eq]
  generalize w.s.stb.offsetIn w.r.slot bt.addr = o
  unfold takeBeatAt
  extract_lets g _ _ line at_
  have h3 : Kept L b (w.reach o line).s := reach_kept h o line
  split
  · rw [emitRaw_s, jump_s]
    exact h
  · split
    · exact h
    · split
      · rw [takeMasked_s]
        exact h3
      · split
        · exact takeActive_kept h3 _ _ _ _ _
        · rw [emitRaw_s]
          exact h3

theorem takeBeats_kept {w : Work} (h : Kept L b w.s) (p : Bool) (bs : List PostedBeat) : Kept L b (takeBeats p bs w).s := by
  induction bs generalizing w with
  | nil => exact h
  | cons bt bs ih => exact ih (takeBeat_kept h p bt)

theorem leaveReadout_kept (h : Kept L b s) (r : Readout) : Kept L b (leaveReadout r s) := by
  have h1 : ∀ p, Kept L b { s with stb := s.stb.move r.shot p, dfm := s.dfm.readoutEnd,
                                   pce := { readout := none, idle := none } } :=
    fun p => (h.stb (s.stb.move_numbers r.shot p)).same
  unfold leaveReadout
  extract_lets cal profile s1 s2
  have h2 : Kept L b s2 := by
    simp only [s2, profile]
    split
    · exact releaseProfile_kept (h1 _) _
    · exact h1 _
  split
  · exact h2
  · exact h2.same

theorem endReadout_kept (h : Kept L b s) (i : Bool) (r : Readout) : Kept L b (endReadout i r s) := by
  unfold endReadout
  extract_lets w s1 s2 cal s3
  have hw : Kept L b w.s := (release_s { s := s, r := r, runs := [] } none none).symm ▸ h
  have h2 : Kept L b s2 := (presentRuns_kept hw w.runs).update
  have h3 : Kept L b s3 := by
    simp only [s3]
    split
    · exact h2.sameMap (endLine_entries _) (endLine_load _)
    · exact h2
  split
  · exact h3.same
  · exact leaveReadout_kept h3 _

theorem takeCapture_kept (h : Kept L b s) (p : Bool) (bs : List PostedBeat) : Kept L b (takeCapture p bs s) := by
  unfold takeCapture
  split
  · exact h
  · rename_i r _
    split
    · exact h
    · have h1 := presentRuns_kept (takeBeats_kept (w := { s := s, r := r, runs := [] }) h p bs)
        (takeBeats p bs { s := s, r := r, runs := [] }).runs
      extract_lets w s1 _ s2
      have h2 : Kept L b s2 := h1.same
      split
      · exact endReadout_kept h2 _ _
      · exact h2

theorem restartIdle_kept (h : Kept L b s) : Kept L b (restartIdle s) := by
  unfold restartIdle
  split
  · split
    · exact h
    · exact h.same
  · exact h

theorem startReadout_kept (h : Kept L b s) (n i : Nat) (p : Profile) : Kept L b (startReadout n i p s) :=
  ((h.update (n := n) (f := fun r => { r with pitch := some p.pitch })).same)

/-! ### Host bursts -/

theorem countViolation_kept (h : Kept L b s) : Kept L b (countViolation s) := by
  unfold countViolation
  split
  · split
    · exact h.update
    · exact h
  · exact h

theorem countOutOfRange_kept (h : Kept L b s) (o : Bool) : Kept L b (countOutOfRange o s) := by
  unfold countOutOfRange
  split
  · exact h.same
  · exact h

theorem takeRead_kept (h : Kept L b s) (a : BitVec 32) (n : Nat) : Kept L b (takeRead a n s) := by
  have h1 := fun o => countOutOfRange_kept (countViolation_kept h) o
  simp only [takeRead]
  split
  · exact (h1 _).same
  · split <;> exact (h1 _).same

theorem countViolation_hmp (s : State) : (countViolation s).hmp = s.hmp := by
  unfold countViolation
  split
  · split <;> rfl
  · rfl

theorem countOutOfRange_queue (o : Bool) (s : State) : (countOutOfRange o s).hmp.queue = s.hmp.queue := by
  unfold countOutOfRange
  split <;> rfl

/-- A change of the posted-write queue alone. -/
theorem Kept.queue (h : Kept L b s) (m : Hmp) (hq : QueueOk s → m.queue.length ≤ 8) : Kept L b { s with hmp := m } :=
  ⟨h.pending, h.held, h.mem, h.lines, h.attn, h.log, hq ∘ h.posted, h.map, h.numbers⟩

theorem takeWrite_kept (h : Kept L b s) (a : BitVec 32) (bs : List WriteBeat) (hq : s.hmp.queue.length < 8) :
    Kept L b (takeWrite a bs s) := by
  unfold takeWrite
  extract_lets mine out s1
  have h1 : Kept L b s1 := (countOutOfRange_kept (countViolation_kept h) out).same
  have hq1 : s1.hmp.queue = s.hmp.queue := (countOutOfRange_queue _ _).trans (by rw [countViolation_hmp])
  split
  · exact h1
  · refine h1.queue _ fun _ => ?_
    simp only [hq1, List.length_append, List.length_singleton]
    omega

theorem offerBurst_kept (h : Kept L b s) (t : HostBurst) : Kept L b (offerBurst t s) := by
  unfold offerBurst
  split
  · exact takeRead_kept h _ _
  · split
    · rename_i hq
      exact takeWrite_kept h _ _ hq.1
    · exact h.same

theorem offerBursts_kept (h : Kept L b s) (bs : List HostBurst) : Kept L b (bs.foldl (fun s t => offerBurst t s) s) := by
  induction bs generalizing s with
  | nil => exact h
  | cons t bs ih => exact ih (offerBurst_kept h t)

theorem admitWaiting_kept (h : Kept L b s) : Kept L b (admitWaiting s) :=
  offerBursts_kept (h.same (t := { s with hmp := { s.hmp with waiting := [] } }) rfl) _

theorem dropGuarded_kept (h : Kept L b s) (o : Bool) : Kept L b (dropGuarded o s) := by
  unfold dropGuarded
  split
  · exact h.same
  · exact h

theorem presentPass_kept (h : Kept L b s) (p : Bool) (bs : List PostedBeat) : Kept L b (presentPass p bs s) := by
  unfold presentPass
  split
  · exact h
  · exact h.same

theorem settleHead_length (m : Hmp) (f : Posted → Posted) : (m.settleHead f).queue.length ≤ m.queue.length := by
  unfold Hmp.settleHead
  split
  · exact le_refl _
  · rename_i hq
    dsimp only
    split <;> simp [hq]

theorem settleHead_kept (h : Kept L b s) (f : Posted → Posted) : Kept L b { s with hmp := s.hmp.settleHead f } :=
  h.queue _ fun hq => (settleHead_length _ _).trans hq

theorem arriveCapture_kept (h : Kept L b s) (p : Bool) (bs : List PostedBeat) : Kept L b (arriveCapture p bs s).1 := by
  simp only [arriveCapture]
  split
  · exact h
  · split
    · exact takeCapture_kept (restartIdle_kept h) _ _
    · exact restartIdle_kept h

theorem deliverHead_kept (h : Kept L b s) : Kept L b (deliverHead s) := by
  unfold deliverHead
  split
  · exact h
  · split
    · exact h
    · exact admitWaiting_kept (settleHead_kept (arriveCapture_kept (presentPass_kept (dropGuarded_kept h _) _ _) _ _) _)

theorem acceptHeld_kept (h : Kept L b s) : Kept L b (acceptHeld s) := by
  unfold acceptHeld
  split
  · exact h
  · split
    · exact h
    · exact admitWaiting_kept (settleHead_kept (takeCapture_kept (restartIdle_kept h) _ _) _)

theorem passWritten_kept (h : Kept L b s) (p : Bool) (cells : List Host.Cell) : Kept L b (passWritten p cells s) := by
  unfold passWritten
  apply admitWaiting_kept (settleHead_kept _ _)
  split
  · exact h
  · exact h.same

/-! ### The Analog Monitor -/

theorem warnRecord_kept (h : Kept L b s) : Kept L b (warnRecord s) := by
  unfold warnRecord
  split
  · exact h
  · exact rewriteShots_kept (h.mapRecords fun r => by split <;> rfl) _

theorem answerTempStart_kept (h : Kept L b s) (n : Nat) (v : Option Int) : Kept L b (answerTempStart n v s) := by
  unfold answerTempStart
  split
  · exact h.update
  · exact h

theorem giveOffset_kept (h : Kept L b s) (n d : Nat) : Kept L b (giveOffset n d s) := by
  unfold giveOffset
  split
  · split
    · exact acceptHeld_kept h.same
    · exact h
  · exact h

theorem answerTempEnd_kept (h : Kept L b s) (n : Nat) (v : Option Int) : Kept L b (answerTempEnd n v s) := by
  unfold answerTempEnd
  extract_lets s1
  have h1 : Kept L b s1 := by
    simp only [s1]
    split
    · exact h.update
    · exact h
  split
  · exact h1
  · exact giveOffset_kept (rewriteShot_kept h1.update _) _ _

theorem ask_kept (h : Kept L b s) (d : Demand) : Kept L b (ask d s) := by
  unfold ask
  split
  · exact h.same
  · exact h
  · exact answerTempStart_kept h.same _ _
  · exact answerTempEnd_kept h.same _ _

end Readout
end Sys2Proof.Machine
end

section
/-! PROOFS. The Card Engine keeps the invariants. -/

namespace Sys2Proof.Machine

set_option Elab.async false

section Card

variable {L : Prop} {b s : State}

/-! ### Card power -/

theorem startPowerUp_kept (h : Kept L b s) : Kept L b (startPowerUp s) := ask_kept h.same _

theorem judgeReading_kept (h : Kept L b s) (v : Int) : Kept L b (judgeReading v s) := by
  unfold judgeReading
  split
  · exact h.same
  · split <;> exact h.same

theorem reachParked_kept (h : Kept L b s) : Kept L b (reachParked s) := by
  unfold reachParked
  extract_lets s1
  have h1 : Kept L b s1 := h.same
  split
  · exact startPowerUp_kept h1
  · exact h1

theorem parkNow_kept (h : Kept L b s) : Kept L b (parkNow s) := by
  unfold parkNow
  extract_lets s1
  have h1 : Kept L b s1 := h.same
  split
  · split <;> exact h1.same
  · exact h1.same
  · exact h1.same
  · exact h1.same
  · exact h1.same
  · split
    · exact h1.same
    · exact reachParked_kept h1
  · split
    · exact h1.same
    · exact h1
  all_goals exact h1

theorem dischargeDone_kept (h : Kept L b s) (v : Int) : Kept L b (dischargeDone v s) := by
  unfold dischargeDone
  extract_lets s1
  have h1 : Kept L b s1 := h.same
  split
  · exact h1.same
  · exact judgeReading_kept h1.same v
  · exact judgeReading_kept h1.same v
  · exact reachParked_kept h1
  · exact h1

theorem cardReading_kept (h : Kept L b s) (v : Int) : Kept L b (cardReading v s) := by
  unfold cardReading
  extract_lets s1
  have h1 : Kept L b s1 := h.same
  split
  · split
    · exact dischargeDone_kept h1 v
    · exact h1
  · split
    · exact judgeReading_kept h1 v
    · split
      · exact h1.same
      · exact h1

theorem powerDownTo_kept (h : Kept L b s) (why : DischargeFor) : Kept L b (powerDownTo why s) := h.same

theorem sendBlock_kept (h : Kept L b s) (data : List Byte) : Kept L b (sendBlock data s) := h.same

theorem issueRun_kept (h : Kept L b s) : Kept L b (issueRun s) := by
  unfold issueRun
  split
  · exact h
  · exact h.same

/-! ### The drain -/

theorem payPark_kept (h : Kept L b s) : Kept L b (payPark s) := by
  unfold payPark
  split
  · exact parkNow_kept h
  · exact h

theorem becomeReady_kept (h : Kept L b s) : Kept L b (becomeReady s) := payPark_kept h.same

theorem returnShot_kept (h : Kept L b s) (res : StoreResult) : Kept L b (returnShot res s) := by
  unfold returnShot
  split
  · exact h
  · rename_i c _
    have h1 : Kept L b (dropContainer s) := h.same
    dsimp only
    split
    · exact h1
    · exact h1.stb ((Stb.move_numbers _ _ _).trans (Stb.update_numbers _ _ fun _ => rfl))

theorem containerParked_kept (h : Kept L b s) : Kept L b (containerParked s) := becomeReady_kept (returnShot_kept h _)

theorem sumNext_kept (h : Kept L b s) : Kept L b (sumNext s) := by
  unfold sumNext
  split
  · exact h
  · dsimp only
    split
    · exact h
    · split
      · exact containerParked_kept h
      · split
        · exact h.same
        · split
          · exact h
          · exact h.same

theorem sumTake_kept (h : Kept L b s) (bs : List Byte) : Kept L b (sumTake bs s) := sumNext_kept h.same

theorem nextDataRun_kept (h : Kept L b s) (c : Container) : Kept L b (nextDataRun c s) := by
  unfold nextDataRun
  dsimp only
  split <;> exact h.same

theorem commitDone_kept (h : Kept L b s) (c : Container) : Kept L b (commitDone c s) := by
  unfold commitDone
  extract_lets s1 s2 s3
  have h1 : Kept L b s1 := h.stb ((Stb.move_numbers _ _ _).trans (Stb.update_numbers _ _ fun _ => rfl))
  exact h1.same

theorem drainEnded_kept (h : Kept L b s) (k : Nat) (all : Bool) : Kept L b (drainEnded k all s) := by
  unfold drainEnded
  extract_lets s1
  have h1 : Kept L b s1 := h.same
  split
  · exact h1
  · split
    · exact h1
    · split
      · exact containerParked_kept h1
      · split
        · exact nextDataRun_kept h1.same _
        · exact h1.same
    · split
      · exact containerParked_kept h1
      · exact nextDataRun_kept h1 _
    · split
      · exact commitDone_kept h1 _
      · exact h1.same
    · split
      · exact becomeReady_kept h1.same
      · exact h1.same

theorem startDrain_kept (h : Kept L b s) (r : ShotRecord) (g : Geometry) : Kept L b (startDrain r g s) := by
  unfold startDrain
  extract_lets n stb c
  have h1 : Kept L b { s with stb := stb } :=
    h.stb ((Stb.move_numbers _ _ _).trans (Stb.update_numbers _ _ fun _ => rfl))
  exact sumNext_kept h1.same

theorem tryDrain_kept (h : Kept L b s) (r : ShotRecord) : Kept L b (tryDrain r s) := by
  unfold tryDrain
  split
  · split
    · exact startDrain_kept h _ _
    · exact h
  · exact (h.update (n := r.shot) (f := fun r => { r with store := .cardFull })).same

/-! ### Card reads -/

theorem endServing_kept (h : Kept L b s) (o : ReadOutcome) : Kept L b (endServing o s) := by
  unfold endServing
  split
  · exact h
  · exact h.same

theorem endReads_kept (h : Kept L b s) (o : ReadOutcome) : Kept L b (endReads o s) := (endServing_kept h o).same

theorem readEnded_kept (h : Kept L b s) : Kept L b (readEnded s) := by
  unfold readEnded
  split
  · exact h
  · split
    · exact endServing_kept h _
    · exact h.same

theorem raiseCard_kept (h : Kept L b s) (f : EventFlag) : Kept L b (raiseCard f s) := by
  unfold raiseCard
  split <;> exact h.same

theorem raises_kept (h : Kept L b s) (fs : List EventFlag) : Kept L b (fs.foldl (fun s f => raise f s) s) := by
  induction fs generalizing s with
  | nil => exact h
  | cons f fs ih => exact ih h.same

theorem raiseOwed_kept (h : Kept L b s) : Kept L b (raiseOwed s) := (raises_kept h s.cde.owed).same

theorem writeResult_kept (h : Kept L b s) : Kept L b (writeResult s) := by
  unfold writeResult
  split
  · exact h
  · rename_i e rest _
    extract_lets no s1 s2 s3
    have h2 : Kept L b s2 := h.same
    have h3 : Kept L b s3 := by
      simp only [s3]
      split
      · exact raiseOwed_kept h2
      · exact h2
    split
    · exact becomeReady_kept h3
    · exact h3

/-! ### The mount -/

theorem mountDone_kept (h : Kept L b s) (g : Geometry) : Kept L b (mountDone g s) :=
  becomeReady_kept ((h.stb (s.stb.raiseNumber_numbers g.highest)).same)

theorem scanEnd_kept (h : Kept L b s) (m : Mount) : Kept L b (scanEnd m s) := by
  unfold scanEnd
  dsimp only
  split
  · exact h.same
  · exact mountDone_kept h.same _

theorem scanStep_kept (h : Kept L b s) (m : Mount) : Kept L b (scanStep m s) := by
  unfold scanStep
  split
  · exact scanEnd_kept h m
  · exact h.same

theorem judgeLogHeader_kept (h : Kept L b s) (m : Mount) (bs : List Byte) : Kept L b (judgeLogHeader m bs s) := by
  unfold judgeLogHeader
  split
  · exact scanStep_kept h.same _
  · exact h.same

theorem judgeHeader_kept (h : Kept L b s) (m : Mount) (bs : List Byte) : Kept L b (judgeHeader m bs s) := by
  unfold judgeHeader
  split
  · split
    · exact h.same
    · exact scanEnd_kept h m
  · exact scanEnd_kept h m

theorem judgeCommit_kept (h : Kept L b s) (m : Mount) (f : HeaderFields) (bs : List Byte) :
    Kept L b (judgeCommit m f bs s) := by
  unfold judgeCommit
  dsimp only
  split
  · exact scanStep_kept h _
  · exact scanEnd_kept h m

theorem mountAgain_kept (h : Kept L b s) (m : Mount) : Kept L b (mountAgain m s) := by
  unfold mountAgain
  split <;> exact h.same

theorem payAsked_kept (h : Kept L b s) : Kept L b (payAsked s) := by
  unfold payAsked
  split
  · exact parkNow_kept h
  · exact h

theorem mountEnded_kept (h : Kept L b s) (o : RunOutcome) (bs : List Byte) : Kept L b (mountEnded o bs s) := by
  unfold mountEnded
  split
  · exact h
  · split
    · exact payAsked_kept (mountDone_kept h _)
    · split
      · exact parkNow_kept h
      · split
        · exact mountAgain_kept h _
        · split
          · exact judgeLogHeader_kept h _ _
          · exact judgeHeader_kept h _ _
          · exact judgeCommit_kept h _ _ _
          · exact mountDone_kept h _
        · split
          · exact h.same
          · exact scanEnd_kept h _

/-! ### The ends of runs -/

theorem formatEnded_kept (h : Kept L b s) (all : Bool) : Kept L b (formatEnded all s) := by
  unfold formatEnded
  split
  · split
    · exact becomeReady_kept h.same
    · exact h
  · exact h.same

theorem loseCard_kept (h : Kept L b s) (res : StoreResult) (o : ReadOutcome) : Kept L b (loseCard res o s) :=
  (endReads_kept (returnShot_kept h res) o).same

theorem enterFault_kept (h : Kept L b s) (cause : FaultCause) : Kept L b (enterFault cause s) := by
  unfold enterFault
  extract_lets s1 s2
  have h1 : Kept L b s1 := loseCard_kept h _ _
  have h2 : Kept L b s2 := by
    simp only [s2]
    split
    · exact h1.same
    · exact h1
  exact raiseCard_kept h2.same _

theorem endRun_kept (h : Kept L b s) (o : RunOutcome) : Kept L b (endRun o s) := by
  unfold endRun
  split
  · exact h
  · extract_lets bs s1
    have h1 : Kept L b s1 := h.same
    split
    · exact mountEnded_kept h1 _ _
    · exact drainEnded_kept h1 _ _
    · split
      · exact endServing_kept h1 _
      · exact readEnded_kept h1
    · exact formatEnded_kept h1 _

theorem runTimeout_kept (h : Kept L b s) (r : Run) : Kept L b (runTimeout r s) := by
  unfold runTimeout
  split
  · exact enterFault_kept h _
  · exact h.same

theorem askStop_kept (h : Kept L b s) : Kept L b (askStop s) := by
  unfold askStop
  split
  · exact h
  · split
    · exact endRun_kept h _
    · exact h.same

theorem park_kept (h : Kept L b s) : Kept L b (park s) := by
  unfold park
  split
  · exact askStop_kept h.same
  · exact parkNow_kept h

theorem identGood_kept (h : Kept L b s) (n : Nat) : Kept L b (identGood n s) := by
  unfold identGood
  split
  · split
    · dsimp only
      split
      · exact endRun_kept h.same _
      · exact h.same
    · exact enterFault_kept h _
  · exact h.same

theorem identEnded_kept (h : Kept L b s) (g : Option Nat) : Kept L b (identEnded g s) := by
  unfold identEnded
  extract_lets drop s1
  have h1 : Kept L b s1 := h.same
  clear_value drop
  split
  · exact h1.same
  · exact h1.same
  · exact identGood_kept h1 _
  · exact enterFault_kept h1 _

/-! ### The blocks of a run -/

theorem fetchNext_kept (h : Kept L b s) : Kept L b (fetchNext s) := by
  unfold fetchNext
  split
  · dsimp only
    split <;> exact h.same
  · exact h

theorem nextBlock_kept (h : Kept L b s) : Kept L b (nextBlock s) := by
  unfold nextBlock
  split
  · exact h
  · split
    · exact h.same
    · exact fetchNext_kept h.same

theorem atBoundary_kept (h : Kept L b s) : Kept L b (atBoundary s) := by
  unfold atBoundary
  split
  · exact h
  · split
    · exact endRun_kept h _
    · split
      · exact h.same
      · split
        · exact nextBlock_kept h
        · exact h.same

theorem acknowledged_kept (h : Kept L b s) : Kept L b (acknowledged s) := by
  unfold acknowledged
  split
  · exact h
  · split
    · exact nextBlock_kept h
    · exact h.same

theorem blockReceived_kept (h : Kept L b s) (data : List Byte) (crc : BitVec 16) : Kept L b (blockReceived data crc s) := by
  unfold blockReceived
  split
  · exact h
  · split
    · exact h
    · split
      · extract_lets s1 s2
        have h2 : Kept L b s2 := by
          simp only [s2]
          split <;> exact h.same
        exact atBoundary_kept h2.same
      · split
        · extract_lets s1
          have h1 : Kept L b s1 := h.same
          split
          · exact endRun_kept h1 _
          · exact h1
        · exact endRun_kept h _

theorem takeToken_kept (h : Kept L b s) (t : WriteToken) : Kept L b (takeToken t s) := by
  unfold takeToken
  split
  · exact h
  · split
    · exact h
    · split
      · exact h.same
      · split
        · exact sendBlock_kept h.same _
        · exact enterFault_kept h _
      · exact enterFault_kept h _

theorem busyReleased_kept (h : Kept L b s) : Kept L b (busyReleased s) := by
  unfold busyReleased
  split
  · exact h
  · split
    · exact h
    · exact atBoundary_kept h.same

theorem responseFailed_kept (h : Kept L b s) : Kept L b (responseFailed s) := by
  unfold responseFailed
  split
  · exact identEnded_kept h _
  · split
    · exact h
    · split
      · exact runTimeout_kept h _
      · exact runTimeout_kept h _
      · exact runTimeout_kept h _
      · exact runTimeout_kept h _
      all_goals exact h

theorem responseArrived_kept (h : Kept L b s) (good : Bool) : Kept L b (responseArrived good s) := by
  unfold responseArrived
  split
  · exact responseFailed_kept h
  · split
    · split
      · exact acknowledged_kept h
      · exact runTimeout_kept h _
    · split
      · exact endRun_kept h _
      · exact runTimeout_kept h _
    · exact responseFailed_kept h
    all_goals exact h

/-! ### QUIET_REQ, the battery, CARD results, insertion and removal -/

theorem quietFell_kept (h : Kept L b s) : Kept L b (quietFell s) := by
  unfold quietFell
  extract_lets s1
  have h1 : Kept L b s1 := by
    simp only [s1]
    split
    · exact ask_kept h.same _
    · exact h
  split
  · exact h1
  · exact sumNext_kept h1

theorem containerCritical_kept (h : Kept L b s) (c : Container) : Kept L b (containerCritical c s) := by
  unfold containerCritical
  extract_lets s1 s2
  have h1 : Kept L b s1 := h.same
  have h2 : Kept L b s2 := h.same
  split
  · exact h1
  · split
    · split
      · exact h2
      · exact containerParked_kept h2
    · exact askStop_kept h2

theorem battCritical_kept (h : Kept L b s) : Kept L b (battCritical s) := by
  unfold battCritical
  split
  · exact payPark_kept h.same
  · exact payPark_kept h.same
  · split
    · exact containerCritical_kept h _
    · exact h.same
  · exact park_kept h
  · exact park_kept h
  · exact park_kept h
  · exact park_kept h
  · split
    · exact park_kept h
    · exact h
  all_goals exact h

theorem battRecovered_kept (h : Kept L b s) : Kept L b (battRecovered s) := by
  unfold battRecovered
  extract_lets s1
  have h1 : Kept L b s1 := h.same
  split
  · exact startPowerUp_kept h1
  · exact h1

theorem battChanged_kept (h : Kept L b s) (l : BattLevel) : Kept L b (battChanged l s) := by
  unfold battChanged
  split
  · exact h
  · split
    · exact battCritical_kept h
    · split
      · exact battRecovered_kept h
      · exact h

theorem cardResult_kept (h : Kept L b s) (v : Option Int) : Kept L b (cardResult v s) := by
  unfold cardResult
  extract_lets s1
  have h1 : Kept L b s1 := by
    simp only [s1]
    split
    · exact cardReading_kept h _
    · exact h
  split
  · exact raiseCard_kept h1 _
  · split
    · exact h1.same
    · exact h1

theorem insertCard_kept (h : Kept L b s) : Kept L b (insertCard s) := by
  unfold insertCard
  extract_lets s1 s2
  have h2 : Kept L b s2 := by
    simp only [s2]
    split
    · exact h.same
    · exact startPowerUp_kept h.same
  split
  · exact (park_kept h2).same
  · exact h2.same

theorem removeCard_kept (h : Kept L b s) : Kept L b (removeCard s) :=
  raiseCard_kept (powerDownTo_kept (loseCard_kept h .removed .removed).same _) _

theorem overcurrent_kept (h : Kept L b s) : Kept L b (overcurrent s) := by
  unfold overcurrent
  split
  · exact enterFault_kept h _
  · exact h

theorem rampExpired_kept (h : Kept L b s) : Kept L b (rampExpired s) := by
  unfold rampExpired
  split
  · exact enterFault_kept h _
  · exact h

theorem dischargeExpired_kept (h : Kept L b s) : Kept L b (dischargeExpired s) := by
  unfold dischargeExpired
  split
  · extract_lets s1
    have h1 : Kept L b s1 := h.same
    split
    · exact h1
    · exact enterFault_kept h1 _
  · exact h

end Card
end Sys2Proof.Machine
end

section
/-! PROOFS. The Exposure Sequencer keeps the invariants. -/

namespace Sys2Proof.Machine

set_option Elab.async false

section Exposure

variable {L : Prop} {b s : State}

/-! ### The lines of the sequencer -/

/-- The lines of a state entered are those of R23. -/
theorem enter_lines (s : State) (x : Exs) (q : SeqState) (h : s.exs.seq = (x.enter q).seq ∧
    s.exs.quietReq = (x.enter q).quietReq ∧ s.exs.snsFlush = (x.enter q).snsFlush ∧
    s.exs.snsInteg = (x.enter q).snsInteg ∧ s.exs.readyOut = (x.enter q).readyOut) : LinesOk s := by
  obtain ⟨h1, h2, h3, h4, h5⟩ := h
  simp only [LinesOk, h1, h2, h3, h4, h5]
  cases q <;> simp [Exs.enter]

/-- A change of the sequencer alone. -/
theorem Kept.exs (h : Kept L b s) (x : Exs) {M : Prop} (hx : M → LinesOk b → LinesOk { s with exs := x }) :
    Kept M b { s with exs := x } :=
  ⟨h.pending, h.held, h.mem, hx, h.attn, h.log, h.posted, h.map, h.numbers⟩

/-- A state is entered: whatever the lines were, they are now those of that state. -/
theorem enter_kept {M : Prop} (h : Kept M b s) (q : SeqState) {f : Exs → Exs} (hf : (f s.exs).seq = (s.exs.enter q).seq ∧
    (f s.exs).quietReq = (s.exs.enter q).quietReq ∧ (f s.exs).snsFlush = (s.exs.enter q).snsFlush ∧
    (f s.exs).snsInteg = (s.exs.enter q).snsInteg ∧ (f s.exs).readyOut = (s.exs.enter q).readyOut := by
      exact ⟨rfl, rfl, rfl, rfl, rfl⟩) : Kept L b (modExs f s) :=
  h.exs (f s.exs) fun _ _ => enter_lines _ s.exs q hf

theorem missedSync_kept (h : Kept L b s) : Kept L b (missedSync s) :=
  (h.mapRecords (f := fun r => if r.phase = .reading then { r with missed := satAdd max8 r.missed 1 } else r)
    fun r => by split <;> rfl).same

theorem acceptIdle_kept (h : Kept L b s) (c : Bool) : Kept L b (acceptIdle c s) := by
  unfold acceptIdle
  dsimp only
  split
  · exact missedSync_kept h.same
  · exact h.same

theorem setDebounce_kept (h : Kept L b s) (n : Nat) : Kept L b (setDebounce n s) := by
  unfold setDebounce
  extract_lets s1
  have h1 : Kept L b s1 := h.same
  split
  · split
    · exact acceptIdle_kept h1 _
    · exact h1
  · exact h1

/-- The lines are released before the sequencer leaves its state: from here to its return to IDLE they are not its
state's. -/
theorem releaseLines_kept (h : Kept L b s) : Kept False b (releaseLines s) :=
  quietFell_kept (h.exs _ False.elim)

/-- The return to IDLE makes the lines those of the state again. -/
theorem returnIdle_kept (h : Kept False b s) : Kept L b (returnIdle s) :=
  setDebounce_kept (enter_kept h .idle) _

theorem moveShot_kept (h : Kept L b s) (p : Phase) : Kept L b (moveShot p s) := by
  unfold moveShot
  split
  · exact h.stb (s.stb.move_numbers _ _)
  · exact h

theorem modShot_kept (h : Kept L b s) {f : ShotRecord → ShotRecord} (hf : ∀ r, (f r).shot = r.shot := by intro r; rfl) :
    Kept L b (modShot f s) := by
  unfold modShot
  split
  · exact h.update hf
  · exact h

theorem setFlag_kept (h : Kept L b s) (f : RecordFlags → RecordFlags) : Kept L b (setFlag f s) := modShot_kept h

theorem beginReadout_kept (h : Kept L b s) (e : Exposure) : Kept L b (beginReadout e s) := by
  unfold beginReadout
  split
  · exact startReadout_kept h _ _ _
  · exact h

theorem endIntegration_kept (h : Kept L b s) (src : ExposureSource) : Kept L b (endIntegration src s) := by
  unfold endIntegration
  split
  · exact h
  · rename_i e _
    extract_lets now seq s1 s2 s3
    have h1 : Kept False b s1 := ask_kept (releaseLines_kept h) _
    have h2 : Kept False b s2 := modShot_kept h1
    have h3 : Kept False b s3 := beginReadout_kept h2.same e
    exact (returnIdle_kept (moveShot_kept (moveShot_kept h3 _) _)).same

theorem leaveShot_kept (h : Kept L b s) (p : Phase) : Kept L b (leaveShot p s) := by
  unfold leaveShot
  split
  · exact h
  · exact releaseProfile_kept (returnIdle_kept (moveShot_kept (releaseLines_kept h) p)) _

theorem mountAtWake_kept (h : Kept L b s) : Kept L b (mountAtWake s) := by
  unfold mountAtWake
  extract_lets s1
  have h1 : Kept L b s1 := h.same
  split
  · exact startPowerUp_kept h1
  · exact h1

theorem wake_kept (h : Kept L b s) (c : WakeCause) : Kept L b (wake c s) := by
  unfold wake
  split
  · exact h.same
  · exact mountAtWake_kept h.same
  all_goals exact h

theorem limitReached_kept (h : Kept L b s) : Kept L b (limitReached s) := endIntegration_kept (setFlag_kept h _) _

theorem windowReached_kept (h : Kept L b s) : Kept L b (windowReached s) := by
  unfold windowReached
  split
  · exact endIntegration_kept h _
  · exact h

theorem startExposure_kept (h : Kept L b s) (start : Nat) (early : Bool) : Kept L b (startExposure start early s) := by
  unfold startExposure
  split
  · exact h
  · extract_lets now elapsed whole s1 s2
    have h1 : Kept L b s1 := enter_kept h .opened
    have h2 : Kept L b s2 := moveShot_kept h1 _
    split
    · split
      · exact windowReached_kept h2
      · exact limitReached_kept h2
    · exact h2

theorem enterWaiting_kept (h : Kept L b s) : Kept L b (enterWaiting s) := by
  unfold enterWaiting
  split
  · exact h
  · rename_i e _
    extract_lets now s1 s2 s3 s4
    have h1 : Kept L b s1 := enter_kept h .waiting
    have h3 : Kept L b s3 := ask_kept (warnRecord_kept (moveShot_kept h1 _)) _
    split
    · exact h3.same
    · split
      · apply startExposure_kept
        simp only [s4]
        split
        · exact modShot_kept h3
        · exact h3
      · exact h3.same

theorem endFlush_kept (h : Kept L b s) : Kept L b (endFlush s) := by
  unfold endFlush
  extract_lets us s1
  have h1 : Kept L b s1 := enter_kept h .settle
  split
  · exact enterWaiting_kept h1
  · exact h1

theorem enterFlush_kept (h : Kept L b s) : Kept L b (enterFlush s) :=
  enter_kept (f := fun x => x.enterFor .flush (profileTime (·.flushTime) s)) h .flush

theorem quietMissed_kept (h : Kept L b s) : Kept L b (quietMissed s) := enterFlush_kept (setFlag_kept h _)

theorem enterQuieting_kept (h : Kept L b s) : Kept L b (enterQuieting s) := by
  unfold enterQuieting
  extract_lets us s1
  have h1 : Kept L b s1 := askStop_kept (enter_kept h .quieting)
  split
  · exact enterFlush_kept h1
  · split
    · exact quietMissed_kept h1
    · exact h1

theorem takeClosure_kept (h : Kept L b s) (first : Nat) : Kept L b (takeClosure first s) := by
  unfold takeClosure
  extract_lets s1
  have h1 : Kept L b s1 := h.same
  split
  · exact wake_kept (missedSync_kept h1) _
  · exact modShot_kept h1
  · exact modShot_kept h1
  · exact modShot_kept h1
  · split
    · split
      · exact missedSync_kept h1
      · exact startExposure_kept h1 _ _
    · exact h1
  all_goals exact h1

theorem takeRelease_kept (h : Kept L b s) (first : Nat) : Kept L b (takeRelease first s) := by
  unfold takeRelease
  extract_lets s1
  have h1 : Kept L b s1 := h.same
  split
  · split
    · unfold releaseInOpen
      extract_lets us s2
      have h2 : Kept L b s2 := enter_kept h1 .tail
      split
      · exact endIntegration_kept h2 _
      · exact h2
    · exact h1
  · exact h1

theorem rejectedPulse_kept (h : Kept L b s) : Kept L b (rejectedPulse s) := h.mapRecords fun r => by split <;> rfl

theorem sampleSync_kept (h : Kept L b s) (level : Bool) : Kept L b (sampleSync level s) := by
  unfold sampleSync
  extract_lets f setRun r
  split
  · split
    · split
      · exact rejectedPulse_kept h.same
      · exact h.same
    · exact h
  · split
    · split
      · exact takeClosure_kept h _
      · exact takeRelease_kept h _
    · exact h.same

theorem abortOpen_kept (h : Kept L b s) : Kept L b (abortOpen s) := endIntegration_kept (setFlag_kept h _) _

theorem whenIn_kept (h : Kept L b s) (q : SeqState) {f : State → State} (hf : Kept L b s → Kept L b (f s)) :
    Kept L b (whenIn q f s) := by
  unfold whenIn
  split
  · exact hf h
  · exact h

end Exposure
end Sys2Proof.Machine
end

section
/-! PROOFS. The requests keep the invariants. -/

namespace Sys2Proof.Machine

set_option Elab.async false

section Requests

variable {L : Prop} {b s : State}

/-! ### The end of a command -/

theorem followUp_kept (h : Kept L b s) {t : State} (f : FollowUp s t) : Kept L b t :=
  h.same (by
    have hq := congrArg Hmp.queue f.hmp
    have hl := congrArg Fmc.errlog f.fmc
    simp only at hq hl
    simp [looked, f.pending, f.resetHeld, f.mem, f.stb, f.exs, f.dfm, f.rqe.flags, f.rqe.enables, f.rqe.attn, hq, hl])

theorem finish_kept (h : Kept L b s) (before : State) : Kept L b (finish before s) :=
  followUp_kept h (finish_followUp before s)

/-! ### The requests of the Shot Table -/

theorem judgeSetSlots_kept (h : Kept L b s) (size : BitVec 32) : Kept L b (judgeSetSlots size s) := by
  unfold judgeSetSlots
  split
  · exact reply_kept h _
  · exact answer_kept (h.stb (s.stb.relayout_numbers _)) _

theorem makeRoom_numbers (s : State) : s.stb.NumbersFrom (makeRoom s).stb := by
  unfold makeRoom
  split
  · exact s.stb.remove_numbers _
  · exact .refl _

theorem makeRoom_nextShot (s : State) : (makeRoom s).stb.nextShot = s.stb.nextShot := by
  unfold makeRoom
  split
  · simp only [Stb.remove, Stb.freeSlot]
    split <;> rfl
  · rfl

theorem takeSlot_nextShot (t : Stb) (i : Nat) : (t.takeSlot i).nextShot = t.nextShot := by
  unfold Stb.takeSlot
  split
  · unfold Stb.freeSlot
    split <;> rfl
  · rfl

theorem makeRoom_kept (h : Kept L b s) : Kept L b (makeRoom s) := by
  unfold makeRoom
  split
  · exact (h.stb (s.stb.remove_numbers _)).same
  · exact h

/-- The record of an ARM takes the next number, which no record bears as long as the numbers have not wrapped (R17). -/
theorem createRecord_kept (h : Kept L b s) (hn : s.stb.nextShot = b.stb.nextShot) (p : Nat) (m : ShotMode) (k d : Bool)
    (ts slot : Nat) : Kept L b (createRecord p m k d ts slot s) := by
  unfold createRecord
  extract_lets s1 r t
  have h1 : Kept L b s1 := makeRoom_kept (h.stb (s.stb.takeSlot_numbers slot))
  have h1n : s1.stb.nextShot = b.stb.nextShot := by
    rw [← hn, ← takeSlot_nextShot s.stb slot]
    exact makeRoom_nextShot _
  refine ⟨h1.pending, h1.held, h1.mem, h1.lines, h1.attn, h1.log, h1.posted, h1.map, fun n o q hq => ?_⟩
  have hlt : s1.stb.nextShot < nextNumber t.nextShot := by
    have e : t.nextShot = s1.stb.nextShot := rfl
    rw [e, h1n, nextNumber, if_neg (by unfold max32; omega)]
    omega
  rcases List.mem_append.1 hq with hq | hq
  · exact (h1.numbers n o q hq).trans hlt
  · rw [List.mem_singleton.1 hq]
    exact hlt

theorem takeShot_kept (h : Kept L b s) (n p : Nat) (m : ShotMode) (d w u : Nat) : Kept L b (takeShot n p m d w u s) :=
  (setDebounce_kept h _).same

theorem judgeArm_kept (h : Kept L b s) (hn : s.stb.nextShot = b.stb.nextShot) (profile mode : BitVec 8)
    (keep darkCal : Bool) (debounce waitLimit duration timestamp : BitVec 32) :
    Kept L b (judgeArm profile mode keep darkCal debounce waitLimit duration timestamp s) := by
  unfold judgeArm
  split
  · exact reply_kept h _
  · split
    · exact reply_kept h _
    · split
      · exact reply_kept h _
      · exact reply_kept h _
      · exact answer_kept (enterQuieting_kept (takeShot_kept (createRecord_kept h hn _ _ _ _ _ _) _ _ _ _ _ _)) _

theorem judgeAbort_kept (h : Kept L b s) : Kept L b (judgeAbort s) := by
  unfold judgeAbort
  split
  · exact reply_kept h _
  · exact reply_kept h _
  · exact answer_kept (leaveShot_kept h _) _
  · exact answer_kept (leaveShot_kept h _) _
  · exact answer_kept (leaveShot_kept h _) _
  · exact answer_kept (leaveShot_kept h _) _
  · exact answer_kept (abortOpen_kept h) _
  · exact answer_kept (abortOpen_kept h) _

theorem answerShot_kept (h : Kept L b s) (n : Nat) : Kept L b (answerShot n s) := by
  unfold answerShot
  split
  · exact answer_kept h _
  · exact reply_kept h _

theorem judgeDiscard_kept (h : Kept L b s) (n : Nat) : Kept L b (judgeDiscard n s) := by
  unfold judgeDiscard
  split
  · exact reply_kept h _
  · split
    · exact answerShot_kept (h.stb (s.stb.move_numbers _ _)) _
    · exact answerShot_kept (h.stb (s.stb.freeSlot_numbers _)) _
    · exact answerShot_kept h _
    · exact answerShot_kept h _
    · exact answerShot_kept h _
    · exact answerShot_kept h _
    all_goals exact reply_kept h _

theorem judgeRelease_kept (h : Kept L b s) (n : Nat) : Kept L b (judgeRelease n s) := by
  unfold judgeRelease
  split
  · exact reply_kept h _
  · extract_lets t
    have ht : s.stb.NumbersFrom t := s.stb.update_numbers n fun _ => rfl
    apply answerShot_kept
    split
    · exact h.stb (ht.trans (t.freeSlot_numbers n))
    · exact h.stb ht

theorem judgeRetire_kept (h : Kept L b s) (n : Nat) : Kept L b (judgeRetire n s) := by
  unfold judgeRetire
  split
  · exact reply_kept h _
  · split
    · exact answer_kept (h.stb (s.stb.remove_numbers n)) _
    · exact reply_kept h _

/-! ### The loads -/

theorem refuseImage_kept (h : Kept L b s) (k : Nat) : Kept L b (refuseImage k s) := answer_kept h.same _

theorem readImage_kept (h : Kept L b s) (l : ProfileLoad) (n : Nat) : Kept L b (readImage l n s) := by
  unfold readImage
  dsimp only
  split <;> exact h.same

theorem judgeLoadProfile_kept (h : Kept L b s) (id : BitVec 8) (a : BitVec 32) : Kept L b (judgeLoadProfile id a s) := by
  unfold judgeLoadProfile
  split
  · exact h
  · split
    · exact refuseImage_kept h _
    · exact readImage_kept h _ _

theorem imageArrived_kept (h : Kept L b s) (r : ReadResultBytes) : Kept L b (imageArrived r s) := by
  unfold imageArrived
  split
  · exact h
  · split
    · exact reply_kept h.same _
    · extract_lets bytes f
      split
      · split
        · exact refuseImage_kept h _
        · split
          · exact refuseImage_kept h _
          · exact readImage_kept h _ _
      · exact readImage_kept h _ _

theorem judgeImage_kept (h : Kept L b s) : Kept L b (judgeImage s) := by
  unfold judgeImage
  split
  · exact h
  · split
    · exact h
    · exact answer_kept (mark_kept h.same 1) _

theorem dropLoad_kept (h : Kept L b s) : Kept L b (modDfm (fun d => { d with load := none }) s) :=
  h.dfm _ fun m => ⟨m.1, fun _ e => nomatch e⟩

theorem refuseList_kept (h : Kept L b s) (r : DefectReason) (k : Nat) : Kept L b (refuseList r k s) :=
  answer_kept (dropLoad_kept h) _

theorem readList_kept (h : Kept L b s) (l : DefectLoad) (hl : MapOk s → l.count ≤ 8192) : Kept L b (readList l s) := by
  have h1 : Kept L b (modDfm (fun d => { d with load := some l }) s) :=
    h.dfm _ fun m => ⟨m.1, fun _ e => Option.some.inj e ▸ hl m⟩
  simp only [readList]
  split
  · exact h1.same
  · exact h1

theorem takeLoadDefects_kept (h : Kept L b s) (a n : Nat) : Kept L b (takeLoadDefects a n s) := by
  unfold takeLoadDefects
  split
  · exact refuseList_kept h _ _
  · split
    · exact refuseList_kept h _ _
    · rename_i hle
      split
      · exact reply_kept h _
      · exact readList_kept h _ fun _ => Nat.le_of_not_lt hle

theorem judgeLoadDefects_kept (h : Kept L b s) (a n : BitVec 32) : Kept L b (judgeLoadDefects a n s) := by
  unfold judgeLoadDefects
  split
  · exact h
  · split
    · exact h.same
    · exact takeLoadDefects_kept h _ _

theorem listArrived_kept (h : Kept L b s) (r : ReadResultBytes) : Kept L b (listArrived r s) := by
  unfold listArrived
  split
  · exact h
  · rename_i l hl
    split
    · exact reply_kept (dropLoad_kept h) _
    · split
      · exact readList_kept h _ fun m => m.2 l hl
      · exact refuseList_kept h _ _

theorem answerAfterRewrite_kept (h : Kept L b s) (a : Answer) : Kept L b (answerAfterRewrite a s) := by
  unfold answerAfterRewrite
  split
  · exact h.same
  · exact answer_kept h _

theorem replaceMap_kept (h : Kept L b s) : Kept L b (replaceMap s) := by
  unfold replaceMap
  split
  · exact h
  · rename_i l hl
    split
    · exact h
    · extract_lets s1
      have h1 : Kept L b s1 := dropLoad_kept h
      split
      · exact reply_kept h1 _
      · apply answerAfterRewrite_kept
        have hk : Kept L b (modDfm (fun d => { d with load := none }.replace (l.passed.take l.count)) s) := by
          refine h.dfm _ fun m => ⟨?_, ?_⟩
          · simpa using .inl (m.2 l hl)
          · simp
        exact hk

theorem takeClearFound_kept (h : Kept L b s) : Kept L b (takeClearFound s) := by
  unfold takeClearFound
  split
  · exact reply_kept h _
  · apply answerAfterRewrite_kept
    refine h.dfm _ fun m => ⟨?_, fun l hl => m.2 l ?_⟩
    · rw [replace_entries]
      exact (List.length_filter_le _ _).trans m.1
    · rwa [replace_load] at hl

theorem judgeClearFound_kept (h : Kept L b s) : Kept L b (judgeClearFound s) := by
  unfold judgeClearFound
  split
  · exact h
  · split
    · exact h.same
    · exact takeClearFound_kept h

theorem payAnswer_kept (h : Kept L b s) : Kept L b (payAnswer s) := by
  unfold payAnswer
  split
  · exact answerAfter_kept h.same _ _ _
  · exact h

theorem serveWaiting_kept (h : Kept L b s) : Kept L b (serveWaiting s) := by
  have h1 : Kept L b (modDfm (fun d => { d with waiting := none }) s) := h.same
  delta serveWaiting
  dsimp only
  rcases s.dfm.waiting with _ | q
  · exact h1
  · cases q
    case loadDefects a n => exact takeLoadDefects_kept h1 _ _
    case clearFound => exact takeClearFound_kept h1
    all_goals exact h1

theorem endCalibration_kept (h : Kept L b s) : Kept L b (endCalibration s) := by
  unfold endCalibration
  split
  · split
    · exact leaveReadout_kept h _
    · exact h
  · exact h

theorem rewriteDone_kept (h : Kept L b s) : Kept L b (rewriteDone s) := by
  unfold rewriteDone
  split
  · exact endCalibration_kept (serveWaiting_kept (payAnswer_kept h.same))
  · exact h

/-! ### The requests of the Card Engine -/

theorem judgeReadCard_kept (h : Kept L b s) (k n d : BitVec 32) (t : BitVec 16) : Kept L b (judgeReadCard k n d t s) := by
  unfold judgeReadCard
  split
  · exact reply_kept h _
  · split
    · exact reply_kept h _
    · split
      · exact reply_kept h _
      · split
        · exact reply_kept h _
        · exact answer_kept h.same _

theorem judgeFormat_kept (h : Kept L b s) : Kept L b (judgeFormat s) := by
  unfold judgeFormat
  split
  · exact reply_kept h _
  · split
    · exact reply_kept h _
    · exact reply_kept h _
    · exact reply_kept h _
    · exact reply_kept h.same _
    · exact reply_kept h.same _
    all_goals exact reply_kept h _

theorem resetCycle_kept (h : Kept L b s) : Kept L b (resetCycle s) := by
  unfold resetCycle
  split
  · split <;> exact h.same
  · exact h.same
  · exact h.same
  · split
    · exact h.same
    · exact h
  · unfold leaveFault
    split
    · exact h.same
    · exact startPowerUp_kept h
  all_goals exact h

theorem judgeResetCard_kept (h : Kept L b s) : Kept L b (judgeResetCard s) := by
  unfold judgeResetCard
  split
  · exact reply_kept h _
  · split
    · exact reply_kept h _
    · exact reply_kept (resetCycle_kept h.same) _

/-! ### The other requests -/

theorem judgeClearErrlog_kept (h : Kept L b s) : Kept L b (judgeClearErrlog s) := by
  apply answerAfter_kept
  exact h.errlog rfl fun _ => ⟨Nat.zero_le 16, List.nodup_nil⟩

theorem judgeInjectCheck_kept (h : Kept L b s) (a : BitVec 32) (m : BitVec 8) : Kept L b (judgeInjectCheck a m s) := by
  unfold judgeInjectCheck
  split
  · exact reply_kept h _
  · exact answer_kept h.same _

theorem judgeSetMonitor_kept (h : Kept L b s) (m : MonitorArgs) : Kept L b (judgeSetMonitor m s) := by
  unfold judgeSetMonitor
  dsimp only
  split
  · exact reply_kept h _
  · exact answer_kept (mark_kept h.same 3) _

/-- A change of flags or enables after which ATTN follows. -/
theorem Kept.attnFollows (h : Kept L b s) (q : Rqe) (hq : q.attn = attnOf q.flags q.enables) :
    Kept L b { s with rqe := q } :=
  ⟨h.pending, h.held, h.mem, h.lines, fun _ => attnOk_of_eq hq, h.log, h.posted, h.map, h.numbers⟩

theorem judgeSetEvents_kept (h : Kept L b s) (e : BitVec 32) : Kept L b (judgeSetEvents e s) :=
  answer_kept (h.attnFollows _ (by simp [(mark_sameRing _ _).attn, (mark_sameRing _ _).flags, (mark_sameRing _ _).enables,
    Rqe.setEnables])) _

theorem beginEntering_kept (h : Kept L b s) : Kept L b (beginEntering s) := park_kept h.same

theorem judgeStandby_kept (h : Kept L b s) : Kept L b (judgeStandby s) := by
  unfold judgeStandby
  split
  · exact reply_kept h _
  · unfold acceptStandby
    extract_lets _ s1
    have h1 : Kept L b s1 := reply_kept h.same _
    split
    · exact beginEntering_kept h1
    · exact h1

end Requests
end Sys2Proof.Machine
end

section
/-! PROOFS. The engines' own commands, the arbiter, the clock's period and the status block's write keep the invariants. -/

namespace Sys2Proof.Machine

set_option Elab.async false

section Engine

variable {L : Prop} {b s : State}

/-! ### The Request Engine -/

theorem takeTail_kept (h : Kept L b s) (v : Nat) : Kept L b (takeTail v s) := by
  unfold takeTail
  split <;> exact h.same

theorem clear_kept (h : Kept L b s) (m : BitVec 18) : Kept L b (modRqe (fun q => q.clear m) s) :=
  h.attnFollows _ (by simp [Rqe.clear, (mark_sameRing _ _).attn, (mark_sameRing _ _).flags, (mark_sameRing _ _).enables,
    Rqe.setFlags])

theorem observe_kept (h : Kept L b s) (o : Observed) {f : State → State} (hf : ∀ u, Kept L b u → Kept L b (f u)) :
    Kept L b (observe o f s) := by
  unfold observe
  split
  · exact hf _ h
  · split
    · exact hf _ h.same
    · exact h

theorem entryArrived_kept (h : Kept L b s) (r : ReadResultBytes) : Kept L b (entryArrived r s) := by
  unfold entryArrived
  split
  · exact h
  · split
    · dsimp only
      split <;> exact h.same
    all_goals exact h

theorem judgeRequest_kept (h : Kept L b s) (v : Service) (bs : List Byte) (bad : Bool) :
    Kept L b (judgeRequest v bs bad s) := by
  unfold judgeRequest
  dsimp only
  split
  · exact reply_kept h.same _
  · split
    · exact h.same
    · exact reply_kept h.same _

theorem dispatch_kept (h : Kept L b s) : Kept L b (dispatch s) := by
  unfold dispatch
  split
  · split
    · exact h.same
    · exact h
  · split
    · split
      · exact h
      · exact judgeRequest_kept h _ _ _
    all_goals exact h

theorem completionWritten_kept (h : Kept L b s) : Kept L b (completionWritten s) := by
  unfold completionWritten
  split
  · extract_lets s1
    have h1 : Kept L b s1 := h.same
    split
    · exact beginEntering_kept h1
    · exact h1
  · exact h

theorem presentPiece_kept (h : Kept L b s) : Kept L b (presentPiece s) := by
  unfold presentPiece
  split
  · exact h
  · split
    · exact h.same
    · exact h

theorem pieceDone_kept (h : Kept L b s) (k : Nat) : Kept L b (modRqe (pieceDone k) s) := by
  by_cases hk : k = 0
  · have e : modRqe (pieceDone k) s = modRqe Rqe.setCarried s := by simp [hk, pieceDone, modRqe]
    exact e ▸ h.attnFollows s.rqe.setCarried rfl
  · have e : modRqe (pieceDone k) s = modRqe (Rqe.mapHolds Hold.pieceDone) s := by simp [hk, pieceDone, modRqe]
    exact e ▸ h.same

theorem pieceWritten_kept (h : Kept L b s) : Kept L b (pieceWritten s) := by
  unfold pieceWritten
  split
  · exact payReply_kept (pieceDone_kept h.same _)
  · exact h

/-! ### The host bus and the arbiter -/

theorem presentBurst_kept (h : Kept L b s) (t : HostBurst) : Kept L b (presentBurst t s) := by
  unfold presentBurst
  split
  · exact offerBurst_kept h t
  · exact offerBurst_kept h t
  · exact h.same
  · exact h.same
  · exact wake_kept h.same _

theorem idleExpired_kept (h : Kept L b s) : Kept L b (idleExpired s) := by
  unfold idleExpired
  split
  · split
    · exact endReadout_kept h _ _
    · exact h
  · exact h

theorem writeMap_kept (h : Kept L b s) (t : Txn) : Kept L b (writeMap t s) :=
  Kept.sameMap (writeRecord_kept h _ _) rfl rfl

theorem scrubWrite_kept (h : Kept L b s) (a : Nat) (d : BitVec 64) : Kept L b (scrubWrite a d s) := by
  simp only [scrubWrite]
  split
  · exact h.same
  · exact (storeWord_kept h _ _ _).same

theorem pieceGranted_sameFlags (k : Nat) (q : Rqe) : (pieceGranted k q).flags = q.flags ∧
    (pieceGranted k q).enables = q.enables ∧ (pieceGranted k q).attn = q.attn := by
  simp only [pieceGranted]
  split <;> exact ⟨rfl, rfl, rfl⟩

theorem mirrorWritten_sameFlags (q : Rqe) : (mirrorWritten q).flags = q.flags ∧
    (mirrorWritten q).enables = q.enables ∧ (mirrorWritten q).attn = q.attn := by
  unfold mirrorWritten
  split
  · split <;> exact ⟨rfl, rfl, rfl⟩
  all_goals exact ⟨rfl, rfl, rfl⟩

theorem Kept.sameFlags (h : Kept L b s) {q : Rqe} (hq : q.flags = s.rqe.flags ∧ q.enables = s.rqe.enables ∧
    q.attn = s.rqe.attn) : Kept L b { s with rqe := q } :=
  h.same (by simp [looked, hq])

theorem grantEffect_kept (h : Kept L b s) (t : Txn) : Kept L b (grantEffect t s) := by
  unfold grantEffect
  split
  · exact h.same
  · exact h.same
  · exact h.same
  · exact h.same
  · exact h.same
  · exact h.same
  · exact h.same
  · exact passWritten_kept (writeBytes_kept h _ _ _ _) _ _
  · exact writeBytes_kept h _ _ _ _
  · exact writeBytes_kept h _ _ _ _
  · exact (writeRecord_kept h _ _).same
  · exact ((writeRecord_kept h _ _).sameFlags (pieceGranted_sameFlags _ _)).same
  · exact payReply_kept ((writeBytes_kept h _ _ _ _).sameFlags (mirrorWritten_sameFlags _))
  · exact writeMap_kept h t
  · exact scrubWrite_kept h _ _

theorem counted_errlog (f : Fmc) (t : Txn) (ready : List Txn) : (f.counted t ready).errlog = f.errlog := by
  unfold Fmc.counted
  split <;> rfl

theorem grant_kept (h : Kept L b s) : Kept L b (grant s) := by
  unfold grant
  split
  · exact h
  · extract_lets ready
    split
    · exact h
    · exact grantEffect_kept (h.same (by simp [looked, counted_errlog])) _

theorem hostReadDone_kept (h : Kept L b s) : Kept L b (hostReadDone s) := by
  unfold hostReadDone
  split
  · exact h
  · split
    · rename_i t _ _ n _
      have hr := readRange_kept (h.same (t := freePort s)) .hostRead t.addr t.len
      dsimp only
      exact hr.same
    · exact h

theorem slotArrived_kept (h : Kept L b s) (r : ReadResultBytes) : Kept L b (slotArrived r s) := by
  unfold slotArrived
  split
  · exact sumTake_kept h _
  · split
    · exact fetchNext_kept h.same
    · exact h

theorem partReadDone_kept (h : Kept L b s) : Kept L b (partReadDone s) := by
  unfold partReadDone
  split
  · exact h
  · split
    · exact entryArrived_kept (readRange_kept h.same _ _ _) _
    · exact imageArrived_kept (readRange_kept h.same _ _ _) _
    · exact listArrived_kept (readRange_kept h.same _ _ _) _
    · exact slotArrived_kept (readRange_kept h.same _ _ _) _
    · exact readRange_kept h.same _ _ _
    · exact h

theorem paceExpired_kept (h : Kept L b s) : Kept L b (paceExpired s) := by
  unfold paceExpired
  extract_lets s1
  have h1 : Kept L b s1 := h.same
  split
  · exact h1
  · split <;> exact h1.same

theorem stepRead_errlog (f : Fmc) (st : ScrubStep) : (f.stepRead st).errlog = f.errlog := by
  unfold Fmc.stepRead Fmc.advanceWalk
  split
  · rfl
  · split <;> rfl

theorem scrubRead_kept (h : Kept L b s) (st : ScrubStep) : Kept L b (scrubRead st s) := by
  unfold scrubRead
  extract_lets c s1
  have h1 : Kept L b s1 := h.same (by simp [s1, looked, stepRead_errlog])
  split
  · exact h1.same
  · split
    · exact h1.same
    · exact (report_kept h1 _ _ _).same
  · exact (report_kept h1 _ _ _).same
  · exact (report_kept h1 _ _ _).same

theorem scrubReadDone_kept (h : Kept L b s) : Kept L b (scrubReadDone s) := by
  unfold scrubReadDone
  split
  · split
    · exact scrubRead_kept h.same _
    · exact h
  · exact h

/-! ### The Analog Monitor and the card -/

theorem answerDemand_kept (h : Kept L b s) (d : Option Demand) (v : Option Int) : Kept L b (answerDemand d v s) := by
  unfold answerDemand
  split
  · exact answerTempStart_kept h _ _
  · exact answerTempEnd_kept h _ _
  all_goals exact h

theorem alarm_kept (h : Kept L b s) (c : Channel) : Kept L b (alarm c s) := by
  unfold alarm
  split
  · split
    · exact h
    · exact h.same
  · split
    · exact h
    · exact h.same
  · exact h

theorem standingResult_kept (h : Kept L b s) (c : Conversion) (v : Int) : Kept L b (standingResult c v s) := by
  unfold standingResult
  extract_lets before s1 s2 s3 s4 s5
  have h1 : Kept L b s1 := h.same
  have h2 : Kept L b s2 := by
    simp only [s2]
    split
    · exact warnRecord_kept h1
    · exact h1
  have h3 : Kept L b s3 := answerDemand_kept h2 _ _
  have h4 : Kept L b s4 := by
    simp only [s4]
    split
    · exact cardResult_kept h3 _
    · exact h3
  apply alarm_kept
  simp only [s5]
  split
  · exact battChanged_kept h4 _
  · exact h4

theorem conversionDone_kept (h : Kept L b s) (code : Nat) : Kept L b (conversionDone code s) := by
  unfold conversionDone
  split
  · exact h
  · rename_i c _
    extract_lets v
    have h1 : Kept L b (if c.stands then standingResult c v s else voidResult c s) := by
      split
      · exact standingResult_kept h c v
      · unfold voidResult
        extract_lets s1
        have h1 : Kept L b s1 := answerDemand_kept h _ _
        split
        · exact cardResult_kept h1 _
        · exact h1
    exact h1.same

theorem seeDetect_kept (h : Kept L b s) (l : Bool) : Kept L b (seeDetect l s) := by
  unfold seeDetect
  split
  · exact h
  · exact wake_kept h.same _

theorem issue_kept (h : Kept L b s) : Kept L b (issue s) := by
  unfold issue
  split
  · exact h
  · split
    · exact h.same
    · split
      · exact issueRun_kept h
      · exact h

theorem identResponse_kept (h : Kept L b s) (g : Bool) (n : Nat) : Kept L b (identResponse g n s) := by
  unfold identResponse
  split
  · exact identEnded_kept h _
  · exact responseArrived_kept h _

theorem busyExpired_kept (h : Kept L b s) : Kept L b (busyExpired s) := by
  unfold busyExpired
  split
  · split
    · exact runTimeout_kept h _
    · exact h
  · exact h

theorem nextWork_kept (h : Kept L b s) : Kept L b (nextWork s) := by
  unfold nextWork
  split
  · exact h
  · split
    · exact h.same
    · split
      · exact h
      · split
        · exact tryDrain_kept h _
        · exact h

/-! ### One period of the clock -/

theorem sampleOvercurrent_kept (h : Kept L b s) : Kept L b (sampleOvercurrent s) := by
  unfold sampleOvercurrent
  split
  · exact h
  · split
    · exact h.same
    · split
      · exact h.same
      · exact overcurrent_kept h

theorem sampleDetect_kept (h : Kept L b s) : Kept L b (sampleDetect s) := by
  unfold sampleDetect
  split
  · split
    · exact h
    · split
      · exact insertCard_kept h
      · exact h.same
  · split
    · exact removeCard_kept h
    · exact h.same

theorem tick_kept (h : Kept L b s) : Kept L b (tick s) := by
  unfold tick
  extract_lets s1 s2 s3 s4
  have h3 : Kept L b s3 := seeDetect_kept (sampleOvercurrent_kept (sampleSync_kept h.same _)) _
  have h4 : Kept L b s4 := by
    simp only [s4]
    split
    · exact sampleDetect_kept h3
    · exact h3
  exact h4.same

/-! ### The write of the status block, and the ends of resets, of the fill and of standby -/

theorem writePiece_kept (h : Kept L b s) (k : Nat) : Kept L b (writePiece k s) := by
  unfold writePiece
  extract_lets w
  have hw : Kept L b w := (writeRecord_kept h _ _).sameFlags (pieceGranted_sameFlags _ _)
  have hm : Kept L b { w with rqe := markChanges s w [1, 2, 3, 4, 5, 6] w.rqe } := hw.ring (markChanges_sameRing _ _ _ _)
  exact (pieceDone_kept hm k).ring (makeRaises_sameRing _)

theorem writePieces_kept (h : Kept L b s) (ks : List Nat) : Kept L b (writePieces ks s) := by
  induction ks generalizing s with
  | nil => exact h
  | cons k ks ih => exact ih (writePiece_kept h k)

theorem writtenEvent_kept (h : Kept L b s) {f g : State → State} (hf : Kept L b s → Kept L b (f s))
    (hg : ∀ u, Kept L b u → Kept L b (g u)) : Kept L b (writtenEvent s f g) :=
  finish_kept (hg _ (writePieces_kept (writePieces_kept (followUp_kept (hf h) (settle_followUp s (f s))) _) _)) _

theorem writeEmptyEntries_kept (h : Kept L b s) (es : List Nat) : Kept L b (writeEmptyEntries es s) := by
  induction es generalizing s with
  | nil => exact h
  | cons e es ih => exact ih (writeRecord_kept (writeRecord_kept h _ _) _ _)

theorem writeMirrors_kept (h : Kept L b s) : Kept L b (writeMirrors s) := by
  have h1 : Kept L b (clearAreas s) := h.memory rfl clearAreas_wf
  have h2 : Kept L b (emptyMirrors s) := writeRecord_kept (writeEmptyEntries_kept h1 _) _ _
  exact (h2.sameMap (beginRewrite_entries _ _ _) (beginRewrite_load _ _ _)).same

theorem startUp_kept (h : Kept L b s) {f : State → State} (hf : Kept L b s → Kept L b (f s)) : Kept L b (startUp s f) :=
  writtenEvent_kept h (fun h => writeMirrors_kept (hf h)) fun _ => admitWaiting_kept

theorem fillDone_kept (h : Kept L b s) : Kept L b (fillDone s) := by
  unfold fillDone
  split
  · exact startUp_kept h fun h => h.memory rfl fun _ => Memory.filled_wf
  · exact h

theorem enterStandby_kept (h : Kept L b s) : Kept L b (enterStandby s) := by
  unfold enterStandby
  split
  · exact writtenEvent_kept h (fun h => h.same) fun _ => id
  · exact h

theorem finishWake_kept (h : Kept L b s) : Kept L b (finishWake s) := by
  unfold finishWake
  split
  · exact writtenEvent_kept h (fun h => h.same) fun _ hu => mountAtWake_kept (admitWaiting_kept hu).same
  · exact h

end Engine
end Sys2Proof.Machine
end

section
/-! PROOFS. Every command keeps the queue of commands and the invariants; the statements about the machine as a whole (O1, O3 to O12). -/

namespace Sys2Proof.Machine

set_option Elab.async false

/-! ### The commands -/

section Commands

variable {s t : State} {f : State → State}

theorem event_kept (e : event s f = .next t) (hf : Kept True s s → Kept True s (f s)) : Kept True s t := by
  simp only [event, Host.Outcome.next.injEq] at e
  rw [← e]
  split
  · exact .refl _ _
  · exact finish_kept (hf (.refl _ _)) s

theorem pinEvent_kept {g : Pins → Pins} (e : pinEvent s g f = .next t) (hf : ∀ u, Kept True s u → Kept True s (f u)) :
    Kept True s t := by
  have h : Kept True s { s with pins := g s.pins } := (Kept.refl True s).same
  simp only [pinEvent, Host.Outcome.next.injEq] at e
  rw [← e]
  split
  · exact h
  · exact finish_kept (hf _ h) s

theorem served_kept {q : Request} {judge : State → State} (e : event s (serve q judge) = .next t)
    (hj : ∀ u, Kept True s u → u.stb = s.stb → Kept True s (judge u)) : Kept True s t :=
  event_kept e fun h => serve_kept h q hj

theorem reset_lines : LinesOk State.reset := by
  unfold LinesOk
  decide

theorem reset_attn : Rqe.reset.attn = attnOf Rqe.reset.flags Rqe.reset.enables := by decide

theorem pinReset_kept (s : State) : Kept True { s with resetHeld := true } (pinReset s) where
  pending := rfl
  held := rfl
  mem := id
  lines _ _ := reset_lines
  attn _ := attnOk_of_eq reset_attn
  log _ := ⟨Nat.zero_le 16, List.nodup_nil⟩
  posted _ := Nat.zero_le 8
  map _ := ⟨Nat.zero_le 8192, fun _ e => nomatch e⟩
  numbers _ _ _ hr := nomatch hr

theorem powerOn_kept (s : State) :
    Kept True { s with resetHeld := false } { State.reset with pending := s.pending, pins := s.pins } where
  pending := rfl
  held := rfl
  mem _ := rfl
  lines _ _ := reset_lines
  attn _ := attnOk_of_eq reset_attn
  log _ := ⟨Nat.zero_le 16, List.nodup_nil⟩
  posted _ := Nat.zero_le 8
  map _ := ⟨Nat.zero_le 8192, fun _ e => nomatch e⟩
  numbers _ _ _ hr := nomatch hr

theorem releaseReset_kept (s : State) : Kept True { s with resetHeld := false } (releaseReset s) := by
  unfold releaseReset
  extract_lets s1
  have h1 : Kept True { s with resetHeld := false } s1 := .refl _ _
  split
  · exact h1
  · exact startUp_kept h1 id

/-- Every command keeps the queue and the invariants; the resets alone change whether RESET_N is asserted. -/
theorem exec_kept {c : Instr} (e : exec c s = .next t) : ∃ r, Kept True { s with resetHeld := r } t := by
  cases c
  case powerOnReset => exact ⟨false, Host.Outcome.next.inj e ▸ powerOn_kept s⟩
  case pinResetAssert => exact ⟨true, Host.Outcome.next.inj e ▸ pinReset_kept s⟩
  case pinResetRelease =>
    rcases hr : s.resetHeld with _ | _
    · simp only [exec, execPinResetRelease, hr, Host.Outcome.next.injEq] at e
      exact ⟨s.resetHeld, e ▸ .refl _ _⟩
    · simp only [exec, execPinResetRelease, hr, Host.Outcome.next.injEq] at e
      exact ⟨false, e ▸ releaseReset_kept s⟩
  all_goals refine ⟨s.resetHeld, (?_ : Kept True s t)⟩
  case setSlots => exact served_kept e fun _ h _ => judgeSetSlots_kept h _
  case loadProfile => exact served_kept e fun _ h _ => judgeLoadProfile_kept h _ _
  case loadDefects => exact served_kept e fun _ h _ => judgeLoadDefects_kept h _ _
  case clearFound => exact served_kept e fun _ h _ => judgeClearFound_kept h
  case arm => exact served_kept e fun _ h hs => judgeArm_kept h (congrArg Stb.nextShot hs) _ _ _ _ _ _ _ _
  case abort => exact served_kept e fun _ h _ => judgeAbort_kept h
  case discard => exact served_kept e fun _ h _ => judgeDiscard_kept h _
  case release => exact served_kept e fun _ h _ => judgeRelease_kept h _
  case retire => exact served_kept e fun _ h _ => judgeRetire_kept h _
  case readCard => exact served_kept e fun _ h _ => judgeReadCard_kept h _ _ _ _
  case formatCard => exact served_kept e fun _ h _ => judgeFormat_kept h
  case resetCard => exact served_kept e fun _ h _ => judgeResetCard_kept h
  case clearErrlog => exact served_kept e fun _ h _ => judgeClearErrlog_kept h
  case injectCheck => exact served_kept e fun _ h _ => judgeInjectCheck_kept h _ _
  case setMonitor => exact served_kept e fun _ h _ => judgeSetMonitor_kept h _
  case setEvents => exact served_kept e fun _ h _ => judgeSetEvents_kept h _
  case standby => exact served_kept e fun _ h _ => judgeStandby_kept h
  case requestTailWordWrite => exact event_kept e fun h => observe_kept h _ fun _ h => takeTail_kept h _
  case eventClearWordWrite => exact event_kept e fun h => observe_kept h _ fun _ h => clear_kept h _
  case requestDispatch => exact event_kept e dispatch_kept
  case completionWriteDone => exact event_kept e completionWritten_kept
  case statusPieceWrite => exact event_kept e presentPiece_kept
  case statusPieceWriteDone => exact event_kept e pieceWritten_kept
  case hostBurst burst =>
    rcases hw : burst.wf with _ | _
    · simp [exec, execHostBurst, hw] at e
    · simp only [exec, execHostBurst, hw, if_true] at e
      exact event_kept e fun h => presentBurst_kept h _
  case writeBurstDelivery =>
    refine event_kept e fun h => ?_
    split
    · exact deliverHead_kept h
    · exact h
  case readoutIdleExpiry => exact event_kept e idleExpired_kept
  case dramGrant => exact event_kept e grant_kept
  case hostReadComplete => exact event_kept e hostReadDone_kept
  case partReadComplete => exact event_kept e partReadDone_kept
  case profileImageJudged => exact event_kept e judgeImage_kept
  case defectListReplace => exact event_kept e replaceMap_kept
  case defectMirrorRewriteDone => exact event_kept e rewriteDone_kept
  case scrubPaceExpiry => exact event_kept e paceExpired_kept
  case scrubReadComplete => exact event_kept e scrubReadDone_kept
  case quietAckRise =>
    simp only [exec, execQuietAckRise] at e
    exact pinEvent_kept e fun _ h => whenIn_kept h _ enterFlush_kept
  case quietAckFall =>
    simp only [exec, execQuietAckFall] at e
    refine pinEvent_kept e fun _ h => ?_
    split
    · exact setFlag_kept h _
    · exact h
  case quietWaitExpiry => exact event_kept e fun h => whenIn_kept h _ quietMissed_kept
  case flushTimeExpiry => exact event_kept e fun h => whenIn_kept h _ endFlush_kept
  case settleTimeExpiry => exact event_kept e fun h => whenIn_kept h _ enterWaiting_kept
  case syncClosureAccepted =>
    simp only [exec, execSyncClosureAccepted] at e
    refine pinEvent_kept e fun _ h => ?_
    split
    · exact h
    · exact takeClosure_kept h _
  case syncReleaseAccepted =>
    simp only [exec, execSyncReleaseAccepted] at e
    refine pinEvent_kept e fun _ h => ?_
    split
    · exact takeRelease_kept h _
    · exact h
  case syncRejectedPulse =>
    simp only [exec, execSyncRejectedPulse] at e
    refine pinEvent_kept e fun _ h => ?_
    split
    · exact h
    · exact rejectedPulse_kept h.same
  case waitLimitExpiry =>
    refine event_kept e fun h => whenIn_kept h _ fun h => ?_
    split
    · exact h
    · exact (leaveShot_kept h _).same
  case exposureLimitExpiry =>
    refine event_kept e fun h => whenIn_kept h _ fun h => ?_
    split
    · exact limitReached_kept h
    · exact h
  case windowEnd =>
    refine event_kept e fun h => whenIn_kept h _ fun h => ?_
    split
    · exact windowReached_kept h
    · exact h
  case timedDurationExpiry =>
    refine event_kept e fun h => whenIn_kept h _ fun h => ?_
    split
    · exact endIntegration_kept h _
    · exact h
  case tailTimeExpiry => exact event_kept e fun h => whenIn_kept h _ windowReached_kept
  case snsReadPulseEnd => exact event_kept e fun h => h.modExs fun x => by split <;> exact ⟨rfl, rfl, rfl, rfl, rfl⟩
  case sampleTimerExpiry => exact event_kept e fun h => h.same
  case conversionStart => exact event_kept e fun h => h.same
  case conversionComplete => exact event_kept e fun h => conversionDone_kept h _
  case cardRailPollTick =>
    refine event_kept e fun h => ?_
    split
    · exact ask_kept h _
    · exact h
  case rampTimerExpiry => exact event_kept e rampExpired_kept
  case dischargeTimerExpiry => exact event_kept e dischargeExpired_kept
  case cardInsertion =>
    simp only [exec, execCardInsertion] at e
    refine pinEvent_kept e fun _ h => ?_
    split
    · exact h
    · exact insertCard_kept (seeDetect_kept h _)
  case cardRemoval =>
    simp only [exec, execCardRemoval] at e
    refine pinEvent_kept e fun _ h => ?_
    split
    · exact removeCard_kept (seeDetect_kept h _)
    · exact h
  case cardOvercurrent => exact event_kept e overcurrent_kept
  case cardRunIssue => exact event_kept e issue_kept
  case identResponse => exact event_kept e fun h => identResponse_kept h _ _
  case cardResponse => exact event_kept e fun h => responseArrived_kept h _
  case cardBlockReceived data crc =>
    rcases hw : blockWf data with _ | _
    · simp [exec, execCardBlockReceived, hw] at e
    · simp only [exec, execCardBlockReceived, hw, if_true] at e
      exact event_kept e fun h => blockReceived_kept h _ _
  case cardWriteToken => exact event_kept e fun h => takeToken_kept h _
  case cardBusyRelease => exact event_kept e busyReleased_kept
  case responseTimeout => exact event_kept e responseFailed_kept
  case busyTimeout => exact event_kept e busyExpired_kept
  case cardNextWork => exact event_kept e nextWork_kept
  case cardReadResultWrite =>
    simp only [exec, execCardReadResultWrite] at e
    refine event_kept e fun h => ?_
    split
    · exact h
    · exact writeResult_kept h
  case standbyEntryDrained =>
    rw [← Host.Outcome.next.inj e]
    split
    · exact .refl _ _
    · exact enterStandby_kept (.refl _ _)
  case cardDetectWake =>
    simp only [exec, execCardDetectWake] at e
    exact pinEvent_kept e fun _ h => wake_kept h.same _
  case wakeDramReady =>
    rw [← Host.Outcome.next.inj e]
    split
    · exact .refl _ _
    · exact finishWake_kept (.refl _ _)
  case fillComplete =>
    rw [← Host.Outcome.next.inj e]
    split
    · exact .refl _ _
    · exact fillDone_kept (.refl _ _)

/-- Every step keeps the invariants. -/
theorem step_kept (e : step s = .next t) : ∃ ps r, Kept True { s with pending := ps, resetHeld := r } t := by
  unfold step at e
  split at e
  · rename_i c rest hp
    obtain ⟨r, h⟩ := exec_kept e
    exact ⟨rest, r, h⟩
  · exact ⟨s.pending, s.resetHeld, event_kept e tick_kept⟩

end Commands

/-! ### The statements -/

/-- Settles O3. -/
theorem commandsKeepTheQueue : Obligations.CommandsKeepTheQueue := by
  intro c s t e
  obtain ⟨r, h⟩ := exec_kept e
  exact h.pending

/-- Settles O7. -/
theorem stepKeepsMemory : Obligations.StepKeepsMemory := by
  intro s t hs e
  obtain ⟨ps, r, h⟩ := step_kept e
  exact h.mem hs

/-- Settles O8. -/
theorem stepKeepsLines : Obligations.StepKeepsLines := by
  intro s t hs e
  obtain ⟨ps, r, h⟩ := step_kept e
  exact h.lines trivial hs

/-- Settles O9. -/
theorem stepKeepsAttn : Obligations.StepKeepsAttn := by
  intro s t hs e
  obtain ⟨ps, r, h⟩ := step_kept e
  exact h.attn hs

/-- Settles O10. -/
theorem stepKeepsErrorLog : Obligations.StepKeepsErrorLog := by
  intro s t hs e
  obtain ⟨ps, r, h⟩ := step_kept e
  exact h.log hs

/-- Settles O11. -/
theorem stepKeepsBounds : Obligations.StepKeepsBounds := by
  intro s t e
  obtain ⟨ps, r, h⟩ := step_kept e
  exact ⟨h.posted, h.map, fun hs hn => h.numbers hn hs⟩

/-- Settles O1. -/
theorem stepRunsTheFrontCommand : Obligations.StepRunsTheFrontCommand := by
  intro c rest s h
  rw [step, h]

/-- Settles O6. -/
theorem resetIsSafe : Obligations.ResetIsSafe :=
  ⟨reset_mem_wf, reset_lines, attnOk_of_eq reset_attn,
    ⟨Nat.zero_le 16, List.nodup_nil⟩, Nat.zero_le 8, ⟨Nat.zero_le 8192, fun _ e => nomatch e⟩, fun _ h => nomatch h⟩

/-- Settles O5. -/
theorem resetValues : Obligations.ResetValues := by
  dsimp only [Obligations.ResetValues]
  and_intros
  all_goals decide

/-- Settles O4: the two commands a bus cannot carry are the only ones whose meaning asks whether they are well formed. -/
theorem onlyIllFormedCommandsStop : Obligations.OnlyIllFormedCommandsStop := by
  intro c s
  cases c
  case hostBurst burst =>
    refine ⟨fun h => ⟨_, if_pos h⟩, fun h => if_neg ?_⟩
    exact Bool.eq_false_iff.1 h
  case cardBlockReceived data crc =>
    refine ⟨fun h => ⟨_, if_pos h⟩, fun h => if_neg ?_⟩
    exact Bool.eq_false_iff.1 h
  all_goals exact ⟨fun _ => ⟨_, rfl⟩, fun h => (Bool.noConfusion h : False).elim⟩

/-- The end of a command marks what it changed in a piece of content. -/
theorem finish_marks (s u : State) : Marked s (finish s u) := by
  intro k h1 h6 hne
  rw [finish_statusPiece s u h1] at hne
  rw [finish_rqe]
  exact settleRqe_marks s u h6 hne

/-- Settles O12: every command but the six ends in `finish`, which marks and mirrors what it changed. -/
theorem changesAreReported : Obligations.ChangesAreReported := by
  intro c s t hr e h1 h2 h3 h4 h5 h6
  obtain ⟨f, hf⟩ | ⟨g, f, hf⟩ | hw | hf := exec_form c s
  · rw [hf, event_next f hr] at e
    exact Host.Outcome.next.inj e ▸ ⟨finish_marks s _, finish_mirrored s _⟩
  · rw [hf, pinEvent_next g f hr] at e
    exact Host.Outcome.next.inj e ▸ ⟨finish_marks s _, finish_mirrored s _⟩
  · rcases hw with hw | hw | hw | hw | hw | hw
    exacts [absurd hw h1, absurd hw h2, absurd hw h3, absurd hw h4, absurd hw h5, absurd hw h6]
  · rw [hf] at e
    exact nomatch e

end Sys2Proof.Machine
end

section
/-! PROOFS. The phase moves of a record and the slot a record gives up (R11, R13; O13, O14). First what a change of one record
leaves, then the two ways a move is made, then the statements. -/

namespace Sys2Proof.Machine

set_option Elab.async false

section Moves

variable {t : Stb} {n i : Nat} {r : ShotRecord} {p : Phase} {st : SlotState}

/-- A change that keeps the shot numbers of one shot's records does not reach those of another. -/
theorem Stb.find_update_other {f : ShotRecord → ShotRecord} (hf : ∀ q, (f q).shot = q.shot) {m : Nat} (hm : m ≠ n) :
    (t.update n f).find m = t.find m := by
  have hsame : ((fun q : ShotRecord => q.shot == m) ∘ fun q => if q.shot = n then f q else q) =
      fun q => q.shot == m := by
    funext q
    by_cases hq : q.shot = n <;> simp [hq, hf]
  rw [Stb.find, Stb.update, List.find?_map, hsame, Stb.find]
  cases hfound : t.records.find? fun q => q.shot == m with
  | none => rfl
  | some q =>
    have hq : q.shot = m := by simpa using List.find?_some hfound
    simp [hq, hm]

theorem Stb.find_freeSlot_other {m : Nat} (hm : m ≠ n) : (t.freeSlot n).find m = t.find m := by
  unfold Stb.freeSlot
  split
  · rfl
  · next i _ =>
    exact Stb.find_update_other (t := (t.setSlot i .free).unretain i) (f := fun q => { q with slot := none })
      (fun _ => rfl) hm

theorem Stb.slotState_setSlot_same (hi : i < t.slots.length) : (t.setSlot i st).slotState i = st := by
  simp [Stb.setSlot, Stb.slotState, hi]

theorem Stb.slotState_setSlot_other {j : Nat} (hj : j ≠ i) : (t.setSlot i st).slotState j = t.slotState j := by
  simp [Stb.setSlot, Stb.slotState, List.getElem?_set_ne hj.symm]

/-- Only the slot the record holds is freed. -/
theorem Stb.slotState_freeSlot_other (h : t.find n = some r) {j : Nat} (hj : r.slot ≠ some j) :
    (t.freeSlot n).slotState j = t.slotState j := by
  rcases hs : r.slot with _ | i
  · rw [Stb.freeSlot_of_none h hs]
  · have hne : j ≠ i := fun he => hj (by rw [hs, he])
    rw [Stb.freeSlot_of_some h hs]
    exact Stb.slotState_setSlot_other hne

/-- The moves of R11, as the statement lists them. -/
theorem moveAllowed_iff (a p : Phase) : moveAllowed a p = true ↔
    (a, p) ∈ [(.arming, .waiting), (.arming, .aborted), (.waiting, .exposing), (.waiting, .expired),
      (.waiting, .aborted), (.exposing, .reading), (.reading, .held), (.reading, .calibrated), (.held, .storing),
      (.held, .discarded), (.storing, .held), ((.storing, .stored) : Phase × Phase)] := by
  revert a p
  unfold moveAllowed
  intro a p
  cases a <;> cases p <;> decide

theorem Stb.move_refused (h : t.find n = some r) (hm : moveAllowed r.phase p = false) : t.move n p = t := by
  simp [Stb.move, h, hm]

/-- A move to a phase without a slot frees the record's slot. -/
theorem Stb.move_freed (h : t.find n = some r) (hm : moveAllowed r.phase p = true) (hp : p.slotState = none) :
    t.move n p = (t.update n fun q => { q with phase := p }).freeSlot n := by
  simp [Stb.move, h, hm, hp]

/-- A move to a phase with a slot keeps the record's slot and gives it the state of the phase. -/
theorem Stb.move_kept (h : t.find n = some r) (hm : moveAllowed r.phase p = true) (hp : p.slotState = some st) :
    (t.move n p).records = (t.update n fun q => { q with phase := p }).records ∧
      (t.move n p).slots = match r.slot with
        | some i => t.slots.set i st
        | none => t.slots := by
  cases hs : r.slot with
  | none => simp [Stb.move, h, hm, hp, hs, Stb.update]
  | some i =>
    by_cases hstored : p = .stored
    · subst hstored
      simp [Stb.move, h, hm, hp, hs, Stb.update, Stb.setSlot]
    · simp [Stb.move, h, hm, hp, hs, hstored, Stb.update, Stb.setSlot]

theorem Stb.find_move_kept (h : t.find n = some r) (hm : moveAllowed r.phase p = true) (hp : p.slotState = some st) :
    (t.move n p).find n = some { r with phase := p } := by
  rw [Stb.find, (Stb.move_kept h hm hp).1]
  exact Stb.find_update (f := fun q => { q with phase := p }) (fun _ => rfl) h

theorem Stb.slotState_move_kept (h : t.find n = some r) (hm : moveAllowed r.phase p = true)
    (hp : p.slotState = some st) (hs : r.slot = some i) (hi : i < t.slots.length) :
    (t.move n p).slotState i = st := by
  have hslots := (Stb.move_kept h hm hp).2
  rw [hs] at hslots
  rw [Stb.slotState, hslots]
  exact Stb.slotState_setSlot_same hi

theorem Stb.find_move_freed (h : t.find n = some r) (hm : moveAllowed r.phase p = true) (hp : p.slotState = none) :
    (t.move n p).find n = some { r with phase := p, slot := none } := by
  rw [Stb.move_freed h hm hp]
  exact Stb.find_freeSlot (Stb.find_update (f := fun q => { q with phase := p }) (fun _ => rfl) h)

theorem Stb.slotState_move_freed (h : t.find n = some r) (hm : moveAllowed r.phase p = true)
    (hp : p.slotState = none) (hs : r.slot = some i) (hi : i < t.slots.length) :
    (t.move n p).slotState i = .free := by
  rw [Stb.move_freed h hm hp]
  exact (Stb.freeSlot_frees (t := t.update n _)
    (Stb.find_update (f := fun q => { q with phase := p }) (fun _ => rfl) h) hs hi).1

theorem Stb.find_move_other (h : t.find n = some r) {m : Nat} (hmn : m ≠ n) : (t.move n p).find m = t.find m := by
  have hupd : (t.update n fun q => { q with phase := p }).find m = t.find m :=
    Stb.find_update_other (f := fun q => { q with phase := p }) (fun _ => rfl) hmn
  rcases hm : moveAllowed r.phase p with _ | _
  · rw [Stb.move_refused h hm]
  · rcases hp : p.slotState with _ | st
    · rw [Stb.move_freed h hm hp, Stb.find_freeSlot_other hmn, hupd]
    · rw [Stb.find, (Stb.move_kept h hm hp).1]
      exact hupd

theorem Stb.slotState_move_other (h : t.find n = some r) {j : Nat} (hj : r.slot ≠ some j) :
    (t.move n p).slotState j = t.slotState j := by
  rcases hm : moveAllowed r.phase p with _ | _
  · rw [Stb.move_refused h hm]
  · rcases hp : p.slotState with _ | st
    · rw [Stb.move_freed h hm hp]
      exact Stb.slotState_freeSlot_other (t := t.update n _)
        (Stb.find_update (f := fun q => { q with phase := p }) (fun _ => rfl) h) hj
    · have hslots := (Stb.move_kept h hm hp).2
      rcases hs : r.slot with _ | i
      · rw [hs] at hslots
        rw [Stb.slotState, hslots, Stb.slotState]
      · rw [hs] at hslots
        have hne : j ≠ i := fun he => hj (by rw [hs, he])
        rw [Stb.slotState, hslots]
        exact Stb.slotState_setSlot_other hne

end Moves

/-- Settles O13: the move keeps the slot or frees it, by whether the phase it goes to has a slot state. -/
theorem phaseMoves : Obligations.PhaseMoves := by
  intro t shot r p h
  rw [← moveAllowed_iff]
  refine ⟨fun hm => ⟨fun hp => ?_, fun hp => ?_⟩, fun hm => Stb.move_refused h (by simpa using hm),
    fun q hq => Stb.find_move_other h hq, fun j hj => Stb.slotState_move_other h hj⟩
  · have hst : p.slotState = some (if p = .reading then .readout else if p = .held then .held
        else if p = .storing then .draining else if p = .stored then .retained else .armed) := by
      rcases hp with rfl | rfl | rfl | rfl | rfl | rfl <;> rfl
    exact ⟨Stb.find_move_kept h hm hst, fun i hs hi => Stb.slotState_move_kept h hm hst hs hi⟩
  · have hst : p.slotState = none := by rcases hp with rfl | rfl | rfl | rfl <;> rfl
    exact ⟨Stb.find_move_freed h hm hst, fun i hs hi => Stb.slotState_move_freed h hm hst hs hi⟩

/-- Settles O14: `Stb.freeSlot` touches the slot it frees, the retained order there, and the record found. -/
theorem slotGivenUp : Obligations.SlotGivenUp := by
  intro t shot i r h hs hi
  have hfree := Stb.freeSlot_of_some h hs
  obtain ⟨hstate, hretained⟩ := Stb.freeSlot_frees h hs hi
  refine ⟨hstate, hretained, Stb.find_freeSlot h, fun j hj => ⟨?_, ?_⟩, fun q hq => Stb.find_freeSlot_other hq, ?_, ?_⟩
  · exact Stb.slotState_freeSlot_other h (by rw [hs]; simpa using hj.symm)
  · rw [hfree]
    simp [Stb.update, Stb.unretain, Stb.setSlot, hj]
  · rw [hfree]; rfl
  · rw [hfree]; rfl

end Sys2Proof.Machine
end

section
/-! PROOFS. The arbiter's choice (R62; O48). -/

namespace Sys2Proof.Machine

set_option Elab.async false

/-- The first element of a list that `f` takes decides `findSome?`. -/
theorem findSome?_eq_of_first {α β : Type} {f : α → Option β} :
    ∀ {l : List α} {j : Nat} {a : α}, l[j]? = some a → f a ≠ none →
      (∀ (i : Nat) (b : α), i < j → l[i]? = some b → f b = none) → l.findSome? f = f a
  | [], _, _, hj, _, _ => by simp at hj
  | x :: xs, 0, a, hj, ha, _ => by
    obtain rfl : x = a := by simpa using hj
    obtain ⟨b, hb⟩ := Option.ne_none_iff_exists'.mp ha
    simp [hb]
  | x :: xs, j + 1, a, hj, ha, hbefore => by
    have hx : f x = none := hbefore 0 x (Nat.succ_pos j) rfl
    have hrest := findSome?_eq_of_first (l := xs) (j := j) (f := f) (by simpa using hj) ha
      fun i b hi hb => hbefore (i + 1) b (Nat.succ_lt_succ hi) (by simpa using hb)
    simpa [List.findSome?_cons, hx] using hrest

theorem partOrder_eq_rotate {k : Nat} {start : Source}
    (h : ([.rqe, .cde, .scrubber, .prs, .dfm] : List Source)[k]? = some start) :
    partOrder start = ([.rqe, .cde, .scrubber, .prs, .dfm] : List Source).rotate k := by
  match k, h with
  | 0, h | 1, h | 2, h | 3, h | 4, h => cases h; rfl

/-- What the first step of R62 grants of a source. -/
def dueTxn (p : PassOver) (ts : List Txn) (src : Source) : Option Txn :=
  if p.get src = 16 then firstOf src ts else none

theorem dueTxn_eq_none_iff (p : PassOver) (ts : List Txn) (src : Source) :
    dueTxn p ts src = none ↔ ¬ (p.get src = 16 ∧ firstOf src ts ≠ none) := by
  simp [dueTxn]

theorem choose_eq (p : PassOver) (start : Source) (ts : List Txn) : choose p start ts =
    ((partOrder start).findSome? (dueTxn p ts)).or
      ((hostTxn ts).or ((partOrder start).findSome? fun src => firstOf src ts)) := rfl

/-- With no part source due, the host side goes first. -/
theorem choose_of_none_due {p : PassOver} {start : Source} {ts : List Txn}
    (h : ∀ src ∈ partOrder start, ¬ (p.get src = 16 ∧ firstOf src ts ≠ none)) : choose p start ts =
      (hostTxn ts).or ((partOrder start).findSome? fun src => firstOf src ts) := by
  have hnone : (partOrder start).findSome? (dueTxn p ts) = none :=
    List.findSome?_eq_none_iff.mpr fun src hsrc => (dueTxn_eq_none_iff p ts src).mpr (h src hsrc)
  rw [choose_eq, hnone, Option.none_or]

/-- A host side transaction is one of the source `host`. -/
theorem hostTxn_eq_none {ts : List Txn} (h : firstOf .host ts = none) : hostTxn ts = none := by
  have hsource : ∀ t ∈ ts, t.kind.source ≠ .host := by simpa [firstOf] using h
  have hnot (f : Txn → Bool) (hf : ∀ t, f t = true → t.kind.source = .host) : ts.find? f = none :=
    List.find?_eq_none.mpr fun t ht hft => hsource t ht (hf t hft)
  have hread := hnot (fun t => t.kind.isHostRead) fun t ht => by
    cases hk : t.kind <;> simp_all [TxnKind.isHostRead, TxnKind.source]
  have hwrite := hnot (fun t => t.kind == .hostWrite) fun t ht => by simp_all [TxnKind.source]
  have hcapture := hnot (fun t => t.kind == .captureWrite) fun t ht => by simp_all [TxnKind.source]
  rw [hostTxn, hread, hwrite, hcapture]
  rfl

theorem or_of_ne_none {α : Type} {a b : Option α} (h : a ≠ none) : a.or b = a := by
  cases a with
  | none => exact absurd rfl h
  | some x => rfl

/-- Settles O48: the three steps of `choose`, each decided by the first source that has what the step looks for. -/
theorem arbiterChoice : Obligations.ArbiterChoice := by
  intro p ts k start hstart order oldest due hostOf reads noneDue
  have horder : partOrder start = order := partOrder_eq_rotate hstart
  have hreads : reads = ts.find? fun t => t.kind.isHostRead := by
    refine congrArg (List.find? · ts) (funext fun t => ?_)
    cases t.kind <;> rfl
  have hnone (h : noneDue) : choose p start ts =
      (hostTxn ts).or (order.findSome? fun src => firstOf src ts) := by
    rw [choose_of_none_due (p := p) (by rw [horder]; exact h), horder]
  have hhost : hostTxn ts = reads.or ((hostOf .hostWrite).or (hostOf .captureWrite)) := by rw [hreads]; rfl
  refine ⟨fun j src hj hdue hfirst => ?_, fun hn hr => ?_, fun hn hr hw => ?_, fun hn hr hw hc => ?_,
    fun hn hh => ⟨fun j src hj hsrc hfirst => ?_, fun hall => ?_⟩⟩
  · have hsrc : dueTxn p ts src = oldest src := if_pos hdue.1
    rw [choose_eq, horder, findSome?_eq_of_first hj (by rw [hsrc]; exact hdue.2) fun i q hi hq =>
      (dueTxn_eq_none_iff p ts q).mpr (hfirst i q hi hq), hsrc]
    exact or_of_ne_none hdue.2
  · rw [hnone hn, hhost, or_of_ne_none hr]
    exact or_of_ne_none hr
  · rw [hnone hn, hhost, hr, Option.none_or, or_of_ne_none hw]
    exact or_of_ne_none hw
  · rw [hnone hn, hhost, hr, hw, Option.none_or, Option.none_or]
    exact or_of_ne_none hc
  · rw [hnone hn, hostTxn_eq_none hh, Option.none_or]
    exact findSome?_eq_of_first hj hsrc hfirst
  · rw [hnone hn, hostTxn_eq_none hh, Option.none_or]
    exact List.findSome?_eq_none_iff.mpr hall

end Sys2Proof.Machine
end

section
/-! PROOFS. Bus parity and the classes of a codeword (R54, R127, R128; O51). The syndrome of a codeword with errors is the
sum of the columns of the bits in error; every column has an odd number of ones, so two errors give an even one, which is
no column. -/

namespace Sys2Proof.Machine

set_option Elab.async false

/-! ### Parity -/

theorem foldl_xor_eq_countP (f : Nat → Bool) (l : List Nat) (p : Bool) :
    l.foldl (fun p k => p ^^ f k) p = (p ^^ decide (l.countP f % 2 = 1)) := by
  induction l generalizing p with
  | nil => simp
  | cons k ks ih =>
    rw [List.foldl_cons, ih, List.countP_cons]
    have hodd : decide ((ks.countP f + 1) % 2 = 1) = !decide (ks.countP f % 2 = 1) := by
      rw [← decide_not, decide_eq_decide]
      omega
    cases hk : f k <;> simp [hodd]

theorem laneOf_getLsbD (w : BitVec 32) (k : Nat) {j : Nat} (hj : j < 8) :
    (laneOf w k).getLsbD j = w.getLsbD (8 * k + j) := by
  simp [laneOf, hj]

/-- The parity of a lane, by its bits in the word. -/
theorem parityOf_laneOf (w : BitVec 32) (k : Nat) : parityOf (laneOf w k) =
    decide ((List.range 8).countP (fun j => w.getLsbD (8 * k + j)) % 2 = 1) := by
  have hcount : (List.range 8).countP (fun j => (laneOf w k).getLsbD j) =
      (List.range 8).countP (fun j => w.getLsbD (8 * k + j)) :=
    List.countP_congr fun j hj => by rw [laneOf_getLsbD w k (List.mem_range.mp hj)]
  rw [parityOf, foldl_xor_eq_countP, hcount, Bool.false_xor]

theorem parityBits_getLsbD (w : BitVec 32) {k : Nat} (hk : k < 4) :
    (parityBits w).getLsbD k = parityOf (laneOf w k) := by
  have hbits : ∀ p0 p1 p2 p3 : Bool,
      (BitVec.ofNat 4 (0 + 2 ^ 0 * bit p0 + 2 ^ 1 * bit p1 + 2 ^ 2 * bit p2 + 2 ^ 3 * bit p3)).getLsbD 0 = p0 ∧
      (BitVec.ofNat 4 (0 + 2 ^ 0 * bit p0 + 2 ^ 1 * bit p1 + 2 ^ 2 * bit p2 + 2 ^ 3 * bit p3)).getLsbD 1 = p1 ∧
      (BitVec.ofNat 4 (0 + 2 ^ 0 * bit p0 + 2 ^ 1 * bit p1 + 2 ^ 2 * bit p2 + 2 ^ 3 * bit p3)).getLsbD 2 = p2 ∧
      (BitVec.ofNat 4 (0 + 2 ^ 0 * bit p0 + 2 ^ 1 * bit p1 + 2 ^ 2 * bit p2 + 2 ^ 3 * bit p3)).getLsbD 3 = p3 := by
    decide
  obtain ⟨h0, h1, h2, h3⟩ := hbits (parityOf (laneOf w 0)) (parityOf (laneOf w 1)) (parityOf (laneOf w 2))
    (parityOf (laneOf w 3))
  match k, hk with
  | 0, _ => exact h0
  | 1, _ => exact h1
  | 2, _ => exact h2
  | 3, _ => exact h3

theorem badParity_iff (b : WriteBeat) : WriteBeat.badParity b = true ↔ ∃ k, k < 4 ∧ b.enables.getLsbD k = true ∧
    (List.range 8).countP (fun j => b.data.getLsbD (8 * k + j)) % 2 ≠ (if b.parity.getLsbD k then 1 else 0) := by
  simp only [WriteBeat.badParity, List.any_eq_true, List.mem_range, Bool.and_eq_true, bne_iff_ne, parityOf_laneOf]
  refine exists_congr fun k => and_congr_right fun _ => and_congr_right fun _ => ?_
  cases b.parity.getLsbD k <;> simp

/-! ### The check bits -/

theorem checkFrom_xor (d e : BitVec 64) (k : Nat) (cs : List (BitVec 8)) :
    checkFrom (d ^^^ e) k cs = checkFrom d k cs ^^^ checkFrom e k cs := by
  induction cs generalizing k with
  | nil => simp [checkFrom]
  | cons c cs ih =>
    have hc (x y z : BitVec 8) : x ^^^ y ^^^ z = (c ^^^ x) ^^^ (y ^^^ (c ^^^ z)) := by
      calc x ^^^ y ^^^ z = (c ^^^ c) ^^^ (x ^^^ y ^^^ z) := by simp
        _ = (c ^^^ x) ^^^ (y ^^^ (c ^^^ z)) := by ac_rfl
    simp only [checkFrom, ih, BitVec.getLsbD_xor]
    cases d.getLsbD k <;> cases e.getLsbD k
    · simp
    · simp only [Bool.false_xor, if_true, Bool.false_eq_true, if_false, BitVec.ofNat_eq_ofNat, BitVec.zero_xor]
      ac_rfl
    · simp only [Bool.xor_false, if_true, Bool.false_eq_true, if_false, BitVec.ofNat_eq_ofNat, BitVec.zero_xor]
      ac_rfl
    · simpa using hc (checkFrom d (k + 1) cs) 0 (checkFrom e (k + 1) cs)

theorem checkBits_xor (d e : BitVec 64) : checkBits (d ^^^ e) = checkBits d ^^^ checkBits e := checkFrom_xor d e 0 columns

theorem getLsbD_bit {i : Nat} (hi : i < 64) (j : Nat) : (1#64 <<< i).getLsbD j = decide (j = i) := by
  rw [BitVec.getLsbD_shiftLeft, BitVec.getLsbD_one, ← Bool.decide_and]
  simp only [← decide_not, ← Bool.decide_and, decide_eq_decide]
  omega

theorem checkFrom_eq_zero {e : BitVec 64} {cs : List (BitVec 8)} {k : Nat} (h : ∀ j, k ≤ j → e.getLsbD j = false) :
    checkFrom e k cs = 0 := by
  induction cs generalizing k with
  | nil => rfl
  | cons c cs ih => simp [checkFrom, h k (Nat.le_refl k), ih fun j hj => h j (Nat.le_of_succ_le hj)]

/-- The check bits of one bit alone are its column. -/
theorem checkFrom_bit {cs : List (BitVec 8)} {m k : Nat} {c : BitVec 8} (hm : cs[m]? = some c) (hk : k + m < 64) :
    checkFrom (1#64 <<< (k + m)) k cs = c := by
  induction cs generalizing m k with
  | nil => simp at hm
  | cons x xs ih =>
    cases m with
    | zero =>
      obtain rfl : x = c := by simpa using hm
      have hrest : checkFrom (1#64 <<< (k + 0)) (k + 1) xs = 0 :=
        checkFrom_eq_zero fun j hj => by rw [getLsbD_bit hk, decide_eq_false_iff_not]; omega
      have hbit : (1#64 <<< (k + 0)).getLsbD k = true := by simpa using getLsbD_bit hk k
      rw [checkFrom, hrest, hbit]
      simp
    | succ m =>
      have hrest := ih (m := m) (k := k + 1) (by simpa using hm) (by omega)
      have hadd : k + 1 + m = k + (m + 1) := by omega
      rw [hadd] at hrest
      have hbit : (1#64 <<< (k + (m + 1))).getLsbD k = false := by rw [getLsbD_bit hk]; simp
      rw [checkFrom, hrest, hbit]
      simp

theorem checkBits_bit (k : Nat) (hk : k < 64) : columns[k]? = some (checkBits (1#64 <<< k)) := by
  have hcolumn : columns[k]? = some columns[k] := List.getElem?_eq_getElem hk
  have hbits := checkFrom_bit (k := 0) hcolumn (by omega)
  rw [Nat.zero_add] at hbits
  rw [checkBits, hbits]
  exact hcolumn

/-- A syndrome and what it makes of a codeword (R128). -/
def classed (d : BitVec 64) (syn : BitVec 8) : Checked :=
  if syn = 0 then ⟨.clean, syn, d⟩
  else match columnIndex syn 0 columns with
    | some k => ⟨.correctable, syn, d ^^^ (1#64 <<< k)⟩
    | none =>
      if isCheckColumn syn then ⟨.correctable, syn, d⟩
      else if syn = poison then ⟨.poisoned, syn, d⟩
      else ⟨.uncorrectable, syn, d⟩

/-- A codeword whose data changed by `e` and whose check bits changed by `c`. -/
theorem classify_changed (d e : BitVec 64) (c : BitVec 8) :
    classify (d ^^^ e) (checkBits d ^^^ c) = classed (d ^^^ e) (checkBits e ^^^ c) := by
  have hsyn : checkBits (d ^^^ e) ^^^ (checkBits d ^^^ c) = checkBits e ^^^ c := by
    rw [checkBits_xor]
    calc checkBits d ^^^ checkBits e ^^^ (checkBits d ^^^ c)
        = (checkBits d ^^^ checkBits d) ^^^ (checkBits e ^^^ c) := by ac_rfl
      _ = checkBits e ^^^ c := by simp
  rw [← hsyn]
  rfl

theorem classify_data_changed (d e : BitVec 64) : classify (d ^^^ e) (checkBits d) = classed (d ^^^ e) (checkBits e) := by
  simpa using classify_changed d e 0

theorem classify_check_changed (d : BitVec 64) (c : BitVec 8) : classify d (checkBits d ^^^ c) = classed d c := by
  have hzero : checkBits 0 = 0 := checkFrom_eq_zero fun j _ => BitVec.getLsbD_zero
  have hclass := classify_changed d 0 c
  rw [hzero] at hclass
  simpa using hclass

/-! ### The columns -/

/-- The search finds a column at its place, for no column stands twice. -/
theorem columnIndex_of_nodup {cs : List (BitVec 8)} {m : Nat} {c : BitVec 8} (hm : cs[m]? = some c) (hcs : cs.Nodup)
    (k : Nat) : columnIndex c k cs = some (k + m) := by
  induction cs generalizing m k with
  | nil => simp at hm
  | cons x xs ih =>
    obtain ⟨hx, hxs⟩ := List.nodup_cons.mp hcs
    cases m with
    | zero => simp_all [columnIndex]
    | succ m =>
      have hm' : xs[m]? = some c := by simpa using hm
      have hne : x ≠ c := fun h => hx (h ▸ List.mem_of_getElem? hm')
      rw [columnIndex, if_neg hne, ih hm' hxs, Nat.add_assoc, Nat.add_comm 1]

theorem columns_nodup : columns.Nodup := by decide

theorem columnIndex_column (k : Nat) (hk : k < 64) : columnIndex (checkBits (1#64 <<< k)) 0 columns = some k := by
  simpa using columnIndex_of_nodup (checkBits_bit k hk) columns_nodup 0

theorem columns_ne_zero : ∀ c ∈ columns, c ≠ 0#8 := by decide

theorem checkBits_bit_ne_zero (k : Nat) (hk : k < 64) : checkBits (1#64 <<< k) ≠ 0#8 :=
  columns_ne_zero _ (List.mem_of_getElem? (checkBits_bit k hk))

theorem columnIndex_checkColumn : ∀ k < 8, columnIndex (1#8 <<< k) 0 columns = none := by decide

theorem checkColumn_ne_zero : ∀ k < 8, 1#8 <<< k ≠ 0#8 := by decide

theorem isCheckColumn_checkColumn : ∀ k < 8, isCheckColumn (1#8 <<< k) = true := by decide

theorem checkColumn_injective : ∀ j < 8, ∀ k < 8, 1#8 <<< j = 1#8 <<< k → j = k := by decide

theorem columnIndex_eq_none {syn : BitVec 8} {cs : List (BitVec 8)} (h : syn ∉ cs) (k : Nat) :
    columnIndex syn k cs = none := by
  induction cs generalizing k with
  | nil => rfl
  | cons c cs ih =>
    obtain ⟨hc, hcs⟩ := not_or.mp (mt List.mem_cons.mpr h)
    rw [columnIndex, if_neg (Ne.symm hc), ih hcs]

theorem column_odd : ∀ c ∈ columns, parityOf c = true := by decide

theorem checkColumn_odd : ∀ k < 8, parityOf (1#8 <<< k) = true := by decide

theorem checkBits_bit_odd (k : Nat) (hk : k < 64) : parityOf (checkBits (1#64 <<< k)) = true :=
  column_odd _ (List.mem_of_getElem? (checkBits_bit k hk))

theorem foldl_xor_xor (f g : Nat → Bool) (l : List Nat) (p q : Bool) :
    l.foldl (fun p k => p ^^ (f k ^^ g k)) (p ^^ q) =
      (l.foldl (fun p k => p ^^ f k) p ^^ l.foldl (fun p k => p ^^ g k) q) := by
  induction l generalizing p q with
  | nil => rfl
  | cons k ks ih =>
    have hstep : (p ^^ q ^^ (f k ^^ g k)) = ((p ^^ f k) ^^ (q ^^ g k)) := by
      cases p <;> cases q <;> cases f k <;> cases g k <;> rfl
    rw [List.foldl_cons, hstep, ih, List.foldl_cons, List.foldl_cons]

theorem parityOf_xor (a b : BitVec 8) : parityOf (a ^^^ b) = (parityOf a ^^ parityOf b) := by
  simp only [parityOf, BitVec.getLsbD_xor]
  exact foldl_xor_xor a.getLsbD b.getLsbD _ false false

/-- An even syndrome is no column: it is never taken for a single error. -/
theorem classed_even {syn : BitVec 8} (hne : syn ≠ 0#8) (heven : parityOf syn = false) (d : BitVec 64) :
    classed d syn = if syn = poison then ⟨.poisoned, syn, d⟩ else ⟨.uncorrectable, syn, d⟩ := by
  have hcolumn : columnIndex syn 0 columns = none :=
    columnIndex_eq_none (fun hm => by simp [column_odd syn hm] at heven) 0
  have hcheck : isCheckColumn syn = false := by
    rw [isCheckColumn, List.any_eq_false]
    intro k hk he
    rw [beq_iff_eq] at he
    rw [he, checkColumn_odd k (List.mem_range.mp hk)] at heven
    cases heven
  simp [classed, hne, hcolumn, hcheck]

/-- Two different errors: neither none nor a single one. -/
theorem classed_two {a b : BitVec 8} (hab : a ≠ b) (ha : parityOf a = true) (hb : parityOf b = true) (d : BitVec 64) :
    (classed d (a ^^^ b)).cls = .poisoned ∨ (classed d (a ^^^ b)).cls = .uncorrectable := by
  have hne : a ^^^ b ≠ 0#8 := fun h => hab (BitVec.xor_eq_zero_iff.mp h)
  rw [classed_even hne (by rw [parityOf_xor, ha, hb]; rfl)]
  split <;> simp

theorem checkBits_bit_injective {j k : Nat} (hj : j < 64) (hk : k < 64)
    (h : checkBits (1#64 <<< j) = checkBits (1#64 <<< k)) : j = k := by
  have hindex := columnIndex_column j hj
  rw [h, columnIndex_column k hk] at hindex
  exact (Option.some.inj hindex).symm

theorem checkBits_bit_ne_checkColumn {j k : Nat} (hj : j < 64) (hk : k < 8) : checkBits (1#64 <<< j) ≠ 1#8 <<< k := by
  intro h
  have hindex := columnIndex_column j hj
  rw [h, columnIndex_checkColumn k hk] at hindex
  cases hindex

/-- Settles O51: each clause is the class of a syndrome. -/
theorem parityAndCodewords : Obligations.ParityAndCodewords := by
  refine ⟨fun b w => ⟨badParity_iff b, fun k hk => ?_⟩, fun d => ⟨?_, fun k hk => ?_, fun k hk => ?_, ?_,
    fun j k hj hk hjk => ?_, fun j k hj hk hjk => ?_, fun j k hj hk => ?_⟩⟩
  · rw [parityBits_getLsbD w hk, parityOf_laneOf]
  · simpa [classed] using classify_check_changed d 0
  · refine ⟨_, checkBits_bit k hk, ?_⟩
    rw [classify_data_changed]
    simp [classed, columnIndex_column k hk, checkBits_bit_ne_zero k hk]
  · rw [classify_check_changed]
    simp [classed, checkColumn_ne_zero k hk, columnIndex_checkColumn k hk, isCheckColumn_checkColumn k hk]
  · have heven : parityOf poison = false := by decide
    exact (classify_check_changed d poison).trans ((classed_even (by decide) heven d).trans (if_pos rfl))
  · rw [BitVec.xor_assoc, classify_data_changed, checkBits_xor]
    exact classed_two (fun h => hjk (checkBits_bit_injective hj hk h)) (checkBits_bit_odd j hj)
      (checkBits_bit_odd k hk) _
  · rw [BitVec.xor_assoc, classify_check_changed]
    exact classed_two (fun h => hjk (checkColumn_injective j hj k hk h)) (checkColumn_odd j hj) (checkColumn_odd k hk) _
  · rw [classify_changed]
    exact classed_two (checkBits_bit_ne_checkColumn hj hk) (checkBits_bit_odd j hj) (checkColumn_odd k hk) _

end Sys2Proof.Machine
end

section
/-! PROOFS. Frames: the fields the end of a command leaves as they were, and what each change of one component of the state
leaves. -/

namespace Sys2Proof.Machine

set_option Elab.async false

/-! ### The end of a command, field by field -/

section Fields

variable (b u : State)

@[simp] theorem finish_hmp_queue : (finish b u).hmp.queue = u.hmp.queue := (congrArg Hmp.queue (finish_followUp b u).hmp :)
@[simp] theorem finish_hmp_waiting : (finish b u).hmp.waiting = u.hmp.waiting := (congrArg Hmp.waiting (finish_followUp b u).hmp :)
@[simp] theorem finish_hmp_nextId : (finish b u).hmp.nextId = u.hmp.nextId := (congrArg Hmp.nextId (finish_followUp b u).hmp :)
@[simp] theorem finish_hmp_path : (finish b u).hmp.path = u.hmp.path := (congrArg Hmp.path (finish_followUp b u).hmp :)
@[simp] theorem finish_hmp_wake : (finish b u).hmp.wake = u.hmp.wake := (congrArg Hmp.wake (finish_followUp b u).hmp :)
@[simp] theorem finish_hmp_sleepAsked : (finish b u).hmp.sleepAsked = u.hmp.sleepAsked :=
  (congrArg Hmp.sleepAsked (finish_followUp b u).hmp :)
@[simp] theorem finish_hmp_guardDrops : (finish b u).hmp.guardDrops = u.hmp.guardDrops :=
  (congrArg Hmp.guardDrops (finish_followUp b u).hmp :)
@[simp] theorem finish_hmp_outOfRange : (finish b u).hmp.outOfRange = u.hmp.outOfRange :=
  (congrArg Hmp.outOfRange (finish_followUp b u).hmp :)
@[simp] theorem finish_hmp_response : (finish b u).hmp.response = u.hmp.response :=
  (congrArg Hmp.response (finish_followUp b u).hmp :)
@[simp] theorem finish_fmc_active : (finish b u).fmc.active = u.fmc.active := (congrArg Fmc.active (finish_followUp b u).fmc :)
@[simp] theorem finish_fmc_passOver : (finish b u).fmc.passOver = u.fmc.passOver :=
  (congrArg Fmc.passOver (finish_followUp b u).fmc :)
@[simp] theorem finish_fmc_nextPart : (finish b u).fmc.nextPart = u.fmc.nextPart :=
  (congrArg Fmc.nextPart (finish_followUp b u).fmc :)
@[simp] theorem finish_fmc_errlog : (finish b u).fmc.errlog = u.fmc.errlog := (congrArg Fmc.errlog (finish_followUp b u).fmc :)
@[simp] theorem finish_fmc_overflow : (finish b u).fmc.overflow = u.fmc.overflow :=
  (congrArg Fmc.overflow (finish_followUp b u).fmc :)
@[simp] theorem finish_fmc_corrGeneral : (finish b u).fmc.corrGeneral = u.fmc.corrGeneral :=
  (congrArg Fmc.corrGeneral (finish_followUp b u).fmc :)
@[simp] theorem finish_fmc_corrFrame : (finish b u).fmc.corrFrame = u.fmc.corrFrame :=
  (congrArg Fmc.corrFrame (finish_followUp b u).fmc :)
@[simp] theorem finish_fmc_corrControl : (finish b u).fmc.corrControl = u.fmc.corrControl :=
  (congrArg Fmc.corrControl (finish_followUp b u).fmc :)
@[simp] theorem finish_fmc_uncorrectable : (finish b u).fmc.uncorrectable = u.fmc.uncorrectable :=
  (congrArg Fmc.uncorrectable (finish_followUp b u).fmc :)
@[simp] theorem finish_fmc_logUpdate : (finish b u).fmc.logUpdate = u.fmc.logUpdate :=
  (congrArg Fmc.logUpdate (finish_followUp b u).fmc :)
@[simp] theorem finish_fmc_injection : (finish b u).fmc.injection = u.fmc.injection :=
  (congrArg Fmc.injection (finish_followUp b u).fmc :)
@[simp] theorem finish_fmc_corrected : (finish b u).fmc.corrected = u.fmc.corrected :=
  (congrArg Fmc.corrected (finish_followUp b u).fmc :)
@[simp] theorem finish_fmc_scrubPos : (finish b u).fmc.scrubPos = u.fmc.scrubPos :=
  (congrArg Fmc.scrubPos (finish_followUp b u).fmc :)
@[simp] theorem finish_fmc_passes : (finish b u).fmc.passes = u.fmc.passes := (congrArg Fmc.passes (finish_followUp b u).fmc :)
@[simp] theorem finish_fmc_pace : (finish b u).fmc.pace = u.fmc.pace := (congrArg Fmc.pace (finish_followUp b u).fmc :)
@[simp] theorem finish_fmc_scrub : (finish b u).fmc.scrub = u.fmc.scrub := (congrArg Fmc.scrub (finish_followUp b u).fmc :)
@[simp] theorem finish_amn_queue : (finish b u).amn.queue = u.amn.queue := (congrArg Amn.queue (finish_followUp b u).amn :)
@[simp] theorem finish_service : (settleRqe b u).service = u.rqe.service := (settleRqe_sameRing b u).service
@[simp] theorem finish_lastAnswer : (settleRqe b u).lastAnswer = u.rqe.lastAnswer := (settleRqe_sameRing b u).lastAnswer
@[simp] theorem finish_flags : (settleRqe b u).flags = u.rqe.flags := (settleRqe_sameRing b u).flags
@[simp] theorem finish_enables : (settleRqe b u).enables = u.rqe.enables := (settleRqe_sameRing b u).enables
@[simp] theorem finish_attn : (settleRqe b u).attn = u.rqe.attn := (settleRqe_sameRing b u).attn
@[simp] theorem finish_head : (settleRqe b u).head = u.rqe.head := (settleRqe_sameRing b u).head
@[simp] theorem finish_tail : (settleRqe b u).tail = u.rqe.tail := (settleRqe_sameRing b u).tail
@[simp] theorem finish_completionNo : (settleRqe b u).completionNo = u.rqe.completionNo :=
  (settleRqe_sameRing b u).completionNo
@[simp] theorem finish_ringFaults : (settleRqe b u).ringFaults = u.rqe.ringFaults := (settleRqe_sameRing b u).ringFaults
@[simp] theorem finish_observed : (settleRqe b u).observed = u.rqe.observed := (settleRqe_sameRing b u).observed
@[simp] theorem finish_carried : (settleRqe b u).carried = u.rqe.carried := (settleRqe_sameRing b u).carried
@[simp] theorem finish_resetCause : (settleRqe b u).resetCause = u.rqe.resetCause := (settleRqe_sameRing b u).resetCause

/-- The monitor at the end of a command, but for its stop. -/
@[simp] theorem finish_amn (x y : Bool) : { (finish b u).amn with stopped := x, stopAsked := y } =
    { u.amn with stopped := x, stopAsked := y } :=
  (congrArg (fun a : Amn => { a with stopped := x, stopAsked := y }) (finish_followUp b u).amn :)

/-- A transaction that waits still waits at the command's end. -/
theorem finish_waits {x : Txn} (h : x ∈ u.fmc.pending) : x ∈ (finish b u).fmc.pending := by
  obtain ⟨ts, hts⟩ := (finish_followUp b u).added
  rw [hts]
  exact List.mem_append_left _ h

/-- A mirror write that waits still waits at the command's end. -/
theorem finish_queued {j : MirrorJob} (h : j ∈ u.rqe.jobs) : j ∈ (finish b u).rqe.jobs := by
  obtain ⟨js, hjs, -⟩ := settleRqe_jobs b u
  rw [finish_rqe, hjs]
  exact List.mem_append_left _ h

end Fields

/-! ### Changes of one component -/

section Components

variable (s : State)

def withExs (x : Exs) (s : State) : State := { s with exs := x }

theorem withExs_onlyChanges (x : Exs) (s : State) : OnlyChanges [.exs] s (withExs x s) := by
  refine ⟨rfl, fun p hp _ => ?_⟩
  cases p <;> simp_all [Part.agree, withExs]

def withPrs (x : Prs) (s : State) : State := { s with prs := x }

theorem withPrs_onlyChanges (x : Prs) (s : State) : OnlyChanges [.prs] s (withPrs x s) := by
  refine ⟨rfl, fun p hp _ => ?_⟩
  cases p <;> simp_all [Part.agree, withPrs]

def withPce (x : Pce) (s : State) : State := { s with pce := x }

theorem withPce_onlyChanges (x : Pce) (s : State) : OnlyChanges [.pce] s (withPce x s) := by
  refine ⟨rfl, fun p hp _ => ?_⟩
  cases p <;> simp_all [Part.agree, withPce]

def withDfm (x : Dfm) (s : State) : State := { s with dfm := x }

theorem withDfm_onlyChanges (x : Dfm) (s : State) : OnlyChanges [.dfm] s (withDfm x s) := by
  refine ⟨rfl, fun p hp _ => ?_⟩
  cases p <;> simp_all [Part.agree, withDfm]

def withCde (x : Cde) (s : State) : State := { s with cde := x }

theorem withCde_onlyChanges (x : Cde) (s : State) : OnlyChanges [.cde] s (withCde x s) := by
  refine ⟨rfl, fun p hp _ => ?_⟩
  cases p <;> simp_all [Part.agree, withCde]

def withAmn (x : Amn) (s : State) : State := { s with amn := x }

theorem withAmn_onlyChanges (x : Amn) (s : State) : OnlyChanges [.monitor] s (withAmn x s) := by
  refine ⟨rfl, fun p hp hf => ?_⟩
  cases p <;> simp_all [Part.agree, withAmn, followUp]

def withPins (x : Pins) (s : State) : State := { s with pins := x }

theorem withPins_onlyChanges (x : Pins) (s : State) : OnlyChanges [.pins] s (withPins x s) := by
  refine ⟨rfl, fun p hp _ => ?_⟩
  cases p <;> simp_all [Part.agree, withPins]

def withMem (x : Memory) (s : State) : State := { s with mem := x }

theorem withMem_onlyChanges (x : Memory) (s : State) : OnlyChanges [.mem] s (withMem x s) := by
  refine ⟨rfl, fun p hp _ => ?_⟩
  cases p <;> simp_all [Part.agree, withMem]

def withRqe (x : Rqe) (s : State) : State := { s with rqe := x }

/-- A change of the engine in what a follow-up changes. -/
theorem rqe_onlyChanges {q : Rqe} (h : SameRing s.rqe q) : OnlyChanges [] s (withRqe q s) :=
  (withRqe_followUp s h).onlyChanges []

theorem raise_onlyChanges (f : EventFlag) : OnlyChanges [] s (raise f s) := rqe_onlyChanges s (raise_sameRing _ f)

theorem mark_onlyChanges (k : Nat) : OnlyChanges [] s (mark k s) := rqe_onlyChanges s (mark_sameRing _ k)

theorem present_onlyChanges (x : Txn) : OnlyChanges [] s (present x s) := (present_followUp x s).onlyChanges []

theorem rewriteShot_onlyChanges (n : Nat) : OnlyChanges [] s (rewriteShot n s) := by
  unfold rewriteShot
  split
  · exact rqe_onlyChanges s (mirrorShot_sameRing _ _ _)
  · exact OnlyChanges.refl _ s

theorem rewriteShots_onlyChanges (ns : List Nat) : OnlyChanges [] s (rewriteShots ns s) := by
  induction ns generalizing s with
  | nil => exact OnlyChanges.refl _ s
  | cons n ns ih => exact (rewriteShot_onlyChanges s n).trans (ih _)

end Components

/-- A step of a command's effect after others, whose frame lies in theirs. -/
theorem OnlyChanges.andThen {ps qs : List Part} {s t u : State} (h : OnlyChanges ps s t) (k : OnlyChanges qs t u)
    (hq : ∀ p ∈ qs, p ∈ ps := by decide) : OnlyChanges ps s u := h.trans (k.mono hq)

/-- A frame read in a larger one. -/
theorem OnlyChanges.within {ps qs : List Part} {s t : State} (h : OnlyChanges qs s t)
    (hq : ∀ p ∈ qs, p ∈ ps := by decide) : OnlyChanges ps s t := h.mono hq

/-! ### One more change, in a frame -/

section Chain

variable {ps : List Part} {b s : State} (h : OnlyChanges ps b s)

include h

theorem OnlyChanges.stb (x : Stb) (hp : .stb ∈ ps := by decide) : OnlyChanges ps b (withStb x s) :=
  h.andThen (withStb_onlyChanges x s) (by simpa using hp)

theorem OnlyChanges.exs (x : Exs) (hp : .exs ∈ ps := by decide) : OnlyChanges ps b (withExs x s) :=
  h.andThen (withExs_onlyChanges x s) (by simpa using hp)

theorem OnlyChanges.prs (x : Prs) (hp : .prs ∈ ps := by decide) : OnlyChanges ps b (withPrs x s) :=
  h.andThen (withPrs_onlyChanges x s) (by simpa using hp)

theorem OnlyChanges.pce (x : Pce) (hp : .pce ∈ ps := by decide) : OnlyChanges ps b (withPce x s) :=
  h.andThen (withPce_onlyChanges x s) (by simpa using hp)

theorem OnlyChanges.dfm (x : Dfm) (hp : .dfm ∈ ps := by decide) : OnlyChanges ps b (withDfm x s) :=
  h.andThen (withDfm_onlyChanges x s) (by simpa using hp)

theorem OnlyChanges.cde (x : Cde) (hp : .cde ∈ ps := by decide) : OnlyChanges ps b (withCde x s) :=
  h.andThen (withCde_onlyChanges x s) (by simpa using hp)

theorem OnlyChanges.amn (x : Amn) (hp : .monitor ∈ ps := by decide) : OnlyChanges ps b (withAmn x s) :=
  h.andThen (withAmn_onlyChanges x s) (by simpa using hp)

theorem OnlyChanges.pins (x : Pins) (hp : .pins ∈ ps := by decide) : OnlyChanges ps b (withPins x s) :=
  h.andThen (withPins_onlyChanges x s) (by simpa using hp)

theorem OnlyChanges.mem (x : Memory) (hp : .mem ∈ ps := by decide) : OnlyChanges ps b (withMem x s) :=
  h.andThen (withMem_onlyChanges x s) (by simpa using hp)

theorem OnlyChanges.ring {q : Rqe} (hq : SameRing s.rqe q) : OnlyChanges ps b (withRqe q s) :=
  h.andThen (rqe_onlyChanges s hq) (by simp)

theorem OnlyChanges.raised (f : EventFlag) : OnlyChanges ps b (raise f s) := h.andThen (raise_onlyChanges s f) (by simp)

theorem OnlyChanges.marked (k : Nat) : OnlyChanges ps b (mark k s) := h.andThen (mark_onlyChanges s k) (by simp)

theorem OnlyChanges.presented (x : Txn) : OnlyChanges ps b (present x s) :=
  h.andThen (present_onlyChanges s x) (by simp)

theorem OnlyChanges.rewritten (n : Nat) : OnlyChanges ps b (rewriteShot n s) :=
  h.andThen (rewriteShot_onlyChanges s n) (by simp)

theorem OnlyChanges.rewrittenAll (ns : List Nat) : OnlyChanges ps b (rewriteShots ns s) :=
  h.andThen (rewriteShots_onlyChanges s ns) (by simp)

end Chain

/-- An event whose effect is known. -/
theorem event_to {s u : State} {f : State → State} (h : s.resetHeld = false) (hf : f s = u) :
    event s f = .next (finish s u) := by
  rw [event_next f h, hf]

/-- A change of a pin whose effect is known. -/
theorem pinEvent_to {s u : State} {g : Pins → Pins} {f : State → State} (h : s.resetHeld = false)
    (hf : f (withPins (g s.pins) s) = u) : pinEvent s g f = .next (finish s u) := by
  rw [pinEvent_next g f h, ← hf, withPins]

end Sys2Proof.Machine
end

section
/-! PROOFS. The monitor's schedule (R148; O54). -/

namespace Sys2Proof.Machine

set_option Elab.async false

theorem Amn.sweeping_iff (a : Amn) :
    a.sweeping = true ↔ a.sweep ≠ none ∨ ∃ c, a.conv = some c ∧ c.demand = none := by
  simp [Amn.sweeping, Option.any_eq_true, Option.isSome_iff_ne_none]

/-- A change of the monitor to `a`, which leaves its stop. -/
theorem monitor_next {s : State} {f : Amn → Amn} {a : Amn} (h : s.resetHeld = false) (hf : f s.amn = a)
    (hs : a.stopped = s.amn.stopped) (hk : a.stopAsked = s.amn.stopAsked) :
    ∃ t, event s (modAmn f) = .next t ∧
      { t.amn with stopped := s.amn.stopped, stopAsked := s.amn.stopAsked } = a ∧ OnlyChanges [.monitor] s t := by
  refine ⟨_, event_next _ h, ?_, ((OnlyChanges.refl [.monitor] s).amn _).finish s⟩
  rw [finish_amn, ← hs, ← hk, modAmn_amn, hf]

theorem exec_sampleTimerExpiry (s : State) : exec .sampleTimerExpiry s = event s (modAmn Amn.sampleExpiry) := rfl

theorem exec_conversionStart (s : State) : exec .conversionStart s = event s (modAmn Amn.startNext) := rfl

/-- Settles O54: `Amn.sampleExpiry` and `Amn.startNext`, branch by branch. -/
theorem monitorSchedule : Obligations.MonitorSchedule := by
  intro s h hstopped same sweeping
  have hsweeping : sweeping ↔ s.amn.sweeping = true := s.amn.sweeping_iff.symm
  rw [exec_sampleTimerExpiry, exec_conversionStart, hsweeping]
  refine ⟨fun hsw => ?_, fun hsw => ?_, fun hconv hask => ⟨fun d more hq => ?_, fun c hq hsweep => ?_, fun hq hsweep => ?_⟩⟩
  · exact monitor_next h (by simp [Amn.sampleExpiry, hstopped, hsw, Amn.restartTimer]) rfl rfl
  · exact monitor_next h (by simp [Amn.sampleExpiry, hstopped, hsw, Amn.restartTimer]) rfl rfl
  · refine monitor_next h ?_ rfl rfl
    cases d <;> simp [Amn.startNext, hconv, hstopped, hask, hq, Amn.begin, Demand.channel, Config.conversionTime]
  · refine monitor_next h ?_ rfl rfl
    cases c <;> simp [Amn.startNext, hconv, hstopped, hask, hq, hsweep, Amn.begin, Channel.after, Config.conversionTime]
  · have hidle : s.amn.startNext = s.amn := by simp [Amn.startNext, hconv, hstopped, hask, hq, hsweep]
    have hsame : modAmn Amn.startNext s = s := by rw [modAmn, hidle]
    exact ⟨finish s s, by rw [event_next _ h, hsame], finish_amn s s _ _, (OnlyChanges.refl [] s).finish s⟩

end Sys2Proof.Machine
end

section
/-! PROOFS. The sync filter's rejected pulse, the SNS_READ pulse and the quiet handshake (R24, R29, R30, R32, R37; O29, O33). -/

namespace Sys2Proof.Machine

set_option Elab.async false

/-! ### The commands as events -/

section Commands

variable (s : State)

theorem exec_syncRejectedPulse : exec .syncRejectedPulse s = pinEvent s (fun p => { p with syncClosed := false })
    fun t => if t.exs.sync.closed then t else rejectedPulse (endRunOfSamples t) := rfl

theorem exec_snsReadPulseEnd : exec .snsReadPulseEnd s =
    event s (modExs fun x => if x.pulse.isSome then { x with snsRead := false, pulse := none } else x) := rfl

theorem exec_quietAckRise : exec .quietAckRise s =
    pinEvent s (fun p => { p with quietAck := true }) (whenIn .quieting enterFlush) := rfl

theorem exec_quietAckFall : exec .quietAckFall s = pinEvent s (fun p => { p with quietAck := false }) fun t =>
    if t.exs.quietReq ∧ s.pins.quietAck then setFlag (fun f => { f with quietBroken := true }) t else t := rfl

theorem exec_quietWaitExpiry : exec .quietWaitExpiry s = event s (whenIn .quieting quietMissed) := rfl

end Commands

/-! ### The running shot -/

section Shot

variable {s : State} {e : Exposure} {p : Profile}

theorem modShot_of_current (h : s.exs.current = some e) (f : ShotRecord → ShotRecord) :
    modShot f s = { s with stb := s.stb.update e.shot f } := by
  simp only [modShot, h]

theorem moveShot_of_current (h : s.exs.current = some e) (q : Phase) :
    moveShot q s = { s with stb := s.stb.move e.shot q } := by
  simp only [moveShot, h]

theorem setFlag_of_current (h : s.exs.current = some e) (f : RecordFlags → RecordFlags) :
    setFlag f s = { s with stb := s.stb.update e.shot fun r => { r with flags := f r.flags } } :=
  modShot_of_current h _

theorem profileTime_of_live (h : s.exs.current = some e) (hp : s.prs.live e.profile = some p) (f : Profile → Nat) :
    profileTime f s = 1000 * f p := by
  simp [profileTime, shotProfile, h, hp, natOr0]

theorem enterFlush_of_live (h : s.exs.current = some e) (hp : s.prs.live e.profile = some p) :
    enterFlush s = { s with exs := s.exs.enterFor .flush (1000 * p.flushTime) } := by
  simp only [enterFlush, profileTime_of_live h hp, modExs]

theorem whenIn_of_eq {q : SeqState} (h : s.exs.seq = q) (f : State → State) : whenIn q f s = f s := if_pos h

theorem whenIn_of_ne {q : SeqState} (h : s.exs.seq ≠ q) (f : State → State) : whenIn q f s = s := if_neg h

end Shot

theorem Phase.timed_iff (p : Phase) : p.timed = true ↔ p = .arming ∨ p = .waiting ∨ p = .exposing := by
  cases p <;> simp [Phase.timed]

/-! ### The statements -/

/-- Settles O33: both commands change the lines of one component, the pulse also the records it is counted in. -/
theorem rejectedPulseAndReadPulse : Obligations.RejectedPulseAndReadPulse := by
  intro s h
  rw [exec_syncRejectedPulse, exec_snsReadPulseEnd]
  refine ⟨fun hclosed => ?_, fun hpulse => ?_⟩
  · have hopen : ¬ s.exs.sync.closed = true := by simp [hclosed]
    refine ⟨_, pinEvent_to h (if_neg hopen), by rw [finish_exs]; rfl, ?_, by rw [finish_pins]; rfl, ?_⟩
    · simp [rejectedPulse, endRunOfSamples, withPins, Phase.timed_iff, satAdd, max8]
    · exact ((((OnlyChanges.refl [.exs, .stb, .pins] s).pins _).exs _).stb _).finish s
  · refine ⟨_, event_next _ h, ?_, ((OnlyChanges.refl [.exs] s).exs _).finish s⟩
    rw [finish_exs, modExs_exs, if_pos hpulse]

/-- Settles O29: the handshake acts in QUIETING, or on the record, and on nothing else. -/
theorem quietHandshake : Obligations.QuietHandshake := by
  intro s h
  rw [exec_quietAckRise, exec_quietAckFall, exec_quietWaitExpiry]
  refine ⟨fun hseq => ?_, fun hquiet => ?_, fun e r p hcur hfind hlive => ⟨fun hseq => ?_, fun hreq hack => ?_,
    fun hseq => ?_⟩⟩
  · exact ⟨_, pinEvent_to h (whenIn_of_ne (by exact hseq) _), finish_pins _ _, ((OnlyChanges.refl [.pins] s).pins _).finish s⟩
  · have hnot : ¬ (s.exs.quietReq = true ∧ s.pins.quietAck = true) := by
      rintro ⟨hreq, hack⟩
      simp_all
    exact ⟨_, pinEvent_to h (if_neg hnot), finish_pins _ _, ((OnlyChanges.refl [.pins] s).pins _).finish s⟩
  · exact ⟨_, pinEvent_to h ((whenIn_of_eq (by exact hseq) _).trans
      (enterFlush_of_live (by exact hcur) (by exact hlive))), finish_exs _ _,
      finish_pins _ _, (((OnlyChanges.refl [.exs, .pins] s).pins _).exs _).finish s⟩
  · exact ⟨_, pinEvent_to h ((if_pos ⟨hreq, hack⟩).trans (setFlag_of_current (by exact hcur) _)), finish_stb _ _, finish_pins _ _,
      (((OnlyChanges.refl [.stb, .pins] s).pins _).stb _).finish s⟩
  · have hmissed := (congrArg enterFlush (setFlag_of_current hcur fun f => { f with quietMissed := true })).trans
      (enterFlush_of_live (s := withStb _ s) (p := p) hcur hlive)
    exact ⟨_, event_to h ((whenIn_of_eq hseq _).trans hmissed), finish_exs _ _, finish_stb _ _,
      (((OnlyChanges.refl [.stb, .exs] s).stb _).exs _).finish s⟩

end Sys2Proof.Machine
end

section
/-! PROOFS. A closure the filter accepts, by the sequencer's state (R35, R38 to R44; O31). -/

namespace Sys2Proof.Machine

set_option Elab.async false

/-! ### What the filter's acceptance does -/

section Closure

variable {s : State} {e : Exposure} {n : Nat}

/-- The state with the filter's accepted state replaced and its run over. -/
def accepted (closed : Bool) (s : State) : State := withExs { s.exs with sync := s.exs.sync.accept closed } s

/-- What the sequencer makes of an accepted closure, by its state. -/
theorem takeClosure_eq (n : Nat) (s : State) : takeClosure n s = match s.exs.seq with
    | .idle => wake .sync (missedSync (accepted true s))
    | .quieting | .flush | .settle =>
      modShot (fun r => { r with early := satAdd max8 r.early 1, flags := { r.flags with earlySync := true } })
        (accepted true s)
    | .waiting =>
      (match s.exs.current with
      | some e => if e.mode = .timed then missedSync (accepted true s) else closureInWaiting n e (accepted true s)
      | none => accepted true s)
    | .opened | .tail => accepted true s := rfl

theorem wake_of_run {c : WakeCause} (h : s.hmp.path = .run) : wake c s = s := by
  simp only [wake, h]

theorem takeClosure_idle (hseq : s.exs.seq = .idle) (hpath : s.hmp.path = .run) :
    takeClosure n s = missedSync (accepted true s) := by
  simp only [takeClosure_eq, hseq]
  exact wake_of_run hpath

theorem takeClosure_early (hseq : s.exs.seq = .quieting ∨ s.exs.seq = .flush ∨ s.exs.seq = .settle)
    (hcur : s.exs.current = some e) : takeClosure n s = withStb (s.stb.update e.shot fun r =>
      { r with early := min 255 (r.early + 1), flags := { r.flags with earlySync := true } }) (accepted true s) := by
  rcases hseq with hseq | hseq | hseq <;> simp only [takeClosure_eq, hseq] <;>
    exact modShot_of_current (s := accepted true s) hcur _

theorem takeClosure_open (hseq : s.exs.seq = .opened ∨ s.exs.seq = .tail) : takeClosure n s = accepted true s := by
  rcases hseq with hseq | hseq <;> simp only [takeClosure_eq, hseq]

theorem takeClosure_timed (hseq : s.exs.seq = .waiting) (hcur : s.exs.current = some e) (hm : e.mode = .timed) :
    takeClosure n s = missedSync (accepted true s) := by
  simp only [takeClosure_eq, hseq, hcur, if_pos hm]

theorem takeClosure_waiting (hseq : s.exs.seq = .waiting) (hcur : s.exs.current = some e) (hm : e.mode ≠ .timed) :
    takeClosure n s = startExposure (laterOf s.exs.timeBase n e.entry) false (accepted true s) := by
  simp only [takeClosure_eq, hseq, hcur, if_neg hm]
  rfl

/-- The exposure opened: the sequencer's part of it (R39, R40, R42). -/
def openedExs (x : Exs) (e : Exposure) (start : Nat) (early : Bool) : Exs :=
  { x.enterFor .opened (1000 * e.duration - 10 * since x.timeBase start) with
    current := some { e with start := start, accepted := x.timeBase, early := early } }

/-- An exposure that has not already run its duration opens (R39, R40, R42). -/
theorem startExposure_opens {start : Nat} {early : Bool} (hcur : s.exs.current = some e)
    (h : 10 * since s.exs.timeBase start < 1000 * e.duration) : startExposure start early s =
      withStb (s.stb.move e.shot .exposing) (withExs (openedExs s.exs e start early) s) := by
  simp only [startExposure, hcur, if_neg (Nat.not_le.mpr h)]
  exact moveShot_of_current (s := withExs (openedExs s.exs e start early) s)
    (e := { e with start := start, accepted := s.exs.timeBase, early := early }) rfl _

theorem missedSync_eq (s : State) : missedSync s = raise .missedSync
    (withStb { s.stb with records := s.stb.records.map fun r =>
        if r.phase = .reading then { r with missed := min 255 (r.missed + 1) } else r }
      (withExs { s.exs with missed := min 4294967295 (s.exs.missed + 1) } s)) := rfl

end Closure

theorem exec_syncClosureAccepted (first : BitVec 32) (s : State) : exec (.syncClosureAccepted first) s =
    pinEvent s (fun p => { p with syncClosed := true })
      fun t => if t.exs.sync.closed then t else takeClosure first.toNat t := rfl

/-! ### The statement -/

/-- Settles O31: one case for each branch of `takeClosure`. -/
theorem closureAccepted : Obligations.ClosureAccepted := by
  intro first s h hclosed sync pins missed
  have hopen : ¬ s.exs.sync.closed = true := by simp [hclosed]
  have ho : OnlyChanges [.exs, .stb, .pins] s (accepted true (withPins pins s)) :=
    ((OnlyChanges.refl _ s).pins pins).exs _
  have hmissed (hu : takeClosure first.toNat (withPins pins s) = missedSync (accepted true (withPins pins s))) :
      ∃ t, exec (.syncClosureAccepted first) s = .next t ∧ missed t := by
    rw [missedSync_eq] at hu
    rw [exec_syncClosureAccepted]
    refine ⟨_, pinEvent_to h ((if_neg (by exact hopen)).trans hu), finish_exs _ _, ?_, finish_pins _ _,
      finish_raised _ _ (by simp), (((ho.exs _).stb _).raised .missedSync).finish s⟩
    rw [finish_stb]
    rfl
  rw [exec_syncClosureAccepted] at *
  refine ⟨fun hseq hpath => hmissed (takeClosure_idle hseq hpath), fun hseq => ?_, fun e hcur =>
    ⟨fun hseq => ?_, fun hseq hm => hmissed (takeClosure_timed hseq hcur hm), fun hseq hm => ?_⟩⟩
  · exact ⟨_, pinEvent_to h ((if_neg (by exact hopen)).trans (takeClosure_open (by exact hseq))), finish_exs _ _,
      finish_pins _ _, (((OnlyChanges.refl [.exs, .pins] s).pins pins).exs _).finish s⟩
  · exact ⟨_, pinEvent_to h ((if_neg (by exact hopen)).trans (takeClosure_early (by exact hseq) (by exact hcur))),
      finish_exs _ _, finish_stb _ _, finish_pins _ _, (ho.stb _).finish s⟩
  · intro now start hrun
    have hstart := startExposure_opens (s := accepted true (withPins pins s)) (start := start) (early := false)
      (by exact hcur) hrun
    exact ⟨_, pinEvent_to h ((if_neg (by exact hopen)).trans
      ((takeClosure_waiting (by exact hseq) (by exact hcur) hm).trans hstart)),
      finish_exs _ _, finish_stb _ _, finish_pins _ _, ((ho.exs _).stb _).finish s⟩

end Sys2Proof.Machine
end

section
/-! PROOFS. Flush, settle and the entry to WAITING (R33, R34, R39, R43, R148, R156; O30). -/

namespace Sys2Proof.Machine

set_option Elab.async false

/-! ### The pieces of the entry -/

section Waiting

variable {s : State} {e : Exposure} {p : Profile}

/-- A TEMP start request that waits leaves its record as it is when another takes its place (R50, R148). -/
theorem ask_tempStart (n : Nat) (s : State) :
    ask (.tempStart n) s = withAmn { s.amn with queue := queuedFor (.tempStart n) s.amn.queue } s := by
  unfold ask queuedFor
  cases hf : s.amn.queue.find? fun d => d.samePurpose (.tempStart n) with
  | none =>
    have hany : s.amn.queue.any (·.samePurpose (.tempStart n)) = false := by simpa using hf
    rw [hany]
    rfl
  | some d =>
    have hsame : d.samePurpose (.tempStart n) = true := by simpa using List.find?_some hf
    have hany : s.amn.queue.any (·.samePurpose (.tempStart n)) = true :=
      List.any_eq_true.mpr ⟨d, List.mem_of_find?_eq_some hf, hsame⟩
    rw [hany]
    cases d with
    | tempStart m => rfl
    | tempEnd m => cases hsame
    | card => cases hsame

/-- The table with TEMP_WARN in the records it is due in (R156). -/
def warnedStb (l : TempLevel) (t : Stb) : Stb :=
  if l = .normal then t
  else { t with records := t.records.map fun r =>
    if r.phase = .waiting ∨ r.phase = .exposing then { r with flags := { r.flags with tempWarn := true } } else r }

theorem Phase.warned_iff (p : Phase) : p.warned = true ↔ p = .waiting ∨ p = .exposing := by
  cases p <;> simp [Phase.warned]

theorem warnRecord_eq (s : State) : warnRecord s = if s.amn.tempLevel = .normal then s
    else rewriteShots ((s.stb.records.filter fun r => r.phase.warned).map (·.shot))
      (withStb (warnedStb s.amn.tempLevel s.stb) s) := by
  unfold warnRecord
  split
  · rfl
  · next h => simp only [warnedStb, if_neg h, Phase.warned_iff, withStb]

theorem rewriteShot_ring (n : Nat) (s : State) : ∃ q, SameRing s.rqe q ∧ rewriteShot n s = withRqe q s := by
  unfold rewriteShot
  split
  · exact ⟨_, mirrorShot_sameRing _ _ _, rfl⟩
  · exact ⟨_, SameRing.refl _, rfl⟩

theorem rewriteShots_ring (ns : List Nat) (s : State) : ∃ q, SameRing s.rqe q ∧ rewriteShots ns s = withRqe q s := by
  induction ns generalizing s with
  | nil => exact ⟨_, SameRing.refl _, rfl⟩
  | cons n ns ih =>
    obtain ⟨q, hq, he⟩ := rewriteShot_ring n s
    obtain ⟨r, hr, hs⟩ := ih (rewriteShot n s)
    rw [he] at hr hs
    exact ⟨r, hq.trans hr, by rw [rewriteShots, he, hs]; rfl⟩

/-- The records warned: the table, and the engine in what a follow-up changes. -/
theorem warnRecord_cases (s : State) : ∃ q, SameRing s.rqe q ∧
    warnRecord s = withRqe q (withStb (warnedStb s.amn.tempLevel s.stb) s) := by
  rw [warnRecord_eq]
  split
  · next h => exact ⟨_, SameRing.refl _, by simp [warnedStb, h, withStb, withRqe]⟩
  · exact rewriteShots_ring _ (withStb (warnedStb s.amn.tempLevel s.stb) s)

/-- The sequencer in WAITING, before its timer is set (R34). -/
def waitingExs (x : Exs) (e : Exposure) : Exs :=
  { x.enter .waiting with current := some { e with entry := x.timeBase, start := x.timeBase } }

/-- The state in which WAITING begins, before the modes part: the record moved and warned, the start temperature asked
for (R34, R148, R156). -/
structure BegunWaiting (e : Exposure) (s u : State) : Prop where
  exs : u.exs = waitingExs s.exs e
  stb : u.stb = warnedStb s.amn.tempLevel (s.stb.move e.shot .waiting)
  queue : u.amn.queue = queuedFor (.tempStart e.shot) s.amn.queue
  frame : OnlyChanges [.exs, .stb, .monitor] s u

/-- WAITING is entered: what the shot's mode and the contact make of it (R34, R39, R43). -/
theorem enterWaiting_eq (hcur : s.exs.current = some e) : ∃ u, BegunWaiting e s u ∧ enterWaiting s =
    if e.mode = .timed then withExs { u.exs with timer := some (1000 * e.duration) } u
    else if u.exs.sync.closed then startExposure s.exs.timeBase true
      (if e.closedBefore then modShot (fun r =>
        { r with early := satAdd max8 r.early 1, flags := { r.flags with earlySync := true } }) u else u)
    else withExs { u.exs with timer := some (1000000 * e.waitLimit) } u := by
  let x := waitingExs s.exs e
  let moved := withStb (s.stb.move e.shot .waiting) (withExs x s)
  have hmove : moveShot .waiting (withExs x s) = moved :=
    moveShot_of_current (s := withExs x s) (e := { e with entry := s.exs.timeBase, start := s.exs.timeBase }) rfl .waiting
  obtain ⟨q, hq, hwarn⟩ := warnRecord_cases moved
  let warned := withRqe q (withStb (warnedStb s.amn.tempLevel moved.stb) moved)
  let u := withAmn { s.amn with queue := queuedFor (.tempStart e.shot) s.amn.queue } warned
  have hbegun : ask (.tempStart e.shot) (warnRecord (moveShot .waiting (withExs x s))) = u := by
    rw [hmove, hwarn, ask_tempStart]
    rfl
  have hframe : OnlyChanges [.exs, .stb, .monitor] s moved := ((OnlyChanges.refl _ s).exs _).stb _
  refine ⟨u, ⟨rfl, rfl, rfl, ((hframe.stb (warnedStb s.amn.tempLevel moved.stb)).ring hq).amn _⟩, ?_⟩
  rw [← hbegun]
  simp only [enterWaiting, hcur]
  rfl

/-- The end of the flush time (R33). -/
theorem endFlush_of_live (hcur : s.exs.current = some e) (hp : s.prs.live e.profile = some p) : endFlush s =
    if 1000 * p.settleTime = 0 then enterWaiting (withExs (s.exs.enterFor .settle (1000 * p.settleTime)) s)
    else withExs (s.exs.enterFor .settle (1000 * p.settleTime)) s := by
  rw [endFlush, profileTime_of_live hcur hp]
  rfl

/-- WAITING is entered with `x` as the sequencer and `t` as the table after it. -/
def Enters (e : Exposure) (s : State) (x : Exs) (t : Stb) : Prop :=
  (enterWaiting s).exs = x ∧ (enterWaiting s).stb = t ∧
    (enterWaiting s).amn.queue = queuedFor (.tempStart e.shot) s.amn.queue ∧
    OnlyChanges [.exs, .stb, .monitor] s (enterWaiting s)

/-- A shot that waits for a closure (R34). -/
theorem enters_waiting (hcur : s.exs.current = some e) (hm : e.mode ≠ .timed) (hc : s.exs.sync.closed = false) :
    Enters e s { waitingExs s.exs e with timer := some (1000000 * e.waitLimit) }
      (warnedStb s.amn.tempLevel (s.stb.move e.shot .waiting)) := by
  obtain ⟨u, ⟨hexs, hstb, hqueue, hframe⟩, he⟩ := enterWaiting_eq hcur
  have hopen : ¬ u.exs.sync.closed = true := by
    rw [hexs]
    exact ne_of_eq_of_ne hc (by decide)
  rw [if_neg hm, if_neg hopen, hexs] at he
  unfold Enters
  rw [he]
  exact ⟨rfl, hstb, hqueue, hframe.exs _⟩

/-- A TIMED shot (R43). -/
theorem enters_timed (hcur : s.exs.current = some e) (hm : e.mode = .timed) :
    Enters e s { waitingExs s.exs e with timer := some (1000 * e.duration) }
      (warnedStb s.amn.tempLevel (s.stb.move e.shot .waiting)) := by
  obtain ⟨u, ⟨hexs, hstb, hqueue, hframe⟩, he⟩ := enterWaiting_eq hcur
  rw [if_pos hm, hexs] at he
  unfold Enters
  rw [he]
  exact ⟨rfl, hstb, hqueue, hframe.exs _⟩

/-- A shot that finds the contact closed starts early (R39). -/
theorem enters_early (hcur : s.exs.current = some e) (hm : e.mode ≠ .timed) (hc : s.exs.sync.closed = true)
    (hd : 0 < e.duration) :
    let warned := warnedStb s.amn.tempLevel (s.stb.move e.shot .waiting)
    let counted := if e.closedBefore then warned.update e.shot fun q =>
      { q with early := min 255 (q.early + 1), flags := { q.flags with earlySync := true } } else warned
    Enters e s (openedExs (waitingExs s.exs e) { e with entry := s.exs.timeBase, start := s.exs.timeBase }
      s.exs.timeBase true) (counted.move e.shot .exposing) := by
  intro warned counted
  obtain ⟨u, ⟨hexs, hstb, hqueue, hframe⟩, he⟩ := enterWaiting_eq hcur
  let e' := { e with entry := s.exs.timeBase, start := s.exs.timeBase }
  have hcur' : u.exs.current = some e' := by rw [hexs]; rfl
  have hcounted : (if e.closedBefore then modShot (fun r =>
        { r with early := satAdd max8 r.early 1, flags := { r.flags with earlySync := true } }) u else u) =
      withStb counted u := by
    by_cases hb : e.closedBefore = true
    · rw [if_pos hb, modShot_of_current hcur', hstb]
      simp only [counted, if_pos hb]
      rfl
    · rw [if_neg hb]
      simp only [counted, if_neg hb]
      rw [withStb, show warned = u.stb from hstb.symm]
  have hbase : (withStb counted u).exs.timeBase = s.exs.timeBase := by
    show u.exs.timeBase = _
    rw [hexs]
    rfl
  have hzero : since s.exs.timeBase s.exs.timeBase = 0 := by simp [since]
  have hstart := startExposure_opens (s := withStb counted u) (e := e') (start := s.exs.timeBase) (early := true)
    hcur' (by rw [hbase, hzero]; exact Nat.mul_pos (by decide) hd)
  have hclosed : u.exs.sync.closed = true := by
    rw [hexs]
    exact hc
  rw [if_neg hm, if_pos hclosed, hcounted, hstart] at he
  unfold Enters
  rw [he]
  refine ⟨?_, rfl, hqueue, ((hframe.stb _).exs _).stb _⟩
  show openedExs u.exs e' _ _ = _
  rw [hexs]

end Waiting

theorem exec_flushTimeExpiry (s : State) : exec .flushTimeExpiry s = event s (whenIn .flush endFlush) := rfl

theorem exec_settleTimeExpiry (s : State) : exec .settleTimeExpiry s = event s (whenIn .settle enterWaiting) := rfl

/-! ### The statement -/

/-- Settles O30: the ways on are those of `enterWaiting`, from the settle stage or straight from the flush. -/
theorem flushSettleWait : Obligations.FlushSettleWait := by
  intro s e r p h hcur hfind hlive
  refine ⟨fun hseq hsettle => ?_, fun i hi => ?_⟩
  · have hpos : ¬ 1000 * p.settleTime = 0 := by omega
    rw [exec_flushTimeExpiry]
    exact ⟨_, event_to h ((whenIn_of_eq hseq _).trans ((endFlush_of_live hcur hlive).trans (if_neg hpos))),
      finish_exs _ _, ((OnlyChanges.refl [.exs] s).exs _).finish s⟩
  · intro e' moved entered counted enters waits
    obtain ⟨x, hx, f, hexec, hf⟩ : ∃ x : Exs, (x = s.exs ∨ x = s.exs.enterFor .settle 0) ∧
        ∃ f, exec i s = event s f ∧ f s = enterWaiting (withExs x s) := by
      rcases hi with ⟨hseq, hsettle, rfl⟩ | ⟨hseq, rfl⟩
      · refine ⟨_, .inr rfl, _, exec_flushTimeExpiry s, (whenIn_of_eq hseq _).trans ?_⟩
        rw [endFlush_of_live hcur hlive, hsettle]
        rfl
      · exact ⟨_, .inl rfl, _, exec_settleTimeExpiry s, whenIn_of_eq hseq _⟩
    have hcur' : (withExs x s).exs.current = some e := by rcases hx with rfl | rfl <;> exact hcur
    have hsync : (withExs x s).exs.sync = s.exs.sync := by rcases hx with rfl | rfl <;> rfl
    have henters {y z : Exs} {st st' : Stb} (hy : Enters e (withExs x s) z st') (hz : z = y) (hst : st' = st) :
        enters y st := by
      obtain ⟨hexs, hstb, hqueue, hframe⟩ := hy
      refine ⟨_, hexec.trans (event_to h hf), ?_, ?_, ?_, ?_⟩
      · rw [finish_exs, hexs, hz]
      · rw [finish_stb, hstb, hst]
      · rw [finish_amn_queue, hqueue]
        rfl
      · exact (((OnlyChanges.refl _ s).exs x).andThen hframe).finish s
    refine ⟨fun hm hc => ?_, fun hm => ?_, fun hm hc hd => ?_⟩
    · refine henters (enters_waiting hcur' hm (by rw [hsync, hc])) ?_ rfl
      rcases hx with rfl | rfl <;> rfl
    · refine henters (enters_timed hcur' hm) ?_ rfl
      rcases hx with rfl | rfl <;> rfl
    · refine henters (enters_early hcur' hm (by rw [hsync, hc]) hd) ?_ rfl
      rcases hx with rfl | rfl <;> simp [openedExs, waitingExs, Exs.enterFor, Exs.enter, since, withExs, e']

end Sys2Proof.Machine
end

section
/-! PROOFS. The return to IDLE, and a shot left before its exposure (R24, R45, R46, R51, R78; O26). -/

namespace Sys2Proof.Machine

set_option Elab.async false

/-! ### The return to IDLE -/

section Idle

variable {s : State} {e : Exposure}

/-- With no power-up held and no container nothing waits for QUIET_REQ to fall. -/
theorem quietFell_of_quiescent (h : s.cde.powerUp ≠ some .quiet) (hc : s.cde.container = none) : quietFell s = s := by
  simp [quietFell, h, sumNext, hc]

/-- The lines released (R45, R46, R48). -/
def linesReleased (x : Exs) : Exs := { x with quietReq := false, snsFlush := false, snsInteg := false, readyOut := false }

theorem releaseLines_of_quiescent (h : Quiescent s) : releaseLines s = withExs (linesReleased s.exs) s :=
  quietFell_of_quiescent (s := withExs (linesReleased s.exs) s) h.2.1 h.2.2

/-- The state with another debounce in use. -/
def debounced (n : Nat) (s : State) : State := withExs { s.exs with sync := { s.exs.sync with debounce := n } } s

theorem setDebounce_eq (n : Nat) (s : State) : setDebounce n s = match (debounced n s).exs.sync.run with
    | some r => if n ≤ r.length then acceptIdle r.closed (debounced n s) else debounced n s
    | none => debounced n s := rfl

theorem setDebounce_of_no_run (h : s.exs.sync.run = none) (n : Nat) : setDebounce n s = debounced n s := by
  have hrun : (debounced n s).exs.sync.run = none := h
  rw [setDebounce_eq, hrun]

theorem returnIdle_of_no_run (h : s.exs.sync.run = none) : returnIdle s = withExs (idled s.exs) s :=
  setDebounce_of_no_run (s := modExs (fun e => { e.enter .idle with current := none, timer := none }) s) h _

/-- A shot that leaves before any readout: its record moved, the sequencer IDLE (R45, R46). -/
def shotLeft (p : Phase) (e : Exposure) (s : State) : State := withExs (idled s.exs) (withStb (s.stb.move e.shot p) s)

theorem leaveShot_of_quiescent (h : Quiescent s) (hcur : s.exs.current = some e) (p : Phase) :
    leaveShot p s = releaseProfile e.profile (shotLeft p e s) := by
  have hmove : moveShot p (withExs (linesReleased s.exs) s) = withExs (linesReleased s.exs) (withStb (s.stb.move e.shot p) s) :=
    moveShot_of_current (s := withExs (linesReleased s.exs) s) hcur p
  simp only [leaveShot, hcur]
  rw [releaseLines_of_quiescent h, hmove, returnIdle_of_no_run (by exact h.1)]
  rfl

theorem shotLeft_onlyChanges (p : Phase) (e : Exposure) (s : State) : OnlyChanges [.stb, .exs] s (shotLeft p e s) :=
  ((OnlyChanges.refl _ s).stb _).exs _

end Idle

/-! ### The profile given up (R51, R78) -/

section Profile

variable {s : State} {n : Nat}

theorem releaseProfile_of_none (h : ∀ x, s.prs.entries[n]? = some x → x.waiting = none) : releaseProfile n s = s := by
  unfold releaseProfile
  split
  · next x hx =>
    rw [h x hx]
  · rfl

/-- The image that waited is live (R78). -/
def applied (n : Nat) (p : Profile) (s : State) : State :=
  raise .profileApplied (mark 1 (withPrs { s.prs with entries := s.prs.entries.set n ⟨some p, none⟩ } s))

theorem releaseProfile_of_waiting {x : ProfileEntry} {p : Profile} (hx : s.prs.entries[n]? = some x)
    (hw : x.waiting = some p) : releaseProfile n s = applied n p s := by
  simp only [releaseProfile, hx, hw]
  rfl

theorem applied_marked (n : Nat) (p : Profile) (s : State) : 1 ∈ (applied n p s).rqe.marked :=
  (mem_mark _ 1 1).2 (.inr rfl)

theorem applied_raises (n : Nat) (p : Profile) (s : State) :
    { flag := .profileApplied, hold := none } ∈ (applied n p s).rqe.raises := by
  simp [applied]

end Profile

/-! ### The commands -/

theorem exec_abort (s : State) : exec .abort s = event s (serve .abort judgeAbort) := rfl

theorem exec_waitLimitExpiry (s : State) : exec .waitLimitExpiry s =
    event s (whenIn .waiting fun t => if shotMode t = some .timed then t else expireShot t) := rfl

theorem judgeAbort_before_exposure {s : State} {e : Exposure} (hcur : s.exs.current = some e)
    (hseq : s.exs.seq = .quieting ∨ s.exs.seq = .flush ∨ s.exs.seq = .settle ∨ s.exs.seq = .waiting) :
    judgeAbort s = abortAnswer e.shot (leaveShot .aborted s) := by
  rcases hseq with hseq | hseq | hseq | hseq <;> simp only [judgeAbort, hseq, hcur]

theorem abortAnswer_of_find {s : State} {n : Nat} {r : ShotRecord} (h : s.stb.find n = some r) :
    abortAnswer n s = answer ⟨.done, le 4 n ++ le 1 r.phase.code⟩ s := by
  simp [abortAnswer, abortResult, h]

/-! ### The statement -/

section Left

variable {s : State} {e : Exposure} {r : ShotRecord} {i : Nat}

/-- ABORT before the exposure, the shot left as `g` says. -/
theorem abort_leaves {g : State → State} (h : Taken .abort s) (hq : Quiescent s) (hcur : s.exs.current = some e)
    (hfind : s.stb.find e.shot = some r) (hseq : ((s.exs.seq = .quieting ∨ s.exs.seq = .flush ∨ s.exs.seq = .settle) ∧
      r.phase = .arming ∨ s.exs.seq = .waiting ∧ r.phase = .waiting))
    (hg : ∀ v, releaseProfile e.profile (shotLeft .aborted e (withService v s)) = g (shotLeft .aborted e (withService v s)))
    (hstb : ∀ u, (g u).stb = u.stb) (hservice : ∀ u, (g u).rqe.service = u.rqe.service) :
    ∃ v u, exec .abort s = .next (finish s u) ∧ Answered ⟨.done, le 4 e.shot ++ [8]⟩ s (finish s u) ∧
      OnlyChanges [.service] (g (shotLeft .aborted e (withService v s))) (finish s u) ∧
      u.rqe.marked = (g (shotLeft .aborted e (withService v s))).rqe.marked ∧
      u.rqe.raises = (g (shotLeft .aborted e (withService v s))).rqe.raises := by
  have hall : s.exs.seq = .quieting ∨ s.exs.seq = .flush ∨ s.exs.seq = .settle ∨ s.exs.seq = .waiting := by
    rcases hseq with ⟨h1 | h1 | h1, -⟩ | ⟨h1, -⟩ <;> simp [h1]
  have hmove : moveAllowed r.phase .aborted = true := by
    rcases hseq with ⟨-, hp⟩ | ⟨-, hp⟩ <;> rw [hp] <;> rfl
  have hj (v : Service) : judgeAbort (withService v s) =
      answer ⟨.done, le 4 e.shot ++ [8]⟩ (g (shotLeft .aborted e (withService v s))) := by
    rw [judgeAbort_before_exposure (s := withService v s) hcur hall,
      leaveShot_of_quiescent (s := withService v s) hq hcur, hg v]
    exact abortAnswer_of_find (s := g (shotLeft .aborted e (withService v s)))
      (r := { r with phase := .aborted, slot := none })
      (by rw [hstb]; exact Stb.find_move_freed hfind hmove rfl)
  obtain ⟨v, u, hserve, hanswered, ho, -, -, -, -, -, -, -, -, -, -, -, -, -, hmarked, hraises, -⟩ :=
    taken_answered h (g := fun t => g (shotLeft .aborted e t)) hj fun v => hservice _
  refine ⟨v, u, ?_, hanswered, ho, hmarked, hraises⟩
  rw [exec_abort, event_next _ h.1, hserve]

/-- The wait limit running out, the shot left as `u` says. -/
theorem waitLimit_leaves {u : State} (h : s.resetHeld = false) (hq : Quiescent s) (hcur : s.exs.current = some e)
    (hseq : s.exs.seq = .waiting) (hm : e.mode ≠ .timed)
    (hu : releaseProfile e.profile (shotLeft .expired e s) = u) :
    exec .waitLimitExpiry s = .next (finish s (raise .expired u)) := by
  have hmode : ¬ shotMode s = some .timed := by simpa [shotMode, hcur] using hm
  rw [exec_waitLimitExpiry]
  refine event_to h ((whenIn_of_eq hseq _).trans ((if_neg hmode).trans ?_))
  rw [expireShot, leaveShot_of_quiescent hq hcur, hu]

end Left

/-- Settles O26: `leaveShot` gives the shot up, and `releaseProfile` has an image to apply or none. -/
theorem shotLeftBeforeExposure : Obligations.ShotLeftBeforeExposure := by
  intro s e r i hq hcur hfind hslot none? applies
  refine ⟨fun h hseq => ⟨fun hnone => ?_, fun x p hx hw => ?_⟩,
    fun h hseq hp hm => ⟨fun hnone => ?_, fun x p hx hw => ?_⟩⟩
  · obtain ⟨v, u, hexec, ha, ho, -, -⟩ := abort_leaves (g := id) h hq hcur hfind hseq
      (fun v => releaseProfile_of_none hnone) (fun _ => rfl) fun _ => rfl
    have hframe : OnlyChanges [.stb, .exs, .service] s (shotLeft .aborted e (withService v s)) :=
      ((withService_onlyChanges v s).within).andThen (shotLeft_onlyChanges .aborted e _)
    exact ⟨_, hexec, ⟨ho.2 .stb (by decide) (by decide), ho.2 .exs (by decide) (by decide), ha⟩, hframe.andThen ho⟩
  · obtain ⟨v, u, hexec, ha, ho, hmarked, hraises⟩ := abort_leaves (g := applied e.profile p) h hq hcur hfind hseq
      (fun v => releaseProfile_of_waiting hx hw) (fun _ => rfl) fun u => (mark_sameRing u.rqe 1).service
    have hframe : OnlyChanges [.stb, .exs, .prs, .service] s
        (applied e.profile p (shotLeft .aborted e (withService v s))) :=
      (((((withService_onlyChanges v s).within).andThen (shotLeft_onlyChanges .aborted e _)).prs _).marked 1).raised _
    have hprs : (finish s u).prs = { s.prs with entries := s.prs.entries.set e.profile ⟨some p, none⟩ } :=
      ho.2 .prs (by decide) (by decide)
    refine ⟨_, hexec, ⟨ho.2 .stb (by decide) (by decide), ho.2 .exs (by decide) (by decide), ha⟩,
      ⟨by rw [hprs], by rw [hprs], finish_marked _ _ ?_, finish_raised _ _ ?_⟩, hframe.andThen ho⟩
    · rw [hmarked]
      exact applied_marked _ _ _
    · rw [hraises]
      exact applied_raises _ _ _
  · have hframe := (shotLeft_onlyChanges .expired e s).raised .expired
    exact ⟨_, waitLimit_leaves h hq hcur hseq hm (releaseProfile_of_none hnone),
      ⟨finish_stb _ _, finish_exs _ _, finish_raised _ _ (by simp)⟩, hframe.finish s⟩
  · have hframe : OnlyChanges [.stb, .exs, .prs] s (raise .expired (applied e.profile p (shotLeft .expired e s))) :=
      (((((shotLeft_onlyChanges .expired e s).within).prs _).marked 1).raised _).raised _
    refine ⟨_, waitLimit_leaves h hq hcur hseq hm (releaseProfile_of_waiting hx hw),
      ⟨finish_stb _ _, finish_exs _ _, finish_raised _ _ (by simp)⟩, ⟨?_, ?_, ?_, ?_⟩, hframe.finish s⟩
    · rw [finish_prs]
      rfl
    · rw [finish_prs]
      rfl
    · exact finish_marked _ _ (applied_marked _ _ _)
    · exact finish_raised _ _ (List.mem_append_left _ (applied_raises _ _ _))

end Sys2Proof.Machine
end

section
/-! PROOFS. The end of integration (R40 to R43, R46, R48, R49, R94; O27, O28, O32). First the TEMP end request, then the
moves of the record, then the ten steps of R48 as one change of the state, then the statements. -/

namespace Sys2Proof.Machine

set_option Elab.async false

/-! ### The TEMP end request (R94, R148) -/

section Ask

variable {s : State} {n : Nat}

theorem shotDark_of_live {r : ShotRecord} {g : Profile} (ho : ∀ o, s.pce.readout = some o → o.shot ≠ r.shot)
    (hg : s.prs.live r.profile = some g) (ht : r.tempEnd = none) :
    shotDark r s = offsetOf g r (r.tempStart.getD 100) := by
  have himage : darkImage r s = some g := by
    unfold darkImage
    cases hread : s.pce.readout with
    | none => exact hg
    | some o => rw [← hg]; exact if_neg (ho o hread)
  have htemp : shotTemperature r.tempStart r.tempEnd = r.tempStart.getD 100 := by
    rw [ht]
    cases r.tempStart <;> rfl
  simp only [shotDark, himage, htemp]
  rfl

theorem giveOffset_of_other {d : Nat} (ho : ∀ o, s.pce.readout = some o → o.shot ≠ n) : giveOffset n d s = s := by
  unfold giveOffset
  split
  · next o hread => exact if_neg fun h => ho o hread h.1
  · rfl

/-- A mirror write queued by `rewriteShot`. -/
theorem rewriteShot_queues {r : ShotRecord} (h : s.stb.find n = some r) :
    ∃ u, MirrorJob.shotEntry r.entry (some r) u 0 ∈ (rewriteShot n s).rqe.jobs := by
  refine ⟨wrapSucc (s.rqe.updates.getD r.entry 0), ?_⟩
  simp only [rewriteShot, h, Rqe.mirrorShot]
  exact List.mem_append_right _ (List.mem_singleton.mpr rfl)

/-- A TEMP end request answered without a value: the dark offset of its shot's record, and the record's rewrite (R94). -/
theorem answerTempEnd_void (ho : ∀ o, s.pce.readout = some o → o.shot ≠ n) : ∃ T q, SameRing s.rqe q ∧
    answerTempEnd n none s = withRqe q (withStb T s) ∧ (T = s.stb ∨ ∃ d, T = s.stb.update n fun r => { r with dark := d }) ∧
    ∀ r g, s.stb.find n = some r → r.tempEnd = none → s.prs.live r.profile = some g →
      let r' := { r with dark := offsetOf g r (r.tempStart.getD 100) }
      T.find n = some r' ∧ ∃ u, MirrorJob.shotEntry r.entry (some r') u 0 ∈ q.jobs := by
  cases hfind : s.stb.find n with
  | none =>
    refine ⟨s.stb, s.rqe, SameRing.refl _, ?_, .inl rfl, fun r g h => nomatch h⟩
    simp only [answerTempEnd, hfind]
    rfl
  | some r =>
    have hr : r.shot = n := by simpa using List.find?_some hfind
    let d := shotDark r s
    let T := s.stb.update n fun r => { r with dark := d }
    have hT : T.find n = some { r with dark := d } := Stb.find_update (fun _ => rfl) hfind
    obtain ⟨q, hq, he⟩ := rewriteShot_ring n (withStb T s)
    refine ⟨T, q, hq, ?_, .inr ⟨d, rfl⟩, fun r' g h ht hg => ?_⟩
    · simp only [answerTempEnd, hfind]
      rw [← he]
      exact giveOffset_of_other (s := rewriteShot n (withStb T s)) (by rw [he]; exact ho)
    · obtain rfl := Option.some.inj h
      have hd : d = offsetOf g r (r.tempStart.getD 100) := shotDark_of_live (by rw [hr]; exact ho) hg ht
      rw [← hd]
      obtain ⟨u, hu⟩ := rewriteShot_queues (s := withStb T s) hT
      rw [he] at hu
      exact ⟨hT, u, hu⟩

/-- The TEMP end request of a shot: it waits, and one that waited is answered without a value. -/
theorem ask_tempEnd (ho : ∀ m o, Demand.tempEnd m ∈ s.amn.queue → s.pce.readout = some o → o.shot ≠ m) :
    ∃ T q, SameRing s.rqe q ∧ ask (.tempEnd n) s =
        withRqe q (withStb T (withAmn { s.amn with queue := queuedFor (.tempEnd n) s.amn.queue } s)) ∧
      (T = s.stb ∨ ∃ m d, T = s.stb.update m fun r => { r with dark := d }) ∧
      ∀ m r g, s.amn.queue.find? (·.samePurpose (.tempEnd n)) = some (.tempEnd m) → s.stb.find m = some r →
        r.tempEnd = none → s.prs.live r.profile = some g →
        let r' := { r with dark := offsetOf g r (r.tempStart.getD 100) }
        T.find m = some r' ∧ ∃ u, MirrorJob.shotEntry r.entry (some r') u 0 ∈ q.jobs := by
  unfold ask queuedFor
  cases hf : s.amn.queue.find? fun d => d.samePurpose (.tempEnd n) with
  | none =>
    have hany : s.amn.queue.any (·.samePurpose (.tempEnd n)) = false := by simpa using hf
    refine ⟨s.stb, s.rqe, SameRing.refl _, ?_, .inl rfl, fun m r g h => nomatch h⟩
    rw [hany]
    rfl
  | some d =>
    have hmem := List.mem_of_find?_eq_some hf
    have hsame : d.samePurpose (.tempEnd n) = true := by simpa using List.find?_some hf
    have hany : s.amn.queue.any (·.samePurpose (.tempEnd n)) = true := List.any_eq_true.mpr ⟨d, hmem, hsame⟩
    rw [hany]
    cases d with
    | tempStart m => cases hsame
    | card => cases hsame
    | tempEnd m =>
      obtain ⟨T, q, hq, he, hT, hvoid⟩ := answerTempEnd_void (s := takePlace (.tempEnd n) s) (n := m)
        fun o hread => ho m o hmem hread
      refine ⟨T, q, hq, he, ?_, fun k r g h hr ht hg => ?_⟩
      · rcases hT with hT | ⟨d, hT⟩
        · exact .inl hT
        · exact .inr ⟨m, d, hT⟩
      · obtain rfl : m = k := by simpa using h
        exact hvoid r g hr ht hg

end Ask

/-! ### The moves to READING (R43, R48) -/

section Moves

variable {t : Stb} {n i : Nat} {r : ShotRecord}

/-- The table once a shot in WAITING or EXPOSING is in READING. -/
def Stb.toReading (t : Stb) (n : Nat) : Stb := (t.move n .exposing).move n .reading

theorem Stb.find_toReading (h : t.find n = some r) (hp : r.phase = .waiting ∨ r.phase = .exposing) :
    (t.toReading n).find n = some { r with phase := .reading } := by
  rcases hp with hp | hp
  · have hmid := Stb.find_move_kept (p := .exposing) h (by rw [hp]; rfl) rfl
    have hend := Stb.find_move_kept (p := .reading) hmid rfl rfl
    exact hend
  · rw [Stb.toReading, Stb.move_refused h (by rw [hp]; rfl)]
    exact Stb.find_move_kept h (by rw [hp]; rfl) rfl

theorem Stb.length_move (n : Nat) (p : Phase) : (t.move n p).slots.length = t.slots.length := by
  unfold Stb.move Stb.freeSlot
  split
  · rfl
  · dsimp only
    split
    · split
      · split <;> simp [Stb.update, Stb.setSlot]
      · split <;> simp [Stb.update, Stb.setSlot, Stb.unretain]
      · rfl
    · rfl

theorem Stb.slotState_toReading (h : t.find n = some r) (hp : r.phase = .waiting ∨ r.phase = .exposing)
    (hs : r.slot = some i) (hi : i < t.slots.length) : (t.toReading n).slotState i = .readout := by
  rcases hp with hp | hp
  · have hmid := Stb.find_move_kept (p := .exposing) h (by rw [hp]; rfl) rfl
    exact Stb.slotState_move_kept hmid rfl rfl hs (by rw [Stb.length_move]; exact hi)
  · rw [Stb.toReading, Stb.move_refused h (by rw [hp]; rfl)]
    exact Stb.slotState_move_kept h (by rw [hp]; rfl) rfl hs hi

theorem Stb.find_toReading_other (h : t.find n = some r) {m : Nat} (hm : m ≠ n) : (t.toReading n).find m = t.find m := by
  have hmid : ∃ r', (t.move n .exposing).find n = some r' := by
    rcases ha : moveAllowed r.phase .exposing with _ | _
    · exact ⟨r, by rw [Stb.move_refused h ha, h]⟩
    · exact ⟨_, Stb.find_move_kept h ha rfl⟩
  obtain ⟨r', h'⟩ := hmid
  rw [Stb.toReading, Stb.find_move_other h' hm, Stb.find_move_other h hm]

end Moves

/-! ### Integration ends (R48, R49) -/

section Integration

variable {s : State} {e : Exposure} {r : ShotRecord} {i : Nat} {p : Profile} {src : ExposureSource}

/-- The record of a shot at the end of its integration (R48, R49, R84). -/
def integrated (now : Nat) (time : Nat) (e : Exposure) (src : ExposureSource) (r : ShotRecord) : ShotRecord :=
  { r with integration := some (since now e.entry), exposure := some time, source := some src }

/-- The table at the end of integration, `T` being the table once the end temperature is asked for. -/
def integratedStb (T : Stb) (now time : Nat) (e : Exposure) (src : ExposureSource) (p : Profile) : Stb :=
  ((T.update e.shot (integrated now time e src)).update e.shot fun r => { r with pitch := some p.pitch }).toReading e.shot

/-- The readout as it starts (R86). -/
def startedReadout (shot slot : Nat) (p : Profile) : Readout :=
  { shot := shot, slot := slot, image := p, cursor := 0, heldEven := p.nominalBlack, heldOdd := p.nominalBlack,
    acc := none, settled := none, dark := none, wait := none, last := none, stats := {}, ending := none }

/-- A dark offset in some record changes nothing else of a shot's record. -/
theorem Stb.find_darkened {T t : Stb} {n : Nat} {r : ShotRecord}
    (hT : T = t ∨ ∃ m d, T = t.update m fun r => { r with dark := d }) (h : t.find n = some r) :
    ∃ d, T.find n = some { r with dark := d } := by
  rcases hT with rfl | ⟨m, d, rfl⟩
  · exact ⟨r.dark, h⟩
  · by_cases hm : m = n
    · subst hm
      exact ⟨d, Stb.find_update (f := fun r => { r with dark := d }) (fun _ => rfl) h⟩
    · exact ⟨r.dark, (Stb.find_update_other (f := fun r => { r with dark := d }) (fun _ => rfl) (Ne.symm hm)).trans h⟩

theorem beginReadout_of_live {s : State} {e : Exposure} {r : ShotRecord} {i : Nat} {p : Profile}
    (hlive : s.prs.live e.profile = some p) (hfind : s.stb.find e.shot = some r) (hs : r.slot = some i) :
    beginReadout e s = withPce ⟨some (startedReadout e.shot i p), some (p.idleLimit * 1000)⟩
      (withDfm s.dfm.readoutStart (withStb (s.stb.update e.shot fun r => { r with pitch := some p.pitch }) s)) := by
  simp only [beginReadout, hlive, hfind, Option.bind_some, hs]
  rfl

theorem moveReading_of_current {s : State} {e : Exposure} (hcur : s.exs.current = some e) :
    moveReading s = withStb (s.stb.toReading e.shot) s := by
  rw [moveReading, moveShot_of_current hcur]
  exact moveShot_of_current (s := withStb (s.stb.move e.shot .exposing) s) hcur _

/-- The ten steps of R48 as one change of the state. -/
theorem endIntegration_eq (h : Running e r i p s) (src : ExposureSource) : ∃ T q, SameRing s.rqe q ∧
    endIntegration src s = raise .exposed
      (withExs { idled s.exs with snsRead := true, pulse := some 10 }
        (withPce ⟨some (startedReadout e.shot i p), some (p.idleLimit * 1000)⟩
          (withDfm s.dfm.readoutStart
            (withStb (integratedStb T s.exs.timeBase (exposureTime src s.exs.timeBase s.exs.seq e) e src p)
              (withRqe q (withAmn { s.amn with queue := queuedFor (.tempEnd e.shot) s.amn.queue } s)))))) ∧
      (T = s.stb ∨ ∃ m d, T = s.stb.update m fun r => { r with dark := d }) ∧
      ∀ m r g, s.amn.queue.find? (·.samePurpose (.tempEnd e.shot)) = some (.tempEnd m) → s.stb.find m = some r →
        r.tempEnd = none → s.prs.live r.profile = some g →
        let r' := { r with dark := offsetOf g r (r.tempStart.getD 100) }
        T.find m = some r' ∧ ∃ u, MirrorJob.shotEntry r.entry (some r') u 0 ∈ q.jobs := by
  obtain ⟨hheld, hcur, hfind, hslot, hi, hlive, hother, hquiet⟩ := h
  let released := withExs (linesReleased s.exs) s
  obtain ⟨T, q, hq, hask, hT, hvoid⟩ := ask_tempEnd (s := released) (n := e.shot) hother
  refine ⟨T, q, hq, ?_, hT, hvoid⟩
  obtain ⟨d, hd⟩ := Stb.find_darkened hT hfind
  let now := s.exs.timeBase
  let time := exposureTime src now s.exs.seq e
  let asked := withRqe q (withAmn { s.amn with queue := queuedFor (.tempEnd e.shot) s.amn.queue } released)
  let timed := withStb (T.update e.shot (integrated now time e src)) asked
  have htimed : modShot (integrated now time e src) (ask (.tempEnd e.shot) (releaseLines s)) = timed := by
    rw [releaseLines_of_quiescent hquiet, hask]
    exact modShot_of_current (s := withStb T asked) hcur _
  let pulsed := withExs { linesReleased s.exs with snsRead := true, pulse := some 10 } timed
  have hpulsed : pulseRead timed = pulsed := rfl
  have hbegun := beginReadout_of_live (s := pulsed) hlive
    (Stb.find_update (f := integrated now time e src) (fun _ => rfl) hd) hslot
  have hmoved := moveReading_of_current (s := beginReadout e pulsed) (e := e) (by rw [hbegun]; exact hcur)
  have hidle := returnIdle_of_no_run (s := moveReading (beginReadout e pulsed)) (by rw [hmoved, hbegun]; exact hquiet.1)
  rw [hmoved, hbegun] at hidle
  have hend : endIntegration src s = raise .exposed (returnIdle (moveReading (beginReadout e pulsed))) := by
    rw [← hpulsed, ← htimed]
    simp only [endIntegration, hcur]
    rfl
  rw [hend, hmoved, hbegun, hidle]
  rfl

theorem integratedStb_find {T : Stb} {now time : Nat} (h : T.find e.shot = some r)
    (hp : r.phase = .waiting ∨ r.phase = .exposing) : (integratedStb T now time e src p).find e.shot =
      some { integrated now time e src r with pitch := some p.pitch, phase := .reading } := by
  have htimed := Stb.find_update (f := integrated now time e src) (fun _ => rfl) h
  have hpitched := Stb.find_update (f := fun r => { r with pitch := some p.pitch }) (fun _ => rfl) htimed
  exact Stb.find_toReading hpitched hp

theorem integratedStb_slotState {T : Stb} {now time : Nat} (h : T.find e.shot = some r)
    (hp : r.phase = .waiting ∨ r.phase = .exposing) (hs : r.slot = some i) (hi : i < T.slots.length) :
    (integratedStb T now time e src p).slotState i = .readout := by
  have htimed := Stb.find_update (f := integrated now time e src) (fun _ => rfl) h
  have hpitched := Stb.find_update (f := fun r => { r with pitch := some p.pitch }) (fun _ => rfl) htimed
  exact Stb.slotState_toReading hpitched hp hs hi

theorem integratedStb_find_other {T : Stb} {now time m : Nat} (h : T.find e.shot = some r) (hm : m ≠ e.shot) :
    (integratedStb T now time e src p).find m = T.find m := by
  have htimed := Stb.find_update (f := integrated now time e src) (fun _ => rfl) h
  have hpitched := Stb.find_update (f := fun r => { r with pitch := some p.pitch }) (fun _ => rfl) htimed
  rw [integratedStb, Stb.find_toReading_other hpitched hm,
    Stb.find_update_other (f := fun r => { r with pitch := some p.pitch }) (fun _ => rfl) hm,
    Stb.find_update_other (f := integrated now time e src) (fun _ => rfl) hm]

/-- Integration has ended, before the command's end: `Ended`, and the frame. -/
structure Integrated (e : Exposure) (i : Nat) (p : Profile) (src : ExposureSource) (time : Nat) (flags : RecordFlags)
    (s u : State) : Prop where
  exs : u.exs = { idled s.exs with snsRead := true, pulse := some 10 }
  record : ∃ r, u.stb.find e.shot = some r ∧ r.phase = .reading ∧ r.slot = some i ∧ r.flags = flags ∧
    r.integration = some (span s.exs.timeBase e.entry) ∧ r.exposure = some time ∧ r.source = some src ∧
    r.pitch = some p.pitch
  slot : u.stb.slotState i = .readout
  readout : u.pce = ⟨some (startedReadout e.shot i p), some (p.idleLimit * 1000)⟩
  entries : u.dfm.entries = s.dfm.entries
  queue : u.amn.queue = queuedFor (.tempEnd e.shot) s.amn.queue
  void : AnsweredVoid e.shot s u
  raised : { flag := .exposed, hold := none } ∈ u.rqe.raises
  frame : OnlyChanges [.stb, .exs, .pce, .dfm, .monitor] s u

/-- What R48 and R49 make of a running shot. -/
theorem endIntegration_integrated (h : Running e r i p s) (hp : r.phase = .waiting ∨ r.phase = .exposing)
    (src : ExposureSource) :
    Integrated e i p src (exposureTime src s.exs.timeBase s.exs.seq e) r.flags s (endIntegration src s) := by
  obtain ⟨T, q, hq, he, hT, hvoid⟩ := endIntegration_eq h src
  obtain ⟨hheld, hcur, hfind, hslot, hi, hlive, hother, hquiet⟩ := h
  obtain ⟨d, hd⟩ := Stb.find_darkened hT hfind
  have hlen : T.slots.length = s.stb.slots.length := by rcases hT with rfl | ⟨m, d, rfl⟩ <;> rfl
  have hframe : OnlyChanges [.stb, .exs, .pce, .dfm, .monitor] s
      (withRqe q (withAmn { s.amn with queue := queuedFor (.tempEnd e.shot) s.amn.queue } s)) :=
    ((OnlyChanges.refl _ s).amn { s.amn with queue := queuedFor (.tempEnd e.shot) s.amn.queue }).ring hq
  rw [he]
  exact
    { exs := rfl
      record := ⟨_, integratedStb_find hd hp, rfl, hslot, rfl, rfl, rfl, rfl, rfl⟩
      slot := integratedStb_slotState hd hp hslot (by rw [hlen]; exact hi)
      readout := rfl
      entries := rfl
      queue := rfl
      void := fun n q' g hfound hn hq' hnone hg => by
        obtain ⟨hfind', hjob⟩ := hvoid n q' g hfound hq' hnone hg
        exact ⟨(integratedStb_find_other hd hn).trans hfind', hjob⟩
      raised := by simp
      frame := ((((hframe.stb _).dfm _).pce _).exs _).raised _ }

/-- Nothing that a command does after the end of integration changes what `Ended` says. -/
theorem Integrated.ended {time : Nat} {flags : RecordFlags} {u v : State} (h : Integrated e i p src time flags s u)
    (b : State) (hexs : v.exs = u.exs) (hstb : v.stb = u.stb) (hpce : v.pce = u.pce) (hdfm : v.dfm = u.dfm)
    (hamn : v.amn = u.amn) (hjobs : v.rqe.jobs = u.rqe.jobs) (hraises : v.rqe.raises = u.rqe.raises) :
    Ended e i p src time flags s (finish b v) := by
  refine ⟨?_, ?_, ?_, ?_, ?_, ?_, ?_, fun n q g hf hn hq ht hg => ?_, finish_raised _ _ ?_⟩
  · rw [finish_exs, hexs, h.exs]
  · rw [finish_stb, hstb]
    exact h.record
  · rw [finish_stb, hstb, h.slot]
  · rw [finish_pce, hpce, h.readout]
    exact ⟨_, rfl, rfl, rfl, rfl, rfl, rfl, rfl, rfl, rfl, rfl, rfl, rfl⟩
  · rw [finish_pce, hpce, h.readout]
  · rw [finish_dfm, hdfm, h.entries]
  · rw [finish_amn_queue, hamn, h.queue]
  · obtain ⟨hfind, u', hu'⟩ := h.void n q g hf hn hq ht hg
    refine ⟨?_, u', finish_queued _ _ ?_⟩
    · rw [finish_stb, hstb, hfind]
    · rw [hjobs]
      exact hu'
  · rw [hraises]
    exact h.raised

end Integration

/-! ### The ends of integration -/

section Ends

variable {s : State} {e : Exposure} {r : ShotRecord} {i : Nat} {p : Profile} {src : ExposureSource}

/-- The running shot with a flag in its record. -/
theorem Running.setFlag (h : Running e r i p s) (f : RecordFlags → RecordFlags) :
    Running e { r with flags := f r.flags } i p (setFlag f s) := by
  obtain ⟨hheld, hcur, hfind, hslot, hi, hlive, hother, hquiet⟩ := h
  rw [setFlag_of_current hcur]
  exact ⟨hheld, hcur, Stb.find_update (f := fun r => { r with flags := f r.flags }) (fun _ => rfl) hfind, hslot, hi,
    hlive, hother, hquiet⟩

/-- What a flag set in the running shot's record leaves, `Integrated` does not see. -/
theorem Integrated.of_setFlag {time : Nat} {flags : RecordFlags} {u : State} {f : RecordFlags → RecordFlags}
    (hcur : s.exs.current = some e) (h : Integrated e i p src time flags (Machine.setFlag f s) u) :
    Integrated e i p src time flags s u := by
  rw [setFlag_of_current hcur] at h
  refine ⟨h.exs, h.record, h.slot, h.readout, h.entries, h.queue, fun n q g hf hn hq ht hg => ?_, h.raised,
    ((OnlyChanges.refl _ s).stb _).andThen h.frame⟩
  have hq' : (s.stb.update e.shot fun r => { r with flags := f r.flags }).find n = some q :=
    (Stb.find_update_other (f := fun r => { r with flags := f r.flags }) (fun _ => rfl) hn).trans hq
  exact h.void n q g hf hn hq' ht hg

theorem limitReached_integrated (h : Running e r i p s) (hp : r.phase = .exposing) :
    Integrated e i p .limit (exposureTime .limit s.exs.timeBase s.exs.seq e) { r.flags with limited := true } s
      (limitReached s) := by
  have hend := endIntegration_integrated (h.setFlag fun f => { f with limited := true }) (.inr hp) .limit
  rw [limitReached]
  refine Integrated.of_setFlag (f := fun f => { f with limited := true }) h.2.1 ?_
  rw [setFlag_of_current h.2.1] at hend ⊢
  exact hend

theorem abortOpen_integrated (h : Running e r i p s) (hp : r.phase = .exposing) :
    Integrated e i p .abort (exposureTime .abort s.exs.timeBase s.exs.seq e) { r.flags with abortedOpen := true } s
      (abortOpen s) := by
  have hend := endIntegration_integrated (h.setFlag fun f => { f with abortedOpen := true }) (.inr hp) .abort
  rw [abortOpen]
  refine Integrated.of_setFlag (f := fun f => { f with abortedOpen := true }) h.2.1 ?_
  rw [setFlag_of_current h.2.1] at hend ⊢
  exact hend

theorem windowReached_of_current (h : s.exs.current = some e) : windowReached s = endIntegration e.source s := by
  simp only [windowReached, h]

end Ends

theorem exec_exposureLimitExpiry (s : State) : exec .exposureLimitExpiry s =
    event s (whenIn .opened fun t => if shotMode t = some .span then limitReached t else t) := rfl

theorem exec_windowEnd (s : State) : exec .windowEnd s =
    event s (whenIn .opened fun t => if shotMode t = some .window then windowReached t else t) := rfl

theorem exec_timedDurationExpiry (s : State) : exec .timedDurationExpiry s =
    event s (whenIn .waiting fun t => if shotMode t = some .timed then endIntegration .timed t else t) := rfl

theorem exec_tailTimeExpiry (s : State) : exec .tailTimeExpiry s = event s (whenIn .tail windowReached) := rfl

/-! ### The statements -/

/-- The command that ends integration, once its effect is `endIntegration`'s. -/
theorem Integrated.command {s u : State} {e : Exposure} {i : Nat} {p : Profile} {src : ExposureSource} {time : Nat}
    {flags : RecordFlags} (h : Integrated e i p src time flags s u) :
    Ended e i p src time flags s (finish s u) ∧ OnlyChanges [.stb, .exs, .pce, .dfm, .monitor] s (finish s u) :=
  ⟨h.ended s rfl rfl rfl rfl rfl rfl rfl, h.frame.finish s⟩

theorem Integrated.of_eq {s u : State} {e : Exposure} {i : Nat} {p : Profile} {src src' : ExposureSource} {time time' : Nat}
    {flags : RecordFlags} (h : Integrated e i p src time flags s u) (hs : src = src') (ht : time = time') :
    Integrated e i p src' time' flags s u := hs ▸ ht ▸ h

theorem exposureTime_timed (now : Nat) (seq : SeqState) (e : Exposure) :
    exposureTime .timed now seq e = span now e.entry := Nat.min_self _

/-- The exposure time of a release that is not before the exposure's start (R49). -/
theorem releaseSpan_of_le {now : Nat} {e : Exposure} (h : span now e.stop ≤ span now e.start) :
    releaseSpan now e = span e.stop e.start := if_neg (Nat.not_lt.mpr h)

/-- Settles O27: each end is `endIntegration` by its source, whose exposure time is `exposureTime`. -/
theorem integrationEnds : Obligations.IntegrationEnds := by
  intro s e r i p h
  have ⟨hheld, hcur, _⟩ := h
  have hmode {m : ShotMode} (hm : e.mode = m) : shotMode s = some m := by simp [shotMode, hcur, hm]
  have hwindow := windowReached_of_current hcur
  refine ⟨fun hseq hm hp => ?_, fun hseq hm hp => ?_, fun hseq hm hp => ?_, fun hseq hm hp hspan => ?_⟩
  · exact ⟨_, event_to hheld ((whenIn_of_eq hseq _).trans (if_pos (hmode hm))), (limitReached_integrated h hp).command⟩
  · have hend := endIntegration_integrated h (.inr hp) e.source
    refine ⟨_, event_to hheld ((whenIn_of_eq hseq _).trans ((if_pos (hmode hm)).trans hwindow)), ?_, hend.command.2⟩
    by_cases hearly : e.early = true
    · rw [if_pos hearly]
      have hsrc : e.source = .early := if_pos hearly
      rw [hsrc] at hend ⊢
      exact (hend.of_eq rfl (by simp [exposureTime, hm, span, since])).command.1
    · rw [if_neg hearly]
      have hsrc : e.source = .window := (if_neg hearly).trans (if_pos hm)
      rw [hsrc] at hend ⊢
      exact hend.command.1
  · exact ⟨_, event_to hheld ((whenIn_of_eq hseq _).trans (if_pos (hmode hm))),
      ((endIntegration_integrated h (.inl hp) .timed).of_eq rfl (exposureTime_timed _ _ e)).command⟩
  · have hend := endIntegration_integrated h (.inr hp) e.source
    refine ⟨_, event_to hheld ((whenIn_of_eq hseq _).trans hwindow), (hend.of_eq ?_ ?_).command⟩
    · by_cases hearly : e.early = true <;> simp [Exposure.source, hearly, hm]
    · by_cases hearly : e.early = true <;>
        simp [Exposure.source, exposureTime, hearly, hm, releaseSpan_of_le hspan, since, span]

theorem span_eq (a b : Nat) : span a b = since a b := rfl

theorem releaseSpan_eq (now : Nat) (e : Exposure) : releaseSpan now e =
    if span now e.start < span now e.stop then 0 else span e.stop e.start := by
  by_cases h : span now e.start < span now e.stop
  · rw [if_pos h]
    exact if_pos h
  · rw [if_neg h]
    exact if_neg h

theorem exposureTime_abort_tail {now : Nat} {seq : SeqState} {e : Exposure} (h : seq = .tail) :
    exposureTime .abort now seq e =
      min (span now e.entry) (if span now e.start < span now e.stop then 0 else span e.stop e.start) := by
  rw [exposureTime, if_pos h, releaseSpan_eq, span_eq now e.entry]

theorem judgeAbort_open {s : State} {e : Exposure} (hcur : s.exs.current = some e)
    (hseq : s.exs.seq = .opened ∨ s.exs.seq = .tail) : judgeAbort s = abortAnswer e.shot (abortOpen s) := by
  rcases hseq with hseq | hseq <;> simp only [judgeAbort, hseq, hcur]

/-- Settles O28: in IDLE the record in READING decides; in OPEN and TAIL the shot's integration ends. -/
theorem abortInIdleAndOpen : Obligations.AbortInIdleAndOpen := by
  refine ⟨fun s h hseq => ?_, fun s e r i p h htaken hp => ?_⟩
  · have hjudge (v : Service) : judgeAbort (withService v s) =
        reply (if s.stb.inReading.isSome then .busy else .notFound) (withService v s) := by
      have hseq' : (withService v s).exs.seq = .idle := hseq
      simp only [judgeAbort, hseq']
      rfl
    have hreading : s.stb.inReading.isSome = true ↔ ∃ r ∈ s.stb.records, r.phase = .reading := by
      simp [Stb.inReading]
    rw [exec_abort]
    refine ⟨fun hr => taken_refused h fun v => ?_, fun hr => taken_refused h fun v => ?_⟩
    · rw [hjudge, if_pos (hreading.mpr hr)]
    · rw [hjudge, if_neg (mt hreading.mp hr)]
  · intro whole ended
    have ⟨hheld, hcur, _⟩ := h
    have hended (hseq : s.exs.seq = .opened ∨ s.exs.seq = .tail) {time : Nat}
        (htime : exposureTime .abort s.exs.timeBase s.exs.seq e = min whole time) : ended time := by
      have hend (v : Service) := (abortOpen_integrated (s := withService v s) h hp).of_eq rfl htime
      have hj (v : Service) : judgeAbort (withService v s) =
          answer ⟨.done, le 4 e.shot ++ [3]⟩ (abortOpen (withService v s)) := by
        obtain ⟨r', hfind, hphase, -⟩ := (hend v).record
        rw [judgeAbort_open (by exact hcur) (by exact hseq), abortAnswer_of_find hfind, hphase]
        rfl
      obtain ⟨v, u, hserve, hanswered, ho, hstb, hexs, -, -, hpce, hdfm, hamn, -, -, -, -, -, hjobs, -, hraises, -⟩ :=
        taken_answered htaken (g := abortOpen) hj fun v => ((hend v).frame.2 .service (by decide) (by decide)).1
      rw [← hserve] at *
      refine ⟨_, event_next _ hheld, ?_, hanswered, ?_⟩
      · exact (hend v).ended s hexs hstb hpce hdfm hamn hjobs hraises
      · exact (((withService_onlyChanges v s).within).andThen (hend v).frame).andThen ho
    refine ⟨fun hseq => hended (.inl hseq) ?_, fun hseq => hended (.inr hseq) ?_⟩
    · simp [exposureTime, hseq, whole, span, since]
    · rw [exposureTime_abort_tail hseq]

end Sys2Proof.Machine
end

section
/-! PROOFS. A release the filter accepts (R36, R40, R44, R48, R49; O32). -/

namespace Sys2Proof.Machine

set_option Elab.async false

section Release

variable {s : State} {e : Exposure} {p : Profile} {n : Nat}

/-- The filter's acceptance of a release: a shot armed on a closed contact is no longer so (R39). -/
def released (s : State) : State :=
  withExs { s.exs with sync := s.exs.sync.accept false
                       current := s.exs.current.map fun e => { e with closedBefore := false } } s

theorem takeRelease_eq (n : Nat) (s : State) : takeRelease n s = match s.exs.seq, (released s).exs.current with
    | .opened, some e => if e.mode = .span then releaseInOpen n e (released s) else released s
    | _, _ => released s := rfl

/-- The sequencer in TAIL (R40). -/
def tailExs (x : Exs) (e : Exposure) (n us : Nat) : Exs := { x.enterFor .tail us with current := some { e with stop := n } }

theorem releaseInOpen_of_live (hcur : s.exs.current = some e) (hp : s.prs.live e.profile = some p) :
    releaseInOpen n e s = if 1000 * p.tailTime = 0 then endIntegration e.source (withExs (tailExs s.exs e n (1000 * p.tailTime)) s)
      else withExs (tailExs s.exs e n (1000 * p.tailTime)) s := by
  simp only [releaseInOpen, profileTime_of_live hcur hp]
  rfl

theorem takeRelease_span (hseq : s.exs.seq = .opened) (hcur : s.exs.current = some e) (hm : e.mode = .span) :
    takeRelease n s = releaseInOpen n { e with closedBefore := false } (released s) := by
  have hcur' : (released s).exs.current = some { e with closedBefore := false } := by
    show s.exs.current.map _ = _
    rw [hcur]
    rfl
  simp only [takeRelease_eq, hseq, hcur', if_pos hm]

theorem takeRelease_other (h : s.exs.seq ≠ .opened ∨ ∀ e, s.exs.current = some e → e.mode ≠ .span) :
    takeRelease n s = released s := by
  rw [takeRelease_eq]
  split
  · next e hseq hcur =>
    obtain ⟨e', he', rfl⟩ := Option.map_eq_some_iff.mp (show s.exs.current.map _ = some e from hcur)
    exact if_neg (h.resolve_left (fun hne => hne hseq) e' he')
  · rfl

end Release

theorem exec_syncReleaseAccepted (first : BitVec 32) (s : State) : exec (.syncReleaseAccepted first) s =
    pinEvent s (fun p => { p with syncClosed := false })
      fun t => if t.exs.sync.closed then takeRelease first.toNat t else t := rfl

/-- Settles O32: a release in OPEN in SPAN is the tail or the end of integration, any other the filter's alone. -/
theorem releaseAccepted : Obligations.ReleaseAccepted := by
  intro first s h hclosed sync pins opened
  rw [exec_syncReleaseAccepted]
  have hframe : OnlyChanges [.exs, .pins] s (released (withPins pins s)) := ((OnlyChanges.refl _ s).pins pins).exs _
  refine ⟨fun e p hseq hcur hm hlive htail => ?_, fun e r i p => ?_, fun hother => ?_⟩
  · have hcur' : (released (withPins pins s)).exs.current = some { e with closedBefore := false } := by
      show s.exs.current.map _ = _
      rw [hcur]
      rfl
    have hopen := releaseInOpen_of_live (n := first.toNat) hcur' hlive
    rw [if_neg (by omega)] at hopen
    exact ⟨_, pinEvent_to h ((if_pos (by exact hclosed)).trans ((takeRelease_span (by exact hseq) (by exact hcur) hm).trans hopen)),
      finish_exs _ _, finish_pins _ _, (hframe.exs _).finish s⟩
  · intro filtered hrun hseq hm hp htail now time
    obtain ⟨hheld, hcur, hfind, hslot, hi, hlive, hother, hquiet⟩ := hrun
    let u := released (withPins pins s)
    let e' := { e with closedBefore := false, stop := first.toNat }
    let tail := withExs (tailExs u.exs { e with closedBefore := false } first.toNat 0) u
    have hcur' : u.exs.current = some { e with closedBefore := false } := by
      show s.exs.current.map _ = _
      rw [show s.exs.current = some e from hcur]
      rfl
    have hopen := releaseInOpen_of_live (n := first.toNat) hcur' hlive
    rw [htail, if_pos (Nat.mul_zero 1000)] at hopen
    have hend := endIntegration_integrated (s := tail) (e := e')
      ⟨hheld, rfl, hfind, hslot, hi, hlive, hother, rfl, hquiet.2⟩ (.inr hp) e'.source
    have htime : exposureTime e'.source s.exs.timeBase .tail e' = min (span now e.entry) time := by
      by_cases hearly : e.early = true <;>
        simp [exposureTime, Exposure.source, e', hearly, hm, releaseSpan_eq, span_eq, time, now]
    have hsource : e'.source = if e.early then .early else .syncSpan := by
      by_cases hearly : e.early = true <;> simp [Exposure.source, e', hearly, hm]
    have hended := (hend.of_eq hsource htime).ended s rfl rfl rfl rfl rfl rfl rfl
    refine ⟨_, pinEvent_to h ((if_pos (by exact hclosed)).trans ((takeRelease_span (by exact hseq) (by exact hcur) hm).trans
      hopen)), hended, ?_, ?_⟩
    · have hpins := hend.frame.2 .pins (by decide) (by decide)
      exact (finish_pins _ _).trans hpins
    · exact (((((OnlyChanges.refl _ s).pins pins).exs _).exs _).andThen hend.frame).finish s
  · exact ⟨_, pinEvent_to h ((if_pos (by exact hclosed)).trans (takeRelease_other (by exact hother))), finish_exs _ _,
      finish_pins _ _, hframe.finish s⟩

end Sys2Proof.Machine
end

section
/-! PROOFS. The requests of the Card Engine (R169, R191, R194; O34, O35). -/

namespace Sys2Proof.Machine

set_option Elab.async false

/-! ### A request that is answered -/

section Taken

variable {q : Request} {s : State} {judge : State → State} {a : Answer} {ps : List Part}

/-- The owner answers after the changes `g`, made with the request in service: the answer, the frame, and what the answer and
the command's end leave of `g`. -/
theorem taken_next {g : State → State} (h : Taken q s) (hj : ∀ v, judge (withService v s) = answer a (g (withService v s)))
    (hg : ∀ v, (g (withService v s)).rqe.service = some v)
    (hf : ∀ v, OnlyChanges ps (withService v s) (g (withService v s))) :
    ∃ v u, event s (serve q judge) = .next (finish s u) ∧ Answered a s (finish s u) ∧
      OnlyChanges (.service :: ps) s (finish s u) ∧ OnlyChanges [.service] (g (withService v s)) (finish s u) ∧
      u.amn = (g (withService v s)).amn ∧ u.rqe.marked = (g (withService v s)).rqe.marked := by
  obtain ⟨v, u, hs, ha, ho, -, -, -, -, -, -, hamn, -, -, -, -, -, -, hmarked, -⟩ := taken_answered h hj hg
  refine ⟨v, u, by rw [event_next _ h.1, hs], ha, ?_, ho, hamn, hmarked⟩
  exact (((withService_onlyChanges v s).within (by simp)).andThen (hf v) fun p => List.mem_cons_of_mem _).andThen ho (by simp)

/-- The owner answers and leaves the Card Engine as `C`. -/
theorem taken_answered_cde (h : Taken q s) (C : Cde)
    (hj : ∀ v, judge (withService v s) = answer a (withCde C (withService v s))) :
    ∃ t, event s (serve q judge) = .next t ∧ t.cde = C ∧ Answered a s t ∧ OnlyChanges [.cde, .service] s t := by
  obtain ⟨v, u, hn, ha, ho, hcde, -⟩ := taken_next h (g := withCde C) hj (fun _ => rfl) fun v => withCde_onlyChanges _ _
  exact ⟨_, hn, hcde.2 .cde (by decide) (by decide), ha, ho.within⟩

end Taken

/-! ### READ_CARD -/

theorem inside_iff {lo hi d n : Nat} (hn : 1 ≤ n) : inside lo hi d (d + n * 512 - 1) = true ↔ lo ≤ d ∧ d + n * 512 ≤ hi := by
  simp only [inside, decide_eq_true_eq]
  omega

/-- The areas a card read may be sent to (R191). -/
theorem destinationOk_iff (t : Stb) (n d : Nat) : destinationOk t n d = true ↔ 1 ≤ n ∧ n ≤ 65536 ∧ d % 4 = 0 ∧
    ((0 ≤ d ∧ d + n * 512 ≤ 0x10000000) ∨
      (0x10000000 + t.count * (t.slotSize * 1048576) ≤ d ∧ d + n * 512 ≤ 0x3F000000) ∨
      (0x3F001008 ≤ d ∧ d + n * 512 ≤ 0x3F002000) ∨ (0x3F005000 ≤ d ∧ d + n * 512 ≤ 0x3F010000) ∨
      (0x3F020000 ≤ d ∧ d + n * 512 ≤ 0x40000000)) := by
  by_cases hn : 1 ≤ n
  · simp only [destinationOk, Bool.and_eq_true, Bool.or_eq_true, inside_iff hn, decide_eq_true_eq, and_assoc, or_assoc]
    rfl
  · simp [destinationOk, hn]

theorem exec_readCard (block count dest : BitVec 32) (tag : BitVec 16) (s : State) : exec (.readCard block count dest tag) s =
    event s (serve (.readCard block count dest tag) (judgeReadCard block count dest tag)) := rfl

/-- The last two checks, and the request that joins the queue. -/
theorem judgeReadCard_of_up {block count dest : BitVec 32} {tag : BitVec 16} {s : State} {size : Nat}
    (hd : destinationOk s.stb count.toNat dest.toNat = true)
    (hup : s.cde.state = .ready ∨ s.cde.state = .writing ∨ s.cde.state = .reading) (hsize : s.cde.capacity = some size) :
    judgeReadCard block count dest tag s =
      if size < block.toNat + count.toNat then reply .badRequest s
      else if 4 ≤ s.cde.reads.length then reply .busy s
      else answer ⟨.started, le 1 s.cde.reads.length⟩ (withCde
        { s.cde with reads := s.cde.reads ++ [⟨block.toNat, count.toNat, dest.toNat, tag.toNat, 0, []⟩] } s) := by
  rw [judgeReadCard, if_neg (by simp [hd]), if_neg (not_not.mpr hup), capacityOf, hsize]
  rfl

/-- Settles O34: the four checks of `judgeReadCard` in their order. -/
theorem readCard : Obligations.ReadCard := by
  intro block count dest tag s h c n d refused within ok up
  have hdest (v : Service) : destinationOk (withService v s).stb n d = true ↔ ok := destinationOk_iff s.stb n d
  refine ⟨fun hbad => taken_refused h fun v => ?_, fun hok hdown => taken_refused h fun v => ?_, fun size hsize hok hready =>
    ?_⟩
  · exact if_pos (by simpa [← hdest v] using hbad)
  · rw [judgeReadCard, if_neg (by simpa [← hdest v] using hok)]
    exact if_pos hdown
  · have hlast (v : Service) := judgeReadCard_of_up (s := withService v s) (block := block) (tag := tag) ((hdest v).2 hok)
      hready hsize
    refine ⟨fun hbeyond => taken_refused h fun v => ?_, fun hin hfull => taken_refused h fun v => ?_, fun hin hroom =>
      taken_answered_cde h _ fun v => ?_⟩
    · rw [hlast]
      exact if_pos hbeyond
    · rw [hlast, if_neg (Nat.not_lt.mpr hin)]
      exact if_pos hfull
    · rw [hlast, if_neg (Nat.not_lt.mpr hin)]
      exact if_neg (Nat.not_le.mpr hroom)

end Sys2Proof.Machine
end

section
/-! PROOFS. FORMAT_CARD and RESET_CARD (R169, R194; O35). -/

namespace Sys2Proof.Machine

set_option Elab.async false

/-! ### FORMAT_CARD -/

theorem exec_formatCard (s : State) : exec .formatCard s = event s (serve .formatCard judgeFormat) := rfl

theorem formatGeometry_eq (c : Cde) :
    formatGeometry c = ⟨1, 0, 0, (c.geometry.map fun g => (g.formatId + 1) % 4294967296).getD 1⟩ := by
  unfold formatGeometry
  cases c.geometry <;> rfl

/-- The card with the run of a format waiting to be issued. -/
def formatting (c : Cde) : Cde :=
  { c with
    state := .writing, block := [], run := some ⟨.format, true, 0, 1, 0, 0, 0, 0, false, .waiting⟩,
    format := some ⟨1, 0, 0, (c.geometry.map fun g => (g.formatId + 1) % 4294967296).getD 1⟩ }

theorem startFormat_eq (s : State) : startFormat s = withCde (formatting s.cde) s := by
  simp only [startFormat, formatGeometry_eq]
  rfl

section Format

variable {s : State}

theorem judgeFormat_absent (h : s.cde.detected = false) : judgeFormat s = reply .cardAbsent s := by
  simp [judgeFormat, h]

theorem judgeFormat_busy (h : s.cde.detected = true)
    (hs : s.cde.state = .writing ∨ s.cde.state = .reading ∨ s.cde.state = .mounting) : judgeFormat s = reply .busy s := by
  rcases hs with hs | hs | hs <;> simp [judgeFormat, h, hs]

theorem judgeFormat_notReady (h : s.cde.detected = true) (hs : s.cde.state = .powering ∨ s.cde.state = .identifying ∨
    s.cde.state = .discharging ∨ s.cde.state = .parked ∨ s.cde.state = .fault) :
    judgeFormat s = reply .cardNotReady s := by
  rcases hs with hs | hs | hs | hs | hs <;> simp [judgeFormat, h, hs]

theorem judgeFormat_starts (h : s.cde.detected = true) (hs : s.cde.state = .ready ∨ s.cde.state = .unformatted) :
    judgeFormat s = reply .started (withCde (formatting s.cde) s) := by
  rcases hs with hs | hs <;> simp [judgeFormat, h, hs, startFormat_eq]

end Format

/-! ### RESET_CARD -/

theorem exec_resetCard (s : State) : exec .resetCard s = event s (serve .resetCard judgeResetCard) := rfl

/-- The card as RESET_CARD leaves it in any state: no capacity, no geometry, no park owed (R169). -/
def unread (c : Cde) : Cde := { c with capacity := none, geometry := none, parkOwed := false }

/-- The card after a power-down that a power-up follows (R164). -/
def poweredDown (c : Cde) : Cde :=
  { c with
    state := .discharging, rail := .discharging, lines := .highZ, pwrEn := false, discharge := true,
    dischargeTimer := some 500000, dischargeFor := .powerUp, rampTimer := none, busTimer := none, powerUp := none,
    ident := none, identDrop := none, ocCount := 0 }

theorem powerDownTo_powerUp (s : State) :
    powerDownTo .powerUp s = withPins { s.pins with overcurrent := false } (withCde (poweredDown s.cde) s) := rfl

theorem resetBusy_iff (s : State) : resetBusy s = true ↔ (s.cde.state = .writing ∨ s.cde.state = .reading ∨
    s.cde.state = .mounting ∨ s.cde.state = .parked ∨ (s.cde.state = .discharging ∧ s.cde.dischargeFor = .park) ∨
    s.cde.reads ≠ []) := by
  unfold resetBusy
  cases s.cde.state <;> simp

theorem ask_card {s : State} (h : Demand.card ∉ s.amn.queue) :
    ask .card s = withAmn { s.amn with queue := s.amn.queue ++ [.card] } s := by
  have hnone : s.amn.queue.find? (fun e => e.samePurpose .card) = none := by
    rw [List.find?_eq_none]
    intro d hd hsame
    cases d with
    | card => exact h hd
    | tempStart | tempEnd => exact Bool.noConfusion hsame
  simp only [ask, hnone]
  rfl

/-- The engine in POWERING with the rail off and a CARD reading awaited (R161). -/
def poweringUp (c : Cde) : Cde := { c with state := .powering, rail := .off, lines := .highZ, powerUp := some .reading }

theorem Cde.enter_of_run {c : Cde} (h : c.cycling = false) (st : CardState) : c.enter st = { c with state := st } :=
  if_neg (by simp [h])

theorem Cde.enter_of_cycling {c : Cde} (h : c.cycling = true) (st : CardState) : c.enter st = c := if_pos h

theorem Cde.cycling_of_no_run {c : Cde} (h : c.run = none) : c.cycling = false := by rw [Cde.cycling, h]; rfl

theorem startPowerUp_eq {s : State} (h : s.cde.cycling = false) :
    startPowerUp s = ask .card (withCde (poweringUp s.cde) s) :=
  congrArg (fun c => ask .card (withCde c s))
    (Cde.enter_of_run (c := { s.cde with rail := .off, lines := .highZ, powerUp := some .reading }) h _)

section Reset

variable {s : State}

theorem judgeResetCard_absent (h : s.cde.detected = false) : judgeResetCard s = reply .cardAbsent s := by
  simp [judgeResetCard, h]

theorem judgeResetCard_busy (h : s.cde.detected = true) (hb : resetBusy s = true) : judgeResetCard s = reply .busy s := by
  simp [judgeResetCard, h, hb]

theorem judgeResetCard_accepts (h : s.cde.detected = true) (hb : ¬ resetBusy s = true) :
    judgeResetCard s = reply .started (resetCycle (withCde (unread s.cde) s)) := by
  simp only [judgeResetCard, h, hb]
  rfl

theorem resetCycle_identifying (h : s.cde.state = .identifying) : resetCycle s =
    if s.cde.ident = some .sent then modCde (fun c => { c with identDrop := some .reset }) s else powerDownTo .powerUp s := by
  simp only [resetCycle, h]

theorem resetCycle_powersDown (h : s.cde.state = .ready ∨ s.cde.state = .unformatted ∨
    (s.cde.state = .identifying ∧ s.cde.ident ≠ some .sent) ∨ (s.cde.state = .powering ∧ s.cde.pwrEn = true)) :
    resetCycle s = powerDownTo .powerUp s := by
  rcases h with h | h | ⟨h, hi⟩ | ⟨h, hp⟩
  · simp only [resetCycle, h]
  · simp only [resetCycle, h]
  · exact (resetCycle_identifying h).trans (if_neg hi)
  · simp only [resetCycle, h, hp, if_true]

theorem resetCycle_waits (h : s.cde.state = .identifying) (hi : s.cde.ident = some .sent) :
    resetCycle s = withCde { s.cde with identDrop := some .reset } s := (resetCycle_identifying h).trans (if_pos hi)

theorem resetCycle_goesOn
    (h : s.cde.state = .powering ∧ s.cde.pwrEn = false ∨ s.cde.state = .discharging ∧ s.cde.dischargeFor = .powerUp) :
    resetCycle s = s := by
  rcases h with ⟨h, hp⟩ | ⟨h, -⟩
  · simp [resetCycle, h, hp]
  · simp only [resetCycle, h]

theorem resetCycle_fault (h : s.cde.state = .fault) : resetCycle s = leaveFault s := by simp only [resetCycle, h]

theorem leaveFault_discharging (h : s.cde.discharge = true) :
    leaveFault s = withCde { s.cde with state := .discharging, dischargeFor := .powerUp } s := if_pos h

theorem leaveFault_powersUp (hd : s.cde.discharge = false) (hr : s.cde.run = none) (hq : Demand.card ∉ s.amn.queue) :
    leaveFault s = withAmn { s.amn with queue := s.amn.queue ++ [.card] } (withCde (poweringUp s.cde) s) := by
  rw [leaveFault, if_neg (by simp [hd]), startPowerUp_eq (Cde.cycling_of_no_run hr)]
  exact ask_card (by exact hq)

end Reset

/-! ### The statement -/

/-- Settles O35: each request by the branch its card state takes. -/
theorem formatAndResetCard : Obligations.FormatAndResetCard := by
  intro s
  rw [exec_formatCard, exec_resetCard]
  refine ⟨fun h => ⟨fun hd => taken_refused h fun v => judgeFormat_absent hd,
    fun hd hb => taken_refused h fun v => judgeFormat_busy hd hb,
    fun hd hb => taken_refused h fun v => judgeFormat_notReady hd hb,
    fun hd hr => taken_answered_cde h (formatting s.cde) fun v => judgeFormat_starts (by exact hd) (by exact hr)⟩,
    fun h => ?_⟩
  intro refused base accepted
  refine ⟨fun hd => taken_refused h fun v => judgeResetCard_absent hd,
    fun hd hb => taken_refused h fun v => judgeResetCard_busy hd ((resetBusy_iff _).2 hb), fun hd hreads => ?_⟩
  have judged (hb : ¬ resetBusy s = true) (v : Service) : judgeResetCard (withService v s) =
      reply .started (resetCycle (withCde base (withService v s))) := judgeResetCard_accepts hd hb
  have takes {C : Cde} (hb : ¬ resetBusy s = true)
      (hc : ∀ v, resetCycle (withCde base (withService v s)) = withCde C (withService v s)) : accepted C [] :=
    taken_answered_cde h C fun v => by rw [judged hb, hc]; rfl
  have free (hs : s.cde.state ≠ .writing ∧ s.cde.state ≠ .reading ∧ s.cde.state ≠ .mounting ∧ s.cde.state ≠ .parked ∧
      (s.cde.state = .discharging → s.cde.dischargeFor ≠ .park)) : ¬ resetBusy s = true := by
    rw [resetBusy_iff]
    tauto
  refine ⟨fun hs => ?_, fun hs hi => takes (free (by simp [hs])) fun v => resetCycle_waits (by exact hs) (by exact hi),
    fun hs => takes (free ?_) fun v => resetCycle_goesOn (by exact hs),
    fun hs hdis => takes (free (by simp [hs])) fun v => (resetCycle_fault (by exact hs)).trans (leaveFault_discharging (by exact hdis)),
    fun hs hdis hrun hq => ?_⟩
  · have hfree : ¬ resetBusy s = true := free (by rcases hs with hs | hs | ⟨hs, -⟩ | ⟨hs, -⟩ <;> simp [hs])
    obtain ⟨v, u, hn, ha, ho, hg, -⟩ := taken_next h (judge := judgeResetCard) (a := ⟨.started, []⟩) (ps := [.cde, .pins]) (g := fun w =>
        withPins { s.pins with overcurrent := false } (withCde (poweredDown base) w))
      (fun v => by rw [judged hfree, resetCycle_powersDown (by exact hs)]; rfl) (fun _ => rfl)
      fun v => ((OnlyChanges.refl _ _).cde _).pins _
    exact ⟨_, hn, hg.2 .cde (by decide) (by decide), ha, ho.within⟩
  · rcases hs with ⟨hs, -⟩ | ⟨hs, hf⟩
    · simp [hs]
    · simp [hs, hf]
  · obtain ⟨v, u, hn, ha, ho, hg, -⟩ := taken_next h (judge := judgeResetCard) (a := ⟨.started, []⟩) (ps := [.cde, .monitor]) (g := fun w =>
        withAmn { s.amn with queue := s.amn.queue ++ [.card] } (withCde (poweringUp base) w))
      (fun v => by
        rw [judged (free (by simp [hs])), resetCycle_fault (by exact hs),
          leaveFault_powersUp (by exact hdis) (by exact hrun) (by exact hq)]
        rfl) (fun _ => rfl)
      fun v => ((OnlyChanges.refl _ _).cde _).amn _
    have hqueue := congrArg Amn.queue (hg.2 .monitor (by decide) (by decide))
    exact ⟨_, hn, hg.2 .cde (by decide) (by decide), hqueue, ha, ho.within⟩

end Sys2Proof.Machine
end

section
/-! PROOFS. SET_MONITOR and STANDBY (R66, R151, R152; O37, O39). -/

namespace Sys2Proof.Machine

set_option Elab.async false

/-! ### SET_MONITOR -/

theorem exec_setMonitor (m : MonitorArgs) (s : State) :
    exec (.setMonitor m) s = event s (serve (.setMonitor m) (judgeSetMonitor m)) := rfl

theorem monitorRefused_iff (m : MonitorArgs) (b : MonitorSettings) : monitorRefused m b = true ↔
    m.selection.getLsbD 3 = true ∧ b.limit < b.warn ∨ m.selection.getLsbD 4 = true ∧ b.armFloor < b.critFloor := by
  simp [monitorRefused, MonitorArgs.has]

/-- The settings field by field (R151). -/
theorem MonitorSettings.apply_eq (b : MonitorSettings) (m : MonitorArgs) : b.apply m =
    ⟨if m.selection.getLsbD 0 then m.tempSlope.toInt else b.tempSlope,
     if m.selection.getLsbD 0 then m.tempOffset.toInt else b.tempOffset,
     if m.selection.getLsbD 1 then m.battSlope.toInt else b.battSlope,
     if m.selection.getLsbD 1 then m.battOffset.toInt else b.battOffset,
     if m.selection.getLsbD 2 then m.cardSlope.toInt else b.cardSlope,
     if m.selection.getLsbD 2 then m.cardOffset.toInt else b.cardOffset,
     if m.selection.getLsbD 3 then max (-160) (min 500 m.warn.toInt) else b.warn,
     if m.selection.getLsbD 3 then max (-160) (min 500 m.limit.toInt) else b.limit,
     if m.selection.getLsbD 4 then max 0 (min 65535 m.armFloor.toInt) else b.armFloor,
     if m.selection.getLsbD 4 then max 0 (min 65535 m.critFloor.toInt) else b.critFloor,
     if m.selection.getLsbD 5 then max 10 (min 2550 (m.interval.toNat / 10 * 10)) else b.interval⟩ := by
  unfold MonitorSettings.apply MonitorArgs.has clampInterval clampInt clampNat
  split_ifs <;> rfl

/-- The monitor with the channels whose calibration changes not valid (R150, R152). -/
def recalibrated (m : MonitorArgs) (a : Amn) : Amn :=
  { a with
    tempValid := a.tempValid && !m.selection.getLsbD 0
    tempLevel := if m.selection.getLsbD 0 then .normal else a.tempLevel
    battValid := a.battValid && !m.selection.getLsbD 1
    battLevel := if m.selection.getLsbD 1 then .normal else a.battLevel
    cardValid := a.cardValid && !m.selection.getLsbD 2 }

/-- Whether the request changes the calibration of a channel (R152). -/
def calibrates (m : MonitorArgs) : Channel → Bool
  | .temp => m.selection.getLsbD 0
  | .batt => m.selection.getLsbD 1
  | .card => m.selection.getLsbD 2

/-- With the converter free the settings are in force at once (R152). -/
theorem Amn.accept_free {a : Amn} (h : a.conv = none) (m : MonitorArgs) (b : MonitorSettings) : a.accept m b =
    { recalibrated m a with
      settings := b
      next := none
      sampleTimer := if b.interval = a.settings.interval then a.sampleTimer else b.interval * 1000 } := by
  obtain ⟨⟩ := a
  subst h
  unfold Amn.accept Amn.invalidate Amn.applySettings recalibrated MonitorArgs.has Amn.restartTimer
  split_ifs <;> simp_all

/-- With a conversion in progress they wait for its end, and its result does not stand when its channel changes (R152). -/
theorem Amn.accept_converting {a : Amn} {v : Conversion} (h : a.conv = some v) (m : MonitorArgs) (b : MonitorSettings) :
    a.accept m b =
      { recalibrated m a with
        next := some b
        conv := some (if calibrates m v.channel then { v with stands := false } else v) } := by
  obtain ⟨⟩ := a
  obtain ⟨c, d, st, l⟩ := v
  subst h
  unfold Amn.accept Amn.invalidate recalibrated MonitorArgs.has
  cases c <;> split_ifs <;> simp_all [calibrates]

theorem recalibrated_iff (m : MonitorArgs) (c : Channel) : calibrates m c = true ↔
    c = .temp ∧ m.selection.getLsbD 0 = true ∨ c = .batt ∧ m.selection.getLsbD 1 = true ∨
      c = .card ∧ m.selection.getLsbD 2 = true := by
  cases c <;> simp [calibrates]

theorem judgeSetMonitor_refuses {m : MonitorArgs} {s : State} (h : monitorRefused m (s.amn.base.apply m) = true) :
    judgeSetMonitor m s = reply .badRequest s := if_pos h

theorem judgeSetMonitor_accepts {m : MonitorArgs} {s : State} (h : ¬ monitorRefused m (s.amn.base.apply m) = true) :
    judgeSetMonitor m s = answer ⟨.done, monitorResult (s.amn.base.apply m)⟩
      (mark 3 (withAmn (s.amn.accept m (s.amn.base.apply m)) s)) := if_neg h

/-- An accepted SET_MONITOR: the monitor as it accepts the settings, the answer, piece 3 marked. -/
theorem setMonitor_accepted {m : MonitorArgs} {s : State} {a : Amn} (h : Taken (.setMonitor m) s)
    (hok : ¬ monitorRefused m (s.amn.base.apply m) = true) (ha : s.amn.accept m (s.amn.base.apply m) = a)
    (hs : a.stopped = s.amn.stopped) (hk : a.stopAsked = s.amn.stopAsked) :
    ∃ t, exec (.setMonitor m) s = .next t ∧ { t.amn with stopped := s.amn.stopped, stopAsked := s.amn.stopAsked } = a ∧
      Answered ⟨.done, monitorResult (s.amn.base.apply m)⟩ s t ∧ 3 ∈ t.rqe.marked ∧ Marked s t ∧
      OnlyChanges [.monitor, .service] s t := by
  obtain ⟨v, u, hn, hans, ho, -, hamn, hmarked⟩ := taken_next h (judge := judgeSetMonitor m) (ps := [.monitor])
    (a := ⟨.done, monitorResult (s.amn.base.apply m)⟩) (g := fun w => mark 3 (withAmn a w)) (fun v => by rw [judgeSetMonitor_accepts (by exact hok), ← ha]; rfl)
    (fun _ => (mark_sameRing _ 3).service) fun v => ((OnlyChanges.refl _ _).amn _).marked _
  refine ⟨_, hn, ?_, hans, finish_marked _ _ ?_, finish_marks _ _, ho.within⟩
  · rw [finish_amn, hamn, ← hs, ← hk]
    rfl
  · rw [hmarked]
    exact (mem_mark _ 3 3).2 (.inr rfl)

/-- Settles O37: the settings field by field, then `Amn.accept` with the converter free or not. -/
theorem setMonitor : Obligations.SetMonitor := by
  intro m s h sel b u contradicts cleared result takes
  have hu : s.amn.base.apply m = u := MonitorSettings.apply_eq _ _
  have hcontra : monitorRefused m (s.amn.base.apply m) = true ↔ contradicts := by rw [monitorRefused_iff, hu]
  have hcleared : recalibrated m s.amn = cleared := rfl
  have accepted {a : Amn} (hok : ¬ contradicts) (ha : s.amn.accept m u = a) (hs : a.stopped = s.amn.stopped)
      (hk : a.stopAsked = s.amn.stopAsked) : takes a := by
    have hnext := setMonitor_accepted h (by rwa [hcontra]) (by rw [hu]; exact ha) hs hk
    rwa [hu] at hnext
  refine ⟨fun hbad => taken_refused h fun v => judgeSetMonitor_refuses (hcontra.2 hbad), fun hok hfree => ?_,
    fun hok v hconv => ⟨fun hre => ?_, fun hsame => ?_⟩⟩
  · exact accepted hok (Amn.accept_free hfree m u) rfl rfl
  · exact accepted hok ((Amn.accept_converting hconv m u).trans (by rw [if_pos ((recalibrated_iff _ _).2 hre)]; rfl)) rfl rfl
  · refine accepted hok ((Amn.accept_converting hconv m u).trans ?_) rfl rfl
    rw [if_neg (by rwa [recalibrated_iff]), ← hconv]
    rfl

/-! ### STANDBY -/

theorem exec_standby (s : State) : exec .standby s = event s (serve .standby judgeStandby) := rfl

/-- A record not in a final phase. -/
theorem Phase.not_final_iff (p : Phase) : (!p.final) = true ↔
    p = .arming ∨ p = .waiting ∨ p = .exposing ∨ p = .reading ∨ p = .held ∨ p = .storing := by
  cases p <;> simp [Phase.final]

theorem standbyBusy_iff (s : State) : standbyBusy s = true ↔
    (∃ r ∈ s.stb.records, r.phase = .arming ∨ r.phase = .waiting ∨ r.phase = .exposing ∨ r.phase = .reading ∨
        r.phase = .held ∨ r.phase = .storing) ∨
      s.cde.reads ≠ [] ∨ s.cde.serving ≠ none ∨ s.cde.state = .writing := by
  have hreads : (!(cardReads s).isEmpty) = true ↔ s.cde.reads ≠ [] ∨ s.cde.serving ≠ none := by
    unfold cardReads
    cases s.cde.serving <;> simp
  simp only [standbyBusy, Bool.or_eq_true, List.any_eq_true, Phase.not_final_iff, hreads, beq_iff_eq, or_assoc]

/-- The state with an accepted STANDBY. -/
def withSleep (s : State) : State := { s with hmp := { s.hmp with sleepAsked := true } }

theorem withSleep_onlyChanges (s : State) : OnlyChanges [.path] s (withSleep s) := by
  refine ⟨rfl, fun p hp _ => ?_⟩
  cases p <;> simp_all [Part.agree, withSleep]

/-- A request of the ring is still in service when it has been answered. -/
theorem acceptStandby_of_ring {s : State} {v : Service} {k : Nat} (h : s.rqe.service = some v) (hk : v.index = some k) :
    acceptStandby s = answer ⟨.done, []⟩ (withSleep s) := by
  obtain ⟨hn, -⟩ | ⟨w, hw, hi, -⟩ | ⟨w, j, hw, hi, he⟩ := answer_cases ⟨.done, []⟩ (withSleep s)
  · exact absurd (h.symm.trans hn) (by simp)
  · cases h.symm.trans hw
    exact absurd (hk.symm.trans hi) (by simp)
  · have hservice : (answer ⟨.done, []⟩ (withSleep s)).rqe.service ≠ none := by
      rw [he]
      simp
    exact if_neg fun hnone => hservice (Option.isNone_iff_eq_none.mp hnone)

/-- Settles O39: the ring keeps the request in service, so the entry waits for its completion. -/
theorem standby : Obligations.Standby := by
  intro s h busy
  rw [exec_standby]
  refine ⟨fun hb => taken_refused h fun v => if_pos ((standbyBusy_iff _).2 hb), fun hb v k hv hk => ?_⟩
  have hfree : ¬ standbyBusy s = true := fun h => hb ((standbyBusy_iff _).1 h)
  obtain ⟨w, u, hn, ha, ho, hg, -⟩ := taken_next h (judge := fun w => answer ⟨.done, []⟩ (withSleep w)) (ps := [.path])
    (g := withSleep) (fun _ => rfl) (fun _ => rfl) fun _ => withSleep_onlyChanges _
  have hsame : serve .standby judgeStandby s = serve .standby (fun w => answer ⟨.done, []⟩ (withSleep w)) s := by
    obtain ⟨-, ⟨x, hx, hst⟩ | ⟨hx, -⟩⟩ := h
    · simp only [serve, hx, hst, if_true]
      exact (if_neg (by exact hfree)).trans (acceptStandby_of_ring hv hk)
    · exact absurd (hv.symm.trans hx) (by simp)
  rw [event_next _ h.1, hsame, ← event_next _ h.1]
  obtain ⟨hpath, hwake, hsleep⟩ := hg.2 .path (by decide) (by decide)
  exact ⟨_, hn, hsleep, hpath, hwake, ha, ho.within⟩

end Sys2Proof.Machine
end

section
/-! PROOFS. The watched words (R196, R202; O40), with what the end of a command makes of the occurrences. -/

namespace Sys2Proof.Machine

set_option Elab.async false

/-! ### Flags and their bits -/

theorem EventFlag.bit_lt (f : EventFlag) : f.bit < 18 := by cases f <;> decide

theorem EventFlag.mask_getLsbD (f : EventFlag) (k : Nat) : f.mask.getLsbD k = decide (k = f.bit) := by
  have h := f.bit_lt
  simp only [EventFlag.mask, BitVec.getLsbD_shiftLeft, BitVec.getLsbD_one]
  by_cases hk : k = f.bit
  · subst hk
    simp [h]
  · simp [hk]
    omega

theorem EventFlag.and_mask_ne_zero (f : EventFlag) (w : BitVec 18) : w &&& f.mask ≠ 0 ↔ w.getLsbD f.bit = true := by
  constructor
  · intro h
    by_contra hbit
    refine h (BitVec.eq_of_getLsbD_eq fun k hk => ?_)
    by_cases he : k = f.bit
    · subst he
      rw [BitVec.getLsbD_and, Bool.eq_false_iff.mpr hbit]
      exact (BitVec.getLsbD_zero).symm
    · simp [BitVec.getLsbD_and, EventFlag.mask_getLsbD, he]
  · intro h he
    have hbit : (w &&& f.mask).getLsbD f.bit = false := by rw [he]; exact BitVec.getLsbD_zero
    rw [BitVec.getLsbD_and, h, EventFlag.mask_getLsbD] at hbit
    simp at hbit

theorem EventFlag.mask_and_eq_zero (f : EventFlag) (w : BitVec 18) : (f.mask &&& w == 0) = !w.getLsbD f.bit := by
  have h := f.and_mask_ne_zero w
  rw [BitVec.and_comm]
  cases hb : w.getLsbD f.bit <;> simp_all

/-! ### Raises at the end of a command -/

@[simp] theorem mirrorChanges_made (b a : Stb) (es : List Nat) (q : Rqe) : (mirrorChanges b a es q).made = q.made := by
  induction es generalizing q with
  | nil => rfl
  | cons e es ih =>
    unfold mirrorChanges
    rw [ih]
    split <;> rfl

/-- The engine before its owners raise what is due, as to its raises. -/
theorem settleRqe_raising (b a : State) : ∃ q : Rqe, settleRqe b a = (q.placeRaises a.fmc.writingContent).makeRaises ∧
    q.raises = a.rqe.raises ∧ q.flags = a.rqe.flags ∧ q.made = a.rqe.made := by
  refine ⟨_, rfl, by simp, ?_, by simp⟩
  exact ((mirrorChanges_sameRing b.stb a.stb _ a.rqe).trans (markChanges_sameRing b a _ _)).flags

/-- A raise is made of a flag not set, or was. -/
theorem mem_make {q : Rqe} {f g : EventFlag} (h : g ∈ (q.make f).made) :
    g ∈ q.made ∨ g = f ∧ q.flags.getLsbD f.bit = false := by
  unfold Rqe.make at h
  split at h
  · exact .inl h
  · rename_i hno
    rw [not_or, f.and_mask_ne_zero] at hno
    simp only [mark_made, List.mem_append, List.mem_singleton] at h
    exact h.imp_right fun hg => ⟨hg, by simpa using hno.1⟩

theorem mem_makeAll (rs : List Raise) (q : Rqe) {g : EventFlag} (h : g ∈ (rs.foldl (fun q r => q.make r.flag) q).made) :
    g ∈ q.made ∨ q.flags.getLsbD g.bit = false ∧ ∃ r ∈ rs, r.flag = g := by
  induction rs generalizing q with
  | nil => exact .inl h
  | cons r rs ih =>
    rcases ih _ h with hq | ⟨hf, x, hx, hg⟩
    · rcases mem_make hq with hq | ⟨hg, hf⟩
      · exact .inl hq
      · exact .inr ⟨hg ▸ hf, r, by simp, hg.symm⟩
    · exact .inr ⟨by simpa using hf, x, by simp [hx], hg⟩

section Settle

variable (b a : State)

/-- What is raised at the end of a command was raised before, or is the flag of an occurrence, not set. -/
theorem settleRqe_made {g : EventFlag} (h : g ∈ (settleRqe b a).made) :
    g ∈ a.rqe.made ∨ a.rqe.flags.getLsbD g.bit = false ∧ ∃ r ∈ a.rqe.raises, r.flag = g := by
  obtain ⟨q, hq, hr, hf, hm⟩ := settleRqe_raising b a
  rw [hq] at h
  rcases mem_makeAll _ _ h with h | ⟨h, r, hmem, hg⟩
  · exact .inl (hm ▸ h)
  · have hraise := (List.mem_filter.1 hmem).1
    obtain ⟨x, hx, rfl⟩ := List.mem_map.1 hraise
    exact .inr ⟨hf ▸ h, x, hr ▸ hx, hg⟩

theorem settleRqe_keeps_made {g : EventFlag} (h : g ∈ a.rqe.made) : g ∈ (settleRqe b a).made := by
  obtain ⟨q, hq, -, -, hm⟩ := settleRqe_raising b a
  obtain ⟨-, -, -, -, -, -, hkeeps, -⟩ := makeAll ((q.placeRaises a.fmc.writingContent).raises.filter Raise.ripe)
    { q.placeRaises a.fmc.writingContent with
      raises := (q.placeRaises a.fmc.writingContent).raises.filter fun r => !r.ripe }
  rw [hq]
  exact hkeeps g (hm ▸ h)

theorem placed_mem {q : Rqe} {w : Bool} {r : Raise} {h : Hold} (hr : r ∈ q.raises) (hh : r.hold = some h) :
    r ∈ (q.placeRaises w).raises := by
  refine List.mem_map.2 ⟨r, hr, ?_⟩
  obtain ⟨f, hold⟩ := r
  cases hh
  rfl

/-- An occurrence whose writes are not all made still waits. -/
theorem settleRqe_waits {r : Raise} {h : Hold} (hr : r ∈ a.rqe.raises) (hh : r.hold = some h) (hd : h.done = false) :
    r ∈ (settleRqe b a).raises := by
  obtain ⟨q, hq, hraises, -, -⟩ := settleRqe_raising b a
  rw [hq, (makeRaises_cases _).2.1]
  exact List.mem_filter.2 ⟨placed_mem (hraises ▸ hr) hh, by simp [Raise.ripe, hh, hd]⟩

/-- An occurrence whose writes are all made has its flag raised. -/
theorem settleRqe_ripe {r : Raise} {h : Hold} (hr : r ∈ a.rqe.raises) (hh : r.hold = some h) (hd : h.done = true) :
    (settleRqe b a).flags &&& r.flag.mask ≠ 0 ∨ r.flag ∈ (settleRqe b a).made := by
  obtain ⟨q, hq, hraises, -, -⟩ := settleRqe_raising b a
  rw [hq]
  exact (makeRaises_cases _).2.2.2.2.2 r (placed_mem (hraises ▸ hr) hh) (by simp [Raise.ripe, hh, hd])

end Settle

theorem Hold.done_iff (h : Hold) : h.done = true ↔ h = ⟨0, [], false⟩ := by
  obtain ⟨j, p, w⟩ := h
  simp [Hold.done, and_assoc]

/-! ### The words -/

theorem exec_requestTailWordWrite (v : BitVec 32) (s : State) :
    exec (.requestTailWordWrite v) s = event s (observe (.tail v.toNat) (takeTail v.toNat)) := rfl

theorem exec_eventClearWordWrite (v : BitVec 32) (s : State) :
    exec (.eventClearWordWrite v) s = event s (observe (.clear v.toNat) (modRqe fun q => q.clear (flagBits v))) := rfl

/-- The oldest observation, or none outstanding: the word is acted on, with the rest outstanding. -/
theorem observe_oldest {o : Observed} {rest : List Observed} {s : State}
    (h : s.rqe.observed = o :: rest ∨ s.rqe.observed = [] ∧ rest = []) (f : State → State) :
    observe o f s = f (withRqe { s.rqe with observed := rest } s) := by
  unfold observe
  rcases h with h | ⟨h, rfl⟩
  · split
    · simp_all
    · rename_i x more hcons
      cases hcons.symm.trans h
      exact if_pos rfl
  · split
    · rw [← h]
      rfl
    · simp_all

theorem observed_onlyChanges (rest : List Observed) (s : State) :
    OnlyChanges [.tail] s (withRqe { s.rqe with observed := rest } s) := by
  refine ⟨rfl, fun p hp _ => ?_⟩
  cases p <;> simp_all [Part.agree, withRqe]

/-- The state with the cached tail and the ring-fault counter replaced. -/
def withTail (v n : Nat) (s : State) : State := withRqe { s.rqe with tail := v, ringFaults := n } s

theorem withTail_onlyChanges (v n : Nat) (s : State) : OnlyChanges [.tail] s (withTail v n s) := by
  refine ⟨rfl, fun p hp _ => ?_⟩
  cases p <;> simp_all [Part.agree, withTail, withRqe]

theorem takeTail_in {v : Nat} (h : v < 32) (s : State) : takeTail v s = withTail v s.rqe.ringFaults s := if_pos h

theorem takeTail_out {v : Nat} (h : 32 ≤ v) (s : State) :
    takeTail v s = raise .ringFault (withTail s.rqe.tail (min 4294967295 (s.rqe.ringFaults + 1)) s) :=
  if_neg (Nat.not_lt.mpr h)

/-! ### The event clear word -/

/-- The raises of the flags a mask does not name. -/
def kept (m : BitVec 18) (fs : List EventFlag) : List EventFlag := fs.filter fun f => f.mask &&& m == 0

theorem mem_kept (m : BitVec 18) (fs : List EventFlag) (f : EventFlag) :
    f ∈ kept m fs ↔ m.getLsbD f.bit = false ∧ f ∈ fs := by
  rw [kept, List.mem_filter, EventFlag.mask_and_eq_zero, Bool.not_eq_true', and_comm]

/-- The engine with its flags cleared, before piece 0 is marked. -/
def cleared (m : BitVec 18) (q : Rqe) : Rqe :=
  { q with
    made := kept m q.made, carried := kept m q.carried, flags := q.flags &&& ~~~m
    attn := attnOf (q.flags &&& ~~~m) q.enables }

theorem clear_eq (m : BitVec 18) (q : Rqe) : q.clear m = (cleared m q).mark 0 := rfl

theorem clear_sameRing (m : BitVec 18) (q : Rqe) : SameRing (cleared m q) (q.clear m) := mark_sameRing _ 0

theorem withCleared_onlyChanges (m : BitVec 18) (s : State) : OnlyChanges [.flags] s (withRqe (s.rqe.clear m) s) := by
  have hclear : OnlyChanges [.flags] s (withRqe (cleared m s.rqe) s) := by
    refine ⟨rfl, fun p hp _ => ?_⟩
    cases p <;> simp_all [Part.agree, withRqe, cleared, followUp]
  exact hclear.ring (clear_sameRing m s.rqe)

/-- Settles O40: what the word does to the engine, and what the end of the command leaves of it. -/
theorem watchedWords : Obligations.WatchedWords := by
  intro v s rest h
  rw [exec_requestTailWordWrite, exec_eventClearWordWrite]
  refine ⟨fun ho => ⟨fun hin => ?_, fun hout => ?_⟩, fun ho => ?_⟩
  · refine ⟨_, event_to h ((observe_oldest ho _).trans (takeTail_in hin _)), ?_, ?_, ?_,
      ((observed_onlyChanges rest s).trans (withTail_onlyChanges _ _ _)).finish s⟩
    · rw [finish_rqe, finish_tail]; rfl
    · rw [finish_rqe, finish_ringFaults]; rfl
    · rw [finish_rqe, finish_observed]; rfl
  · refine ⟨_, event_to h ((observe_oldest ho _).trans (takeTail_out hout _)), ?_, ?_, finish_raised s _ ?_, ?_,
      (((observed_onlyChanges rest s).trans (withTail_onlyChanges _ _ _)).raised _).finish s⟩
    · rw [finish_rqe, finish_tail]; rfl
    · rw [finish_rqe, finish_ringFaults]; rfl
    · exact List.mem_append_right _ List.mem_cons_self
    · rw [finish_rqe, finish_observed]; rfl
  · have hring := clear_sameRing (flagBits v) { s.rqe with observed := rest }
    have hbit (f : EventFlag) : (flagBits v).getLsbD f.bit = v.getLsbD f.bit := flagBits_getLsbD v f.bit_lt
    have hu := event_to h ((observe_oldest ho (modRqe fun q => q.clear (flagBits v))).trans (rfl : _ =
      withRqe (({ s.rqe with observed := rest } : Rqe).clear (flagBits v)) (withRqe { s.rqe with observed := rest } s)))
    set u := withRqe (({ s.rqe with observed := rest } : Rqe).clear (flagBits v)) (withRqe { s.rqe with observed := rest } s)
    have hflags : u.rqe.flags = s.rqe.flags &&& ~~~flagBits v := hring.flags
    have henables : u.rqe.enables = s.rqe.enables := hring.enables
    have hattn : u.rqe.attn = attnOf u.rqe.flags u.rqe.enables := by rw [hflags, henables]; exact hring.attn
    have hmade : u.rqe.made = kept (flagBits v) s.rqe.made := mark_made _ 0
    have hraises : u.rqe.raises = s.rqe.raises := mark_raises _ 0
    have hcarried : u.rqe.carried = kept (flagBits v) s.rqe.carried := hring.carried
    have hframe : OnlyChanges [.flags, .tail] s u :=
      ((observed_onlyChanges rest s).within).andThen (withCleared_onlyChanges _ _)
    refine ⟨_, hu, fun k hk => ?_, fun f => ?_, fun f hf hv => ?_, fun f hf hv => ?_, fun r w hr hw hne => ?_, ?_, ?_,
      finish_marked s u ((mem_mark _ 0 0).2 (.inr rfl)), ?_, ?_, ?_, hframe.finish s⟩
    · rw [finish_rqe, finish_flags, hflags, BitVec.getLsbD_and, BitVec.getLsbD_not, flagBits_getLsbD v hk]
      simp [hk]
    · rw [finish_rqe, finish_carried, hcarried, mem_kept, hbit]
    · rw [finish_rqe]
      exact settleRqe_keeps_made s u (by rw [hmade, mem_kept, hbit]; exact ⟨hv, hf⟩)
    · rw [finish_rqe] at hf
      rcases settleRqe_made s u hf with hf | ⟨-, r, hr, hg⟩
      · rw [hmade, mem_kept, hbit, hv] at hf
        exact absurd hf.1 (by simp)
      · exact ⟨r, hraises ▸ hr, hg⟩
    · rw [finish_rqe]
      exact settleRqe_waits s u (hraises ▸ hr) hw (by rwa [← Bool.not_eq_true, Hold.done_iff])
    · rw [finish_rqe, finish_enables, henables]
    · refine attnOk_of_eq ?_
      rw [finish_rqe, finish_attn, finish_flags, finish_enables, hattn]
    · rw [finish_rqe, finish_tail]; exact hring.tail
    · rw [finish_rqe, finish_ringFaults]; exact hring.ringFaults
    · rw [finish_rqe, finish_observed]; exact hring.observed

end Sys2Proof.Machine
end

section
/-! PROOFS. The dispatch of a request (R197; O41) and the writes of the status pieces (R200, R201; O43). -/

namespace Sys2Proof.Machine

set_option Elab.async false

/-! ### Dispatch -/

theorem exec_requestDispatch (s : State) : exec .requestDispatch s = event s dispatch := rfl

/-- The kinds 1 to 17 name a request (11 section 11.6). -/
theorem requestOf_isSome_iff (bs : List Byte) : (requestOf bs).isSome = true ↔ 1 ≤ field bs 0 2 ∧ field bs 0 2 ≤ 17 := by
  unfold requestOf
  split
  case h_18 h =>
    simp only [Option.isSome_none, Bool.false_eq_true, false_iff]
    intro hk
    rcases hk with ⟨hlo, hhi⟩
    interval_cases field bs 0 2 <;> simp_all
  all_goals simp [*]

/-- The engine with an entry taken at its head. -/
theorem takeEntry_eq (s : State) : takeEntry s =
    present ⟨.entryRead, 0x3F002000 + 128 * s.rqe.head, 64, [], false⟩
      (withService ⟨some s.rqe.head, 0, .reading [] false⟩ s) := rfl

theorem dispatch_takes {s : State} (h : s.rqe.service = none) (hserving : serving s = true)
    (hne : s.rqe.head ≠ s.rqe.tail) : dispatch s = takeEntry s := by
  simp only [dispatch, h]
  exact if_pos ⟨hserving, hne⟩

theorem dispatch_judges {s : State} {v : Service} {bytes : List Byte} {bad : Bool} (h : s.rqe.service = some v)
    (hst : v.stage = .reading bytes bad) (hl : bytes.length = 96) : dispatch s = judgeRequest v bytes bad s := by
  simp only [dispatch, h, hst]
  exact if_neg (by omega)

/-- The answer to the request of a ring entry, from its service on. -/
theorem answer_of_ring {s : State} {v : Service} {k : Nat} (h : s.rqe.service = some v) (hk : v.index = some k)
    (a : Answer) : answer a s = present ⟨.completionWrite, completionAddr k, 32, [], false⟩
      { s with rqe := { s.rqe with lastAnswer := some a, service := some { v with stage := .answered a } } } := by
  simp only [answer, h, hk]

theorem answer_raises (a : Answer) (s : State) : (answer a s).rqe.raises = s.rqe.raises := by
  obtain ⟨-, he⟩ | ⟨w, -, -, he⟩ | ⟨w, k, -, -, he⟩ := answer_cases a s
  all_goals exact (congrArg (fun t : State => t.rqe.raises) he :)

theorem answer_lastAnswer (a : Answer) (s : State) : (answer a s).rqe.lastAnswer = some a := by
  obtain ⟨-, he⟩ | ⟨w, -, -, he⟩ | ⟨w, k, -, -, he⟩ := answer_cases a s
  all_goals exact (congrArg (fun t : State => t.rqe.lastAnswer) he :)

/-- A request completed without its owner. -/
theorem dispatch_completes {s : State} {k tag : Nat} {st : Stage} {code : Code} (h : s.resetHeld = false)
    (hd : dispatch s = reply code (withService ⟨some k, tag, st⟩ s)) : ∃ t, exec .requestDispatch s = .next t ∧
      t.rqe.service = some ⟨some k, tag, .answered ⟨code, []⟩⟩ ∧ t.rqe.lastAnswer = some ⟨code, []⟩ ∧
      Presented .completionWrite (0x3F002000 + 128 * k + 96) 32 t ∧ OnlyChanges [.service] s t := by
  rw [exec_requestDispatch]
  have hans := answer_of_ring (s := withService ⟨some k, tag, st⟩ s) rfl rfl ⟨code, []⟩
  refine ⟨_, event_to h (hd.trans hans), ?_, ?_, finish_presented _ _ ?_, ?_⟩
  · rw [finish_rqe, finish_service]; rfl
  · rw [finish_rqe, finish_lastAnswer]; rfl
  · exact List.mem_append_right _ List.mem_cons_self
  · rw [← hans]
    exact ((withService_onlyChanges _ s).trans (answer_onlyChanges _ _)).finish s

/-- Settles O41: an entry is taken, or judged by its kind. -/
theorem requestDispatch : Obligations.RequestDispatch := by
  intro s h
  refine ⟨fun hfree hrun hsleep hne => ?_, fun v bytes bad k hv hst hk hl => ?_⟩
  · have hserving : serving s = true := by simp [serving, hrun, hsleep]
    rw [exec_requestDispatch]
    refine ⟨_, event_to h ((dispatch_takes hfree hserving hne).trans (takeEntry_eq s)), ?_, finish_presented _ _ ?_, ?_,
      ((withService_onlyChanges _ s).presented _).finish s⟩
    · rw [finish_rqe, finish_service]; rfl
    · exact List.mem_append_right _ List.mem_cons_self
    · rw [finish_rqe, finish_lastAnswer]; rfl
  · obtain ⟨idx, told, st⟩ := v
    cases hk
    cases hst
    intro tag kind completed
    have hjudge := dispatch_judges hv rfl hl
    have hkind := requestOf_isSome_iff bytes
    refine ⟨fun hbad => dispatch_completes h (st := .reading bytes bad) (hjudge.trans ?_), fun hgood hout =>
      dispatch_completes h (st := .reading bytes bad) (hjudge.trans ?_), fun hgood hlo hhi => ?_⟩
    · exact if_pos hbad
    · have hnone : requestOf bytes = none := by
        rw [← Option.not_isSome_iff_eq_none, hkind]
        omega
      simp only [judgeRequest, hgood, hnone]
      rfl
    · obtain ⟨q, hq⟩ := Option.isSome_iff_exists.1 (hkind.2 ⟨hlo, hhi⟩)
      have hput : judgeRequest ⟨some k, told, .reading bytes bad⟩ bytes bad s = withService ⟨some k, tag, .handed q⟩ s := by
        simp only [judgeRequest, hgood, hq]
        rfl
      rw [exec_requestDispatch]
      refine ⟨_, q, event_to h (hjudge.trans hput), hq, ?_, ?_, (withService_onlyChanges _ s).finish s⟩
      · rw [finish_rqe, finish_service]; rfl
      · rw [finish_rqe, finish_lastAnswer]; rfl

/-! ### The status pieces -/

theorem exec_statusPieceWrite (s : State) : exec .statusPieceWrite s = event s presentPiece := rfl

theorem exec_statusPieceWriteDone (s : State) : exec .statusPieceWriteDone s = event s pieceWritten := rfl

theorem isPiece_eq_true_iff (k : TxnKind) : k.isPiece = true ↔ ∃ j, k = .pieceWrite j := by
  cases k <;> simp [TxnKind.isPiece]

theorem presentPiece_of_marked {s : State} {k : Nat} {rest : List Nat} (hm : s.rqe.marked = k :: rest)
    (hopen : portOpen s = true) (hp : ∀ x ∈ s.fmc.pending, ∀ j, x.kind ≠ .pieceWrite j)
    (ha : ∀ x, s.fmc.active = some x → ∀ j, x.kind ≠ .pieceWrite j) :
    presentPiece s = present ⟨.pieceWrite k, 0x3F000000 + 64 * k, 64, [], false⟩ s := by
  have hnone : ¬ s.fmc.has TxnKind.isPiece = true := by
    simp only [Fmc.has, Fmc.waits, Bool.or_eq_true, List.any_eq_true, Option.any_eq_true, isPiece_eq_true_iff]
    rintro (⟨x, hx, j, hj⟩ | ⟨x, hx, j, hj⟩)
    · exact hp x hx j hj
    · exact ha x hx j hj
  simp only [presentPiece, hm]
  exact if_pos ⟨hopen, hnone⟩

/-- The port free again. -/
theorem freePort_onlyChanges (s : State) : OnlyChanges [.port] s (freePort s) := by
  refine ⟨rfl, fun p hp _ => ?_⟩
  cases p <;> simp_all [Part.agree, freePort]

theorem pieceWritten_of {s : State} {x : Txn} {k : Nat} (h : s.fmc.active = some x) (hk : x.kind = .pieceWrite k) :
    pieceWritten s = payReply (withRqe (pieceDone k s.rqe) (freePort s)) := by
  simp only [pieceWritten, activeKind, h, Option.map_some, hk]
  rfl

/-- An answer that still waits is not given. -/
theorem payReply_of_unpaid {s : State}
    (h : ∀ v a w, s.rqe.service = some v → v.stage = .answering a w → w ≠ ⟨0, [], false⟩) : payReply s = s := by
  unfold payReply
  split
  · rfl
  · rename_i v hv
    split
    · rename_i a w hst
      exact if_neg (by rw [Hold.done_iff]; exact h v a w hv hst)
    all_goals rfl

/-- One that waits for nothing more is. -/
theorem payReply_of_paid {s : State} {v : Service} {a : Answer} (h : s.rqe.service = some v)
    (hst : v.stage = .answering a ⟨0, [], false⟩) : payReply s = answer a s := by
  simp only [payReply, h, hst]
  rfl

/-! ### Piece 0 -/

/-- The flags with those of a list of raises set. -/
theorem foldl_mask_getLsbD (fs : List EventFlag) (w : BitVec 18) (k : Nat) :
    (fs.foldl (fun w f => w ||| f.mask) w).getLsbD k = true ↔ w.getLsbD k = true ∨ ∃ f ∈ fs, f.bit = k := by
  induction fs generalizing w with
  | nil => simp
  | cons f fs ih =>
    rw [List.foldl_cons, ih, BitVec.getLsbD_or, EventFlag.mask_getLsbD]
    simp only [Bool.or_eq_true, decide_eq_true_eq, List.mem_cons, exists_eq_or_imp, or_assoc, eq_comm (a := k)]

theorem setCarried_onlyChanges (s : State) : OnlyChanges [.flags] s (withRqe s.rqe.setCarried s) := by
  refine ⟨rfl, fun p hp _ => ?_⟩
  cases p <;> simp_all [Part.agree, withRqe, Rqe.setCarried, Rqe.setFlags, followUp]

/-! ### A piece of content -/

@[simp] theorem mapHold_index (f : Hold → Hold) (v : Service) : (v.mapHold f).index = v.index := by
  unfold Service.mapHold
  split <;> rfl

theorem mapHold_of_answering (f : Hold → Hold) {v : Service} {a : Answer} {h : Hold} (hst : v.stage = .answering a h) :
    v.mapHold f = { v with stage := .answering a (f h) } := by
  simp only [Service.mapHold, hst]

theorem mapHold_of_not_answering (f : Hold → Hold) {v : Service} (hst : ∀ a h, v.stage ≠ .answering a h) :
    v.mapHold f = v := by
  unfold Service.mapHold
  split
  · rename_i a h hs
    exact absurd hs (hst a h)
  all_goals rfl

theorem mapHolds_onlyChanges (f : Hold → Hold) (s : State) : OnlyChanges [.service] s (withRqe (s.rqe.mapHolds f) s) := by
  refine ⟨rfl, fun p hp _ => ?_⟩
  cases p <;> simp_all [Part.agree, withRqe, Rqe.mapHolds, followUp]

theorem mapHolds_of_not_answering (f : Hold → Hold) {s : State}
    (h : ∀ v a w, s.rqe.service = some v → v.stage ≠ .answering a w) : OnlyChanges [] s (withRqe (s.rqe.mapHolds f) s) := by
  have hservice : s.rqe.service.map (Service.mapHold f) = s.rqe.service := by
    cases hs : s.rqe.service with
    | none => rfl
    | some v => exact congrArg some (mapHold_of_not_answering f fun a w => h v a w hs)
  exact rqe_onlyChanges s ⟨rfl, rfl, rfl, rfl, hservice, rfl, rfl, rfl, rfl, rfl, rfl, rfl⟩

theorem Hold.pieceDone_done (h : Hold) : h.pieceDone.done = true ↔ h.jobs = 0 ∧ h.pieces = [] := by
  simp [Hold.done_iff, Hold.pieceDone]

/-- Piece 0 written, with no answer that waits for nothing more. -/
theorem flagsWritten {s : State} {x : Txn} (h : s.resetHeld = false) (ha : s.fmc.active = some x)
    (hk : x.kind = .pieceWrite 0)
    (hw : ∀ v a w, s.rqe.service = some v → v.stage = .answering a w → w ≠ ⟨0, [], false⟩) :
    event s pieceWritten = .next (finish s (withRqe s.rqe.setCarried (freePort s))) :=
  event_to h ((pieceWritten_of ha hk).trans (payReply_of_unpaid (by exact hw)))

/-- The engine after a piece of content is written. -/
def contentWritten (s : State) : State := withRqe (s.rqe.mapHolds Hold.pieceDone) (freePort s)

theorem contentWritten_onlyChanges (s : State) : OnlyChanges [.port, .service] s (contentWritten s) :=
  (freePort_onlyChanges s).within.andThen (mapHolds_onlyChanges Hold.pieceDone (freePort s))

theorem payReply_onlyChanges (s : State) : OnlyChanges [.service] s (payReply s) := by
  unfold payReply
  split
  · exact OnlyChanges.refl _ s
  · split
    · split
      · exact answer_onlyChanges _ s
      · exact OnlyChanges.refl _ s
    all_goals exact OnlyChanges.refl _ s

theorem payReply_raises (s : State) : (payReply s).rqe.raises = s.rqe.raises := by
  unfold payReply
  split
  · rfl
  · split
    · split
      · exact answer_raises _ s
      · rfl
    all_goals rfl

/-- An answer that waited for the piece alone is given, another waits on. -/
theorem contentWritten_answers {s : State} {v : Service} {a : Answer} {w : Hold} (hv : s.rqe.service = some v)
    (hst : v.stage = .answering a w) :
    let t := finish s (payReply (contentWritten s))
    if w.jobs = 0 ∧ w.pieces = [] then Answered a s t
    else t.rqe.service = some { v with stage := .answering a { w with writing := false } } ∧
      t.rqe.lastAnswer = s.rqe.lastAnswer := by
  intro t
  have hnew : (contentWritten s).rqe.service = some { v with stage := .answering a w.pieceDone } := by
    rw [← mapHold_of_answering _ hst]
    exact congrArg (Option.map _) hv
  split
  · rename_i hpaid
    have hdone : w.pieceDone = ⟨0, [], false⟩ := (Hold.done_iff _).1 ((Hold.pieceDone_done w).2 hpaid)
    have hans : payReply (contentWritten s) = answer a (contentWritten s) := payReply_of_paid hnew (by rw [hdone])
    refine ⟨?_, fun x k hx hk => ?_⟩
    · rw [finish_rqe, finish_lastAnswer, hans]
      exact answer_lastAnswer a _
    · cases hv.symm.trans hx
      have he := hans.trans (answer_of_ring hnew (by exact hk) a)
      refine ⟨?_, finish_presented _ _ ?_⟩
      · rw [finish_rqe, finish_service, he]; rfl
      · rw [he]
        exact List.mem_append_right _ List.mem_cons_self
  · rename_i hunpaid
    have hwaits : payReply (contentWritten s) = contentWritten s := payReply_of_unpaid fun x b u hx hu hzero => by
      cases hnew.symm.trans hx
      cases hu
      exact hunpaid ((Hold.pieceDone_done w).1 ((Hold.done_iff _).2 hzero))
    refine ⟨?_, ?_⟩
    · rw [finish_rqe, finish_service, hwaits, hnew]; rfl
    · rw [finish_rqe, finish_lastAnswer, hwaits]; rfl

/-- Settles O43: the first marked piece, then the end of a piece of flags and of a piece of content. -/
theorem statusPieces : Obligations.StatusPieces := by
  intro s h freed
  have freed_of {ps : List Part} {u : State} (hu : OnlyChanges ps (freePort s) u) (hp : .port ∉ ps := by decide) :
      freed (finish s u) := by
    obtain ⟨hactive, hover, hnext⟩ := (hu.finish s).2 .port hp (by decide)
    exact ⟨hactive, hover, hnext⟩
  rw [exec_statusPieceWrite, exec_statusPieceWriteDone]
  refine ⟨fun k rest hpath hm hp ha => ?_, fun x ha hk hw => ?_, fun x k ha hk => ?_⟩
  · have hopen : portOpen s = true := by rcases hpath with hpath | hpath <;> simp [portOpen, hpath]
    exact ⟨_, event_to h (presentPiece_of_marked hm hopen hp ha),
      finish_presented _ _ (List.mem_append_right _ List.mem_cons_self), ((OnlyChanges.refl [] s).presented _).finish s⟩
  · have hset := setCarried_onlyChanges (freePort s)
    refine ⟨_, flagsWritten h ha hk hw, fun j hj => ?_, ?_, ?_, ?_, fun f hf hmade => ?_, fun f hf hn => ?_,
      freed_of hset, (((freePort_onlyChanges s).within).andThen hset).finish s⟩
    · rw [finish_rqe, finish_flags]
      exact foldl_mask_getLsbD _ _ _
    · rw [finish_rqe, finish_enables]; rfl
    · refine attnOk_of_eq ?_
      rw [finish_rqe, finish_attn, finish_flags, finish_enables]; rfl
    · rw [finish_rqe, finish_carried]; rfl
    · rw [finish_rqe] at hmade
      rcases settleRqe_made _ _ hmade with hin | ⟨hclear, -⟩
      · exact absurd (List.mem_filter.1 hin).2 (by simpa using hf)
      · have hbit := (foldl_mask_getLsbD s.rqe.carried s.rqe.flags f.bit).2 (.inr ⟨f, hf, rfl⟩)
        exact absurd (hclear.symm.trans hbit) (by simp)
    · rw [finish_rqe]
      exact settleRqe_keeps_made _ _ (List.mem_filter.2 ⟨hf, by simpa using hn⟩)
  · have hto := event_to h ((pieceWritten_of ha hk).trans (rfl : _ = payReply (contentWritten s)))
    refine ⟨_, hto, ?_, fun r w hr hw => ?_, fun v a w hv hst => contentWritten_answers hv hst, fun hno => ?_, ?_⟩
    · exact freed_of ((mapHolds_onlyChanges Hold.pieceDone (freePort s)).trans (payReply_onlyChanges _))
    · have hmem : ({ r with hold := some w.pieceDone } : Raise) ∈ (payReply (contentWritten s)).rqe.raises := by
        rw [payReply_raises]
        exact List.mem_map.2 ⟨r, hr, by rw [hw]; rfl⟩
      split
      · rename_i hdone
        rw [finish_rqe]
        exact settleRqe_ripe (r := ⟨r.flag, some w.pieceDone⟩) _ _ hmem rfl ((Hold.pieceDone_done w).2 hdone)
      · rename_i hwait
        rw [finish_rqe]
        exact settleRqe_waits (h := w.pieceDone) _ _ hmem rfl (by rwa [← Bool.not_eq_true, Hold.pieceDone_done])
    · have hsame : payReply (contentWritten s) = contentWritten s := payReply_of_unpaid fun v a w hv hst => by
        obtain ⟨y, hy, rfl⟩ := Option.map_eq_some_iff.1 hv
        rw [mapHold_of_not_answering _ fun b u => hno y b u hy] at hst
        exact absurd hst (hno y a w hy)
      rw [hsame]
      exact ((freePort_onlyChanges s).andThen (mapHolds_of_not_answering Hold.pieceDone (by exact hno))).finish s
    · exact ((contentWritten_onlyChanges s).andThen (payReply_onlyChanges _)).finish s

end Sys2Proof.Machine
end

section
/-! PROOFS. A completion written, and the park of the standby entry (R66, R158, R167, R198; O42). -/

namespace Sys2Proof.Machine

set_option Elab.async false

/-! ### Parks (R164, R167) -/

/-- The card after a power-down (R164). -/
def downFor (why : DischargeFor) (c : Cde) : Cde :=
  { c with
    state := .discharging, rail := .discharging, lines := .highZ, pwrEn := false, discharge := true,
    dischargeTimer := some 500000, dischargeFor := why, rampTimer := none, busTimer := none, powerUp := none,
    ident := none, identDrop := none, ocCount := 0 }

theorem powerDownTo_eq (why : DischargeFor) (s : State) :
    powerDownTo why s = withPins { s.pins with overcurrent := false } (withCde (downFor why s.cde) s) := rfl

/-- The card with no park asked or owed. -/
def unasked (c : Cde) : Cde := { c with parkAsked := false, parkOwed := false }

/-- What a park does in a card state (R167). -/
def parkIn (st : CardState) (s : State) : State :=
  match st with
  | .identifying =>
    if s.cde.ident = some .sent then modCde (fun c => { c with identDrop := some .park }) s else powerDownTo .park s
  | .mounting =>
    powerDownTo .park (modCde (fun c =>
      { c with geometry := if c.mount.any (fun m => m.stage == .rewrite) then c.geometry else none, mount := none }) s)
  | .ready | .unformatted | .reading => powerDownTo .park s
  | .powering => if s.cde.pwrEn then powerDownTo .park s else reachParked s
  | .discharging =>
    if s.cde.dischargeFor = .powerUp then modCde (fun c => { c with dischargeFor := .park }) s else s
  | .absent | .writing | .parked | .fault => s

theorem parkNow_eq (s : State) : parkNow s = parkIn s.cde.state (withCde (unasked s.cde) s) := rfl

theorem park_of_no_run {s : State} (h : s.cde.run = none) : park s = parkIn s.cde.state (withCde (unasked s.cde) s) := by
  rw [park, h]
  rfl

/-- A run in progress is asked to stop first. -/
theorem park_of_run {s : State} {r : Run} (h : s.cde.run = some r) (hst : r.stage ≠ .waiting) :
    park s = withCde { s.cde with parkAsked := true, run := some { r with stop := true } } s := by
  simp only [park, h, askStop, modCde, Option.isSome_some, if_true, hst, if_false, modRun, Option.map_some]
  rfl

/-- The card reaches PARKED and stays there in the standby entry. -/
theorem reachParked_of_entering {s : State} (h : s.hmp.path = .entering) :
    reachParked s = withCde { s.cde with state := .parked, powerUp := none } s := by
  refine if_neg ?_
  rintro ⟨-, hpath⟩
  simp_all [modCde]

/-! ### The monitor's stop at the end of a command (R158) -/

theorem presentWork_monitor (s : State) : (presentWork s).amn = s.amn ∧ (presentWork s).cde = s.cde ∧
    (presentWork s).hmp.path = s.hmp.path := by
  have h := presentWork_followUp s
  refine ⟨?_, h.cde, (congrArg Hmp.path h.hmp :)⟩
  unfold presentWork
  split
  · have hmirror : (presentMirror s).amn = s.amn := by unfold presentMirror; split <;> [rfl; split <;> rfl]
    have hmap : (presentMap (presentMirror s)).amn = (presentMirror s).amn := by
      unfold presentMap
      split <;> [rfl; split <;> rfl]
    exact hmap.trans hmirror
  · rfl

theorem finish_monitor (b u : State) : (finish b u).amn =
    if u.hmp.path = .entering ∧ (u.cde.state = .absent ∨ u.cde.state = .parked ∨ u.cde.state = .fault) ∧
      u.amn.stopped = false ∧ u.amn.stopAsked = false then u.amn.askStop else u.amn := by
  obtain ⟨hamn, hcde, hpath⟩ := presentWork_monitor { u with rqe := settleRqe b u }
  unfold finish stopMonitor
  rw [hamn, hcde, hpath]
  split
  · rfl
  · exact hamn

/-- With the card up, or on its way down, the monitor goes on. -/
theorem finish_monitor_goes {b u : State}
    (h : u.cde.state ≠ .absent ∧ u.cde.state ≠ .parked ∧ u.cde.state ≠ .fault ∨ u.hmp.path ≠ .entering) :
    (finish b u).amn = u.amn := by
  rw [finish_monitor]
  refine if_neg fun hstop => ?_
  tauto

/-- In the standby entry it is asked to stop once the card is down. -/
theorem finish_monitor_asked {b u : State} (hp : u.hmp.path = .entering)
    (hs : u.cde.state = .absent ∨ u.cde.state = .parked ∨ u.cde.state = .fault) (h1 : u.amn.stopped = false)
    (h2 : u.amn.stopAsked = false) :
    (u.amn.conv = none → (finish b u).amn.stopped = true) ∧
    (u.amn.conv ≠ none → (finish b u).amn.stopAsked = true ∧ (finish b u).amn.stopped = false) := by
  rw [finish_monitor, if_pos ⟨hp, hs, h1, h2⟩, Amn.askStop]
  refine ⟨fun hc => by simp [hc], fun hc => ?_⟩
  rw [if_pos (Option.isSome_iff_ne_none.2 hc)]
  exact ⟨rfl, h1⟩

/-! ### The completion -/

theorem exec_completionWriteDone (s : State) : exec .completionWriteDone s = event s completionWritten := rfl

/-- The head past the entry served, and the port free. -/
def served (s : State) : State := withRqe (advanceHead s.rqe) (freePort s)

theorem served_onlyChanges (s : State) : OnlyChanges [.head, .tail, .service, .port] s (served s) := by
  refine ⟨rfl, fun p hp _ => ?_⟩
  cases p <;> simp_all [Part.agree, served, withRqe, advanceHead, freePort, followUp]

/-- The standby entry begun, before its park. -/
def withEntering (s : State) : State := { s with hmp := { s.hmp with path := .entering, sleepAsked := false } }

theorem withEntering_onlyChanges (s : State) : OnlyChanges [.path] s (withEntering s) := by
  refine ⟨rfl, fun p hp _ => ?_⟩
  cases p <;> simp_all [Part.agree, withEntering]

theorem completionWritten_eq {s : State} {x : Txn} (h : s.fmc.active = some x) (hk : x.kind = .completionWrite) :
    completionWritten s = if s.hmp.sleepAsked then park (withEntering (served s)) else served s := by
  have hactive : activeKind s = some .completionWrite := by rw [activeKind, h, Option.map_some, hk]
  exact if_pos hactive

/-- The head advanced, in a state reached from the served one by changes of other parts. -/
theorem advanced_of {qs : List Part} {s u : State} (h : OnlyChanges qs (served s) u)
    (hq : .head ∉ qs ∧ .tail ∉ qs ∧ .service ∉ qs ∧ .port ∉ qs := by decide) :
    u.rqe.head = (s.rqe.head + 1) % 32 ∧ u.rqe.tail = (if s.rqe.tail = s.rqe.head then (s.rqe.head + 1) % 32 else s.rqe.tail) ∧
      u.rqe.ringFaults = s.rqe.ringFaults ∧ u.rqe.observed = s.rqe.observed ∧
      u.rqe.completionNo = (s.rqe.completionNo + 1) % 4294967296 ∧ u.rqe.service = none ∧
      u.rqe.lastAnswer = s.rqe.lastAnswer ∧ u.fmc.active = none ∧ u.fmc.passOver = s.fmc.passOver ∧
      u.fmc.nextPart = s.fmc.nextPart := by
  obtain ⟨hhead, hno⟩ := h.2 .head hq.1 (by decide)
  obtain ⟨htail, hfaults, hobserved⟩ := h.2 .tail hq.2.1 (by decide)
  obtain ⟨hservice, hlast⟩ := h.2 .service hq.2.2.1 (by decide)
  obtain ⟨hactive, hover, hnext⟩ := h.2 .port hq.2.2.2 (by decide)
  exact ⟨hhead, htail, hfaults, hobserved, hno, hservice, hlast, hactive, hover, hnext⟩

/-- The state in which the standby entry parks the card. -/
theorem entry_onlyChanges (s : State) : OnlyChanges [.head, .tail, .service, .port, .path] s (withEntering (served s)) :=
  ((served_onlyChanges s).within).andThen (withEntering_onlyChanges _)

/-- Settles O42: the park by the card state, and the monitor's stop by where the park leaves the card. -/
theorem completionWritten_holds : Obligations.CompletionWritten := by
  intro s x h ha hk advanced entering parts
  rw [exec_completionWriteDone]
  have hw := completionWritten_eq ha hk
  refine ⟨fun hs => ?_, fun hs => ?_⟩
  · have hto : completionWritten s = served s := hw.trans (if_neg (by simp [hs]))
    exact ⟨_, event_to h hto, advanced_of ((OnlyChanges.refl [] (served s)).finish s), (served_onlyChanges s).finish s⟩
  intro none' parked asked goes enters
  set E := withEntering (served s) with hE
  have hto : completionWritten s = park E := hw.trans (if_pos hs)
  have goes_of {u : State} (hamn : u.amn = s.amn)
      (hup : u.cde.state ≠ .absent ∧ u.cde.state ≠ .parked ∧ u.cde.state ≠ .fault) : goes (finish s u) := by
    have hsame := (finish_monitor_goes (b := s) (.inl hup)).trans hamn
    exact ⟨congrArg Amn.stopped hsame, congrArg Amn.stopAsked hsame⟩
  have asked_of {D : Cde} (hdown : D.state = .absent ∨ D.state = .parked ∨ D.state = .fault) :
      asked (finish s (withCde D E)) := fun h1 h2 => finish_monitor_asked (u := withCde D E) rfl hdown h1 h2
  have enters_cde {D : Cde} {monitor : State → Prop} (hu : park E = withCde D E)
      (hm : monitor (finish s (withCde D E))) : enters D [] monitor := by
    have hadv : OnlyChanges [.path, .cde] (served s) (withCde D E) := ((withEntering_onlyChanges _).within).cde _
    exact ⟨_, event_to h (hto.trans hu), advanced_of (hadv.finish s),
      ⟨finish_hmp_path _ _, finish_hmp_wake _ _, finish_hmp_sleepAsked _ _⟩, finish_cde _ _, hm,
      (((entry_onlyChanges s).within).cde D).finish s⟩
  have enters_down {monitor : State → Prop} (hu : park E = powerDownTo .park (withCde none' E))
      (hm : monitor (finish s (powerDownTo .park (withCde none' E)))) : enters parked [.pins] monitor := by
    have hadv : OnlyChanges [.path, .cde, .pins] (served s) (powerDownTo .park (withCde none' E)) :=
      ((((withEntering_onlyChanges _).within).cde none').cde (downFor .park none')).pins _
    exact ⟨_, event_to h (hto.trans hu), advanced_of (hadv.finish s),
      ⟨finish_hmp_path _ _, finish_hmp_wake _ _, finish_hmp_sleepAsked _ _⟩, finish_cde _ _, hm,
      (((((entry_onlyChanges s).within).cde none').cde (downFor .park none')).pins _).finish s⟩
  refine ⟨fun hrun => ?_, fun r hrun hst hmount => enters_cde (park_of_run hrun hst) (goes_of rfl ?_)⟩
  · have hpark {st : CardState} (hstate : s.cde.state = st) : park E = parkIn st (withCde none' E) := by
      rw [← hstate]
      exact park_of_no_run (s := E) hrun
    have hdown : goes (finish s (powerDownTo .park (withCde none' E))) :=
      goes_of rfl (by simp [powerDownTo_eq, withPins, withCde, downFor])
    refine ⟨fun hst => ?_, fun hst => ?_, fun hst hp => ?_, fun hst hp => ?_, fun hst => ⟨fun hi => ?_, fun hi => ?_⟩,
      fun hst => ?_⟩
    · have hpark' : park E = withCde none' E := by
        rcases hst with hst | hst | hst <;> exact hpark hst
      exact enters_cde hpark' (asked_of hst)
    · have hpark' : park E = powerDownTo .park (withCde none' E) := by
        rcases hst with hst | hst | hst <;> exact hpark hst
      exact enters_down hpark' hdown
    · exact enters_down ((hpark hst).trans (if_pos hp)) hdown
    · exact enters_cde ((hpark hst).trans ((if_neg (by exact Bool.eq_false_iff.1 hp)).trans (reachParked_of_entering rfl)))
        (asked_of (.inr (.inl rfl)))
    · exact enters_cde ((hpark hst).trans (if_pos hi)) (goes_of rfl (by simp [withCde, none', hst]))
    · exact enters_down ((hpark hst).trans (if_neg hi)) hdown
    · refine enters_cde ((hpark hst).trans ?_) (goes_of rfl ?_)
      · by_cases hf : s.cde.dischargeFor = .powerUp
        · rw [if_pos hf]
          exact if_pos hf
        · rw [if_neg hf]
          exact if_neg hf
      · split <;> simp [withCde, none', hst]
  · simp [withCde, hmount]

end Sys2Proof.Machine
end

section
/-! PROOFS. Error occurrences and the reads of the port (R132 to R137, R143). -/

namespace Sys2Proof.Machine

set_option Elab.async false

/-! ### One occurrence -/

/-- A record's share of an occurrence of a class (R136). -/
def charge (cls : Option ErrorClass) (r : ShotRecord) : ShotRecord :=
  match cls with
  | none => { r with corrected := satAdd max16 r.corrected 1 }
  | some _ => { r with uncorrectable := satAdd max16 r.uncorrectable 1, flags := { r.flags with damaged := true } }

section Occur

variable (o : Occurrence) (c : ErrorClass) (s : State)

theorem chargeRecord_of_none {o : Occurrence} {s : State} (h : s.stb.charged o.addr = none) : chargeRecord o s = s := by
  simp only [chargeRecord, h]

theorem chargeRecord_of_some {o : Occurrence} {s : State} {r : ShotRecord} (h : s.stb.charged o.addr = some r) :
    chargeRecord o s = rewriteShot r.shot (withStb (s.stb.update r.shot (charge o.cls)) s) := by
  simp only [chargeRecord, h]
  rfl

theorem chargeRecord_onlyChanges : OnlyChanges [.stb] s (chargeRecord o s) := by
  rcases h : s.stb.charged o.addr with _ | r
  · rw [chargeRecord_of_none h]
    exact OnlyChanges.refl _ s
  · rw [chargeRecord_of_some h]
    exact ((OnlyChanges.refl _ s).stb _).rewritten _

theorem rewriteShot_same (n : Nat) : (rewriteShot n s).fmc = s.fmc ∧ (rewriteShot n s).rqe.raises = s.rqe.raises := by
  unfold rewriteShot
  split <;> exact ⟨rfl, rfl⟩

theorem chargeRecord_same : (chargeRecord o s).fmc = s.fmc ∧ (chargeRecord o s).rqe.raises = s.rqe.raises := by
  rcases h : s.stb.charged o.addr with _ | r
  · rw [chargeRecord_of_none h]
    exact ⟨rfl, rfl⟩
  · rw [chargeRecord_of_some h]
    exact rewriteShot_same _ _

/-- The state with its error log, the log's update number, and its queued writes replaced. -/
def withLog (log : List LogEntry) (ovf upd : Nat) (jobs : List MirrorJob) (s : State) : State :=
  { s with fmc := { s.fmc with errlog := log, overflow := ovf, logUpdate := upd }, rqe := { s.rqe with jobs := jobs } }

theorem withLog_onlyChanges (log : List LogEntry) (ovf upd : Nat) (jobs : List MirrorJob) :
    OnlyChanges [.errors] s (withLog log ovf upd jobs s) := by
  refine ⟨rfl, fun p hp hf => ?_⟩
  cases p <;> simp_all [Part.agree, withLog, followUp]

/-- The update number of the log's next header. -/
def nextUpdate (s : State) : Nat := (s.fmc.logUpdate + 1) % 4294967296

/-- An occurrence at the address of entry `k`: a hit more (R135). -/
theorem logOccurrence_hit {o : Occurrence} {s : State} {k : Nat} (h : logIndex o.addr 0 s.fmc.errlog = some k) :
    let log := s.fmc.errlog.modify k fun e => { e with hits := satAdd max16 e.hits 1 }
    logOccurrence o c s = withLog log s.fmc.overflow (nextUpdate s)
      (s.rqe.jobs ++ [.errorEntry k log[k]?] ++ [.errorHeader (nextUpdate s) log.length s.fmc.overflow]) s := by
  simp only [logOccurrence, h]
  rfl

/-- The entry of a first occurrence at an address. -/
def newEntry (o : Occurrence) (c : ErrorClass) (s : State) : LogEntry :=
  { addr := o.addr, syndrome := o.syndrome, cls := c, source := o.source, hits := 1,
    shot := (s.stb.charged o.addr).map (·.shot) }

theorem logOccurrence_new {o : Occurrence} {s : State} (h : logIndex o.addr 0 s.fmc.errlog = none)
    (hl : s.fmc.errlog.length < 16) : logOccurrence o c s =
      withLog (s.fmc.errlog ++ [newEntry o c s]) s.fmc.overflow (nextUpdate s)
        (s.rqe.jobs ++ [.errorEntry s.fmc.errlog.length (some (newEntry o c s))] ++
          [.errorHeader (nextUpdate s) (s.fmc.errlog ++ [newEntry o c s]).length s.fmc.overflow]) s := by
  simp only [logOccurrence, h]
  exact if_pos hl

theorem logOccurrence_full {o : Occurrence} {s : State} (h : logIndex o.addr 0 s.fmc.errlog = none)
    (hl : 16 ≤ s.fmc.errlog.length) : logOccurrence o c s =
      withLog s.fmc.errlog (min 4294967295 (s.fmc.overflow + 1)) (nextUpdate s)
        (s.rqe.jobs ++ [.errorHeader (nextUpdate s) s.fmc.errlog.length (min 4294967295 (s.fmc.overflow + 1))]) s := by
  simp only [logOccurrence, h]
  exact if_neg (Nat.not_lt.mpr hl)

/-- In each case the log changes and the log alone. -/
theorem logOccurrence_eq : ∃ log ovf jobs, logOccurrence o c s = withLog log ovf (nextUpdate s) jobs s := by
  rcases h : logIndex o.addr 0 s.fmc.errlog with _ | k
  · rcases Nat.lt_or_ge s.fmc.errlog.length 16 with hl | hl
    · exact ⟨_, _, _, logOccurrence_new c h hl⟩
    · exact ⟨_, _, _, logOccurrence_full c h hl⟩
  · exact ⟨_, _, _, logOccurrence_hit c h⟩

theorem logOccurrence_onlyChanges : OnlyChanges [.errors] s (logOccurrence o c s) := by
  obtain ⟨log, ovf, jobs, h⟩ := logOccurrence_eq o c s
  rw [h]
  exact withLog_onlyChanges s log ovf _ jobs

/-- The counters of an occurrence (R134). -/
def withCount (o : Occurrence) (s : State) : State := { s with fmc := s.fmc.count o }

theorem count_errlog (f : Fmc) : (f.count o).errlog = f.errlog := by
  unfold Fmc.count
  split <;> [rfl; split_ifs <;> rfl]

theorem withCount_onlyChanges : OnlyChanges [.errors] s (withCount o s) := by
  refine ⟨rfl, fun p hp hf => ?_⟩
  rcases hcls : o.cls with _ | c
  · simp only [withCount, Fmc.count, hcls]
    split_ifs <;> cases p <;> simp_all [Part.agree]
  · simp only [withCount, Fmc.count, hcls]
    cases p <;> simp_all [Part.agree]

/-- An occurrence logged, if it is logged. -/
def logged (o : Occurrence) (s : State) : State :=
  match o.cls with
  | some c => logOccurrence o c s
  | none => s

theorem logged_onlyChanges : OnlyChanges [.errors] s (logged o s) := by
  unfold logged
  split
  · exact logOccurrence_onlyChanges o _ s
  · exact OnlyChanges.refl _ s

/-- The event of an occurrence. -/
def Occurrence.flag (o : Occurrence) : EventFlag := if o.cls.isSome then .memUncorrectable else .memCorrected

/-- Record, log, counters, event (R134). -/
theorem occur_eq : occur o s = raise o.flag (withCount o (logged o (chargeRecord o s))) := by
  unfold occur logged
  rfl

theorem occur_onlyChanges : OnlyChanges [.stb, .errors] s (occur o s) := by
  rw [occur_eq]
  exact ((((chargeRecord_onlyChanges o s).within).andThen (logged_onlyChanges o _)).andThen
    (withCount_onlyChanges o _)).raised _

theorem logged_raises : (logged o s).rqe.raises = s.rqe.raises := by
  unfold logged
  split
  · obtain ⟨log, ovf, jobs, h⟩ := logOccurrence_eq o _ s
    rw [h]
    rfl
  · rfl

theorem occur_raises : (occur o s).rqe.raises = s.rqe.raises ++ [⟨o.flag, none⟩] := by
  rw [occur_eq, ← (chargeRecord_same o s).2, ← logged_raises o (chargeRecord o s)]
  rfl

end Occur

end Sys2Proof.Machine
end

section
/-! PROOFS. What reports and offers leave, and the codewords of a read (R132 to R134, R143). -/

namespace Sys2Proof.Machine

set_option Elab.async false

/-! ### Reports and offers -/

/-- What any number of reports and offers to the scrubber's queue leave of a state. -/
structure Found (s t : State) : Prop where
  frame : OnlyChanges [.stb, .errors, .corrected] s t
  mem : t.mem = s.mem
  raises : ∃ rs, t.rqe.raises = s.rqe.raises ++ rs
  corrected : ∃ more, t.fmc.corrected = s.fmc.corrected ++ more
  uncorrectable : s.fmc.uncorrectable ≤ 4294967295 →
    s.fmc.uncorrectable ≤ t.fmc.uncorrectable ∧ t.fmc.uncorrectable ≤ 4294967295
  general : s.fmc.corrGeneral ≤ 4294967295 → s.fmc.corrGeneral ≤ t.fmc.corrGeneral ∧ t.fmc.corrGeneral ≤ 4294967295

theorem Found.refl (s : State) : Found s s :=
  ⟨OnlyChanges.refl _ s, rfl, ⟨[], by simp⟩, ⟨[], by simp⟩, fun h => ⟨Nat.le_refl _, h⟩, fun h => ⟨Nat.le_refl _, h⟩⟩

theorem Found.trans {s t u : State} (h : Found s t) (k : Found t u) : Found s u where
  frame := h.frame.trans k.frame
  mem := k.mem.trans h.mem
  raises := by
    obtain ⟨rs, hr⟩ := h.raises
    obtain ⟨qs, hq⟩ := k.raises
    exact ⟨rs ++ qs, by rw [hq, hr, List.append_assoc]⟩
  corrected := by
    obtain ⟨rs, hr⟩ := h.corrected
    obtain ⟨qs, hq⟩ := k.corrected
    exact ⟨rs ++ qs, by rw [hq, hr, List.append_assoc]⟩
  uncorrectable hs :=
    have ht := h.uncorrectable hs
    have hu := k.uncorrectable ht.2
    ⟨ht.1.trans hu.1, hu.2⟩
  general hs :=
    have ht := h.general hs
    have hu := k.general ht.2
    ⟨ht.1.trans hu.1, hu.2⟩

theorem Found.raised {s t : State} (h : Found s t) {r : Raise} (hr : r ∈ s.rqe.raises) : r ∈ t.rqe.raises := by
  obtain ⟨rs, hrs⟩ := h.raises
  rw [hrs]
  exact List.mem_append_left _ hr

theorem Found.offered {s t : State} (h : Found s t) {a : Nat} (ha : a ∈ s.fmc.corrected ∨ 8 ≤ s.fmc.corrected.length) :
    a ∈ t.fmc.corrected ∨ 8 ≤ t.fmc.corrected.length := by
  obtain ⟨rs, hrs⟩ := h.corrected
  rw [hrs, List.length_append]
  exact ha.imp (List.mem_append_left _) fun hl => hl.trans (Nat.le_add_right _ _)

section Occur

variable (o : Occurrence) (s : State)

/-- The counters of the controller but for the log. -/
theorem logged_fmc : ∃ log ovf upd,
    (logged o (chargeRecord o s)).fmc = { s.fmc with errlog := log, overflow := ovf, logUpdate := upd } := by
  have hcharge := (chargeRecord_same o s).1
  unfold logged
  split
  · obtain ⟨log, ovf, jobs, h⟩ := logOccurrence_eq o _ (chargeRecord o s)
    rw [h, ← hcharge]
    exact ⟨_, _, _, rfl⟩
  · exact ⟨_, _, _, hcharge⟩

theorem occur_uncorrectable (h : o.cls.isSome = true) :
    (occur o s).fmc.uncorrectable = min 4294967295 (s.fmc.uncorrectable + 1) := by
  obtain ⟨log, ovf, upd, hf⟩ := logged_fmc o s
  obtain ⟨c, hc⟩ := Option.isSome_iff_exists.1 h
  rw [occur_eq, raise_fmc, withCount, hf]
  simp only [Fmc.count, hc]
  rfl

theorem occur_corrected_counts (h : o.cls = none) : (occur o s).fmc.uncorrectable = s.fmc.uncorrectable ∧
    (occur o s).fmc.errlog = s.fmc.errlog ∧
    (o.addr < 0x10000000 → (occur o s).fmc.corrGeneral = min 4294967295 (s.fmc.corrGeneral + 1)) ∧
    (¬ o.addr < 0x10000000 → (occur o s).fmc.corrGeneral = s.fmc.corrGeneral) := by
  have hf : (logged o (chargeRecord o s)).fmc = s.fmc := by
    simp only [logged, h]
    exact (chargeRecord_same o s).1
  rw [occur_eq, raise_fmc, withCount, hf]
  simp only [Fmc.count, h]
  split
  · rename_i hlow
    exact ⟨rfl, rfl, fun _ => rfl, fun hno => absurd hlow hno⟩
  · rename_i hhigh
    split <;> exact ⟨rfl, rfl, fun hlow => absurd hlow hhigh, fun _ => rfl⟩

theorem occur_general_of_logged (h : o.cls.isSome = true) : (occur o s).fmc.corrGeneral = s.fmc.corrGeneral := by
  obtain ⟨log, ovf, upd, hf⟩ := logged_fmc o s
  obtain ⟨c, hc⟩ := Option.isSome_iff_exists.1 h
  rw [occur_eq, raise_fmc, withCount, hf]
  simp only [Fmc.count, hc]

theorem occur_found : Found s (occur o s) where
  frame := (occur_onlyChanges o s).within
  mem := occur_mem o s
  raises := ⟨_, occur_raises o s⟩
  corrected := by
    have hsame : (occur o s).fmc.corrected = s.fmc.corrected := (occur_onlyChanges o s).2 .corrected (by decide) (by decide)
    exact ⟨[], by simp [hsame]⟩
  uncorrectable hs := by
    by_cases h : o.cls.isSome = true
    · rw [occur_uncorrectable o s h]
      omega
    · rw [(occur_corrected_counts o s (by simpa using h)).1]
      exact ⟨Nat.le_refl _, hs⟩
  general hs := by
    by_cases h : o.cls.isSome = true
    · rw [occur_general_of_logged o s h]
      exact ⟨Nat.le_refl _, hs⟩
    · obtain ⟨-, -, hlow, hhigh⟩ := occur_corrected_counts o s (by simpa using h)
      by_cases ha : o.addr < 0x10000000
      · rw [hlow ha]
        omega
      · rw [hhigh ha]
        exact ⟨Nat.le_refl _, hs⟩

end Occur

/-! ### One codeword -/

/-- The occurrence a read of a codeword reports. -/
def occurrenceOf (src : ErrorSource) (cw : Nat) (c : Checked) : Occurrence :=
  { addr := cw, syndrome := c.syndrome, cls := c.cls.logged, source := src }

theorem report_of_clean {src : ErrorSource} {cw : Nat} {c : Checked} (h : c.cls = .clean) (s : State) :
    report src cw c s = s := if_pos h

theorem report_of_error {src : ErrorSource} {cw : Nat} {c : Checked} (h : c.cls ≠ .clean) (s : State) :
    report src cw c s = occur (occurrenceOf src cw c) s := if_neg h

theorem report_found (src : ErrorSource) (cw : Nat) (c : Checked) (s : State) : Found s (report src cw c s) := by
  by_cases h : c.cls = .clean
  · rw [report_of_clean h]
    exact Found.refl s
  · rw [report_of_error h]
    exact occur_found _ s

/-- The address offered to the scrubber's queue (R143). -/
def withOffer (cw : Nat) (s : State) : State := { s with fmc := s.fmc.offer cw }

theorem offer_eq (f : Fmc) (cw : Nat) : ∃ more, f.offer cw = { f with corrected := f.corrected ++ more } ∧
    (cw ∈ f.corrected ++ more ∨ 8 ≤ f.corrected.length) := by
  unfold Fmc.offer
  split
  · rename_i h
    exact ⟨[], by simp, by simpa using h⟩
  · exact ⟨[cw], rfl, by simp⟩

theorem withOffer_found (cw : Nat) (s : State) : Found s (withOffer cw s) := by
  obtain ⟨more, h, -⟩ := offer_eq s.fmc cw
  rw [withOffer, h]
  refine ⟨⟨rfl, fun p hp _ => ?_⟩, rfl, ⟨[], by simp⟩, ⟨more, rfl⟩, fun h => ⟨Nat.le_refl _, h⟩, fun h => ⟨Nat.le_refl _, h⟩⟩
  cases p <;> simp_all [Part.agree]

/-- What the read of one codeword does besides reading it. -/
def readOne (src : ErrorSource) (cw : Nat) (s : State) : State :=
  if (s.mem.check? cw).cls = .correctable then withOffer cw (report src cw (s.mem.check? cw) s)
  else report src cw (s.mem.check? cw) s

theorem readOne_found (src : ErrorSource) (cw : Nat) (s : State) : Found s (readOne src cw s) := by
  unfold readOne
  split
  · exact (report_found src cw _ s).trans (withOffer_found cw _)
  · exact report_found src cw _ s

theorem readOne_of_clean {src : ErrorSource} {cw : Nat} {s : State} (h : (s.mem.check? cw).cls = .clean) :
    readOne src cw s = s := by
  simp [readOne, h, report_of_clean]

theorem bad_iff (c : WordClass) : c.bad = true ↔ c = .poisoned ∨ c = .uncorrectable := by cases c <;> simp [WordClass.bad]

theorem logged_isSome (c : WordClass) : c.logged.isSome = c.bad := by cases c <;> rfl

/-- A codeword that is not usable. -/
theorem readOne_of_bad {src : ErrorSource} {cw : Nat} {s : State} (h : (s.mem.check? cw).cls.bad = true) :
    (⟨.memUncorrectable, none⟩ : Raise) ∈ (readOne src cw s).rqe.raises ∧
      (readOne src cw s).fmc.uncorrectable = min 4294967295 (s.fmc.uncorrectable + 1) := by
  have hcls : (s.mem.check? cw).cls ≠ .clean ∧ (s.mem.check? cw).cls ≠ .correctable := by
    rcases (bad_iff _).1 h with h | h <;> simp [h]
  have hsome : (occurrenceOf src cw (s.mem.check? cw)).cls.isSome = true := (logged_isSome _).trans h
  have hone : readOne src cw s = occur (occurrenceOf src cw (s.mem.check? cw)) s := by
    rw [readOne, report_of_error hcls.1, if_neg hcls.2]
  rw [hone]
  refine ⟨?_, occur_uncorrectable _ s hsome⟩
  rw [occur_raises, Occurrence.flag, if_pos hsome]
  simp

/-- A correctable codeword. -/
theorem readOne_of_correctable {src : ErrorSource} {cw : Nat} {s : State} (h : (s.mem.check? cw).cls = .correctable) :
    (⟨.memCorrected, none⟩ : Raise) ∈ (readOne src cw s).rqe.raises ∧
      (cw ∈ (readOne src cw s).fmc.corrected ∨ 8 ≤ (readOne src cw s).fmc.corrected.length) ∧
      (readOne src cw s).fmc.uncorrectable = s.fmc.uncorrectable ∧ (readOne src cw s).fmc.errlog = s.fmc.errlog ∧
      (cw < 0x10000000 → (readOne src cw s).fmc.corrGeneral = min 4294967295 (s.fmc.corrGeneral + 1)) := by
  have hone : readOne src cw s = withOffer cw (occur (occurrenceOf src cw (s.mem.check? cw)) s) := by
    rw [readOne, report_of_error (by simp [h]), if_pos h]
  have hnone : (occurrenceOf src cw (s.mem.check? cw)).cls = none := by rw [occurrenceOf, h]; rfl
  obtain ⟨hunc, hlog, hgen, -⟩ := occur_corrected_counts _ s hnone
  obtain ⟨more, hoffer, hin⟩ := offer_eq (occur (occurrenceOf src cw (s.mem.check? cw)) s).fmc cw
  rw [hone, withOffer, hoffer]
  refine ⟨?_, ?_, hunc, hlog, hgen⟩
  · show _ ∈ (occur _ s).rqe.raises
    rw [occur_raises, Occurrence.flag, hnone]
    simp
  · rw [List.length_append]
    exact hin.imp id fun hl => hl.trans (Nat.le_add_right _ _)

/-! ### The codewords of a range -/

theorem readCodewords_cons (src : ErrorSource) (cw : Nat) (cws : List Nat) (s : State) :
    readCodewords src (cw :: cws) s = (⟨le 8 (s.mem.check? cw).data.toNat ++ (readCodewords src cws (readOne src cw s)).1.bytes,
      (s.mem.check? cw).cls.bad || (readCodewords src cws (readOne src cw s)).1.bad⟩,
      (readCodewords src cws (readOne src cw s)).2) := rfl

theorem readCodewords_result (src : ErrorSource) (cws : List Nat) (s : State) : (readCodewords src cws s).1 =
    ⟨cws.flatMap fun cw => le 8 (s.mem.check? cw).data.toNat, cws.any fun cw => (s.mem.check? cw).cls.bad⟩ := by
  induction cws generalizing s with
  | nil => rfl
  | cons cw cws ih =>
    rw [readCodewords_cons, ih, (readOne_found src cw s).mem]
    rfl

theorem readCodewords_found (src : ErrorSource) (cws : List Nat) (s : State) : Found s (readCodewords src cws s).2 := by
  induction cws generalizing s with
  | nil => exact Found.refl s
  | cons cw cws ih => exact (readOne_found src cw s).trans (ih _)

/-- Each codeword of the list is read, in a state and on to the end. -/
theorem readCodewords_reads (src : ErrorSource) {cws : List Nat} {cw : Nat} (h : cw ∈ cws) (s : State) :
    ∃ u, Found s u ∧ Found (readOne src cw u) (readCodewords src cws s).2 := by
  induction cws generalizing s with
  | nil => exact absurd h (by simp)
  | cons x cws ih =>
    rcases List.mem_cons.1 h with rfl | h
    · exact ⟨s, Found.refl s, readCodewords_found src cws _⟩
    · obtain ⟨u, hu, ht⟩ := ih h (readOne src x s)
      exact ⟨u, (readOne_found src x s).trans hu, ht⟩

theorem readCodewords_of_clean {src : ErrorSource} {cws : List Nat} {s : State}
    (h : ∀ cw ∈ cws, (s.mem.check? cw).cls = .clean) : (readCodewords src cws s).2 = s := by
  induction cws with
  | nil => rfl
  | cons cw cws ih =>
    rw [readCodewords_cons, readOne_of_clean (h cw (by simp))]
    exact ih fun x hx => h x (by simp [hx])

/-- Usable codewords leave the log and the counter of the uncorrectable ones. -/
theorem readCodewords_of_usable {src : ErrorSource} {cws : List Nat} {s : State}
    (h : ∀ cw ∈ cws, (s.mem.check? cw).cls = .clean ∨ (s.mem.check? cw).cls = .correctable) :
    (readCodewords src cws s).2.fmc.errlog = s.fmc.errlog ∧
      (readCodewords src cws s).2.fmc.uncorrectable = s.fmc.uncorrectable := by
  induction cws generalizing s with
  | nil => exact ⟨rfl, rfl⟩
  | cons cw cws ih =>
    obtain ⟨hlog, hunc⟩ := ih (s := readOne src cw s) fun x hx => by
      rw [(readOne_found src cw s).mem]
      exact h x (by simp [hx])
    have hone : (readOne src cw s).fmc.errlog = s.fmc.errlog ∧ (readOne src cw s).fmc.uncorrectable = s.fmc.uncorrectable := by
      rcases h cw (by simp) with hc | hc
      · rw [readOne_of_clean hc]
        exact ⟨rfl, rfl⟩
      · obtain ⟨-, -, h1, h2, -⟩ := readOne_of_correctable (src := src) hc
        exact ⟨h2, h1⟩
    exact ⟨hlog.trans hone.1, hunc.trans hone.2⟩

end Sys2Proof.Machine
end

section
/-! PROOFS. The bytes of fields and of reads (11 section 11.5, R127, R132). -/

namespace Sys2Proof.Machine

set_option Elab.async false

/-! ### Little-endian fields -/

@[simp] theorem length_le (k n : Nat) : (le k n).length = k := by
  induction k generalizing n with
  | zero => rfl
  | succ k ih => simp [le, ih]

theorem le_getElem? {k j : Nat} (h : j < k) (n : Nat) : (le k n)[j]? = some (byteOf (n / 256 ^ j)) := by
  induction k generalizing n j with
  | zero => exact absurd h (by omega)
  | succ k ih =>
    cases j with
    | zero => simp [le]
    | succ j =>
      rw [le, List.getElem?_cons_succ, ih (by omega), Nat.div_div_eq_div_mul, pow_succ, Nat.mul_comm]

/-- A byte of a number that bytes spell. -/
theorem fromLe_byte {bs : List Byte} {j : Nat} {b : Byte} (h : bs[j]? = some b) : byteOf (fromLe bs / 256 ^ j) = b := by
  induction bs generalizing j with
  | nil => simp at h
  | cons c bs ih =>
    have hc := c.isLt
    cases j with
    | zero =>
      simp only [List.getElem?_cons_zero, Option.some.injEq] at h
      subst h
      apply BitVec.eq_of_toNat_eq
      simp only [fromLe, byteOf, BitVec.toNat_ofNat, pow_zero, Nat.div_one]
      omega
    | succ j =>
      have hdiv : (c.toNat + 256 * fromLe bs) / 256 = fromLe bs := by omega
      rw [fromLe, pow_succ, Nat.mul_comm (256 ^ j), ← Nat.div_div_eq_div_mul, hdiv]
      exact ih (by simpa using h)

/-- Byte `j` of a word. -/
theorem shiftRight_setWidth {w : Nat} (x : BitVec w) (j : Nat) : (x >>> (8 * j)).setWidth 8 = byteOf (x.toNat / 256 ^ j) := by
  apply BitVec.eq_of_toNat_eq
  simp only [byteOf, BitVec.toNat_setWidth, BitVec.toNat_ushiftRight, BitVec.toNat_ofNat, Nat.shiftRight_eq_div_pow]
  rw [show (256 : Nat) = 2 ^ 8 from rfl, ← pow_mul]

theorem laneOf_wordOf {bs : List Byte} {j : Nat} {b : Byte} (hl : bs.length ≤ 4) (h : bs[j]? = some b) :
    laneOf (wordOf bs) j = b := by
  have hlt : fromLe bs < 2 ^ 32 := (fromLe_lt bs).trans_le (by
    calc 256 ^ bs.length ≤ 256 ^ 4 := Nat.pow_le_pow_right (by decide) hl
      _ = 2 ^ 32 := by norm_num)
  rw [laneOf, shiftRight_setWidth, wordOf, BitVec.toNat_ofNat, Nat.mod_eq_of_lt hlt]
  exact fromLe_byte h

/-! ### The bytes of memory -/

theorem Memory.bytesOf_getElem? (m : Memory) (cw : Nat) {j : Nat} (h : j < 8) :
    (m.bytesOf cw)[j]? = some (m.byte (cw + j)) := by
  simp [Memory.bytesOf, h]

theorem Memory.wordAt_toNat (m : Memory) (cw : Nat) : (m.wordAt cw).toNat = fromLe (m.bytesOf cw) := by
  have hlt := fromLe_lt (m.bytesOf cw)
  rw [Memory.wordAt, BitVec.toNat_ofNat]
  exact Nat.mod_eq_of_lt (hlt.trans_eq (by simp [Memory.bytesOf]))

/-- The byte a reader of an address is given (R132). -/
def readByte (m : Memory) (a : Nat) : Byte := ((m.check? (a / 8 * 8)).data >>> (8 * (a % 8))).setWidth 8

theorem classify_clean {d : BitVec 64} {c : BitVec 8} (h : (classify d c).cls = .clean) : (classify d c).data = d := by
  by_cases hz : checkBits d ^^^ c = 0
  · simp [classify, hz]
  · simp only [classify, if_neg hz] at h
    split at h
    · exact nomatch h
    · split_ifs at h

theorem readByte_of_clean {m : Memory} {a : Nat} (h : (m.check? (a / 8 * 8)).cls = .clean) : readByte m a = m.byte a := by
  have hj : a % 8 < 8 := Nat.mod_lt _ (by decide)
  have hd : (m.check? (a / 8 * 8)).data = m.wordAt (a / 8 * 8) := classify_clean h
  rw [readByte, hd, shiftRight_setWidth, Memory.wordAt_toNat]
  have hbyte := fromLe_byte (m.bytesOf_getElem? (a / 8 * 8) hj)
  rw [hbyte]
  congr 1
  omega

/-! ### The codewords of a range -/

theorem mem_codewordsOf {a len cw : Nat} (h : 0 < len) :
    cw ∈ codewordsOf a len ↔ cw % 8 = 0 ∧ a < cw + 8 ∧ cw < a + len := by
  rw [codewordsOf, if_neg (by omega), List.mem_map]
  constructor
  · rintro ⟨k, hk, rfl⟩
    rw [List.mem_range] at hk
    omega
  · rintro ⟨h8, hlo, hhi⟩
    exact ⟨cw / 8 - a / 8, List.mem_range.2 (by omega), by omega⟩

/-- An element of blocks of eight laid end to end. -/
theorem flatMap_getElem? {α β : Type} (f : α → List β) (hf : ∀ x, (f x).length = 8) (l : List α) (i : Nat) :
    (l.flatMap f)[i]? = l[i / 8]?.bind fun x => (f x)[i % 8]? := by
  induction l generalizing i with
  | nil => simp
  | cons x l ih =>
    rw [List.flatMap_cons]
    by_cases hi : i < 8
    · rw [List.getElem?_append_left (by rwa [hf]), Nat.div_eq_of_lt hi, Nat.mod_eq_of_lt hi]
      rfl
    · rw [List.getElem?_append_right (by rw [hf]; omega), hf, ih]
      obtain ⟨k, rfl⟩ : ∃ k, i = k + 8 := ⟨i - 8, by omega⟩
      have hdiv : (k + 8) / 8 = k / 8 + 1 := by omega
      rw [Nat.add_sub_cancel, hdiv, List.getElem?_cons_succ, Nat.add_mod_right]

theorem readRange_bytes (src : ErrorSource) (a len : Nat) (s : State) :
    (readRange src a len s).1.bytes = (List.range len).map fun k => readByte s.mem (a + k) := by
  apply List.ext_getElem?
  intro k
  rw [readRange]
  simp only [readCodewords_result, List.getElem?_take, List.getElem?_drop, List.getElem?_map]
  by_cases hk : k < len
  · rw [if_pos hk, flatMap_getElem? _ (fun _ => length_le _ _), codewordsOf, if_neg (by omega)]
    have hrange : (List.range ((a + len - 1) / 8 - a / 8 + 1))[(a % 8 + k) / 8]? = some ((a % 8 + k) / 8) :=
      List.getElem?_range (by omega)
    have haddr : (a / 8 + (a % 8 + k) / 8) * 8 = (a + k) / 8 * 8 := by omega
    have hlane : (a % 8 + k) % 8 = (a + k) % 8 := by omega
    rw [List.getElem?_map, hrange, Option.map_some, Option.bind_some, haddr, hlane, le_getElem? (Nat.mod_lt _ (by decide)),
      List.getElem?_range hk, Option.map_some, readByte, shiftRight_setWidth]
  · rw [if_neg hk]
    simp [hk]

theorem readRange_bad (src : ErrorSource) (a len : Nat) (s : State) :
    (readRange src a len s).1.bad = (codewordsOf a len).any fun cw => (s.mem.check? cw).cls.bad := by
  rw [readRange]
  simp only [readCodewords_result]

theorem readRange_state (src : ErrorSource) (a len : Nat) (s : State) :
    (readRange src a len s).2 = (readCodewords src (codewordsOf a len) s).2 := rfl

end Sys2Proof.Machine
end

section
/-! PROOFS. The scrubber (R142 to R145; O53). -/

namespace Sys2Proof.Machine

set_option Elab.async false

theorem exec_scrubPaceExpiry (s : State) : exec .scrubPaceExpiry s = event s paceExpired := rfl

theorem exec_scrubReadComplete (s : State) : exec .scrubReadComplete s = event s scrubReadDone := rfl

/-! ### The pace timer -/

theorem paceExpired_of_held {s : State} (h : ¬ (s.fmc.scrub = none ∧ s.exs.quietReq = false ∧ s.hmp.path = .run)) :
    paceExpired s = restartPace s := by
  refine if_pos ?_
  by_contra hno
  simp only [not_or, Bool.not_eq_true, not_not] at hno
  exact h ⟨Option.isNone_iff_eq_none.1 (by simpa using hno.1), hno.2⟩

theorem paceExpired_of_free {s : State} (h : s.fmc.scrub = none ∧ s.exs.quietReq = false ∧ s.hmp.path = .run) :
    paceExpired s = match s.fmc.corrected.find? fun a => !s.stb.inReadout a with
      | some a => beginStep a true (restartPace s)
      | none => beginStep (walkNext (restartPace s)) false (restartPace s) := by
  obtain ⟨hs, hq, hp⟩ := h
  refine if_neg ?_
  simp [restartPace, hs, hq, hp]

theorem inReadout_iff (t : Stb) (a : Nat) : t.inReadout a = true ↔ t.stateAt a = some .readout := by
  simp [Stb.inReadout]

/-- The state with a step begun. -/
def withStep (addr pos : Nat) (queued : Bool) (s : State) : State :=
  { s with fmc := { s.fmc with pace := 64, scrub := some ⟨addr, queued, none⟩, scrubPos := pos } }

theorem withStep_onlyChanges (addr pos : Nat) (queued : Bool) (s : State) :
    OnlyChanges [.scrubber] s (withStep addr pos queued s) := by
  refine ⟨rfl, fun p hp _ => ?_⟩
  cases p <;> simp_all [Part.agree, withStep]

theorem beginStep_eq (addr : Nat) (queued : Bool) (s : State) : beginStep addr queued (restartPace s) =
    present ⟨.scrubRead, addr, 8, [], false⟩ (withStep addr (if queued then s.fmc.scrubPos else addr) queued s) := rfl

theorem restartPace_onlyChanges (s : State) : OnlyChanges [.scrubber] s (restartPace s) := by
  refine ⟨rfl, fun p hp _ => ?_⟩
  cases p <;> simp_all [Part.agree, restartPace]

/-- The walk's own position, unless it lies in the slot in READOUT. -/
theorem walkNext_stays {s : State} (h : s.stb.stateAt s.fmc.scrubPos ≠ some .readout) :
    walkNext (restartPace s) = s.fmc.scrubPos := by
  unfold walkNext
  split
  · rename_i i hi
    refine if_neg fun hr => h ?_
    rw [Stb.stateAt]
    exact (congrArg (Option.map _) hi).trans (congrArg some hr)
  · rfl

theorem walkNext_passes {s : State} {i : Nat} (h : s.stb.slotAt s.fmc.scrubPos = some i)
    (hr : s.stb.slotState i = .readout) : walkNext (restartPace s) = s.stb.slotBase (i + 1) := by
  have h' : (restartPace s).stb.slotAt (restartPace s).fmc.scrubPos = some i := h
  simp only [walkNext, h']
  exact if_pos hr

theorem find_not_inReadout {t : Stb} {l : List Nat} (h : ∀ q ∈ l, t.stateAt q = some .readout) :
    l.find? (fun a => !t.inReadout a) = none :=
  List.find?_eq_none.2 fun q hq => by simp [(inReadout_iff _ _).2 (h q hq)]

/-! ### The read of a step -/

theorem scrubReadDone_eq {s : State} {x : Txn} {st : ScrubStep} (h : s.fmc.active = some x) (hk : x.kind = .scrubRead)
    (hs : s.fmc.scrub = some st) : scrubReadDone s = scrubRead st (freePort s) := by
  simp only [scrubReadDone, h, hs]
  exact if_pos hk

/-- The port free, and the queue or the walk past the codeword. -/
def stepped (st : ScrubStep) (s : State) : State := { s with fmc := { s.fmc with active := none }.stepRead st }

theorem stepped_onlyChanges (st : ScrubStep) (s : State) : OnlyChanges [.port, .scrubber, .corrected] s (stepped st s) := by
  refine ⟨rfl, fun p hp _ => ?_⟩
  unfold stepped Fmc.stepRead Fmc.advanceWalk
  split_ifs <;> cases p <;> simp_all [Part.agree]

/-- Where the read leaves the port, the queue and the walk. -/
theorem stepped_moves {st : ScrubStep} {p : List Txn} {y : Option ScrubStep} {s u w : State}
    (hu : OnlyChanges [.stb, .errors] (stepped st s) u) (hw : w.fmc = { u.fmc with pending := p, scrub := y }) :
    (finish s w).fmc.active = none ∧ (finish s w).fmc.passOver = s.fmc.passOver ∧
      (finish s w).fmc.nextPart = s.fmc.nextPart ∧ (finish s w).fmc.pace = s.fmc.pace ∧
      if st.queued then (finish s w).fmc.corrected = s.fmc.corrected.filter (· != st.addr) ∧
        (finish s w).fmc.scrubPos = s.fmc.scrubPos ∧ (finish s w).fmc.passes = s.fmc.passes
      else (finish s w).fmc.corrected = s.fmc.corrected ∧
        (if st.addr + 8 < 0x40000000 then (finish s w).fmc.scrubPos = st.addr + 8 ∧ (finish s w).fmc.passes = s.fmc.passes
         else (finish s w).fmc.scrubPos = 0 ∧ (finish s w).fmc.passes = (s.fmc.passes + 1) % 4294967296) := by
  obtain ⟨hactive, hover, hnext⟩ := hu.2 .port (by decide) (by decide)
  obtain ⟨hpos, hpasses, hpace, -⟩ := hu.2 .scrubber (by decide) (by decide)
  have hcorrected : u.fmc.corrected = (stepped st s).fmc.corrected := hu.2 .corrected (by decide) (by decide)
  simp only [finish_fmc_active, finish_fmc_passOver, finish_fmc_nextPart, finish_fmc_pace, finish_fmc_corrected,
    finish_fmc_scrubPos, finish_fmc_passes, hw, hactive, hover, hnext, hpos, hpasses, hpace, hcorrected]
  unfold stepped Fmc.stepRead Fmc.advanceWalk
  split_ifs <;> simp [wrapSucc]

/-- The state with its scrub step replaced. -/
def withScrub (x : Option ScrubStep) (s : State) : State := { s with fmc := { s.fmc with scrub := x } }

theorem withScrub_onlyChanges (x : Option ScrubStep) (s : State) : OnlyChanges [.scrubber] s (withScrub x s) := by
  refine ⟨rfl, fun p hp _ => ?_⟩
  cases p <;> simp_all [Part.agree, withScrub]

/-- The step after its read, by the class of the codeword. -/
theorem scrubRead_eq (st : ScrubStep) (s : State) : scrubRead st (freePort s) =
    match (s.mem.check? st.addr).cls with
    | .clean => withScrub none (stepped st s)
    | .correctable =>
      present ⟨.scrubRewrite (s.mem.check? st.addr).data, st.addr, 8, [], false⟩
        (withScrub (some { st with watch := some false })
          (if st.queued then stepped st s else report .scrub st.addr (s.mem.check? st.addr) (stepped st s)))
    | .poisoned => withScrub none (report .scrub st.addr (s.mem.check? st.addr) (stepped st s))
    | .uncorrectable => withScrub none (report .scrub st.addr (s.mem.check? st.addr) (stepped st s)) := rfl

/-- What the read of a step reports. -/
theorem scrubReport (st : ScrubStep) {s : State} (h : (s.mem.check? st.addr).cls ≠ .clean) :
    OnlyChanges [.stb, .errors] s (report .scrub st.addr (s.mem.check? st.addr) s) ∧
      (⟨if (s.mem.check? st.addr).cls.bad then .memUncorrectable else .memCorrected, none⟩ : Raise) ∈
        (report .scrub st.addr (s.mem.check? st.addr) s).rqe.raises := by
  rw [report_of_error h]
  refine ⟨occur_onlyChanges _ s, ?_⟩
  rw [occur_raises, Occurrence.flag, occurrenceOf, logged_isSome]
  simp

/-- Settles O53: a step begun or none, and the four classes of its read. -/
theorem scrubSteps : Obligations.ScrubSteps := by
  intro s h free begun
  rw [exec_scrubPaceExpiry, exec_scrubReadComplete]
  have begins {addr : Nat} {queued : Bool} (hp : paceExpired s = beginStep addr queued (restartPace s)) :
      ∃ t, event s paceExpired = .next t ∧ begun addr (if queued then s.fmc.scrubPos else addr) queued t :=
    ⟨_, event_to h (hp.trans (beginStep_eq addr queued s)), finish_fmc_pace _ _, finish_fmc_scrub _ _,
      finish_fmc_scrubPos _ _, finish_fmc_passes _ _, finish_presented _ _ (List.mem_append_right _ List.mem_cons_self),
      ((withStep_onlyChanges _ _ _ s).presented _).finish s⟩
  refine ⟨fun hheld => ?_, fun hfree before a more hq hbefore ha => ?_, fun hfree hall => ⟨fun hpos => ?_, fun i hi hr =>
    ?_⟩, fun x st hx hk hst => ?_⟩
  · exact ⟨_, event_to h (paceExpired_of_held hheld), finish_fmc_pace _ _, finish_fmc_scrub _ _,
      finish_fmc_scrubPos _ _, finish_fmc_passes _ _, (restartPace_onlyChanges s).finish s⟩
  · have hfind : s.fmc.corrected.find? (fun a => !s.stb.inReadout a) = some a := by
      rw [hq, List.find?_append, find_not_inReadout hbefore,
        List.find?_cons_of_pos (by simpa [← inReadout_iff] using ha)]
      rfl
    exact begins (queued := true) ((paceExpired_of_free hfree).trans (by rw [hfind]))
  · have hnone := (find_not_inReadout hall)
    exact begins (queued := false) ((paceExpired_of_free hfree).trans (by rw [hnone, walkNext_stays hpos]))
  · have hnone := (find_not_inReadout hall)
    exact begins (queued := false) ((paceExpired_of_free hfree).trans (by rw [hnone, walkNext_passes hi hr]))
  · intro c moved
    have hto := scrubReadDone_eq hx hk hst
    have moved_of {p : List Txn} {y : Option ScrubStep} {u w : State} (hu : OnlyChanges [.stb, .errors] (stepped st s) u)
        (hw : w.fmc = { u.fmc with pending := p, scrub := y }) : moved (finish s w) :=
      stepped_moves hu hw
    refine ⟨fun hc => ?_, fun hc hq => ?_, fun hc hq => ?_, fun hc => ?_⟩
    · have hstep : scrubReadDone s = withScrub none (stepped st s) := by
        rw [hto, scrubRead_eq, hc]
      exact ⟨_, event_to h hstep, moved_of (OnlyChanges.refl _ (stepped st s)) rfl, finish_fmc_scrub _ _,
        ((stepped_onlyChanges st s).andThen (withScrub_onlyChanges _ _)).finish s⟩
    · have hstep : scrubReadDone s = present ⟨.scrubRewrite c.data, st.addr, 8, [], false⟩
          (withScrub (some { st with watch := some false }) (stepped st s)) := by
        rw [hto, scrubRead_eq, hc]
        simp only [hq, if_true]
        rfl
      exact ⟨_, event_to h hstep, moved_of (OnlyChanges.refl _ (stepped st s)) rfl, finish_fmc_scrub _ _,
        finish_presented _ _ (List.mem_append_right _ List.mem_cons_self),
        (((stepped_onlyChanges st s).andThen (withScrub_onlyChanges _ _)).presented _).finish s⟩
    · have hcls : ((stepped st s).mem.check? st.addr).cls = .correctable := hc
      obtain ⟨hframe, hraise⟩ := scrubReport st (s := stepped st s) (by rw [hcls]; decide)
      have hstep : scrubReadDone s = present ⟨.scrubRewrite c.data, st.addr, 8, [], false⟩
          (withScrub (some { st with watch := some false }) (report .scrub st.addr c (stepped st s))) := by
        rw [hto, scrubRead_eq, hc]
        simp only [hq]
        rfl
      rw [hcls] at hraise
      exact ⟨_, event_to h hstep, moved_of hframe rfl, finish_fmc_scrub _ _,
        finish_presented _ _ (List.mem_append_right _ List.mem_cons_self), finish_raised _ _ hraise,
        (((((stepped_onlyChanges st s).within).andThen hframe).andThen (withScrub_onlyChanges _ _)).presented _).finish s⟩
    · have hbad : ((stepped st s).mem.check? st.addr).cls.bad = true := (bad_iff _).2 hc
      obtain ⟨hframe, hraise⟩ := scrubReport st (s := stepped st s) (by rintro hclean; rw [hclean] at hbad; exact nomatch hbad)
      have hstep : scrubReadDone s = withScrub none (report .scrub st.addr c (stepped st s)) := by
        rw [hto, scrubRead_eq]
        rcases hc with hc | hc <;> rw [hc]
      rw [if_pos hbad] at hraise
      exact ⟨_, event_to h hstep, moved_of hframe rfl, finish_fmc_scrub _ _, finish_raised _ _ hraise,
        ((((stepped_onlyChanges st s).within).andThen hframe).andThen (withScrub_onlyChanges _ _)).finish s⟩

end Sys2Proof.Machine
end

section
/-! PROOFS. The reads of the host and of the ring entry (R53, R55, R132, R133, R143; O52). -/

namespace Sys2Proof.Machine

set_option Elab.async false

theorem exec_hostReadComplete (s : State) : exec .hostReadComplete s = event s hostReadDone := rfl

theorem exec_partReadComplete (s : State) : exec .partReadComplete s = event s partReadDone := rfl

/-! ### The host's read -/

theorem respond_onlyChanges (r : Response) (s : State) : OnlyChanges [.response] s (respond r s) := by
  refine ⟨rfl, fun p hp _ => ?_⟩
  cases p <;> simp_all [Part.agree, respond]

/-- The answer of a read of `n` beats. -/
def readResponse (x : Txn) (n : Nat) (s : State) : Response :=
  ⟨false, (readRange .hostRead x.addr x.len s).1.bad || decide (x.len < 4 * n),
    readBeats (readRange .hostRead x.addr x.len s).1.bytes n⟩

theorem hostReadDone_eq {s : State} {x : Txn} {n : Nat} (h : s.fmc.active = some x) (hk : x.kind = .hostRead n) :
    hostReadDone s = respond (readResponse x n (freePort s))
      (readCodewords .hostRead (codewordsOf x.addr x.len) (freePort s)).2 := by
  simp only [hostReadDone, h, hk]
  rfl

/-- The beats of a read: the words of the bytes, then zeros (R53, R55). -/
theorem readBeats_getElem? {bytes : List Byte} {m n k : Nat} (hl : bytes.length = 4 * m) (hk : k < n) :
    ∃ w, (readBeats bytes n)[k]? = some (w, parityBits w) ∧
      if k < m then ∀ j b, j < 4 → bytes[4 * k + j]? = some b → laneOf w j = b else w = 0 := by
  refine ⟨wordOf ((bytes.drop (4 * k)).take 4), by simp [readBeats, hk, busBeat], ?_⟩
  split
  · intro j b hj hb
    refine laneOf_wordOf (by simp) ?_
    rw [List.getElem?_take, if_pos hj, List.getElem?_drop]
    exact hb
  · rw [List.drop_eq_nil_of_le (by omega)]
    rfl

section HostRead

variable {s : State} {x : Txn} {n m : Nat}

/-- The bytes of the beats of a read over usable codewords. -/
theorem readResponse_carries (hlen : x.len = 4 * m) (hn : m ≤ n)
    (hgood : ∀ cw ∈ codewordsOf x.addr x.len, (s.mem.check? cw).cls.bad = false) :
    (readResponse x n s).write = false ∧ ((readResponse x n s).error = true ↔ m < n) ∧
      (readResponse x n s).beats.length = n ∧ ∀ k, k < n → ∃ w, (readResponse x n s).beats[k]? = some (w, parityBits w) ∧
        if k < m then ∀ j, j < 4 → laneOf w j = readByte s.mem (x.addr + 4 * k + j) else w = 0 := by
  have hbytes := readRange_bytes .hostRead x.addr x.len s
  have hbad : (readRange .hostRead x.addr x.len s).1.bad = false := by
    rw [readRange_bad, List.any_eq_false]
    exact fun cw hcw => by simp [hgood cw hcw]
  refine ⟨rfl, ?_, by simp [readResponse, readBeats], fun k hk => ?_⟩
  · rw [readResponse, hbad, hlen, Bool.false_or, decide_eq_true_eq]
    omega
  · obtain ⟨w, hw, hbeat⟩ := readBeats_getElem? (bytes := (readRange .hostRead x.addr x.len s).1.bytes) (m := m)
      (by rw [hbytes]; simp [hlen]) hk
    refine ⟨w, hw, ?_⟩
    split
    · rename_i hin
      rw [if_pos hin] at hbeat
      intro j hj
      refine hbeat j _ hj ?_
      rw [hbytes, List.getElem?_map, List.getElem?_range (by omega), Option.map_some, Nat.add_assoc]
    · rename_i hout
      rwa [if_neg hout] at hbeat

/-- What the completion of a host read does whatever its codewords are. -/
theorem hostRead_completes (h : s.resetHeld = false) (ha : s.fmc.active = some x) (hk : x.kind = .hostRead n) :
    let u := (readCodewords .hostRead (codewordsOf x.addr x.len) (freePort s)).2
    let t := finish s (respond (readResponse x n s) u)
    exec .hostReadComplete s = .next t ∧ Found (freePort s) u ∧ t.hmp.response = some (readResponse x n s) ∧
      (t.fmc.active = none ∧ t.fmc.passOver = s.fmc.passOver ∧ t.fmc.nextPart = s.fmc.nextPart) ∧
      OnlyChanges [.port, .response, .errors, .stb, .corrected] s t := by
  intro u t
  have hfound : Found (freePort s) u := readCodewords_found _ _ _
  have hsame : readResponse x n (freePort s) = readResponse x n s := by
    simp only [readResponse, readRange_bytes, readRange_bad]
    rfl
  obtain ⟨hactive, hover, hnext⟩ := ((hfound.frame.within (ps := [.stb, .errors, .corrected, .response])).andThen
    (respond_onlyChanges (readResponse x n s) u)).finish s |>.2 .port (by decide) (by decide)
  refine ⟨?_, hfound, finish_hmp_response _ _, ⟨hactive, hover, hnext⟩, ?_⟩
  · rw [exec_hostReadComplete]
    exact event_to h ((hostReadDone_eq ha hk).trans (by rw [hsame]))
  · exact ((((freePort_onlyChanges s).within).andThen hfound.frame).andThen (respond_onlyChanges _ _)).finish s

end HostRead

/-! ### The read of the ring entry -/

theorem partReadDone_of_entry {s : State} {x : Txn} (h : s.fmc.active = some x) (hk : x.kind = .entryRead) :
    partReadDone s = entryArrived (readRange .request x.addr x.len (freePort s)).1
      (readCodewords .request (codewordsOf x.addr x.len) (freePort s)).2 := by
  simp only [partReadDone, h, hk]
  rfl

/-- Clean codewords are read as they are. -/
theorem readRange_of_clean {src : ErrorSource} {a len : Nat} {s : State}
    (h : ∀ cw ∈ codewordsOf a len, (s.mem.check? cw).cls = .clean) :
    readRange src a len s = (⟨(List.range len).map fun k => s.mem.byte (a + k), false⟩, s) := by
  have hbad : (readRange src a len s).1.bad = false := by
    rw [readRange_bad, List.any_eq_false]
    exact fun cw hcw => by simp [h cw hcw, WordClass.bad]
  have hbytes : (readRange src a len s).1.bytes = (List.range len).map fun k => s.mem.byte (a + k) := by
    rw [readRange_bytes]
    refine List.map_congr_left fun k hk => readByte_of_clean (h _ ?_)
    rw [List.mem_range] at hk
    rw [mem_codewordsOf (by omega)]
    omega
  refine Prod.ext ?_ (readCodewords_of_clean h)
  rw [← hbytes, ← hbad]

/-- The bytes of the entry that have come, and the read that follows while some are missing (R197). -/
theorem entryArrived_of_reading {s : State} {v : Service} {bytes : List Byte} {bad : Bool} {r : ReadResultBytes}
    (hv : s.rqe.service = some v) (hst : v.stage = .reading bytes bad) : entryArrived r s =
      if (bytes ++ r.bytes).length < 96 then
        present ⟨.entryRead, 0x3F002000 + 128 * s.rqe.head + (bytes ++ r.bytes).length, 32, [], false⟩
          (withService { v with stage := .reading (bytes ++ r.bytes) (bad || r.bad) } s)
      else withService { v with stage := .reading (bytes ++ r.bytes) (bad || r.bad) } s := by
  simp only [entryArrived, hv, hst]
  rfl

/-- A correctable codeword of a read: the event, the offer, the counter of the general region. -/
theorem corrected_of_reads {src : ErrorSource} {cws : List Nat} {cw : Nat} {s : State} (h : cw ∈ cws)
    (hc : (s.mem.check? cw).cls = .correctable) :
    let u := (readCodewords src cws s).2
    (⟨.memCorrected, none⟩ : Raise) ∈ u.rqe.raises ∧ (cw ∈ u.fmc.corrected ∨ 8 ≤ u.fmc.corrected.length) ∧
      (cw < 0x10000000 → s.fmc.corrGeneral < 4294967295 → s.fmc.corrGeneral < u.fmc.corrGeneral) := by
  obtain ⟨v, hv, hu⟩ := readCodewords_reads src h s
  obtain ⟨hraise, hoffer, -, -, hcount⟩ := readOne_of_correctable (src := src) (s := v) (by rw [hv.mem]; exact hc)
  refine ⟨hu.raised hraise, hu.offered hoffer, fun hlow hcap => ?_⟩
  have hbefore := hv.general (by omega)
  have hafter := hu.general (by rw [hcount hlow]; omega)
  rw [hcount hlow] at hafter
  omega

/-- One that is not usable. -/
theorem uncorrectable_of_reads {src : ErrorSource} {cws : List Nat} {cw : Nat} {s : State} (h : cw ∈ cws)
    (hc : (s.mem.check? cw).cls.bad = true) :
    let u := (readCodewords src cws s).2
    (⟨.memUncorrectable, none⟩ : Raise) ∈ u.rqe.raises ∧
      (s.fmc.uncorrectable < 4294967295 → s.fmc.uncorrectable < u.fmc.uncorrectable) := by
  obtain ⟨v, hv, hu⟩ := readCodewords_reads src h s
  obtain ⟨hraise, hcount⟩ := readOne_of_bad (src := src) (s := v) (by rw [hv.mem]; exact hc)
  refine ⟨hu.raised hraise, fun hcap => ?_⟩
  have hbefore := hv.uncorrectable (by omega)
  have hafter := hu.uncorrectable (by rw [hcount]; omega)
  rw [hcount] at hafter
  omega

/-- Settles O52: the host's read by the worst class of its codewords, and the read of the ring entry over clean ones. -/
theorem readsComplete : Obligations.ReadsComplete := by
  refine ⟨fun s x n m h ha hk h4 hlen hm hn => ?_, fun s x v bytes bad h ha hk h8 hlen hv hst hclean => ?_⟩
  · intro touched cls freed carries
    have hmem (cw : Nat) : cw ∈ codewordsOf x.addr x.len ↔ touched cw := mem_codewordsOf (by omega)
    obtain ⟨hnext, hfound, hresponse, hfreed, hframe⟩ := hostRead_completes h ha hk
    refine ⟨fun hclean => ?_, fun husable hcorr => ?_, fun hbad => ?_⟩
    · have hall : ∀ cw ∈ codewordsOf x.addr x.len, (s.mem.check? cw).cls = .clean := fun cw hcw => hclean cw ((hmem cw).1 hcw)
      rw [readCodewords_of_clean (s := freePort s) hall] at hnext hresponse hfreed
      obtain ⟨hw, he, hl, hbeats⟩ := readResponse_carries hlen hn fun cw hcw => by rw [hall cw hcw]; rfl
      refine ⟨_, _, hnext, hfreed, hresponse, ⟨hw, he, hl, fun k hkn => ?_⟩,
        ((freePort_onlyChanges s).within.andThen (respond_onlyChanges _ _)).finish s⟩
      obtain ⟨w, hget, hbeat⟩ := hbeats k hkn
      refine ⟨w, hget, ?_⟩
      split
      · rename_i hin
        rw [if_pos hin] at hbeat
        intro j hj
        rw [hbeat j hj]
        exact readByte_of_clean (hclean _ ⟨by omega, by omega, by omega⟩)
      · rename_i hout
        rwa [if_neg hout] at hbeat
    · obtain ⟨cw, htouched, hcw⟩ := hcorr
      have hall : ∀ cw ∈ codewordsOf x.addr x.len, (s.mem.check? cw).cls = .clean ∨ (s.mem.check? cw).cls = .correctable :=
        fun cw hcw => husable cw ((hmem cw).1 hcw)
      have hgood : ∀ cw ∈ codewordsOf x.addr x.len, (s.mem.check? cw).cls.bad = false := fun cw hcw => by
        rcases hall cw hcw with hc | hc <;> rw [hc] <;> rfl
      have corrected {cw : Nat} (ht : touched cw) (hc : cls cw = .correctable) :=
        corrected_of_reads (src := .hostRead) ((hmem cw).2 ht) (s := freePort s) hc
      obtain ⟨hraised, -, hgeneral⟩ := corrected htouched hcw
      obtain ⟨hlog, hunc⟩ := readCodewords_of_usable (src := .hostRead) (s := freePort s) hall
      refine ⟨_, _, hnext, hfreed, hresponse, readResponse_carries hlen hn hgood, finish_raised _ _ hraised, ?_,
        fun cw ht hc => ?_, fun hlow hcap => ?_, ?_, ?_, hframe⟩
      · rw [finish_fmc_corrected]
        exact hfound.corrected
      · rw [finish_fmc_corrected]
        exact (corrected ht hc).2.1
      · rw [finish_fmc_corrGeneral]
        obtain ⟨h8, -, hhi⟩ := htouched
        exact hgeneral (by omega) hcap
      · rw [finish_fmc_errlog]
        exact hlog
      · rw [finish_fmc_uncorrectable]
        exact hunc
    · obtain ⟨cw, htouched, hcw⟩ := hbad
      have hcwbad : (s.mem.check? cw).cls.bad = true := (bad_iff _).2 hcw
      obtain ⟨hraised, hcount⟩ := uncorrectable_of_reads (src := .hostRead) ((hmem cw).2 htouched) (s := freePort s) hcwbad
      refine ⟨_, _, hnext, hfreed, hresponse, rfl, ?_, by simp [readResponse, readBeats], finish_raised _ _ hraised,
        fun hcap => ?_, hframe⟩
      · rw [readResponse, readRange_bad, List.any_eq_true.2 ⟨cw, (hmem cw).2 htouched, hcwbad⟩]
        rfl
      · rw [finish_fmc_uncorrectable]
        exact hcount hcap
  · intro all
    have hclean' : ∀ cw ∈ codewordsOf x.addr x.len, (s.mem.check? cw).cls = .clean := fun cw hcw => by
      rw [mem_codewordsOf (by omega)] at hcw
      have hword := hclean (cw - x.addr) (by omega) (by omega)
      rwa [Nat.add_sub_cancel' (by omega)] at hword
    have hread := readRange_of_clean (src := .request) (s := freePort s) hclean'
    have hto : partReadDone s = entryArrived ⟨(List.range x.len).map fun k => s.mem.byte (x.addr + k), false⟩ (freePort s) := by
      rw [partReadDone_of_entry ha hk, readCodewords_of_clean (s := freePort s) hclean', hread]
      rfl
    have harrived := entryArrived_of_reading (s := freePort s) (r := ⟨(List.range x.len).map fun k => s.mem.byte (x.addr + k), false⟩) hv hst
    rw [Bool.or_false] at harrived
    have hframe : OnlyChanges [.service, .port] s (withService { v with stage := .reading all bad } (freePort s)) :=
      ((freePort_onlyChanges s).within).andThen (withService_onlyChanges _ _)
    rw [exec_partReadComplete]
    by_cases hshort : all.length < 96
    · refine ⟨_, event_to h ((hto.trans harrived).trans (if_pos hshort)), ?_, fun _ =>
        finish_presented _ _ (List.mem_append_right _ List.mem_cons_self), ?_, finish_fmc_active _ _, finish_fmc_passOver _ _,
        finish_fmc_nextPart _ _, (hframe.presented _).finish s⟩
      · rw [finish_rqe, finish_service]
        rfl
      · rw [finish_rqe, finish_lastAnswer]
        rfl
    · refine ⟨_, event_to h ((hto.trans harrived).trans (if_neg hshort)), ?_, fun hs => absurd hs hshort, ?_,
        finish_fmc_active _ _, finish_fmc_passOver _ _, finish_fmc_nextPart _ _, hframe.finish s⟩
      · rw [finish_rqe, finish_service]
        rfl
      · rw [finish_rqe, finish_lastAnswer]
        rfl

end Sys2Proof.Machine
end

section
/-! PROOFS. The error log and the injection (R134 to R138, R140; O36). -/

namespace Sys2Proof.Machine

set_option Elab.async false

/-! ### A table a command did not change -/

theorem mirrorChanges_same (t : Stb) (es : List Nat) (q : Rqe) : mirrorChanges t t es q = q := by
  induction es generalizing q with
  | nil => rfl
  | cons e es ih => rw [mirrorChanges, if_pos (.inl rfl), ih]

/-- With the table as it was no mirror write is added at the command's end. -/
theorem settleRqe_jobs_of_same {b a : State} (h : a.stb = b.stb) : (settleRqe b a).jobs = a.rqe.jobs := by
  rw [settleRqe, (makeRaises_cases _).1, placeRaises_jobs, markChanges_jobs, h, mirrorChanges_same]

/-! ### CLEAR_ERRLOG -/

theorem exec_clearErrlog (s : State) : exec .clearErrlog s = event s (serve .clearErrlog judgeClearErrlog) := rfl

/-- The engine with the empty mirror queued, position by position and then the header (R138). -/
def clearingRqe (upd : Nat) (q : Rqe) : Rqe :=
  { q with jobs := q.jobs ++ ((List.range 16).map fun k => MirrorJob.errorEntry k none) ++ [.errorHeader upd 0 0] }

theorem clearingRqe_length (upd : Nat) (q : Rqe) : (clearingRqe upd q).jobs.length = q.jobs.length + 17 := by
  simp [clearingRqe]

/-- The engine with piece 4 marked too and the answer waiting for all of it. -/
def owingRqe (upd : Nat) (v : Service) (q : Rqe) : Rqe :=
  { (clearingRqe upd q).mark 4 with
    service := some { v with stage := .answering ⟨.done, []⟩ ⟨q.jobs.length + 17, [4], false⟩ } }

/-- The log cleared, its mirror queued, the answer waiting. -/
def logCleared (v : Service) (s : State) : State :=
  { s with fmc := { s.fmc.clearLog with logUpdate := nextUpdate s }, rqe := owingRqe (nextUpdate s) v s.rqe }

theorem judgeClearErrlog_eq (v : Service) (s : State) :
    judgeClearErrlog (withService v s) = logCleared v (withService v s) := by
  have hcleared : judgeClearErrlog (withService v s) =
      answerAfter ⟨.done, []⟩ (clearingRqe (nextUpdate s) (withService v s).rqe).jobs.length 4
        { withService v s with
          fmc := { s.fmc.clearLog with logUpdate := nextUpdate s }
          rqe := clearingRqe (nextUpdate s) (withService v s).rqe } := rfl
  rw [hcleared, clearingRqe_length]
  rfl

/-- The request judged leaves the error counters, its own service, and what is to be written. -/
theorem logCleared_onlyChanges (v : Service) (s : State) : OnlyChanges [.errors, .service] s (logCleared v s) := by
  have hring := mark_sameRing (clearingRqe (nextUpdate s) s.rqe) 4
  refine ⟨rfl, fun p hp hf => ?_⟩
  cases p with
  | errors | service => exact absurd hp (by decide)
  | reports | waiting | reads | monitorStop => exact absurd (by decide) hf
  | mem => exact ⟨fun _ => rfl, fun _ => rfl⟩
  | head => exact ⟨hring.head, hring.completionNo⟩
  | tail => exact ⟨hring.tail, hring.ringFaults, hring.observed⟩
  | flags => exact ⟨hring.flags, hring.enables, hring.attn⟩
  | resetCause => exact hring.resetCause
  | posted | path | port => exact ⟨rfl, rfl, rfl⟩
  | scrubber => exact ⟨rfl, rfl, rfl, rfl⟩
  | _ => exact rfl

/-- CLEAR_ERRLOG as it is taken (R138). -/
theorem clearErrlog_taken {s : State} (h : Taken .clearErrlog s) : ∃ t, exec .clearErrlog s = .next t ∧
    t.fmc.errlog = [] ∧ t.fmc.overflow = 0 ∧ t.fmc.corrGeneral = 0 ∧ t.fmc.corrFrame = 0 ∧ t.fmc.corrControl = 0 ∧
    t.fmc.uncorrectable = 0 ∧ t.fmc.logUpdate = (s.fmc.logUpdate + 1) % 4294967296 ∧
    t.rqe.jobs = s.rqe.jobs ++ (List.range 16).map (fun k => .errorEntry k none) ++
      [.errorHeader ((s.fmc.logUpdate + 1) % 4294967296) 0 0] ∧ 4 ∈ t.rqe.marked ∧
    t.rqe.lastAnswer = s.rqe.lastAnswer ∧
    t.rqe.service = some { s.rqe.service.getD ⟨none, 0, .handed .clearErrlog⟩ with
      stage := .answering ⟨.done, []⟩ ⟨s.rqe.jobs.length + 17, [4], false⟩ } ∧
    Marked s t ∧ OnlyChanges [.errors, .service] s t := by
  obtain ⟨v, hserve, hv⟩ := serve_taken h judgeClearErrlog
  have hservice : s.rqe.service.getD ⟨none, 0, .handed .clearErrlog⟩ = v := by
    rcases hv with hv | ⟨hn, rfl⟩
    · rw [hv]
      rfl
    · rw [hn]
      rfl
  have hto : serve .clearErrlog judgeClearErrlog s = logCleared v (withService v s) :=
    hserve.trans (judgeClearErrlog_eq v s)
  have hring := mark_sameRing (clearingRqe (nextUpdate s) (withService v s).rqe) 4
  rw [exec_clearErrlog, hservice]
  refine ⟨_, event_to h.1 hto, finish_fmc_errlog _ _, finish_fmc_overflow _ _, finish_fmc_corrGeneral _ _,
    finish_fmc_corrFrame _ _, finish_fmc_corrControl _ _, finish_fmc_uncorrectable _ _, finish_fmc_logUpdate _ _, ?_,
    finish_marked _ _ ((mem_mark _ 4 4).2 (.inr rfl)), ?_, ?_, finish_marks _ _, ?_⟩
  · rw [finish_rqe, settleRqe_jobs_of_same (b := s) (a := logCleared v (withService v s)) rfl]
    exact mark_jobs _ 4
  · rw [finish_rqe, finish_lastAnswer]
    exact hring.lastAnswer
  · rw [finish_rqe, finish_service]
    rfl
  · exact (((withService_onlyChanges v s).within).andThen (logCleared_onlyChanges v _)).finish s

/-! ### INJECT_CHECK -/

theorem exec_injectCheck (addr : BitVec 32) (mask : BitVec 8) (s : State) :
    exec (.injectCheck addr mask) s = event s (serve (.injectCheck addr mask) (judgeInjectCheck addr mask)) := rfl

/-- The state with the injection replaced. -/
def withInjection (x : Option (Nat × BitVec 8)) (s : State) : State := { s with fmc := { s.fmc with injection := x } }

theorem withInjection_onlyChanges (x : Option (Nat × BitVec 8)) (s : State) :
    OnlyChanges [.injection] s (withInjection x s) := by
  refine ⟨rfl, fun p hp _ => ?_⟩
  cases p <;> simp_all [Part.agree, withInjection]

theorem judgeInjectCheck_of_dram {addr : BitVec 32} (h : addr.toNat < 0x40000000) (mask : BitVec 8) (s : State) :
    judgeInjectCheck addr mask s =
      answer ⟨.done, le 4 (natOr0 ((injectionOf addr mask).map (·.1))) ++ le 1 mask.toNat⟩
        (withInjection (injectionOf addr mask) s) := if_neg (Nat.not_le.mpr h)

/-- An injection armed or disarmed: the state of it and the answer. -/
theorem injection_taken {addr : BitVec 32} {mask : BitVec 8} {s : State} (h : Taken (.injectCheck addr mask) s)
    (hd : addr.toNat < 0x40000000) {x : Option (Nat × BitVec 8)} {bs : List Byte} (hx : injectionOf addr mask = x)
    (hbs : le 4 (natOr0 (x.map (·.1))) ++ le 1 mask.toNat = bs) : ∃ t, exec (.injectCheck addr mask) s = .next t ∧
      t.fmc.injection = x ∧ Answered ⟨.done, bs⟩ s t ∧ OnlyChanges [.injection, .service] s t := by
  obtain ⟨v, u, hn, ha, ho, hg, -⟩ := taken_next h (judge := judgeInjectCheck addr mask) (ps := [.injection])
    (g := withInjection x) (a := ⟨.done, bs⟩) (fun v => by rw [judgeInjectCheck_of_dram hd, hx, hbs]) (fun _ => rfl)
    fun v => withInjection_onlyChanges _ _
  exact ⟨_, hn, hg.2 .injection (by decide) (by decide), ha, ho.within⟩

theorem le_one_toNat (b : Byte) : le 1 b.toNat = [b] := by
  simp [le, byteOf]

/-! ### An error entered in the log -/

/-- The first entry of an address. -/
theorem logIndex_of_first {a n k : Nat} {l : List LogEntry} {e : LogEntry} (hk : l[k]? = some e) (he : e.addr = a)
    (hfirst : ∀ j y, j < k → l[j]? = some y → y.addr ≠ a) : logIndex a n l = some (n + k) := by
  induction l generalizing n k with
  | nil => simp at hk
  | cons x l ih =>
    cases k with
    | zero =>
      simp only [List.getElem?_cons_zero, Option.some.injEq] at hk
      subst hk
      exact if_pos he
    | succ k =>
      have hx : x.addr ≠ a := hfirst 0 x (by omega) rfl
      rw [logIndex, if_neg hx, ih (n := n + 1) (by simpa using hk) fun j y hj hy => hfirst (j + 1) y (by omega) (by simpa using hy)]
      congr 1
      omega

theorem logIndex_of_absent {a n : Nat} {l : List LogEntry} (h : ∀ e ∈ l, e.addr ≠ a) : logIndex a n l = none := by
  induction l generalizing n with
  | nil => rfl
  | cons x l ih =>
    rw [logIndex, if_neg (h x (by simp))]
    exact ih fun e he => h e (by simp [he])

theorem modify_eq_set {l : List LogEntry} {k : Nat} {e : LogEntry} (f : LogEntry → LogEntry) (h : l[k]? = some e) :
    l.modify k f = l.set k (f e) := by
  rw [List.modify_eq_set_getElem?, h]
  rfl

/-- A change of a record that keeps its slot leaves the slots' holders. -/
theorem Stb.holder_update {t : Stb} {i : Nat} {r : ShotRecord} {f : ShotRecord → ShotRecord} (hf : ∀ q, (f q).slot = q.slot)
    (h : t.holder i = some r) : (t.update r.shot f).holder i = some (f r) := by
  have hsame : (fun q : ShotRecord => q.slot == some i) ∘ (fun q => if q.shot = r.shot then f q else q) =
      fun q => q.slot == some i := by
    funext q
    simp only [Function.comp]
    split
    · rw [hf]
    · rfl
  rw [Stb.holder, Stb.update, List.find?_map, hsame]
  exact (congrArg (Option.map _) h).trans (congrArg some (if_pos rfl))

/-- A range within one codeword. -/
theorem codewordsOf_one {a len : Nat} (hl : 0 < len) (h : a + len ≤ a / 8 * 8 + 8) : codewordsOf a len = [a / 8 * 8] := by
  have hone : (a + len - 1) / 8 - a / 8 + 1 = 1 := by omega
  rw [codewordsOf, if_neg (by omega), hone]
  rfl

/-- An occurrence that is logged: what it leaves in the controller and the engine, by what the log makes of it (R134). -/
theorem occur_logged {o : Occurrence} {c : ErrorClass} (h : o.cls = some c) (s : State) :
    (occur o s).fmc = { (logOccurrence o c (chargeRecord o s)).fmc with
      uncorrectable := min 4294967295 (s.fmc.uncorrectable + 1) } ∧
    (occur o s).rqe.jobs = (logOccurrence o c (chargeRecord o s)).rqe.jobs ∧
    (occur o s).stb = (chargeRecord o s).stb := by
  have hcharge := (chargeRecord_same o s).1
  have hlog : logged o (chargeRecord o s) = logOccurrence o c (chargeRecord o s) := by simp only [logged, h]
  obtain ⟨log, ovf, jobs, hl⟩ := logOccurrence_eq o c (chargeRecord o s)
  rw [occur_eq, hlog, hl]
  refine ⟨?_, rfl, rfl⟩
  rw [raise_fmc, withCount, Fmc.count]
  simp only [h]
  rw [← hcharge]
  rfl

/-- What the log makes of an occurrence, by whether its address is in the log and the log is full (R135). -/
theorem logOccurrence_enters (o : Occurrence) (c : ErrorClass) (w : State) :
    let t := logOccurrence o c w
    let log := w.fmc.errlog
    t.fmc.logUpdate = nextUpdate w ∧
    (∀ k e, log[k]? = some e → e.addr = o.addr → (∀ j y, j < k → log[j]? = some y → y.addr ≠ o.addr) →
      let e' := { e with hits := min 65535 (e.hits + 1) }
      t.fmc.errlog = log.set k e' ∧ t.fmc.overflow = w.fmc.overflow ∧
      t.rqe.jobs = w.rqe.jobs ++ [.errorEntry k (some e'), .errorHeader (nextUpdate w) log.length w.fmc.overflow]) ∧
    ((∀ e ∈ log, e.addr ≠ o.addr) → log.length < 16 →
      let e := newEntry o c w
      t.fmc.errlog = log ++ [e] ∧ t.fmc.overflow = w.fmc.overflow ∧
      t.rqe.jobs = w.rqe.jobs ++
        [.errorEntry log.length (some e), .errorHeader (nextUpdate w) (log.length + 1) w.fmc.overflow]) ∧
    ((∀ e ∈ log, e.addr ≠ o.addr) → 16 ≤ log.length →
      t.fmc.errlog = log ∧ t.fmc.overflow = min 4294967295 (w.fmc.overflow + 1) ∧
      t.rqe.jobs = w.rqe.jobs ++ [.errorHeader (nextUpdate w) log.length (min 4294967295 (w.fmc.overflow + 1))]) := by
  intro t log
  refine ⟨?_, fun k e hk he hfirst => ?_, fun habsent hl => ?_, fun habsent hl => ?_⟩
  · obtain ⟨l, ovf, jobs, h⟩ := logOccurrence_eq o c w
    exact (congrArg (fun s : State => s.fmc.logUpdate) h :)
  · have hindex := logIndex_of_first (n := 0) hk he hfirst
    rw [Nat.zero_add] at hindex
    have hlen : k < log.length := (List.getElem?_eq_some_iff.1 hk).1
    have ht := logOccurrence_hit c hindex
    rw [modify_eq_set _ hk] at ht
    simp only [List.getElem?_set_self hlen, List.length_set, List.append_assoc] at ht
    exact ⟨(congrArg (fun s : State => s.fmc.errlog) ht :), (congrArg (fun s : State => s.fmc.overflow) ht :),
      (congrArg (fun s : State => s.rqe.jobs) ht :)⟩
  · have ht := logOccurrence_new c (logIndex_of_absent habsent) hl
    simp only [List.length_append, List.length_singleton, List.append_assoc] at ht
    exact ⟨(congrArg (fun s : State => s.fmc.errlog) ht :), (congrArg (fun s : State => s.fmc.overflow) ht :),
      (congrArg (fun s : State => s.rqe.jobs) ht :)⟩
  · have ht := logOccurrence_full c (logIndex_of_absent habsent) hl
    exact ⟨(congrArg (fun s : State => s.fmc.errlog) ht :), (congrArg (fun s : State => s.fmc.overflow) ht :),
      (congrArg (fun s : State => s.rqe.jobs) ht :)⟩

theorem charge_shot (cls : Option ErrorClass) (r : ShotRecord) : (charge cls r).shot = r.shot := by
  cases cls <;> rfl

theorem rewriteShot_of_find {s : State} {n : Nat} {r : ShotRecord} (h : s.stb.find n = some r) :
    rewriteShot n s = withRqe (s.rqe.mirrorShot r.entry (some r)) s := by
  simp only [rewriteShot, h]
  rfl

/-- Settles O36: the two requests, then the log on a host read of one codeword. -/
theorem errorLogAndInjection : Obligations.ErrorLogAndInjection := by
  refine ⟨fun s => ⟨fun h => clearErrlog_taken h, fun addr mask h => ⟨fun hout => ?_, fun hd hz => ?_, fun hd hnz => ?_⟩⟩,
    fun s x n cw h ha hk hcw hl hin hbad => ?_⟩
  · exact taken_refused h fun v => if_pos hout
  · subst hz
    exact injection_taken h hd (if_pos rfl) rfl
  · refine injection_taken h hd (if_neg hnz) ?_
    rw [le_one_toNat]
    rfl
  · intro c cls upd log absent logged
    obtain ⟨hnext, -, -, -, -⟩ := hostRead_completes h ha hk
    set o := occurrenceOf .hostRead cw c with ho
    have hcls : o.cls = some cls := by
      rw [ho, occurrenceOf]
      rcases hbad with hb | hb
      · simp only [cls, c, hb, if_true]
        rfl
      · simp only [cls, c, hb]
        rfl
    have hread : (readCodewords .hostRead (codewordsOf x.addr x.len) (freePort s)).2 = occur o (freePort s) := by
      have hnot : c.cls ≠ .clean ∧ c.cls ≠ .correctable := by rcases hbad with hb | hb <;> simp [c, hb]
      have hcws : codewordsOf x.addr x.len = [cw] := by
        rw [codewordsOf_one hl (by omega), hcw]
      rw [hcws]
      exact (if_neg hnot.2).trans (report_of_error hnot.1 _)
    rw [hread] at hnext
    obtain ⟨hfmc, hjobs, hstb⟩ := occur_logged hcls (freePort s)
    obtain ⟨hupd, hhit, hnew, hfull⟩ := logOccurrence_enters o cls (chargeRecord o (freePort s))
    have hsame : (chargeRecord o (freePort s)).fmc = (freePort s).fmc := (chargeRecord_same o (freePort s)).1
    obtain ⟨more, hmore, -⟩ := settleRqe_jobs s (respond (readResponse x n s) (occur o (freePort s)))
    have hraised : (⟨.memUncorrectable, none⟩ : Raise) ∈ (occur o (freePort s)).rqe.raises := by
      rw [occur_raises, Occurrence.flag, hcls]
      simp
    have hframe : OnlyChanges [.port, .response, .errors, .stb] s (respond (readResponse x n s) (occur o (freePort s))) :=
      (((freePort_onlyChanges s).within).andThen (occur_onlyChanges o _)).andThen (respond_onlyChanges _ _)
    have logs_of {shot : Option Nat} {charge : List MirrorJob}
        (hw : (chargeRecord o (freePort s)).rqe.jobs = s.rqe.jobs ++ charge)
        (hshot : newEntry o cls (chargeRecord o (freePort s)) = ⟨cw, c.syndrome, cls, .hostRead, 1, shot⟩) :
        logged shot charge (finish s (respond (readResponse x n s) (occur o (freePort s)))) := by
      have hqueued {js : List MirrorJob}
          (hj : (logOccurrence o cls (chargeRecord o (freePort s))).rqe.jobs = (chargeRecord o (freePort s)).rqe.jobs ++ js) :
          (settleRqe s (respond (readResponse x n s) (occur o (freePort s)))).jobs = s.rqe.jobs ++ charge ++ js ++ more := by
        rw [hmore, ← hw, ← hj, ← hjobs]
        rfl
      have hlog : (chargeRecord o (freePort s)).fmc.errlog = log := by rw [hsame]; rfl
      have hovf : (chargeRecord o (freePort s)).fmc.overflow = s.fmc.overflow := by rw [hsame]; rfl
      have hnextUpd : nextUpdate (chargeRecord o (freePort s)) = upd := by rw [nextUpdate, hsame]; rfl
      rw [hlog, hovf, hnextUpd] at hhit hnew hfull
      rw [hnextUpd] at hupd
      rw [hshot] at hnew
      have enters {l : List LogEntry} {n' : Nat} {js : List MirrorJob}
          (hj : (logOccurrence o cls (chargeRecord o (freePort s))).fmc.errlog = l ∧
            (logOccurrence o cls (chargeRecord o (freePort s))).fmc.overflow = n' ∧
            (logOccurrence o cls (chargeRecord o (freePort s))).rqe.jobs = (chargeRecord o (freePort s)).rqe.jobs ++ js) :
          (finish s (respond (readResponse x n s) (occur o (freePort s)))).fmc.errlog = l ∧
            (finish s (respond (readResponse x n s) (occur o (freePort s)))).fmc.overflow = n' ∧
            ∃ more, (finish s (respond (readResponse x n s) (occur o (freePort s)))).rqe.jobs =
              s.rqe.jobs ++ charge ++ js ++ more := by
        obtain ⟨h1, h2, h3⟩ := hj
        rw [finish_fmc_errlog, finish_fmc_overflow, finish_rqe]
        exact ⟨(congrArg Fmc.errlog hfmc :).trans h1, (congrArg Fmc.overflow hfmc :).trans h2, more, hqueued h3⟩
      refine ⟨?_, ?_, finish_raised _ _ hraised, fun k e hk he hfirst => enters (hhit k e hk he hfirst),
        fun habsent hl => enters (hnew habsent hl), fun habsent hl => enters (hfull habsent hl), hframe.finish s⟩
      · rw [finish_fmc_uncorrectable]
        exact (congrArg Fmc.uncorrectable hfmc :)
      · rw [finish_fmc_logUpdate]
        exact (congrArg Fmc.logUpdate hfmc :).trans hupd
    have hstb' : (finish s (respond (readResponse x n s) (occur o (freePort s)))).stb = (chargeRecord o (freePort s)).stb := by
      rw [finish_stb]
      exact hstb
    refine ⟨fun hfree => ?_, fun i r hslot hholder hfind => ?_⟩
    · have hcharged : s.stb.charged cw = none := by
        rw [Stb.charged]
        cases hs : s.stb.slotAt cw with
        | none => rfl
        | some i => exact hfree i hs
      have hnone : chargeRecord o (freePort s) = freePort s := chargeRecord_of_none hcharged
      refine ⟨_, hnext, logs_of (by rw [hnone]; simp [freePort]) ?_, by rw [hstb', hnone]; rfl⟩
      rw [hnone, newEntry]
      exact congrArg (fun q : Option ShotRecord => (⟨cw, c.syndrome, cls, .hostRead, 1, q.map (·.shot)⟩ : LogEntry)) hcharged
    · intro charged
      have hcharged : (freePort s).stb.charged o.addr = some r := by
        show (s.stb.slotAt cw).bind s.stb.holder = some r
        rw [hslot]
        exact hholder
      have hrecord := (chargeRecord_of_some hcharged).trans
        (rewriteShot_of_find (s := withStb _ (freePort s)) (Stb.find_update (f := charge o.cls) (fun _ => charge_shot _ _) hfind))
      rw [hcls] at hrecord
      refine ⟨_, hnext, ?_, logs_of ?_ ?_⟩
      · rw [hstb', hrecord]
        rfl
      · rw [hrecord]
        rfl
      · rw [hrecord, newEntry]
        have hnew : ((s.stb.update r.shot (charge (some cls))).charged cw) = some (charge (some cls) r) := by
          show (s.stb.slotAt cw).bind _ = _
          rw [hslot]
          exact Stb.holder_update (fun _ => rfl) hholder
        exact congrArg (fun q : Option ShotRecord => (⟨cw, c.syndrome, cls, .hostRead, 1, q.map (·.shot)⟩ : LogEntry)) hnew

end Sys2Proof.Machine
end

section
/-! PROOFS. LOAD_PROFILE, LOAD_DEFECTS and CLEAR_FOUND as they are taken (R72, R116, R117, R119, R120; O19, O21). -/

namespace Sys2Proof.Machine

set_option Elab.async false

/-! ### A request that is not answered yet -/

section Taken

variable {q : Request} {s : State} {judge : State → State} {ps : List Part}

/-- The owner makes the changes `g` with the request in service, and does not answer yet. -/
theorem taken_holds {g : State → State} (h : Taken q s) (hj : ∀ v, judge (withService v s) = g (withService v s))
    (hf : ∀ v, OnlyChanges ps (withService v s) (g (withService v s))) (hp : .service ∉ ps) :
    ∃ v, event s (serve q judge) = .next (finish s (g (withService v s))) ∧
      (finish s (g (withService v s))).rqe.lastAnswer = s.rqe.lastAnswer ∧
      (∀ w, s.rqe.service = some w → (finish s (g (withService v s))).rqe.service = some w) ∧
      OnlyChanges (.service :: ps) s (finish s (g (withService v s))) := by
  obtain ⟨v, hs, hv⟩ := serve_taken h judge
  have hto : serve q judge s = g (withService v s) := hs.trans (hj v)
  obtain ⟨hservice, hlast⟩ := ((hf v).finish s).2 .service hp (by decide)
  refine ⟨v, event_to h.1 hto, hlast, fun w hw => ?_, ?_⟩
  · rcases hv with hv | ⟨hn, -⟩
    · rw [hservice]
      exact hv.symm.trans hw
    · exact absurd (hn.symm.trans hw) (by simp)
  · exact (((withService_onlyChanges v s).within (by simp)).andThen (hf v) fun p => List.mem_cons_of_mem _).finish s

end Taken

/-! ### LOAD_PROFILE -/

theorem exec_loadProfile (id : BitVec 8) (addr : BitVec 32) (s : State) :
    exec (.loadProfile id addr) s = event s (serve (.loadProfile id addr) (judgeLoadProfile id addr)) := rfl

theorem staged_iff (a n : Nat) : staged a n = true ↔ a % 8 = 0 ∧ 0x3F020000 ≤ a ∧ a + n ≤ 0x40000000 := by
  simp [staged]

/-- A load the store is not at work on is dropped without a change. -/
theorem withoutLoad {s : State} (h : s.prs.load = none) : modPrs (fun p => { p with load := none }) s = s := by
  have hsame : { s.prs with load := none } = s.prs := by rw [← h]
  rw [modPrs, hsame]

section Profile

variable {id : BitVec 8} {addr : BitVec 32} {s : State}

theorem judgeLoadProfile_refuses (h : s.prs.load = none)
    (hb : 3 < id.toNat ∨ ¬ staged addr.toNat fixedLength = true) :
    judgeLoadProfile id addr s = answer ⟨.badRequest, [0]⟩ s := by
  have hrefuse : judgeLoadProfile id addr s = refuseImage 0 s := by
    rw [judgeLoadProfile, if_neg (by simp [h])]
    exact if_pos (by simpa using hb)
  rw [hrefuse, refuseImage, withoutLoad h]
  rfl

theorem judgeLoadProfile_reads (h : s.prs.load = none)
    (hb : ¬ (3 < id.toNat ∨ ¬ staged addr.toNat fixedLength = true)) :
    judgeLoadProfile id addr s = present ⟨.imageRead, addr.toNat, 40, [], false⟩
      (withPrs { s.prs with load := some ⟨id.toNat, addr.toNat, [], none⟩ } s) := by
  rw [judgeLoadProfile, if_neg (by simp [h]), if_neg (by simpa using hb)]
  rfl

end Profile

/-! ### LOAD_DEFECTS -/

theorem exec_loadDefects (addr count : BitVec 32) (s : State) :
    exec (.loadDefects addr count) s = event s (serve (.loadDefects addr count) (judgeLoadDefects addr count)) := rfl

theorem badListAddress_iff (a n : Nat) :
    badListAddress a n = true ↔ a < 0x3F020000 ∨ a % 8 ≠ 0 ∨ 0x40000000 < a + n * 8 := by
  simp [badListAddress]

theorem inReading_iff (t : Stb) : t.inReading.isSome = true ↔ ∃ r ∈ t.records, r.phase = .reading := by
  simp [Stb.inReading, List.find?_isSome]

theorem withoutList {s : State} (h : s.dfm.load = none) : modDfm (fun d => { d with load := none }) s = s := by
  have hsame : { s.dfm with load := none } = s.dfm := by rw [← h]
  rw [modDfm, hsame]

theorem resetRewrite_iff (d : Dfm) : d.resetRewrite = true ↔ d.rewrite ≠ none ∧ d.sequence = 1 := by
  simp [Dfm.resetRewrite, Option.isSome_iff_ne_none]

section Defects

variable {a n : Nat} {s : State}

theorem takeLoadDefects_address (hl : s.dfm.load = none) (h : badListAddress a n = true) :
    takeLoadDefects a n s = answer ⟨.badRequest, [1, 0, 0, 0, 0, 0, 0, 0]⟩ s := by
  rw [takeLoadDefects, if_pos h, refuseList, withoutList hl]
  rfl

theorem takeLoadDefects_count (hl : s.dfm.load = none) (h : ¬ badListAddress a n = true) (hn : 8192 < n) :
    takeLoadDefects a n s = answer ⟨.badRequest, [2, 0, 0, 0, 0, 0, 0, 0]⟩ s := by
  rw [takeLoadDefects, if_neg h, if_pos hn, refuseList, withoutList hl]
  rfl

theorem takeLoadDefects_busy (h : ¬ badListAddress a n = true) (hn : n ≤ 8192) (hr : s.stb.inReading.isSome = true) :
    takeLoadDefects a n s = reply .busy s := by
  rw [takeLoadDefects, if_neg h, if_neg (Nat.not_lt.mpr hn), if_pos hr]

/-- The list's read, the first entries asked for. -/
def listBegun (a n : Nat) (s : State) : State :=
  if 0 < n then present ⟨.listRead, a, 8 * min 8 n, [], false⟩ (withDfm { s.dfm with load := some ⟨a, n, []⟩ } s)
  else withDfm { s.dfm with load := some ⟨a, n, []⟩ } s

theorem takeLoadDefects_reads (h : ¬ badListAddress a n = true) (hn : n ≤ 8192) (hr : ¬ s.stb.inReading.isSome = true) :
    takeLoadDefects a n s = listBegun a n s := by
  rw [takeLoadDefects, if_neg h, if_neg (Nat.not_lt.mpr hn), if_neg hr]
  rfl

theorem listBegun_onlyChanges (a n : Nat) (s : State) : OnlyChanges [.dfm] s (listBegun a n s) := by
  unfold listBegun
  split
  · exact ((OnlyChanges.refl _ s).dfm _).presented _
  · exact (OnlyChanges.refl _ s).dfm _

theorem listBegun_dfm (a n : Nat) (s : State) : (listBegun a n s).dfm = { s.dfm with load := some ⟨a, n, []⟩ } := by
  unfold listBegun
  split <;> rfl

theorem listBegun_presents (hn : 0 < n) : Presented .listRead a (8 * min 8 n) (listBegun a n s) := by
  rw [listBegun, if_pos hn]
  exact List.mem_append_right _ List.mem_cons_self

end Defects

theorem not_working {d : Dfm} (hl : d.load = none) (hw : d.waiting = none) (ho : d.owed = none) :
    ¬ d.working = true := by
  simp [Dfm.working, hl, hw, ho]

/-- Settles O19: each owner's checks in their order. -/
theorem loadsBegin : Obligations.LoadsBegin := by
  refine ⟨fun id addr s h hl => ?_, fun addr count s h hl hw ho => ?_⟩
  · intro a bad
    have hbad : bad ↔ 3 < id.toNat ∨ ¬ staged addr.toNat fixedLength = true := by
      rw [staged_iff]
      simp only [bad, a, fixedLength]
      omega
    rw [exec_loadProfile]
    refine ⟨fun hb => taken_answered_unchanged h fun v => judgeLoadProfile_refuses hl (hbad.1 hb), fun hb => ?_⟩
    obtain ⟨v, hn, hlast, -, hframe⟩ := taken_holds h (ps := [.prs]) (judge := judgeLoadProfile id addr)
      (g := fun w => present ⟨.imageRead, a, 40, [], false⟩ (withPrs { s.prs with load := some ⟨id.toNat, a, [], none⟩ } w))
      (fun v => judgeLoadProfile_reads (s := withService v s) hl (by rwa [← hbad]))
      (fun v => ((OnlyChanges.refl _ _).prs _).presented _) (by decide)
    exact ⟨_, hn, by rw [finish_prs]; rfl, by rw [finish_prs]; rfl,
      finish_presented _ _ (List.mem_append_right _ List.mem_cons_self), hlast, hframe.within⟩
  · intro a n bad reading
    have hbad : badListAddress a n = true ↔ bad := badListAddress_iff a n
    have hreading : s.stb.inReading.isSome = true ↔ reading := inReading_iff s.stb
    have hidle := not_working hl hw ho
    rw [exec_loadDefects]
    refine ⟨fun hr hs => ?_, fun hfree => ?_⟩
    · have hreset : s.dfm.resetRewrite = true := (resetRewrite_iff _).2 ⟨hr, hs⟩
      obtain ⟨v, hn, hlast, hkeeps, hframe⟩ := taken_holds h (ps := [.dfm]) (judge := judgeLoadDefects addr count)
        (g := fun w => withDfm { s.dfm with waiting := some (.loadDefects addr count) } w)
        (fun v => (if_neg hidle).trans (if_pos hreset)) (fun v => (OnlyChanges.refl _ _).dfm _) (by decide)
      exact ⟨_, hn, finish_dfm _ _, hlast, hkeeps, hframe.within⟩
    · have hreset : ¬ s.dfm.resetRewrite = true := by
        rw [resetRewrite_iff]
        tauto
      have hjudge (v : Service) : judgeLoadDefects addr count (withService v s) = takeLoadDefects a n (withService v s) :=
        (if_neg hidle).trans (if_neg hreset)
      refine ⟨fun hb => taken_answered_unchanged h fun v => (hjudge v).trans (takeLoadDefects_address hl (hbad.2 hb)),
        fun hb hn => taken_answered_unchanged h fun v => (hjudge v).trans (takeLoadDefects_count hl (by rwa [hbad]) hn),
        fun hb hn hr => taken_refused h fun v => (hjudge v).trans (takeLoadDefects_busy (by rwa [hbad]) hn (hreading.2 hr)),
        fun hb hn hr => ?_⟩
      obtain ⟨v, hnext, hlast, -, hframe⟩ := taken_holds h (ps := [.dfm]) (judge := judgeLoadDefects addr count)
        (g := listBegun a n)
        (fun v => (hjudge v).trans (takeLoadDefects_reads (by rwa [hbad]) hn (by exact mt hreading.1 hr)))
        (fun v => listBegun_onlyChanges a n _) (by decide)
      exact ⟨_, hnext, (finish_dfm _ _).trans (listBegun_dfm a n _), fun hpos =>
        finish_presented _ _ (listBegun_presents hpos), hlast, hframe.within⟩

/-! ### CLEAR_FOUND -/

theorem exec_clearFound (s : State) : exec .clearFound s = event s (serve .clearFound judgeClearFound) := rfl

/-- The map without its FOUND entries. -/
def keptEntries (es : List DefectEntry) : List DefectEntry := es.filter fun e => !e.found

theorem Dfm.replace_same (d : Dfm) : d.replace d.entries = d := by
  rw [Dfm.replace, if_pos rfl, Dfm.beginRewrite, if_pos (Nat.zero_le _)]

/-- A new map, while no rewrite is in progress. -/
theorem Dfm.replace_other {d : Dfm} {new : List DefectEntry} (h : d.rewrite = none) (hne : d.entries ≠ new)
    (hk : firstDiff 0 d.entries new < max d.entries.length new.length) : d.replace new =
      { d with
        entries := new
        rewrite := some ⟨firstDiff 0 d.entries new, max d.entries.length new.length⟩
        sequence := (d.sequence + 1) % 4294967296 } := by
  rw [Dfm.replace, if_neg hne, Dfm.beginRewrite, if_neg (Nat.not_le.mpr hk)]
  simp only [h]
  rfl

/-- The first position at which two lists differ. -/
theorem firstDiff_spec (l l' : List DefectEntry) (n : Nat) : ∃ k, firstDiff n l l' = n + k ∧ (∀ j < k, l'[j]? = l[j]?) ∧
    (l ≠ l' → l'[k]? ≠ l[k]? ∧ k < max l.length l'.length) := by
  induction l generalizing l' n with
  | nil =>
    refine ⟨0, rfl, fun j hj => absurd hj (by omega), fun hne => ?_⟩
    cases l' with
    | nil => exact absurd rfl hne
    | cons b l' => simp
  | cons a l ih =>
    cases l' with
    | nil => exact ⟨0, rfl, fun j hj => absurd hj (by omega), fun _ => by simp⟩
    | cons b l' =>
      by_cases hab : a = b
      · subst hab
        obtain ⟨k, hk, hsame, hdiff⟩ := ih l' (n + 1)
        refine ⟨k + 1, ?_, fun j hj => ?_, fun hne => ?_⟩
        · rw [firstDiff, if_pos rfl, hk]
          omega
        · cases j with
          | zero => rfl
          | succ j => simpa using hsame j (by omega)
        · obtain ⟨h1, h2⟩ := hdiff fun h => hne (by rw [h])
          refine ⟨by simpa using h1, ?_⟩
          simp only [List.length_cons]
          omega
      · refine ⟨0, by rw [firstDiff, if_neg hab]; rfl, fun j hj => absurd hj (by omega), fun _ => ?_⟩
        simp only [List.getElem?_cons_zero, List.length_cons]
        exact ⟨fun h => hab (Option.some.inj h).symm, by omega⟩

/-- The first FOUND entry is the first position at which the map and what is kept of it differ. -/
theorem firstDiff_kept {l : List DefectEntry} {k : Nat} {e : DefectEntry} (hk : l[k]? = some e) (he : e.found = true)
    (hfirst : ∀ j < k, ∀ x, l[j]? = some x → x.found = false) (n : Nat) : firstDiff n l (keptEntries l) = n + k := by
  induction l generalizing k n with
  | nil => simp at hk
  | cons x l ih =>
    cases k with
    | zero =>
      simp only [List.getElem?_cons_zero, Option.some.injEq] at hk
      subst hk
      have hdrop : keptEntries (x :: l) = keptEntries l := by simp [keptEntries, he]
      rw [hdrop]
      cases hl : keptEntries l with
      | nil => rfl
      | cons b bs =>
        have hb : b ∈ keptEntries l := by rw [hl]; exact List.mem_cons_self
        refine if_neg fun hxb => ?_
        subst hxb
        simp [keptEntries, he] at hb
    | succ k =>
      have hx : x.found = false := hfirst 0 (by omega) x rfl
      have hkeep : keptEntries (x :: l) = x :: keptEntries l := by simp [keptEntries, hx]
      rw [hkeep, firstDiff, if_pos rfl, ih (by simpa using hk) (fun j hj y hy => hfirst (j + 1) (by omega) y (by simpa using hy))]
      omega

section Clear

variable {s : State}

/-- The answer to CLEAR_FOUND. -/
def clearAnswer (l : List DefectEntry) : Answer :=
  ⟨.done, le 2 (l.length - (keptEntries l).length) ++ le 2 (keptEntries l).length⟩

theorem takeClearFound_busy (hr : s.stb.inReading.isSome = true) : takeClearFound s = reply .busy s := if_pos hr

/-- Nothing to remove. -/
theorem takeClearFound_nothing (hr : ¬ s.stb.inReading.isSome = true) (hw : s.dfm.rewrite = none)
    (hnone : ∀ e ∈ s.dfm.entries, e.found = false) :
    takeClearFound s = answer ⟨.done, le 2 0 ++ le 2 s.dfm.entries.length⟩ s := by
  have hkept : (s.dfm.entries.filter fun e => !e.found) = s.dfm.entries :=
    List.filter_eq_self.2 fun e he => by simp [hnone e he]
  have hsame : modDfm (fun d => d.replace (d.entries.filter fun e => !e.found)) s = s := by
    rw [modDfm, hkept, Dfm.replace_same]
  rw [takeClearFound, if_neg hr, hsame, answerAfterRewrite, if_neg (by simp [hw]), Nat.sub_self]

/-- The FOUND entries go, and the answer waits for the rewrite. -/
theorem takeClearFound_removes {k : Nat} {e : DefectEntry} (hr : ¬ s.stb.inReading.isSome = true)
    (hw : s.dfm.rewrite = none) (hk : s.dfm.entries[k]? = some e) (he : e.found = true)
    (hfirst : ∀ j < k, ∀ x, s.dfm.entries[j]? = some x → x.found = false) : takeClearFound s =
      withDfm
        { s.dfm with
          entries := keptEntries s.dfm.entries
          rewrite := some ⟨k, s.dfm.entries.length⟩
          sequence := (s.dfm.sequence + 1) % 4294967296
          owed := some (clearAnswer s.dfm.entries) } s := by
  have hlen : k < s.dfm.entries.length := (List.getElem?_eq_some_iff.1 hk).1
  have hdiff : firstDiff 0 s.dfm.entries (keptEntries s.dfm.entries) = k := by
    rw [firstDiff_kept hk he hfirst, Nat.zero_add]
  have hshort : (keptEntries s.dfm.entries).length ≤ s.dfm.entries.length := List.length_filter_le _ _
  have hmax : max s.dfm.entries.length (keptEntries s.dfm.entries).length = s.dfm.entries.length := Nat.max_eq_left hshort
  have hne : s.dfm.entries ≠ keptEntries s.dfm.entries := fun h => by
    have hmem : e ∈ keptEntries s.dfm.entries := h ▸ List.mem_of_getElem? hk
    simp [keptEntries, he] at hmem
  have hreplace : modDfm (fun d => d.replace (d.entries.filter fun e => !e.found)) s = withDfm
      { s.dfm with
        entries := keptEntries s.dfm.entries
        rewrite := some ⟨k, s.dfm.entries.length⟩
        sequence := (s.dfm.sequence + 1) % 4294967296 } s := by
    have hnew := Dfm.replace_other hw hne (by rw [hdiff, hmax]; exact hlen)
    rw [hdiff, hmax] at hnew
    rw [modDfm]
    exact congrArg (fun d => withDfm d s) hnew
  rw [takeClearFound, if_neg hr, hreplace]
  rfl

end Clear

/-- Settles O21: the wait for a reset's rewrite, the refusal, and the two ends of `takeClearFound`. -/
theorem clearFound : Obligations.ClearFound := by
  intro s h hl hw ho reading old kept
  have hreading : s.stb.inReading.isSome = true ↔ reading := inReading_iff s.stb
  have hidle := not_working hl hw ho
  have hjudge (hfree : s.dfm.rewrite = none ∨ s.dfm.sequence ≠ 1) (v : Service) :
      judgeClearFound (withService v s) = takeClearFound (withService v s) := by
    have hreset : ¬ s.dfm.resetRewrite = true := by
      rw [resetRewrite_iff]
      tauto
    exact (if_neg hidle).trans (if_neg hreset)
  rw [exec_clearFound]
  refine ⟨fun hr hs => ?_, fun hfree hr => taken_refused h fun v => (hjudge hfree v).trans (takeClearFound_busy (hreading.2 hr)),
    fun hr hn hnone => taken_answered_unchanged h fun v => (hjudge (.inl hr) v).trans
      (takeClearFound_nothing (s := withService v s) (by rwa [← hreading] at hn) hr hnone),
    fun hr hn k e hk he hfirst => ?_⟩
  · have hreset : s.dfm.resetRewrite = true := (resetRewrite_iff _).2 ⟨hr, hs⟩
    obtain ⟨v, hn, hlast, hkeeps, hframe⟩ := taken_holds h (ps := [.dfm]) (judge := judgeClearFound)
      (g := fun w => withDfm { s.dfm with waiting := some .clearFound } w)
      (fun v => (if_neg hidle).trans (if_pos hreset)) (fun v => (OnlyChanges.refl _ _).dfm _) (by decide)
    exact ⟨_, hn, finish_dfm _ _, hlast, hkeeps, hframe.within⟩
  · obtain ⟨v, hnext, hlast, -, hframe⟩ := taken_holds h (ps := [.dfm]) (judge := judgeClearFound)
      (g := fun w => withDfm
        { s.dfm with
          entries := keptEntries s.dfm.entries
          rewrite := some ⟨k, s.dfm.entries.length⟩
          sequence := (s.dfm.sequence + 1) % 4294967296
          owed := some (clearAnswer s.dfm.entries) } w)
      (fun v => (hjudge (.inl hr) v).trans
        (takeClearFound_removes (s := withService v s) (by rwa [← hreading] at hn) hr hk he hfirst))
      (fun v => (OnlyChanges.refl _ _).dfm _) (by decide)
    refine ⟨_, hnext, ?_, ?_, ?_, ?_, ?_, hlast, hframe.within⟩
    all_goals rw [finish_dfm]; rfl

end Sys2Proof.Machine
end

section
/-! PROOFS. A defect list read and judged, and the map replaced by it (R117 to R119; O22). -/

namespace Sys2Proof.Machine

set_option Elab.async false

/-! ### One entry (R118) -/

/-- An entry lies before another in the map's order (R114). -/
def liesBefore (a b : DefectEntry) : Prop := a.row < b.row ∨ a.row = b.row ∧ a.column < b.column

theorem entryBefore_iff (a b : DefectEntry) : entryBefore a.row a.column b.row b.column = true ↔ liesBefore a b := by
  simp [entryBefore, liesBefore]

/-- A run among the passed entries covers the entry's first pixel. -/
def inRun (passed : List DefectEntry) (e : DefectEntry) : Prop :=
  ∃ q n, q ∈ passed ∧ q.length = some n ∧ q.column = e.column ∧ q.row ≤ e.row ∧ e.row < q.row + n

theorem inRun_iff (passed : List DefectEntry) (e : DefectEntry) :
    passed.any (fun q => q.length.isSome && q.covers e.row e.column) = true ↔ inRun passed e := by
  rw [List.any_eq_true]
  constructor
  · rintro ⟨q, hq, hcovers⟩
    rw [Bool.and_eq_true] at hcovers
    obtain ⟨n, hn⟩ := Option.isSome_iff_exists.1 hcovers.1
    simp only [DefectEntry.covers, hn, Bool.and_eq_true, beq_iff_eq, decide_eq_true_eq] at hcovers
    exact ⟨q, n, hq, hn, hcovers.2⟩
  · rintro ⟨q, n, hq, hn, hrest⟩
    exact ⟨q, hq, by simp [DefectEntry.covers, hn, hrest]⟩

section Judge

variable {passed : List DefectEntry} {bs : List Byte} {e : DefectEntry}

/-- An entry after the last one and in no run passes. -/
theorem judgeEntry_passes (h : defectOf bs = some e) (ha : ∀ q, passed.getLast? = some q → liesBefore q e)
    (hr : ¬ inRun passed e) : judgeEntry passed bs = .inl e := by
  simp only [judgeEntry, h]
  split
  · rfl
  · rename_i q hq
    have hlast := ha q hq
    rw [if_neg (by rw [entryBefore_iff]; unfold liesBefore at *; omega), if_neg]
    rw [inRun_iff]
    unfold liesBefore at hlast
    rintro (hsame | hrun)
    · omega
    · exact hr hrun

theorem judgeEntry_range (h : defectOf bs = none) : judgeEntry passed bs = .inr .range := by
  simp only [judgeEntry, h]

theorem judgeEntry_order {q : DefectEntry} (h : defectOf bs = some e) (hq : passed.getLast? = some q)
    (hb : liesBefore e q) : judgeEntry passed bs = .inr .order := by
  simp only [judgeEntry, h, hq]
  exact if_pos ((entryBefore_iff e q).2 hb)

theorem judgeEntry_overlap (h : defectOf bs = some e)
    (ho : (∃ q, passed.getLast? = some q ∧ q.row = e.row ∧ q.column = e.column) ∨
      (∀ q, passed.getLast? = some q → liesBefore q e) ∧ inRun passed e) : judgeEntry passed bs = .inr .overlap := by
  have hne : passed ≠ [] := by
    rcases ho with ⟨q, hq, -⟩ | ⟨-, q, n, hq, -⟩
    · rintro rfl
      simp at hq
    · exact List.ne_nil_of_mem hq
  obtain ⟨p, hp⟩ := Option.ne_none_iff_exists'.1 (mt List.getLast?_eq_none_iff.1 hne)
  simp only [judgeEntry, h, hp]
  have hnot : ¬ entryBefore e.row e.column p.row p.column = true := by
    rw [entryBefore_iff]
    unfold liesBefore
    rcases ho with ⟨q, hq, hsame⟩ | ⟨hafter, -⟩
    · cases hp.symm.trans hq
      omega
    · have hlast := hafter p hp
      unfold liesBefore at hlast
      omega
  rw [if_neg hnot, if_pos]
  rw [inRun_iff]
  rcases ho with ⟨q, hq, hsame⟩ | ⟨-, hrun⟩
  · cases hp.symm.trans hq
    exact .inl ⟨hsame.1.symm, hsame.2.symm⟩
  · exact .inr hrun

end Judge

/-! ### The entries of a read -/

/-- The entries of a list pass one after another. -/
theorem judgeEntries_passes {es : List DefectEntry} {passed : List DefectEntry} {bs : List Byte} {m : Nat}
    (hm : es.length ≤ m)
    (h : ∀ k e, es[k]? = some e → judgeEntry (passed ++ es.take k) ((bs.drop (8 * k)).take 8) = .inl e) :
    judgeEntries m passed bs = judgeEntries (m - es.length) (passed ++ es) (bs.drop (8 * es.length)) := by
  induction es generalizing passed bs m with
  | nil => simp
  | cons e es ih =>
    obtain ⟨m, rfl⟩ : ∃ k, m = k + 1 := ⟨m - 1, by simp at hm; omega⟩
    have hfirst : judgeEntry passed (bs.take 8) = .inl e := by simpa using h 0 e rfl
    have hrest := ih (passed := passed ++ [e]) (bs := bs.drop 8) (m := m) (by simpa using hm) fun k x hk => by
      have hx := h (k + 1) x (by simpa using hk)
      rw [List.drop_drop, show 8 + 8 * k = 8 * (k + 1) by omega]
      simpa using hx
    simp only [judgeEntries, hfirst]
    rw [hrest, List.length_cons, List.drop_drop]
    congr 1
    · omega
    · simp
    · congr 1
      omega

theorem judgeEntries_stops {passed : List DefectEntry} {bs : List Byte} {m : Nat} {r : DefectReason} (hm : 0 < m)
    (h : judgeEntry passed (bs.take 8) = .inr r) : judgeEntries m passed bs = (passed, some r) := by
  obtain ⟨m, rfl⟩ : ∃ k, m = k + 1 := ⟨m - 1, by omega⟩
  simp only [judgeEntries, h]

/-- Eight bytes of a read. -/
theorem read_entry {f : Nat → Byte} {n k : Nat} (h : 8 * k + 8 ≤ n) :
    (((List.range n).map f).drop (8 * k)).take 8 = (List.range 8).map fun b => f (8 * k + b) := by
  apply List.ext_getElem?
  intro j
  rw [List.getElem?_take]
  by_cases hj : j < 8
  · rw [if_pos hj, List.getElem?_drop, List.getElem?_map, List.getElem?_map, List.getElem?_range (by omega),
      List.getElem?_range hj]
    rfl
  · rw [if_neg hj]
    simp [hj]

end Sys2Proof.Machine
end

section
/-! PROOFS. The list's reads and the replacement of the map (R117 to R119; O22). -/

namespace Sys2Proof.Machine

set_option Elab.async false

theorem exec_defectListReplace (s : State) : exec .defectListReplace s = event s replaceMap := rfl

/-! ### Reads of the part -/

theorem partReadDone_of_list {s : State} {x : Txn} (h : s.fmc.active = some x) (hk : x.kind = .listRead) :
    partReadDone s = listArrived (readRange .request x.addr x.len (freePort s)).1
      (readCodewords .request (codewordsOf x.addr x.len) (freePort s)).2 := by
  simp only [partReadDone, h, hk]
  rfl

/-- The codewords of a read that begins at one. -/
theorem codewords_of_aligned {a len cw : Nat} (h8 : a % 8 = 0) (hcw : cw ∈ codewordsOf a len) :
    ∃ k, k < len ∧ k % 8 = 0 ∧ cw = a + k := by
  have hpos : 0 < len := by
    rcases Nat.eq_zero_or_pos len with rfl | h
    · simp [codewordsOf] at hcw
    · exact h
  rw [mem_codewordsOf hpos] at hcw
  exact ⟨cw - a, by omega, by omega, by omega⟩

/-- The port free in what a read of the part leaves. -/
theorem freed_of {qs : List Part} {s u : State} (h : OnlyChanges qs (freePort s) u) (hq : .port ∉ qs := by decide) :
    (finish s u).fmc.active = none ∧ (finish s u).fmc.passOver = s.fmc.passOver ∧
      (finish s u).fmc.nextPart = s.fmc.nextPart := (h.finish s).2 .port hq (by decide)

/-- An answer given at the end of a command. -/
theorem finish_answer (b : State) (a : Answer) (u : State) : (finish b (answer a u)).rqe.lastAnswer = some a := by
  rw [finish_rqe, finish_lastAnswer, answer_lastAnswer]

theorem answer_dfm (a : Answer) (s : State) : (answer a s).dfm = s.dfm := (answer_onlyChanges a s).2 .dfm (by decide) (by decide)

/-! ### The list's read -/

section List

variable {s : State} {l : DefectLoad} {r : ReadResultBytes}

theorem listArrived_bad (h : s.dfm.load = some l) (hb : r.bad = true) :
    listArrived r s = reply .memError (withDfm { s.dfm with load := none } s) := by
  simp only [listArrived, h]
  exact if_pos hb

/-- The list read on. -/
def listGoesOn (l : DefectLoad) (s : State) : State :=
  if l.passed.length < l.count then
    present ⟨.listRead, l.addr + 8 * l.passed.length, 8 * min 8 (l.count - l.passed.length), [], false⟩
      (withDfm { s.dfm with load := some l } s)
  else withDfm { s.dfm with load := some l } s

theorem listArrived_passes {es : List DefectEntry} (h : s.dfm.load = some l) (hb : r.bad = false)
    (hj : judgeEntries (r.bytes.length / 8) l.passed r.bytes = (es, none)) :
    listArrived r s = listGoesOn { l with passed := es } s := by
  simp only [listArrived, h, hb, hj]
  rfl

theorem listArrived_refused {es : List DefectEntry} {e : DefectReason} (h : s.dfm.load = some l) (hb : r.bad = false)
    (hj : judgeEntries (r.bytes.length / 8) l.passed r.bytes = (es, some e)) :
    listArrived r s = answer ⟨.badRequest, [byteOf e.code, 0, 0, 0] ++ le 4 es.length⟩
      (withDfm { s.dfm with load := none } s) := by
  simp only [listArrived, h, hb, hj]
  rfl

theorem listGoesOn_onlyChanges (l : DefectLoad) (s : State) : OnlyChanges [.dfm] s (listGoesOn l s) := by
  unfold listGoesOn
  split
  · exact ((OnlyChanges.refl _ s).dfm _).presented _
  · exact (OnlyChanges.refl _ s).dfm _

end List

/-! ### The replacement -/

section Replace

variable {s : State} {l : DefectLoad}

theorem replaceMap_eq (hl : s.dfm.load = some l) (hn : l.passed.length = l.count) : replaceMap s =
    if s.stb.inReading.isSome then reply .busy (withDfm { s.dfm with load := none } s)
    else answerAfterRewrite
      ⟨.done, le 2 ({ s.dfm with load := none }.replace l.passed).entries.length ++
        le 2 (foundCount ({ s.dfm with load := none }.replace l.passed))⟩
      (withDfm ({ s.dfm with load := none }.replace l.passed) s) := by
  have htake : l.passed.take l.count = l.passed := by rw [← hn]; exact List.take_length
  have hgo : ¬ l.passed.length < l.count := by omega
  simp only [replaceMap, hl, hgo, htake]
  rfl

theorem answerAfterRewrite_of_none (h : s.dfm.rewrite = none) (a : Answer) : answerAfterRewrite a s = answer a s :=
  if_neg (by simp [h])

theorem answerAfterRewrite_of_some {r : MapRewrite} (h : s.dfm.rewrite = some r) (a : Answer) :
    answerAfterRewrite a s = withDfm { s.dfm with owed := some a } s := if_pos (by simp [h])

/-- A list equal to the map leaves it. -/
theorem replace_unchanged (h : l.passed = s.dfm.entries) :
    { s.dfm with load := none }.replace l.passed = { s.dfm with load := none } := by
  rw [h]
  exact Dfm.replace_same { s.dfm with load := none }

end Replace

/-- Settles O22: the list's entries in turn, a codeword that is not usable, and the replacement. -/
theorem mapReplaced : Obligations.MapReplaced := by
  refine ⟨fun s x l m es h ha hk hl h8 hlen hm => ?_, fun s x l h ha hk hl h8 hbad => ?_, fun s l h hl hn hw => ?_⟩
  · intro entry before covered after freed passed hclean hes
    have hclean' : ∀ cw ∈ codewordsOf x.addr x.len, (s.mem.check? cw).cls = .clean := fun cw hcw => by
      obtain ⟨k, hk, hk8, rfl⟩ := codewords_of_aligned h8 hcw
      have hword := hclean (k / 8) (by omega)
      rwa [Nat.mul_div_cancel' (Nat.dvd_of_mod_eq_zero hk8)] at hword
    set f := fun k => s.mem.byte (x.addr + k) with hf
    have hread : readRange .request x.addr x.len (freePort s) = (⟨(List.range (8 * m)).map f, false⟩, freePort s) := by
      rw [← hlen]
      exact readRange_of_clean (s := freePort s) hclean'
    have hto : partReadDone s = listArrived ⟨(List.range (8 * m)).map f, false⟩ (freePort s) := by
      rw [partReadDone_of_list ha hk, readCodewords_of_clean (s := freePort s) hclean', hread]
    have hbytes {k : Nat} (hk : k < m) :
        defectOf ((((List.range (8 * m)).map f).drop (8 * k)).take 8) = entry k := by
      rw [read_entry (by omega)]
      simp only [entry, hf, Nat.add_assoc]
    have hcount : ((List.range (8 * m)).map f).length / 8 = m := by simp
    have hpassed (hle : es.length ≤ m) : judgeEntries m l.passed ((List.range (8 * m)).map f) =
        judgeEntries (m - es.length) passed (((List.range (8 * m)).map f).drop (8 * es.length)) :=
      judgeEntries_passes hle fun k e hke => by
        have hkm : k < m := (List.getElem?_eq_some_iff.1 hke).1.trans_le hle
        obtain ⟨hentry, hafter, hcovered⟩ := hes k e hke
        exact judgeEntry_passes ((hbytes hkm).trans hentry) hafter hcovered
    rw [exec_partReadComplete]
    refine ⟨fun hall => ?_, fun hshort => ?_⟩
    · have hjudge : judgeEntries m l.passed ((List.range (8 * m)).map f) = (passed, none) := by
        rw [hpassed hall.le, hall, Nat.sub_self]
        rfl
      have hgo := hto.trans (listArrived_passes (s := freePort s) hl rfl (by rw [hcount, hjudge]))
      have hframe := listGoesOn_onlyChanges { l with passed := passed } (freePort s)
      refine ⟨_, event_to h hgo, freed_of hframe, ?_, fun hmore => finish_presented _ _ ?_, ?_,
        ((freePort_onlyChanges s).within.andThen hframe).finish s⟩
      · rw [finish_dfm]
        unfold listGoesOn
        split <;> rfl
      · rw [listGoesOn, if_pos hmore]
        exact List.mem_append_right _ List.mem_cons_self
      · exact ((hframe.finish s).2 .service (by decide) (by decide)).2
    · intro refused
      have refuses {e : DefectReason}
          (hj : judgeEntry passed ((((List.range (8 * m)).map f).drop (8 * es.length)).take 8) = .inr e) :
          refused (byteOf e.code) := by
        have hjudge : judgeEntries m l.passed ((List.range (8 * m)).map f) = (passed, some e) := by
          rw [hpassed hshort.le]
          exact judgeEntries_stops (by omega) hj
        have hno := hto.trans (listArrived_refused (s := freePort s) hl rfl (by rw [hcount, hjudge]))
        have hframe := (((OnlyChanges.refl [.dfm, .service] (freePort s)).dfm { s.dfm with load := none })).andThen
          (answer_onlyChanges ⟨.badRequest, [byteOf e.code, 0, 0, 0] ++ le 4 passed.length⟩ _)
        refine ⟨_, event_to h hno, freed_of hframe, ?_, finish_answer _ _ _,
          ((freePort_onlyChanges s).within.andThen hframe).finish s⟩
        rw [finish_dfm, answer_dfm]
        rfl
      have hentry := hbytes hshort
      refine ⟨fun hnone => refuses (judgeEntry_range (hentry.trans hnone)), fun e he => ⟨fun q hq hb => ?_, fun ho => ?_⟩⟩
      · exact refuses (judgeEntry_order (hentry.trans he) hq hb)
      · exact refuses (judgeEntry_overlap (hentry.trans he) ho)
  · obtain ⟨k, hkl, hk8, hcls⟩ := hbad
    have hin : x.addr + k ∈ codewordsOf x.addr x.len := by
      rw [mem_codewordsOf (by omega)]
      omega
    have hcw : ((freePort s).mem.check? (x.addr + k)).cls.bad = true := (bad_iff _).2 hcls
    have hfound := readCodewords_found .request (codewordsOf x.addr x.len) (freePort s)
    obtain ⟨hraised, -⟩ := uncorrectable_of_reads (src := .request) hin hcw
    have hdfm : (readCodewords .request (codewordsOf x.addr x.len) (freePort s)).2.dfm = s.dfm :=
      hfound.frame.2 .dfm (by decide) (by decide)
    have hb : (readRange .request x.addr x.len (freePort s)).1.bad = true := by
      rw [readRange_bad]
      exact List.any_eq_true.2 ⟨_, hin, hcw⟩
    have hto := (partReadDone_of_list ha hk).trans (listArrived_bad (by rw [hdfm]; exact hl) hb)
    rw [exec_partReadComplete]
    refine ⟨_, event_to h hto, ?_, finish_answer _ _ _, finish_raised _ _ ?_, ?_⟩
    · rw [finish_dfm, reply, answer_dfm]
      exact congrArg (fun d : Dfm => { d with load := none }) hdfm
    · rw [reply, answer_raises]
      exact hraised
    · exact (((((freePort_onlyChanges s).within).andThen hfound.frame).dfm _).andThen (answer_onlyChanges _ _)).finish s
  · intro reading found
    have hreading : s.stb.inReading.isSome = true ↔ reading := inReading_iff s.stb
    rw [exec_defectListReplace]
    refine ⟨fun hr => ?_, fun hr hsame => ?_, fun hr hne => ?_⟩
    · have hto : replaceMap s = reply .busy (withDfm { s.dfm with load := none } s) :=
        (replaceMap_eq hl hn).trans (if_pos (hreading.2 hr))
      refine ⟨_, event_to h hto, ?_, finish_answer _ _ _,
        (((OnlyChanges.refl _ s).dfm _).andThen (answer_onlyChanges _ _)).finish s⟩
      rw [finish_dfm, reply, answer_dfm]
      rfl
    · have hto : replaceMap s = answer ⟨.done, le 2 l.count ++ le 2 found⟩ (withDfm { s.dfm with load := none } s) := by
        have hlen : s.dfm.entries.length = l.count := by rw [← hsame]; exact hn
        have hcount : foundCount { s.dfm with load := none } = found := by simp only [foundCount, found, hsame]
        rw [replaceMap_eq hl hn, if_neg (by rwa [hreading]), replace_unchanged hsame, hcount,
          answerAfterRewrite_of_none (by exact hw)]
        exact congrArg (fun n => answer ⟨.done, le 2 n ++ le 2 found⟩ (withDfm { s.dfm with load := none } s)) hlen
      refine ⟨_, event_to h hto, ?_, finish_answer _ _ _,
        (((OnlyChanges.refl _ s).dfm _).andThen (answer_onlyChanges _ _)).finish s⟩
      rw [finish_dfm, answer_dfm]
      rfl
    · obtain ⟨k, hk, hbefore, hdiff⟩ := firstDiff_spec s.dfm.entries l.passed 0
      obtain ⟨hkne, hklt⟩ := hdiff (Ne.symm hne)
      rw [Nat.zero_add] at hk
      have hnew := Dfm.replace_other (d := { s.dfm with load := none }) (new := l.passed) hw (Ne.symm hne) (by rw [hk]; exact hklt)
      rw [hk, hn] at hnew
      set d : Dfm := { s.dfm with
        load := none, entries := l.passed, rewrite := some ⟨k, max s.dfm.entries.length l.count⟩
        sequence := (s.dfm.sequence + 1) % 4294967296 } with hd
      have hnew' : { s.dfm with load := none }.replace l.passed = d := hnew
      have hto : replaceMap s = withDfm { d with owed := some ⟨.done, le 2 l.count ++ le 2 found⟩ } s := by
        rw [replaceMap_eq hl hn, if_neg (by rwa [hreading]), hnew', answerAfterRewrite_of_some (by rfl), hd, ← hn]
        rfl
      refine ⟨_, event_to h hto, ?_, ?_, ?_, ?_, ⟨k, ?_, hbefore, hkne⟩, ?_, ?_, ((OnlyChanges.refl _ s).dfm _).finish s⟩
      any_goals
        rw [finish_dfm]
        rfl
      rw [finish_rqe, finish_lastAnswer]
      rfl

end Sys2Proof.Machine
end

section
/-! PROOFS. The end of a defect map mirror rewrite (R115, R116, R119, R120, R126; O23). -/

namespace Sys2Proof.Machine

set_option Elab.async false

theorem exec_defectMirrorRewriteDone (s : State) : exec .defectMirrorRewriteDone s = event s rewriteDone := rfl

/-! ### What a command's end shows of an answer and of the map sequence -/

theorem finish_answered {s u : State} (a : Answer) (h : u.rqe.service = s.rqe.service) :
    Answered a s (finish s (answer a u)) := by
  refine ⟨finish_answer s a u, fun v k hv hk => ?_⟩
  rw [answer_of_ring (h.trans hv) hk]
  refine ⟨?_, finish_presented _ _ (List.mem_append_right _ List.mem_cons_self)⟩
  rw [finish_rqe, finish_service]
  rfl

theorem le_four_injective {m n : Nat} (h : le 4 m = le 4 n) : m % 4294967296 = n % 4294967296 := by
  have hbyte {j : Nat} (hj : j < 4) : m / 256 ^ j % 256 = n / 256 ^ j % 256 := by
    have hget := congrArg (fun l => l[j]?) h
    simp only [le_getElem? hj, Option.some.injEq] at hget
    simpa [byteOf] using congrArg BitVec.toNat hget
  have h0 := hbyte (j := 0) (by decide)
  have h1 := hbyte (j := 1) (by decide)
  have h2 := hbyte (j := 2) (by decide)
  have h3 := hbyte (j := 3) (by decide)
  norm_num at h0 h1 h2 h3
  omega

/-- Piece 5 shows the map sequence in its bytes 4 to 7. -/
theorem statusPiece_sequence (s : State) : ((statusPiece 5 s).drop 4).take 4 = le 4 s.dfm.sequence := rfl

/-- A command that changes the map sequence marks piece 5. -/
theorem finish_sequence_marked {s u : State} (h : u.dfm.sequence % 4294967296 ≠ s.dfm.sequence % 4294967296) :
    5 ∈ (finish s u).rqe.marked := by
  rw [finish_rqe]
  refine settleRqe_marks s u (by decide) fun hsame => h (le_four_injective ?_)
  rw [← statusPiece_sequence, ← statusPiece_sequence, hsame]

/-! ### The parts of the rewrite's end -/

section Parts

variable {s : State}

theorem payAnswer_of_none (h : s.dfm.owed = none) : payAnswer s = s := by
  simp only [payAnswer, h]

theorem payAnswer_of_some {a : Answer} (h : s.dfm.owed = some a) :
    payAnswer s = answerAfter a 0 5 (withDfm { s.dfm with owed := none } s) := by
  simp only [payAnswer, h]
  rfl

theorem answerAfter_onlyChanges (a : Answer) (jobs piece : Nat) (s : State) :
    OnlyChanges [.service] s (answerAfter a jobs piece s) :=
  ((OnlyChanges.refl [.service] s).marked piece).andThen (qs := [.service]) (by
    refine ⟨rfl, fun p hp _ => ?_⟩
    cases p <;> simp_all [Part.agree, answerAfter, mark])

theorem answerAfter_lastAnswer (a : Answer) (jobs piece : Nat) (s : State) :
    (answerAfter a jobs piece s).rqe.lastAnswer = s.rqe.lastAnswer := by
  exact (mark_sameRing s.rqe piece).lastAnswer

theorem serveWaiting_of_none (h : s.dfm.waiting = none) : serveWaiting s = s := by
  have hsame : { s.dfm with waiting := none } = s.dfm := by rw [← h]
  delta serveWaiting
  dsimp only
  rw [h, modDfm, hsame]

theorem serveWaiting_loadDefects {addr count : BitVec 32} (h : s.dfm.waiting = some (.loadDefects addr count)) :
    serveWaiting s = takeLoadDefects addr.toNat count.toNat (withDfm { s.dfm with waiting := none } s) := by
  delta serveWaiting
  dsimp only
  rw [h]
  rfl

theorem serveWaiting_clearFound (h : s.dfm.waiting = some .clearFound) :
    serveWaiting s = takeClearFound (withDfm { s.dfm with waiting := none } s) := by
  delta serveWaiting
  dsimp only
  rw [h]
  rfl

/-- No calibration readout waits for the rewrite. -/
theorem endCalibration_of_quiet (h : ∀ o, s.pce.readout = some o → o.ending = none) : endCalibration s = s := by
  unfold endCalibration
  split
  · next o ho => rw [h o ho]; rfl
  · rfl

theorem endCalibration_of_ending {o : Readout} {inc : Bool} (h : s.pce.readout = some o) (he : o.ending = some inc) :
    endCalibration s = leaveReadout o s := by
  simp only [endCalibration, h, he]
  rfl

/-- A calibration readout whose profile no image waits for leaves READING. -/
theorem leaveReadout_calibrated {o : Readout} {q : ShotRecord} (hq : s.stb.find o.shot = some q)
    (hcal : q.flags.darkCal = true) (hp : ∀ e, s.prs.entries[q.profile]? = some e → e.waiting = none) :
    leaveReadout o s = withStb (s.stb.move o.shot .calibrated) (withDfm s.dfm.readoutEnd (withPce ⟨none, none⟩ s)) := by
  unfold leaveReadout
  simp only [hq, Option.map_some, Option.getD_some, hcal, if_true]
  exact releaseProfile_of_none hp

theorem rewriteDone_of_written (h : rewriteWritten s = true) : rewriteDone s = endCalibration (serveWaiting (payAnswer
    (withDfm { s.dfm with rewrite := none, sequence := (s.dfm.sequence + 1) % 4294967296 } s))) := if_pos h

theorem rewriteWritten_iff {r : MapRewrite} (h : s.dfm.rewrite = some r) : rewriteWritten s = true ↔ r.stop ≤ r.next ∧
    (∀ x ∈ s.fmc.pending, x.kind ≠ .mapWrite) ∧ ∀ x, s.fmc.active = some x → x.kind ≠ .mapWrite := by
  simp only [rewriteWritten, h, Fmc.has, Fmc.waits]
  cases s.fmc.active <;> simp

end Parts

/-- Settles O23: the rewrite ended and its answer passed on, the waiting request served, the calibration's readout over. -/
theorem rewriteDone_holds : Obligations.RewriteDone := by
  intro s r h hr hstop hpending hactive evened rewritten quiet
  have hdone : rewriteDone s = endCalibration (serveWaiting (payAnswer (withDfm evened s))) :=
    rewriteDone_of_written ((rewriteWritten_iff hr).2 ⟨hstop, hpending, hactive⟩)
  set u := payAnswer (withDfm evened s) with hu
  have hframe : OnlyChanges [.dfm, .service] s u := by
    rcases ho : s.dfm.owed with _ | a
    · rw [hu, payAnswer_of_none (s := withDfm evened s) ho]
      exact (OnlyChanges.refl _ s).dfm _
    · rw [hu, payAnswer_of_some (s := withDfm evened s) ho]
      exact (((OnlyChanges.refl _ s).dfm _).dfm _).andThen (answerAfter_onlyChanges a 0 5 _)
  have hdfm : u.dfm = { evened with owed := none } := by
    rcases ho : s.dfm.owed with _ | a
    · rw [hu, payAnswer_of_none (s := withDfm evened s) ho]
      exact congrArg (fun o => { evened with owed := o }) ho
    · rw [hu, payAnswer_of_some (s := withDfm evened s) ho]
      rfl
  have hservice : (∀ a, s.dfm.owed = some a →
        u.rqe.service = s.rqe.service.map fun v => { v with stage := .answering a ⟨0, [5], false⟩ }) ∧
      (s.dfm.owed = none → u.rqe.service = s.rqe.service) := by
    refine ⟨fun a ho => ?_, fun ho => ?_⟩
    · rw [hu, payAnswer_of_some (s := withDfm evened s) ho]
      rfl
    · rw [hu, payAnswer_of_none (s := withDfm evened s) ho]
      rfl
  have hlast : u.rqe.lastAnswer = s.rqe.lastAnswer := by
    rcases ho : s.dfm.owed with _ | a
    · rw [hu, payAnswer_of_none (s := withDfm evened s) ho]
      rfl
    · rw [hu, payAnswer_of_some (s := withDfm evened s) ho, answerAfter_lastAnswer]
      rfl
  have hrewritten {v : State} (hd : v.dfm.rewrite = none ∧ v.dfm.entries = s.dfm.entries ∧
      v.dfm.sequence = evened.sequence ∧ v.dfm.owed = none) (hv : v.rqe = u.rqe) : rewritten (finish s v) := by
    obtain ⟨hw, he, hseq, ho⟩ := hd
    have hmark : 5 ∈ (finish s v).rqe.marked := finish_sequence_marked (by
      rw [hseq]
      simp only [evened]
      omega)
    refine ⟨?_, ?_, ?_, ?_, hmark, ?_⟩
    any_goals rwa [finish_dfm]
    rw [finish_rqe, finish_service, finish_lastAnswer, hv]
    exact ⟨hservice.1, hservice.2, hlast⟩
  rw [exec_defectMirrorRewriteDone]
  refine ⟨fun hw hq => ?_, fun hw o q i inc ho hinc hfind hphase hslot hi hcal hprs => ?_, fun howed hl hq => ?_⟩
  · have hto : rewriteDone s = u := by
      rw [hdone, serveWaiting_of_none (by rw [hdfm]; exact hw)]
      exact endCalibration_of_quiet (by rw [hframe.2 .pce (by decide) (by decide)]; exact hq)
    exact ⟨_, event_to h hto, hrewritten (by rw [hdfm]; exact ⟨rfl, rfl, rfl, rfl⟩) rfl, hframe.finish s⟩
  · have hstb : u.stb = s.stb := hframe.2 .stb (by decide) (by decide)
    have hto : rewriteDone s =
        withStb (s.stb.move o.shot .calibrated) (withDfm u.dfm.readoutEnd (withPce ⟨none, none⟩ u)) := by
      rw [hdone, serveWaiting_of_none (by rw [hdfm]; exact hw),
        endCalibration_of_ending (by rw [hframe.2 .pce (by decide) (by decide)]; exact ho) hinc,
        leaveReadout_calibrated (by rwa [hstb]) hcal (by rwa [hframe.2 .prs (by decide) (by decide)]), hstb]
    have hmove : moveAllowed q.phase .calibrated = true := by rw [hphase]; rfl
    refine ⟨_, event_to h hto, hrewritten (by
      change u.dfm.rewrite = none ∧ u.dfm.entries = _ ∧ u.dfm.sequence = _ ∧ u.dfm.owed = none
      rw [hdfm]
      exact ⟨rfl, rfl, rfl, rfl⟩) rfl, finish_pce _ _, ?_, ?_, ?_, ?_⟩
    · rw [finish_stb]
      exact Stb.find_move_freed hfind hmove rfl
    · rw [finish_stb]
      exact Stb.slotState_move_freed hfind hmove rfl hslot hi
    · intro n hn
      rw [finish_stb]
      exact Stb.find_move_other hfind hn
    · exact ((((hframe.within (by decide)).pce _).dfm _).stb _).finish s
  · intro base reading answers goesOn
    have hu' : u = withDfm evened s := payAnswer_of_none (s := withDfm evened s) howed
    have hbase : { evened with waiting := none } = base := rfl
    have hends {v : State} (hv : OnlyChanges [.dfm, .service] s v) : endCalibration v = v :=
      endCalibration_of_quiet (by rw [hv.2 .pce (by decide) (by decide)]; exact hq)
    have hmark {v : State} {d : Dfm} (hd : v.dfm = d) (hs : d.sequence = evened.sequence ∨
        d.sequence = (s.dfm.sequence + 2) % 4294967296) : 5 ∈ (finish s v).rqe.marked :=
      finish_sequence_marked (by
        rw [hd]
        simp only [evened] at hs
        omega)
    have hb : OnlyChanges [.dfm] s (withDfm base s) := (OnlyChanges.refl _ s).dfm _
    have gives {ans : Answer} (hv : serveWaiting u = answer ans (withDfm base s)) : answers ans := by
      have hframe' : OnlyChanges [.dfm, .service] s (answer ans (withDfm base s)) :=
        (hb.within).andThen (answer_onlyChanges ans _)
      have hto : rewriteDone s = answer ans (withDfm base s) := by rw [hdone, hv, hends hframe']
      exact ⟨_, event_to h hto, by rw [finish_dfm, answer_dfm]; rfl, hmark (answer_dfm ans _) (.inl rfl),
        finish_answered ans rfl, hframe'.finish s⟩
    have continues {v : State} {d : Dfm} {p : State → Prop} (hv : serveWaiting u = v) (hd : v.dfm = d)
        (hs : d.sequence = evened.sequence ∨ d.sequence = (s.dfm.sequence + 2) % 4294967296) (hp : p (finish s v))
        (hc : OnlyChanges [.dfm] s v) : goesOn d p := by
      have hto : rewriteDone s = v := by rw [hdone, hv, hends hc.within]
      exact ⟨_, event_to h hto, by rw [finish_dfm, hd], hmark hd hs, hp, hc.finish s⟩
    have hreading : (withDfm base s).stb.inReading.isSome = true ↔ reading := inReading_iff s.stb
    refine ⟨fun addr count hw => ?_, fun hw => ?_⟩
    · intro a n bad
      have hserve : serveWaiting u = takeLoadDefects a n (withDfm base s) := by
        rw [hu', serveWaiting_loadDefects (by exact hw)]
        rfl
      have hbad : badListAddress a n = true ↔ bad := badListAddress_iff a n
      refine ⟨fun hb => gives (hserve.trans (takeLoadDefects_address hl (hbad.2 hb))),
        fun hb hn => gives (hserve.trans (takeLoadDefects_count hl (by rwa [hbad]) hn)),
        fun hb hn hr => gives (hserve.trans (takeLoadDefects_busy (by rwa [hbad]) hn (hreading.2 hr))),
        fun hb hn hr => ?_⟩
      exact continues (hserve.trans (takeLoadDefects_reads (by rwa [hbad]) hn (by rwa [hreading])))
        (listBegun_dfm a n _) (.inl rfl) (fun hpos => finish_presented _ _ (listBegun_presents hpos))
        (((OnlyChanges.refl _ s).dfm _).andThen (listBegun_onlyChanges a n _))
    · intro old kept
      have hserve : serveWaiting u = takeClearFound (withDfm base s) := by
        rw [hu', serveWaiting_clearFound (by exact hw)]
        rfl
      refine ⟨fun hr => gives (hserve.trans (takeClearFound_busy (hreading.2 hr))),
        fun hr hnone => gives (hserve.trans (takeClearFound_nothing (by rwa [hreading]) rfl hnone)),
        fun hr k e hk he hfirst => ?_⟩
      have hremoved := hserve.trans (takeClearFound_removes (by rwa [hreading]) rfl hk he hfirst)
      exact continues hremoved (by
        have hseq : (evened.sequence + 1) % 4294967296 = (s.dfm.sequence + 2) % 4294967296 := by
          simp only [evened]
          omega
        exact congrArg (fun m => { base with
          entries := kept, rewrite := some ⟨k, old.length⟩, sequence := m
          owed := some ⟨.done, le 2 (old.length - kept.length) ++ le 2 kept.length⟩ }) hseq)
        (.inr rfl) trivial (((OnlyChanges.refl _ s).dfm _).dfm _)

end Sys2Proof.Machine
end

section
/-! PROOFS. A profile image read and judged (R72 to R76; O20). -/

namespace Sys2Proof.Machine

set_option Elab.async false

/-! ### The checks of the fixed part (R73) -/

theorem firstFail_of_all {l : List Bool} (h : ∀ b ∈ l, b = true) (n : Nat) : firstFail n l = none := by
  induction l generalizing n with
  | nil => rfl
  | cons b l ih =>
    rw [firstFail, if_pos (h b (by simp))]
    exact ih (fun c hc => h c (by simp [hc])) _

theorem firstFail_of_first {l : List Bool} {k : Nat} (hk : l[k]? = some false) (hbefore : ∀ j < k, l[j]? = some true)
    (n : Nat) : firstFail n l = some (n + k) := by
  induction l generalizing n k with
  | nil => simp at hk
  | cons b l ih =>
    cases k with
    | zero =>
      obtain rfl : b = false := by simpa using hk
      rfl
    | succ k =>
      obtain rfl : b = true := by simpa using hbefore 0 (by omega)
      rw [firstFail, if_pos rfl, ih (by simpa using hk) (fun j hj => by simpa using hbefore (j + 1) (by omega))]
      simp only [Option.some.injEq]
      omega

theorem spacingOk_eq (n : Nat) : spacingOk n = decide (n = 64 ∨ n = 128 ∨ n = 256 ∨ n = 512 ∨ n = 1024) := by
  rw [Bool.eq_iff_iff]
  simp [spacingOk]

/-! ### The reads of an image -/

section Arrived

variable {s : State} {l : ProfileLoad} {r : ReadResultBytes}

theorem partReadDone_of_image {x : Txn} (h : s.fmc.active = some x) (hk : x.kind = .imageRead) :
    partReadDone s = imageArrived (readRange .request x.addr x.len (freePort s)).1
      (readCodewords .request (codewordsOf x.addr x.len) (freePort s)).2 := by
  simp only [partReadDone, h, hk]
  rfl

/-- A load refused. -/
def imageRefused (a : Answer) (s : State) : State := answer a (withPrs { s.prs with load := none } s)

theorem imageRefused_onlyChanges (a : Answer) (s : State) : OnlyChanges [.prs, .service] s (imageRefused a s) :=
  ((OnlyChanges.refl _ s).prs _).andThen (answer_onlyChanges a _)

theorem imageRefused_prs (a : Answer) (s : State) : (imageRefused a s).prs = { s.prs with load := none } :=
  (answer_onlyChanges a _).2 .prs (by decide) (by decide)

/-- The next piece of an image asked for. -/
def imageGoesOn (l : ProfileLoad) (length : Nat) (s : State) : State :=
  present ⟨.imageRead, l.addr + l.bytes.length, min 64 (length - l.bytes.length), [], false⟩
    (withPrs { s.prs with load := some l } s)

theorem imageGoesOn_onlyChanges (l : ProfileLoad) (n : Nat) (s : State) : OnlyChanges [.prs] s (imageGoesOn l n s) :=
  ((OnlyChanges.refl _ s).prs _).presented _

theorem imageArrived_bad (h : s.prs.load = some l) (hb : r.bad = true) : imageArrived r s = imageRefused ⟨.memError, []⟩ s := by
  simp only [imageArrived, h]
  exact if_pos hb

/-- The fixed part, judged before the tables are asked for. -/
theorem imageArrived_fixed (h : s.prs.load = some l) (hb : r.bad = false) (hl : l.bytes = []) :
    imageArrived r s = match badItem (fixedPart (l.bytes ++ r.bytes)) with
      | some k => imageRefused ⟨.badRequest, le 1 k⟩ s
      | none =>
        if Config.dramTop < l.addr + imageLength (fixedPart (l.bytes ++ r.bytes)) then imageRefused ⟨.badRequest, le 1 0⟩ s
        else readImage { l with bytes := l.bytes ++ r.bytes } (imageLength (fixedPart (l.bytes ++ r.bytes))) s := by
  simp only [imageArrived, h, hb]
  exact if_pos hl

theorem imageArrived_table (h : s.prs.load = some l) (hb : r.bad = false) (hl : l.bytes ≠ []) :
    imageArrived r s =
      readImage { l with bytes := l.bytes ++ r.bytes } (imageLength (fixedPart (l.bytes ++ r.bytes))) s := by
  simp only [imageArrived, h, hb]
  exact if_neg hl

theorem readImage_goesOn {n : Nat} (h : l.bytes.length < n) : readImage l n s = imageGoesOn l n s := if_pos h

theorem readImage_stands {n : Nat} (h : ¬ l.bytes.length < n) :
    readImage l n s = withPrs { s.prs with load := some { l with image := some (imageOf l.bytes) } } s := if_neg h

end Arrived

/-! ### The judgement (R75, R76) -/

section Judged

variable {s : State} {l : ProfileLoad} {p : Profile}

theorem inUse_iff (t : Stb) (id : Nat) : t.inUse id = true ↔ ∃ r ∈ t.records, r.profile = id ∧
    (r.phase = .arming ∨ r.phase = .waiting ∨ r.phase = .exposing ∨ r.phase = .reading) := by
  have hrun (p : Phase) : p.running = true ↔ p = .arming ∨ p = .waiting ∨ p = .exposing ∨ p = .reading := by
    cases p <;> simp [Phase.running]
  simp only [Stb.inUse, List.any_eq_true, Bool.and_eq_true, beq_iff_eq, hrun, and_comm]

/-- The image in its place, and the load over. -/
def imagePlaced (waiting : Bool) (p : Profile) (l : ProfileLoad) (s : State) : State :=
  mark 1 (withPrs { s.prs with entries := s.prs.entries.modify l.id (placeImage waiting p), load := none } s)

theorem judgeImage_eq (hl : s.prs.load = some l) (hp : l.image = some p) : judgeImage s =
    answer ⟨.done, profileResult (s.stb.inUse l.id) p⟩ (imagePlaced (s.stb.inUse l.id) p l s) := by
  simp only [judgeImage, hl, hp]
  rfl

theorem imagePlaced_onlyChanges (w : Bool) (p : Profile) (l : ProfileLoad) (s : State) :
    OnlyChanges [.prs] s (imagePlaced w p l s) := ((OnlyChanges.refl _ s).prs _).marked 1

theorem answer_marked (a : Answer) (s : State) : (answer a s).rqe.marked = s.rqe.marked := by
  obtain ⟨-, he⟩ | ⟨w, -, -, he⟩ | ⟨w, k, -, -, he⟩ := answer_cases a s
  all_goals exact (congrArg (fun t : State => t.rqe.marked) he :)

theorem profileResult_eq (w : Bool) (p : Profile) : profileResult w p =
    [if w then 1 else 0, if p.covered then 0 else 1] ++ le 2 p.minSlot ++ le 4 p.pitch ++ le 4 p.frameBytes := by
  unfold profileResult
  cases w <;> cases p.covered <;> rfl

end Judged

theorem derived_sizes (p : Profile) : p.pitch % 64 = 0 ∧ (p.masked + p.width) * 2 ≤ p.pitch ∧
    p.pitch < (p.masked + p.width) * 2 + 64 ∧ p.frameBytes = p.pitch * p.lines ∧ p.frameBytes ≤ p.minSlot * 1048576 ∧
    (0 < p.minSlot → (p.minSlot - 1) * 1048576 < p.frameBytes) := by
  have hpitch : p.pitch = ((p.masked + p.width) * 2 + 63) / 64 * 64 := rfl
  have hslot : p.minSlot = (p.frameBytes + 1048575) / 1048576 := rfl
  refine ⟨by omega, by omega, by omega, rfl, by omega, by omega⟩

/-- Settles O20: the fixed part's judgement, the pieces, a codeword that is not usable, and the image's place. -/
theorem imageJudged : Obligations.ImageJudged := by
  refine ⟨fun s x l h ha hk hl h8 hlen hpos => ?_, fun s l p e h hl hp he => ?_, derived_sizes⟩
  · intro bytes u16 u8 spacing items whole clean freed refused goesOn
    set read := (List.range x.len).map fun k => s.mem.byte (x.addr + k) with hread
    have hcleanly (hclean : clean) : partReadDone s = imageArrived ⟨read, false⟩ (freePort s) := by
      have hclean' : ∀ cw ∈ codewordsOf x.addr x.len, ((freePort s).mem.check? cw).cls = .clean := fun cw hcw => by
        obtain ⟨k, hk, hk8, rfl⟩ := codewords_of_aligned h8 hcw
        exact hclean k hk hk8
      rw [partReadDone_of_image ha hk, readCodewords_of_clean hclean', readRange_of_clean hclean']
      rfl
    have hfreed {u : State} {qs : List Part} (hu : OnlyChanges qs (freePort s) u) (hq : .port ∉ qs := by decide)
        (he : u.prs.entries = s.prs.entries) : freed (finish s u) := by
      obtain ⟨hactive, hpass, hnext⟩ := freed_of hu hq
      exact ⟨hactive, hpass, hnext, by rw [finish_prs, he]⟩
    have refuses {item : Nat} (hto : partReadDone s = imageRefused ⟨.badRequest, le 1 item⟩ (freePort s)) :
        refused item := by
      have hframe := imageRefused_onlyChanges ⟨.badRequest, le 1 item⟩ (freePort s)
      exact ⟨_, event_to h hto, hfreed hframe (he := by rw [imageRefused_prs]; rfl), by rw [finish_prs, imageRefused_prs],
        finish_answer _ _ _, ((freePort_onlyChanges s).within.andThen hframe).finish s⟩
    have continues (hto : partReadDone s = imageGoesOn { l with bytes := bytes } whole (freePort s)) : goesOn := by
      have hframe := imageGoesOn_onlyChanges { l with bytes := bytes } whole (freePort s)
      exact ⟨_, event_to h hto, hfreed hframe (he := rfl), by rw [finish_prs]; rfl,
        finish_presented _ _ (List.mem_append_right _ List.mem_cons_self),
        ((freePort_onlyChanges s).within.andThen hframe).finish s⟩
    have hitems : itemChecks (fixedPart bytes) = items := by
      simp only [items, spacing, ← spacingOk_eq]
      rfl
    have hwhole : imageLength (fixedPart bytes) = whole := rfl
    rw [exec_partReadComplete]
    refine ⟨fun hclean hfirst h40 _ => ?_, fun hclean hsome _ => ?_, fun hbad => ?_⟩
    · have hto := (hcleanly hclean).trans (imageArrived_fixed (s := freePort s) (r := ⟨read, false⟩) hl rfl hfirst)
      have hlength : bytes.length = 40 := by simp [bytes, hfirst, h40]
      have hnofail (hall : ∀ b ∈ items, b = true) : badItem (fixedPart bytes) = none := by
        rw [badItem, hitems, firstFail_of_all hall]
      refine ⟨fun k hk hbefore => refuses ?_, fun hall htop => refuses ?_, fun hall htop => continues ?_⟩
      · have hfail : badItem (fixedPart bytes) = some (k + 1) := by
          rw [badItem, hitems, firstFail_of_first hk hbefore, Nat.add_comm]
        rw [hto, hfail]
      · rw [hto, hnofail hall]
        exact if_pos htop
      · rw [hto, hnofail hall]
        exact (if_neg (Nat.not_lt.mpr htop)).trans (readImage_goesOn (by rw [hwhole, hlength]; omega))
    · have hne : l.bytes ≠ [] := fun hnil => by simp [hnil] at hsome
      have hto := (hcleanly hclean).trans (imageArrived_table (s := freePort s) (r := ⟨read, false⟩) hl rfl hne)
      refine ⟨fun hmore => continues (hto.trans (readImage_goesOn hmore)), fun hall => ?_⟩
      have hframe : OnlyChanges [.prs] (freePort s) (withPrs { (freePort s).prs with
          load := some { l with bytes := bytes, image := some (imageOf bytes) } } (freePort s)) := withPrs_onlyChanges _ _
      refine ⟨_, event_to h (hto.trans (readImage_stands (by rw [hwhole]; exact hall.not_lt))), hfreed hframe (he := rfl), ?_,
        ((freePort_onlyChanges s).within.andThen hframe).finish s⟩
      rw [finish_prs]
      rfl
    · obtain ⟨k, hkl, hk8, hcls⟩ := hbad
      have hin : x.addr + k ∈ codewordsOf x.addr x.len := by
        rw [mem_codewordsOf (by omega)]
        omega
      have hcw : ((freePort s).mem.check? (x.addr + k)).cls.bad = true := (bad_iff _).2 hcls
      have hfound := readCodewords_found .request (codewordsOf x.addr x.len) (freePort s)
      obtain ⟨hraised, -⟩ := uncorrectable_of_reads (src := .request) hin hcw
      have hprs : (readCodewords .request (codewordsOf x.addr x.len) (freePort s)).2.prs = s.prs :=
        hfound.frame.2 .prs (by decide) (by decide)
      have hb : (readRange .request x.addr x.len (freePort s)).1.bad = true := by
        rw [readRange_bad]
        exact List.any_eq_true.2 ⟨_, hin, hcw⟩
      have hto := (partReadDone_of_image ha hk).trans (imageArrived_bad (by rw [hprs]; exact hl) hb)
      have hframe : OnlyChanges [.prs, .service, .errors, .stb, .corrected] (freePort s) (imageRefused ⟨.memError, []⟩ _) :=
        hfound.frame.within.andThen (imageRefused_onlyChanges ⟨.memError, []⟩ _)
      refine ⟨_, event_to h hto, hfreed hframe (he := by rw [imageRefused_prs, hprs]), ?_, finish_answer _ _ _,
        finish_raised _ _ ?_, ((freePort_onlyChanges s).within.andThen hframe).finish s⟩
      · rw [finish_prs, imageRefused_prs]
      · rw [imageRefused, answer_raises]
        exact hraised
  · intro used judged
    have hused : s.stb.inUse l.id = true ↔ used := inUse_iff s.stb l.id
    have places {w : Bool} (hw : s.stb.inUse l.id = w) : ∃ t, exec .profileImageJudged s = .next t ∧
        judged (if w then 1 else 0) t ∧ t.prs.entries[l.id]? = some (placeImage w p e) := by
      have hto : judgeImage s = answer ⟨.done, profileResult w p⟩ (imagePlaced w p l s) := by rw [judgeImage_eq hl hp, hw]
      have hprs : (answer ⟨.done, profileResult w p⟩ (imagePlaced w p l s)).prs =
          { s.prs with entries := s.prs.entries.modify l.id (placeImage w p), load := none } :=
        (answer_onlyChanges _ _).2 .prs (by decide) (by decide)
      refine ⟨_, event_to h hto, ⟨?_, finish_marked _ _ ?_, ?_, fun k hk => ?_, ?_⟩, ?_⟩
      · rw [finish_prs, hprs]
      · rw [answer_marked]
        exact (mem_mark _ 1 1).2 (.inr rfl)
      · rw [finish_answer, profileResult_eq]
      · rw [finish_prs, hprs]
        simp [Ne.symm hk]
      · exact ((imagePlaced_onlyChanges w p l s).within.andThen (answer_onlyChanges _ _)).finish s
      · rw [finish_prs, hprs]
        simp [he]
    exact ⟨fun hu => places (hused.2 hu), fun hu => places (Bool.eq_false_iff.2 (mt hused.1 hu))⟩

end Sys2Proof.Machine
end

section
/-! PROOFS. An ARM accepted (R9, R14 to R17, R27 to R29, R35, R174; O25): first the card run that is asked to stop, then the
table, the sync filter and the sequencer, then the statement. -/

namespace Sys2Proof.Machine

set_option Elab.async false

/-! ### The run that is asked to stop (R174) -/

/-- A user of the card asks for a run. -/
def runAsked (u : RunUser) (write : Bool) (start count : Nat) (c : Cde) : Cde :=
  { c with busTimer := none, block := [], run := some ⟨u, write, start, count, 0, 0, 0, 0, false, .waiting⟩ }

section Stop

variable {s : State} {v : Run}

theorem askStop_of_none (h : s.cde.run = none) : askStop s = withCde s.cde s := by
  simp only [askStop, h]
  rfl

theorem askStop_of_going (h : s.cde.run = some v) (hg : v.stage ≠ .waiting) :
    askStop s = withCde { s.cde with run := some { v with stop := true } } s := by
  simp only [askStop, h, if_neg hg, modRun]
  simp only [modCde, h]
  rfl

theorem askStop_of_waiting (h : s.cde.run = some v) (hw : v.stage = .waiting) : askStop s = endRun .stopped s := by
  simp only [askStop, h, if_pos hw]

/-- The engine without its run. -/
def runEnded (c : Cde) : Cde := { c with run := none, busTimer := none, block := [] }

theorem endRun_eq (h : s.cde.run = some v) (o : RunOutcome) : endRun o s = match v.user with
    | .mount => mountEnded o s.cde.block (withCde (runEnded s.cde) s)
    | .drain => drainEnded v.done (o == .done) (withCde (runEnded s.cde) s)
    | .read => if o = .crcFail then endServing .crcFail (withCde (runEnded s.cde) s)
        else readEnded (withCde (runEnded s.cde) s)
    | .format => formatEnded (o == .done) (withCde (runEnded s.cde) s) := by
  simp only [endRun, h]
  rfl

theorem stopped_read {q : CardRead} (h : s.cde.run = some v) (hu : v.user = .read) (hq : s.cde.serving = some q)
    (hmore : q.done < q.count) : endRun .stopped s = withCde (runAsked .read false (q.block + q.done)
      (min q.count ((q.done / 256 + 1) * 256) - q.done) s.cde) s := by
  have hserving : (withCde (runEnded s.cde) s).cde.serving = some q := hq
  rw [endRun_eq h, hu]
  simp only [readEnded, hserving, if_neg (Nat.not_le.mpr hmore)]
  rfl

theorem stopped_format (h : s.cde.run = some v) (hu : v.user = .format) :
    endRun .stopped s = withCde (runAsked .format true 0 1 s.cde) s := by
  rw [endRun_eq h, hu]
  rfl

/-- The run the mount asks for again. -/
def mountRun (m : Mount) (c : Cde) : Cde := match m.stage with
  | .logHeader => runAsked .mount false 0 1 c
  | .container => runAsked .mount false m.geometry.nextFree 1 c
  | .commit h => runAsked .mount false (m.geometry.nextFree + h.blocks + 1) 1 c
  | .rewrite => runAsked .mount true 0 1 c

theorem stopped_mount {m : Mount} (h : s.cde.run = some v) (hu : v.user = .mount) (hp : s.cde.parkAsked = false)
    (hm : s.cde.mount = some m) : endRun .stopped s = withCde (mountRun m s.cde) s := by
  have hmount : (withCde (runEnded s.cde) s).cde.mount = some m := hm
  have hpark : (withCde (runEnded s.cde) s).cde.parkAsked = false := hp
  rw [endRun_eq h, hu]
  simp only [mountEnded, hmount, hpark, mountAgain, mountRun]
  rcases m with ⟨stage, g, a⟩
  cases stage <;> rfl

/-- The run the drain asks for again, with the blocks done so far; none while it sums. -/
def drainRun (c : Container) (k : Nat) (d : Cde) : Option Cde := match c.stage with
  | .summing => none
  | .header => some (runAsked .drain true c.start 1 { d with container := some { c with done := k } })
  | .data => some (runAsked .drain true (c.start + k) (min c.blocks (((k - 1) / 256 + 1) * 256) - (k - 1))
      { d with container := some { c with done := k } })
  | .commit => some (runAsked .drain true (c.start + c.blocks + 1) 1 d)
  | .logUpdate => some (runAsked .drain true 0 1 d)

/-- The container with the blocks of the run that has ended; a run of COMMIT or of the log update adds none. -/
def Container.counted (k : Nat) (c : Container) : Container :=
  if c.stage = .logUpdate ∨ c.stage = .commit then c else { c with done := c.done + k }

/-- The drain goes on from a container that has its blocks counted. -/
def drainOn (all : Bool) (c : Container) (s : State) : State := match c.stage with
  | .summing => s
  | .header =>
    if c.park then containerParked s
    else if all then nextDataRun c (modContainer (fun c => { c with stage := .data }) s)
    else startRun .drain true c.start 1 s
  | .data => if c.park then containerParked s else nextDataRun c s
  | .commit => if all then commitDone c s else startRun .drain true (c.start + c.blocks + 1) 1 s
  | .logUpdate => if all then becomeReady (dropContainer s) else startRun .drain true 0 1 s

theorem drainEnded_of_some {c : Container} (h : s.cde.container = some c) (k : Nat) (all : Bool) : drainEnded k all s =
    drainOn all (c.counted k) (withCde { s.cde with container := some (c.counted k) } s) := by
  have hcontainer : (modContainer (fun c => if c.stage = .logUpdate ∨ c.stage = .commit then c else
      { c with done := c.done + k }) s) = withCde { s.cde with container := some (c.counted k) } s := by
    simp only [modContainer, modCde, h]
    rfl
  unfold drainEnded
  rw [hcontainer]
  rfl

/-- The next run of DATA from `k` blocks done on, the header block among them. -/
theorem nextDataRun_of_more {c : Container} {k : Nat} (hk : c.done = k + 1) (hn : k < c.blocks) (s : State) :
    nextDataRun c s = withCde { s.cde with
      block := [], run := some ⟨.drain, true, c.start + 1 + k, min c.blocks ((k / 256 + 1) * 256) - k, 0, 0, 0, 0, false, .waiting⟩ }
      s := by
  simp only [nextDataRun, hk, Nat.add_sub_cancel, if_pos hn]
  rfl

theorem stopped_drain {c : Container} {d : Cde} (h : s.cde.run = some v) (hu : v.user = .drain)
    (hc : s.cde.container = some c) (hp : c.park = false)
    (hk : c.stage = .data → 1 ≤ c.done + v.done ∧ c.done + v.done ≤ c.blocks)
    (hd : drainRun c (c.done + v.done) s.cde = some d) : endRun .stopped s = withCde d s := by
  have hend : endRun .stopped s = drainOn false (c.counted v.done)
      (withCde { runEnded s.cde with container := some (c.counted v.done) } s) := by
    rw [endRun_eq h, hu]
    exact drainEnded_of_some (s := withCde (runEnded s.cde) s) hc v.done false
  rw [hend]
  rcases c with ⟨shot, slot, start, blocks, pitch, lines, profile, index, stage, done, summed, crc, header, park⟩
  obtain rfl : park = false := hp
  cases stage <;> simp only [drainRun, Option.some.injEq, reduceCtorEq] at hd
  case header =>
    rw [← hd]
    rfl
  case data =>
    obtain ⟨h1, hn⟩ := hk rfl
    obtain ⟨k, hk⟩ := Nat.exists_eq_add_of_le' h1
    have hstart : start + (k + 1) = start + 1 + k := by omega
    simp only at hk hn
    rw [hk, Nat.add_sub_cancel, hstart] at hd
    rw [← hd]
    refine (nextDataRun_of_more hk (by change k < blocks; omega) _).trans ?_
    simp only [Container.counted, hk]
    rfl
  case commit =>
    rw [← hd]
    exact congrArg (fun o => withCde (runAsked .drain true (start + blocks + 1) 1 { s.cde with container := o }) s) hc.symm
  case logUpdate =>
    rw [← hd]
    exact congrArg (fun o => withCde (runAsked .drain true 0 1 { s.cde with container := o }) s) hc.symm

end Stop

/-! ### The table -/

section Table

variable {t T U : Stb} {i : Nat}

theorem Stb.slotFor_of_free (hi : i < t.count) (hfree : t.slotState i = .free) (hlow : ∀ j < i, t.slotState j ≠ .free) :
    t.slotFor = some i := by
  have hfirst : t.freeIndex = some i := List.find?_range_eq_some.2 ⟨by simp [hfree], List.mem_range.2 hi, fun j hj => by
    simp [hlow j hj]⟩
  rw [Stb.slotFor, hfirst, Option.some_or]

theorem Stb.takeSlot_of_unheld (h : ∀ r ∈ t.records, r.slot ≠ some i) : t.takeSlot i = t := by
  have hnone : t.holder i = none := List.find?_eq_none.2 fun r hr => by simp [h r hr]
  simp only [Stb.takeSlot, hnone]

theorem Stb.slotFor_of_retained {before after : List Nat} {q : ShotRecord} (hfull : ∀ j < t.count, t.slotState j ≠ .free)
    (hr : t.retained = before ++ i :: after) (hkept : ∀ j ∈ before, ∀ r, t.holder j = some r → r.flags.keep = true)
    (hq : t.holder i = some q) (hk : q.flags.keep = false) : t.slotFor = some i := by
  have hreclaim : t.reclaimable = some i := by
    refine List.find?_eq_some_iff_append.2 ⟨by simp [hq, hk], before, after, hr, fun j hj => ?_⟩
    have hj' := hkept j hj
    cases hh : t.holder j <;> simp_all
  rw [Stb.slotFor, Stb.freeIndex_eq_none_iff t |>.2 hfull, hreclaim]
  rfl

theorem Stb.takeSlot_of_held {q : ShotRecord} (hq : t.holder i = some q) : t.takeSlot i = t.freeSlot q.shot := by
  simp only [Stb.takeSlot, hq]

theorem Stb.victim_of_room (h : t.records.length < 16) : t.victim = none := if_pos h

theorem Stb.victim_of_full {before after : List ShotRecord} {v : ShotRecord} (h : 16 ≤ t.records.length)
    (hr : t.records = before ++ v :: after) (hb : ∀ r ∈ before, r.phase = .held ∨ r.phase = .storing)
    (hv : v.phase = .stored ∨ v.phase = .expired ∨ v.phase = .aborted ∨ v.phase = .discarded ∨ v.phase = .calibrated) :
    t.victim = some v := by
  have hfinal : v.phase.final = true := by rcases hv with h | h | h | h | h <;> rw [h] <;> rfl
  refine (if_neg (Nat.not_lt.mpr h)).trans (List.find?_eq_some_iff_append.2 ⟨hfinal, before, after, hr, fun r hr => ?_⟩)
  rcases hb r hr with h | h <;> rw [h] <;> rfl

theorem Stb.emptyEntry_eq {k : Nat} (hk : k < 16) (hempty : ∀ q ∈ t.records, q.entry ≠ k)
    (hlow : ∀ j < k, ∃ q ∈ t.records, q.entry = j) : t.emptyEntry = k := by
  have hfirst : (List.range 16).find? (fun e => t.records.all fun r => r.entry != e) = some k :=
    List.find?_range_eq_some.2 ⟨by simpa using hempty, List.mem_range.2 hk, fun j hj => by
      obtain ⟨q, hq, rfl⟩ := hlow j hj
      simp only [Bool.not_eq_true', List.all_eq_false]
      exact ⟨q, hq, by simp⟩⟩
  rw [Stb.emptyEntry, hfirst]
  rfl

/-- Freeing a slot changes no number and no phase. -/
theorem Stb.mem_freeSlot {n : Nat} {r : ShotRecord} (h : r ∈ (t.freeSlot n).records) :
    ∃ q ∈ t.records, q.shot = r.shot ∧ q.phase = r.phase := by
  unfold Stb.freeSlot at h
  split at h
  · exact ⟨r, h, rfl, rfl⟩
  · obtain ⟨q, hq, rfl⟩ := List.mem_map.1 h
    refine ⟨q, hq, ?_⟩
    split <;> exact ⟨rfl, rfl⟩

theorem Stb.mem_remove {n : Nat} {r : ShotRecord} (h : r ∈ (t.remove n).records) :
    ∃ q ∈ t.records, q.shot = r.shot ∧ q.phase = r.phase := Stb.mem_freeSlot (List.mem_filter.1 h).1

theorem Stb.mem_takeSlot {r : ShotRecord} (h : r ∈ (t.takeSlot i).records) :
    ∃ q ∈ t.records, q.shot = r.shot ∧ q.phase = r.phase := by
  unfold Stb.takeSlot at h
  split at h
  · exact Stb.mem_freeSlot h
  · exact ⟨r, h, rfl, rfl⟩

theorem Stb.freeSlot_layout (t : Stb) (n : Nat) :
    (t.freeSlot n).slotSize = t.slotSize ∧ (t.freeSlot n).nextShot = t.nextShot := by
  unfold Stb.freeSlot
  split <;> exact ⟨rfl, rfl⟩

theorem Stb.takeSlot_layout (t : Stb) (i : Nat) :
    (t.takeSlot i).slotSize = t.slotSize ∧ (t.takeSlot i).nextShot = t.nextShot := by
  unfold Stb.takeSlot
  split
  · exact Stb.freeSlot_layout t _
  · exact ⟨rfl, rfl⟩

end Table

end Sys2Proof.Machine
end

section
/-! PROOFS. The sync filter and the sequencer at an accepted ARM (R27 to R29, R35; O25). -/

namespace Sys2Proof.Machine

set_option Elab.async false

/-! ### The new debounce (R35) -/

/-- The run of samples is long enough for a debounce of `n` samples. -/
def SyncFilter.judges (n : Nat) (f : SyncFilter) : Bool := f.run.any fun v => decide (n ≤ v.length)

/-- That run is a closure. -/
def SyncFilter.late (n : Nat) (f : SyncFilter) : Bool := f.run.any fun v => decide (n ≤ v.length) && v.closed

/-- The filter with a debounce of `n` samples. -/
def SyncFilter.redone (n : Nat) (f : SyncFilter) : SyncFilter :=
  ⟨if f.judges n then f.late n else f.closed, if f.judges n then none else f.run, n⟩

/-- The sequencer with that filter. -/
def Exs.redone (n : Nat) (x : Exs) : Exs :=
  { x with sync := x.sync.redone n, missed := if x.sync.late n then min 4294967295 (x.missed + 1) else x.missed }

/-- MISSED_SYNC raised for a closure accepted late. -/
def raiseLate (late : Bool) (s : State) : State := if late then raise .missedSync s else s

theorem raiseLate_onlyChanges (b : Bool) (s : State) : OnlyChanges [] s (raiseLate b s) := by
  unfold raiseLate
  split
  · exact (OnlyChanges.refl _ s).raised _
  · exact OnlyChanges.refl _ s

/-- The debounce changes while no record is in READING. -/
theorem setDebounce_of_idle {s : State} (h : ∀ r ∈ s.stb.records, r.phase ≠ .reading) (n : Nat) :
    setDebounce n s = withExs (s.exs.redone n) (raiseLate (s.exs.sync.late n) s) := by
  have hsame : (s.stb.records.map fun r => if r.phase = .reading then { r with missed := min 255 (r.missed + 1) } else r) =
      s.stb.records := (List.map_congr_left fun r hr => if_neg (h r hr)).trans (List.map_id _)
  have hrecords : { s.stb with records := s.stb.records.map fun r =>
      if r.phase = .reading then { r with missed := min 255 (r.missed + 1) } else r } = s.stb := by rw [hsame]
  rw [setDebounce_eq]
  rcases hr : s.exs.sync.run with _ | v
  · have hrun : (debounced n s).exs.sync.run = none := hr
    rw [hrun]
    simp only [debounced, Exs.redone, SyncFilter.redone, SyncFilter.judges, SyncFilter.late, hr, raiseLate]
    rfl
  · have hrun : (debounced n s).exs.sync.run = some v := hr
    rw [hrun]
    by_cases hn : n ≤ v.length
    · have hacc : acceptIdle v.closed (debounced n s) =
          if v.closed then missedSync (withExs { s.exs with sync := ⟨v.closed, none, n⟩ } s)
          else withExs { s.exs with sync := ⟨v.closed, none, n⟩ } s := rfl
      refine (if_pos hn).trans ?_
      rw [hacc, missedSync_eq]
      simp only [Exs.redone, SyncFilter.redone, SyncFilter.judges, SyncFilter.late, hr, raiseLate, hn, Option.any_some,
        decide_true, Bool.true_and, if_true]
      cases v.closed
      · rfl
      · exact congrArg (fun t : Stb => withStb t (raise .missedSync (withExs { s.exs with
          sync := ⟨true, none, n⟩, missed := min 4294967295 (s.exs.missed + 1) } s))) hrecords
    · refine (if_neg hn).trans ?_
      simp only [debounced, Exs.redone, SyncFilter.redone, SyncFilter.judges, SyncFilter.late, hr, raiseLate, hn,
        Option.any_some, decide_false, Bool.false_and]
      rfl

/-! ### QUIETING (R29) -/

section Quieting

variable {s : State} {e : Exposure} {p : Profile} {c : Cde}

/-- The sequencer in QUIETING, or in FLUSHING when there is nothing to wait for. -/
def quieted (p : Profile) (ack : Bool) (x : Exs) : Exs :=
  if ack || decide (p.quietWait = 0) then x.enterFor .flush (1000 * p.flushTime) else x.enterFor .quieting (1000 * p.quietWait)

/-- The record of a shot that had no quiet wait at all. -/
def quietless (p : Profile) (ack : Bool) (n : Nat) (t : Stb) : Stb :=
  if !ack && decide (p.quietWait = 0) then t.update n fun r => { r with flags := { r.flags with quietMissed := true } } else t

theorem enterQuieting_eq (hcur : s.exs.current = some e) (hlive : s.prs.live e.profile = some p)
    (hstop : ∀ x : Exs, askStop (withExs x s) = withCde c (withExs x s)) : enterQuieting s =
      withStb (quietless p s.pins.quietAck e.shot s.stb) (withCde c (withExs (quieted p s.pins.quietAck s.exs) s)) := by
  set x := s.exs.enterFor .quieting (1000 * p.quietWait) with hx
  set u := withCde c (withExs x s) with hu
  have hrose : enterQuieting s = if s.pins.quietAck then enterFlush u else if 1000 * p.quietWait = 0 then quietMissed u
      else u := by
    rw [enterQuieting, profileTime_of_live hcur hlive, quietRose]
    have hrise : askStop (modExs (fun x => x.enterFor .quieting (1000 * p.quietWait)) s) = u := hstop x
    rw [hrise]
    rfl
  rw [hrose]
  unfold quietless quieted
  rcases s.pins.quietAck with _ | _
  · by_cases hw : p.quietWait = 0
    · have hmissed : quietMissed u = enterFlush (withStb (s.stb.update e.shot fun r =>
          { r with flags := { r.flags with quietMissed := true } }) u) :=
        congrArg enterFlush (setFlag_of_current (s := u) hcur _)
      simp only [hw, Bool.not_false, decide_true, Bool.true_and, Bool.or_true, if_true, Bool.false_eq_true, if_false,
        Nat.mul_zero]
      rw [hmissed]
      exact enterFlush_of_live (by exact hcur) (by exact hlive)
    · have hw' : ¬ 1000 * p.quietWait = 0 := by omega
      simp only [hw, hw', Bool.not_false, decide_false, Bool.and_false, Bool.or_self, Bool.false_eq_true, if_false]
      rfl
  · simp only [Bool.not_true, Bool.false_and, Bool.true_or, if_true, Bool.false_eq_true, if_false]
    exact enterFlush_of_live (by exact hcur) (by exact hlive)

end Quieting

end Sys2Proof.Machine
end

section
/-! PROOFS. An ARM accepted: the record in the table, and the statement (R9, R14 to R17, R27 to R29; O25). -/

namespace Sys2Proof.Machine

set_option Elab.async false

/-! ### The record (R7, R14, R16) -/

/-- The table with a new record, which has taken slot `i` and the next number. -/
def newTable (U : Stb) (i : Nat) (r : ShotRecord) : Stb :=
  { U with slots := U.slots.set i .armed, records := U.records ++ [r], nextShot := nextNumber U.nextShot }

theorem newTable_update {U : Stb} {i n : Nat} {r : ShotRecord} (h : ∀ q ∈ U.records, q.shot ≠ n) (hr : r.shot = n)
    (f : ShotRecord → ShotRecord) : (newTable U i r).update n f = newTable U i (f r) := by
  have hold : (U.records.map fun q => if q.shot = n then f q else q) = U.records :=
    (List.map_congr_left fun q hq => if_neg (h q hq)).trans (List.map_id _)
  simp only [newTable, Stb.update, List.map_append, hold, List.map_cons, List.map_nil, hr, if_true]

theorem makeRoom_onlyChanges (s : State) : OnlyChanges [.stb] s (makeRoom s) := by
  unfold makeRoom
  split
  · refine ⟨rfl, fun p hp _ => ?_⟩
    cases p <;> simp_all [Part.agree, Rqe.mirrorShot, followUp]
  · exact OnlyChanges.refl _ s

theorem makeRoom_amn (s : State) : (makeRoom s).amn = s.amn := by
  unfold makeRoom
  split <;> rfl

/-- The records after room is made (R16). -/
theorem makeRoom_stb {T U : Stb} (h : T.victim = none ∧ U = T ∨ ∃ v, T.victim = some v ∧ U = T.remove v.shot) (s : State) :
    (makeRoom (withStb T s)).stb = U := by
  obtain ⟨hv, rfl⟩ | ⟨v, hv, rfl⟩ := h
  · have hvictim : (withStb U s).stb.victim = none := hv
    simp only [makeRoom, hvictim]
    rfl
  · have hvictim : (withStb T s).stb.victim = some v := hv
    simp only [makeRoom, hvictim]
    rfl

/-- The record as it is created. -/
def armedRecord (U : Stb) (profile : Nat) (m : ShotMode) (keep darkCal : Bool) (time i : Nat) (a : Amn) : ShotRecord :=
  { entry := U.emptyEntry, shot := U.nextShot, phase := .arming, slot := some i, profile := profile, mode := m,
    flags := { keep := keep, darkCal := darkCal }, timestamp := time, battery := if a.battValid then a.batt else none }

theorem createRecord_eq {s : State} {T U : Stb} {i : Nat} (hT : s.stb.takeSlot i = T)
    (hU : (makeRoom (withStb T s)).stb = U) (profile : Nat) (m : ShotMode) (keep darkCal : Bool) (time : Nat) :
    createRecord profile m keep darkCal time i s =
      withStb (newTable U i (armedRecord U profile m keep darkCal time i s.amn)) (makeRoom (withStb T s)) := by
  have hamn : (makeRoom (withStb T s)).amn = s.amn := makeRoom_amn _
  rw [← hamn, ← hU, ← hT]
  rfl

/-! ### The ARM that has passed its checks (R28) -/

/-- The shot as the sequencer takes it. -/
def takenShot (shot profile : Nat) (m : ShotMode) (d w l : Nat) (closed : Bool) : Exposure :=
  { shot := shot, profile := profile, mode := m, debounce := d, waitLimit := w, duration := l, closedBefore := closed }

/-- The state with the shot armed: the table, the card engine, the sequencer, and MISSED_SYNC for a closure accepted now. -/
def armedState (T N : Stb) (c : Cde) (x : Exs) (late : Bool) (s : State) : State :=
  withStb N (withCde c (withExs x (raiseLate late (makeRoom (withStb T s)))))

theorem armedState_onlyChanges (T N : Stb) (c : Cde) (x : Exs) (late : Bool) (s : State) :
    OnlyChanges [.stb, .exs, .cde] s (armedState T N c x late s) :=
  ((((((withStb_onlyChanges T s).within (ps := [.stb, .exs, .cde])).andThen (makeRoom_onlyChanges _)).andThen
    (raiseLate_onlyChanges late _)).exs x).cde c).stb N

theorem armedState_raises (T N : Stb) (c : Cde) (x : Exs) (s : State) :
    (⟨.missedSync, none⟩ : Raise) ∈ (armedState T N c x true s).rqe.raises :=
  List.mem_append_right _ List.mem_cons_self

theorem makeRoom_frame (T : Stb) (s : State) : OnlyChanges [.stb] s (makeRoom (withStb T s)) :=
  (withStb_onlyChanges T s).andThen (makeRoom_onlyChanges _)

/-- The table as the ARM leaves it: the record tells whether the quiet wait was skipped (R29). -/
def armedTable (U : Stb) (profile : Nat) (m : ShotMode) (keep darkCal : Bool) (time i : Nat) (a : Amn) (p : Profile)
    (ack : Bool) : Stb :=
  quietless p ack U.nextShot (newTable U i (armedRecord U profile m keep darkCal time i a))

theorem acceptArm_eq {s : State} {T U : Stb} {i profile d : Nat} {p : Profile} {c : Cde} (m : ShotMode) (keep darkCal : Bool)
    (w l time : Nat) (hT : s.stb.takeSlot i = T) (hU : (makeRoom (withStb T s)).stb = U)
    (hidle : ∀ r ∈ U.records, r.phase ≠ .reading) (hlive : s.prs.live profile = some p)
    (hstop : ∀ v : State, v.cde = s.cde → askStop v = withCde c v) :
    acceptArm profile m keep darkCal d w l time i s = answer ⟨.started, armResult s.stb.nextShot i d w l⟩
      (armedState T (armedTable U profile m keep darkCal time i s.amn p s.pins.quietAck) c
        (quieted p s.pins.quietAck { s.exs.redone (d / 10) with
          current := some (takenShot U.nextShot profile m d w l (s.exs.redone (d / 10)).sync.closed) })
        (s.exs.sync.late (d / 10)) s) := by
  set r := armedRecord U profile m keep darkCal time i s.amn with hr
  set room := makeRoom (withStb T s) with hroom
  have hframe : OnlyChanges [.stb] s room := makeRoom_frame T s
  have hexs : room.exs = s.exs := hframe.2 .exs (by decide) (by decide)
  have hcde : room.cde = s.cde := hframe.2 .cde (by decide) (by decide)
  have hprs : room.prs = s.prs := hframe.2 .prs (by decide) (by decide)
  have hpins : room.pins = s.pins := hframe.2 .pins (by decide) (by decide)
  have hnext : U.nextShot = s.stb.nextShot := by
    rw [← hU, hroom, makeRoom_nextShot, ← hT]
    exact (Stb.takeSlot_layout s.stb i).2
  have hdebounced : setDebounce (d / 10) (withStb (newTable U i r) room) =
      withExs (s.exs.redone (d / 10)) (raiseLate (s.exs.sync.late (d / 10)) (withStb (newTable U i r) room)) := by
    rw [← hexs]
    refine setDebounce_of_idle (s := withStb (newTable U i r) room) (fun q hq => ?_) _
    rcases List.mem_append.1 hq with hq | hq
    · exact hidle q hq
    · obtain rfl := List.mem_singleton.1 hq
      exact fun h => Phase.noConfusion h
  set x : Exs := { s.exs.redone (d / 10) with
    current := some (takenShot U.nextShot profile m d w l (s.exs.redone (d / 10)).sync.closed) } with hx
  set taken := withExs x (raiseLate (s.exs.sync.late (d / 10)) (withStb (newTable U i r) room)) with htaken
  have htake : takeShot s.stb.nextShot profile m d w l (withStb (newTable U i r) room) = taken := by
    rw [takeShot, hdebounced, ← hnext]
    rfl
  have hlate {b : Bool} {v : State} : (raiseLate b v).prs = v.prs ∧ (raiseLate b v).pins = v.pins ∧
      (raiseLate b v).cde = v.cde ∧ (raiseLate b v).stb = v.stb := by cases b <;> exact ⟨rfl, rfl, rfl, rfl⟩
  have hquiet := enterQuieting_eq (s := taken) (p := p) (c := c) rfl
    (by
      have hp : taken.prs = s.prs := hlate.1.trans hprs
      rw [hp]
      exact hlive)
    (fun y => hstop _ (hlate.2.2.1.trans hcde))
  have hack : taken.pins.quietAck = s.pins.quietAck := congrArg Pins.quietAck (hlate.2.1.trans hpins)
  have hstb : taken.stb = newTable U i r := hlate.2.2.2
  rw [hack, hstb] at hquiet
  have hcreate := createRecord_eq (s := s) hT hU profile m keep darkCal time
  have haccept : acceptArm profile m keep darkCal d w l time i s = answer ⟨.started, armResult s.stb.nextShot i d w l⟩
      (enterQuieting (takeShot s.stb.nextShot profile m d w l (createRecord profile m keep darkCal time i s))) := rfl
  have hover (N : Stb) (y : Exs) (b : Bool) :
      withStb N (withCde c (withExs y (withExs x (raiseLate b (withStb (newTable U i r) room))))) =
        withStb N (withCde c (withExs y (raiseLate b room))) := by cases b <;> rfl
  rw [haccept, hcreate, htake, hquiet]
  exact congrArg (answer _) (hover _ _ _)

/-! ### The statement -/

/-- The owner answers after the changes `g`: the state itself. -/
theorem taken_gives {q : Request} {s : State} {judge g : State → State} {a : Answer} {ps : List Part} (h : Taken q s)
    (hj : ∀ v, judge (withService v s) = answer a (g (withService v s)))
    (hf : ∀ v, OnlyChanges ps (withService v s) (g (withService v s))) (hp : .service ∉ ps := by decide) :
    ∃ v, event s (serve q judge) = .next (finish s (answer a (g (withService v s)))) ∧
      Answered a s (finish s (answer a (g (withService v s)))) ∧
      OnlyChanges (.service :: ps) s (finish s (answer a (g (withService v s)))) := by
  have hg (v : Service) : (g (withService v s)).rqe.service = some v := ((hf v).2 .service hp (by decide)).1
  obtain ⟨v, hs, -⟩ := serve_taken h judge
  obtain ⟨-, u, hu, ha, -⟩ := taken_answered h hj hg
  have hto : u = answer a (g (withService v s)) := hu.symm.trans (hs.trans (hj v))
  rw [hto] at ha
  refine ⟨v, event_to h.1 (hs.trans (hj v)), ha, ?_⟩
  exact (((withService_onlyChanges v s).within (by simp)).andThen (hf v) fun p => List.mem_cons_of_mem _).andThen
    (answer_onlyChanges a _) (by simp) |>.finish s

/-- The engine once the command of run `v`, which waits, has ended STOPPED: its user asks for its next run (R174). -/
def RunAgain (c : Cde) (v : Run) (d : Cde) : Prop := match v.user with
  | .read => ∃ q, c.serving = some q ∧ q.done < q.count ∧
      d = runAsked .read false (q.block + q.done) (min q.count ((q.done / 256 + 1) * 256) - q.done) c
  | .format => d = runAsked .format true 0 1 c
  | .mount => c.parkAsked = false ∧ ∃ m, c.mount = some m ∧ match m.stage with
      | .logHeader => d = runAsked .mount false 0 1 c
      | .container => d = runAsked .mount false m.geometry.nextFree 1 c
      | .commit h => d = runAsked .mount false (m.geometry.nextFree + h.blocks + 1) 1 c
      | .rewrite => d = runAsked .mount true 0 1 c
  | .drain => ∃ e, c.container = some e ∧ e.park = false ∧
      match e.stage with
      | .summing => False
      | .header => d = runAsked .drain true e.start 1 { c with container := some { e with done := e.done + v.done } }
      | .data => 1 ≤ e.done + v.done ∧ e.done + v.done ≤ e.blocks ∧ d = runAsked .drain true (e.start + (e.done + v.done))
          (min e.blocks (((e.done + v.done - 1) / 256 + 1) * 256) - (e.done + v.done - 1))
          { c with container := some { e with done := e.done + v.done } }
      | .commit => d = runAsked .drain true (e.start + e.blocks + 1) 1 c
      | .logUpdate => d = runAsked .drain true 0 1 c

/-- The engine once its run has been asked to stop. -/
def RunStopped (c d : Cde) : Prop := match c.run with
  | none => d = c
  | some v => (v.stage = .waiting → RunAgain c v d) ∧ (v.stage ≠ .waiting → d = { c with run := some { v with stop := true } })

theorem endRun_stopped {s : State} {v : Run} {d : Cde} (hrun : s.cde.run = some v) (h : RunAgain s.cde v d) :
    endRun .stopped s = withCde d s := by
  unfold RunAgain at h
  rcases hu : v.user with _ | _ | _ | _ <;> simp only [hu] at h
  case mount =>
    obtain ⟨hp, m, hm, hd⟩ := h
    have hmount : mountRun m s.cde = d := by
      unfold mountRun
      cases hs : m.stage <;> simp only [hs] at hd <;> exact hd.symm
    rw [stopped_mount hrun hu hp hm, hmount]
  case drain =>
    obtain ⟨e, he, hp, hd⟩ := h
    refine stopped_drain hrun hu he hp (fun hs => ?_) ?_
    · simp only [hs] at hd
      exact ⟨hd.1, hd.2.1⟩
    · unfold drainRun
      cases hs : e.stage <;> simp only [hs] at hd
      case data => exact congrArg some hd.2.2.symm
      all_goals exact congrArg some hd.symm
  case read =>
    obtain ⟨q, hq, hmore, hd⟩ := h
    rw [stopped_read hrun hu hq hmore, hd]
  case format => rw [stopped_format hrun hu, h]

theorem askStop_of_stopped {s : State} {d : Cde} (h : RunStopped s.cde d) : askStop s = withCde d s := by
  unfold RunStopped at h
  rcases hrun : s.cde.run with _ | v <;> simp only [hrun] at h
  · rw [askStop_of_none hrun, h]
  · obtain ⟨hwaiting, hgoing⟩ := h
    by_cases hw : v.stage = .waiting
    · rw [askStop_of_waiting hrun hw, endRun_stopped hrun (hwaiting hw)]
    · rw [askStop_of_going hrun hw, hgoing hw]

/-- The table an accepted ARM starts from: its slot is taken and room is made (R14 to R16). -/
structure RoomMade (t : Stb) (i : Nat) (T U : Stb) : Prop where
  slotFor : t.slotFor = some i
  takeSlot : t.takeSlot i = T
  victim : T.victim = none ∧ U = T ∨ ∃ v, T.victim = some v ∧ U = T.remove v.shot

theorem RoomMade.mem {t T U : Stb} {i : Nat} (h : RoomMade t i T U) {r : ShotRecord} (hr : r ∈ U.records) :
    ∃ q ∈ t.records, q.shot = r.shot ∧ q.phase = r.phase := by
  obtain ⟨-, rfl, ⟨-, rfl⟩ | ⟨v, -, rfl⟩⟩ := h
  · exact Stb.mem_takeSlot hr
  · obtain ⟨q, hq, hshot, hphase⟩ := Stb.mem_remove hr
    obtain ⟨x, hx, hxs, hxp⟩ := Stb.mem_takeSlot hq
    exact ⟨x, hx, hxs.trans hshot, hxp.trans hphase⟩

theorem RoomMade.layout {t T U : Stb} {i : Nat} (h : RoomMade t i T U) :
    U.slotSize = t.slotSize ∧ U.nextShot = t.nextShot := by
  have htake := Stb.takeSlot_layout t i
  obtain ⟨-, rfl, ⟨-, rfl⟩ | ⟨v, -, rfl⟩⟩ := h
  · exact htake
  · have hfree := Stb.freeSlot_layout (t.takeSlot i) v.shot
    exact ⟨hfree.1.trans htake.1, hfree.2.trans htake.2⟩

/-- The checks of an ARM that is accepted (R26). -/
theorem armRefusal_none {s : State} {n i : Nat} {p : Profile}
    (hidle : ∀ r ∈ s.stb.records, r.phase ≠ .arming ∧ r.phase ≠ .waiting ∧ r.phase ≠ .exposing ∧ r.phase ≠ .reading)
    (hlive : s.prs.live n = some p) (hfits : p.frameBytes ≤ s.stb.slotSize * 1048576)
    (hcool : ¬ (s.amn.tempValid = true ∧ s.amn.tempLevel = .limit))
    (hcharged : s.amn.battValid = true → s.amn.battLevel = .normal) (hslot : s.stb.slotFor = some i) :
    armRefusal n s = none := by
  have hcurrent : ¬ s.stb.current.isSome = true := by
    rw [Stb.current_isSome_iff]
    rintro ⟨r, hr, hphase⟩
    have hnot := hidle r hr
    tauto
  have hfull : ¬ (s.amn.battValid = true ∧ (s.amn.battLevel = .low ∨ s.amn.battLevel = .critical)) := by
    rw [← BattLevel.ne_normal_iff]
    exact fun hb => hb.2 (hcharged hb.1)
  rw [armRefusal_of_live hcurrent hlive, if_neg (Nat.not_lt.mpr hfits), if_neg hcool, if_neg hfull, hslot]
  rfl

theorem judgeArm_accepts {profile mode : BitVec 8} {keep darkCal : Bool} {debounce waitLimit duration timestamp : BitVec 32}
    {s : State} {m : ShotMode} {i : Nat} (hm : modeOf mode = some m) (hp : profile.toNat ≤ 3)
    (hr : armRefusal profile.toNat s = none) (hs : s.stb.slotFor = some i) :
    judgeArm profile mode keep darkCal debounce waitLimit duration timestamp s =
      acceptArm profile.toNat m keep darkCal (appliedDebounce debounce) (appliedWait waitLimit) (appliedDuration duration)
        timestamp.toNat i s := by
  simp only [judgeArm, hm, if_neg (Nat.not_lt.mpr hp), hr, hs]

/-- The record, with what it tells of the quiet wait. -/
theorem armedTable_eq {U : Stb} (h : ∀ q ∈ U.records, q.shot ≠ U.nextShot) (profile : Nat) (m : ShotMode)
    (keep darkCal : Bool) (time i : Nat) (a : Amn) (p : Profile) (ack : Bool) :
    armedTable U profile m keep darkCal time i a p ack = newTable U i { armedRecord U profile m keep darkCal time i a with
      flags := { keep := keep, darkCal := darkCal, quietMissed := !ack && decide (p.quietWait = 0) } } := by
  unfold armedTable quietless
  cases !ack && decide (p.quietWait = 0)
  · rfl
  · exact newTable_update h rfl _

theorem quieted_eq (p : Profile) (ack : Bool) (x : Exs) : quieted p ack x = { x with
    seq := if ack || decide (p.quietWait = 0) then .flush else .quieting
    quietReq := true, snsFlush := ack || decide (p.quietWait = 0), snsInteg := false, readyOut := false
    timer := some (1000 * if ack || decide (p.quietWait = 0) then p.flushTime else p.quietWait) } := by
  unfold quieted
  cases ack || decide (p.quietWait = 0) <;> rfl

/-- Settles O25: the table by R14 to R16, the filter by R35, the sequencer by R29, the run in progress by R174. -/
theorem armAccepted : Obligations.ArmAccepted := by
  intro profile mode keep darkCal debounce waitLimit duration timestamp s m p i T U h hprofile hmode hidle hfresh hlive hfits
    hcool hcharged hslot hroom d w l judged late sync missed flushes time asks again stopped hstopped
  have hmodeOf : modeOf mode = some m := by
    rcases hmode with ⟨h, rfl⟩ | ⟨h, rfl⟩ | ⟨h, rfl⟩ <;> simp [modeOf, h]
  have hmade : RoomMade s.stb i T U := by
    have hvictim : T.victim = none ∧ U = T ∨ ∃ v, T.victim = some v ∧ U = T.remove v.shot := by
      rcases hroom with ⟨hr, rfl⟩ | ⟨hfull, before, v, after, hr, hb, hv, rfl⟩
      · exact .inl ⟨Stb.victim_of_room hr, rfl⟩
      · exact .inr ⟨v, Stb.victim_of_full hfull hr hb hv, rfl⟩
    rcases hslot with ⟨hi, hfree, hlow, hheld, rfl⟩ | ⟨hfull, before, after, q, hr, hkept, hq, hk, rfl⟩
    · exact ⟨Stb.slotFor_of_free hi hfree hlow, Stb.takeSlot_of_unheld hheld, hvictim⟩
    · exact ⟨Stb.slotFor_of_retained hfull hr hkept hq hk, Stb.takeSlot_of_held hq, hvictim⟩
  have hold {r : ShotRecord} (hr : r ∈ U.records) : r.shot ≠ U.nextShot ∧ r.phase ≠ .reading := by
    obtain ⟨q, hq, hshot, hphase⟩ := hmade.mem hr
    rw [hmade.layout.2, ← hshot, ← hphase]
    exact ⟨hfresh q hq, (hidle q hq).2.2.2⟩
  have hstop : RunStopped s.cde stopped := hstopped
  set e := takenShot U.nextShot profile.toNat m d w l (s.exs.redone (d / 10)).sync.closed with he
  set N := armedTable U profile.toNat m keep darkCal timestamp.toNat i s.amn p s.pins.quietAck with hN
  set x := quieted p s.pins.quietAck { s.exs.redone (d / 10) with current := some e } with hx
  have hjudge (v : Service) : judgeArm profile mode keep darkCal debounce waitLimit duration timestamp (withService v s) =
      answer ⟨.started, armResult s.stb.nextShot i d w l⟩
        (armedState T N stopped x (s.exs.sync.late (d / 10)) (withService v s)) :=
    (judgeArm_accepts hmodeOf hprofile (armRefusal_none (s := withService v s) hidle hlive hfits hcool hcharged hmade.slotFor)
      hmade.slotFor).trans (acceptArm_eq (s := withService v s) m keep darkCal w l timestamp.toNat hmade.takeSlot
        (makeRoom_stb hmade.victim _) (fun r hr => (hold hr).2) hlive
        fun v hv => askStop_of_stopped (by rw [hv]; exact hstop))
  obtain ⟨v, hto, hans, hframe⟩ := taken_gives h hjudge fun v => armedState_onlyChanges T N stopped x _ _
  set u := armedState T N stopped x (s.exs.sync.late (d / 10)) (withService v s) with hu
  set t := finish s (answer ⟨.started, armResult s.stb.nextShot i d w l⟩ u) with ht
  have hkeeps : OnlyChanges [.service] u t := (answer_onlyChanges _ u).finish s
  have hstb : t.stb = newTable U i _ := (hkeeps.2 .stb (by decide) (by decide)).trans
    (armedTable_eq (fun q hq => (hold hq).1) _ _ _ _ _ _ _ _ _)
  have hexs : t.exs = _ := (hkeeps.2 .exs (by decide) (by decide)).trans (quieted_eq _ _ _)
  refine ⟨t, _, e, hto, by rw [hstb]; rfl, fun k hk hempty hlow => ?_, ⟨hmade.layout.2, rfl, rfl, rfl, rfl, rfl, rfl, rfl,
    rfl, rfl, rfl, rfl, rfl, rfl, rfl, rfl, rfl, rfl, rfl, rfl, rfl, rfl, rfl, rfl⟩, by rw [hstb]; rfl, by rw [hstb]; rfl,
    by rw [hstb]; exact hmade.layout.1, ?_, by rw [hexs], ⟨hmade.layout.2, rfl, rfl, rfl, rfl, rfl, rfl⟩, hexs, ?_,
    hkeeps.2 .cde (by decide) (by decide), finish_mirrored _ _, hans, hframe.within⟩
  · exact Stb.emptyEntry_eq hk hempty hlow
  · rw [hstb, ← hmade.layout.2]
    rfl
  · intro hlate
    have hlate' : s.exs.sync.late (d / 10) = true := hlate
    refine finish_raised _ _ ?_
    rw [answer_raises, hu, hlate']
    exact armedState_raises _ _ _ _ _

end Sys2Proof.Machine
end

section
/-! PROOFS. The line hold buffer released without right neighbours, and the readout idle limit (R103, R105 to R108; O47). -/

namespace Sys2Proof.Machine

set_option Elab.async false

/-! ### The waiting word released (R103) -/

/-- The word's cells at its slot address, its pixels settled without right neighbours. -/
def heldCells (s : State) (o : Readout) (h : HeldWord) : List Host.Cell :=
  let a := s.stb.slotBase o.slot + h.offset
  let bytes := fun (a : Nat) (y : Option Nat) => cellsAt a ((y.map (le 2)).getD [])
  bytes a (settledAlone s.dfm o.image h.line h.x h.leftEven h.even) ++
    bytes (a + 2) (settledAlone s.dfm o.image h.line (h.x + 1) h.leftOdd h.odd)

/-- The statistics with one pixel of the waiting word settled. -/
def countSettled (s : State) (o : Readout) (line : Nat) (st : Stats) (x : Nat) (left : Option Nat) (p : PixelSlot) : Stats :=
  match p, settledAlone s.dfm o.image line x left p with
  | .covered, some y => { st with
      substituted := min 4294967295 (st.substituted + 1)
      histogram := st.histogram.modify (y / 1024) fun n => min 4294967295 (n + 1) }
  | _, _ => st

theorem releasedStats_of_none {s : State} {o : Readout} (h : o.wait = none) : releasedStats s o = o.stats := by
  simp only [releasedStats, h]

theorem releasedStats_of_some {s : State} {o : Readout} {w : HeldWord} (h : o.wait = some w) : releasedStats s o =
    countSettled s o w.line (countSettled s o w.line o.stats w.x w.leftEven w.even) (w.x + 1) w.leftOdd w.odd := by
  simp only [releasedStats, h]
  rfl

/-- One pixel settled without its right neighbour: the value it takes and what is counted. -/
theorem settlePixel_alone (s : State) (o : Readout) (runs : List WordRun) (line x : Nat) (left : Option Nat) (p : PixelSlot) :
    settlePixel ⟨s, o, runs⟩ line x left none p = (match settledAlone s.dfm o.image line x left p with
      | some y => .value y
      | none => p, countSettled s o line o.stats x left p) := by
  rcases p with _ | _ | y
  case covered =>
    have hright (d : Dfm) (column : Nat) : usable d line column none = none := by
      unfold usable
      split <;> rfl
    simp only [settlePixel, hright, settledAlone, countSettled]
    by_cases hx : x < 2
    · simp only [hx, if_true, true_or]
      rfl
    · simp only [hx, if_false, false_or, usable]
      by_cases hc : s.dfm.covers line (o.image.masked + x - 2) = true
      · simp only [hc, if_true]
        rfl
      · simp only [hc, if_false, Bool.false_eq_true]
        cases left <;> rfl
  all_goals rfl

theorem slotCells_settled (d : Dfm) (g : Profile) (line x a : Nat) (left : Option Nat) (p : PixelSlot) :
    slotCells a (match settledAlone d g line x left p with
      | some y => .value y
      | none => p) = cellsAt a (((settledAlone d g line x left p).map (le 2)).getD []) := by
  cases p <;> rfl

/-- The run a waiting word makes by itself. -/
def heldRuns (s : State) (o : Readout) : List WordRun := match o.wait with
  | none => []
  | some h => [⟨s.stb.slotBase o.slot + h.offset, s.stb.slotBase o.slot + h.offset + 4, heldCells s o h, h.parity, true⟩]

theorem release_alone (s : State) (o : Readout) : (⟨s, o, []⟩ : Work).release none none =
    ⟨s, { o with wait := none, stats := releasedStats s o }, heldRuns s o⟩ := by
  rcases hw : o.wait with _ | h
  · have hsame : { o with wait := none, stats := o.stats } = o := by rw [← hw]
    rw [releasedStats_of_none hw, hsame]
    simp only [Work.release, hw, heldRuns]
  · rw [releasedStats_of_some hw]
    simp only [Work.release, hw, Work.settleWord, settlePixel_alone, Work.emit, slotCells_settled, heldRuns]
    rfl

/-- The transactions of the waiting word, in the state that presents them. -/
theorem presentRuns_held (s : State) (o : Readout) : presentRuns (heldRuns s o) s = presentAll (releasedWord s o) s := by
  rcases hw : o.wait with _ | h
  · simp only [heldRuns, releasedWord, hw, presentAll, List.append_nil]
    rfl
  · have hword : releasedWord s o = if heldCells s o h = [] then []
        else [⟨.captureWrite, s.stb.slotBase o.slot + h.offset, 4, heldCells s o h, h.parity⟩] := by
      simp only [releasedWord, hw]
      rfl
    rw [hword]
    simp only [heldRuns, hw, presentRuns]
    by_cases hc : heldCells s o h = []
    · rw [if_pos hc, if_pos hc, presentAll, List.append_nil]
    · rw [if_neg hc, if_neg hc, Nat.add_sub_cancel_left]
      rfl

theorem presentAll_onlyChanges (ts : List Txn) (s : State) : OnlyChanges [] s (presentAll ts s) := by
  refine ⟨rfl, fun p _ hp => ?_⟩
  cases p <;> simp_all [Part.agree, presentAll, followUp]

/-! ### The readout's end (R108) -/

section End

variable {s : State} {o : Readout} {q : ShotRecord}

/-- The record with the statistics of its readout. -/
def measured (stats : Stats) (incomplete : Bool) (r : ShotRecord) : ShotRecord :=
  { r with stats := stats, flags := { r.flags with incomplete := r.flags.incomplete || incomplete } }

/-- The state in which a readout has given up its record, the map and the engine. -/
def readoutLeft (n : Nat) (p : Phase) (s : State) : State :=
  withStb (s.stb.move n p) (withDfm s.dfm.readoutEnd (withPce ⟨none, none⟩ s))

theorem leaveReadout_held (hq : s.stb.find o.shot = some q) (hcal : q.flags.darkCal = false) :
    leaveReadout o s = raise .held (releaseProfile q.profile (readoutLeft o.shot .held s)) := by
  unfold leaveReadout
  simp only [hq, Option.map_some, Option.getD_some, hcal, Bool.false_eq_true, if_false]
  rfl

theorem readoutLeft_onlyChanges (n : Nat) (p : Phase) (s : State) : OnlyChanges [.stb, .pce, .dfm] s (readoutLeft n p s) :=
  (((OnlyChanges.refl _ s).pce _).dfm _).stb _

/-- The state in which the waiting word is presented and the record measured. -/
def readoutMeasured (incomplete : Bool) (o : Readout) (s : State) : State :=
  withStb (s.stb.update o.shot (measured (releasedStats s o) incomplete)) (presentAll (releasedWord s o) s)

theorem readoutMeasured_onlyChanges (incomplete : Bool) (o : Readout) (s : State) :
    OnlyChanges [.stb] s (readoutMeasured incomplete o s) :=
  ((presentAll_onlyChanges _ s).within (ps := [.stb])).stb _

theorem readoutMeasured_find {incomplete : Bool} (hq : s.stb.find o.shot = some q) :
    (readoutMeasured incomplete o s).stb.find o.shot = some (measured (releasedStats s o) incomplete q) :=
  Stb.find_update (f := measured (releasedStats s o) incomplete) (fun _ => rfl) hq

/-- A readout that is no calibration ends: the waiting word, the record's statistics, then the record HELD. -/
theorem endReadout_held {incomplete : Bool} (hq : s.stb.find o.shot = some q) (hcal : q.flags.darkCal = false) :
    endReadout incomplete o s =
      raise .held (releaseProfile q.profile (readoutLeft o.shot .held (readoutMeasured incomplete o s))) := by
  have hfind := readoutMeasured_find (incomplete := incomplete) hq
  have hend : endReadout incomplete o s = leaveReadout { o with wait := none, stats := releasedStats s o }
      (readoutMeasured incomplete o s) := by
    unfold endReadout
    rw [release_alone]
    simp only [presentRuns_held]
    have hcalibrates : (((readoutMeasured incomplete o s).stb.find o.shot).map (·.flags.darkCal)).getD false = false := by
      rw [hfind]
      exact hcal
    refine (if_neg ?_).trans ?_
    · rw [Bool.and_eq_true, not_and]
      exact fun h => absurd (hcalibrates.symm.trans h) (by decide)
    · exact congrArg (leaveReadout _) (if_neg (by exact fun h => absurd (hcalibrates.symm.trans h) (by decide)))
  rw [hend, leaveReadout_held (o := { o with wait := none, stats := releasedStats s o }) hfind hcal]
  rfl

end End

/-- What a readout that is no calibration leaves: its record HELD in its slot, with its statistics. -/
theorem readoutLeft_held {s : State} {o : Readout} {r : ShotRecord} {i : Nat} {incomplete : Bool}
    (hfind : s.stb.find o.shot = some r) (hphase : r.phase = .reading) (hslot : r.slot = some i)
    (hi : i < s.stb.slots.length) :
    let t := (readoutLeft o.shot .held (readoutMeasured incomplete o s)).stb
    t.find o.shot = some { measured (releasedStats s o) incomplete r with phase := .held } ∧ t.slotState i = .held ∧
      ∀ n, n ≠ o.shot → t.find n = s.stb.find n := by
  have hmeasured := readoutMeasured_find (incomplete := incomplete) hfind
  have hmove : moveAllowed (measured (releasedStats s o) incomplete r).phase .held = true := by
    change moveAllowed r.phase .held = true
    rw [hphase]
    rfl
  refine ⟨Stb.find_move_kept hmeasured hmove rfl, Stb.slotState_move_kept hmeasured hmove rfl hslot hi, fun n hn => ?_⟩
  exact (Stb.find_move_other hmeasured hn).trans
    (Stb.find_update_other (f := measured (releasedStats s o) incomplete) (fun _ => rfl) hn)

theorem exec_readoutIdleExpiry (s : State) : exec .readoutIdleExpiry s = event s idleExpired := rfl

/-- Settles O47: the expired readout ends as `endReadout` has it, and its profile is given up. -/
theorem readoutIdle : Obligations.ReadoutIdle := by
  intro s o r i us e h ho hidle hending hheld hfind hphase hslot hi hcal he left
  set u := readoutLeft o.shot .held (readoutMeasured true o s) with hu
  have hframe : OnlyChanges [.stb, .pce, .dfm] s u :=
    ((readoutMeasured_onlyChanges true o s).within).andThen (readoutLeft_onlyChanges _ _ _)
  have hprs : u.prs = s.prs := hframe.2 .prs (by decide) (by decide)
  have hto : idleExpired s = raise .held (releaseProfile r.profile u) := by
    have hnone : ¬ captureHeld s = true := by
      unfold captureHeld
      rcases hq : s.hmp.queue with _ | ⟨p, ps⟩
      · simp
      · simp [hheld p (by simp [hq])]
    simp only [idleExpired, ho, hidle, hending]
    exact (if_pos ⟨rfl, trivial, hnone⟩).trans (endReadout_held hfind hcal)
  have hleft {v : State} (hpce : v.pce = u.pce) (hstb : v.stb = u.stb) (hdfm : v.dfm = u.dfm)
      (hpending : v.fmc.pending = u.fmc.pending) : left (finish s (raise .held v)) := by
    obtain ⟨hrecord, hstate, hothers⟩ := readoutLeft_held (incomplete := true) hfind hphase hslot hi
    obtain ⟨more, hmore⟩ := (finish_followUp s (raise .held v)).added
    have hstb' : (finish s (raise .held v)).stb = u.stb := (finish_stb _ _).trans hstb
    have hdfm' : (finish s (raise .held v)).dfm = u.dfm := (finish_dfm _ _).trans hdfm
    refine ⟨(finish_pce _ _).trans hpce, by rw [hstb']; exact hstate, ?_, ?_, by rw [hdfm']; rfl, by rw [hdfm']; rfl,
      ⟨more, hmore.trans ?_⟩, finish_raised _ _ (List.mem_append_right _ List.mem_cons_self)⟩
    · rw [hstb', hrecord]
      simp only [measured, Bool.or_true]
    · rw [hstb']
      exact hothers
    · exact congrArg (· ++ more) hpending
  rw [exec_readoutIdleExpiry]
  refine ⟨fun hw => ?_, fun p hw => ?_⟩
  · have hnone : releaseProfile r.profile u = u := releaseProfile_of_none fun x hx => by
      rw [hprs, he] at hx
      exact Option.some.inj hx ▸ hw
    rw [hnone] at hto
    exact ⟨_, event_to h hto, hleft rfl rfl rfl rfl, (hframe.raised .held).finish s⟩
  · have happlied : releaseProfile r.profile u = applied r.profile p u := releaseProfile_of_waiting (by rw [hprs]; exact he) hw
    rw [happlied] at hto
    refine ⟨_, event_to h hto, hleft rfl rfl rfl rfl, ?_, ?_, finish_raised _ _ ?_, ?_⟩
    · rw [finish_prs, ← hprs]
      rfl
    · rw [finish_prs, ← hprs]
      rfl
    · exact List.mem_append_left _ (applied_raises _ _ _)
    · exact ((((((hframe.within).prs _).marked 1).raised .profileApplied)).raised .held).finish s

end Sys2Proof.Machine
end

section
/-! PROOFS. A burst as the HMP takes it (R31, R53 to R55, R58, R60; O44). -/

namespace Sys2Proof.Machine

set_option Elab.async false

theorem exec_hostBurst {b : HostBurst} (h : b.wf = true) (s : State) :
    exec (.hostBurst b) s = event s (presentBurst b) := if_pos h

theorem presentBurst_serves {s : State} (h : s.hmp.path = .run ∨ s.hmp.path = .entering) (b : HostBurst) :
    presentBurst b s = offerBurst b s := by
  rcases h with h | h <;> simp only [presentBurst, h]

/-! ### The beats in range (R53, R55) -/

theorem countP_range_lt (n m : Nat) : (List.range n).countP (fun k => decide (k < m)) = min n m := by
  induction n with
  | zero => simp
  | succ n ih =>
    rw [List.range_succ, List.countP_append, ih]
    by_cases h : n < m <;> simp [h] <;> omega

/-- A burst ascends: its beats in range are its first ones. -/
theorem inRange_beatAddr (a : BitVec 32) (k : Nat) :
    inRange (beatAddr a k) = decide (k < (0x40000000 - a.toNat / 4 * 4) / 4) := by
  refine decide_eq_decide.2 ?_
  simp only [beatAddr, Config.dramTop]
  omega

theorem inRangeCount_eq (a : BitVec 32) (n : Nat) :
    inRangeCount a n = min n ((0x40000000 - a.toNat / 4 * 4) / 4) := by
  simp only [inRangeCount, inRange_beatAddr]
  exact countP_range_lt _ _

theorem filter_zipIdx_lt {α : Type} (l : List α) (m j : Nat) :
    (l.zipIdx j).filter (fun b => decide (b.2 < j + m)) = (l.take m).zipIdx j := by
  induction l generalizing m j with
  | nil => simp
  | cons a l ih =>
    cases m with
    | zero =>
      refine List.filter_eq_nil_iff.2 fun b hb => ?_
      have hle := (List.mem_zipIdx hb).1
      simp only [decide_eq_true_eq]
      omega
    | succ m =>
      have hstep : (fun b : α × Nat => decide (b.2 < j + (m + 1))) = fun b => decide (b.2 < j + 1 + m) := by
        funext b
        congr 1
        exact propext ⟨fun h => by omega, fun h => by omega⟩
      rw [List.zipIdx_cons, List.take_succ_cons, List.zipIdx_cons, List.filter_cons_of_pos (by simp), hstep, ih]

theorem postedBeats_eq (a : BitVec 32) (beats : List WriteBeat) : postedBeats a beats =
    ((beats.take ((0x40000000 - a.toNat / 4 * 4) / 4)).zipIdx).map fun b => ⟨beatAddr a b.2, b.1.data, b.1.enables⟩ := by
  have hfilter := filter_zipIdx_lt beats ((0x40000000 - a.toNat / 4 * 4) / 4) 0
  simp only [Nat.zero_add] at hfilter
  simp only [postedBeats, inRange_beatAddr, hfilter]

theorem postedBeats_getElem? {a : BitVec 32} {beats : List WriteBeat} {k : Nat} {b : WriteBeat}
    (hk : k < (0x40000000 - a.toNat / 4 * 4) / 4) (hb : beats[k]? = some b) :
    (postedBeats a beats)[k]? = some ⟨a.toNat / 4 * 4 + 4 * k, b.data, b.enables⟩ := by
  rw [postedBeats_eq, List.getElem?_map, List.getElem?_zipIdx, List.getElem?_take_of_lt hk, hb]
  simp [beatAddr]

theorem parityMarked_iff (a : BitVec 32) (beats : List WriteBeat) : parityMarked a beats = true ↔
    ∃ b ∈ beats.take ((0x40000000 - a.toNat / 4 * 4) / 4), WriteBeat.badParity b = true := by
  have hfilter := filter_zipIdx_lt beats ((0x40000000 - a.toNat / 4 * 4) / 4) 0
  simp only [Nat.zero_add] at hfilter
  have hmap : (((beats.take ((0x40000000 - a.toNat / 4 * 4) / 4)).zipIdx).any fun b => WriteBeat.badParity b.1) =
      (beats.take ((0x40000000 - a.toNat / 4 * 4) / 4)).any WriteBeat.badParity := by
    conv_rhs => rw [← List.zipIdx_map_fst 0 (beats.take _), List.any_map]
    rfl
  simp only [parityMarked, inRange_beatAddr]
  rw [← List.any_filter, hfilter, hmap, List.any_eq_true]

/-! ### What every burst counts (R31, R55) -/

theorem countViolation_onlyChanges (s : State) : OnlyChanges [.stb] s (countViolation s) := by
  unfold countViolation
  split
  · split
    · exact (OnlyChanges.refl [.stb] s).stb _
    · exact OnlyChanges.refl _ s
  · exact OnlyChanges.refl _ s

theorem countViolation_stb (s : State) : (countViolation s).stb = match s.exs.current with
    | some e => if s.exs.quietReq && s.pins.quietAck then
        s.stb.update e.shot fun r => { r with violations := min 255 (r.violations + 1) } else s.stb
    | none => s.stb := by
  unfold countViolation quietGranted
  cases s.exs.current <;> cases s.exs.quietReq && s.pins.quietAck <;> rfl

theorem countOutOfRange_onlyChanges (b : Bool) (s : State) : OnlyChanges [.outOfRange] s (countOutOfRange b s) := by
  refine ⟨by cases b <;> rfl, fun p hp _ => ?_⟩
  cases b <;> cases p <;> simp_all [Part.agree, countOutOfRange]

theorem countOutOfRange_outOfRange (b : Bool) (s : State) : (countOutOfRange b s).hmp.outOfRange =
    if b then min 4294967295 (s.hmp.outOfRange + 1) else s.hmp.outOfRange := by
  cases b <;> rfl

/-- A burst counted. -/
def counted (b : Bool) (s : State) : State := countOutOfRange b (countViolation s)

theorem counted_onlyChanges (b : Bool) (s : State) : OnlyChanges [.stb, .outOfRange] s (counted b s) :=
  (countViolation_onlyChanges s).within.andThen (countOutOfRange_onlyChanges b _)

theorem counted_stb (b : Bool) (s : State) : (counted b s).stb = (countViolation s).stb :=
  (countOutOfRange_onlyChanges b _).2 .stb (by decide) (by decide)

theorem counted_outOfRange (b : Bool) (s : State) : (counted b s).hmp.outOfRange =
    if b then min 4294967295 (s.hmp.outOfRange + 1) else s.hmp.outOfRange := by
  have hsame : (countViolation s).hmp.outOfRange = s.hmp.outOfRange :=
    (countViolation_onlyChanges s).2 .outOfRange (by decide) (by decide)
  rw [counted, countOutOfRange_outOfRange, hsame]

/-! ### Reads (R60) -/

/-- A read that waits behind posted bursts. -/
def withRead (r : WaitingRead) (s : State) : State := { s with hmp := { s.hmp with reads := s.hmp.reads ++ [r] } }

theorem withRead_onlyChanges (r : WaitingRead) (s : State) : OnlyChanges [] s (withRead r s) := by
  refine ⟨rfl, fun p _ hp => ?_⟩
  cases p <;> simp_all [Part.agree, withRead, followUp]

theorem takeRead_eq {a : BitVec 32} {n m : Nat} (hm : inRangeCount a n = m) (s : State) : takeRead a n s =
    if m = 0 then respond ⟨false, true, List.replicate n (0, parityBits 0)⟩ (counted (decide (m < n)) s)
    else match ((counted (decide (m < n)) s).hmp.queue.filter fun p => p.touches (beatAddr a 0) (4 * m)).map (·.id) with
      | [] => present ⟨.hostRead n, beatAddr a 0, 4 * m, [], false⟩ (counted (decide (m < n)) s)
      | ids => withRead ⟨beatAddr a 0, n, ids⟩ (counted (decide (m < n)) s) := by
  subst hm
  rfl

theorem presentMirror_hmp (s : State) : (presentMirror s).hmp = s.hmp := by
  unfold presentMirror
  split
  · rfl
  · split <;> rfl

theorem presentMap_hmp (s : State) : (presentMap s).hmp = s.hmp := by
  unfold presentMap
  split
  · rfl
  · split <;> rfl

/-- A read keeps waiting while a burst it waits for is in the queue. -/
theorem finish_keeps_read {b u : State} {r : WaitingRead} {p : Posted} (hr : r ∈ u.hmp.reads) (hp : p ∈ u.hmp.queue)
    (hid : p.id ∈ r.after) : r ∈ (finish b u).hmp.reads := by
  have hstop (s : State) : (stopMonitor s).hmp = s.hmp := by
    unfold stopMonitor
    split <;> rfl
  have hstays : (r.after.all fun i => u.hmp.queue.all fun q => q.id != i) = false :=
    List.all_eq_false.2 ⟨p.id, hid, by
      simp only [Bool.not_eq_true, List.all_eq_false]
      exact ⟨p, hp, by simp⟩⟩
  rw [finish, hstop]
  unfold presentWork
  split
  · simp only [releaseReads, presentMap_hmp, presentMirror_hmp]
    exact List.mem_filter.2 ⟨hr, by simp only [hstays, Bool.not_false]⟩
  · exact hr

/-! ### Writes (R54, R58) -/

/-- A burst posted. -/
def withPosted (p : Posted) (s : State) : State :=
  { s with hmp := { s.hmp with queue := s.hmp.queue ++ [p], nextId := s.hmp.nextId + 1 } }

theorem withPosted_onlyChanges (p : Posted) (s : State) : OnlyChanges [.posted] s (withPosted p s) := by
  refine ⟨rfl, fun q hq _ => ?_⟩
  cases q <;> simp_all [Part.agree, withPosted]

theorem takeWrite_eq {a : BitVec 32} {beats : List WriteBeat} {m : Nat} (hm : (postedBeats a beats).length = m)
    (s : State) : takeWrite a beats s =
      let u := respond ⟨true, decide (m < beats.length), []⟩ (counted (decide (m < beats.length)) s)
      if postedBeats a beats = [] then u
      else withPosted { id := u.hmp.nextId, beats := postedBeats a beats, parity := parityMarked a beats } u := by
  subst hm
  rfl

theorem holdBurst_onlyChanges (b : HostBurst) (s : State) : OnlyChanges [.posted] s (holdBurst b s) := by
  refine ⟨rfl, fun q hq _ => ?_⟩
  cases q <;> simp_all [Part.agree, holdBurst]

/-- Settles O44: the beats in range, what is counted, and the ways of a read and of a write. -/
theorem burstTaken : Obligations.BurstTaken := by
  intro s h hpath counted' out
  have hcounted {t : State} {b : Bool} (ht : t.stb = (counted b s).stb) : counted' t :=
    ht.trans ((counted_stb b s).trans (countViolation_stb s))
  have hout {v : State} {b : Bool} (hv : v.hmp.outOfRange = (counted b s).hmp.outOfRange) : out b (finish s v) :=
    (finish_hmp_outOfRange s v).trans (hv.trans (counted_outOfRange b s))
  have hserves (b : HostBurst) : presentBurst b s = offerBurst b s := presentBurst_serves hpath b
  refine ⟨fun a n hn hn8 => ?_, fun a beats hn hn8 => ?_⟩
  · intro base m touches
    have hm : inRangeCount a n = m := inRangeCount_eq a n
    have hexec : exec (.hostBurst (.read a n)) s = event s (presentBurst (.read a n)) :=
      exec_hostBurst (by simp [HostBurst.wf, hn, hn8]) s
    have hto : presentBurst (.read a n) s = takeRead a n s := hserves _
    have hqueue (b : Bool) : (counted b s).hmp.queue = s.hmp.queue :=
      ((counted_onlyChanges b s).2 .posted (by decide) (by decide)).1
    have htouches (p : Posted) : p.touches base (4 * m) = true ↔ touches p := by
      simp only [Posted.touches, List.any_eq_true, decide_eq_true_eq]
      rfl
    have hframe := counted_onlyChanges (decide (m < n)) s
    rw [hexec]
    rw [takeRead_eq hm] at hto
    have hreads (h0 : 0 < m) := hto.trans (if_neg h0.ne')
    refine ⟨fun h0 => ?_, fun h0 hfree => ?_, fun h0 hblocked => ?_⟩
    · have hall : decide (m < n) = true := decide_eq_true (by omega)
      rw [hall] at hto
      exact ⟨_, event_to h (hto.trans (if_pos h0)), hcounted (b := true) (finish_stb _ _), hout (b := true) rfl,
        finish_hmp_response _ _, ((counted_onlyChanges true s).within.andThen (respond_onlyChanges _ _)).finish s⟩
    · have hnone : ((counted (decide (m < n)) s).hmp.queue.filter fun p => p.touches base (4 * m)).map (·.id) = [] := by
        rw [hqueue, List.map_eq_nil_iff, List.filter_eq_nil_iff]
        exact fun p hp => by simpa [htouches] using hfree p hp
      have hpresent := hreads h0
      rw [show beatAddr a 0 = base from rfl, hnone] at hpresent
      exact ⟨_, event_to h hpresent, hcounted (finish_stb _ _), hout rfl,
        finish_presented _ _ (List.mem_append_right _ List.mem_cons_self), (hframe.presented _).finish s⟩
    · obtain ⟨p, hp, htp⟩ := hblocked
      set ids := ((counted (decide (m < n)) s).hmp.queue.filter fun p => p.touches base (4 * m)).map (·.id) with hids
      have hmem (i : Nat) : i ∈ ids ↔ ∃ p ∈ s.hmp.queue, touches p ∧ p.id = i := by
        simp only [hids, hqueue, List.mem_map, List.mem_filter, htouches, and_assoc]
      have hin : p.id ∈ ids := (hmem _).2 ⟨p, hp, htp, rfl⟩
      obtain ⟨i, more, hcons⟩ := List.exists_cons_of_ne_nil (List.ne_nil_of_mem hin)
      have hwait : presentBurst (.read a n) s = withRead ⟨base, n, ids⟩ (counted (decide (m < n)) s) := by
        refine (hreads h0).trans ?_
        rw [show beatAddr a 0 = base from rfl, ← hids, hcons]
      refine ⟨_, event_to h hwait, hcounted (finish_stb _ _), hout rfl, ⟨⟨base, n, ids⟩, ?_, rfl, rfl, hmem⟩,
        (hframe.andThen (withRead_onlyChanges _ _)).finish s⟩
      exact finish_keeps_read (List.mem_append_right _ List.mem_cons_self) (by change p ∈ (counted _ s).hmp.queue; rwa [hqueue]) hin
  · intro base m c taken
    have hexec : exec c s = event s (presentBurst (.write a beats)) :=
      exec_hostBurst (by simp [HostBurst.wf, hn, hn8]) s
    have hlength : (postedBeats a beats).length = m := by
      rw [postedBeats_eq, List.length_map, List.length_zipIdx, List.length_take, Nat.min_comm]
    rw [hexec]
    set u := respond ⟨true, decide (m < beats.length), []⟩ (counted (decide (m < beats.length)) s) with hu
    have hframe : OnlyChanges [.stb, .outOfRange, .response] s u :=
      (counted_onlyChanges (decide (m < beats.length)) s).within.andThen (respond_onlyChanges _ _)
    have hposted := hframe.2 .posted (by decide) (by decide)
    have htaken {v : State} (hw : s.hmp.waiting = []) (hstb : v.stb = u.stb) (hover : v.hmp.outOfRange = u.hmp.outOfRange)
        (hresponse : v.hmp.response = u.hmp.response) (hwaiting : v.hmp.waiting = u.hmp.waiting) : taken (finish s v) := by
      refine ⟨hcounted ((finish_stb _ _).trans hstb), hout hover, ?_, ?_⟩
      · rw [finish_hmp_response, hresponse]
        rfl
      · rw [finish_hmp_waiting, hwaiting, hposted.2.1, hw]
    have hto (hroom : s.hmp.queue.length < 8) (hw : s.hmp.waiting = []) :
        presentBurst (.write a beats) s = takeWrite a beats s := (hserves _).trans (if_pos ⟨hroom, hw⟩)
    refine ⟨fun hroom hw h0 => ?_, fun hroom hw h0 => ?_, fun hfull => ?_⟩
    · have hnil : postedBeats a beats = [] := List.length_eq_zero_iff.1 (by rw [hlength, h0])
      have hwrite : takeWrite a beats s = u := by
        rw [takeWrite_eq hlength]
        exact if_pos hnil
      exact ⟨_, event_to h ((hto hroom hw).trans hwrite), htaken hw rfl rfl rfl rfl, hframe.finish s⟩
    · have hsome : postedBeats a beats ≠ [] := fun hnil => by
        rw [hnil] at hlength
        exact h0.ne hlength
      set p : Posted := { id := u.hmp.nextId, beats := postedBeats a beats, parity := parityMarked a beats } with hp
      have hwrite : takeWrite a beats s = withPosted p u := by
        rw [takeWrite_eq hlength]
        exact if_neg hsome
      have hle : m ≤ (0x40000000 - base) / 4 := Nat.min_le_right _ _
      have htake : beats.take ((0x40000000 - base) / 4) = beats.take m := by
        rw [List.take_eq_take_iff]
        omega
      refine ⟨_, p, event_to h ((hto hroom hw).trans hwrite), htaken hw rfl rfl rfl rfl, ?_, hlength, fun k b hk hb => ?_, ?_, rfl,
        ((hframe.within).andThen (withPosted_onlyChanges _ _)).finish s⟩
      · rw [finish_hmp_queue, ← hposted.1]
        rfl
      · exact postedBeats_getElem? (hk.trans_le hle) hb
      · rw [← htake]
        exact parityMarked_iff a beats
    · have hwait : presentBurst (.write a beats) s = holdBurst (.write a beats) s := by
        refine (hserves _).trans (if_neg ?_)
        rintro ⟨hroom, hw⟩
        rcases hfull with hf | hf
        · omega
        · exact hf hw
      exact ⟨_, event_to h hwait, finish_hmp_waiting _ _, finish_hmp_queue _ _, (holdBurst_onlyChanges _ s).finish s⟩

end Sys2Proof.Machine
end

section
/-! PROOFS. What the handling of capture beats can change, and that it looks at nothing but the Shot Table, the map, the
profiles and the readout (R87 to R108). -/

namespace Sys2Proof.Machine

set_option Elab.async false

/-! ### What it can change -/

/-- What handling capture beats makes of a state: the readout's parts, further occurrences, further transactions. -/
structure Handled (s u : State) : Prop where
  frame : OnlyChanges [.pce, .dfm, .stb, .prs] s u
  hmp : u.hmp = s.hmp
  raised : ∀ x ∈ s.rqe.raises, x ∈ u.rqe.raises
  kept : ∀ x ∈ s.fmc.pending, x ∈ u.fmc.pending
  jobs : u.rqe.jobs = s.rqe.jobs

theorem Handled.refl (s : State) : Handled s s := ⟨OnlyChanges.refl _ s, rfl, fun _ h => h, fun _ h => h, rfl⟩

theorem Handled.trans {s t u : State} (h : Handled s t) (k : Handled t u) : Handled s u :=
  ⟨h.frame.trans k.frame, k.hmp.trans h.hmp, fun x hx => k.raised x (h.raised x hx), fun x hx => k.kept x (h.kept x hx),
    k.jobs.trans h.jobs⟩

theorem withDfm_handled (d : Dfm) (s : State) : Handled s (withDfm d s) :=
  ⟨(withDfm_onlyChanges d s).within, rfl, fun _ h => h, fun _ h => h, rfl⟩

theorem withStb_handled (t : Stb) (s : State) : Handled s (withStb t s) :=
  ⟨(withStb_onlyChanges t s).within, rfl, fun _ h => h, fun _ h => h, rfl⟩

theorem withPce_handled (p : Pce) (s : State) : Handled s (withPce p s) :=
  ⟨(withPce_onlyChanges p s).within, rfl, fun _ h => h, fun _ h => h, rfl⟩

theorem raise_handled (f : EventFlag) (s : State) : Handled s (raise f s) :=
  ⟨(OnlyChanges.refl _ s).raised f, rfl, fun _ h => List.mem_append_left _ h, fun _ h => h, rfl⟩

theorem calibrate_handled (row column : Nat) (s : State) : Handled s (calibrate row column s) := by
  unfold calibrate
  split
  · exact withDfm_handled _ s
  · extract_lets first u
    split
    · exact (withDfm_handled _ s).trans (raise_handled _ _)
    · exact withDfm_handled _ s

theorem takePixel_handled (line x : Nat) (px : RawPixel) (w : Work) : Handled w.s (takePixel line x px w).2.s := by
  obtain e | e := takePixel_s w line x px <;> rw [e]
  · exact Handled.refl _
  · exact calibrate_handled _ _ _

/-- An active beat changes the state by its two pixels alone. -/
theorem takeActive_s (b : PostedBeat) (parity : Bool) (line x o : Nat) (w : Work) :
    (takeActive b parity line x o w).s = (takePixel line (x + 1) (b.pixel 1)
      (takePixel line x (b.pixel 0) { w with r := w.r.settleLine line }).2).2.s := by
  simp only [takeActive]
  split
  · split
    · exact release_s _ _ _
    · exact release_s _ _ _
  · exact release_s _ _ _

theorem takeBeat_handled (parity : Bool) (b : PostedBeat) (w : Work) : Handled w.s (takeBeat parity b w).s := by
  have hreach (o line : Nat) : Handled w.s (w.reach o line).s :=
    ((Handled.refl w.s).trans (withDfm_handled ((w.jump o).s.dfm.toLine line) w.s)).trans (by
      rw [Work.reach, jump_s]
      exact Handled.refl _)
  rw [takeBeat_eq]
  generalize w.s.stb.offsetIn w.r.slot b.addr = o
  unfold takeBeatAt
  extract_lets g _ _ line at_
  split
  · rw [emitRaw_s, jump_s]
    exact Handled.refl _
  split
  · exact Handled.refl _
  split
  · rw [takeMasked_s]
    exact hreach o line
  split
  · rw [takeActive_s]
    set v : Work := { w.reach o line with r := (w.reach o line).r.settleLine line }
    have hv : v.s = (w.reach o line).s := rfl
    exact (hreach o line).trans (hv ▸ (takePixel_handled _ _ _ v).trans (takePixel_handled _ _ _ _))
  · rw [emitRaw_s]
    exact hreach o line

theorem takeBeats_handled (parity : Bool) (bs : List PostedBeat) (w : Work) : Handled w.s (takeBeats parity bs w).s := by
  induction bs generalizing w with
  | nil => exact Handled.refl _
  | cons b bs ih => exact (takeBeat_handled parity b w).trans (ih _)

theorem present_handled (x : Txn) (s : State) : Handled s (present x s) :=
  ⟨(OnlyChanges.refl _ s).presented x, rfl, fun _ h => h, fun _ h => List.mem_append_left _ h, rfl⟩

theorem presentRuns_handled (runs : List WordRun) (s : State) : Handled s (presentRuns runs s) := by
  induction runs generalizing s with
  | nil => exact Handled.refl s
  | cons l ls ih =>
    rw [presentRuns]
    split
    · exact ih s
    · exact (present_handled _ s).trans (ih _)

theorem releaseProfile_handled (n : Nat) (s : State) : Handled s (releaseProfile n s) := by
  unfold releaseProfile
  split
  · split
    · exact ⟨((((OnlyChanges.refl [.pce, .dfm, .stb, .prs] s).prs _).marked 1).raised .profileApplied), rfl,
        fun x hx => List.mem_append_left _ (by rw [mark, mark_raises]; exact hx), fun _ h => h, mark_jobs _ 1⟩
    · exact Handled.refl s
  · exact Handled.refl s

theorem leaveReadout_handled (r : Readout) (s : State) : Handled s (leaveReadout r s) := by
  unfold leaveReadout
  extract_lets cal profile s1 s2
  have h1 : Handled s s1 := ((withPce_handled ⟨none, none⟩ s).trans (withDfm_handled s.dfm.readoutEnd _)).trans
    (withStb_handled (s.stb.move r.shot (if cal then .calibrated else .held)) _)
  have h2 : Handled s s2 := by
    simp only [s2, profile]
    split
    · exact h1.trans (releaseProfile_handled _ _)
    · exact h1
  split
  · exact h2
  · exact h2.trans (raise_handled _ _)

theorem endReadout_handled (incomplete : Bool) (r : Readout) (s : State) : Handled s (endReadout incomplete r s) := by
  unfold endReadout
  extract_lets w s1 s2 cal s3
  have hw : w.s = s := release_s { s := s, r := r, runs := [] } none none
  have h1 : Handled s s1 := by
    simp only [s1, hw]
    exact presentRuns_handled _ s
  have h2 : Handled s s2 := h1.trans (withStb_handled _ _)
  have h3 : Handled s s3 := by
    simp only [s3]
    split
    · exact h2.trans (withDfm_handled _ _)
    · exact h2
  split
  · exact h3.trans (withPce_handled _ _)
  · exact h3.trans (leaveReadout_handled _ _)

theorem takeCapture_handled (parity : Bool) (beats : List PostedBeat) (s : State) : Handled s (takeCapture parity beats s) := by
  unfold takeCapture
  split
  · exact Handled.refl s
  · rename_i r _
    split
    · exact Handled.refl s
    · extract_lets w s1 _ s2
      have h1 : Handled s s1 := (takeBeats_handled parity beats ⟨s, r, []⟩).trans (presentRuns_handled _ _)
      have h2 : Handled s s2 := h1.trans (withPce_handled _ _)
      split
      · exact h2.trans (endReadout_handled _ _ _)
      · exact h2

theorem restartIdle_handled (s : State) : Handled s (restartIdle s) := by
  unfold restartIdle
  split
  · split
    · exact Handled.refl s
    · exact withPce_handled _ s
  · exact Handled.refl s

/-! ### What it looks at -/

/-- Two states with the same table, map, readout and profiles; the words of the one handed to the FMC are handed to it in
the other. -/
structure Alike (s u : State) : Prop where
  stb : u.stb = s.stb
  dfm : u.dfm = s.dfm
  pce : u.pce = s.pce
  prs : u.prs = s.prs
  words : ∀ x ∈ u.fmc.pending, x.kind = .captureWrite → x ∈ s.fmc.pending

/-- The same readout at work in two such states. -/
structure SameWork (w v : Work) : Prop where
  readout : v.r = w.r
  runs : v.runs = w.runs
  state : Alike w.s v.s

section Alike

variable {s u : State}

theorem Alike.withDfm (h : Alike s u) (d : Dfm) : Alike (withDfm d s) (withDfm d u) :=
  ⟨h.stb, rfl, h.pce, h.prs, h.words⟩

theorem Alike.withStb (h : Alike s u) (t : Stb) : Alike (withStb t s) (withStb t u) :=
  ⟨rfl, h.dfm, h.pce, h.prs, h.words⟩

theorem Alike.withPce (h : Alike s u) (p : Pce) : Alike (withPce p s) (withPce p u) :=
  ⟨h.stb, h.dfm, rfl, h.prs, h.words⟩

theorem Alike.raise (h : Alike s u) (f : EventFlag) : Alike (raise f s) (raise f u) :=
  ⟨h.stb, h.dfm, h.pce, h.prs, h.words⟩

theorem Alike.present (h : Alike s u) (x : Txn) : Alike (present x s) (present x u) := by
  refine ⟨h.stb, h.dfm, h.pce, h.prs, fun y hy hk => ?_⟩
  rcases List.mem_append.1 hy with hy | hy
  · exact List.mem_append_left _ (h.words y hy hk)
  · exact List.mem_append_right _ hy

theorem Alike.calibrate (h : Alike s u) (row column : Nat) : Alike (calibrate row column s) (calibrate row column u) := by
  unfold Machine.calibrate
  rw [h.dfm]
  split
  · exact h.withDfm _
  · dsimp only
    split
    · exact (h.withDfm _).raise _
    · exact h.withDfm _

theorem Alike.presentRuns (h : Alike s u) (runs : List WordRun) : Alike (presentRuns runs s) (presentRuns runs u) := by
  induction runs generalizing s u with
  | nil => exact h
  | cons l ls ih =>
    rw [Machine.presentRuns, Machine.presentRuns]
    split
    · exact ih h
    · exact ih (h.present _)

theorem Alike.releaseProfile (h : Alike s u) (n : Nat) : Alike (releaseProfile n s) (releaseProfile n u) := by
  unfold Machine.releaseProfile
  rw [h.prs]
  split
  · split
    · exact ⟨h.stb, h.dfm, h.pce, rfl, h.words⟩
    · exact h
  · exact h

/-- The profile of a record given up, if there is one. -/
def gaveUp (m : Option Nat) (s : State) : State := match m with
  | some n => Machine.releaseProfile n s
  | none => s

theorem leaveReadout_eq (r : Readout) (s : State) : leaveReadout r s =
    if ((s.stb.find r.shot).map (·.flags.darkCal)).getD false then
      gaveUp ((s.stb.find r.shot).map (·.profile)) (readoutLeft r.shot .calibrated s)
    else raise .held (gaveUp ((s.stb.find r.shot).map (·.profile)) (readoutLeft r.shot .held s)) := by
  rcases hcal : ((s.stb.find r.shot).map (·.flags.darkCal)).getD false with _ | _
  all_goals
    simp only [leaveReadout, hcal]
    rfl

theorem Alike.leaveReadout (h : Alike s u) (r : Readout) : Alike (leaveReadout r s) (leaveReadout r u) := by
  have hleft (p : Phase) : Alike (readoutLeft r.shot p s) (readoutLeft r.shot p u) := by
    unfold readoutLeft
    rw [h.stb, h.dfm]
    exact ((h.withPce _).withDfm _).withStb _
  have hgave (m : Option Nat) (p : Phase) : Alike (gaveUp m (readoutLeft r.shot p s)) (gaveUp m (readoutLeft r.shot p u)) := by
    rcases m with _ | n
    · exact hleft p
    · exact (hleft p).releaseProfile n
  rw [leaveReadout_eq, leaveReadout_eq, h.stb]
  split
  · exact hgave _ _
  · exact (hgave _ _).raise _

end Alike

/-! ### One active pixel (R99, R100, R123) -/

/-- A received pixel counted: the last of a line completes it (R104). -/
def Readout.taken (r : Readout) (x : Nat) : Readout :=
  if x + 1 = r.image.width then { r with stats := { r.stats with lines := satAdd 9216 r.stats.lines 1 } } else r

/-- The developed value of a pixel, and whether it was clipped (R93 to R98). -/
def Readout.valueOf (r : Readout) (line x v : Nat) : Nat × Bool :=
  r.image.develop v (r.black (x % 2 == 1)) (natOr0 r.dark) x line

/-- A developed pixel counted (R104). -/
def Readout.valued (r : Readout) (line x v : Nat) : Readout :=
  { r with stats := { r.stats.countValue (r.valueOf line x v).1 with
    clipped := satAdd max32 (r.stats.countValue (r.valueOf line x v).1).clipped (bit (r.valueOf line x v).2) } }

/-- A received pixel that has been counted: covered, or developed and, in a dark calibration, tested (R99, R100, R123). -/
def takeReceived (line x v : Nat) (w : Work) : PixelSlot × Work :=
  if w.s.dfm.covers line (w.r.image.masked + x) then (.covered, w)
  else (.value (w.r.valueOf line x v).1,
    if (⟨w.s, w.r.valued line x v, w.runs⟩ : Work).calibrating && decide (w.r.black (x % 2 == 1) + w.r.image.hot < v) then
      ⟨calibrate line (w.r.image.masked + x) w.s, w.r.valued line x v, w.runs⟩
    else ⟨w.s, w.r.valued line x v, w.runs⟩)

theorem takePixel_received (line x v : Nat) (w : Work) : takePixel line x (.received v) w =
    takeReceived line x v ⟨w.s, w.r.taken x, w.runs⟩ := by
  by_cases hx : x + 1 = w.r.image.width
  · simp only [takePixel, Readout.taken, hx, if_true]
    rfl
  · simp only [takePixel, Readout.taken, hx, if_false]
    rfl

/-! ### An active beat's word (R99 to R103) -/

/-- The left neighbours of a word, if they stand right before it. -/
def Readout.leftOf (r : Readout) (x o : Nat) : Option LastWord :=
  if x < 2 then none else r.last.filter fun l => l.offset + 4 == o

/-- The word of an active beat that needs a neighbour. -/
def Readout.wordAt (r : Readout) (even odd : PixelSlot) (parity : Bool) (line x o : Nat) : HeldWord :=
  { offset := o, line := line, x := x, even := even, odd := odd, leftEven := (r.leftOf x o).bind (·.even),
    leftOdd := (r.leftOf x o).bind (·.odd), parity := parity }

/-- The beat's pixels as the next beat's left neighbours. -/
def Readout.passed (r : Readout) (even odd : PixelSlot) (o : Nat) : Readout :=
  { r with last := some { offset := o, even := even.developed, odd := odd.developed } }

/-- The word of an active beat: the one before it is released, and it is handed on, settled, or waits (R101 to R103). -/
def placeWord (even odd : PixelSlot) (parity : Bool) (line x o : Nat) (w : Work) : Work :=
  let u := w.release even.developed odd.developed
  if even = .covered ∨ odd = .covered then
    if x + 2 < u.r.image.width then
      ⟨u.s, { u.r.passed even odd o with wait := some (u.r.wordAt even odd parity line x o) }, closeRun u.runs⟩
    else (⟨u.s, u.r.passed even odd o, u.runs⟩ : Work).settleWord (u.r.wordAt even odd parity line x o) none none false
  else (⟨u.s, u.r.passed even odd o, u.runs⟩ : Work).emit o even odd parity false

theorem takeActive_eq (b : PostedBeat) (parity : Bool) (line x o : Nat) (w : Work) : takeActive b parity line x o w =
    placeWord (takePixel line x (b.pixel 0) { w with r := w.r.settleLine line }).1
      (takePixel line (x + 1) (b.pixel 1) (takePixel line x (b.pixel 0) { w with r := w.r.settleLine line }).2).1
      parity line x o
      (takePixel line (x + 1) (b.pixel 1) (takePixel line x (b.pixel 0) { w with r := w.r.settleLine line }).2).2 := rfl

section SameWork

variable {w v : Work}

theorem SameWork.settlePixel (h : SameWork w v) (line x : Nat) (left right : Option Nat) (p : PixelSlot) :
    settlePixel v line x left right p = settlePixel w line x left right p := by
  cases p <;> simp only [Machine.settlePixel, h.readout, h.state.dfm]

theorem SameWork.emit (h : SameWork w v) (o : Nat) (even odd : PixelSlot) (parity closed : Bool) :
    SameWork (w.emit o even odd parity closed) (v.emit o even odd parity closed) :=
  ⟨h.readout, by simp only [Work.emit, Work.addr, h.readout, h.runs, h.state.stb], h.state⟩

theorem SameWork.withReadout (h : SameWork w v) (r : Readout) : SameWork { w with r := r } { v with r := r } :=
  ⟨rfl, h.runs, h.state⟩

theorem SameWork.settleWord (h : SameWork w v) (g : HeldWord) (re ro : Option Nat) (closed : Bool) :
    SameWork (w.settleWord g re ro closed) (v.settleWord g re ro closed) := by
  simp only [Work.settleWord, h.settlePixel, h.readout]
  have h1 := h.withReadout { w.r with stats := (Machine.settlePixel w g.line g.x g.leftEven re g.even).2 }
  rw [h1.settlePixel]
  exact (h1.withReadout _).emit _ _ _ _ _

theorem SameWork.release (h : SameWork w v) (re ro : Option Nat) : SameWork (w.release re ro) (v.release re ro) := by
  unfold Work.release
  rw [h.readout]
  split
  · exact h
  · exact (h.withReadout _).settleWord _ _ _ _

theorem SameWork.jump (h : SameWork w v) (o : Nat) : SameWork (w.jump o) (v.jump o) := by
  unfold Work.jump
  rw [h.readout]
  split
  · have h1 := (h.withReadout { w.r with stats :=
      { w.r.stats with gaps := satAdd max32 w.r.stats.gaps ((o - w.r.cursor) / 4) } }).release none none
    dsimp only
    rw [h1.readout]
    exact h1.withReadout _
  · exact h

theorem SameWork.takePixel (h : SameWork w v) (line x : Nat) (px : RawPixel) :
    (takePixel line x px v).1 = (takePixel line x px w).1 ∧ SameWork (takePixel line x px w).2 (takePixel line x px v).2 := by
  cases px with
  | received n =>
    have hcal (r : Readout) (runs : List WordRun) : (⟨v.s, r, runs⟩ : Work).calibrating = (⟨w.s, r, runs⟩ : Work).calibrating := by
      simp only [Work.calibrating, h.state.stb]
    rw [takePixel_received, takePixel_received, h.readout, h.runs]
    unfold takeReceived
    rw [h.state.dfm, hcal]
    split
    · exact ⟨rfl, rfl, rfl, h.state⟩
    · refine ⟨rfl, ?_⟩
      dsimp only
      split
      · exact ⟨rfl, rfl, h.state.calibrate _ _⟩
      · exact ⟨rfl, rfl, h.state⟩
  | absent | half =>
    simp only [Machine.takePixel, h.readout]
    exact ⟨trivial, h.withReadout _⟩

theorem SameWork.emitRaw (h : SameWork w v) (b : PostedBeat) (parity : Bool) : SameWork (w.emitRaw b parity) (v.emitRaw b parity) :=
  ⟨h.readout, by simp only [Work.emitRaw, h.runs], h.state⟩

theorem SameWork.takeMasked (h : SameWork w v) (b : PostedBeat) (parity : Bool) (line column o : Nat) :
    SameWork (takeMasked b parity line column o w) (takeMasked b parity line column o v) := by
  unfold Machine.takeMasked
  rw [h.readout, h.state.dfm]
  exact (h.withReadout _).emit _ _ _ _ _

theorem SameWork.placeWord (h : SameWork w v) (even odd : PixelSlot) (parity : Bool) (line x o : Nat) :
    SameWork (placeWord even odd parity line x o w) (placeWord even odd parity line x o v) := by
  have hreleased := h.release even.developed odd.developed
  have hplaced (q : Readout) (runs : List WordRun) : SameWork ⟨(w.release even.developed odd.developed).s, q, runs⟩
      ⟨(v.release even.developed odd.developed).s, q, runs⟩ := ⟨rfl, rfl, hreleased.state⟩
  unfold Machine.placeWord
  dsimp only
  rw [hreleased.readout, hreleased.runs]
  split
  · split
    · exact hplaced _ _
    · exact (hplaced _ _).settleWord _ _ _ _
  · exact (hplaced _ _).emit _ _ _ _ _

theorem SameWork.takeActive (h : SameWork w v) (b : PostedBeat) (parity : Bool) (line x o : Nat) :
    SameWork (takeActive b parity line x o w) (takeActive b parity line x o v) := by
  have hsettled : SameWork { w with r := w.r.settleLine line } { v with r := v.r.settleLine line } := by
    rw [h.readout]
    exact h.withReadout _
  obtain ⟨heven, hfirst⟩ := hsettled.takePixel line x (b.pixel 0)
  obtain ⟨hodd, hsecond⟩ := hfirst.takePixel line (x + 1) (b.pixel 1)
  rw [takeActive_eq, takeActive_eq, heven, hodd]
  exact hsecond.placeWord _ _ _ _ _ _

theorem SameWork.reach (h : SameWork w v) (o line : Nat) : SameWork (w.reach o line) (v.reach o line) := by
  have h1 := h.jump o
  unfold Work.reach
  dsimp only
  rw [h1.readout, h1.state.dfm]
  exact ⟨rfl, h1.runs, h1.state.withDfm _⟩

theorem SameWork.takeBeat (h : SameWork w v) (parity : Bool) (b : PostedBeat) :
    SameWork (takeBeat parity b w) (takeBeat parity b v) := by
  rw [takeBeat_eq, takeBeat_eq, h.readout, h.state.stb]
  generalize w.s.stb.offsetIn w.r.slot b.addr = o
  unfold takeBeatAt
  dsimp only
  rw [h.readout]
  split
  · exact (h.jump _).emitRaw _ _
  split
  · exact h.withReadout _
  split
  · exact (h.reach _ _).takeMasked _ _ _ _ _
  split
  · exact (h.reach _ _).takeActive _ _ _ _ _
  · exact (h.reach _ _).emitRaw _ _

theorem SameWork.takeBeats (h : SameWork w v) (parity : Bool) (bs : List PostedBeat) :
    SameWork (takeBeats parity bs w) (takeBeats parity bs v) := by
  induction bs generalizing w v with
  | nil => exact h
  | cons b bs ih => exact ih (h.takeBeat parity b)

end SameWork

section Capture

variable {s u : State}

/-- A calibration's readout that is over waits for the rewrite of its line, if that is in progress (R126). -/
def endOrWait (incomplete cal : Bool) (r : Readout) (s : State) : State :=
  if cal && s.dfm.rewrite.isSome then withPce ⟨some { r with ending := some incomplete }, none⟩ s else leaveReadout r s

/-- Whether a record is of a dark calibration. -/
def Stb.calibrates (t : Stb) (n : Nat) : Bool := ((t.find n).map (·.flags.darkCal)).getD false

/-- The end of the readout of shot `n`, its last word released (R105, R108, R126). -/
def endMeasured (incomplete : Bool) (n : Nat) (w : Work) : State :=
  let u := presentRuns w.runs w.s
  let t := u.stb.update n (measured w.r.stats incomplete)
  endOrWait incomplete (t.calibrates n) w.r
    (if t.calibrates n then withDfm u.dfm.endLine (withStb t u) else withStb t u)

theorem endReadout_eq (incomplete : Bool) (r : Readout) (s : State) :
    endReadout incomplete r s = endMeasured incomplete r.shot ((⟨s, r, []⟩ : Work).release none none) := rfl

theorem Alike.endReadout (h : Alike s u) (incomplete : Bool) (r : Readout) :
    Alike (endReadout incomplete r s) (endReadout incomplete r u) := by
  have hwork : SameWork ⟨s, r, []⟩ ⟨u, r, []⟩ := ⟨rfl, rfl, h⟩
  have hreleased := hwork.release none none
  have hruns := hreleased.state.presentRuns ((⟨s, r, []⟩ : Work).release none none).runs
  rw [endReadout_eq, endReadout_eq]
  unfold endMeasured
  dsimp only
  rw [hreleased.runs, hreleased.readout, hruns.stb, hruns.dfm]
  have hends (c : Bool) {a b : State} (hab : Alike a b) (q : Readout) :
      Alike (endOrWait incomplete c q a) (endOrWait incomplete c q b) := by
    unfold endOrWait
    rw [hab.dfm]
    split
    · exact hab.withPce _
    · exact hab.leaveReadout q
  refine hends _ ?_ _
  split
  · exact (hruns.withStb _).withDfm _
  · exact hruns.withStb _

theorem takeCapture_eq (parity : Bool) (beats : List PostedBeat) (s : State) : takeCapture parity beats s =
    match s.pce.readout with
    | none => s
    | some r =>
      if r.ending.isSome then s
      else
        let w := takeBeats parity beats ⟨s, r, []⟩
        let u := withPce { (presentRuns w.runs w.s).pce with readout := some w.r } (presentRuns w.runs w.s)
        if w.r.image.frameBytes ≤ w.r.cursor then endReadout false w.r u else u := rfl

theorem Alike.takeCapture (h : Alike s u) (parity : Bool) (beats : List PostedBeat) :
    Alike (takeCapture parity beats s) (takeCapture parity beats u) := by
  rw [takeCapture_eq, takeCapture_eq, h.pce]
  split
  · exact h
  · next r _ =>
    split
    · exact h
    · have hwork : SameWork ⟨s, r, []⟩ ⟨u, r, []⟩ := ⟨rfl, rfl, h⟩
      have htaken := hwork.takeBeats parity beats
      have hruns := htaken.state.presentRuns (Machine.takeBeats parity beats ⟨s, r, []⟩).runs
      dsimp only
      rw [htaken.runs, htaken.readout, hruns.pce]
      split
      · exact (hruns.withPce _).endReadout _ _
      · exact hruns.withPce _

theorem Alike.restartIdle (h : Alike s u) : Alike (restartIdle s) (restartIdle u) := by
  unfold Machine.restartIdle
  rw [h.pce]
  split
  · split
    · exact h
    · exact h.withPce _
  · exact h

theorem Alike.accepts (h : Alike s u) (beats : List PostedBeat) : accepts u beats = accepts s beats := by
  unfold Machine.accepts
  rw [h.pce, h.stb]

end Capture

end Sys2Proof.Machine
end

section
/-! PROOFS. The delivery of the burst at the head of the posted-write queue (R56 to R59, R94; O45). -/

namespace Sys2Proof.Machine

set_option Elab.async false

theorem exec_writeBurstDelivery (s : State) : exec .writeBurstDelivery s =
    event s fun s => if portOpen s then deliverHead s else s := rfl

/-! ### The classes of a beat (R56, R57) -/

/-- The areas only the part writes. -/
def Owned (a : Nat) : Prop := (0x3F000000 ≤ a ∧ a < 0x3F001000) ∨
  (0x3F002000 ≤ a ∧ a < 0x3F003000 ∧ 96 ≤ (a - 0x3F002000) % 128) ∨ (0x3F003000 ≤ a ∧ a < 0x3F005000) ∨
  (0x3F010000 ≤ a ∧ a < 0x3F020000)

theorem partOwned_iff (a : Nat) : partOwned a = true ↔ Owned a := by
  simp only [partOwned, decide_eq_true_eq, Owned, Config.statusBase, Config.ringBase, Config.shotMirror, Config.errorMirror,
    Config.errorMirrorEnd, Config.mapMirror, Config.stagingBase]
  omega

section Classes

variable (t : Stb) (a : Nat)

theorem classify_owned {t : Stb} {a : Nat} (h : Owned a) : classifyBeat t a = .guarded := if_pos ((partOwned_iff a).2 h)

theorem classify_pass_iff : classifyBeat t a = .pass ↔ ¬ Owned a ∧ (t.stateAt a = none ∨ t.stateAt a = some .free) := by
  rw [← partOwned_iff]
  unfold classifyBeat
  cases partOwned a
  · rcases t.stateAt a with _ | st
    · simp
    · cases st <;> simp
  · simp

theorem classify_capture_iff : classifyBeat t a = .capture ↔ ¬ Owned a ∧ t.stateAt a = some .readout := by
  rw [← partOwned_iff]
  unfold classifyBeat
  cases partOwned a
  · rcases t.stateAt a with _ | st
    · simp
    · cases st <;> simp
  · simp

theorem classify_guarded_iff : classifyBeat t a = .guarded ↔ ¬ (classifyBeat t a = .pass) ∧ ¬ (classifyBeat t a = .capture) := by
  cases classifyBeat t a <;> simp

/-- A slot lies in no area of the part. -/
theorem not_owned_of_slot {t : Stb} {a : Nat} {st : SlotState} (h : t.stateAt a = some st) : ¬ Owned a := by
  have hframe : inFrame a = true := by
    by_contra hout
    simp [Stb.stateAt, Stb.slotAt, hout] at h
  simp only [inFrame, decide_eq_true_eq, Config.frameBase, Config.frameEnd] at hframe
  unfold Owned
  omega

/-- The beats of a burst with an enabled byte. -/
def Posted.live (p : Posted) : List PostedBeat := p.beats.filter fun b => b.enables ≠ 0

/-- Those of a class. -/
def Posted.ofClass (p : Posted) (c : BeatClass) : List PostedBeat := p.live.filter fun b => classifyBeat t b.addr = c

/-- Whether one is guarded. -/
def Posted.guards (p : Posted) : Bool := p.live.any fun b => classifyBeat t b.addr = .guarded

/-- A burst of one class, its beats all with an enabled byte. -/
theorem Posted.live_of_enabled {p : Posted} (h : ∀ b ∈ p.beats, b.enables ≠ 0) : p.live = p.beats :=
  List.filter_eq_self.2 fun b hb => by simpa using h b hb

theorem Posted.ofClass_same {t : Stb} {p : Posted} {c : BeatClass} (h : ∀ b ∈ p.live, classifyBeat t b.addr = c) :
    p.ofClass t c = p.live := List.filter_eq_self.2 fun b hb => by simpa using h b hb

theorem Posted.ofClass_other {t : Stb} {p : Posted} {c d : BeatClass} (h : ∀ b ∈ p.live, classifyBeat t b.addr = c) (hd : d ≠ c) :
    p.ofClass t d = [] := List.filter_eq_nil_iff.2 fun b hb => by
  rw [h b hb]
  simpa using hd.symm

theorem Posted.guards_other {t : Stb} {p : Posted} {c : BeatClass} (h : ∀ b ∈ p.live, classifyBeat t b.addr = c)
    (hc : c ≠ .guarded) : p.guards t = false := List.any_eq_false.2 fun b hb => by
  rw [h b hb]
  simpa using hc

end Classes

/-! ### The delivery -/

section Delivery

variable {s : State} {p : Posted} {rest : List Posted}

def withQueue (q : List Posted) (s : State) : State := { s with hmp := { s.hmp with queue := q } }

theorem withQueue_fmc (q : List Posted) (s : State) : (withQueue q s).fmc = s.fmc := rfl

theorem withQueue_onlyChanges (q : List Posted) (s : State) : OnlyChanges [.posted] s (withQueue q s) := by
  refine ⟨rfl, fun p hp _ => ?_⟩
  cases p <;> simp_all [Part.agree, withQueue]

/-- A dropped burst counted. -/
def withDrop (s : State) : State := { s with hmp := { s.hmp with guardDrops := min 4294967295 (s.hmp.guardDrops + 1) } }

theorem withDrop_onlyChanges (s : State) : OnlyChanges [.guardDrops] s (withDrop s) := by
  refine ⟨rfl, fun p hp _ => ?_⟩
  cases p <;> simp_all [Part.agree, withDrop]

theorem dropGuarded_onlyChanges (b : Bool) (s : State) : OnlyChanges [.guardDrops] s (dropGuarded b s) := by
  cases b
  · exact OnlyChanges.refl _ s
  · exact (withDrop_onlyChanges s).raised .guard

theorem presentPass_onlyChanges (parity : Bool) (beats : List PostedBeat) (s : State) :
    OnlyChanges [] s (presentPass parity beats s) := by
  unfold presentPass
  split
  · exact OnlyChanges.refl _ s
  · exact (OnlyChanges.refl _ s).presented _

/-- The burst's guarded beats counted and its pass-through beats presented. -/
def passedOn (p : Posted) (s : State) : State :=
  presentPass p.parity (p.ofClass s.stb .pass) (dropGuarded (p.guards s.stb) s)

theorem passedOn_unguarded {p : Posted} (h : p.guards s.stb = false) (hp : p.ofClass s.stb .pass = []) : passedOn p s = s := by
  rw [passedOn, h, hp]
  rfl

theorem passedOn_onlyChanges (p : Posted) (s : State) : OnlyChanges [.guardDrops] s (passedOn p s) :=
  (dropGuarded_onlyChanges _ s).andThen (presentPass_onlyChanges _ _ _)

theorem passedOn_pending (p : Posted) {s : State} {x : Txn} (hx : x ∈ s.fmc.pending) : x ∈ (passedOn p s).fmc.pending := by
  have hdrop : (dropGuarded (p.guards s.stb) s).fmc = s.fmc := by cases p.guards s.stb <;> rfl
  unfold passedOn presentPass
  split
  · rw [hdrop]
    exact hx
  · refine List.mem_append_left _ ?_
    rw [hdrop]
    exact hx

/-- The queue once the head's beats have been handed on, `held` of them held back. -/
def leftQueue (p : Posted) (rest : List Posted) (pass held : List PostedBeat) : List Posted :=
  if pass = [] ∧ held = [] then rest else { p with delivered := true, passWaits := !pass.isEmpty, heldBeats := held } :: rest

theorem deliverHead_eq (hq : s.hmp.queue = p :: rest) (hd : p.delivered = false) (hw : s.hmp.waiting = []) {v : State}
    {held : List PostedBeat} (ha : arriveCapture p.parity (p.ofClass s.stb .capture) (passedOn p s) = (v, held))
    (hv : v.hmp = (passedOn p s).hmp) :
    deliverHead s = withQueue (leftQueue p rest (p.ofClass s.stb .pass) held) v := by
  have hposted := (passedOn_onlyChanges p s).2 .posted (by decide) (by decide)
  have hqueue : v.hmp.queue = p :: rest := by rw [hv, hposted.1, hq]
  have hwaiting : v.hmp.waiting = [] := by rw [hv, hposted.2.1, hw]
  have hdeliver : deliverHead s = admitWaiting { v with hmp := v.hmp.settleHead fun q =>
      { q with delivered := true, passWaits := !(p.ofClass s.stb .pass).isEmpty, heldBeats := held } } := by
    simp only [passedOn, Posted.ofClass, Posted.guards, Posted.live] at ha ⊢
    simp only [deliverHead, hq, hd, ha]
    rfl
  have hsettled : (v.hmp.settleHead fun q =>
      { q with delivered := true, passWaits := !(p.ofClass s.stb .pass).isEmpty, heldBeats := held }) =
        { v.hmp with queue := leftQueue p rest (p.ofClass s.stb .pass) held } := by
    simp only [Hmp.settleHead, hqueue, leftQueue]
    cases p.ofClass s.stb .pass <;> cases held <;> simp
  have hadmit {u : State} (hu : u.hmp.waiting = []) : admitWaiting u = u := by
    have hsame : { u.hmp with waiting := [] } = u.hmp := by rw [← hu]
    simp only [admitWaiting, hu, List.foldl_nil, hsame]
  rw [hdeliver, hadmit (by rw [hsettled]; exact hwaiting), hsettled]
  rfl

/-- What the delivery leaves: the queue, the transaction of the beats that pass, and the drop counted. -/
theorem delivery_leaves {v : State} (hv : Handled (passedOn p s) v) (q : List Posted) :
    (finish s (withQueue q v)).hmp.queue = q ∧
    (∀ c more, p.ofClass s.stb .pass = c :: more → (⟨.hostWrite, c.addr, 4 * (p.ofClass s.stb .pass).length,
        (p.ofClass s.stb .pass).flatMap PostedBeat.cells, p.parity⟩ : Txn) ∈ (finish s (withQueue q v)).fmc.pending) ∧
    (finish s (withQueue q v)).hmp.guardDrops =
      (if p.guards s.stb then min 4294967295 (s.hmp.guardDrops + 1) else s.hmp.guardDrops) ∧
    (p.guards s.stb = true → Raised .guard (finish s (withQueue q v))) := by
  have hpass : (passedOn p s).hmp.guardDrops = (dropGuarded (p.guards s.stb) s).hmp.guardDrops :=
    (presentPass_onlyChanges _ _ _).2 .guardDrops (by decide) (by decide)
  refine ⟨finish_hmp_queue _ _, fun c more hc => ?_, ?_, fun hg => finish_raised _ _ (hv.raised _ ?_)⟩
  · obtain ⟨ts, hts⟩ := (finish_followUp s (withQueue q v)).added
    rw [hts]
    refine List.mem_append_left _ (hv.kept _ ?_)
    rw [passedOn, hc]
    exact List.mem_append_right _ List.mem_cons_self
  · rw [finish_hmp_guardDrops]
    change v.hmp.guardDrops = _
    rw [hv.hmp, hpass]
    cases p.guards s.stb <;> rfl
  · rw [passedOn, hg]
    unfold presentPass
    split <;> exact List.mem_append_right _ List.mem_cons_self

/-! ### The capture beats (R59, R94) -/

theorem arriveCapture_of_none (b : Bool) (s : State) : arriveCapture b [] s = (s, []) := if_pos rfl

theorem arriveCapture_taken {beats : List PostedBeat} (h : beats ≠ []) (b : Bool)
    (ha : accepts (restartIdle s) beats = true) : arriveCapture b beats s = (takeCapture b beats (restartIdle s), []) :=
  (if_neg h).trans (if_pos ha)

theorem arriveCapture_held {beats : List PostedBeat} (h : beats ≠ []) (b : Bool)
    (ha : ¬ accepts (restartIdle s) beats = true) : arriveCapture b beats s = (restartIdle s, beats) :=
  (if_neg h).trans (if_neg ha)

theorem restartIdle_of {o : Readout} (h : s.pce.readout = some o) (he : o.ending = none) :
    restartIdle s = withPce { s.pce with idle := some (o.image.idleLimit * 1000) } s := by
  simp only [restartIdle, h, he]
  rfl

/-- A beat that needs the dark offset: an active one at or after the cursor. -/
def NeedsOffset (t : Stb) (o : Readout) (b : PostedBeat) : Prop :=
  b.addr - t.slotBase o.slot < o.image.frameBytes ∧ o.cursor ≤ b.addr - t.slotBase o.slot ∧
    2 * o.image.masked ≤ (b.addr - t.slotBase o.slot) % o.image.pitch ∧
    (b.addr - t.slotBase o.slot) % o.image.pitch < 2 * (o.image.masked + o.image.width)

theorem accepts_iff {o : Readout} (h : s.pce.readout = some o) (he : o.ending = none) (beats : List PostedBeat) :
    accepts (restartIdle s) beats = true ↔ o.dark ≠ none ∨ ¬ ∃ b ∈ beats, NeedsOffset s.stb o b := by
  have hr : (restartIdle s).pce.readout = some o := by rw [restartIdle_of h he]; exact h
  have hstb : (restartIdle s).stb = s.stb := by rw [restartIdle_of h he]; rfl
  simp only [accepts, hr, hstb, he, Option.isSome_none, Bool.or_false, Bool.or_eq_true, Bool.not_eq_true',
    Option.isSome_iff_ne_none, List.any_eq_false, Readout.needsOffset, NeedsOffset, decide_eq_true_eq, not_exists, not_and]

end Delivery

/-! ### The words a command's end hands on -/

theorem presentMirror_words {s : State} {x : Txn} (hx : x ∈ (presentMirror s).fmc.pending) (hk : x.kind = .captureWrite) :
    x ∈ s.fmc.pending := by
  unfold presentMirror at hx
  split at hx
  · exact hx
  · split at hx
    · exact hx
    · rcases List.mem_append.1 hx with hx | hx
      · exact hx
      · rw [List.mem_singleton.1 hx] at hk
        cases hk

theorem presentMap_words {s : State} {x : Txn} (hx : x ∈ (presentMap s).fmc.pending) (hk : x.kind = .captureWrite) :
    x ∈ s.fmc.pending := by
  unfold presentMap at hx
  split at hx
  · exact hx
  · split at hx
    · exact hx
    · rcases List.mem_append.1 hx with hx | hx
      · exact hx
      · rw [List.mem_singleton.1 hx] at hk
        cases hk

/-- The end of a command hands no word of a readout to the FMC. -/
theorem finish_words {b u : State} {x : Txn} (hx : x ∈ (finish b u).fmc.pending) (hk : x.kind = .captureWrite) :
    x ∈ u.fmc.pending := by
  have hstop (s : State) : (stopMonitor s).fmc = s.fmc := by
    unfold stopMonitor
    split <;> rfl
  rw [finish, hstop] at hx
  unfold presentWork at hx
  split at hx
  · rcases List.mem_append.1 hx with hx | hx
    · exact presentMirror_words (s := { u with rqe := settleRqe b u }) (presentMap_words hx hk) hk
    · obtain ⟨r, -, rfl⟩ := List.mem_map.1 hx
      cases hk
  · exact hx

/-! ### The statement -/

section Statement

variable {s : State} {p : Posted} {rest : List Posted}

/-- The delivery as a step. -/
theorem delivery_step (h : s.resetHeld = false) (hpath : s.hmp.path = .run ∨ s.hmp.path = .entering)
    (hq : s.hmp.queue = p :: rest) (hd : p.delivered = false) (hw : s.hmp.waiting = []) {v : State} {held : List PostedBeat}
    (ha : arriveCapture p.parity (p.ofClass s.stb .capture) (passedOn p s) = (v, held)) (hv : Handled (passedOn p s) v) :
    exec .writeBurstDelivery s = .next (finish s (withQueue (leftQueue p rest (p.ofClass s.stb .pass) held) v)) := by
  have hopen : portOpen s = true := by
    rcases hpath with hp | hp <;> simp [portOpen, hp]
  rw [exec_writeBurstDelivery]
  exact event_to h ((if_pos hopen).trans (deliverHead_eq hq hd hw ha hv.hmp))

/-- The capture beats by themselves as the burst at the head. -/
theorem captures_alone (q : List PostedBeat) (hclass : ∀ b ∈ q, classifyBeat s.stb b.addr = .capture)
    (hlive : ∀ b ∈ q, b.enables ≠ 0) :
    let p' := { p with beats := q }
    p'.ofClass s.stb .capture = q ∧ p'.ofClass s.stb .pass = [] ∧ p'.guards s.stb = false := by
  intro p'
  have hall : p'.live = q := Posted.live_of_enabled (p := p') hlive
  have hc : ∀ b ∈ p'.live, classifyBeat s.stb b.addr = .capture := by rwa [hall]
  exact ⟨(Posted.ofClass_same hc).trans hall, Posted.ofClass_other hc (by decide), Posted.guards_other hc (by decide)⟩

end Statement

/-- Settles O45: the classes, the delivery of each, and the capture beats taken as a burst of their own. -/
theorem postedDelivery : Obligations.PostedDelivery := by
  intro s p rest h hpath hq hd hw owned barred
  have hpass (a : Nat) : classifyBeat s.stb a = .pass ↔ ¬ owned a ∧ (s.stb.stateAt a = none ∨ s.stb.stateAt a = some .free) :=
    classify_pass_iff s.stb a
  have hcapture (a : Nat) : classifyBeat s.stb a = .capture ↔ ¬ owned a ∧ s.stb.stateAt a = some .readout :=
    classify_capture_iff s.stb a
  refine ⟨fun b0 more hlive hbeats => ?_, ?_⟩
  · have hall : p.live = p.beats := Posted.live_of_enabled hlive
    refine ⟨fun hfree => ?_, fun hbarred => ?_, fun o ho hdark he hread hneeds => ?_⟩
    · have hclass : ∀ b ∈ p.live, classifyBeat s.stb b.addr = .pass := fun b hb => by
        obtain ⟨hnot, hst⟩ := hfree b (hall ▸ hb)
        refine (hpass b.addr).2 ⟨hnot, ?_⟩
        rcases hs : s.stb.stateAt b.addr with _ | st
        · exact .inl rfl
        · exact .inr (congrArg some (hst st hs))
      have hpasses : p.ofClass s.stb .pass = p.beats := (Posted.ofClass_same hclass).trans hall
      have hguards : p.guards s.stb = false := Posted.guards_other hclass (by decide)
      have harrive : arriveCapture p.parity (p.ofClass s.stb .capture) (passedOn p s) = (passedOn p s, []) := by
        rw [Posted.ofClass_other hclass (by decide), arriveCapture_of_none]
      have hstep := delivery_step h hpath hq hd hw harrive (Handled.refl _)
      obtain ⟨hqueue, htxn, -, -⟩ := delivery_leaves (Handled.refl (passedOn p s)) (leftQueue p rest (p.ofClass s.stb .pass) [])
      have hframe : OnlyChanges [] s (passedOn p s) := by
        rw [passedOn, hguards]
        exact presentPass_onlyChanges _ _ _
      rw [hpasses] at hstep hqueue htxn
      refine ⟨_, hstep, ?_, htxn b0 more hbeats, (hframe.within.andThen (withQueue_onlyChanges _ _)).finish s⟩
      rw [hqueue, leftQueue, if_neg (by simp [hbeats]), hbeats]
      rfl
    · have hclass : ∀ b ∈ p.live, classifyBeat s.stb b.addr = .guarded := fun b hb => by
        refine (classify_guarded_iff _ _).2 ⟨fun hp => ?_, fun hc => ?_⟩
        · obtain ⟨hnot, hst⟩ := (hpass _).1 hp
          rcases hbarred b (hall ▸ hb) with ho | ⟨st, hs, hbar⟩
          · exact hnot ho
          · rw [hs] at hst
            rcases hst with hst | hst
            · cases hst
            · obtain rfl := Option.some.inj hst
              simp [barred] at hbar
        · obtain ⟨hnot, hst⟩ := (hcapture _).1 hc
          rcases hbarred b (hall ▸ hb) with ho | ⟨st, hs, hbar⟩
          · exact hnot ho
          · obtain rfl := Option.some.inj (hs.symm.trans hst)
            simp [barred] at hbar
      have hguards : p.guards s.stb = true :=
        List.any_eq_true.2 ⟨b0, by rw [hall, hbeats]; exact List.mem_cons_self, by
          simpa using hclass b0 (by rw [hall, hbeats]; exact List.mem_cons_self)⟩
      have hpasses : p.ofClass s.stb .pass = [] := Posted.ofClass_other hclass (by decide)
      have harrive : arriveCapture p.parity (p.ofClass s.stb .capture) (passedOn p s) = (passedOn p s, []) := by
        rw [Posted.ofClass_other hclass (by decide), arriveCapture_of_none]
      have hstep := delivery_step h hpath hq hd hw harrive (Handled.refl _)
      obtain ⟨hqueue, -, hdrops, hraised⟩ := delivery_leaves (Handled.refl (passedOn p s)) (leftQueue p rest (p.ofClass s.stb .pass) [])
      rw [hpasses] at hstep hqueue hdrops hraised
      rw [hguards] at hdrops
      exact ⟨_, hstep, hqueue, hdrops, hraised hguards,
        ((passedOn_onlyChanges p s).within.andThen (withQueue_onlyChanges _ _)).finish s⟩
    · have hclass : ∀ b ∈ p.beats, classifyBeat s.stb b.addr = .capture := fun b hb =>
        (hcapture _).2 ⟨not_owned_of_slot (hread b hb), hread b hb⟩
      obtain ⟨hcaptures, hpasses, hguards⟩ := captures_alone (p := p) p.beats hclass hlive
      have hnone : passedOn p s = s := passedOn_unguarded hguards hpasses
      have hne : p.beats ≠ [] := by simp [hbeats]
      have hneed : NeedsOffset s.stb o b0 := hneeds
      have harrive : arriveCapture p.parity (p.ofClass s.stb .capture) (passedOn p s) = (restartIdle s, p.beats) := by
        rw [hcaptures, hnone]
        refine arriveCapture_held hne _ (mt (accepts_iff ho he p.beats).1 ?_)
        rintro (hno | hno)
        · exact hno hdark
        · exact hno ⟨b0, by simp [hbeats], hneed⟩
      have hv : Handled (passedOn p s) (restartIdle s) := by rw [hnone]; exact restartIdle_handled s
      have hstep := delivery_step h hpath hq hd hw harrive hv
      rw [hpasses, restartIdle_of ho he] at hstep
      refine ⟨_, hstep, ?_, finish_pce _ _, (((OnlyChanges.refl _ s).pce _).andThen (withQueue_onlyChanges _ _)).finish s⟩
      rw [finish_hmp_queue]
      exact if_neg fun hboth => hne hboth.2
  · intro passing capturing live passes captures guarded leaves
    have hpassing (a : Nat) : passing a = decide (classifyBeat s.stb a = .pass) := by
      rw [Bool.eq_iff_iff]
      simp only [passing, Bool.and_eq_true, Bool.or_eq_true, decide_eq_true_eq, beq_iff_eq, hpass]
    have hcapturing (a : Nat) : capturing a = decide (classifyBeat s.stb a = .capture) := by
      rw [Bool.eq_iff_iff]
      simp only [capturing, Bool.and_eq_true, decide_eq_true_eq, beq_iff_eq, hcapture]
    have hlive : live = p.live := List.filter_congr fun b _ => by rw [Bool.eq_iff_iff]; simp
    have hpasses : passes = p.ofClass s.stb .pass := by simp only [passes, hlive, hpassing, Posted.ofClass]
    have hcaptures : captures = p.ofClass s.stb .capture := by simp only [captures, hlive, hcapturing, Posted.ofClass]
    have hguards : guarded = p.guards s.stb := by
      simp only [guarded, hlive, hpassing, hcapturing, Posted.guards]
      refine congrArg (fun f => p.live.any f) (funext fun b => ?_)
      cases classifyBeat s.stb b.addr <;> rfl
    have hleaves {v : State} {held : List PostedBeat} (hv : Handled (passedOn p s) v) :
        leaves held (finish s (withQueue (leftQueue p rest passes held) v)) := by
      obtain ⟨hqueue, htxn, hdrops, hraised⟩ := delivery_leaves hv (leftQueue p rest passes held)
      rw [← hpasses] at htxn
      rw [← hguards] at hdrops hraised
      exact ⟨hqueue, htxn, hdrops, hraised⟩
    have hstep {v : State} {held : List PostedBeat} (harrive : arriveCapture p.parity captures (passedOn p s) = (v, held))
        (hv : Handled (passedOn p s) v) :
        exec .writeBurstDelivery s = .next (finish s (withQueue (leftQueue p rest passes held) v)) := by
      rw [hpasses]
      exact delivery_step h hpath hq hd hw (by rw [← hcaptures]; exact harrive) hv
    have hpassed := passedOn_onlyChanges p s
    refine ⟨fun hnone => ?_, fun o ho hsome he => ?_⟩
    · have harrive : arriveCapture p.parity captures (passedOn p s) = (passedOn p s, []) := by
        rw [hnone, arriveCapture_of_none]
      exact ⟨_, hstep harrive (Handled.refl _), hleaves (Handled.refl _),
        (hpassed.within.andThen (withQueue_onlyChanges _ _)).finish s⟩
    · intro needs
      have ho' : (passedOn p s).pce.readout = some o := by
        rw [hpassed.2 .pce (by decide) (by decide)]
        exact ho
      have haccepts : accepts (restartIdle (passedOn p s)) captures = true ↔ o.dark ≠ none ∨ ¬ needs := by
        rw [accepts_iff ho' he, hpassed.2 .stb (by decide) (by decide)]
        rfl
      refine ⟨fun hdark hneeds => ?_, fun hready => ?_⟩
      · have harrive : arriveCapture p.parity captures (passedOn p s) = (restartIdle (passedOn p s), captures) :=
          arriveCapture_held hsome _ (mt haccepts.1 fun hor => hor.elim (· hdark) (· hneeds))
        have hv := restartIdle_handled (passedOn p s)
        refine ⟨_, hstep harrive hv, hleaves hv, ?_, ?_⟩
        · rw [finish_pce, restartIdle_of ho' he]
          exact congrArg (fun c : Pce => { c with idle := some (o.image.idleLimit * 1000) })
            (hpassed.2 .pce (by decide) (by decide))
        · rw [restartIdle_of ho' he]
          exact ((hpassed.within.pce _).andThen (withQueue_onlyChanges _ _)).finish s
      · have harrive : arriveCapture p.parity captures (passedOn p s) =
            (takeCapture p.parity captures (restartIdle (passedOn p s)), []) :=
          arriveCapture_taken hsome _ (haccepts.2 hready)
        have hv := (restartIdle_handled (passedOn p s)).trans (takeCapture_handled p.parity captures _)
        -- the capture beats as a burst of their own
        set s' := withQueue ({ p with beats := captures } :: rest) s with hs'
        obtain ⟨hcaptures', hpasses', hguards'⟩ := captures_alone (s := s) (p := p) captures
          (fun b hb => by
            rw [hcaptures] at hb
            simpa using (List.mem_filter.1 hb).2)
          (fun b hb => by
            rw [hcaptures] at hb
            simpa using (List.mem_filter.1 (List.mem_filter.1 hb).1).2)
        have hnone : passedOn { p with beats := captures } s' = s' := passedOn_unguarded hguards' hpasses'
        have harrive' : arriveCapture p.parity captures s' = (takeCapture p.parity captures (restartIdle s'), []) :=
          arriveCapture_taken hsome _ ((accepts_iff (s := s') ho he captures).2 hready)
        have hv' := (restartIdle_handled s').trans (takeCapture_handled p.parity captures _)
        have hstep' := delivery_step (s := s') (p := { p with beats := captures }) h hpath rfl hd hw
          (v := takeCapture p.parity captures (restartIdle s')) (held := [])
          (by rw [hnone]; exact (congrArg (fun l => arriveCapture p.parity l s') hcaptures').trans harrive')
          (by rw [hnone]; exact hv')
        have hsame : Alike (passedOn p s) s' :=
          ⟨(hpassed.2 .stb (by decide) (by decide)).symm, (hpassed.2 .dfm (by decide) (by decide)).symm,
            (hpassed.2 .pce (by decide) (by decide)).symm, (hpassed.2 .prs (by decide) (by decide)).symm,
            fun x hx _ => passedOn_pending p hx⟩
        have halike := hsame.restartIdle.takeCapture p.parity captures
        refine ⟨_, _, hstep harrive hv, hleaves hv, hstep', ?_, ?_, ?_, ?_, fun x hx hk => ?_, ?_⟩
        · rw [finish_pce, finish_pce]
          exact halike.pce.symm
        · rw [finish_dfm, finish_dfm]
          exact halike.dfm.symm
        · rw [finish_stb, finish_stb]
          exact halike.stb.symm
        · rw [finish_prs, finish_prs]
          exact halike.prs.symm
        · obtain ⟨ts, hts⟩ := (finish_followUp s (withQueue (leftQueue p rest passes [])
            (takeCapture p.parity captures (restartIdle (passedOn p s))))).added
          have hword := finish_words hx hk
          rw [withQueue_fmc] at hword
          rw [hts, withQueue_fmc]
          exact List.mem_append_left _ (halike.words x hword hk)
        · have hframe : OnlyChanges [.posted, .guardDrops, .pce, .dfm, .stb, .prs] s
              (takeCapture p.parity captures (restartIdle (passedOn p s))) := hpassed.within.andThen hv.frame
          exact (hframe.andThen (withQueue_onlyChanges _ _)).finish s

end Sys2Proof.Machine
end

section
/-! PROOFS. One codeword written: its bytes, its check bits, the injection and the scrub step's watch (R129 to R131, R140,
R144). -/

namespace Sys2Proof.Machine

set_option Elab.async false

/-! ### A codeword stored -/

theorem fromLe_le (k n : Nat) : fromLe (le k n) = n % 256 ^ k := by
  induction k generalizing n with
  | zero => simp [le, fromLe, Nat.mod_one]
  | succ k ih =>
    rw [le, fromLe, ih, byteOf, BitVec.toNat_ofNat, pow_succ' 256 k, Nat.mod_mul]

section Store

variable {m : Memory} {cw : Nat} (d : BitVec 64) (c : BitVec 8)

theorem Memory.byte_store_out (h : m.wf = true) {a : Nat} (ha : ¬ (cw ≤ a ∧ a < cw + 8)) :
    (m.store cw d c).byte a = m.byte a := by
  rw [Memory.byte_store h, if_neg ha]

theorem Memory.checkAt_store (h : m.wf = true) (a : Nat) :
    (m.store cw d c).checkAt a = if a = cw then c else m.checkAt a :=
  readCell_writeCell _ _ ((Memory.wf_iff m).1 h).2 a

/-- A codeword is classed by its eight bytes and its check bits. -/
theorem Memory.check?_congr {m n : Memory} {cw : Nat} (hb : ∀ k < 8, n.byte (cw + k) = m.byte (cw + k))
    (hc : n.checkAt cw = m.checkAt cw) : n.check? cw = m.check? cw := by
  have hbytes : n.bytesOf cw = m.bytesOf cw := List.map_congr_left fun k hk => hb k (List.mem_range.1 hk)
  rw [Memory.check?, Memory.check?, Memory.wordAt, Memory.wordAt, hbytes, hc]

/-- A word stored as eight bytes reads back. -/
theorem Memory.wordAt_store (h : m.wf = true) : (m.store cw d c).wordAt cw = d := by
  apply BitVec.eq_of_toNat_eq
  have hbytes : (m.store cw d c).bytesOf cw = le 8 d.toNat := by
    refine List.ext_getElem? fun k => ?_
    by_cases hk : k < 8
    · rw [Memory.bytesOf_getElem? _ _ hk, Memory.byte_store h, if_pos (by omega), Nat.add_sub_cancel_left, le_getElem? hk,
        List.getD_eq_getElem?_getD, le_getElem? hk]
      rfl
    · simp [Memory.bytesOf, hk]
  rw [Memory.wordAt_toNat, hbytes, fromLe_le, Nat.mod_eq_of_lt]
  exact d.isLt

end Store

/-! ### The bytes a write leaves -/

/-- The byte at an address once cells are written: its cell's, or what a reader of the address is given. -/
def merged (cells : List Host.Cell) (m : Memory) (a : Nat) : Byte :=
  ((cells.find? fun c => c.1 == a).map (·.2)).getD (readByte m a)

theorem merged_of_mem {cells : List Host.Cell} (hn : (cells.map (·.1)).Nodup) {c : Host.Cell} (hc : c ∈ cells)
    (m : Memory) : merged cells m c.1 = c.2 := by
  have hfind : cells.find? (fun x => x.1 == c.1) = some c := by
    induction cells with
    | nil => exact absurd hc List.not_mem_nil
    | cons x cells ih =>
      obtain ⟨hx, hn⟩ := List.nodup_cons.1 (List.map_cons ▸ hn)
      rcases List.mem_cons.1 hc with rfl | hc
      · simp
      · have hne : x.1 ≠ c.1 := fun he => hx (he ▸ List.mem_map_of_mem hc)
        rw [List.find?_cons_of_neg (by simpa using hne)]
        exact ih hn hc
  rw [merged, hfind]
  rfl

theorem merged_of_not_mem {cells : List Host.Cell} {a : Nat} (h : a ∉ cells.map (·.1)) (m : Memory) :
    merged cells m a = readByte m a := by
  have hfind : cells.find? (fun x => x.1 == a) = none :=
    List.find?_eq_none.2 fun x hx hxa =>
      h (List.mem_map.2 ⟨x, hx, by simpa using hxa⟩)
  rw [merged, hfind]
  rfl

/-- The word a codeword is written with. -/
def mergedWord (cells : List Host.Cell) (m : Memory) (cw : Nat) : BitVec 64 :=
  BitVec.ofNat 64 (fromLe ((List.range 8).map fun k => merged cells m (cw + k)))

/-- Cells bring a codeword whole. -/
def covers (cells : List Host.Cell) (cw : Nat) : Bool := (List.range 8).all fun k => cells.any fun c => c.1 == cw + k

theorem covers_iff (cells : List Host.Cell) (cw : Nat) :
    covers cells cw = true ↔ ∀ k < 8, cw + k ∈ cells.map (·.1) := by
  simp [covers]

/-- A write poisons a codeword: by its parity mark, or by a merge with data that is not usable (R130, R131). -/
def poisons (parity : Bool) (cells : List Host.Cell) (m : Memory) (cw : Nat) : Bool :=
  parity || (!covers cells cw && (m.check? cw).cls.bad)

/-- The codeword's own cells among those of a burst. -/
def mine (cells : List Host.Cell) (cw : Nat) : List Host.Cell := cells.filter fun c => codewordOf c.1 == cw

section Mine

variable (cells : List Host.Cell) {cw : Nat} (h8 : cw % 8 = 0)
include h8

theorem mine_any {k : Nat} (hk : k < 8) : (mine cells cw).any (fun c => c.1 == cw + k) = cells.any fun c => c.1 == cw + k := by
  rw [mine, List.any_filter]
  congr 1
  funext c
  by_cases hc : c.1 = cw + k
  · have hcw : codewordOf c.1 = cw := by rw [hc, codewordOf]; omega
    simp [hcw]
  · simp [hc]

theorem mine_find {k : Nat} (hk : k < 8) :
    (mine cells cw).find? (fun c => c.1 == cw + k) = cells.find? fun c => c.1 == cw + k := by
  rw [mine, List.find?_filter]
  congr 1
  funext c
  by_cases hc : c.1 = cw + k
  · have hcw : codewordOf c.1 = cw := by rw [hc, codewordOf]; omega
    simp [hcw, beq_eq_decide]
  · simp [hc]

theorem mine_covers : ((List.range 8).all fun k => (mine cells cw).any fun c => c.1 == cw + k) = covers cells cw := by
  rw [Bool.eq_iff_iff, covers, List.all_eq_true, List.all_eq_true]
  exact forall₂_congr fun k hk => by rw [mine_any cells h8 (List.mem_range.1 hk)]

theorem mergeBytes_merge (m : Memory) : mergeBytes cw (le 8 (m.check? cw).data.toNat) (mine cells cw) =
    (List.range 8).map fun k => merged cells m (cw + k) := by
  refine List.map_congr_left fun k hk => ?_
  have hk8 := List.mem_range.1 hk
  have hcw : (cw + k) / 8 * 8 = cw := by omega
  have hlane : (cw + k) % 8 = k := by omega
  rw [mine_find cells h8 hk8, merged, readByte, hcw, hlane, List.getD_eq_getElem?_getD, le_getElem? hk8, shiftRight_setWidth]
  rfl

theorem mergeBytes_whole (hc : covers cells cw = true) (m : Memory) : mergeBytes cw [] (mine cells cw) =
    (List.range 8).map fun k => merged cells m (cw + k) := by
  refine List.map_congr_left fun k hk => ?_
  have hk8 := List.mem_range.1 hk
  rw [mine_find cells h8 hk8]
  unfold merged
  rcases hf : cells.find? (fun c => c.1 == cw + k) with _ | c
  · obtain ⟨c, hmem, hck⟩ := List.mem_map.1 ((covers_iff cells cw).1 hc k hk8)
    exact absurd (by simpa using hck) (List.find?_eq_none.1 hf c hmem)
  · rw [hf]
    rfl

end Mine

/-! ### The write of one codeword -/

/-- The codeword as it is stored. -/
def stored (parity : Bool) (cells : List Host.Cell) (cw : Nat) (s : State) : State :=
  storeWord cw (mergedWord cells s.mem cw) (checkOf (poisons parity cells s.mem cw) (mergedWord cells s.mem cw)) s

/-- The report of a merge's read. -/
def mergeReport (src : ErrorSource) (cells : List Host.Cell) (cw : Nat) (c : Checked) (s : State) : State :=
  if covers cells cw then s else report src cw c s

theorem writeCodeword_eq (src : ErrorSource) (parity : Bool) (cells : List Host.Cell) {cw : Nat} (h8 : cw % 8 = 0)
    (hne : ∃ c ∈ cells, c.1 / 8 * 8 = cw) (s : State) : writeCodeword src parity cells cw s =
      reportParity parity src cw (mergeReport src cells cw (s.mem.check? cw) (stored parity cells cw s)) := by
  have hmine : mine cells cw ≠ [] := by
    obtain ⟨c, hc, hcw⟩ := hne
    exact List.ne_nil_of_mem (List.mem_filter.2 ⟨hc, by simpa [codewordOf] using hcw⟩)
  have hcov := mine_covers cells h8
  unfold writeCodeword
  refine (if_neg hmine).trans ?_
  by_cases hc : covers cells cw = true
  · refine (if_pos (hcov.trans hc)).trans ?_
    rw [mergeReport, if_pos hc, stored, poisons, hc, mergedWord, ← mergeBytes_whole cells h8 hc s.mem]
    simp only [Bool.not_true, Bool.false_and, Bool.or_false]
    rfl
  · refine (if_neg fun hall => hc (hcov.symm.trans hall)).trans ?_
    rw [mergeReport, if_neg hc, stored, poisons, mergedWord, ← mergeBytes_merge cells h8 s.mem]
    simp only [hc, Bool.not_false, Bool.true_and]
    rfl

end Sys2Proof.Machine
end

section
/-! PROOFS. What a write of bytes leaves of memory, what it reports, and what it leaves of everything else (R129 to R131, R134,
R140, R144). -/

namespace Sys2Proof.Machine

set_option Elab.async false

/-! ### Memory after a write -/

/-- What an armed injection does to the check bits of a codeword written (R140). -/
def spoil (s : State) (cw : Nat) : BitVec 8 :=
  match s.fmc.injection with
  | some (a, m) => if a = cw then m else 0
  | none => 0

/-- The step of the scrubber with its watch marked (R144). -/
def ScrubStep.seen (st : ScrubStep) : ScrubStep := { st with watch := st.watch.map fun _ => true }

/-- Memory, the injection and the scrub step after the write of some codewords. -/
structure Wrote (parity : Bool) (cells : List Host.Cell) (cws : List Nat) (s t : State) : Prop where
  wf : t.mem.wf = true
  byte_in : ∀ a, a / 8 * 8 ∈ cws → t.mem.byte a = merged cells s.mem a
  byte_out : ∀ a, a / 8 * 8 ∉ cws → t.mem.byte a = s.mem.byte a
  check_in : ∀ cw ∈ cws, t.mem.checkAt cw = checkOf (poisons parity cells s.mem cw) (t.mem.wordAt cw) ^^^ spoil s cw
  check_out : ∀ a, a ∉ cws → t.mem.checkAt a = s.mem.checkAt a
  injection : t.fmc.injection = s.fmc.injection.filter fun i => decide (i.1 ∉ cws)
  scrub : t.fmc.scrub = s.fmc.scrub.map fun st => if st.addr ∈ cws then st.seen else st

theorem Wrote.nil (parity : Bool) (cells : List Host.Cell) {s : State} (h : s.mem.wf = true) :
    Wrote parity cells [] s s where
  wf := h
  byte_in a ha := absurd ha List.not_mem_nil
  byte_out _ _ := rfl
  check_in cw hcw := absurd hcw List.not_mem_nil
  check_out _ _ := rfl
  injection := by cases s.fmc.injection <;> simp [Option.filter]
  scrub := by simp

/-- A codeword that is not written is classed as before. -/
theorem Wrote.check?_out {parity : Bool} {cells : List Host.Cell} {cws : List Nat} {s t : State}
    (h : Wrote parity cells cws s t) {cw : Nat} (h8 : cw % 8 = 0) (hcw : cw ∉ cws) : t.mem.check? cw = s.mem.check? cw := by
  refine Memory.check?_congr (fun k hk => h.byte_out _ ?_) (h.check_out cw hcw)
  rwa [show (cw + k) / 8 * 8 = cw by omega]

/-- One codeword, then others. -/
theorem Wrote.cons {parity : Bool} {cells : List Host.Cell} {cw : Nat} {cws : List Nat} {s t u : State}
    (h : Wrote parity cells [cw] s t) (k : Wrote parity cells cws t u) (h8 : ∀ x ∈ cw :: cws, x % 8 = 0) (hcw : cw ∉ cws) :
    Wrote parity cells (cw :: cws) s u := by
  have hcheck : ∀ x ∈ cws, t.mem.check? x = s.mem.check? x := fun x hx =>
    h.check?_out (h8 x (List.mem_cons_of_mem _ hx)) fun he => hcw (List.mem_singleton.1 he ▸ hx)
  refine ⟨k.wf, fun a ha => ?_, fun a ha => ?_, fun x hx => ?_, fun a ha => ?_, ?_, ?_⟩
  · by_cases hin : a / 8 * 8 ∈ cws
    · rw [k.byte_in a hin, merged, merged, readByte, hcheck _ hin]
      rfl
    · rw [k.byte_out a hin]
      exact h.byte_in a (by simpa [hin] using ha)
  · obtain ⟨hne, hout⟩ := List.ne_and_not_mem_of_not_mem_cons ha
    rw [k.byte_out a hout, h.byte_out a (by simpa using hne)]
  · by_cases hin : x ∈ cws
    · have hne : x ≠ cw := fun he => hcw (he ▸ hin)
      have hspoil : spoil t x = spoil s x := by
        rw [spoil, spoil, h.injection]
        rcases s.fmc.injection with _ | ⟨a, m⟩
        · rfl
        · by_cases ha : a = cw
          · subst ha
            simp [Option.filter, Ne.symm hne]
          · simp [Option.filter, ha]
      rw [k.check_in x hin, hspoil, poisons, poisons, hcheck x hin]
    · have hx : x = cw := by simpa [hin] using hx
      subst hx
      have hword : u.mem.wordAt x = t.mem.wordAt x := by
        rw [Memory.wordAt, Memory.wordAt]
        congr 2
        refine List.map_congr_left fun j hj => k.byte_out _ ?_
        have hj := List.mem_range.1 hj
        have h0 := h8 x List.mem_cons_self
        rwa [show (x + j) / 8 * 8 = x by omega]
      rw [k.check_out x hin, hword, h.check_in x (by simp)]
  · obtain ⟨hne, hout⟩ := List.ne_and_not_mem_of_not_mem_cons ha
    rw [k.check_out a hout, h.check_out a (by simpa using hne)]
  · rw [k.injection, h.injection]
    rcases s.fmc.injection with _ | ⟨a, m⟩
    · rfl
    · by_cases ha : a = cw <;> simp [Option.filter, ha]
  · rw [k.scrub, h.scrub]
    rcases s.fmc.scrub with _ | st
    · rfl
    · by_cases ha : st.addr = cw
      · have hseen : st.seen.addr = cw := ha
        simp [ha, hseen, hcw]
      · simp [ha]

/-- The write of one codeword. -/
theorem stored_wrote (parity : Bool) (cells : List Host.Cell) {cw : Nat} (h8 : cw % 8 = 0) {s : State}
    (h : s.mem.wf = true) : Wrote parity cells [cw] s (stored parity cells cw s) := by
  set d := mergedWord cells s.mem cw with hd
  obtain ⟨c', hmem⟩ : ∃ c', (stored parity cells cw s).mem = s.mem.store cw d c' ∧
      c' = checkOf (poisons parity cells s.mem cw) d ^^^ spoil s cw := by
    refine ⟨_, rfl, ?_⟩
    rw [spoil]
    rcases s.fmc.injection with _ | ⟨a, m⟩
    · simp [← hd]
    · by_cases ha : a = cw <;> simp [ha, ← hd]
  obtain ⟨hmem, hc'⟩ := hmem
  refine ⟨by rw [hmem]; exact Memory.store_wf h _ _ _, fun a ha => ?_, fun a ha => ?_, fun x hx => ?_, fun a ha => ?_, ?_, ?_⟩
  · have ha : a / 8 * 8 = cw := by simpa using ha
    have hlt : a - cw < 8 := by omega
    rw [hmem, Memory.byte_store h, if_pos (by omega), List.getD_eq_getElem?_getD, le_getElem? hlt, hd, mergedWord]
    have hbyte : ((List.range 8).map fun k => merged cells s.mem (cw + k))[a - cw]? = some (merged cells s.mem a) := by
      rw [List.getElem?_map, List.getElem?_range hlt, Option.map_some, show cw + (a - cw) = a by omega]
    have hbound := fromLe_lt ((List.range 8).map fun k => merged cells s.mem (cw + k))
    rw [BitVec.toNat_ofNat, Nat.mod_eq_of_lt (hbound.trans_eq (by simp)), Option.getD_some, fromLe_byte hbyte]
  · have ha : a / 8 * 8 ≠ cw := by simpa using ha
    rw [hmem, Memory.byte_store_out _ _ h (by omega)]
  · rw [List.mem_singleton.1 hx, hmem, Memory.wordAt_store _ _ h, Memory.checkAt_store _ _ h, if_pos rfl, hc']
  · rw [hmem, Memory.checkAt_store _ _ h, if_neg (by simpa using ha)]
  · show Option.filter _ _ = _
    congr 1
    funext i
    rw [Bool.eq_iff_iff]
    simp
  · show Option.map _ _ = _
    congr 1
    funext st
    simp [ScrubStep.seen]

/-! ### What the reports of a write leave -/

/-- What reports leave of a state: records, errors, and the follow-up, of which no transaction. -/
structure Reported (s t : State) : Prop where
  frame : OnlyChanges [.stb, .errors] s t
  mem : t.mem = s.mem
  waiting : t.fmc.pending = s.fmc.pending
  raises : ∃ rs, t.rqe.raises = s.rqe.raises ++ rs
  counts : s.fmc.uncorrectable ≤ 4294967295 →
    s.fmc.uncorrectable ≤ t.fmc.uncorrectable ∧ t.fmc.uncorrectable ≤ 4294967295

theorem Reported.refl (s : State) : Reported s s :=
  ⟨OnlyChanges.refl _ s, rfl, rfl, ⟨[], by simp⟩, fun h => ⟨Nat.le_refl _, h⟩⟩

theorem Reported.trans {s t u : State} (h : Reported s t) (k : Reported t u) : Reported s u where
  frame := h.frame.trans k.frame
  mem := k.mem.trans h.mem
  waiting := k.waiting.trans h.waiting
  raises := by
    obtain ⟨rs, hr⟩ := h.raises
    obtain ⟨qs, hq⟩ := k.raises
    exact ⟨rs ++ qs, by rw [hq, hr, List.append_assoc]⟩
  counts hs :=
    have ht := h.counts hs
    have hu := k.counts ht.2
    ⟨ht.1.trans hu.1, hu.2⟩

theorem occur_reported (o : Occurrence) (s : State) : Reported s (occur o s) := by
  have hfound := occur_found o s
  refine ⟨occur_onlyChanges o s, hfound.mem, ?_, hfound.raises, hfound.uncorrectable⟩
  obtain ⟨log, ovf, upd, hf⟩ := logged_fmc o s
  rw [occur_eq, raise_fmc, withCount, hf]
  unfold Fmc.count
  split
  · rfl
  · split_ifs <;> rfl

theorem reportParity_reported (parity : Bool) (src : ErrorSource) (cw : Nat) (s : State) :
    Reported s (reportParity parity src cw s) := by
  unfold reportParity
  split
  · exact occur_reported _ s
  · exact Reported.refl s

theorem mergeReport_reported (src : ErrorSource) (cells : List Host.Cell) (cw : Nat) (c : Checked) (s : State) :
    Reported s (mergeReport src cells cw c s) := by
  unfold mergeReport report
  split_ifs
  · exact Reported.refl s
  · exact Reported.refl s
  · exact occur_reported _ s

theorem Reported.fmc {s t : State} (h : Reported s t) : t.fmc.injection = s.fmc.injection ∧ t.fmc.scrub = s.fmc.scrub ∧
    t.fmc.scrubPos = s.fmc.scrubPos ∧ t.fmc.passes = s.fmc.passes ∧ t.fmc.pace = s.fmc.pace := by
  obtain ⟨hpos, hpasses, hpace, hscrub⟩ := h.frame.2 .scrubber (by decide) (by decide)
  exact ⟨h.frame.2 .injection (by decide) (by decide), hscrub, hpos, hpasses, hpace⟩

theorem Wrote.reported {parity : Bool} {cells : List Host.Cell} {cws : List Nat} {s t u : State}
    (h : Wrote parity cells cws s t) (k : Reported t u) : Wrote parity cells cws s u := by
  obtain ⟨hinj, hscrub, -⟩ := k.fmc
  have hmem := k.mem
  exact ⟨by rw [hmem]; exact h.wf, by rw [hmem]; exact h.byte_in, by rw [hmem]; exact h.byte_out,
    by rw [hmem]; exact h.check_in, by rw [hmem]; exact h.check_out, hinj.trans h.injection, hscrub.trans h.scrub⟩

/-! ### The whole write -/

/-- The parts of a state a write of memory reaches besides its reports. -/
def withDram (m : Memory) (i : Option (Nat × BitVec 8)) (st : Option ScrubStep) (s : State) : State :=
  { s with mem := m, fmc := { s.fmc with injection := i, scrub := st } }

theorem stored_eq (parity : Bool) (cells : List Host.Cell) (cw : Nat) (s : State) :
    ∃ m i st, stored parity cells cw s = withDram m i st s := ⟨_, _, _, rfl⟩

theorem withDram_frame (m : Memory) (i : Option (Nat × BitVec 8)) (st : Option ScrubStep) (s : State) :
    OnlyChanges [.mem, .injection, .scrubber] s (withDram m i st s) := by
  refine ⟨rfl, fun p hp _ => ?_⟩
  cases p <;> simp_all [Part.agree, withDram]

theorem Reported.withDram {s t : State} (h : Reported s t) (m : Memory) (i : Option (Nat × BitVec 8))
    (st : Option ScrubStep) : Reported (withDram m i st s) (withDram m i st t) := by
  refine ⟨⟨h.frame.1, fun p hp hf => ?_⟩, rfl, h.waiting, h.raises, h.counts⟩
  have hagree := h.frame.2 p hp hf
  obtain ⟨-, -, hpos, hpasses, hpace⟩ := h.fmc
  cases p <;> first | exact hagree | exact ⟨fun _ => rfl, fun _ => rfl⟩ | exact ⟨hpos, hpasses, hpace, rfl⟩ | rfl

/-- A write and its reports. -/
def Written (s t : State) : Prop := ∃ m i st, Reported (withDram m i st s) t

theorem Written.refl (s : State) : Written s s := ⟨s.mem, s.fmc.injection, s.fmc.scrub, Reported.refl s⟩

theorem Written.trans {s t u : State} (h : Written s t) (k : Written t u) : Written s u := by
  obtain ⟨m, i, st, h⟩ := h
  obtain ⟨n, j, su, k⟩ := k
  exact ⟨n, j, su, (h.withDram n j su).trans k⟩

namespace Written

variable {s t : State} (h : Written s t)
include h

theorem frame : OnlyChanges [.mem, .injection, .scrubber, .stb, .errors] s t := by
  obtain ⟨m, i, st, h⟩ := h
  exact ((withDram_frame m i st s).within).andThen h.frame

theorem waiting : t.fmc.pending = s.fmc.pending := by
  obtain ⟨m, i, st, h⟩ := h
  exact h.waiting

theorem scrubber : t.fmc.scrubPos = s.fmc.scrubPos ∧ t.fmc.passes = s.fmc.passes ∧ t.fmc.pace = s.fmc.pace := by
  obtain ⟨m, i, st, h⟩ := h
  exact h.fmc.2.2

theorem raised {r : Raise} (hr : r ∈ s.rqe.raises) : r ∈ t.rqe.raises := by
  obtain ⟨m, i, st, h⟩ := h
  obtain ⟨rs, hrs⟩ := h.raises
  rw [hrs]
  exact List.mem_append_left _ hr

theorem counts (hs : s.fmc.uncorrectable ≤ 4294967295) :
    s.fmc.uncorrectable ≤ t.fmc.uncorrectable ∧ t.fmc.uncorrectable ≤ 4294967295 := by
  obtain ⟨m, i, st, h⟩ := h
  exact h.counts hs

end Written

section Codewords

variable (src : ErrorSource) (parity : Bool) (cells : List Host.Cell)

/-- The codewords are those of cells, each once. -/
def OfCells (cws : List Nat) : Prop := cws.Nodup ∧ ∀ cw ∈ cws, cw % 8 = 0 ∧ ∃ c ∈ cells, c.1 / 8 * 8 = cw

variable {cells}

theorem OfCells.tail {cw : Nat} {cws : List Nat} (h : OfCells cells (cw :: cws)) : OfCells cells cws :=
  ⟨(List.nodup_cons.1 h.1).2, fun x hx => h.2 x (List.mem_cons_of_mem _ hx)⟩

section One

variable {cw : Nat} (h8 : cw % 8 = 0) (hne : ∃ c ∈ cells, c.1 / 8 * 8 = cw)
include h8 hne

theorem writeCodeword_reported (s : State) : Reported (stored parity cells cw s) (writeCodeword src parity cells cw s) := by
  rw [writeCodeword_eq src parity cells h8 hne]
  exact (mergeReport_reported src cells cw _ _).trans (reportParity_reported parity src cw _)

theorem writeCodeword_written (s : State) : Written s (writeCodeword src parity cells cw s) := by
  obtain ⟨m, i, st, h⟩ := stored_eq parity cells cw s
  exact ⟨m, i, st, h ▸ writeCodeword_reported src parity h8 hne s⟩

theorem writeCodeword_wrote {s : State} (h : s.mem.wf = true) :
    Wrote parity cells [cw] s (writeCodeword src parity cells cw s) :=
  (stored_wrote parity cells h8 h).reported (writeCodeword_reported src parity h8 hne s)

/-- The error a write of a codeword reports. -/
theorem writeCodeword_fails {s : State} (h : poisons parity cells s.mem cw = true) :
    (⟨.memUncorrectable, none⟩ : Raise) ∈ (writeCodeword src parity cells cw s).rqe.raises ∧
      (s.fmc.uncorrectable < 4294967295 → s.fmc.uncorrectable < (writeCodeword src parity cells cw s).fmc.uncorrectable) := by
  have hocc {o : Occurrence} {u : State} (ho : o.cls.isSome = true) (hu : s.fmc.uncorrectable < 4294967295 →
      s.fmc.uncorrectable ≤ u.fmc.uncorrectable ∧ u.fmc.uncorrectable ≤ 4294967295) :
      (⟨.memUncorrectable, none⟩ : Raise) ∈ (occur o u).rqe.raises ∧
        (s.fmc.uncorrectable < 4294967295 → s.fmc.uncorrectable < (occur o u).fmc.uncorrectable) := by
    refine ⟨?_, fun hs => ?_⟩
    · rw [occur_raises, Occurrence.flag, if_pos ho]
      simp
    · obtain ⟨hlo, hhi⟩ := hu hs
      rw [occur_uncorrectable o u ho]
      omega
  have hstore : s.fmc.uncorrectable < 4294967295 →
      s.fmc.uncorrectable ≤ (stored parity cells cw s).fmc.uncorrectable ∧
        (stored parity cells cw s).fmc.uncorrectable ≤ 4294967295 := fun hs => ⟨Nat.le_refl _, hs.le⟩
  rw [writeCodeword_eq src parity cells h8 hne]
  by_cases hp : parity = true
  · rw [reportParity, if_pos hp]
    refine hocc rfl fun hs => ?_
    exact (mergeReport_reported src cells cw (s.mem.check? cw) (stored parity cells cw s)).counts (hstore hs).2
  · obtain ⟨hcov, hbad⟩ : covers cells cw = false ∧ (s.mem.check? cw).cls.bad = true := by
      simpa [poisons, hp] using h
    have hcls : (s.mem.check? cw).cls ≠ .clean := fun he => by simp [he, WordClass.bad] at hbad
    rw [reportParity, if_neg hp, mergeReport, if_neg (by simp [hcov]), report_of_error hcls]
    exact hocc ((logged_isSome _).trans hbad) hstore

theorem writeCodeword_mends {s : State} (hcov : covers cells cw = false) (hc : (s.mem.check? cw).cls = .correctable) :
    (⟨.memCorrected, none⟩ : Raise) ∈ (writeCodeword src parity cells cw s).rqe.raises := by
  rw [writeCodeword_eq src parity cells h8 hne, mergeReport, if_neg (by simp [hcov]),
    report_of_error (by simp [hc])]
  obtain ⟨rs, hrs⟩ := (reportParity_reported parity src cw
    (occur (occurrenceOf src cw (s.mem.check? cw)) (stored parity cells cw s))).raises
  rw [hrs, occur_raises, Occurrence.flag, occurrenceOf, logged_isSome, hc]
  simp [WordClass.bad]

theorem writeCodeword_quiet {s : State} (hp : parity = false)
    (hc : covers cells cw = true ∨ (s.mem.check? cw).cls = .clean) :
    ∃ m i st, writeCodeword src parity cells cw s = withDram m i st s := by
  obtain ⟨m, i, st, h⟩ := stored_eq parity cells cw s
  refine ⟨m, i, st, ?_⟩
  rw [writeCodeword_eq src parity cells h8 hne, reportParity, if_neg (by simp [hp]), mergeReport, h]
  rcases hc with hc | hc
  · rw [if_pos hc]
  · rw [report_of_clean hc, ite_self]

end One

variable {cws : List Nat} {s : State}

theorem writeBytes_written (h : OfCells cells cws) : Written s (writeBytes src parity cells cws s) := by
  induction cws generalizing s with
  | nil => exact Written.refl s
  | cons cw cws ih =>
    obtain ⟨h8, hne⟩ := h.2 cw List.mem_cons_self
    exact (writeCodeword_written src parity h8 hne s).trans (ih h.tail)

theorem writeBytes_wrote (h : OfCells cells cws) (hm : s.mem.wf = true) :
    Wrote parity cells cws s (writeBytes src parity cells cws s) := by
  induction cws generalizing s with
  | nil => exact Wrote.nil parity cells hm
  | cons cw cws ih =>
    obtain ⟨h8, hne⟩ := h.2 cw List.mem_cons_self
    have hone := writeCodeword_wrote src parity h8 hne hm
    exact hone.cons (ih h.tail hone.wf) (fun x hx => (h.2 x hx).1) (List.nodup_cons.1 h.1).1

/-- The other codewords are classed, at the write of one, as before. -/
theorem OfCells.check? {cw : Nat} (h : OfCells cells (cw :: cws)) (hm : s.mem.wf = true) {x : Nat} (hx : x ∈ cws) :
    (writeCodeword src parity cells cw s).mem.check? x = s.mem.check? x := by
  obtain ⟨h8, hne⟩ := h.2 cw List.mem_cons_self
  refine (writeCodeword_wrote src parity h8 hne hm).check?_out (h.2 x (List.mem_cons_of_mem _ hx)).1 fun he => ?_
  exact (List.nodup_cons.1 h.1).1 (List.mem_singleton.1 he ▸ hx)

theorem writeBytes_fails (h : OfCells cells cws) (hm : s.mem.wf = true) {cw : Nat} (hcw : cw ∈ cws)
    (hp : poisons parity cells s.mem cw = true) :
    (⟨.memUncorrectable, none⟩ : Raise) ∈ (writeBytes src parity cells cws s).rqe.raises ∧
      (s.fmc.uncorrectable < 4294967295 →
        s.fmc.uncorrectable < (writeBytes src parity cells cws s).fmc.uncorrectable) := by
  induction cws generalizing s with
  | nil => exact absurd hcw List.not_mem_nil
  | cons x cws ih =>
    obtain ⟨h8, hne⟩ := h.2 x List.mem_cons_self
    have hhead := writeCodeword_written src parity h8 hne s
    have htail : Written _ _ := writeBytes_written src parity (s := writeCodeword src parity cells x s) h.tail
    rcases List.mem_cons.1 hcw with rfl | hcw
    · obtain ⟨hraise, hcount⟩ := writeCodeword_fails src parity h8 hne hp
      refine ⟨htail.raised hraise, fun hs => (hcount hs).trans_le ?_⟩
      exact (htail.counts (hhead.counts hs.le).2).1
    · obtain ⟨hraise, hcount⟩ := ih (s := writeCodeword src parity cells x s) h.tail
        (writeCodeword_wrote src parity h8 hne hm).wf hcw (by rwa [poisons, h.check? src parity hm hcw])
      refine ⟨hraise, fun hs => ?_⟩
      obtain ⟨hlo, hhi⟩ := hhead.counts hs.le
      rcases Nat.lt_or_ge (writeCodeword src parity cells x s).fmc.uncorrectable 4294967295 with hlt | hge
      · exact hlo.trans_lt (hcount hlt)
      · exact (hs.trans_le hge).trans_le (htail.counts hhi).1

theorem writeBytes_mends (h : OfCells cells cws) (hm : s.mem.wf = true) {cw : Nat} (hcw : cw ∈ cws)
    (hcov : covers cells cw = false) (hc : (s.mem.check? cw).cls = .correctable) :
    (⟨.memCorrected, none⟩ : Raise) ∈ (writeBytes src parity cells cws s).rqe.raises := by
  induction cws generalizing s with
  | nil => exact absurd hcw List.not_mem_nil
  | cons x cws ih =>
    obtain ⟨h8, hne⟩ := h.2 x List.mem_cons_self
    rcases List.mem_cons.1 hcw with rfl | hcw
    · exact (writeBytes_written src parity h.tail).raised (writeCodeword_mends src parity h8 hne hcov hc)
    · exact ih h.tail (writeCodeword_wrote src parity h8 hne hm).wf hcw (by rwa [h.check? src parity hm hcw])

theorem writeBytes_quiet (h : OfCells cells cws) (hm : s.mem.wf = true) (hp : parity = false)
    (hc : ∀ cw ∈ cws, covers cells cw = true ∨ (s.mem.check? cw).cls = .clean) :
    ∃ m i st, writeBytes src parity cells cws s = withDram m i st s := by
  induction cws generalizing s with
  | nil => exact ⟨s.mem, s.fmc.injection, s.fmc.scrub, rfl⟩
  | cons x cws ih =>
    obtain ⟨h8, hne⟩ := h.2 x List.mem_cons_self
    obtain ⟨m, i, st, hone⟩ := writeCodeword_quiet src parity h8 hne hp (hc x List.mem_cons_self)
    obtain ⟨n, j, su, hrest⟩ := ih (s := writeCodeword src parity cells x s) h.tail
      (writeCodeword_wrote src parity h8 hne hm).wf fun cw hcw => by
        rw [h.check? src parity hm hcw]
        exact hc cw (List.mem_cons_of_mem _ hcw)
    exact ⟨n, j, su, hrest.trans (by rw [hone]; rfl)⟩

end Codewords

end Sys2Proof.Machine
end

section
/-! PROOFS. A grant of the DRAM port (R62, R63; O49). -/

namespace Sys2Proof.Machine

set_option Elab.async false

theorem exec_dramGrant (s : State) : exec .dramGrant s = event s grant := rfl

/-! ### The counts -/

/-- The state with a transaction granted: off the queue, and the arbiter's counts and turn after it. -/
def granted (x : Txn) (s : State) : State :=
  { s with fmc := { s.fmc with
      pending := s.fmc.pending.erase x
      passOver := if x.kind.source = .host then s.fmc.passOver.hostGrant (readyTxns [] s.fmc.pending) s.fmc.pending else {}
      nextPart := if x.kind.source = .host then s.fmc.nextPart else x.kind.source.next } }

theorem granted_eq (x : Txn) (s : State) : { s with fmc := { s.fmc.counted x (readyTxns [] s.fmc.pending) with
    pending := (s.fmc.counted x (readyTxns [] s.fmc.pending)).pending.erase x } } = granted x s := by
  unfold granted Fmc.counted
  by_cases h : x.kind.source = .host
  · simp only [if_pos h]
  · simp only [if_neg h]

theorem grant_eq {s : State} {x : Txn} (hp : s.hmp.path = .run ∨ s.hmp.path = .entering) (hf : s.fmc.active = none)
    (hx : choose s.fmc.passOver s.fmc.nextPart (readyTxns [] s.fmc.pending) = some x) :
    grant s = grantEffect x (granted x s) := by
  have hopen : portOpen s = true := by simpa [portOpen] using hp
  unfold grant
  refine (if_neg (by simp [hf, hopen])).trans ?_
  simp only [hx]
  rw [granted_eq]

section Granted

variable (x : Txn) (s : State)

theorem granted_frame : OnlyChanges [.port] s (granted x s) := by
  refine ⟨rfl, fun p hp hf => ?_⟩
  cases p <;> simp_all [Part.agree, followUp, granted]

/-- The counts and the turn after a grant, in a state in which nothing else changed them. -/
def Counts (t : State) : Prop :=
  (x.kind.source = .host → t.fmc.nextPart = s.fmc.nextPart ∧ ∀ src, src ≠ .host → t.fmc.passOver.get src =
    if (s.fmc.pending.find? fun t => t.kind.source == src) = none then 0
    else if ((readyTxns [] s.fmc.pending).find? fun t => t.kind.source == src) = none then s.fmc.passOver.get src
    else min 16 (s.fmc.passOver.get src + 1)) ∧
  (¬ x.kind.source = .host → t.fmc.passOver = {} ∧ t.fmc.nextPart = x.kind.source.next) ∧
  ∃ more, t.fmc.pending = s.fmc.pending.erase x ++ more

/-- The count of a part source passed over by the host (log 17). -/
theorem overCount_eq (ready waiting : List Txn) (src : Source) (n : Nat) : overCount ready waiting src n =
    if (waiting.find? fun t => t.kind.source == src) = none then 0
    else if (ready.find? fun t => t.kind.source == src) = none then n else min 16 (n + 1) := by
  have both (a b : Option Txn) : (if a.isNone then 0 else if b.isSome then min 16 (n + 1) else n) =
      if a = none then 0 else if b = none then n else min 16 (n + 1) := by
    rcases a with _ | a <;> rcases b with _ | b <;> simp
  exact both _ _

variable {x s} {t : State}

theorem counts_of (hport : t.fmc.passOver = (granted x s).fmc.passOver) (hnext : t.fmc.nextPart = (granted x s).fmc.nextPart)
    (hpending : ∃ more, t.fmc.pending = (granted x s).fmc.pending ++ more) : Counts x s t := by
  refine ⟨fun hh => ⟨hnext.trans (if_pos hh), fun src hsrc => ?_⟩, fun hh => ⟨hport.trans (if_neg hh), hnext.trans (if_neg hh)⟩,
    hpending⟩
  have hover : t.fmc.passOver = s.fmc.passOver.hostGrant (readyTxns [] s.fmc.pending) s.fmc.pending :=
    hport.trans (if_pos hh)
  rw [hover, ← overCount_eq]
  cases src
  case host => exact absurd rfl hsrc
  all_goals rfl

end Granted

theorem finish_waiting (b u : State) : ∃ more, (finish b u).fmc.pending = u.fmc.pending ++ more :=
  (finish_followUp b u).added

/-! ### Reads -/

theorem occupyPort_frame (x : Txn) (s : State) : OnlyChanges [.port] s (occupyPort x s) := by
  refine ⟨rfl, fun p hp _ => ?_⟩
  cases p <;> simp_all [Part.agree, occupyPort]

theorem occupied_counts (x y : Txn) (s b : State) : Counts x s (finish b (occupyPort y (granted x s))) :=
  counts_of (finish_fmc_passOver _ _) (finish_fmc_nextPart _ _) (finish_waiting _ _)

/-! ### Writes of the host, of developed pixels and of a card read -/

section Write

variable {x : Txn} {s : State}

/-- A codeword that a transaction's bytes touch. -/
def touches (cells : List Host.Cell) (cw : Nat) : Prop := cw % 8 = 0 ∧ ∃ a ∈ cells.map (·.1), cw ≤ a ∧ a < cw + 8

theorem mem_codewords (h : x.bytes ≠ []) {cw : Nat} : cw ∈ x.codewords ↔ touches x.bytes cw := by
  rw [Txn.codewords, if_neg h, List.mem_dedup, List.mem_map, touches]
  constructor
  · rintro ⟨c, hc, rfl⟩
    exact ⟨by rw [codewordOf]; omega, c.1, List.mem_map_of_mem hc, by rw [codewordOf]; omega, by rw [codewordOf]; omega⟩
  · rintro ⟨h8, a, ha, hlo, hhi⟩
    obtain ⟨c, hc, rfl⟩ := List.mem_map.1 ha
    exact ⟨c, hc, by rw [codewordOf]; omega⟩

theorem codewords_ofCells (h : x.bytes ≠ []) : OfCells x.bytes x.codewords := by
  refine ⟨by rw [Txn.codewords, if_neg h]; exact List.nodup_dedup _, fun cw hcw => ?_⟩
  obtain ⟨h8, a, ha, hlo, hhi⟩ := (mem_codewords h).1 hcw
  obtain ⟨c, hc, rfl⟩ := List.mem_map.1 ha
  exact ⟨h8, c, hc, by omega⟩

/-- The facts of a write read in states that agree with its own on memory, the injection and the scrub step. -/
theorem Wrote.congr {parity : Bool} {cells : List Host.Cell} {cws : List Nat} {s t s' t' : State}
    (h : Wrote parity cells cws s t) (hs : s.mem = s'.mem ∧ s.fmc.injection = s'.fmc.injection ∧ s.fmc.scrub = s'.fmc.scrub)
    (ht : t'.mem = t.mem ∧ t'.fmc.injection = t.fmc.injection ∧ t'.fmc.scrub = t.fmc.scrub) :
    Wrote parity cells cws s' t' := by
  obtain ⟨smem, sinj, sscrub⟩ := hs
  obtain ⟨tmem, tinj, tscrub⟩ := ht
  have hspoil : spoil s' = spoil s := by
    funext cw
    rw [spoil, spoil, sinj]
  refine ⟨by rw [tmem]; exact h.wf, ?_, ?_, ?_, ?_, ?_, ?_⟩
  · rw [tmem, ← smem]
    exact h.byte_in
  · rw [tmem, ← smem]
    exact h.byte_out
  · rw [tmem, ← smem, hspoil]
    exact h.check_in
  · rw [tmem, ← smem]
    exact h.check_out
  · rw [tinj, ← sinj]
    exact h.injection
  · rw [tscrub, ← sscrub]
    exact h.scrub

/-- What a write leaves of memory and of the injection, and what it reports; `t` is the state after the command. -/
structure WriteLeaves (parity : Bool) (x : Txn) (s t : State) : Prop where
  counts : Counts x s t
  active : t.fmc.active = none
  wrote : Wrote parity x.bytes x.codewords s t
  scrubber : t.fmc.scrubPos = s.fmc.scrubPos ∧ t.fmc.passes = s.fmc.passes ∧ t.fmc.pace = s.fmc.pace
  fails : ∀ cw ∈ x.codewords, poisons parity x.bytes s.mem cw = true → Raised .memUncorrectable t ∧
    (s.fmc.uncorrectable < 4294967295 → s.fmc.uncorrectable < t.fmc.uncorrectable)
  mends : ∀ cw ∈ x.codewords, covers x.bytes cw = false → (s.mem.check? cw).cls = .correctable → Raised .memCorrected t

/-- The state once a transaction's bytes are written. -/
def writtenBytes (src : ErrorSource) (parity : Bool) (x : Txn) (s : State) : State :=
  writeBytes src parity x.bytes x.codewords (granted x s)

variable {src : ErrorSource} {parity : Bool} (hb : x.bytes ≠ [])
include hb

theorem writtenBytes_written : Written (granted x s) (writtenBytes src parity x s) :=
  writeBytes_written src parity (codewords_ofCells hb)

theorem writtenBytes_leaves (hm : MemOk s) (hf : s.fmc.active = none) {u : State}
    (hmem : u.mem = (writtenBytes src parity x s).mem) (hfmc : u.fmc = (writtenBytes src parity x s).fmc)
    (hraises : u.rqe.raises = (writtenBytes src parity x s).rqe.raises) : WriteLeaves parity x s (finish s u) := by
  have hcells := codewords_ofCells hb
  have hwritten := writtenBytes_written (s := s) (src := src) (parity := parity) hb
  obtain ⟨hactive, hover, hnext⟩ := hwritten.frame.2 .port (by decide) (by decide)
  obtain ⟨hpos, hpasses, hpace⟩ := hwritten.scrubber
  have hm' : (granted x s).mem.wf = true := hm
  refine ⟨counts_of ?_ ?_ ?_, ?_, ?_, ⟨?_, ?_, ?_⟩, fun cw hcw hp => ?_, fun cw hcw hcov hc => ?_⟩
  · rw [finish_fmc_passOver, hfmc, hover]
  · rw [finish_fmc_nextPart, hfmc, hnext]
  · obtain ⟨more, hmore⟩ := finish_waiting s u
    exact ⟨more, by rw [hmore, hfmc, hwritten.waiting]⟩
  · rw [finish_fmc_active, hfmc, hactive]
    exact hf
  · refine (writeBytes_wrote src parity hcells hm').congr ⟨rfl, rfl, rfl⟩ ⟨?_, ?_, ?_⟩
    · rw [finish_mem, hmem]
      rfl
    · rw [finish_fmc_injection, hfmc]
      rfl
    · rw [finish_fmc_scrub, hfmc]
      rfl
  · rw [finish_fmc_scrubPos, hfmc, hpos]
    rfl
  · rw [finish_fmc_passes, hfmc, hpasses]
    rfl
  · rw [finish_fmc_pace, hfmc, hpace]
    rfl
  · obtain ⟨hraise, hcount⟩ := writeBytes_fails src parity hcells hm' hcw hp
    refine ⟨finish_raised _ _ (by rw [hraises]; exact hraise), fun hs => ?_⟩
    rw [finish_fmc_uncorrectable, hfmc]
    exact hcount hs
  · exact finish_raised _ _ (by rw [hraises]; exact writeBytes_mends src parity hcells hm' hcw hcov hc)

theorem writtenBytes_frame :
    OnlyChanges [.port, .mem, .injection, .scrubber, .stb, .errors] s (writtenBytes src parity x s) :=
  ((granted_frame x s).within).andThen (writtenBytes_written hb).frame

theorem writtenBytes_quiet (hm : MemOk s) (hp : parity = false)
    (hc : ∀ cw ∈ x.codewords, covers x.bytes cw = true ∨ (s.mem.check? cw).cls = .clean) :
    ∃ m i st, writtenBytes src parity x s = withDram m i st (granted x s) :=
  writeBytes_quiet src parity (codewords_ofCells hb) hm hp hc

end Write

end Sys2Proof.Machine
end

section
/-! PROOFS. A grant of the DRAM port to a read, or to a write of bytes that come from outside (O49). -/

namespace Sys2Proof.Machine

set_option Elab.async false

/-! ### The facts of a write, as the statement words them -/

theorem poisons_iff (parity : Bool) (cells : List Host.Cell) (m : Memory) (cw : Nat) :
    poisons parity cells m cw = true ↔ parity = true ∨ (¬ (∀ k < 8, cw + k ∈ cells.map (·.1)) ∧
      ((m.check? cw).cls = .poisoned ∨ (m.check? cw).cls = .uncorrectable)) := by
  rw [poisons, Bool.or_eq_true, Bool.and_eq_true, Bool.not_eq_true', ← covers_iff, bad_iff, Bool.not_eq_true]

namespace WriteLeaves

variable {parity : Bool} {x : Txn} {s t : State} (h : WriteLeaves parity x s t) (hb : x.bytes ≠ [])
include h hb

theorem byte_written (hn : (x.bytes.map (·.1)).Nodup) : ∀ c ∈ x.bytes, t.mem.byte c.1 = c.2 := by
  intro c hc
  have hin : c.1 / 8 * 8 ∈ x.codewords :=
    (mem_codewords hb).2 ⟨by omega, c.1, List.mem_map_of_mem hc, by omega, by omega⟩
  rw [h.wrote.byte_in _ hin, merged_of_mem hn hc]

theorem byte_other {a : Nat} (ha : a ∉ x.bytes.map (·.1)) :
    (touches x.bytes (a / 8 * 8) → t.mem.byte a = readByte s.mem a) ∧
      (¬ touches x.bytes (a / 8 * 8) → t.mem.byte a = s.mem.byte a) := by
  refine ⟨fun ht => ?_, fun ht => h.wrote.byte_out _ fun hin => ht ((mem_codewords hb).1 hin)⟩
  rw [h.wrote.byte_in _ ((mem_codewords hb).2 ht), merged_of_not_mem ha]

theorem check_written {cw : Nat} (ht : touches x.bytes cw) :
    t.mem.checkAt cw = checkOf (poisons parity x.bytes s.mem cw) (t.mem.wordAt cw) ^^^ spoil s cw :=
  h.wrote.check_in cw ((mem_codewords hb).2 ht)

theorem check_other {a : Nat} (ha : ¬ touches x.bytes a) : t.mem.checkAt a = s.mem.checkAt a :=
  h.wrote.check_out a fun hin => ha ((mem_codewords hb).1 hin)

omit hb in
theorem injection_none (hi : s.fmc.injection = none) : t.fmc.injection = none := by
  rw [h.wrote.injection, hi]
  rfl

theorem injection_some {a : Nat} {m : BitVec 8} (hi : s.fmc.injection = some (a, m)) :
    (touches x.bytes a → t.fmc.injection = none) ∧ (¬ touches x.bytes a → t.fmc.injection = some (a, m)) := by
  rw [h.wrote.injection, hi]
  exact ⟨fun ht => by simp [Option.filter, (mem_codewords hb).2 ht], fun ht => by simp [Option.filter, mt (mem_codewords hb).1 ht]⟩

omit hb in
theorem scrub_none (hi : s.fmc.scrub = none) : t.fmc.scrub = none := by
  rw [h.wrote.scrub, hi]
  rfl

theorem scrub_some {st : ScrubStep} (hi : s.fmc.scrub = some st) :
    (touches x.bytes st.addr → t.fmc.scrub = some st.seen) ∧ (¬ touches x.bytes st.addr → t.fmc.scrub = some st) := by
  rw [h.wrote.scrub, hi, Option.map_some]
  exact ⟨fun ht => by rw [if_pos ((mem_codewords hb).2 ht)], fun ht => by rw [if_neg (mt (mem_codewords hb).1 ht)]⟩

end WriteLeaves

/-! ### The host's write -/

section HostWrite

variable {x : Txn} {s w : State} {parity : Bool} {cells : List Host.Cell}

/-- The words observed once a host write has observed its own (R61). -/
def sawWords (before : List Observed) (parity : Bool) (cells : List Host.Cell) (m : Memory) : List Observed :=
  let saw := fun a => !parity && cells.any fun c => decide (a ≤ c.1 ∧ c.1 < a + 4)
  let value := fun a => fromLe ((List.range 4).map fun k => m.byte (a + k))
  before ++ (if saw 0x3F001000 then [.tail (value 0x3F001000)] else []) ++
    (if saw 0x3F001004 then [.clear (value 0x3F001004)] else [])

/-- The state after the write of a posted burst: the words observed, the burst's pass-through part done. -/
def hostWritten (parity : Bool) (cells : List Host.Cell) (s : State) : State :=
  { s with rqe := { s.rqe with observed := sawWords s.rqe.observed parity cells s.mem }
           hmp := s.hmp.settleHead fun p => { p with passWaits := false } }

theorem settleHead_same (h : Hmp) (f : Posted → Posted) : ∃ q, h.settleHead f = { h with queue := q } := by
  unfold Hmp.settleHead
  split
  · exact ⟨h.queue, rfl⟩
  · exact ⟨_, rfl⟩

theorem passWritten_eq (h : s.hmp.waiting = []) : passWritten parity cells s = hostWritten parity cells s := by
  have hadmit {u : State} (hu : u.hmp.waiting = []) : admitWaiting u = u := by
    have hsame : { u.hmp with waiting := [] } = u.hmp := by rw [← hu]
    simp only [admitWaiting, hu, List.foldl_nil, hsame]
  obtain ⟨q, hq⟩ := settleHead_same s.hmp fun p => { p with passWaits := false }
  unfold passWritten hostWritten sawWords
  cases parity
  · simp only [Bool.not_false, Bool.true_and, List.append_assoc]
    exact hadmit ((congrArg Hmp.waiting hq).trans h)
  · simp only [Bool.not_true, Bool.false_and, Bool.false_eq_true, if_false, List.append_nil]
    exact hadmit ((congrArg Hmp.waiting hq).trans h)

theorem hostWritten_frame (parity : Bool) (cells : List Host.Cell) (s : State) :
    OnlyChanges [.posted, .tail] s (hostWritten parity cells s) := by
  obtain ⟨q, hq⟩ := settleHead_same s.hmp fun p => { p with passWaits := false }
  unfold hostWritten
  rw [hq]
  refine ⟨rfl, fun p hp hf => ?_⟩
  cases p <;> simp_all [Part.agree, followUp]

theorem hostWritten_hmp (parity : Bool) (cells : List Host.Cell) (s : State) :
    (∀ p more, s.hmp.queue = p :: more → (hostWritten parity cells s).hmp.queue =
      if p.heldBeats = [] then more else { p with passWaits := false } :: more) ∧
    (hostWritten parity cells s).hmp.waiting = s.hmp.waiting ∧ (hostWritten parity cells s).hmp.nextId = s.hmp.nextId := by
  obtain ⟨q, hq⟩ := settleHead_same s.hmp fun p => { p with passWaits := false }
  refine ⟨fun p more hqueue => ?_, (congrArg Hmp.waiting hq :), (congrArg Hmp.nextId hq :)⟩
  show (s.hmp.settleHead fun p => { p with passWaits := false }).queue = _
  rw [Hmp.settleHead, hqueue]
  rcases hh : p.heldBeats with _ | ⟨b, bs⟩ <;> simp [hh]

end HostWrite

/-! ### The obligation -/

/-- What a grant to a write leaves in the statement's words, but for the words observed and the frame. -/
theorem WriteLeaves.spelled {parity : Bool} {x : Txn} {s t : State} (h : WriteLeaves parity x s t) (hb : x.bytes ≠ [])
    {marked : Prop} (hp : marked ↔ parity = true) :
    let bad := fun cw => ¬ (∀ k < 8, cw + k ∈ x.bytes.map (·.1)) ∧
      ((s.mem.check? cw).cls = .poisoned ∨ (s.mem.check? cw).cls = .uncorrectable)
    (∀ cw, touches x.bytes cw →
      (marked ∨ bad cw → t.mem.checkAt cw = checkBits (t.mem.wordAt cw) ^^^ 0x81 ^^^ spoil s cw) ∧
      (¬ marked → ¬ bad cw → t.mem.checkAt cw = checkBits (t.mem.wordAt cw) ^^^ spoil s cw)) ∧
    ((marked ∨ ∃ cw, touches x.bytes cw ∧ bad cw) → Raised .memUncorrectable t ∧
      (s.fmc.uncorrectable < 4294967295 → s.fmc.uncorrectable < t.fmc.uncorrectable)) ∧
    ((∃ cw, touches x.bytes cw ∧ ¬ (∀ k < 8, cw + k ∈ x.bytes.map (·.1)) ∧ (s.mem.check? cw).cls = .correctable) →
      Raised .memCorrected t) := by
  intro bad
  have hpoisons (cw : Nat) : poisons parity x.bytes s.mem cw = true ↔ marked ∨ bad cw := by
    rw [poisons_iff, hp]
  refine ⟨fun cw ht => ⟨fun hfail => ?_, fun hno hgood => ?_⟩, fun hfail => ?_, fun hmend => ?_⟩
  · rw [h.check_written hb ht, checkOf, if_pos ((hpoisons cw).2 hfail)]
    rfl
  · rw [h.check_written hb ht, checkOf, if_neg fun he => ((hpoisons cw).1 he).elim hno hgood]
  · rcases hfail with hmark | ⟨cw, ht, hbad⟩
    · obtain ⟨c, hc⟩ := List.exists_mem_of_ne_nil _ hb
      have ht : touches x.bytes (c.1 / 8 * 8) := ⟨by omega, c.1, List.mem_map_of_mem hc, by omega, by omega⟩
      exact h.fails _ ((mem_codewords hb).2 ht) ((hpoisons _).2 (.inl hmark))
    · exact h.fails cw ((mem_codewords hb).2 ht) ((hpoisons cw).2 (.inr hbad))
  · obtain ⟨cw, ht, hpart, hc⟩ := hmend
    refine h.mends cw ((mem_codewords hb).2 ht) ?_ hc
    rwa [← Bool.not_eq_true, covers_iff]

/-- A write that finds no error reports none. -/
theorem quiet_of_not_failed {parity : Bool} {x : Txn} {s : State} (src : ErrorSource) (hb : x.bytes ≠ []) (hm : MemOk s)
    {marked : Prop} (hp : marked ↔ parity = true)
    (hgood : ¬ (marked ∨ ∃ cw, touches x.bytes cw ∧ ¬ (∀ k < 8, cw + k ∈ x.bytes.map (·.1)) ∧
      ((s.mem.check? cw).cls = .poisoned ∨ (s.mem.check? cw).cls = .uncorrectable)))
    (hclean : ¬ ∃ cw, touches x.bytes cw ∧ ¬ (∀ k < 8, cw + k ∈ x.bytes.map (·.1)) ∧
      (s.mem.check? cw).cls = .correctable) :
    OnlyChanges [.port, .mem, .injection, .scrubber] s (writtenBytes src parity x s) := by
  obtain ⟨hmark, hbad⟩ := not_or.1 hgood
  obtain ⟨m, i, st, hquiet⟩ := writtenBytes_quiet (src := src) hb hm (by simpa using mt hp.2 hmark) fun cw hcw => by
    have ht := (mem_codewords hb).1 hcw
    by_cases hcov : covers x.bytes cw = true
    · exact .inl hcov
    · rw [covers_iff] at hcov
      refine .inr ?_
      rcases hcls : (s.mem.check? cw).cls with _ | _ | _ | _
      · rfl
      · exact absurd ⟨cw, ht, hcov, hcls⟩ hclean
      · exact absurd ⟨cw, ht, hcov, .inl hcls⟩ hbad
      · exact absurd ⟨cw, ht, hcov, .inr hcls⟩ hbad
  rw [hquiet]
  exact ((granted_frame x s).within).andThen (withDram_frame m i st _)

/-- The write granted, by its source. -/
theorem grantEffect_write {x : Txn} {s : State}
    (hkind : x.kind = .hostWrite ∨ x.kind = .captureWrite ∨ x.kind = .cardWrite) (hb : x.bytes ≠ [])
    (hwaiting : x.kind = .hostWrite → s.hmp.waiting = []) : ∃ src p,
      (x.parity = true ∧ x.kind ≠ .cardWrite ↔ p = true) ∧
        grantEffect x (granted x s) = if x.kind = .hostWrite then hostWritten x.parity x.bytes (writtenBytes src p x s)
          else writtenBytes src p x s := by
  rcases hkind with hkind | hkind | hkind
  · refine ⟨.hostRmw, x.parity, by simp [hkind], ?_⟩
    have hwait : (writtenBytes .hostRmw x.parity x s).hmp.waiting = [] :=
      ((writtenBytes_frame hb).2 .posted (by decide) (by decide)).2.1.trans (hwaiting hkind)
    rw [if_pos hkind, ← passWritten_eq hwait, grantEffect]
    simp only [hkind]
    rfl
  · refine ⟨.captureRmw, x.parity, by simp [hkind], ?_⟩
    rw [if_neg (by simp [hkind]), grantEffect]
    simp only [hkind]
    rfl
  · refine ⟨.cardReadMerge, false, by simp [hkind], ?_⟩
    rw [if_neg (by simp [hkind]), grantEffect]
    simp only [hkind]
    rfl

/-- The state after a write of the host leaves, of the write itself, what the write left. -/
theorem hostWritten_same (c : Prop) [Decidable c] (parity : Bool) (cells : List Host.Cell) (w : State) :
    let u := if c then hostWritten parity cells w else w
    u.mem = w.mem ∧ u.fmc = w.fmc ∧ u.rqe.raises = w.rqe.raises ∧
      OnlyChanges (if c then [.posted, .tail] else []) w u := by
  by_cases h : c
  · rw [if_pos h, if_pos h]
    exact ⟨rfl, rfl, rfl, hostWritten_frame parity cells w⟩
  · rw [if_neg h, if_neg h]
    exact ⟨rfl, rfl, rfl, OnlyChanges.refl _ w⟩

/-- The posted burst and the words observed after a host write. -/
theorem hostWritten_leaves {x : Txn} {s : State} {src : ErrorSource} {p : Bool} (hb : x.bytes ≠ [])
    (hwaiting : s.hmp.waiting = []) : let t := finish s (hostWritten x.parity x.bytes (writtenBytes src p x s))
      (∀ p more, s.hmp.queue = p :: more →
        t.hmp.queue = if p.heldBeats = [] then more else { p with passWaits := false } :: more) ∧
      t.rqe.observed = sawWords s.rqe.observed x.parity x.bytes t.mem ∧ t.rqe.tail = s.rqe.tail ∧
      t.rqe.ringFaults = s.rqe.ringFaults ∧ t.hmp.waiting = [] ∧ t.hmp.nextId = s.hmp.nextId := by
  intro t
  set w := writtenBytes src p x s with hw
  have hframe : OnlyChanges _ s w := writtenBytes_frame hb
  obtain ⟨hqueue, hwait, hid⟩ := hframe.2 .posted (by decide) (by decide)
  obtain ⟨htail, hfaults, hseen⟩ := hframe.2 .tail (by decide) (by decide)
  obtain ⟨hdone, hwait', hid'⟩ := hostWritten_hmp x.parity x.bytes w
  refine ⟨fun p more h => (finish_hmp_queue _ _).trans (hdone p more (hqueue.trans h)), ?_, ?_, ?_,
    ((finish_hmp_waiting _ _).trans hwait').trans (hwait.trans hwaiting),
    ((finish_hmp_nextId _ _).trans hid').trans hid⟩
  · rw [finish_rqe, finish_observed, finish_mem, ← hseen]
    rfl
  · rw [finish_rqe, finish_tail, ← htail]
    rfl
  · rw [finish_rqe, finish_ringFaults, ← hfaults]
    rfl

/-- Settles O49: a read holds the port; a write merges its bytes, codeword by codeword. -/
theorem portGrant : Obligations.PortGrant := by
  intro s x hs hpath hactive hx host counts
  have hgrant := grant_eq hpath hactive hx
  rw [exec_dramGrant]
  refine ⟨?_, fun hkind hm hb hn hwaiting => ?_⟩
  · rintro ⟨n, hkind⟩
    have heffect : grant s = occupyPort x (granted x s) := by
      rw [hgrant, grantEffect]
      rcases hkind with h | h | h | h | h | h <;> simp only [h]
    exact ⟨_, event_to hs heffect, occupied_counts x x s s, finish_fmc_active _ _,
      ((granted_frame x s).trans (occupyPort_frame x _)).finish s⟩
  intro written touched whole cls parity bad spoils failed mended parts
  obtain ⟨src, p, hp, heffect⟩ := grantEffect_write hkind hb hwaiting
  obtain ⟨hmem, hfmc, hraises, hframe⟩ := hostWritten_same (x.kind = .hostWrite) x.parity x.bytes (writtenBytes src p x s)
  have hleaves := writtenBytes_leaves hb hm hactive hmem hfmc hraises
  obtain ⟨hchecks, hfails, hmends⟩ := hleaves.spelled hb hp
  have hquiet (hgood : ¬ failed) (hclean : ¬ mended) := quiet_of_not_failed src hb hm hp hgood hclean
  have hparts {q : Part} (hq : q ∈ if x.kind = .hostWrite then [Part.posted, .tail] else []) : q ∈ parts :=
    List.mem_append_right _ hq
  have hbase {q : Part} (hq : q ∈ [Part.port, .mem, .injection, .scrubber]) : q ∈ parts := List.mem_append_left _ hq
  refine ⟨_, event_to hs (hgrant.trans heffect), hleaves.counts, hleaves.active, hleaves.byte_written hb hn,
    fun a ha => hleaves.byte_other hb ha, hchecks, fun a ha => hleaves.check_other hb ha, hleaves.injection_none,
    fun a m ha => hleaves.injection_some hb ha, hleaves.scrub_none, fun st hst => hleaves.scrub_some hb hst,
    hleaves.scrubber.1, hleaves.scrubber.2.1, hleaves.scrubber.2.2, hfails, hmends, fun hhost => ?_,
    fun hgood hclean => ?_, ?_⟩
  · rw [if_pos hhost]
    exact hostWritten_leaves hb (hwaiting hhost)
  · exact (((hquiet hgood hclean).mono fun q hq => hbase hq).trans (hframe.mono fun q hq => hparts hq)).finish s
  · refine (OnlyChanges.trans ((writtenBytes_frame hb).mono fun q hq => ?_)
      (hframe.mono fun q hq => List.mem_append_left _ (hparts hq))).finish s
    have hsplit : q ∈ [Part.port, .mem, .injection, .scrubber] ++ [.stb, .errors] := hq
    rcases List.mem_append.1 hsplit with hq | hq
    · exact List.mem_append_left _ (hbase hq)
    · exact List.mem_append_right _ hq

end Sys2Proof.Machine
end

section
/-! PROOFS. The part's own writes of whole codewords (R129, R140, R144), and what a mirror write counts for (R138, R201). -/

namespace Sys2Proof.Machine

set_option Elab.async false

/-! ### A record of whole codewords -/

section Record

variable {a : Nat} {bs : List Byte} {cws : List Nat} {s t : State}

/-- A record in memory, with fresh check bits, spoiled once by an injection armed there (R140), and the counts of a grant to
a part source. -/
def Put (x : Txn) (a : Nat) (bs : List Byte) (s t : State) : Prop :=
  let inside := fun c => a ≤ c ∧ c < a + bs.length
  (∀ k b, bs[k]? = some b → t.mem.byte (a + k) = b) ∧ (∀ j, ¬ inside j → t.mem.byte j = s.mem.byte j) ∧
  (∀ cw, cw % 8 = 0 → inside cw → t.mem.checkAt cw = checkBits (t.mem.wordAt cw) ^^^ spoil s cw) ∧
  (∀ j, ¬ (j % 8 = 0 ∧ inside j) → t.mem.checkAt j = s.mem.checkAt j) ∧
  (s.fmc.injection = none → t.fmc.injection = none) ∧
  (∀ c m, s.fmc.injection = some (c, m) → t.fmc.injection = if c % 8 = 0 ∧ inside c then none else some (c, m)) ∧
  t.fmc.scrubPos = s.fmc.scrubPos ∧ t.fmc.passes = s.fmc.passes ∧ t.fmc.pace = s.fmc.pace ∧
  t.fmc.passOver = {} ∧ t.fmc.nextPart = x.kind.source.next

/-- The watch of a scrub step on the codewords of a record. -/
def Watched (a n : Nat) (s t : State) : Prop :=
  (s.fmc.scrub = none → t.fmc.scrub = none) ∧
    ∀ st, s.fmc.scrub = some st → t.fmc.scrub = some (if st.addr % 8 = 0 ∧ a ≤ st.addr ∧ st.addr < a + n then
      st.seen else st)

/-- The codewords are those a record lies in. -/
def Within (a : Nat) (bs : List Byte) (cws : List Nat) : Prop :=
  cws.Nodup ∧ ∀ cw, cw ∈ cws ↔ cw % 8 = 0 ∧ a ≤ cw ∧ cw < a + bs.length

theorem mem_cellsAt {c : Host.Cell} : c ∈ cellsAt a bs ↔ ∃ k, bs[k]? = some c.2 ∧ c.1 = a + k := by
  induction bs generalizing a with
  | nil => simp [cellsAt]
  | cons v vs ih =>
    obtain ⟨x, b⟩ := c
    rw [cellsAt, List.mem_cons, ih, Prod.mk.injEq]
    constructor
    · rintro (⟨rfl, rfl⟩ | ⟨k, hk, rfl⟩)
      · exact ⟨0, rfl, rfl⟩
      · exact ⟨k + 1, hk, by omega⟩
    · rintro ⟨_ | k, hk, hx⟩
      · exact .inl ⟨hx, (Option.some.inj hk).symm⟩
      · exact .inr ⟨k, hk, hx.trans (by omega)⟩

theorem mem_cellsAt_fst {x : Nat} : x ∈ (cellsAt a bs).map (·.1) ↔ a ≤ x ∧ x < a + bs.length := by
  rw [List.mem_map]
  constructor
  · rintro ⟨c, hc, rfl⟩
    obtain ⟨k, hk, hx⟩ := mem_cellsAt.1 hc
    obtain ⟨hlt, -⟩ := List.getElem?_eq_some_iff.1 hk
    omega
  · rintro ⟨hlo, hhi⟩
    exact ⟨(x, bs[x - a]), mem_cellsAt.2 ⟨x - a, List.getElem?_eq_getElem _, show x = a + (x - a) by omega⟩, rfl⟩

theorem merged_cellsAt {k : Nat} {b : Byte} (h : bs[k]? = some b) (m : Memory) : merged (cellsAt a bs) m (a + k) = b := by
  rw [merged, find_cellsAt, if_pos (by omega), Nat.add_sub_cancel_left, h]
  rfl

theorem codewordsOf_within (h8 : a % 8 = 0) (hl : bs.length % 8 = 0) : Within a bs (codewordsOf a bs.length) := by
  constructor
  · unfold codewordsOf
    split
    · exact List.nodup_nil
    · refine List.Nodup.map (fun i j hij => ?_) List.nodup_range
      have hij : (a / 8 + i) * 8 = (a / 8 + j) * 8 := hij
      omega
  · intro cw
    rcases Nat.eq_zero_or_pos bs.length with hz | hp
    · rw [codewordsOf, if_pos hz, hz]
      simp only [List.not_mem_nil, false_iff]
      omega
    · rw [mem_codewordsOf hp]
      omega

/-- The codewords of a transaction whose bytes are a record's. -/
theorem codewords_within {x : Txn} (hx : x.bytes = cellsAt a bs) (h8 : a % 8 = 0) (hl : bs.length % 8 = 0)
    (hne : bs ≠ []) : Within a bs x.codewords := by
  have hb : x.bytes ≠ [] := by
    rw [hx]
    obtain ⟨b, bs, rfl⟩ := List.exists_cons_of_ne_nil hne
    simp [cellsAt]
  refine ⟨(codewords_ofCells hb).1, fun cw => ?_⟩
  rw [mem_codewords hb, touches, hx]
  simp only [mem_cellsAt_fst]
  constructor
  · rintro ⟨hcw, y, ⟨hlo, hhi⟩, h1, h2⟩
    omega
  · rintro ⟨hcw, hlo, hhi⟩
    exact ⟨hcw, cw, ⟨hlo, hhi⟩, Nat.le_refl _, by omega⟩

section Within

variable (h8 : a % 8 = 0) (hl : bs.length % 8 = 0) (hw : Within a bs cws)
include h8 hl hw

theorem Within.covers {cw : Nat} (hcw : cw ∈ cws) : covers (cellsAt a bs) cw = true := by
  rw [covers_iff]
  intro k hk
  obtain ⟨h0, hlo, hhi⟩ := (hw.2 cw).1 hcw
  exact mem_cellsAt_fst.2 ⟨by omega, by omega⟩

omit h8 hl in
theorem Within.ofCells : OfCells (cellsAt a bs) cws := by
  refine ⟨hw.1, fun cw hcw => ?_⟩
  obtain ⟨h0, hlo, hhi⟩ := (hw.2 cw).1 hcw
  obtain ⟨c, hc, he⟩ := List.mem_map.1 (mem_cellsAt_fst.2 ⟨hlo, hhi⟩)
  exact ⟨h0, c, hc, by omega⟩

/-- The write of a record reads nothing and reports nothing. -/
theorem Within.written (hm : s.mem.wf = true) : ∃ m i st, writeBytes .hostRmw false (cellsAt a bs) cws s = withDram m i st s ∧
    Wrote false (cellsAt a bs) cws s (withDram m i st s) := by
  have hcells := hw.ofCells
  obtain ⟨m, i, st, h⟩ := writeBytes_quiet .hostRmw false hcells hm rfl fun cw hcw => .inl (hw.covers h8 hl hcw)
  exact ⟨m, i, st, h, h ▸ writeBytes_wrote .hostRmw false hcells hm⟩

theorem Within.put {x : Txn} (h : Wrote false (cellsAt a bs) cws s t) (hpos : t.fmc.scrubPos = s.fmc.scrubPos)
    (hpasses : t.fmc.passes = s.fmc.passes) (hpace : t.fmc.pace = s.fmc.pace) (hover : t.fmc.passOver = {})
    (hnext : t.fmc.nextPart = x.kind.source.next) : Put x a bs s t := by
  have hcw (x : Nat) : x / 8 * 8 ∈ cws ↔ a ≤ x ∧ x < a + bs.length := by
    rw [hw.2]
    omega
  refine ⟨fun k b hk => ?_, fun j hj => ?_, fun cw h0 hin => ?_, fun j hj => h.check_out j fun hin => hj ((hw.2 j).1 hin),
    fun hi => ?_, fun c m hi => ?_, hpos, hpasses, hpace, hover, hnext⟩
  · obtain ⟨hlt, -⟩ := List.getElem?_eq_some_iff.1 hk
    rw [h.byte_in _ ((hcw _).2 ⟨by omega, by omega⟩), merged_cellsAt hk]
  · exact h.byte_out j fun hin => hj ((hcw j).1 hin)
  · have hmem := (hw.2 cw).2 ⟨h0, hin⟩
    rw [h.check_in cw hmem, checkOf, poisons, hw.covers h8 hl hmem]
    rfl
  · rw [h.injection, hi]
    rfl
  · rw [h.injection, hi]
    by_cases hin : c % 8 = 0 ∧ a ≤ c ∧ c < a + bs.length
    · rw [if_pos hin]
      simp [Option.filter, (hw.2 c).2 hin]
    · rw [if_neg hin]
      simp [Option.filter, mt (hw.2 c).1 hin]

omit h8 hl in
theorem Within.watched (h : Wrote false (cellsAt a bs) cws s t) : Watched a bs.length s t := by
  refine ⟨fun hi => ?_, fun st hi => ?_⟩
  · rw [h.scrub, hi]
    rfl
  · rw [h.scrub, hi, Option.map_some]
    simp only [hw.2]

end Within

end Record

/-! ### A record written at a grant -/

section Grant

variable {x : Txn} {s : State} {a : Nat} {bs : List Byte}

/-- The controller's fields that a write of the part leaves as the grant and the memory's write left them. -/
structure Keeps (w u : State) : Prop where
  mem : u.mem = w.mem
  injection : u.fmc.injection = w.fmc.injection
  scrubPos : u.fmc.scrubPos = w.fmc.scrubPos
  passes : u.fmc.passes = w.fmc.passes
  pace : u.fmc.pace = w.fmc.pace
  passOver : u.fmc.passOver = w.fmc.passOver
  nextPart : u.fmc.nextPart = w.fmc.nextPart
  scrub : u.fmc.scrub = w.fmc.scrub

theorem Within.atGrant {m : Memory} {i : Option (Nat × BitVec 8)} {st : Option ScrubStep} {cws : List Nat} {u : State}
    (hx : x.kind.source ≠ .host) (h8 : a % 8 = 0) (hl : bs.length % 8 = 0) (hw : Within a bs cws)
    (h : Wrote false (cellsAt a bs) cws (granted x s) (withDram m i st (granted x s)))
    (hu : Keeps (withDram m i st (granted x s)) u) : Put x a bs s (finish s u) ∧ Watched a bs.length s (finish s u) := by
  have hwrote : Wrote false (cellsAt a bs) cws s (finish s u) := h.congr ⟨rfl, rfl, rfl⟩
    ⟨(finish_mem _ _).trans hu.mem, (finish_fmc_injection _ _).trans hu.injection, (finish_fmc_scrub _ _).trans hu.scrub⟩
  exact ⟨hw.put h8 hl hwrote ((finish_fmc_scrubPos _ _).trans hu.scrubPos) ((finish_fmc_passes _ _).trans hu.passes)
    ((finish_fmc_pace _ _).trans hu.pace) (((finish_fmc_passOver _ _).trans hu.passOver).trans (if_neg hx))
    (((finish_fmc_nextPart _ _).trans hu.nextPart).trans (if_neg hx)), hw.watched hwrote⟩

/-- The state once the part's record is written, at the grant. -/
theorem writeRecord_granted (hm : MemOk s) (h8 : a % 8 = 0) (hl : bs.length % 8 = 0) : ∃ m i st,
    writeRecord a bs (granted x s) = withDram m i st (granted x s) ∧
      Wrote false (cellsAt a bs) (codewordsOf a bs.length) (granted x s) (withDram m i st (granted x s)) :=
  (codewordsOf_within h8 hl).written h8 hl hm

theorem grantedDram_frame (x : Txn) (m : Memory) (i : Option (Nat × BitVec 8)) (st : Option ScrubStep) (s : State) :
    OnlyChanges [.port, .mem, .injection, .scrubber] s (withDram m i st (granted x s)) :=
  ((granted_frame x s).within).andThen (withDram_frame m i st _)

end Grant

/-! ### What a mirror write counts for -/

section Holds

variable {f : Hold → Hold} {s u : State}

theorem settled_raises {r : Raise} {h : Hold} (hr : r ∈ u.rqe.raises) (hh : r.hold = some h) :
    if h.done then (finish s u).rqe.flags &&& r.flag.mask ≠ 0 ∨ r.flag ∈ (finish s u).rqe.made
    else r ∈ (finish s u).rqe.raises := by
  rw [finish_rqe]
  split
  · rename_i hdone
    exact settleRqe_ripe _ _ hr hh hdone
  · rename_i hwait
    exact settleRqe_waits _ _ hr hh (by simpa using hwait)

/-- An answer whose writes are all made is given, another waits on. -/
theorem payReply_answers {v : Service} {a : Answer} {h : Hold} (hv : s.rqe.service = some v)
    (hu : u.rqe.service = some { v with stage := .answering a h }) (hlast : u.rqe.lastAnswer = s.rqe.lastAnswer) :
    let t := finish s (payReply u)
    if h.done then Answered a s t
    else t.rqe.service = some { v with stage := .answering a h } ∧ t.rqe.lastAnswer = s.rqe.lastAnswer := by
  intro t
  split
  · rename_i hdone
    cases (Hold.done_iff h).1 hdone
    have hans : payReply u = answer a u := payReply_of_paid hu rfl
    refine ⟨?_, fun x k hx hk => ?_⟩
    · rw [finish_rqe, finish_lastAnswer, hans]
      exact answer_lastAnswer a _
    · cases hv.symm.trans hx
      have he := hans.trans (answer_of_ring hu (by exact hk) a)
      refine ⟨?_, finish_presented _ _ ?_⟩
      · rw [finish_rqe, finish_service, he]
        rfl
      · rw [he]
        exact List.mem_append_right _ List.mem_cons_self
  · rename_i hwait
    have hsame : payReply u = u := payReply_of_unpaid fun y b w hy hst hzero => by
      cases hu.symm.trans hy
      cases hst
      exact hwait ((Hold.done_iff _).2 hzero)
    exact ⟨by rw [finish_rqe, finish_service, hsame, hu], by rw [finish_rqe, finish_lastAnswer, hsame, hlast]⟩

theorem payReply_keeps (u : State) : Keeps u (payReply u) ∧ (payReply u).fmc.active = u.fmc.active ∧
    (payReply u).rqe.jobs = u.rqe.jobs ∧ (payReply u).stb = u.stb := by
  have hans (a : Answer) : Keeps u (answer a u) ∧ (answer a u).fmc.active = u.fmc.active ∧
      (answer a u).rqe.jobs = u.rqe.jobs ∧ (answer a u).stb = u.stb := by
    obtain ⟨-, he⟩ | ⟨w, -, -, he⟩ | ⟨w, k, -, -, he⟩ := answer_cases a u <;> rw [he] <;>
      exact ⟨⟨rfl, rfl, rfl, rfl, rfl, rfl, rfl, rfl⟩, rfl, rfl, rfl⟩
  have hrefl : Keeps u u ∧ u.fmc.active = u.fmc.active ∧ u.rqe.jobs = u.rqe.jobs ∧ u.stb = u.stb :=
    ⟨⟨rfl, rfl, rfl, rfl, rfl, rfl, rfl, rfl⟩, rfl, rfl, rfl⟩
  unfold payReply
  split
  · exact hrefl
  · split
    · split
      · exact hans _
      · exact hrefl
    all_goals exact hrefl

end Holds

end Sys2Proof.Machine
end

section
/-! PROOFS. The part's own writes as they are granted (R115, R140, R144, R198, R200, R201, R206; O50). -/

namespace Sys2Proof.Machine

set_option Elab.async false

/-! ### The completion -/

theorem length_padTo {n : Nat} {bs : List Byte} (h : bs.length ≤ n) : (padTo n bs).length = n := by
  rw [padTo, List.length_append, List.length_replicate]
  omega

/-- The engine's completion of an answered request (R198). -/
theorem completionOf_eq {q : Rqe} {k tag : Nat} {a : Answer} (h : q.service = some ⟨some k, tag, .answered a⟩)
    (hl : a.result.length ≤ 24) : completionOf q = le 2 tag ++ le 1 a.code.code ++ le 1 k ++
      le 4 ((q.completionNo + 1) % 4294967296) ++ a.result ++ List.replicate (24 - a.result.length) 0 := by
  rw [completionOf, h]
  simp only [completionBytes, padTo, wrapSucc, List.length_append, length_le]
  congr 2
  omega

/-! ### A piece of the status block -/

/-- A piece of content shows nothing of the port, of memory, of the scrub step and of the request in service. -/
theorem statusPiece_congr {k : Nat} (hk : 0 < k) {m : Memory} {i : Option (Nat × BitVec 8)} {st : Option ScrubStep}
    {x y : Txn} {q : Rqe} {s : State} (hi : i = s.fmc.injection) :
    statusPiece k (occupyPort y (withRqe q (withDram m i st (granted x s)))) = statusPiece k s := by
  subst hi
  unfold statusPiece pieceFields
  split
  · exact absurd hk (by omega)
  all_goals rfl

theorem settleRqe_unmarked {b a : State} {k : Nat} (hk : 0 < k) (h : k ∉ a.rqe.marked)
    (hsame : statusPiece k a = statusPiece k b) : k ∉ (settleRqe b a).marked := by
  intro hin
  have hfilter : k ∈ (settleRqe b a).marked.filter (· != 0) := List.mem_filter.2 ⟨hin, by simpa using hk.ne'⟩
  rw [settleRqe, (makeRaises_cases _).2.2.2.2.1, List.mem_filter, placeRaises_marked, markChanges_mem,
    mirrorChanges_marked] at hfilter
  rcases hfilter.1 with hm | ⟨-, hne⟩
  · exact h hm
  · exact hne hsame

/-- No answer waits for writes. -/
def NoAnswer (s : State) : Prop := ∀ v a h, s.rqe.service = some v → v.stage ≠ .answering a h

section Piece

variable {k : Nat} (l : List Nat) (f : Hold → Hold) {s : State}

theorem pieceCarried_onlyChanges (h : k = 0) (s : State) : OnlyChanges [] s (withRqe (pieceGranted k s.rqe) s) := by
  rw [pieceGranted, if_pos h]
  refine ⟨rfl, fun p hp hf => ?_⟩
  cases p <;> simp_all [Part.agree, withRqe, followUp]

theorem withMarked_onlyChanges (s : State) : OnlyChanges [] s (withRqe { s.rqe with marked := l } s) := by
  refine ⟨rfl, fun p hp hf => ?_⟩
  cases p <;> simp_all [Part.agree, withRqe, followUp]

theorem markedHolds_onlyChanges (s : State) : OnlyChanges [.service] s (withRqe ({ s.rqe with marked := l }.mapHolds f) s) :=
  ((withMarked_onlyChanges l s).within).andThen (mapHolds_onlyChanges f (withRqe { s.rqe with marked := l } s))

theorem markedHolds_of_not_answering (h : NoAnswer s) :
    OnlyChanges [] s (withRqe ({ s.rqe with marked := l }.mapHolds f) s) :=
  (withMarked_onlyChanges l s).trans (mapHolds_of_not_answering f (s := withRqe { s.rqe with marked := l } s) (by exact h))

end Piece

/-! ### A mirror entry -/

theorem length_leInt (k : Nat) (i : Int) : (leInt k i).length = k := length_le k _

theorem length_flatMap_le (k : Nat) (l : List Nat) : (l.flatMap (le k)).length = l.length * k := by
  induction l with
  | nil => simp
  | cons n l ih =>
    rw [List.flatMap_cons, List.length_append, ih, length_le, List.length_cons]
    ring

/-- A mirror entry ends with its update number. -/
theorem mirrorEntry_ends (u : Nat) {c : Option ShotRecord} (h : ∀ r, c = some r → r.stats.histogram.length = 16) :
    ∃ bs, mirrorEntry u c = bs ++ le 4 u ∧ bs.length = 252 := by
  unfold mirrorEntry
  rcases c with _ | r
  · refine ⟨_, rfl, ?_⟩
    simp only [List.length_append, length_le, List.length_replicate]
  · refine ⟨_, rfl, ?_⟩
    simp only [List.length_append, length_le, List.length_replicate, length_leInt, length_flatMap_le, h r rfl]

/-- A mirror entry begins with its update number. -/
theorem mirrorEntry_begins (u : Nat) (c : Option ShotRecord) : ∃ bs, mirrorEntry u c = le 4 u ++ bs := by
  unfold mirrorEntry
  rcases c with _ | r <;> simp only [List.append_assoc] <;> exact ⟨_, rfl⟩

/-- The part of a mirror entry that one transaction writes. -/
theorem mirrorPart (u : Nat) {c : Option ShotRecord} (h : ∀ r, c = some r → r.stats.histogram.length = 16) {k : Nat}
    (hk : k ≤ 3) : let bs := ((mirrorEntry u c).drop (64 * k)).take 64
      bs.length = 64 ∧ (k = 0 → bs.take 4 = le 4 u) ∧ (k = 3 → bs.drop 60 = le 4 u) := by
  obtain ⟨front, hends, hfront⟩ := mirrorEntry_ends u h
  obtain ⟨back, hbegins⟩ := mirrorEntry_begins u c
  have hlen : (mirrorEntry u c).length = 256 := by rw [hends, List.length_append, length_le, hfront]
  refine ⟨?_, ?_, ?_⟩
  · rw [List.length_take, List.length_drop, hlen]
    omega
  · rintro rfl
    rw [Nat.mul_zero, List.drop_zero, List.take_take, hbegins]
    exact List.take_left' (length_le 4 u)
  · rintro rfl
    have htail : ((mirrorEntry u c).drop (64 * 3)).take 64 = (mirrorEntry u c).drop (64 * 3) :=
      List.take_of_length_le (by rw [List.length_drop, hlen])
    rw [htail, List.drop_drop, hends]
    exact List.drop_left' hfront

theorem length_errorEntryBytes (c : Option LogEntry) : (errorEntryBytes c).length = 32 := by
  rcases c with _ | e
  · exact List.length_replicate
  · exact length_padTo (by simp [length_le])

theorem length_errorHeaderBytes (u n o : Nat) : (errorHeaderBytes u n o).length = 32 :=
  length_padTo (by simp [length_le])

theorem length_defectBytes (e : Option DefectEntry) : (defectBytes e).length = 8 := by
  rcases e with _ | e
  · rfl
  · simp [defectBytes, length_le]

/-! ### The grants -/

section Grants

variable {x : Txn} {s : State} (hs : s.resetHeld = false) (hgrant : grant s = grantEffect x (granted x s))
  (hactive : s.fmc.active = none) (hm : MemOk s)
include hs hgrant hm

theorem completion_granted {k tag : Nat} {a : Answer} (hkind : x.kind = .completionWrite)
    (haddr : x.addr = 0x3F002060 + 128 * k) (hv : s.rqe.service = some ⟨some k, tag, .answered a⟩)
    (hl : a.result.length ≤ 24) :
    let bs := le 2 tag ++ le 1 a.code.code ++ le 1 k ++ le 4 ((s.rqe.completionNo + 1) % 4294967296) ++ a.result ++
      List.replicate (24 - a.result.length) 0
    ∃ t, event s grant = .next t ∧ Put x x.addr bs s t ∧ Watched x.addr 32 s t ∧ t.fmc.active = some x ∧
      OnlyChanges [.port, .mem, .injection, .scrubber] s t := by
  intro bs
  have hlen : bs.length = 32 := by
    simp only [bs, List.length_append, length_le, List.length_replicate]
    omega
  have h8 : x.addr % 8 = 0 := by omega
  have hl8 : bs.length % 8 = 0 := by omega
  obtain ⟨m, i, st, hwrite, hwrote⟩ := writeRecord_granted (x := x) (a := x.addr) hm h8 hl8
  have heffect : grant s = occupyPort x (withDram m i st (granted x s)) := by
    rw [hgrant, grantEffect, ← hwrite]
    simp only [hkind]
    have hbytes : completionOf (granted x s).rqe = bs := completionOf_eq hv hl
    rw [hbytes]
  have hsource : x.kind.source ≠ .host := by rw [hkind]; decide
  obtain ⟨hput, hwatch⟩ := (codewordsOf_within h8 hl8).atGrant (u := occupyPort x (withDram m i st (granted x s))) hsource h8
    hl8 hwrote ⟨rfl, rfl, rfl, rfl, rfl, rfl, rfl, rfl⟩
  rw [hlen] at hwatch
  exact ⟨_, event_to hs heffect, hput, hwatch, finish_fmc_active _ _,
    ((grantedDram_frame x m i st s).andThen (occupyPort_frame x _)).finish s⟩

theorem piece_granted {k : Nat} (hkind : x.kind = .pieceWrite k) (haddr : x.addr = 0x3F000000 + 64 * k)
    (hlen : (statusPiece k s).length = 64) :
    ∃ t, event s grant = .next t ∧ Put x x.addr (statusPiece k s) s t ∧ Watched x.addr 64 s t ∧ t.fmc.active = some x ∧
      (k = 0 → t.rqe.carried = s.rqe.made ∧ OnlyChanges [.port, .mem, .injection, .scrubber] s t) ∧
      (0 < k → t.rqe.carried = s.rqe.carried ∧ (s.fmc.injection = none → k ∉ t.rqe.marked) ∧
        (∀ r h, r ∈ s.rqe.raises → r.hold = some h → k ∈ h.pieces →
          { r with hold := some { h with pieces := h.pieces.filter (· != k), writing := true } } ∈ t.rqe.raises) ∧
        (∀ v a h, s.rqe.service = some v → v.stage = .answering a h → k ∈ h.pieces → t.rqe.service =
          some { v with stage := .answering a { h with pieces := h.pieces.filter (· != k), writing := true } }) ∧
        (NoAnswer s → OnlyChanges [.port, .mem, .injection, .scrubber] s t) ∧
        OnlyChanges ([.port, .mem, .injection, .scrubber] ++ [.service]) s t) := by
  have h8 : x.addr % 8 = 0 := by omega
  have hl8 : (statusPiece k s).length % 8 = 0 := by omega
  obtain ⟨m, i, st, hwrite, hwrote⟩ := writeRecord_granted (x := x) (a := x.addr) hm h8 hl8
  have hpiece : statusPiece k (granted x s) = statusPiece k s := by
    unfold statusPiece pieceFields
    split <;> rfl
  have heffect : grant s = occupyPort x (withRqe (pieceGranted k s.rqe) (withDram m i st (granted x s))) := by
    rw [hgrant, grantEffect]
    simp only [hkind]
    rw [hpiece, hwrite]
    rfl
  have hsource : x.kind.source ≠ .host := by rw [hkind]; exact fun h => nomatch h
  obtain ⟨hput, hwatch⟩ := (codewordsOf_within h8 hl8).atGrant
    (u := occupyPort x (withRqe (pieceGranted k s.rqe) (withDram m i st (granted x s)))) hsource h8
    hl8 hwrote ⟨rfl, rfl, rfl, rfl, rfl, rfl, rfl, rfl⟩
  rw [hlen] at hwatch
  have hbase := grantedDram_frame x m i st s
  refine ⟨_, event_to hs heffect, hput, hwatch, finish_fmc_active _ _, fun h0 => ⟨?_, ?_⟩, fun hpos => ?_⟩
  · rw [finish_rqe, finish_carried]
    show (pieceGranted k s.rqe).carried = _
    rw [pieceGranted, if_pos h0]
  · exact ((hbase.trans ((pieceCarried_onlyChanges h0 _).mono (by simp))).andThen (occupyPort_frame x _)).finish s
  have hgranted : pieceGranted k s.rqe =
      { s.rqe with marked := s.rqe.marked.filter (· != k) }.mapHolds (Hold.pieceGranted k) := if_neg hpos.ne'
  have hholds (h : Hold) (hk : k ∈ h.pieces) :
      h.pieceGranted k = { h with pieces := h.pieces.filter (· != k), writing := true } := by
    simp [Hold.pieceGranted, hk]
  refine ⟨?_, fun hi => ?_, fun r h hr hh hk => ?_, fun v a h hv hst hk => ?_, fun hno => ?_, ?_⟩
  · rw [finish_rqe, finish_carried]
    exact (congrArg Rqe.carried hgranted :)
  · have hi' : i = s.fmc.injection := by
      have hinj := hwrote.injection
      rw [show (granted x s).fmc.injection = none from hi] at hinj
      exact Eq.trans hinj hi.symm
    rw [finish_rqe]
    refine settleRqe_unmarked hpos ?_ (statusPiece_congr hpos hi')
    show k ∉ (pieceGranted k s.rqe).marked
    rw [pieceGranted_marked]
    simp
  · have hmem : ({ r with hold := some (h.pieceGranted k) } : Raise) ∈
        (occupyPort x (withRqe (pieceGranted k s.rqe) (withDram m i st (granted x s)))).rqe.raises := by
      rw [hgranted]
      exact List.mem_map.2 ⟨r, hr, by rw [hh]; rfl⟩
    have hwaits := settled_raises (s := s) hmem rfl
    rw [hholds h hk, if_neg (by simp [Hold.done])] at hwaits
    exact hwaits
  · rw [finish_rqe, finish_service, ← hholds h hk, ← mapHold_of_answering _ hst]
    rw [hgranted]
    exact congrArg (Option.map _) hv
  · rw [hgranted]
    have hquiet := markedHolds_of_not_answering (s.rqe.marked.filter (· != k)) (Hold.pieceGranted k)
      (s := withDram m i st (granted x s)) (by exact hno)
    exact ((hbase.trans (hquiet.mono (by simp))).andThen (occupyPort_frame x _)).finish s
  · rw [hgranted]
    refine OnlyChanges.finish s ((hbase.within.andThen (markedHolds_onlyChanges _ _ _)).andThen (occupyPort_frame x _))

end Grants

end Sys2Proof.Machine
end

section
/-! PROOFS. The mirror writes and the scrub rewrite at their grants (R115, R140, R144, R206; O50). -/

namespace Sys2Proof.Machine

set_option Elab.async false

section Grants

variable {x : Txn} {s : State} (hs : s.resetHeld = false) (hgrant : grant s = grantEffect x (granted x s))
  (hactive : s.fmc.active = none) (hm : MemOk s)

/-! ### Mirror jobs -/

/-- What a mirror write that is complete counts for: the occurrences and an answer that wait for it. -/
def Held (f : Hold → Hold) (s t : State) : Prop :=
  (∀ r h, r ∈ s.rqe.raises → r.hold = some h →
    if (f h).done then t.rqe.flags &&& r.flag.mask ≠ 0 ∨ r.flag ∈ t.rqe.made
    else { r with hold := some (f h) } ∈ t.rqe.raises) ∧
  (∀ v a h, s.rqe.service = some v → v.stage = .answering a h →
    if (f h).done then Answered a s t else t.rqe.service = some { v with stage := .answering a (f h) } ∧
      t.rqe.lastAnswer = s.rqe.lastAnswer)

variable (l : List MirrorJob) (f : Hold → Hold)

theorem withJobs_onlyChanges (s : State) : OnlyChanges [] s (withRqe { s.rqe with jobs := l } s) := by
  refine ⟨rfl, fun p hp hf => ?_⟩
  cases p <;> simp_all [Part.agree, withRqe, followUp]

theorem jobsHolds_onlyChanges (s : State) : OnlyChanges [.service] s (withRqe ({ s.rqe with jobs := l }.mapHolds f) s) :=
  ((withJobs_onlyChanges l s).within).andThen (mapHolds_onlyChanges f (withRqe { s.rqe with jobs := l } s))

theorem jobsHolds_of_not_answering {s : State} (h : NoAnswer s) :
    OnlyChanges [] s (withRqe ({ s.rqe with jobs := l }.mapHolds f) s) :=
  (withJobs_onlyChanges l s).trans (mapHolds_of_not_answering f (s := withRqe { s.rqe with jobs := l } s) (by exact h))

variable {l f}

/-- The state in which a mirror write that is complete has been counted. -/
theorem held_of {u : State} (hraises : u.rqe.raises = s.rqe.raises.map fun r => { r with hold := r.hold.map f })
    (hservice : u.rqe.service = s.rqe.service.map (Service.mapHold f)) (hlast : u.rqe.lastAnswer = s.rqe.lastAnswer) :
    Held f s (finish s (payReply u)) := by
  refine ⟨fun r h hr hh => ?_, fun v a h hv hst => ?_⟩
  · refine settled_raises (r := { r with hold := some (f h) }) ?_ rfl
    rw [payReply_raises, hraises]
    exact List.mem_map.2 ⟨r, hr, by rw [hh]; rfl⟩
  · refine payReply_answers hv ?_ hlast
    rw [hservice, hv, Option.map_some, mapHold_of_answering f hst]

variable {a : Nat} {bs : List Byte}

/-- The bytes of a mirror write, at its grant. -/
theorem mirror_written (hm : MemOk s) (hx : x.bytes = cellsAt a bs) (h8 : a % 8 = 0) (hl : bs.length % 8 = 0)
    (hne : bs ≠ []) : ∃ m i st, writeBytes .hostRmw false x.bytes x.codewords (granted x s) = withDram m i st (granted x s) ∧
      Wrote false (cellsAt a bs) x.codewords (granted x s) (withDram m i st (granted x s)) := by
  rw [hx]
  exact (codewords_within hx h8 hl hne).written h8 hl hm

include hs hgrant hactive hm in
/-- A mirror write that completes its job. -/
theorem mirror_done {rest : List MirrorJob} (hkind : x.kind = .mirrorWrite) (hx : x.bytes = cellsAt a bs) (h8 : a % 8 = 0)
    (hl : bs.length % 8 = 0) (hne : bs ≠ []) (hq : mirrorWritten s.rqe = { s.rqe with jobs := rest }.mapHolds Hold.jobDone) :
    ∃ t, event s grant = .next t ∧ Put x a bs s t ∧ Watched a bs.length s t ∧ t.fmc.active = none ∧ t.rqe.jobs = rest ∧
      Held Hold.jobDone s t ∧ (NoAnswer s → OnlyChanges [.port, .mem, .injection, .scrubber] s t) ∧
      OnlyChanges ([.port, .mem, .injection, .scrubber] ++ [.service]) s t := by
  obtain ⟨m, i, st, hwrite, hwrote⟩ := mirror_written hm hx h8 hl hne
  set w := withDram m i st (granted x s) with hw
  set u := withRqe ({ s.rqe with jobs := rest }.mapHolds Hold.jobDone) w with hu
  have heffect : grant s = payReply u := by
    rw [hgrant, grantEffect]
    simp only [hkind]
    rw [hwrite, hu, ← hq]
    rfl
  have hsource : x.kind.source ≠ .host := by rw [hkind]; exact fun h => nomatch h
  obtain ⟨hkeeps, hport, hjobs, hstb⟩ := payReply_keeps u
  obtain ⟨hput, hwatch⟩ := (codewords_within hx h8 hl hne).atGrant (u := payReply u) hsource h8 hl hwrote
    ⟨hkeeps.mem, hkeeps.injection, hkeeps.scrubPos, hkeeps.passes, hkeeps.pace, hkeeps.passOver, hkeeps.nextPart,
      hkeeps.scrub⟩
  have hbase : OnlyChanges _ s w := grantedDram_frame x m i st s
  refine ⟨_, event_to hs heffect, hput, hwatch, ?_, ?_, held_of rfl rfl rfl, fun hno => ?_, ?_⟩
  · rw [finish_fmc_active, hport]
    exact hactive
  · rw [finish_rqe, settleRqe_jobs_of_same (b := s) (a := payReply u) hstb, hjobs]
    rfl
  · have hquiet := jobsHolds_of_not_answering rest Hold.jobDone (s := w) (by exact hno)
    have hsame : payReply u = u := payReply_of_unpaid fun v b h hv hst => by
      obtain ⟨y, hy, rfl⟩ := Option.map_eq_some_iff.1 hv
      rw [mapHold_of_not_answering _ fun c g => hno y c g hy] at hst
      exact absurd hst (hno y b h hy)
    rw [hsame]
    exact (hbase.trans (hquiet.mono (by simp))).finish s
  · exact ((hbase.within.andThen (jobsHolds_onlyChanges rest Hold.jobDone w)).andThen (payReply_onlyChanges u)).finish s

include hs hgrant hactive hm in
/-- A mirror write that leaves more of its job to write. -/
theorem mirror_goes_on {jobs : List MirrorJob} (hkind : x.kind = .mirrorWrite) (hx : x.bytes = cellsAt a bs)
    (h8 : a % 8 = 0) (hl : bs.length % 8 = 0) (hne : bs ≠ []) (hq : mirrorWritten s.rqe = { s.rqe with jobs := jobs })
    (hno : ∀ v a h, s.rqe.service = some v → v.stage = .answering a h → h ≠ ⟨0, [], false⟩) :
    ∃ t, event s grant = .next t ∧ Put x a bs s t ∧ Watched a bs.length s t ∧ t.fmc.active = none ∧ t.rqe.jobs = jobs ∧
      OnlyChanges [.port, .mem, .injection, .scrubber] s t := by
  obtain ⟨m, i, st, hwrite, hwrote⟩ := mirror_written hm hx h8 hl hne
  set w := withDram m i st (granted x s) with hw
  set u := withRqe { s.rqe with jobs := jobs } w with hu
  have heffect : grant s = u := by
    rw [hgrant, grantEffect]
    simp only [hkind]
    rw [hwrite]
    have hsame : payReply u = u := payReply_of_unpaid (by exact hno)
    rw [← hsame, hu, ← hq]
    rfl
  have hsource : x.kind.source ≠ .host := by rw [hkind]; exact fun h => nomatch h
  obtain ⟨hput, hwatch⟩ := (codewords_within hx h8 hl hne).atGrant (u := u) hsource h8 hl hwrote
    ⟨rfl, rfl, rfl, rfl, rfl, rfl, rfl, rfl⟩
  have hbase : OnlyChanges _ s w := grantedDram_frame x m i st s
  refine ⟨_, event_to hs heffect, hput, hwatch, ?_, ?_, ?_⟩
  · rw [finish_fmc_active]
    exact hactive
  · rw [finish_rqe, settleRqe_jobs_of_same (b := s) (a := u) rfl]
    rfl
  · exact (hbase.trans ((withJobs_onlyChanges jobs w).mono (by simp))).finish s

/-! ### The map's mirror -/

include hs hgrant hactive hm in
theorem map_granted {r : MapRewrite} {k n : Nat} (hkind : x.kind = .mapWrite) (haddr : x.addr = 0x3F010000 + 8 * k)
    (hlen : x.len = 8 * n) (hr : s.dfm.rewrite = some r) (hk : r.next = k) :
    let bs := (List.range n).flatMap fun i => defectBytes s.dfm.entries[k + i]?
    ∃ t, event s grant = .next t ∧ Put x x.addr bs s t ∧ Watched x.addr (8 * n) s t ∧ t.fmc.active = none ∧
      t.dfm = { s.dfm with rewrite := some { r with next := k + n } } ∧
      OnlyChanges ([.port, .mem, .injection, .scrubber] ++ [.dfm]) s t := by
  intro bs
  have hbs : bs.length = 8 * n := by
    rw [List.length_flatMap]
    simp [length_defectBytes, Nat.mul_comm]
  have h8 : x.addr % 8 = 0 := by omega
  have hl8 : bs.length % 8 = 0 := by omega
  obtain ⟨m, i, st, hwrite, hwrote⟩ := writeRecord_granted (x := x) (a := x.addr) hm h8 hl8
  set w := withDram m i st (granted x s) with hw
  have hpos : (x.addr - Config.mapMirror) / 8 = k := by
    rw [haddr, show Config.mapMirror = 0x3F010000 from rfl]
    omega
  have hcount : x.len / 8 = n := by omega
  have hmap : s.dfm.written k n = { s.dfm with rewrite := some { r with next := k + n } } := by
    rw [Dfm.written, hr, Option.map_some, if_pos hk]
  have heffect : grant s = withDfm { s.dfm with rewrite := some { r with next := k + n } } w := by
    rw [hgrant, grantEffect]
    simp only [hkind, writeMap, hpos, hcount]
    rw [show writeRecord x.addr ((granted x s).dfm.mirrorBytes k n) (granted x s) = w from hwrite, ← hmap]
    rfl
  have hsource : x.kind.source ≠ .host := by rw [hkind]; exact fun h => nomatch h
  obtain ⟨hput, hwatch⟩ := (codewordsOf_within h8 hl8).atGrant
    (u := withDfm { s.dfm with rewrite := some { r with next := k + n } } w) hsource h8 hl8 hwrote
    ⟨rfl, rfl, rfl, rfl, rfl, rfl, rfl, rfl⟩
  rw [hbs] at hwatch
  have hbase : OnlyChanges _ s w := grantedDram_frame x m i st s
  refine ⟨_, event_to hs heffect, hput, hwatch, ?_, finish_dfm _ _, ((hbase.within).dfm _).finish s⟩
  rw [finish_fmc_active]
  exact hactive

/-! ### The scrub rewrite -/

theorem within_word (d : BitVec 64) {cw : Nat} (h8 : cw % 8 = 0) : Within cw (le 8 d.toNat) [cw] := by
  refine ⟨List.nodup_singleton cw, fun x => ?_⟩
  rw [List.mem_singleton, length_le]
  omega

/-- A word stored whole is the write of its eight bytes. -/
theorem stored_word (d : BitVec 64) {cw : Nat} (h8 : cw % 8 = 0) (s : State) :
    storeWord cw d (checkBits d) s = stored false (cellsAt cw (le 8 d.toNat)) cw s := by
  have hword : mergedWord (cellsAt cw (le 8 d.toNat)) s.mem cw = d := by
    have hbytes : ((List.range 8).map fun k => merged (cellsAt cw (le 8 d.toNat)) s.mem (cw + k)) = le 8 d.toNat := by
      refine List.ext_getElem? fun k => ?_
      by_cases hk : k < 8
      · obtain ⟨b, hb⟩ : ∃ b, (le 8 d.toNat)[k]? = some b := ⟨_, le_getElem? hk _⟩
        rw [List.getElem?_map, List.getElem?_range hk, Option.map_some, merged_cellsAt hb, hb]
      · simp [hk]
    rw [mergedWord, hbytes, fromLe_le, Nat.mod_eq_of_lt (by exact d.isLt), BitVec.ofNat_toNat, BitVec.setWidth_eq]
  have hcovers := (within_word d h8).covers h8 (by rw [length_le]) (List.mem_singleton.2 rfl)
  rw [stored, hword, poisons, hcovers]
  rfl

/-- The state after a scrub rewrite: the step over. -/
theorem scrubWrite_eq (a : Nat) (d : BitVec 64) (s : State) : scrubWrite a d s =
    withScrub none (if s.fmc.scrub.any fun st => st.watch == some true then s else storeWord a d (checkBits d) s) := rfl

theorem Put.congr {t t' : State} (h : Put x a bs s t) (hmem : t'.mem = t.mem) (hinj : t'.fmc.injection = t.fmc.injection)
    (hpos : t'.fmc.scrubPos = t.fmc.scrubPos) (hpasses : t'.fmc.passes = t.fmc.passes) (hpace : t'.fmc.pace = t.fmc.pace)
    (hover : t'.fmc.passOver = t.fmc.passOver) (hnext : t'.fmc.nextPart = t.fmc.nextPart) : Put x a bs s t' := by
  unfold Put
  rw [hmem, hinj, hpos, hpasses, hpace, hover, hnext]
  exact h

include hs hgrant hactive hm in
theorem scrub_granted {st : ScrubStep} {d : BitVec 64} (hkind : x.kind = .scrubRewrite d) (h8 : x.addr % 8 = 0)
    (hst : s.fmc.scrub = some st) :
    (st.watch = some true → ∃ t, event s grant = .next t ∧ t.fmc.active = none ∧ t.fmc.scrub = none ∧
      t.fmc.scrubPos = s.fmc.scrubPos ∧ t.fmc.passes = s.fmc.passes ∧ t.fmc.pace = s.fmc.pace ∧
      OnlyChanges [.port, .scrubber] s t) ∧
    (st.watch ≠ some true → ∃ t, event s grant = .next t ∧ Put x x.addr (le 8 d.toNat) s t ∧ t.fmc.scrub = none ∧
      t.fmc.active = none ∧ OnlyChanges [.port, .mem, .injection, .scrubber] s t) := by
  have heffect : grant s = withScrub none (if s.fmc.scrub.any fun st => st.watch == some true then granted x s
      else storeWord x.addr d (checkBits d) (granted x s)) := by
    rw [hgrant, grantEffect]
    simp only [hkind, scrubWrite_eq]
    rfl
  rw [hst] at heffect
  refine ⟨fun hwatch => ?_, fun hwatch => ?_⟩
  · rw [if_pos (by simp [hwatch])] at heffect
    exact ⟨_, event_to hs heffect, (finish_fmc_active _ _).trans hactive, finish_fmc_scrub _ _, finish_fmc_scrubPos _ _,
      finish_fmc_passes _ _, finish_fmc_pace _ _,
      (((granted_frame x s).within).andThen (withScrub_onlyChanges none _)).finish s⟩
  · rw [if_neg (by simpa using hwatch), stored_word d h8] at heffect
    have hwrote := stored_wrote false (cellsAt x.addr (le 8 d.toNat)) h8 (s := granted x s) hm
    obtain ⟨m, i, sc, hstored⟩ := stored_eq false (cellsAt x.addr (le 8 d.toNat)) x.addr (granted x s)
    rw [hstored] at hwrote heffect
    have hsource : x.kind.source ≠ .host := by rw [hkind]; exact fun h => nomatch h
    obtain ⟨hput, -⟩ := (within_word d h8).atGrant hsource h8 (by rw [length_le]) hwrote
      ⟨rfl, rfl, rfl, rfl, rfl, rfl, rfl, rfl⟩
    refine ⟨_, event_to hs heffect, hput.congr ?_ ?_ ?_ ?_ ?_ ?_ ?_, finish_fmc_scrub _ _,
      (finish_fmc_active _ _).trans hactive,
      ((grantedDram_frame x m i sc s).andThen (withScrub_onlyChanges none _)).finish s⟩
    · rw [finish_mem, finish_mem]
      rfl
    · rw [finish_fmc_injection, finish_fmc_injection]
      rfl
    · rw [finish_fmc_scrubPos, finish_fmc_scrubPos]
      rfl
    · rw [finish_fmc_passes, finish_fmc_passes]
      rfl
    · rw [finish_fmc_pace, finish_fmc_pace]
      rfl
    · rw [finish_fmc_passOver, finish_fmc_passOver]
      rfl
    · rw [finish_fmc_nextPart, finish_fmc_nextPart]
      rfl

end Grants

/-- Settles O50: each write of the part's own is a record of whole codewords, or the word of a scrub rewrite. -/
theorem portWrites : Obligations.PortWrites := by
  intro s x hs hpath hactive hx hm put watched base noAnswer held
  have hgrant := grant_eq hpath hactive hx
  rw [exec_dramGrant]
  refine ⟨fun k tag a hkind haddr hv hl => completion_granted hs hgrant hm hkind haddr hv hl,
    fun k hkind haddr hlen => piece_granted hs hgrant hm hkind haddr hlen, fun hkind => ?_,
    fun r k n hkind haddr hlen hr hk => map_granted hs hgrant hactive hm hkind haddr hlen hr hk,
    fun st d hkind h8 hst => scrub_granted hs hgrant hactive hm hkind h8 hst⟩
  intro done
  refine ⟨fun e c u k rest hjobs hk hhist => ?_, fun k c rest hjobs hxb => ?_, fun u n o rest hjobs hxb => ?_⟩
  · intro a bs
    obtain ⟨hlen, hfirst, hlast⟩ := mirrorPart u hhist hk
    have hlen : bs.length = 64 := hlen
    have h8 : a % 8 = 0 := show (0x3F003000 + 256 * e + 64 * k) % 8 = 0 by omega
    have hne : bs ≠ [] := List.ne_nil_of_length_pos (by omega)
    refine ⟨hlen, hfirst, hlast, fun hk3 hxb => ?_, fun hlt hno hxb => ?_⟩
    · exact mirror_done hs hgrant hactive hm hkind hxb h8 (by omega) hne (by
        simp only [mirrorWritten, hjobs]
        exact if_neg (by omega))
    · have hgoes := mirror_goes_on (jobs := .shotEntry e c u (k + 1) :: rest) hs hgrant hactive hm hkind hxb h8 (by omega) hne
        (by
          simp only [mirrorWritten, hjobs]
          exact if_pos hlt) hno
      rwa [hlen] at hgoes
  · have hlen := length_errorEntryBytes c
    exact mirror_done hs hgrant hactive hm hkind hxb (by omega) (by omega) (List.ne_nil_of_length_pos (by omega)) (by
      simp only [mirrorWritten, hjobs])
  · have hlen := length_errorHeaderBytes u n o
    exact mirror_done hs hgrant hactive hm hkind hxb (by omega) (by omega) (List.ne_nil_of_length_pos (by omega)) (by
      simp only [mirrorWritten, hjobs])

end Sys2Proof.Machine
end

section
/-! PROOFS. A conversion's end: the monitor, and the answers to TEMP requests (R50, R94 to R96, R147, R149, R150, R152, R153,
R155, R156; O55). -/

namespace Sys2Proof.Machine

set_option Elab.async false

theorem exec_conversionComplete (code : BitVec 12) (s : State) :
    exec (.conversionComplete code) s = event s (conversionDone code.toNat) := rfl

/-! ### The monitor -/

/-- The state with the conversion over (R152, R158). -/
def converted (s : State) : State := modAmn Amn.finishConversion s

theorem conversionDone_eq {s : State} {c : Conversion} (h : s.amn.conv = some c) (code : Nat) :
    conversionDone code s = converted (if c.stands then standingResult c (s.amn.settings.value c.channel code) s
      else voidResult c s) := by
  simp only [conversionDone, h]
  rfl

theorem converted_onlyChanges (s : State) : OnlyChanges [.monitor] s (converted s) := by
  refine ⟨rfl, fun p hp hf => ?_⟩
  cases p <;> simp_all [Part.agree, followUp, converted, modAmn]

/-- The monitor with the conversion over, but for its stop: settings that wait take effect. -/
def overAmn (before a : Amn) : Amn :=
  match before.next with
  | none => { a with conv := none }
  | some n => { a with conv := none, settings := n, next := none, sampleTimer := if n.interval = before.settings.interval then a.sampleTimer else n.interval * 1000 }

/-- The monitor after a command that ended a conversion, `a` being the monitor with the conversion's results. -/
def AmnOver (a : Amn) (s t : State) : Prop :=
  { t.amn with stopped := s.amn.stopped, stopAsked := s.amn.stopAsked } = overAmn s.amn a

theorem finishConversion_eq (a : Amn) (x y : Bool) :
    { a.finishConversion with stopped := x, stopAsked := y } = { overAmn a a with stopped := x, stopAsked := y } := by
  unfold Amn.finishConversion overAmn
  cases a.next with
  | none => by_cases h : a.stopAsked = true <;> simp [h]
  | some n =>
    by_cases h : a.stopAsked = true <;> by_cases hi : n.interval = a.settings.interval <;>
      simp [h, hi, Amn.applySettings, Amn.restartTimer]

/-- The monitor at the end of a conversion whose results make `a` of it, but for a stop asked meanwhile. -/
theorem amnOver {s w : State} {a : Amn}
    (hw : { w.amn with stopped := s.amn.stopped, stopAsked := s.amn.stopAsked } = a) (hnext : a.next = s.amn.next)
    (hset : a.settings = s.amn.settings) : AmnOver a s (finish s (converted w)) := by
  subst hw
  have hnext : w.amn.next = s.amn.next := hnext
  have hset : w.amn.settings = s.amn.settings := hset
  rw [AmnOver, finish_amn s (converted w) s.amn.stopped s.amn.stopAsked]
  refine (finishConversion_eq w.amn _ _).trans ?_
  unfold overAmn
  rw [hnext, hset]
  split <;> rfl

/-! ### Jobs -/

theorem finish_queues {s u : State} {j : MirrorJob} (h : j ∈ u.rqe.jobs) : j ∈ (finish s u).rqe.jobs := by
  obtain ⟨js, hjs, -⟩ := settleRqe_jobs s u
  rw [finish_rqe, hjs]
  exact List.mem_append_left _ h

/-- A record's rewrite is queued. -/
def Queued (r : ShotRecord) (q : Rqe) : Prop := ∃ u, MirrorJob.shotEntry r.entry (some r) u 0 ∈ q.jobs

theorem rewriteShot_jobs (n : Nat) (s : State) : ∃ js, (rewriteShot n s).rqe.jobs = s.rqe.jobs ++ js := by
  unfold rewriteShot
  split
  · exact ⟨_, rfl⟩
  · exact ⟨[], (List.append_nil _).symm⟩

theorem rewriteShot_keeps {n : Nat} {s : State} {r : ShotRecord} (h : Queued r s.rqe) : Queued r (rewriteShot n s).rqe := by
  obtain ⟨u, hu⟩ := h
  obtain ⟨js, hjs⟩ := rewriteShot_jobs n s
  exact ⟨u, hjs ▸ List.mem_append_left _ hu⟩

theorem rewriteShots_keeps {ns : List Nat} {s : State} {r : ShotRecord} (h : Queued r s.rqe) :
    Queued r (rewriteShots ns s).rqe := by
  induction ns generalizing s with
  | nil => exact h
  | cons n ns ih => exact ih (rewriteShot_keeps h)

theorem rewriteShots_queues {ns : List Nat} {s : State} {n : Nat} {r : ShotRecord} (hn : n ∈ ns)
    (hr : s.stb.find n = some r) : Queued r (rewriteShots ns s).rqe := by
  induction ns generalizing s with
  | nil => exact absurd hn List.not_mem_nil
  | cons m ns ih =>
    rcases List.mem_cons.1 hn with rfl | hn
    · exact rewriteShots_keeps (s := rewriteShot n s) (rewriteShot_queues hr)
    · exact ih hn (by rwa [rewriteShot_stb])

theorem rewriteShots_raises (ns : List Nat) (s : State) : (rewriteShots ns s).rqe.raises = s.rqe.raises := by
  induction ns generalizing s with
  | nil => rfl
  | cons n ns ih => exact (ih _).trans (rewriteShot_same s n).2

/-! ### The records warned -/

/-- The records warned at a level, the engine in what a follow-up changes, the rewrites queued (R156). -/
theorem warnRecord_queues (s : State) : ∃ q, SameRing s.rqe q ∧
    warnRecord s = withRqe q (withStb (warnedStb s.amn.tempLevel s.stb) s) ∧ q.raises = s.rqe.raises ∧
    (s.amn.tempLevel ≠ .normal → ∀ r, (warnedStb s.amn.tempLevel s.stb).find r.shot = some r →
      (r.phase = .waiting ∨ r.phase = .exposing) → Queued r q) := by
  obtain ⟨q, hq, he⟩ := warnRecord_cases s
  refine ⟨q, hq, he, ?_, fun hl r hr hp => ?_⟩
  · have hraises : (warnRecord s).rqe.raises = s.rqe.raises := by
      rw [warnRecord_eq]
      split
      · rfl
      · exact rewriteShots_raises _ _
    rw [← hraises, he]
    rfl
  · have hrqe : q = (warnRecord s).rqe := (congrArg State.rqe he.symm :)
    rw [hrqe, warnRecord_eq, if_neg hl]
    refine rewriteShots_queues (List.mem_map.2 ?_) hr
    have hmem := List.mem_of_find?_eq_some hr
    rw [warnedStb, if_neg hl] at hmem
    obtain ⟨x, hx, hxr⟩ := List.mem_map.1 hmem
    refine ⟨x, List.mem_filter.2 ⟨hx, (Phase.warned_iff _).2 ?_⟩, ?_⟩
    · by_cases hw : x.phase = .waiting ∨ x.phase = .exposing
      · exact hw
      · rw [if_neg hw] at hxr
        rw [hxr]
        exact hp
    · rw [← hxr]
      split <;> rfl

/-! ### A shot's end temperature -/

theorem Stb.update_update (t : Stb) (n : Nat) (f g : ShotRecord → ShotRecord) (hf : ∀ r, (f r).shot = r.shot) :
    (t.update n f).update n g = t.update n fun r => g (f r) := by
  unfold Stb.update
  rw [List.map_map]
  congr 2
  funext r
  by_cases h : r.shot = n <;> simp [h, hf]

/-- A record with a shot's end temperature, if the answer has one. -/
def ShotRecord.ended (v : Option Int) (r : ShotRecord) : ShotRecord :=
  match v with
  | some t => { r with tempEnd := some t }
  | none => r

theorem ended_shot (v : Option Int) (r : ShotRecord) : (r.ended v).shot = r.shot := by cases v <;> rfl

/-- The readout that waits for the dark offset of its shot. -/
structure Waits (n : Nat) (o : Readout) (s : State) : Prop where
  readout : s.pce.readout = some o
  shot : o.shot = n
  dark : o.dark = none
  ending : o.ending = none

theorem shotDark_of_waits {o : Readout} {s : State} {r : ShotRecord} (h : s.pce.readout = some o)
    (hn : o.shot = r.shot) : shotDark r s = offsetOf o.image r (shotTemperature r.tempStart r.tempEnd) := by
  have himage : darkImage r s = some o.image := by
    simp only [darkImage, h]
    exact if_pos hn
  simp only [shotDark, himage]
  rfl

theorem giveOffset_of_waits {n d : Nat} {o : Readout} {s : State} (h : Waits n o s) :
    giveOffset n d s = acceptHeld (withPce ⟨some { o with dark := some d }, s.pce.idle⟩ s) := by
  simp only [giveOffset, h.readout]
  exact if_pos ⟨h.shot, h.dark, h.ending⟩

theorem answerTempEnd_eq (n : Nat) (v : Option Int) (s : State) {r : ShotRecord} {d : Nat} (hr : s.stb.find n = some r)
    (hd : shotDark (r.ended v) s = d) : answerTempEnd n v s =
      giveOffset n d (rewriteShot n (withStb (s.stb.update n fun r => { r.ended v with dark := d }) s)) := by
  cases v with
  | none =>
    subst hd
    simp only [answerTempEnd, hr]
    rfl
  | some t =>
    have hfind : (s.stb.update n fun r => { r with tempEnd := some t }).find n = some (r.ended (some t)) :=
      Stb.find_update (fun _ => rfl) hr
    have hupdate := Stb.update_update s.stb n (fun r => { r with tempEnd := some t }) (fun r => { r with dark := d })
      fun _ => rfl
    simp only [answerTempEnd, hfind]
    refine Eq.trans ?_ (congrArg (fun T => giveOffset n d (rewriteShot n (withStb T s))) hupdate)
    subst hd
    rfl

/-- A TEMP end request is answered while its shot's readout waits for the dark offset (R94 to R96). -/
theorem answerTempEnd_of_waits {n : Nat} {o : Readout} {s : State} {r : ShotRecord} (v : Option Int) (h : Waits n o s)
    (hr : s.stb.find n = some r) : let d := offsetOf o.image r (shotTemperature r.tempStart (r.ended v).tempEnd)
    ∃ q, SameRing s.rqe q ∧ q.raises = s.rqe.raises ∧ (∃ js, q.jobs = s.rqe.jobs ++ js) ∧ Queued { r.ended v with dark := d } q ∧
      answerTempEnd n v s = acceptHeld (withPce ⟨some { o with dark := some d }, s.pce.idle⟩
        (withRqe q (withStb (s.stb.update n fun r => { r.ended v with dark := d }) s))) := by
  intro d
  have hshot : r.shot = n := by simpa using List.find?_some hr
  have hd : shotDark (r.ended v) s = d := by
    rw [shotDark_of_waits h.readout (by rw [ended_shot, hshot, h.shot])]
    cases v <;> rfl
  let w := withStb (s.stb.update n fun r => { r.ended v with dark := d }) s
  obtain ⟨q, hq, he⟩ := rewriteShot_ring n w
  have hrqe : (rewriteShot n w).rqe = q := (congrArg State.rqe he :)
  have hfind : w.stb.find n = some { r.ended v with dark := d } := Stb.find_update (fun r => ended_shot v r) hr
  have hqueued : Queued { r.ended v with dark := d } (rewriteShot n w).rqe := rewriteShot_queues hfind
  obtain ⟨js, hjs⟩ := rewriteShot_jobs n w
  rw [hrqe] at hqueued hjs
  refine ⟨q, hq, ?_, ⟨js, hjs⟩, hqueued, ?_⟩
  · rw [← hrqe]
    exact (rewriteShot_same w n).2
  · rw [answerTempEnd_eq n v s hr hd]
    show giveOffset n d (rewriteShot n w) = _
    rw [he]
    exact giveOffset_of_waits ⟨h.readout, h.shot, h.dark, h.ending⟩

/-! ### The capture burst held -/

/-- Nothing is held: the readout goes on when its next beat arrives. -/
theorem acceptHeld_of_none {s : State} (h : ∀ p ∈ s.hmp.queue, p.heldBeats = []) : acceptHeld s = s := by
  unfold acceptHeld
  split
  · rfl
  · rename_i p rest hq
    exact if_pos (h p (hq ▸ List.mem_cons_self))

/-- The held beats are taken, and the burst is done unless part of it still waits for its write. -/
theorem acceptHeld_of_held {s : State} {p : Posted} {rest : List Posted} (hq : s.hmp.queue = p :: rest)
    (hp : p.heldBeats ≠ []) (hw : s.hmp.waiting = []) : acceptHeld s =
      withQueue (if p.passWaits then { p with heldBeats := [] } :: rest else rest)
        (takeCapture p.parity p.heldBeats (restartIdle s)) := by
  have hhmp : (takeCapture p.parity p.heldBeats (restartIdle s)).hmp = s.hmp :=
    (takeCapture_handled _ _ _).hmp.trans (restartIdle_handled s).hmp
  have hsettled : (takeCapture p.parity p.heldBeats (restartIdle s)).hmp.settleHead (fun p => { p with heldBeats := [] }) =
      { (takeCapture p.parity p.heldBeats (restartIdle s)).hmp with
        queue := if p.passWaits then { p with heldBeats := [] } :: rest else rest } := by
    simp only [Hmp.settleHead, hhmp, hq]
    simp
  have hadmit {u : State} (hu : u.hmp.waiting = []) : admitWaiting u = u := by
    have hsame : { u.hmp with waiting := [] } = u.hmp := by rw [← hu]
    simp only [admitWaiting, hu, List.foldl_nil, hsame]
  simp only [acceptHeld, hq]
  refine (if_neg hp).trans ?_
  rw [hsettled, hadmit (by exact (congrArg Hmp.waiting hhmp).trans hw)]
  rfl

end Sys2Proof.Machine
end

section
/-! PROOFS. TEMP conversions and void ones (R94 to R96, R149, R150, R153, R155, R156; O55). -/

namespace Sys2Proof.Machine

set_option Elab.async false

/-! ### The held burst, taken as its delivery would take it -/

/-- The alarm of a TEMP level (R155). -/
def alarmed (l : TempLevel) (s : State) : State := if l = .normal then s else raise .tempAlarm s

section Held

variable {s w : State} {n : Nat} {o : Readout} {d : Nat} {st : Stb} {l : TempLevel}

theorem alarmed_frame (l : TempLevel) (s : State) : OnlyChanges [] s (alarmed l s) := by
  unfold alarmed
  split
  · exact OnlyChanges.refl _ s
  · exact (OnlyChanges.refl _ s).raised _

theorem alarmed_same (l : TempLevel) (s : State) : (alarmed l s).stb = s.stb ∧ (alarmed l s).pce = s.pce ∧
    (alarmed l s).dfm = s.dfm ∧ (alarmed l s).prs = s.prs ∧ (alarmed l s).hmp = s.hmp ∧ (alarmed l s).fmc = s.fmc ∧
    (alarmed l s).amn = s.amn ∧ (alarmed l s).rqe.jobs = s.rqe.jobs ∧ (alarmed l s).cde = s.cde := by
  unfold alarmed
  split
  · exact ⟨rfl, rfl, rfl, rfl, rfl, rfl, rfl, rfl, rfl⟩
  · exact ⟨rfl, rfl, rfl, rfl, rfl, rfl, rfl, rfl, rfl⟩

theorem alarmed_raises (hl : l ≠ .normal) (s b : State) : Raised .tempAlarm (finish b (converted (alarmed l s))) := by
  refine finish_raised _ _ ?_
  rw [alarmed, if_neg hl]
  exact List.mem_append_right _ List.mem_cons_self

/-- A conversion's TEMP answer before the readout goes on. -/
def answered (o : Readout) (d : Nat) (st : Stb) (a : Amn) (q : Rqe) (s : State) : State :=
  withPce ⟨some { o with dark := some d }, s.pce.idle⟩ (withRqe q (withStb st (withAmn a s)))

theorem answered_frame {a : Amn} {q : Rqe} (hq : SameRing s.rqe q) :
    OnlyChanges [.monitor, .stb, .pce] s (answered o d st a q s) :=
  ((((OnlyChanges.refl _ s).amn a).stb st).ring (q := q) hq).pce _

variable {p : Posted} {rest : List Posted} {a : Amn} {q : Rqe}

/-- The held beats taken: as their delivery by themselves would take them. -/
theorem takesHeld (h : s.resetHeld = false) (hpath : s.hmp.path = .run ∨ s.hmp.path = .entering)
    (hqueue : s.hmp.queue = p :: rest) (hheld : p.heldBeats ≠ []) (hw : s.hmp.waiting = []) (he : o.ending = none)
    (hst : ∀ a, st.stateAt a = s.stb.stateAt a)
    (hbeats : ∀ b ∈ p.heldBeats, b.enables ≠ 0 ∧ s.stb.stateAt b.addr = some .readout) (hq : SameRing s.rqe q) :
    let t := finish s (converted (alarmed l (acceptHeld (answered o d st a q s))))
    ∃ u, exec .writeBurstDelivery { s with stb := st, pce := ⟨some { o with dark := some d }, s.pce.idle⟩, hmp := { s.hmp with queue := { p with beats := p.heldBeats, delivered := false } :: rest } } = .next u ∧
      t.stb = u.stb ∧ t.pce = u.pce ∧ t.dfm = u.dfm ∧ t.prs = u.prs ∧
      t.hmp.queue = (if p.passWaits then { p with heldBeats := [] } :: rest else rest) ∧
      (∀ x ∈ u.fmc.pending, x.kind = .captureWrite → x ∈ t.fmc.pending) ∧
      OnlyChanges [.monitor, .stb, .pce, .dfm, .prs, .posted] s t := by
  intro t
  set p' : Posted := { p with beats := p.heldBeats, delivered := false } with hp'
  set s' : State := withQueue (p' :: rest) (withPce ⟨some { o with dark := some d }, s.pce.idle⟩ (withStb st s)) with hs'
  set u0 := answered o d st a q s with hu0
  have halike : Alike u0 s' := ⟨rfl, rfl, rfl, rfl, fun _ hx _ => hx⟩
  have htaken := halike.restartIdle.takeCapture p.parity p.heldBeats
  have hclass : ∀ b ∈ p.heldBeats, classifyBeat s'.stb b.addr = .capture := fun b hb => by
    have hat : s'.stb.stateAt b.addr = some .readout := (hst _).trans (hbeats b hb).2
    exact (classify_capture_iff _ _).2 ⟨not_owned_of_slot hat, hat⟩
  obtain ⟨hcapture, hpass, hguards⟩ := captures_alone (s := s') (p := { p with delivered := false }) p.heldBeats hclass
    fun b hb => (hbeats b hb).1
  have hnone : passedOn p' s' = s' := passedOn_unguarded hguards hpass
  have haccepts : accepts (restartIdle s') p.heldBeats = true := (accepts_iff (o := { o with dark := some d }) rfl he _).2
    (.inl (by simp))
  have harrive : arriveCapture p'.parity (p'.ofClass s'.stb .capture) (passedOn p' s') =
      (takeCapture p.parity p.heldBeats (restartIdle s'), []) := by
    rw [hnone, hcapture]
    exact arriveCapture_taken hheld _ haccepts
  have hhandled : Handled (passedOn p' s') (takeCapture p.parity p.heldBeats (restartIdle s')) := by
    rw [hnone]
    exact (restartIdle_handled s').trans (takeCapture_handled _ _ _)
  have hstep := delivery_step (s := s') (p := p') h hpath rfl rfl hw harrive hhandled
  have hheldEq := acceptHeld_of_held (s := u0) hqueue hheld hw
  set v := takeCapture p.parity p.heldBeats (restartIdle u0) with hv
  set v' := takeCapture p.parity p.heldBeats (restartIdle s') with hv'
  obtain ⟨hstb, hpce, hdfm, hprs, hhmp, hfmc, -⟩ := alarmed_same l (acceptHeld u0)
  refine ⟨_, hstep, ?_, ?_, ?_, ?_, ?_, fun x hx hk => ?_, ?_⟩
  · rw [finish_stb, finish_stb]
    refine Eq.trans (b := (acceptHeld u0).stb) hstb ?_
    rw [hheldEq]
    exact htaken.stb.symm
  · rw [finish_pce, finish_pce]
    refine Eq.trans (b := (acceptHeld u0).pce) hpce ?_
    rw [hheldEq]
    exact htaken.pce.symm
  · rw [finish_dfm, finish_dfm]
    refine Eq.trans (b := (acceptHeld u0).dfm) hdfm ?_
    rw [hheldEq]
    exact htaken.dfm.symm
  · rw [finish_prs, finish_prs]
    refine Eq.trans (b := (acceptHeld u0).prs) hprs ?_
    rw [hheldEq]
    exact htaken.prs.symm
  · rw [finish_hmp_queue]
    refine Eq.trans (b := (acceptHeld u0).hmp.queue) (congrArg Hmp.queue hhmp) ?_
    rw [hheldEq]
    rfl
  · have hword := finish_words hx hk
    rw [withQueue_fmc] at hword
    have hin : x ∈ v.fmc.pending := htaken.words x hword hk
    refine finish_waits _ _ ?_
    have hsame : (converted (alarmed l (acceptHeld u0))).fmc = v.fmc := by
      refine Eq.trans (b := (acceptHeld u0).fmc) hfmc ?_
      rw [hheldEq]
      rfl
    rwa [hsame]
  · have hbase : OnlyChanges [.monitor, .stb, .pce, .dfm, .prs, .posted] s u0 := (answered_frame hq).within
    have htake : Handled u0 v :=
      (restartIdle_handled u0).trans (takeCapture_handled p.parity p.heldBeats (restartIdle u0))
    have hall : OnlyChanges [.monitor, .stb, .pce, .dfm, .prs, .posted] s (acceptHeld u0) := by
      rw [hheldEq]
      exact (hbase.andThen htake.frame).andThen (withQueue_onlyChanges _ _)
    exact ((hall.trans ((alarmed_frame l _).mono (by simp))).andThen (converted_onlyChanges _)).finish s

/-- The readout goes on when its next beat arrives. -/
theorem answered_waits (hnone : ∀ p ∈ s.hmp.queue, p.heldBeats = []) (hq : SameRing s.rqe q) :
    let t := finish s (converted (alarmed l (acceptHeld (answered o d st a q s))))
    t.stb = st ∧ t.pce = ⟨some { o with dark := some d }, s.pce.idle⟩ ∧ OnlyChanges [.monitor, .stb, .pce] s t := by
  intro t
  have hsame : acceptHeld (answered o d st a q s) = answered o d st a q s := acceptHeld_of_none hnone
  obtain ⟨hstb, hpce, -⟩ := alarmed_same l (answered o d st a q s)
  refine ⟨?_, ?_, ?_⟩
  · rw [finish_stb, hsame]
    exact hstb
  · rw [finish_pce, hsame]
    exact hpce
  · simp only [t, hsame]
    exact (((answered_frame hq).trans ((alarmed_frame l _).mono (by simp))).andThen (converted_onlyChanges _)).finish s

/-- No beat is held, or the burst at the head holds some. -/
def HeldOrNot (s : State) : Prop := (∀ p ∈ s.hmp.queue, p.heldBeats = []) ∨
  ∃ p rest, s.hmp.queue = p :: rest ∧ p.heldBeats ≠ [] ∧ s.hmp.waiting = []

/-- The monitor and the engine's jobs are those of the answer. -/
theorem accepted_keeps (hfree : HeldOrNot s) :
    { (acceptHeld (answered o d st a q s)).amn with stopped := a.stopped, stopAsked := a.stopAsked } = a ∧
      (acceptHeld (answered o d st a q s)).rqe.jobs = q.jobs := by
  set u0 := answered o d st a q s with hu0
  rcases hfree with hnone | ⟨p, rest, hqueue, hheld, hw⟩
  · rw [acceptHeld_of_none (s := u0) hnone]
    exact ⟨rfl, rfl⟩
  · rw [acceptHeld_of_held (s := u0) hqueue hheld hw]
    have htake := (restartIdle_handled u0).trans (takeCapture_handled p.parity p.heldBeats (restartIdle u0))
    exact ⟨htake.frame.2 .monitor (by decide) (by decide), htake.jobs⟩

theorem answered_keeps (l : TempLevel) (hfree : HeldOrNot s) (hnext : a.next = s.amn.next)
    (hset : a.settings = s.amn.settings) (hstop : a.stopped = s.amn.stopped ∧ a.stopAsked = s.amn.stopAsked) :
    let t := finish s (converted (alarmed l (acceptHeld (answered o d st a q s))))
    AmnOver a s t ∧ ∀ j ∈ q.jobs, j ∈ t.rqe.jobs := by
  intro t
  obtain ⟨hamn, hjobs⟩ := accepted_keeps (o := o) (d := d) (st := st) (a := a) (q := q) hfree
  obtain ⟨-, -, -, -, -, -, hsame, hsameJobs, -⟩ := alarmed_same l (acceptHeld (answered o d st a q s))
  refine ⟨amnOver ?_ hnext hset, fun j hj => finish_queues ?_⟩
  · rw [hsame, ← hstop.1, ← hstop.2]
    exact hamn
  · show j ∈ (alarmed l (acceptHeld (answered o d st a q s))).rqe.jobs
    rw [hsameJobs, hjobs]
    exact hj

end Held

end Sys2Proof.Machine
end

section
/-! PROOFS. A void conversion and one of TEMP, against the statement (O55). -/

namespace Sys2Proof.Machine

set_option Elab.async false

section Temp

variable {s : State} {c : Conversion} (h : s.resetHeld = false) (hc : s.amn.conv = some c) (code : BitVec 12)

/-- The readout that waits for its offset, no beat held. -/
def Awaits (n : Nat) (o : Readout) (s : State) : Prop :=
  s.pce.readout = some o ∧ o.shot = n ∧ o.dark = none ∧ o.ending = none ∧ ∀ p ∈ s.hmp.queue, p.heldBeats = []

/-- The readout that waits for its offset, a capture burst held for it. -/
def Holds (n : Nat) (o : Readout) (p : Posted) (rest : List Posted) (s : State) : Prop :=
  s.pce.readout = some o ∧ o.shot = n ∧ o.dark = none ∧ o.ending = none ∧ s.hmp.queue = p :: rest ∧ p.heldBeats ≠ [] ∧
  s.hmp.waiting = [] ∧ (s.hmp.path = .run ∨ s.hmp.path = .entering) ∧
  ∀ b ∈ p.heldBeats, b.enables ≠ 0 ∧ s.stb.stateAt b.addr = some .readout

/-- The held burst is taken in the same event, as its delivery would take it. -/
def TakesHeld (code : BitVec 12) (o : Readout) (p : Posted) (rest : List Posted) (d : Nat) (st : Stb) (fine : State → Prop)
    (s : State) : Prop :=
  ∃ t u, exec (.conversionComplete code) s = .next t ∧ fine t ∧
    exec .writeBurstDelivery { s with stb := st, pce := ⟨some { o with dark := some d }, s.pce.idle⟩, hmp := { s.hmp with queue := { p with beats := p.heldBeats, delivered := false } :: rest } } = .next u ∧
    t.stb = u.stb ∧ t.pce = u.pce ∧ t.dfm = u.dfm ∧ t.prs = u.prs ∧
    t.hmp.queue = (if p.passWaits then { p with heldBeats := [] } :: rest else rest) ∧
    (∀ x ∈ u.fmc.pending, x.kind = .captureWrite → x ∈ t.fmc.pending) ∧
    OnlyChanges [.monitor, .stb, .pce, .dfm, .prs, .posted] s t

variable {n : Nat} {o : Readout} {r : ShotRecord}

theorem Awaits.waits (h : Awaits n o s) : Waits n o s := ⟨h.1, h.2.1, h.2.2.1, h.2.2.2.1⟩

theorem Holds.waits {p : Posted} {rest : List Posted} (h : Holds n o p rest s) : Waits n o s := ⟨h.1, h.2.1, h.2.2.1, h.2.2.2.1⟩

/-! ### A conversion that does not stand -/

theorem cardResult_none (hf : s.cde.state ≠ .fault) (hr : s.cde.state ≠ .ready) : cardResult none s = s := by
  have hfull : fullCondition s = false := by simp [fullCondition, hr]
  rw [cardResult]
  refine (if_neg hf).trans (if_neg ?_)
  rw [hfull]
  exact Bool.false_ne_true

include h hc

theorem void_dropped (hv : c.stands = false) (hno : voidResult c s = s) :
    ∃ t, exec (.conversionComplete code) s = .next t ∧ AmnOver s.amn s t ∧ OnlyChanges [.monitor] s t := by
  have hdone : conversionDone code.toNat s = converted s := by
    rw [conversionDone_eq hc, if_neg (by simp [hv]), hno]
  rw [exec_conversionComplete]
  exact ⟨_, event_to h hdone, amnOver rfl rfl rfl, (converted_onlyChanges s).finish s⟩

omit h hc in
theorem voidResult_of_temp (hch : c.channel ≠ .card) : voidResult c s = answerDemand c.demand none s := if_neg hch

/-- The end temperature void: the offset is that of the start temperature. -/
theorem void_end (hv : c.stands = false) (hch : c.channel ≠ .card) (hd : c.demand = some (.tempEnd n))
    (hr : s.stb.find n = some r) (ht : r.tempEnd = none) :
    let d := offsetOf o.image r (r.tempStart.getD 100)
    (Awaits n o s → ∃ t, exec (.conversionComplete code) s = .next t ∧ AmnOver s.amn s t ∧
      t.stb = s.stb.update n (fun r => { r with dark := d }) ∧ Queued { r with dark := d } t.rqe ∧
      t.pce = ⟨some { o with dark := some d }, s.pce.idle⟩ ∧ OnlyChanges [.monitor, .stb, .pce] s t) ∧
    (∀ p rest, Holds n o p rest s → TakesHeld code o p rest d (s.stb.update n fun r => { r with dark := d })
      (fun t => AmnOver s.amn s t ∧ Queued { r with dark := d } t.rqe) s) := by
  intro d
  have hanswer (hw : Waits n o s) : ∃ q, SameRing s.rqe q ∧ Queued { r with dark := d } q ∧ conversionDone code.toNat s =
      converted (alarmed .normal (acceptHeld (answered o d (s.stb.update n fun r => { r with dark := d }) s.amn q s))) := by
    obtain ⟨q, hq, -, -, hqueued, he⟩ := answerTempEnd_of_waits none hw hr
    have htemp : shotTemperature r.tempStart (r.ended none).tempEnd = r.tempStart.getD 100 := by
      show shotTemperature r.tempStart r.tempEnd = _
      rw [ht]
      cases r.tempStart <;> rfl
    rw [htemp] at hqueued he
    refine ⟨q, hq, hqueued, ?_⟩
    rw [conversionDone_eq hc, if_neg (by simp [hv]), voidResult_of_temp hch, hd]
    exact congrArg converted he
  unfold TakesHeld
  rw [exec_conversionComplete]
  refine ⟨fun hw => ?_, fun p rest hw => ?_⟩
  · obtain ⟨q, hq, ⟨u, hu⟩, hdone⟩ := hanswer hw.waits
    obtain ⟨hstb, hpce, hframe⟩ := answered_waits (l := .normal) (o := o) (d := d)
      (st := s.stb.update n fun r => { r with dark := d }) (a := s.amn) hw.2.2.2.2 hq
    obtain ⟨hamn, hjobs⟩ := answered_keeps (o := o) (d := d) (st := s.stb.update n fun r => { r with dark := d }) (q := q)
      .normal (.inl hw.2.2.2.2) rfl rfl ⟨rfl, rfl⟩
    exact ⟨_, event_to h hdone, hamn, hstb, ⟨u, hjobs _ hu⟩, hpce, hframe⟩
  · obtain ⟨q, hq, ⟨u, hu⟩, hdone⟩ := hanswer hw.waits
    obtain ⟨hread, hshot, hdark, he, hqueue, hheld, hwait, hpath, hbeats⟩ := hw
    obtain ⟨hamn, hjobs⟩ := answered_keeps (o := o) (d := d) (st := s.stb.update n fun r => { r with dark := d }) (q := q)
      .normal (.inr ⟨p, rest, hqueue, hheld, hwait⟩) rfl rfl ⟨rfl, rfl⟩
    obtain ⟨w, hw⟩ := takesHeld (l := .normal) (d := d) (st := s.stb.update n fun r => { r with dark := d }) (a := s.amn)
      h hpath hqueue hheld hwait he (fun _ => rfl) hbeats hq
    exact ⟨_, w, event_to h hdone, ⟨hamn, u, hjobs _ hu⟩, hw⟩

/-! ### A TEMP conversion that stands -/

omit h hc in
/-- The monitor with a TEMP value and the level it gives (R149, R153). -/
def tempAmn (v : Int) (l : TempLevel) (a : Amn) : Amn := { a with temp := some v, tempValid := true, tempLevel := l }

omit h hc in
/-- The TEMP level a value gives, under the settings in force. -/
def tempLevelOf (a : Amn) (v : Int) : TempLevel := nextTempLevel a.settings.warn a.settings.limit a.tempLevel v

omit h hc in
theorem standingResult_temp (hch : c.channel = .temp) (v : Int) : ∃ q, SameRing s.rqe q ∧
    (tempLevelOf s.amn v ≠ .normal → ∀ r, (warnedStb (tempLevelOf s.amn v) s.stb).find r.shot = some r →
      (r.phase = .waiting ∨ r.phase = .exposing) → Queued r q) ∧
    standingResult c v s = alarm .temp (answerDemand c.demand (some v)
      (withRqe q (withStb (warnedStb (tempLevelOf s.amn v) s.stb) (withAmn (tempAmn v (tempLevelOf s.amn v) s.amn) s)))) := by
  obtain ⟨q, hq, he, -, hqueued⟩ := warnRecord_queues (withAmn (tempAmn v (tempLevelOf s.amn v) s.amn) s)
  refine ⟨q, hq, hqueued, ?_⟩
  rw [← show warnRecord (withAmn (tempAmn v (tempLevelOf s.amn v) s.amn) s) = withRqe q (withStb
    (warnedStb (tempLevelOf s.amn v) s.stb) (withAmn (tempAmn v (tempLevelOf s.amn v) s.amn) s)) from he]
  unfold standingResult
  rw [hch]
  rfl

omit h hc in
theorem alarm_temp {u : State} {l : TempLevel} (hl : u.amn.tempLevel = l) : alarm .temp u = alarmed l u := by
  subst hl
  rfl

omit h hc in
/-- What a TEMP conversion that stands leaves besides its answer. -/
def TempDone (v : Int) (l : TempLevel) (s t : State) : Prop :=
  AmnOver (tempAmn v l s.amn) s t ∧ (l ≠ .normal → Raised .tempAlarm t ∧ ∀ r, (warnedStb l s.stb).find r.shot = some r →
    (r.phase = .waiting ∨ r.phase = .exposing) → Queued r t.rqe)

section Stands

variable (hst : c.stands = true) (hch : c.channel = .temp)
include hst hch

theorem temp_done {v : Int} (hv : s.amn.settings.value .temp code.toNat = v) {u : State}
    (hu : standingResult c v s = u) : event s (conversionDone code.toNat) = .next (finish s (converted u)) := by
  refine event_to h ?_
  rw [conversionDone_eq hc, if_pos hst, hch, hv, hu]

/-- A sweep's TEMP value. -/
theorem temp_swept {v : Int} (hv : s.amn.settings.value .temp code.toNat = v) (hd : c.demand = none) :
    ∃ t, event s (conversionDone code.toNat) = .next t ∧ TempDone v (tempLevelOf s.amn v) s t ∧
      t.stb = warnedStb (tempLevelOf s.amn v) s.stb ∧ OnlyChanges [.monitor, .stb] s t := by
  obtain ⟨q, hq, hqueued, he⟩ := standingResult_temp hch v (s := s)
  set l := tempLevelOf s.amn v with hl
  set u := withRqe q (withStb (warnedStb l s.stb) (withAmn (tempAmn v l s.amn) s)) with hu
  rw [hd, show answerDemand none (some v) u = u from rfl, alarm_temp (l := l) rfl] at he
  obtain ⟨hstb, -, -, -, -, -, hamn, hjobs, -⟩ := alarmed_same l u
  have hframe : OnlyChanges [.monitor, .stb] s u := (((OnlyChanges.refl _ s).amn _).stb _).ring (q := q) hq
  refine ⟨_, temp_done h hc code hst hch hv he, ⟨amnOver ?_ rfl rfl, fun hn => ⟨alarmed_raises hn _ _, fun r hr hp => ?_⟩⟩, ?_,
    ((hframe.trans ((alarmed_frame l u).mono (by simp))).andThen (converted_onlyChanges _)).finish s⟩
  · rw [hamn]
    rfl
  · obtain ⟨w, hw⟩ := hqueued hn r hr hp
    refine ⟨w, finish_queues ?_⟩
    show _ ∈ (alarmed l u).rqe.jobs
    rw [hjobs]
    exact hw
  · rw [finish_stb]
    exact hstb

/-- The start temperature of a shot. -/
theorem temp_started {v : Int} (hv : s.amn.settings.value .temp code.toNat = v) (hd : c.demand = some (.tempStart n)) :
    ∃ t, event s (conversionDone code.toNat) = .next t ∧ TempDone v (tempLevelOf s.amn v) s t ∧
      t.stb = (warnedStb (tempLevelOf s.amn v) s.stb).update n (fun r => { r with tempStart := some v }) ∧
      OnlyChanges [.monitor, .stb] s t := by
  obtain ⟨q, hq, hqueued, he⟩ := standingResult_temp hch v (s := s)
  set l := tempLevelOf s.amn v with hl
  set u := withRqe q (withStb (warnedStb l s.stb) (withAmn (tempAmn v l s.amn) s)) with hu
  set w := withStb (u.stb.update n fun r => { r with tempStart := some v }) u with hw
  rw [hd, show answerDemand (some (.tempStart n)) (some v) u = w from rfl, alarm_temp (l := l) rfl] at he
  obtain ⟨hstb, -, -, -, -, -, hamn, hjobs, -⟩ := alarmed_same l w
  have hbase : OnlyChanges [.monitor, .stb] s u := (((OnlyChanges.refl _ s).amn _).stb _).ring (q := q) hq
  have hframe : OnlyChanges [.monitor, .stb] s w := hbase.stb _
  refine ⟨_, temp_done h hc code hst hch hv he, ⟨amnOver ?_ rfl rfl, fun hn => ⟨alarmed_raises hn _ _, fun r hr hp => ?_⟩⟩, ?_,
    ((hframe.trans ((alarmed_frame l w).mono (by simp))).andThen (converted_onlyChanges _)).finish s⟩
  · rw [hamn]
    rfl
  · obtain ⟨j, hj⟩ := hqueued hn r hr hp
    refine ⟨j, finish_queues ?_⟩
    show _ ∈ (alarmed l w).rqe.jobs
    rw [hjobs]
    exact hj
  · rw [finish_stb]
    exact hstb

/-- The end temperature of a shot whose readout waits for the dark offset. -/
theorem temp_ended {v : Int} (hv : s.amn.settings.value .temp code.toNat = v) (hd : c.demand = some (.tempEnd n))
    (hr : (warnedStb (tempLevelOf s.amn v) s.stb).find n = some r) :
    let d := offsetOf o.image r (match r.tempStart with | some a => (a + v) / 2 | none => v)
    let st := (warnedStb (tempLevelOf s.amn v) s.stb).update n fun r => { r with tempEnd := some v, dark := d }
    let r' := { r with tempEnd := some v, dark := d }
    (Awaits n o s → ∃ t, event s (conversionDone code.toNat) = .next t ∧ TempDone v (tempLevelOf s.amn v) s t ∧ t.stb = st ∧
      Queued r' t.rqe ∧ t.pce = ⟨some { o with dark := some d }, s.pce.idle⟩ ∧ OnlyChanges [.monitor, .stb, .pce] s t) ∧
    (∀ p rest, Holds n o p rest s → TakesHeld code o p rest d st
      (fun t => TempDone v (tempLevelOf s.amn v) s t ∧ Queued r' t.rqe) s) := by
  intro d st r'
  set l := tempLevelOf s.amn v with hl
  have hanswer (hw : Waits n o s) (hfree : HeldOrNot s) : ∃ q, SameRing s.rqe q ∧ Queued r' q ∧
      (l ≠ .normal → ∀ r, (warnedStb l s.stb).find r.shot = some r → (r.phase = .waiting ∨ r.phase = .exposing) → Queued r q) ∧
      event s (conversionDone code.toNat) =
        .next (finish s (converted (alarmed l (acceptHeld (answered o d st (tempAmn v l s.amn) q s))))) := by
    obtain ⟨q1, hq1, hqueued1, he⟩ := standingResult_temp hch v (s := s)
    set u := withRqe q1 (withStb (warnedStb l s.stb) (withAmn (tempAmn v l s.amn) s)) with hu
    obtain ⟨q, hq, -, ⟨js, hjs⟩, hqueued, hans⟩ := answerTempEnd_of_waits (s := u) (r := r) (some v)
      ⟨hw.readout, hw.shot, hw.dark, hw.ending⟩ hr
    have htemp : offsetOf o.image r (shotTemperature r.tempStart (r.ended (some v)).tempEnd) = d := by
      show offsetOf o.image r (shotTemperature r.tempStart (some v)) = offsetOf o.image r _
      cases r.tempStart <;> rfl
    rw [htemp] at hqueued hans
    have hlevel : (acceptHeld (answered o d st (tempAmn v l s.amn) q s)).amn.tempLevel = l := by
      obtain ⟨hamn, -⟩ := accepted_keeps (o := o) (d := d) (st := st) (a := tempAmn v l s.amn) (q := q) hfree
      exact (congrArg Amn.tempLevel hamn :)
    refine ⟨q, hq1.trans hq, hqueued, fun hn r hr hp => ?_, temp_done h hc code hst hch hv ?_⟩
    · obtain ⟨j, hj⟩ := hqueued1 hn r hr hp
      exact ⟨j, hjs ▸ List.mem_append_left _ hj⟩
    · rw [he, hd, ← alarm_temp hlevel]
      exact congrArg (alarm .temp) hans
  have hdone {q : Rqe} (hfree : HeldOrNot s) (hwarned : l ≠ .normal → ∀ r, (warnedStb l s.stb).find r.shot = some r →
      (r.phase = .waiting ∨ r.phase = .exposing) → Queued r q) (hqueued : Queued r' q) :
      let t := finish s (converted (alarmed l (acceptHeld (answered o d st (tempAmn v l s.amn) q s))))
      TempDone v l s t ∧ Queued r' t.rqe := by
    obtain ⟨hamn, hjobs⟩ := answered_keeps (o := o) (d := d) (st := st) (a := tempAmn v l s.amn) (q := q) l hfree rfl rfl
      ⟨rfl, rfl⟩
    have hkeeps {x : ShotRecord} (hx : Queued x q) : Queued x (finish s (converted (alarmed l
        (acceptHeld (answered o d st (tempAmn v l s.amn) q s))))).rqe := by
      obtain ⟨j, hj⟩ := hx
      exact ⟨j, hjobs _ hj⟩
    exact ⟨⟨hamn, fun hn => ⟨alarmed_raises hn _ _, fun x hx hp => hkeeps (hwarned hn x hx hp)⟩⟩, hkeeps hqueued⟩
  refine ⟨fun hw => ?_, fun p rest hw => ?_⟩
  · have hnone := hw.2.2.2.2
    obtain ⟨q, hq, hqueued, hwarned, hevent⟩ := hanswer hw.waits (.inl hnone)
    obtain ⟨hfine, hjob⟩ := hdone (.inl hnone) hwarned hqueued
    obtain ⟨hstb, hpce, hframe⟩ := answered_waits (l := l) (o := o) (d := d) (st := st) (a := tempAmn v l s.amn) hnone hq
    exact ⟨_, hevent, hfine, hstb, hjob, hpce, hframe⟩
  · obtain ⟨hread, hshot, hdark, he, hqueue, hheld, hwait, hpath, hbeats⟩ := hw
    have hfree : HeldOrNot s := .inr ⟨p, rest, hqueue, hheld, hwait⟩
    obtain ⟨q, hq, hqueued, hwarned, hevent⟩ := hanswer ⟨hread, hshot, hdark, he⟩ hfree
    have hat (x : Nat) : st.stateAt x = s.stb.stateAt x := by
      show (warnedStb l s.stb).stateAt x = _
      rw [warnedStb]
      split <;> rfl
    obtain ⟨w, hw⟩ := takesHeld (l := l) (d := d) (st := st) (a := tempAmn v l s.amn) h hpath hqueue hheld hwait he hat
      hbeats hq
    exact ⟨_, w, hevent, hdone hfree hwarned hqueued, hw⟩

end Stands

end Temp

end Sys2Proof.Machine
end

section
/-! PROOFS. A BATT conversion that stands, and what its level makes of the card (R154, R155, R167, R190; O55). -/

namespace Sys2Proof.Machine

set_option Elab.async false

/-! ### The battery falls to CRITICAL, by the card state -/

section Critical

variable {u : State} {ps : List Part} {d : Cde}

/-- What the Card Engine makes of a change of the BATT level. -/
structure Told (d : Cde) (ps : List Part) (u w : State) : Prop where
  amn : w.amn = u.amn
  cde : w.cde = d
  frame : OnlyChanges (.cde :: ps) u w

theorem told_same (h : d = u.cde) : Told d ps u u := ⟨rfl, h.symm, OnlyChanges.refl _ u⟩

theorem told_cde (d : Cde) (u : State) : Told d ps u (withCde d u) :=
  ⟨rfl, rfl, (withCde_onlyChanges d u).mono fun _ hp => List.mem_cons.2 (.inl (List.mem_singleton.1 hp))⟩

/-- A park that powers the card down. -/
theorem told_down (c : Cde) (u : State) : Told (downFor .park (unasked c)) [.pins] u (powerDownTo .park (withCde (unasked c) u)) := by
  rw [powerDownTo_eq]
  exact ⟨rfl, rfl, ((OnlyChanges.refl _ u).cde _).cde _ |>.pins _⟩

theorem battCritical_stays (h : u.cde.state = .absent ∨ u.cde.state = .parked ∨ u.cde.state = .fault) :
    battCritical u = u := by
  rcases h with h | h | h <;> simp only [battCritical, h]

/-- The card with a park owed (R190). -/
def owing (c : Cde) : Cde := { c with parkOwed := true }

theorem battCritical_owes (h : u.cde.state = .reading ∨ (u.cde.state = .ready ∧ u.cde.reads ≠ []) ∨
    (u.cde.state = .writing ∧ u.cde.container = none)) : battCritical u = withCde (owing u.cde) u := by
  rcases h with h | ⟨h, hr⟩ | ⟨h, hc⟩
  · simp only [battCritical, h]
    refine if_neg fun hp => ?_
    have hready : u.cde.state = .ready := hp.1
    simp [hready] at h
  · simp only [battCritical, h]
    exact if_neg fun hp => hr hp.2.2.1
  · simp only [battCritical, h, hc]
    rfl

theorem battCritical_ready (h : u.cde.state = .ready) (hr : u.cde.reads = []) (hl : u.amn.battLevel = .critical) :
    battCritical u = powerDownTo .park (withCde (unasked u.cde) u) := by
  have hpay : payPark (withCde (owing u.cde) u) = parkNow (withCde (owing u.cde) u) := if_pos ⟨h, rfl, hr, hl⟩
  simp only [battCritical, h]
  refine hpay.trans ?_
  rw [parkNow_eq]
  simp only [parkIn, show (withCde (owing u.cde) u).cde.state = .ready from h]
  rfl

/-- The states in which the battery's fall is a park. -/
theorem battCritical_parks (h : u.cde.state = .powering ∨ u.cde.state = .identifying ∨ u.cde.state = .unformatted ∨
    (u.cde.state = .discharging ∧ u.cde.dischargeFor = .powerUp)) (hr : u.cde.run = none) :
    battCritical u = parkIn u.cde.state (withCde (unasked u.cde) u) := by
  rw [← park_of_no_run hr]
  rcases h with h | h | h | ⟨h, hd⟩
  · simp only [battCritical, h]
  · simp only [battCritical, h]
  · simp only [battCritical, h]
  · simp only [battCritical, h]
    exact if_pos hd

theorem battCritical_container {k : Container} (h : u.cde.state = .writing) (hc : u.cde.container = some k) :
    battCritical u = containerCritical k u := by
  simp only [battCritical, h, hc]

theorem containerCritical_few {k : Container} (h : blocksLeft k u ≤ 64) :
    containerCritical k u = withCde (owing u.cde) u := if_pos h

theorem containerCritical_many {k : Container} (h : 64 < blocksLeft k u) : containerCritical k u =
    if k.stage = .summing then
      (if slotReadOut u then modContainer (fun c => { c with park := true }) (withCde (owing u.cde) u)
        else containerParked (modContainer (fun c => { c with park := true }) (withCde (owing u.cde) u)))
    else askStop (modContainer (fun c => { c with park := true }) (withCde (owing u.cde) u)) := by
  refine (if_neg (show ¬ blocksLeft k u ≤ 64 by omega)).trans ?_
  rfl

theorem modContainer_of {k : Container} (f : Container → Container) (h : u.cde.container = some k) :
    modContainer f u = withCde { u.cde with container := some (f k) } u := by
  rw [modContainer, modCde, h]
  rfl

end Critical

/-! ### The conversion -/

section Batt

variable {s : State} {c : Conversion} (h : s.resetHeld = false) (hc : s.amn.conv = some c) (code : BitVec 12)

/-- The monitor with a BATT value and the level it gives (R149, R154). -/
def battAmn (v : Int) (l : BattLevel) (a : Amn) : Amn := { a with batt := some v, battValid := true, battLevel := l }

/-- The BATT level a value gives, under the settings in force. -/
def battLevelOf (a : Amn) (v : Int) : BattLevel := nextBattLevel a.settings.armFloor a.settings.critFloor a.battLevel v

/-- The state with a BATT conversion's value and level. -/
def measuredBatt (v : Int) (s : State) : State := withAmn (battAmn v (battLevelOf s.amn v) s.amn) s

theorem standingResult_batt (hch : c.channel = .batt) (hd : c.demand = none) (v : Int) :
    standingResult c v s = alarm .batt (battChanged s.amn.battLevel (measuredBatt v s)) := by
  unfold standingResult
  rw [hch, hd]
  rfl

theorem alarm_batt_frame (u : State) : OnlyChanges [] u (alarm .batt u) ∧ (alarm .batt u).amn = u.amn ∧
    (alarm .batt u).cde = u.cde ∧
    (u.amn.battLevel ≠ .normal → (⟨.batteryAlarm, none⟩ : Raise) ∈ (alarm .batt u).rqe.raises) := by
  unfold alarm
  dsimp only
  split
  · rename_i hn
    exact ⟨OnlyChanges.refl _ u, rfl, rfl, fun hl => absurd hn hl⟩
  · exact ⟨(OnlyChanges.refl _ u).raised _, rfl, rfl, fun _ => List.mem_append_right _ List.mem_cons_self⟩

include h hc

/-- A BATT conversion that stands, whose change of level has left the monitor `a` and the card `d`. -/
theorem batt_done (hst : c.stands = true) (hch : c.channel = .batt) (hd : c.demand = none) {v : Int}
    (hv : s.amn.settings.value .batt code.toNat = v) {w : State} {a : Amn} {qs : List Part}
    (hw : battChanged s.amn.battLevel (measuredBatt v s) = w) (ha : w.amn = a) (hnext : a.next = s.amn.next)
    (hset : a.settings = s.amn.settings) (hstop : a.stopped = s.amn.stopped ∧ a.stopAsked = s.amn.stopAsked)
    (hlevel : a.battLevel = battLevelOf s.amn v) (hframe : OnlyChanges qs (measuredBatt v s) w) (hq : .monitor ∈ qs) :
    ∃ t, event s (conversionDone code.toNat) = .next t ∧ AmnOver a s t ∧
      (battLevelOf s.amn v ≠ .normal → Raised .batteryAlarm t) ∧ t.cde = w.cde ∧ OnlyChanges qs s t := by
  obtain ⟨halarm, hamn, hcde, hraise⟩ := alarm_batt_frame w
  have hdone : conversionDone code.toNat s = converted (alarm .batt w) := by
    rw [conversionDone_eq hc, if_pos hst, hch, hv, standingResult_batt hch hd, hw]
  refine ⟨_, event_to h hdone, amnOver ?_ hnext hset, fun hl => finish_raised _ _ (hraise ?_), (finish_cde _ _).trans hcde, ?_⟩
  · rw [hamn, ha, ← hstop.1, ← hstop.2]
  · rwa [ha, hlevel]
  · have hmeasured : OnlyChanges qs s (measuredBatt v s) :=
      (withAmn_onlyChanges _ s).mono fun p hp => List.mem_singleton.1 hp ▸ hq
    exact (((hmeasured.trans hframe).trans (halarm.mono (by simp))).trans
      ((converted_onlyChanges _).mono fun p hp => List.mem_singleton.1 hp ▸ hq)).finish s

/-- The change of level told to the card, the monitor besides being as it was. -/
theorem batt_told (hst : c.stands = true) (hch : c.channel = .batt) (hd : c.demand = none) {v : Int}
    (hv : s.amn.settings.value .batt code.toNat = v) {d : Cde} {ps : List Part}
    (hw : Told d ps (measuredBatt v s) (battChanged s.amn.battLevel (measuredBatt v s))) :
    ∃ t, event s (conversionDone code.toNat) = .next t ∧ AmnOver (battAmn v (battLevelOf s.amn v) s.amn) s t ∧
      (battLevelOf s.amn v ≠ .normal → Raised .batteryAlarm t) ∧ t.cde = d ∧ OnlyChanges (.monitor :: .cde :: ps) s t := by
  obtain ⟨t, hto, hamn, halarm, hcde, hframe⟩ := batt_done h hc code hst hch hd hv rfl (qs := .monitor :: .cde :: ps) hw.amn
    rfl rfl ⟨rfl, rfl⟩ rfl (hw.frame.mono fun p hp => List.mem_cons_of_mem _ hp) List.mem_cons_self
  exact ⟨t, hto, hamn, halarm, hcde.trans hw.cde, hframe⟩

omit h hc

theorem battChanged_same {u : State} {before : BattLevel} (hf : ¬ (u.amn.battLevel = .critical ∧ before ≠ .critical))
    (hr : ¬ (u.amn.battLevel ≠ .critical ∧ before = .critical)) : battChanged before u = u := by
  unfold battChanged
  by_cases he : u.amn.battLevel = before
  · exact if_pos he
  · by_cases hc : u.amn.battLevel = .critical
    · exact absurd ⟨hc, fun hb => he (hc.trans hb.symm)⟩ hf
    · by_cases hb : before = .critical
      · exact absurd ⟨hc, hb⟩ hr
      · rw [if_neg he, if_neg hc, if_neg hb]

theorem battChanged_falls {u : State} {before : BattLevel} (hf : u.amn.battLevel = .critical ∧ before ≠ .critical) :
    battChanged before u = battCritical u := by
  rw [battChanged, if_neg fun he => hf.2 (he.symm.trans hf.1), if_pos hf.1]

theorem battChanged_recovers {u : State} {before : BattLevel} (hr : u.amn.battLevel ≠ .critical ∧ before = .critical) :
    battChanged before u = battRecovered u := by
  rw [battChanged, if_neg fun he => hr.1 (he.trans hr.2), if_neg hr.1, if_pos hr.2]

/-- The battery's fall during a container (R190). -/
theorem told_container {u : State} {k : Container} {d : Cde} (hs : u.cde.state = .writing) (hc : u.cde.container = some k)
    (hw : Told d [] u (containerCritical k u)) : Told d [] u (battCritical u) := by
  rwa [battCritical_container hs hc]

/-- A park, told by the card state. -/
theorem told_park {u : State} (hr : u.cde.run = none) :
    (u.cde.state = .unformatted → Told (downFor .park (unasked u.cde)) [.pins] u (battCritical u)) ∧
    (u.cde.state = .powering → u.cde.pwrEn = false → u.amn.battLevel = .critical →
      Told { unasked u.cde with state := .parked, powerUp := none } [] u (battCritical u)) ∧
    (u.cde.state = .powering → u.cde.pwrEn = true → Told (downFor .park (unasked u.cde)) [.pins] u (battCritical u)) ∧
    (u.cde.state = .identifying → u.cde.ident = some .sent →
      Told { unasked u.cde with identDrop := some .park } [] u (battCritical u)) ∧
    (u.cde.state = .identifying → u.cde.ident ≠ some .sent →
      Told (downFor .park (unasked u.cde)) [.pins] u (battCritical u)) ∧
    (u.cde.state = .discharging → Told (if u.cde.dischargeFor = .powerUp then
      { unasked u.cde with dischargeFor := .park } else u.cde) [] u (battCritical u)) := by
  refine ⟨fun hs => ?_, fun hs hp hl => ?_, fun hs hp => ?_, fun hs hi => ?_, fun hs hi => ?_, fun hs => ?_⟩
  · rw [battCritical_parks (.inr (.inr (.inl hs))) hr, hs]
    exact told_down u.cde u
  · rw [battCritical_parks (.inl hs) hr, hs]
    have hstays : reachParked (withCde (unasked u.cde) u) =
        withCde { unasked u.cde with state := .parked, powerUp := none } u := if_neg fun hgo => hgo.1 hl
    have hpark : parkIn .powering (withCde (unasked u.cde) u) = reachParked (withCde (unasked u.cde) u) :=
      if_neg (by simp [withCde, unasked, hp])
    rw [hpark, hstays]
    exact told_cde _ u
  · rw [battCritical_parks (.inl hs) hr, hs]
    have hpark : parkIn .powering (withCde (unasked u.cde) u) = powerDownTo .park (withCde (unasked u.cde) u) := if_pos hp
    rw [hpark]
    exact told_down u.cde u
  · rw [battCritical_parks (.inr (.inl hs)) hr, hs]
    have hpark : parkIn .identifying (withCde (unasked u.cde) u) =
        withCde { unasked u.cde with identDrop := some .park } u := if_pos hi
    rw [hpark]
    exact told_cde _ u
  · rw [battCritical_parks (.inr (.inl hs)) hr, hs]
    have hpark : parkIn .identifying (withCde (unasked u.cde) u) = powerDownTo .park (withCde (unasked u.cde) u) := if_neg hi
    rw [hpark]
    exact told_down u.cde u
  · by_cases hd : u.cde.dischargeFor = .powerUp
    · rw [battCritical_parks (.inr (.inr (.inr ⟨hs, hd⟩))) hr, hs, if_pos hd]
      have hpark : parkIn .discharging (withCde (unasked u.cde) u) =
          withCde { unasked u.cde with dischargeFor := .park } u := if_pos hd
      rw [hpark]
      exact told_cde _ u
    · rw [if_neg hd]
      have hstays : battCritical u = u := by
        simp only [battCritical, hs]
        exact if_neg hd
      rw [hstays]
      exact told_same rfl

/-- A container under way when the battery falls: finished if few blocks are left, else parked (R190). -/
theorem told_writing {u : State} {k : Container} (hs : u.cde.state = .writing) (hk : u.cde.container = some k) :
    (∀ r, k.stage ≠ .logUpdate → u.cde.run = some r →
      (k.blocks + 2 - (k.done + r.done) ≤ 64 → Told (owing u.cde) [] u (battCritical u)) ∧
      (64 < k.blocks + 2 - (k.done + r.done) → k.stage ≠ .summing → r.stage ≠ .waiting →
        Told { owing u.cde with container := some { k with park := true }, run := some { r with stop := true } } [] u
          (battCritical u))) ∧
    (k.stage = .logUpdate → k.done = k.blocks + 2 → Told (owing u.cde) [] u (battCritical u)) ∧
    (k.stage = .summing → u.cde.run = none → k.done = 0 → 62 < k.blocks → slotReadOut u = true →
      Told { owing u.cde with container := some { k with park := true } } [] u (battCritical u)) := by
  have hmod : modContainer (fun c => { c with park := true }) (withCde (owing u.cde) u) =
      withCde { owing u.cde with container := some { k with park := true } } u :=
    modContainer_of (u := withCde (owing u.cde) u) _ hk
  refine ⟨fun r hl hr => ⟨fun hfew => ?_, fun hmany hn hw => ?_⟩, fun hl hd => ?_, fun hl hr hd hb hread => ?_⟩
  · have hleft : blocksLeft k u ≤ 64 := by
      rw [blocksLeft, if_neg hl, hr]
      exact hfew
    refine told_container hs hk ?_
    rw [containerCritical_few hleft]
    exact told_cde _ u
  · have hleft : 64 < blocksLeft k u := by
      rw [blocksLeft, if_neg hl, hr]
      exact hmany
    refine told_container hs hk ?_
    rw [containerCritical_many hleft, if_neg hn, hmod,
      askStop_of_going (s := withCde { owing u.cde with container := some { k with park := true } } u) hr hw]
    exact told_cde _ u
  · have hleft : blocksLeft k u ≤ 64 := by
      rw [blocksLeft, if_pos hl]
      omega
    refine told_container hs hk ?_
    rw [containerCritical_few hleft]
    exact told_cde _ u
  · have hleft : 64 < blocksLeft k u := by
      rw [blocksLeft, if_neg (by simp [hl]), hr]
      show 64 < k.blocks + 2 - (k.done + 0)
      omega
    refine told_container hs hk ?_
    rw [containerCritical_many hleft, if_pos hl, if_pos hread, hmod]
    exact told_cde _ u

theorem slotReadOut_of_active {u : State} {x : Txn} (h : u.fmc.active = some x) (hk : x.kind = .slotRead) :
    slotReadOut u = true := by
  simp [slotReadOut, h, hk]

/-- The battery recovers (R190). -/
theorem battRecovered_parked {u : State} (hs : u.cde.state = .parked) (hr : u.cde.run = none)
    (hp : u.hmp.path = .run ∨ u.hmp.path = .filling) (hq : Demand.card ∉ u.amn.queue) : battRecovered u =
      withAmn { u.amn with queue := u.amn.queue ++ [.card] } (withCde (poweringUp { u.cde with parkOwed := false }) u) := by
  refine (if_pos ⟨hs, hp⟩).trans ?_
  have hcycling : ({ u.cde with parkOwed := false } : Cde).cycling = false := Cde.cycling_of_no_run hr
  refine (startPowerUp_eq (s := withCde { u.cde with parkOwed := false } u) hcycling).trans ?_
  exact ask_card (s := withCde (poweringUp { u.cde with parkOwed := false }) u) hq

theorem battRecovered_else {u : State} (h : u.cde.state ≠ .parked ∨ (u.hmp.path ≠ .run ∧ u.hmp.path ≠ .filling)) :
    battRecovered u = withCde { u.cde with parkOwed := false } u := by
  refine if_neg ?_
  rintro ⟨hs, hp⟩
  exact h.elim (fun hne => hne hs) fun hne => hp.elim hne.1 hne.2

end Batt

end Sys2Proof.Machine
end

section
/-! PROOFS. A CARD conversion that stands (R149, R157, R168, R184), and the whole of CONVERSION_COMPLETE (O55). -/

namespace Sys2Proof.Machine

set_option Elab.async false

section Card

variable {s : State} {c : Conversion} (h : s.resetHeld = false) (hc : s.amn.conv = some c) (code : BitVec 12)

/-- The monitor with a CARD value (R149). -/
def cardAmn (v : Int) (a : Amn) : Amn := { a with card := some v, cardValid := true }

/-- The card with a reading and its moment. -/
def readCde (v : Int) (now : Nat) (c : Cde) : Cde := { c with reading := some v, readingAt := some now }

/-- The state with a CARD conversion's value, told to a card that waits for none. -/
def measuredCard (v : Int) (s : State) : State := withCde (readCde v s.exs.timeBase s.cde) (withAmn (cardAmn v s.amn) s)

theorem measuredCard_frame (v : Int) (s : State) : OnlyChanges [.monitor, .cde] s (measuredCard v s) :=
  ((OnlyChanges.refl _ s).amn _).cde _

theorem standingResult_card (hch : c.channel = .card) (hd : c.demand = none ∨ c.demand = some .card)
    (hdis : s.cde.discharge = false) (hup : s.cde.powerUp ≠ some .reading) (hramp : s.cde.rampTimer = none) (v : Int) :
    standingResult c v s = if s.cde.state = .fault then raiseCard .cardFault (measuredCard v s)
      else if fullCondition (measuredCard v s) then raise .cardFull (measuredCard v s) else measuredCard v s := by
  have hread : cardReading v (withAmn (cardAmn v s.amn) s) = measuredCard v s := by
    unfold cardReading
    refine (if_neg (by simp [modCde, withAmn, hdis])).trans ((if_neg hup).trans (if_neg ?_))
    intro hgo
    have hsome := hgo.1
    simp [modCde, withAmn, hramp] at hsome
  have hdemand : answerDemand c.demand (some v) (withAmn (cardAmn v s.amn) s) = withAmn (cardAmn v s.amn) s := by
    rcases hd with hd | hd <;> rw [hd] <;> rfl
  have hresult : standingResult c v s = cardResult (some v) (answerDemand c.demand (some v) (withAmn (cardAmn v s.amn) s)) := by
    unfold standingResult
    rw [hch]
    rfl
  rw [hresult, hdemand, cardResult]
  simp only [hread]
  rfl

include h hc

theorem card_done (hst : c.stands = true) (hch : c.channel = .card) {v : Int}
    (hv : s.amn.settings.value .card code.toNat = v) {w : State} (hw : standingResult c v s = w)
    (hamn : w.amn = cardAmn v s.amn) (hcde : w.cde = readCde v s.exs.timeBase s.cde)
    (hframe : OnlyChanges [.monitor, .cde] s w) :
    event s (conversionDone code.toNat) = .next (finish s (converted w)) ∧ AmnOver (cardAmn v s.amn) s (finish s (converted w)) ∧
      (finish s (converted w)).cde = readCde v s.exs.timeBase s.cde ∧
      OnlyChanges [.monitor, .cde] s (finish s (converted w)) := by
  refine ⟨event_to h ?_, amnOver ?_ rfl rfl, (finish_cde _ _).trans hcde, (hframe.andThen (converted_onlyChanges _)).finish s⟩
  · rw [conversionDone_eq hc, if_pos hst, hch, hv, hw]
  · rw [hamn]
    rfl

end Card

/-- The oldest HELD record. -/
theorem oldestHeld_of_first {t : Stb} {before after : List ShotRecord} {r : ShotRecord} (h : t.records = before ++ r :: after)
    (hb : ∀ q ∈ before, q.phase ≠ .held) (hr : r.phase = .held) : t.oldestHeld = some r := by
  have hnone : before.find? (fun r => r.phase == .held) = none := List.find?_eq_none.2 fun q hq => by simpa using hb q hq
  rw [Stb.oldestHeld, h, List.find?_append, hnone, Option.none_or, List.find?_cons_of_pos (by simpa using hr)]

/-- CARD_FULL is due when the oldest HELD record does not fit (R184). -/
theorem fullCondition_of_held {u : State} {r : ShotRecord} {g : Geometry} {size : Nat} (hs : u.cde.state = .ready)
    (hr : u.stb.oldestHeld = some r) (hg : u.cde.geometry = some g) (hc : u.cde.capacity = some size)
    (hfull : size < g.nextFree + (r.pitch.getD 0 * r.stats.lines + 511) / 512 + 2) : fullCondition u = true := by
  have hfits : fits r u = false := by
    simp only [fits, hg, capacityOf, hc]
    exact decide_eq_false (by
      show ¬ (g.nextFree + (r.pitch.getD 0 * r.stats.lines + 511) / 512 + 2 ≤ size)
      omega)
  simp [fullCondition, hs, hr, hfits]

/-! ### The statement -/

theorem warnedStb_eq (l : TempLevel) (t : Stb) : ({ t with records := if l = .normal then t.records else t.records.map fun r => if r.phase = .waiting ∨ r.phase = .exposing then { r with flags := { r.flags with tempWarn := true } } else r } : Stb) =
    warnedStb l t := by
  unfold warnedStb
  split <;> rfl

/-- Settles O55: the conversion's result by its channel, then the settings that wait. -/
theorem conversionEnds : Obligations.ConversionEnds := by
  intro code s c h hc m value fin same queued awaits holds takesHeld
  refine ⟨fun hv => ⟨fun hkind => ?_, fun n r o hch hd hr ht hw => ?_, fun n r o p rest hch hd hr ht hw => ?_⟩,
    fun hst hch => ?_, fun hst hch hd => ?_, fun hst hch hd hdis hup hramp => ?_⟩
  · refine void_dropped h hc code hv ?_
    rcases hkind with ⟨hch, hd⟩ | ⟨n, hch, hd⟩ | ⟨hch, hd, hf, hr⟩
    · rw [voidResult_of_temp hch, hd]
      rfl
    · rw [voidResult_of_temp hch, hd]
      rfl
    · have hans : answerDemand c.demand none s = s := by
        rcases hd with hd | hd <;> rw [hd] <;> rfl
      rw [voidResult, hans]
      exact (if_pos hch).trans (cardResult_none hf hr)
  · exact (void_end h hc code hv hch hd hr ht).1 hw
  · exact (void_end h hc code hv hch hd hr ht).2 p rest hw
  · intro v level warned temp
    have hval : s.amn.settings.value .temp code.toNat = v := rfl
    have hwarned : warned = warnedStb (tempLevelOf s.amn v) s.stb := warnedStb_eq _ _
    have htemp : temp = TempDone v (tempLevelOf s.amn v) s := by
      funext t
      simp only [temp, hwarned]
      rfl
    rw [exec_conversionComplete, htemp, hwarned]
    refine ⟨fun hd => temp_swept h hc code hst hch hval hd, fun n hd => temp_started h hc code hst hch hval hd,
      fun n r o hd hr hw => ?_, fun n r o p rest hd hr hw => ?_⟩
    · exact (temp_ended h hc code hst hch hval hd hr).1 hw
    · exact (temp_ended h hc code hst hch hval hd hr).2 p rest hw
  · intro v level batt then' owes parked falls recovers
    have hval : s.amn.settings.value .batt code.toNat = v := rfl
    set u := measuredBatt v s with hu
    have told {d : Cde} {ps : List Part} (hw : Told d ps u (battChanged s.amn.battLevel u)) : then' d ps :=
      batt_told h hc code hst hch hd hval hw
    have hfalls (hf : falls) {d : Cde} {ps : List Part} (hw : Told d ps u (battCritical u)) : then' d ps :=
      told (by rwa [battChanged_falls hf])
    refine ⟨fun hnf hnr => told ?_, fun hf => ?_, fun hr => ⟨fun hs hrun hpath hq => ?_, fun helse => told ?_⟩⟩
    · rw [battChanged_same hnf hnr]
      exact told_same rfl
    · refine ⟨fun hs => hfalls hf ?_, fun hs => hfalls hf ?_, fun hs hreads => hfalls hf ?_, fun hs hrun => hfalls hf ?_,
        fun hs hrun hp => hfalls hf ?_, fun hs hrun hp => hfalls hf ?_, fun hs hrun => ⟨fun hi => hfalls hf ?_, fun hi => hfalls hf ?_⟩,
        fun hs hrun => hfalls hf ?_, fun k r hs hk hl hrun => ?_, fun k hs hk hl hdone => hfalls hf ?_,
        fun k hs hk hl hrun hdone hb hread => hfalls hf ?_⟩
      · rw [battCritical_stays (u := u) hs]
        exact told_same rfl
      · rw [battCritical_owes (u := u) hs]
        exact told_cde _ u
      · rw [battCritical_ready (u := u) hs hreads hf.1]
        exact told_down s.cde u
      · exact (told_park (u := u) hrun).1 hs
      · exact (told_park (u := u) hrun).2.1 hs hp hf.1
      · exact (told_park (u := u) hrun).2.2.1 hs hp
      · exact (told_park (u := u) hrun).2.2.2.1 hs hi
      · exact (told_park (u := u) hrun).2.2.2.2.1 hs hi
      · exact (told_park (u := u) hrun).2.2.2.2.2 hs
      · obtain ⟨hfew, hmany⟩ := (told_writing (u := u) hs hk).1 r hl hrun
        exact ⟨fun hleft => hfalls hf (hfew hleft), fun hleft hn hw => hfalls hf (hmany hleft hn hw)⟩
      · exact (told_writing (u := u) hs hk).2.1 hl hdone
      · obtain ⟨x, hx, hxk⟩ := hread
        exact (told_writing (u := u) hs hk).2.2 hl hrun hdone hb (slotReadOut_of_active (u := u) hx hxk)
    · have hw : battChanged s.amn.battLevel u = withAmn { u.amn with queue := u.amn.queue ++ [.card] }
          (withCde (poweringUp { u.cde with parkOwed := false }) u) := by
        rw [battChanged_recovers hr, battRecovered_parked (u := u) hs hrun hpath hq]
      exact batt_done h hc code hst hch hd hval hw rfl rfl rfl ⟨rfl, rfl⟩ rfl
        (((OnlyChanges.refl [.monitor, .cde] u).cde _).amn _) List.mem_cons_self
    · rw [battChanged_recovers hr, battRecovered_else (u := u) helse]
      exact told_cde _ u
  · intro v read held
    have hval : s.amn.settings.value .card code.toNat = v := rfl
    have hresult := standingResult_card hch hd hdis hup hramp v
    have hbase := measuredCard_frame v s
    rw [exec_conversionComplete]
    refine ⟨fun hf hr => ?_, fun hf he => ?_, fun before r after g size hs hrecords hbefore hheld hg hsize => ?_⟩
    · have hfull : fullCondition (measuredCard v s) = false := by simp [fullCondition, measuredCard, withCde, withAmn, readCde, hr]
      rw [if_neg hf, hfull] at hresult
      obtain ⟨hto, hamn, hcde, hframe⟩ := card_done h hc code hst hch hval hresult rfl rfl hbase
      exact ⟨_, hto, hamn, hcde, hframe⟩
    · have hraise : raiseCard .cardFault (measuredCard v s) = raise .cardFault (measuredCard v s) := if_pos he
      rw [if_pos hf, hraise] at hresult
      obtain ⟨hto, hamn, hcde, hframe⟩ := card_done h hc code hst hch hval hresult rfl rfl (hbase.raised _)
      exact ⟨_, hto, hamn, hcde, finish_raised _ _ (List.mem_append_right _ List.mem_cons_self), hframe⟩
    · rw [if_neg (by simp [hs])] at hresult
      by_cases hfull : fullCondition (measuredCard v s) = true
      · rw [if_pos hfull] at hresult
        obtain ⟨hto, hamn, hcde, hframe⟩ := card_done h hc code hst hch hval hresult rfl rfl (hbase.raised _)
        exact ⟨_, hto, hamn, hcde, fun _ => finish_raised _ _ (List.mem_append_right _ List.mem_cons_self), hframe⟩
      · rw [if_neg hfull] at hresult
        obtain ⟨hto, hamn, hcde, hframe⟩ := card_done h hc code hst hch hval hresult rfl rfl hbase
        exact ⟨_, hto, hamn, hcde, fun hsize' => absurd (fullCondition_of_held (u := measuredCard v s) hs
          (oldestHeld_of_first hrecords hbefore hheld) hg hsize hsize') hfull, hframe⟩

end Sys2Proof.Machine
end

section
/-! PROOFS. Power and detection of a card: the readings of its rail (R161, R162, R164, R175, R190; O56). -/

namespace Sys2Proof.Machine

set_option Elab.async false

/-! ### A reading that decides something -/

section Reading

variable {s : State} {c : Conversion} {v : Int} {code : BitVec 12}

theorem cardReading_eq (v : Int) (s : State) : cardReading v (withAmn (cardAmn v s.amn) s) =
    if s.cde.discharge then (if v < 300 then dischargeDone v (measuredCard v s) else measuredCard v s)
    else if s.cde.powerUp = some .reading then judgeReading v (measuredCard v s)
    else if s.cde.rampTimer.isSome ∧ 2900 ≤ v then modCde Cde.rampDone (measuredCard v s)
    else measuredCard v s := rfl

theorem converted_queue (w : State) : (converted w).amn.queue = w.amn.queue := by
  have h := congrArg Amn.queue (finishConversion_eq w.amn w.amn.stopped w.amn.stopAsked)
  refine Eq.trans (b := (overAmn w.amn w.amn).queue) h ?_
  unfold overAmn
  split <;> rfl

/-- A CARD conversion that stands, and its value's reading. -/
structure TellsCard (code : BitVec 12) (c : Conversion) (v : Int) (s : State) : Prop where
  running : s.resetHeld = false
  conv : s.amn.conv = some c
  stands : c.stands = true
  channel : c.channel = .card
  demand : c.demand = none ∨ c.demand = some .card
  value : s.amn.settings.value .card code.toNat = v

theorem TellsCard.done (h : TellsCard code c v s) {w : State} (hw : cardReading v (withAmn (cardAmn v s.amn) s) = w) :
    event s (conversionDone code.toNat) = .next (finish s (converted
      (if w.cde.state = .fault then raiseCard .cardFault w else if fullCondition w then raise .cardFull w else w))) := by
  refine event_to h.running ?_
  have hdemand : answerDemand c.demand (some v) (withAmn (cardAmn v s.amn) s) = withAmn (cardAmn v s.amn) s := by
    rcases h.demand with hd | hd <;> rw [hd] <;> rfl
  have hresult : standingResult c v s = cardResult (some v) (answerDemand c.demand (some v) (withAmn (cardAmn v s.amn) s)) := by
    unfold standingResult
    rw [h.channel]
    rfl
  rw [conversionDone_eq h.conv, if_pos h.stands, h.channel, h.value, hresult, hdemand, cardResult]
  simp only [hw]

/-- A reading after which the card is neither in FAULT nor READY. -/
theorem TellsCard.leads (h : TellsCard code c v s) {w : State} (hw : cardReading v (withAmn (cardAmn v s.amn) s) = w)
    (hf : w.cde.state ≠ .fault) (hr : w.cde.state ≠ .ready) (hframe : OnlyChanges [.monitor, .cde] s w) :
    ∃ t, event s (conversionDone code.toNat) = .next t ∧ t.cde = w.cde ∧ t.amn.queue = w.amn.queue ∧
      OnlyChanges [.monitor, .cde] s t := by
  have hfull : fullCondition w = false := by simp [fullCondition, hr]
  have hdone := h.done hw
  rw [if_neg hf, hfull] at hdone
  exact ⟨_, hdone, finish_cde _ _, (finish_amn_queue _ _).trans (converted_queue w),
    (hframe.andThen (converted_onlyChanges w)).finish s⟩

theorem TellsCard.becomes (h : TellsCard code c v s) {d : Cde}
    (hw : cardReading v (withAmn (cardAmn v s.amn) s) = withCde d (measuredCard v s)) (hf : d.state ≠ .fault)
    (hr : d.state ≠ .ready) : ∃ t, event s (conversionDone code.toNat) = .next t ∧ t.cde = d ∧
      OnlyChanges [.monitor, .cde] s t := by
  obtain ⟨t, hto, hcde, -, hframe⟩ := h.leads hw hf hr ((measuredCard_frame v s).cde d)
  exact ⟨t, hto, hcde, hframe⟩

theorem cycling_iff (c : Cde) : c.cycling = true ↔ ∃ r, c.run = some r ∧ r.stage = .cycling := by
  rw [Cde.cycling, Option.any_eq_true]
  simp

/-- A card state entered, or kept by a run's power cycle. -/
theorem TellsCard.enters (h : TellsCard code c v s) {d : Cde} {st : CardState}
    (hw : cardReading v (withAmn (cardAmn v s.amn) s) = withCde (d.enter st) (measuredCard v s)) (hrun : d.run = s.cde.run)
    (hstate : d.state = s.cde.state) (hf : s.cde.state ≠ .fault) (hr : s.cde.state ≠ .ready) (hsf : st ≠ .fault)
    (hsr : st ≠ .ready) :
    ((∃ r, s.cde.run = some r ∧ r.stage = .cycling) → ∃ t, event s (conversionDone code.toNat) = .next t ∧
      t.cde = { d with state := s.cde.state } ∧ OnlyChanges [.monitor, .cde] s t) ∧
    (¬ (∃ r, s.cde.run = some r ∧ r.stage = .cycling) → ∃ t, event s (conversionDone code.toNat) = .next t ∧
      t.cde = { d with state := st } ∧ OnlyChanges [.monitor, .cde] s t) := by
  rw [← hrun, ← cycling_iff]
  refine ⟨fun hc => ?_, fun hc => ?_⟩
  · rw [Cde.enter_of_cycling hc] at hw
    have hsame : { d with state := s.cde.state } = d := by rw [← hstate]
    rw [hsame]
    exact h.becomes hw (hstate ▸ hf) (hstate ▸ hr)
  · rw [Cde.enter_of_run (by simpa using hc)] at hw
    exact h.becomes hw hsf hsr

/-- A reading judged by a power-up (R161). -/
theorem judgeReading_eq (v : Int) (u : State) : judgeReading v u =
    if 300 ≤ v then withCde (({ u.cde with powerUp := none }.startDischarge u.cde.upCause).enter .discharging) u
    else if u.exs.quietReq then withCde ({ u.cde with powerUp := some .quiet }.enter .powering) u
    else withCde (u.cde.powerOn.enter .powering) u := rfl

end Reading

/-! ### The poll -/

theorem exec_cardRailPollTick (s : State) : exec .cardRailPollTick s =
    event s fun s => if s.cde.discharge ∨ s.cde.rampTimer.isSome then ask .card s else s := rfl

end Sys2Proof.Machine
end

section
/-! PROOFS. Power and detection of a card: faults, insertion and removal (R160, R164 to R168, R176; O56). -/

namespace Sys2Proof.Machine

set_option Elab.async false

/-! ### Card events -/

/-- The card once an event has been raised, or is owed until the results of its reads are written (R176). -/
def owedFor (f : EventFlag) (c : Cde) : Cde :=
  { c with owed := if c.ended = [] ∨ f ∈ c.owed then c.owed else c.owed ++ [f] }

theorem raiseCard_spec (f : EventFlag) (s : State) : (raiseCard f s).cde = owedFor f s.cde ∧
    (s.cde.ended = [] → (⟨f, none⟩ : Raise) ∈ (raiseCard f s).rqe.raises) ∧ OnlyChanges [.cde] s (raiseCard f s) ∧
    (raiseCard f s).stb = s.stb ∧ (raiseCard f s).pins = s.pins := by
  by_cases h : s.cde.ended = []
  · rw [raiseCard, if_pos h, owedFor, if_pos (.inl h)]
    exact ⟨rfl, fun _ => List.mem_append_right _ List.mem_cons_self, (OnlyChanges.refl _ s).raised f, rfl, rfl⟩
  · rw [raiseCard, if_neg h]
    have hsame : modCde (fun c => { c with owed := if c.owed.contains f then c.owed else c.owed ++ [f] }) s =
        withCde (owedFor f s.cde) s := by
      rw [owedFor]
      by_cases hf : f ∈ s.cde.owed
      · rw [if_pos (.inr hf), modCde, if_pos (by simpa using hf)]
        rfl
      · rw [if_neg (by tauto), modCde, if_neg (by simpa using hf)]
        rfl
    rw [hsame]
    exact ⟨rfl, fun he => absurd he h, withCde_onlyChanges _ s, rfl, rfl⟩

/-! ### The card lost -/

/-- The card with all that a card up has given up (R165, R168). -/
def dropped (c : Cde) : Cde := { c with run := none, block := [], mount := none, format := none, geometry := none, powerUp := none, ident := none, identDrop := none, busTimer := none, parkAsked := false, parkOwed := false }

/-- The card with its power switched off and the rail being discharged (R164). -/
def down (why : DischargeFor) (c : Cde) : Cde := { c with lines := .highZ, pwrEn := false, rail := .discharging, discharge := true, dischargeTimer := some 500000, dischargeFor := why, rampTimer := none, ocCount := 0 }

/-- The card has no work. -/
def NoWork (c : Cde) : Prop := c.container = none ∧ c.reads = [] ∧ c.serving = none

section Lost

variable {s : State}

theorem endReads_of_none (o : ReadOutcome) (hr : s.cde.reads = []) (hv : s.cde.serving = none) : endReads o s = s := by
  have hsame : ({ s.cde with reads := [], ended := s.cde.ended ++ s.cde.reads.map fun r => { tag := r.tag, outcome := o, done := r.done } } : Cde) = s.cde := by
    rw [hr, List.map_nil, List.append_nil, ← hr]
  have hserving : endServing o s = s := by simp only [endServing, hv]
  rw [endReads, hserving, modCde, hsame]

theorem loseCard_of_none (res : StoreResult) (o : ReadOutcome) (h : NoWork s.cde) :
    loseCard res o s = withCde (dropped s.cde) s := by
  obtain ⟨hc, hr, hv⟩ := h
  have hreturn : returnShot res s = s := by simp only [returnShot, hc]
  rw [loseCard, hreturn, endReads_of_none o hr hv]
  rfl

/-- FAULT entered by a card that is powered (R168). -/
theorem enterFault_powered (cause : FaultCause) (h : NoWork s.cde) (hp : s.cde.pwrEn = true) :
    enterFault cause s = raiseCard .cardFault (withPins { s.pins with overcurrent := false }
      (withCde { down .fault (dropped s.cde) with state := .fault, faultCause := cause } s)) := by
  rw [enterFault, loseCard_of_none _ _ h]
  refine (congrArg (fun u => raiseCard .cardFault (modCde (fun c => { c with state := .fault, faultCause := cause, rampTimer := none }) u)) (if_pos hp)).trans ?_
  rfl

theorem enterFault_unpowered (cause : FaultCause) (h : NoWork s.cde) (hp : s.cde.pwrEn = false) :
    enterFault cause s = raiseCard .cardFault
      (withCde { dropped s.cde with state := .fault, faultCause := cause, rampTimer := none } s) := by
  have hno : ¬ (withCde (dropped s.cde) s).cde.pwrEn = true := by
    show ¬ s.cde.pwrEn = true
    simp [hp]
  rw [enterFault, loseCard_of_none _ _ h]
  exact (congrArg (fun u => raiseCard .cardFault (modCde (fun c => { c with state := .fault, faultCause := cause, rampTimer := none }) u)) (if_neg hno)).trans rfl

/-- FAULT as the end of a command leaves it. -/
theorem faulted_of {f : State → State} {cause : FaultCause} (hs : s.resetHeld = false) (h : NoWork s.cde)
    (hp : s.cde.pwrEn = true) (hf : f s = enterFault cause s) : ∃ t, event s f = .next t ∧
      t.cde = owedFor .cardFault { down .fault (dropped s.cde) with state := .fault, faultCause := cause } ∧
      (s.cde.ended = [] → Raised .cardFault t) ∧ OnlyChanges [.cde, .pins] s t := by
  set u := withPins { s.pins with overcurrent := false }
    (withCde { down .fault (dropped s.cde) with state := .fault, faultCause := cause } s) with hu
  obtain ⟨hcde, hraise, hframe, -⟩ := raiseCard_spec .cardFault u
  have hbase : OnlyChanges [.cde, .pins] s u := ((OnlyChanges.refl _ s).cde _).pins _
  exact ⟨_, event_to hs (hf.trans (enterFault_powered cause h hp)), (finish_cde _ _).trans hcde,
    fun he => finish_raised _ _ (hraise he), (hbase.andThen hframe).finish s⟩

end Lost

/-! ### Removal -/

section Removal

variable {s u : State}

theorem exec_cardRemoval (s : State) : exec .cardRemoval s = pinEvent s (fun p => { p with cardPresent := false })
    fun t => if t.cde.detected then removeCard (seeDetect false t) else t := rfl

theorem exec_cardInsertion (s : State) : exec .cardInsertion s = pinEvent s (fun p => { p with cardPresent := true })
    fun t => if t.cde.detected then t else insertCard (seeDetect true t) := rfl

/-- In RUN a change of the level at CARD_DET wakes nothing (R68). -/
theorem seeDetect_of_run (h : s.hmp.path = .run) (l : Bool) : seeDetect l s = withCde { s.cde with detLevel := l } s := by
  unfold seeDetect
  split
  · rename_i hl
    have hsame : { s.cde with detLevel := l } = s.cde := by rw [← hl]
    rw [hsame]
    rfl
  · exact wake_of_run (s := withCde { s.cde with detLevel := l } s) h

/-- The card gone. -/
def gone (c : Cde) : Cde := { down .removal (dropped c) with detected := false, detCount := 0, detLevel := false, capacity := none, state := .discharging }

/-- The state in which a card is removed in RUN: the pin and the level at CARD_DET. -/
def unplugged (s : State) : State :=
  withCde { s.cde with detLevel := false } (withPins { s.pins with cardPresent := false } s)

theorem unplugged_frame (s : State) : OnlyChanges [.cde, .pins] s (unplugged s) := ((OnlyChanges.refl _ s).pins _).cde _

/-- A removal whose lost work leaves the card `d`, and the rest of the part as it is in `u`. -/
theorem removal_of {d : Cde} (hs : s.resetHeld = false) (hdet : s.cde.detected = true) (hpath : s.hmp.path = .run)
    (h : loseCard .removed .removed (unplugged s) = withCde (dropped d) u) (hd : d.detLevel = false)
    (hu : u.pins = (unplugged s).pins) : ∃ t, exec .cardRemoval s = .next t ∧
      (t.pins.cardPresent = false ∧ t.pins.syncClosed = s.pins.syncClosed ∧ t.pins.quietAck = s.pins.quietAck) ∧
      t.cde = owedFor .cardRemoved (gone d) ∧ (d.ended = [] → Raised .cardRemoved t) ∧ t.stb = u.stb ∧
      OnlyChanges [.cde, .pins] u t := by
  set w := withPins { u.pins with overcurrent := false } (withCde (gone d) u) with hw
  obtain ⟨hcde, hraise, hframe, hstb, hpins⟩ := raiseCard_spec .cardRemoved w
  have hgone : { gone d with detLevel := d.detLevel } = gone d := by
    rw [hd]
    rfl
  have hremove : removeCard (unplugged s) = raiseCard .cardRemoved w := by
    rw [removeCard, h, hw, ← hgone]
    rfl
  have hstep : (fun t : State => if t.cde.detected then removeCard (seeDetect false t) else t)
      (withPins { s.pins with cardPresent := false } s) = raiseCard .cardRemoved w := by
    refine (if_pos hdet).trans ?_
    rw [seeDetect_of_run (s := withPins { s.pins with cardPresent := false } s) hpath]
    exact hremove
  have hbase : OnlyChanges [.cde, .pins] u w := ((OnlyChanges.refl _ u).cde _).pins _
  rw [exec_cardRemoval]
  refine ⟨_, pinEvent_to hs hstep, ?_, (finish_cde _ _).trans hcde, fun he => finish_raised _ _ (hraise he),
    (finish_stb _ _).trans hstb, (hbase.andThen hframe).finish s⟩
  rw [finish_pins, hpins]
  refine ⟨?_, ?_, ?_⟩
  · exact (congrArg Pins.cardPresent hu :)
  · exact (congrArg Pins.syncClosed hu :)
  · exact (congrArg Pins.quietAck hu :)

/-- The reads a removal ends (R165, R193). -/
theorem endReads_removed (u : State) : ∃ w, endReads .removed u =
    withCde { u.cde with reads := [], serving := none, ended := u.cde.ended ++ (u.cde.serving.toList ++ u.cde.reads).map fun q => ⟨q.tag, .removed, q.done⟩ } w ∧
      w.pins = u.pins ∧ w.stb = u.stb ∧ OnlyChanges [] u w ∧ w.cde = u.cde := by
  rcases hv : u.cde.serving with _ | q
  · refine ⟨u, ?_, rfl, rfl, OnlyChanges.refl _ u, rfl⟩
    have hserving : endServing .removed u = u := by simp only [endServing, hv]
    rw [endReads, hserving, modCde, ← hv]
    simp only [hv, Option.toList_none, List.nil_append]
    rfl
  · refine ⟨presentAll (cardWrites q.carry) u, ?_, rfl, rfl, presentAll_onlyChanges _ u, rfl⟩
    have hserving : endServing .removed u = presentAll (cardWrites q.carry) (withCde
        { u.cde with serving := none, ended := u.cde.ended ++ [⟨q.tag, .removed, q.done⟩] } u) := by
      simp only [endServing, hv]
      rfl
    rw [endReads, hserving, modCde]
    simp only [Option.toList_some, List.map_append, List.map_cons, List.map_nil, ← List.append_assoc]
    rfl

/-- A container cut short before its log update (R165, R189): the record goes back to HELD. -/
theorem returnShot_of {u : State} {c : Container} (hc : u.cde.container = some c) (hn : c.stage ≠ .logUpdate)
    (res : StoreResult) : returnShot res u =
      withStb ((u.stb.move c.shot .held).update c.shot fun r => { r with store := res }) (dropContainer u) := by
  simp only [returnShot, hc]
  exact if_neg hn

theorem dropContainer_frame (u : State) : OnlyChanges [.cde, .port] u (dropContainer u) := by
  refine ⟨rfl, fun p hp hf => ?_⟩
  cases p <;> simp_all [Part.agree, followUp, dropContainer, Fmc.dropSlotReads]

theorem loseCard_container {u : State} {c : Container} (hc : u.cde.container = some c) (hn : c.stage ≠ .logUpdate)
    (hr : u.cde.reads = []) (hv : u.cde.serving = none) (res : StoreResult) (o : ReadOutcome) :
    loseCard res o u = withCde (dropped { u.cde with container := none })
      (withStb ((u.stb.move c.shot .held).update c.shot fun r => { r with store := res }) (dropContainer u)) := by
  rw [loseCard, returnShot_of hc hn, endReads_of_none o (by exact hr) (by exact hv)]
  rfl

end Removal

/-! ### The record of a container cut short -/

/-- A record in STORING goes back to HELD with a store result (R11, R189). -/
theorem Stb.returned {t : Stb} {n i : Nat} {r : ShotRecord} (res : StoreResult) (h : t.find n = some r)
    (hp : r.phase = .storing) (hi : r.slot = some i) (hl : i < t.slots.length) :
    let t' := (t.move n .held).update n fun r => { r with store := res }
    t'.find n = some { r with phase := .held, store := res } ∧ t'.slotState i = .held ∧
      ∀ m, m ≠ n → t'.find m = t.find m := by
  intro t'
  have hm : moveAllowed r.phase .held = true := by rw [hp]; decide
  refine ⟨Stb.find_update (f := fun r => { r with store := res }) (fun _ => rfl) (Stb.find_move_kept h hm rfl), ?_, fun m hmn => ?_⟩
  · exact Stb.slotState_move_kept h hm rfl hi hl
  · exact (Stb.find_update_other (f := fun r => { r with store := res }) (fun _ => rfl) hmn).trans (Stb.find_move_other h hmn)

end Sys2Proof.Machine
end

section
/-! PROOFS. Power and detection of a card, settled (O56). -/

namespace Sys2Proof.Machine

set_option Elab.async false

/-! ### States entered one upon the other -/

theorem Cde.enter_powerUp_enter (c : Cde) (x : Option PowerUp) :
    ({ c.enter .powering with powerUp := x } : Cde).enter .powering = ({ c with powerUp := x } : Cde).enter .powering := by
  rcases hc : c.cycling with _ | _
  · rw [Cde.enter_of_run hc, Cde.enter_of_run (c := { c with powerUp := x }) hc]
    exact Cde.enter_of_run (c := { c with powerUp := x, state := .powering }) hc _
  · rw [Cde.enter_of_cycling hc]

theorem Cde.enter_powerOn_enter (c : Cde) : (c.enter .powering).powerOn.enter .powering = c.powerOn.enter .powering := by
  rcases hc : c.cycling with _ | _
  · rw [Cde.enter_of_run hc, Cde.enter_of_run (c := c.powerOn) hc]
    exact Cde.enter_of_run (c := ({ c with state := .powering } : Cde).powerOn) hc _
  · rw [Cde.enter_of_cycling hc]

section Readings

variable {s : State} {c : Conversion} {v : Int} {code : BitVec 12}

/-- A CARD reading after which the card is `d`. -/
def ReadingMakes (code : BitVec 12) (s : State) (d : Cde) : Prop :=
  ∃ t, event s (conversionDone code.toNat) = .next t ∧ t.cde = d ∧ OnlyChanges [.monitor, .cde] s t

/-- One after which the card `d` has entered the state `st`, unless the power cycle of a run keeps its state (R175). -/
def ReadingEnters (code : BitVec 12) (s : State) (st : CardState) (d : Cde) : Prop :=
  ((∃ r, s.cde.run = some r ∧ r.stage = .cycling) → ReadingMakes code s { d with state := s.cde.state }) ∧
  (¬ (∃ r, s.cde.run = some r ∧ r.stage = .cycling) → ReadingMakes code s { d with state := st })

/-- One judged by a power-up of the card `d` with its rail safe (R161). -/
def ReadingPowers (code : BitVec 12) (s : State) (d : Cde) : Prop :=
  (s.exs.quietReq = true → ReadingEnters code s .powering { d with powerUp := some .quiet }) ∧
  (s.exs.quietReq = false → ReadingEnters code s .powering d.powerOn)

theorem TellsCard.powers (h : TellsCard code c v s) {x d : Cde} (hv : v < 300)
    (hw : cardReading v (withAmn (cardAmn v s.amn) s) = judgeReading v (withCde x (measuredCard v s)))
    (hquiet : ({ x with powerUp := some .quiet } : Cde).enter .powering = ({ d with powerUp := some .quiet } : Cde).enter .powering)
    (hon : x.powerOn.enter .powering = d.powerOn.enter .powering) (hrun : d.run = s.cde.run)
    (hstate : d.state = s.cde.state) (hf : s.cde.state ≠ .fault) (hr : s.cde.state ≠ .ready) : ReadingPowers code s d := by
  rw [judgeReading_eq, if_neg (by omega)] at hw
  refine ⟨fun hq => ?_, fun hq => ?_⟩
  · rw [if_pos (by exact hq)] at hw
    exact h.enters (d := { d with powerUp := some .quiet })
      (hw.trans (congrArg (fun y => withCde y (measuredCard v s)) hquiet)) hrun hstate hf hr (by decide) (by decide)
  · rw [if_neg (by rw [Bool.not_eq_true]; exact hq)] at hw
    exact h.enters (d := d.powerOn) (hw.trans (congrArg (fun y => withCde y (measuredCard v s)) hon)) hrun hstate hf hr
      (by decide) (by decide)

/-! ### A reading below the safe level, at the discharge's end -/

/-- The card with its discharge ended and a value read. -/
def offCde (v : Int) (s : State) : Cde := (readCde v s.exs.timeBase s.cde).endDischarge

theorem dischargeDone_eq (v : Int) (s : State) : dischargeDone v (measuredCard v s) =
    match s.cde.dischargeFor with
    | .removal => withCde { offCde v s with state := .absent } (measuredCard v s)
    | .powerUp | .cycle => judgeReading v (withCde ((offCde v s).enter .powering) (measuredCard v s))
    | .park => reachParked (withCde (offCde v s) (measuredCard v s))
    | .fault => withCde (offCde v s) (measuredCard v s) := by
  show (match s.cde.dischargeFor with | .removal => _ | .powerUp | .cycle => _ | .park => _ | .fault => _) = _
  rcases s.cde.dischargeFor <;> rfl

theorem cardReading_discharged (h : s.cde.discharge = true) (hv : v < 300) :
    cardReading v (withAmn (cardAmn v s.amn) s) = dischargeDone v (measuredCard v s) := by
  rw [cardReading_eq, if_pos h, if_pos hv]

theorem reachParked_stays {u : State} (h : u.amn.battLevel = .critical ∨ (u.hmp.path ≠ .run ∧ u.hmp.path ≠ .filling)) :
    reachParked u = withCde { u.cde with state := .parked, powerUp := none } u := by
  refine if_neg ?_
  rintro ⟨hb, hp⟩
  rcases h with h | ⟨h1, h2⟩
  · exact hb h
  · exact hp.elim h1 h2

theorem reachParked_powers {u : State} (hb : u.amn.battLevel ≠ .critical) (hp : u.hmp.path = .run ∨ u.hmp.path = .filling)
    (hrun : u.cde.run = none) (hq : Demand.card ∉ u.amn.queue) :
    reachParked u = withAmn { u.amn with queue := u.amn.queue ++ [.card] } (withCde (poweringUp u.cde) u) := by
  set w := withCde { u.cde with state := .parked, powerUp := none } u with hw
  have hstart : reachParked u = startPowerUp w := if_pos ⟨hb, hp⟩
  rw [hstart, startPowerUp_eq (s := w) (Cde.cycling_of_no_run hrun),
    ask_card (s := withCde (poweringUp w.cde) w) (by exact hq)]
  rfl

/-- A park's discharge ends PARKED, or with the power-up that nothing holds back (R190; log 23). -/
theorem TellsCard.parks (h : TellsCard code c v s) (hd : s.cde.discharge = true) (hv : v < 300)
    (hfor : s.cde.dischargeFor = .park) (hrun : s.cde.run = none) :
    (s.amn.battLevel = .critical ∨ (s.hmp.path ≠ .run ∧ s.hmp.path ≠ .filling) →
      ReadingMakes code s { offCde v s with state := .parked, powerUp := none }) ∧
    (s.amn.battLevel ≠ .critical → (s.hmp.path = .run ∨ s.hmp.path = .filling) → Demand.card ∉ s.amn.queue →
      ∃ t, event s (conversionDone code.toNat) = .next t ∧ t.cde = poweringUp (offCde v s) ∧
        t.amn.queue = s.amn.queue ++ [.card] ∧ OnlyChanges [.monitor, .cde] s t) := by
  set u := withCde (offCde v s) (measuredCard v s) with hu
  have hread : cardReading v (withAmn (cardAmn v s.amn) s) = reachParked u := by
    rw [cardReading_discharged hd hv, dischargeDone_eq, hfor]
  refine ⟨fun hstay => ?_, fun hb hp hq => ?_⟩
  · exact h.becomes (hread.trans (reachParked_stays (u := u) hstay)) (by simp) (by simp)
  · have hframe : OnlyChanges [.monitor, .cde] s (withAmn { u.amn with queue := u.amn.queue ++ [.card] } (withCde (poweringUp u.cde) u)) :=
      ((((measuredCard_frame v s).cde _).cde _).amn _)
    exact h.leads (hread.trans (reachParked_powers (u := u) hb hp hrun hq)) (fun hc => CardState.noConfusion hc) (fun hc => CardState.noConfusion hc) hframe

/-- In FAULT a reading ends the discharge, and CARD_FAULT is raised again (R164, R168). -/
theorem TellsCard.fault (h : TellsCard code c v s) (hf : s.cde.state = .fault) (hd : s.cde.discharge = true)
    (hv : v < 300) (hfor : s.cde.dischargeFor = .fault) (he : s.cde.ended = []) :
    ∃ t, event s (conversionDone code.toNat) = .next t ∧ t.cde.discharge = false ∧ t.cde.dischargeTimer = none ∧
      t.cde.rail = .off ∧ t.cde.state = .fault ∧ Raised .cardFault t ∧ OnlyChanges [.monitor, .cde] s t := by
  set u := withCde (offCde v s) (measuredCard v s) with hu
  have hread : cardReading v (withAmn (cardAmn v s.amn) s) = u := by
    rw [cardReading_discharged hd hv, dischargeDone_eq, hfor]
  have hraise : raiseCard .cardFault u = raise .cardFault u := if_pos he
  have hto := h.done hread
  rw [if_pos (by exact hf), hraise] at hto
  have hframe : OnlyChanges [.monitor, .cde] s (raise .cardFault u) := ((measuredCard_frame v s).cde _).raised _
  refine ⟨_, hto, ?_, ?_, ?_, ?_, ?_, (hframe.andThen (converted_onlyChanges _)).finish s⟩
  · rw [finish_cde]
    rfl
  · rw [finish_cde]
    rfl
  · rw [finish_cde]
    rfl
  · rw [finish_cde]
    exact hf
  · exact finish_raised _ _ (List.mem_append_right _ List.mem_cons_self)

end Readings

end Sys2Proof.Machine
end

section
/-! PROOFS. The readings, the timers, the insertion and the removal of a card, settled (O56). -/

namespace Sys2Proof.Machine

set_option Elab.async false

section Card

variable {s : State}

/-! ### Faults -/

theorem rampTimerExpiry_faults (h : s.resetHeld = false) (hw : NoWork s.cde) (hp : s.cde.pwrEn = true)
    (hr : s.cde.rampTimer ≠ none) : ∃ t, exec .rampTimerExpiry s = .next t ∧
      t.cde = owedFor .cardFault { down .fault (dropped s.cde) with state := .fault, faultCause := .ramp } ∧
      (s.cde.ended = [] → Raised .cardFault t) ∧ OnlyChanges [.cde, .pins] s t :=
  faulted_of (f := rampExpired) h hw hp (if_pos (Option.isSome_iff_ne_none.2 hr))

theorem cardOvercurrent_faults (h : s.resetHeld = false) (hw : NoWork s.cde) (hp : s.cde.pwrEn = true) :
    ∃ t, exec .cardOvercurrent s = .next t ∧
      t.cde = owedFor .cardFault { down .fault (dropped s.cde) with state := .fault, faultCause := .overcurrent } ∧
      (s.cde.ended = [] → Raised .cardFault t) ∧ OnlyChanges [.cde, .pins] s t :=
  faulted_of (f := overcurrent) h hw hp (if_pos hp)

theorem cardOvercurrent_idle (h : s.resetHeld = false) (hp : s.cde.pwrEn = false) :
    ∃ t, exec .cardOvercurrent s = .next t ∧ OnlyChanges [] s t :=
  ⟨_, event_to (f := overcurrent) h (if_neg (by simp [hp])), (OnlyChanges.refl _ s).finish s⟩

theorem dischargeTimerExpiry_faults (h : s.resetHeld = false) (hw : NoWork s.cde) (hp : s.cde.pwrEn = false)
    (ht : s.cde.dischargeTimer ≠ none) (hf : s.cde.state ≠ .fault) : ∃ t, exec .dischargeTimerExpiry s = .next t ∧
      t.cde = owedFor .cardFault { dropped s.cde.endDischarge with state := .fault, faultCause := .discharge, rampTimer := none } ∧
      (s.cde.ended = [] → Raised .cardFault t) ∧ OnlyChanges [.cde] s t := by
  have hexp : dischargeExpired s = enterFault .discharge (withCde s.cde.endDischarge s) :=
    (if_pos (Option.isSome_iff_ne_none.2 ht)).trans (if_neg hf)
  rw [enterFault_unpowered (s := withCde s.cde.endDischarge s) _ hw hp] at hexp
  set u := withCde { dropped s.cde.endDischarge with state := .fault, faultCause := .discharge, rampTimer := none }
    (withCde s.cde.endDischarge s) with hu
  obtain ⟨hcde, hraise, hframe, -⟩ := raiseCard_spec .cardFault u
  have hbase : OnlyChanges [.cde] s u := ((OnlyChanges.refl _ s).cde _).cde _
  exact ⟨_, event_to h hexp, (finish_cde _ _).trans hcde, fun he => finish_raised _ _ (hraise he),
    (hbase.andThen hframe).finish s⟩

theorem dischargeTimerExpiry_fault (h : s.resetHeld = false) (ht : s.cde.dischargeTimer ≠ none)
    (hf : s.cde.state = .fault) : ∃ t, exec .dischargeTimerExpiry s = .next t ∧ t.cde = s.cde.endDischarge ∧
      OnlyChanges [.cde] s t := by
  have hexp : dischargeExpired s = withCde s.cde.endDischarge s :=
    (if_pos (Option.isSome_iff_ne_none.2 ht)).trans (if_pos hf)
  exact ⟨_, event_to h hexp, finish_cde _ _, (withCde_onlyChanges _ s).finish s⟩

/-! ### The poll -/

theorem cardRailPollTick_asks (h : s.resetHeld = false) (hp : s.cde.discharge = true ∨ s.cde.rampTimer ≠ none)
    (hq : Demand.card ∉ s.amn.queue) : ∃ t, exec .cardRailPollTick s = .next t ∧
      t.amn.queue = s.amn.queue ++ [.card] ∧ OnlyChanges [.monitor] s t := by
  rw [exec_cardRailPollTick]
  refine ⟨_, event_to h ((if_pos ?_).trans (ask_card hq)), finish_amn_queue _ _, (withAmn_onlyChanges _ s).finish s⟩
  rwa [Option.isSome_iff_ne_none]

theorem cardRailPollTick_idle (h : s.resetHeld = false) (hd : s.cde.discharge = false) (hr : s.cde.rampTimer = none) :
    ∃ t, exec .cardRailPollTick s = .next t ∧ OnlyChanges [] s t := by
  rw [exec_cardRailPollTick]
  exact ⟨_, event_to h (if_neg (by simp [hd, hr])), (OnlyChanges.refl _ s).finish s⟩

/-! ### Insertion -/

/-- The state in which a card is inserted in RUN. -/
def plugged (s : State) : State :=
  withCde { s.cde with detected := true, detCount := 50, detLevel := true } (withPins { s.pins with cardPresent := true } s)

theorem plugged_frame (s : State) : OnlyChanges [.cde, .pins, .monitor] s (plugged s) :=
  ((OnlyChanges.refl _ s).pins _).cde _

theorem insertion_eq {w : State} (hdet : s.cde.detected = false) (hpath : s.hmp.path = .run)
    (hw : (if s.cde.discharge then withCde { (plugged s).cde with dischargeFor := .powerUp } (plugged s)
      else startPowerUp (plugged s)) = w) (hwp : w.hmp.path ≠ .entering) :
    (fun t : State => if t.cde.detected then t else insertCard (seeDetect true t)) (withPins { s.pins with cardPresent := true } s) =
      raise .cardInserted w := by
  refine (if_neg (by rw [Bool.not_eq_true]; exact hdet)).trans ?_
  rw [seeDetect_of_run (s := withPins { s.pins with cardPresent := true } s) hpath]
  refine Eq.trans (b := raise .cardInserted (if w.hmp.path = .entering then park w else w)) ?_ ?_
  · rw [← hw]
    rfl
  · rw [if_neg hwp]

theorem cardInsertion_powers (h : s.resetHeld = false) (hdet : s.cde.detected = false) (hpath : s.hmp.path = .run)
    (hd : s.cde.discharge = false) (hrun : s.cde.run = none) (hq : Demand.card ∉ s.amn.queue) :
    ∃ t, exec .cardInsertion s = .next t ∧ t.cde = poweringUp (plugged s).cde ∧ t.amn.queue = s.amn.queue ++ [.card] ∧
      t.pins = { s.pins with cardPresent := true } ∧ Raised .cardInserted t ∧ OnlyChanges [.cde, .pins, .monitor] s t := by
  set u := withCde (poweringUp (plugged s).cde) (plugged s) with hu
  have hstart : startPowerUp (plugged s) = withAmn { u.amn with queue := u.amn.queue ++ [.card] } u :=
    (startPowerUp_eq (s := plugged s) (Cde.cycling_of_no_run hrun)).trans (ask_card (s := u) hq)
  have hpath' : s.hmp.path ≠ .entering := by simp [hpath]
  have heq := insertion_eq hdet hpath ((if_neg (by simp [hd])).trans hstart) hpath'
  have hframe : OnlyChanges [.cde, .pins, .monitor] s (raise .cardInserted (withAmn { u.amn with queue := u.amn.queue ++ [.card] } u)) :=
    (((plugged_frame s).cde _).amn _).raised _
  rw [exec_cardInsertion]
  exact ⟨_, pinEvent_to h heq, finish_cde _ _, finish_amn_queue _ _, finish_pins _ _,
    finish_raised _ _ (List.mem_append_right _ List.mem_cons_self), hframe.finish s⟩

theorem cardInsertion_discharging (h : s.resetHeld = false) (hdet : s.cde.detected = false) (hpath : s.hmp.path = .run)
    (hd : s.cde.discharge = true) : ∃ t, exec .cardInsertion s = .next t ∧
      t.cde = { (plugged s).cde with dischargeFor := .powerUp } ∧ t.pins = { s.pins with cardPresent := true } ∧
      Raised .cardInserted t ∧ OnlyChanges [.cde, .pins] s t := by
  have hpath' : s.hmp.path ≠ .entering := by simp [hpath]
  have heq := insertion_eq hdet hpath (if_pos hd) hpath'
  have hframe : OnlyChanges [.cde, .pins] s (raise .cardInserted (withCde { (plugged s).cde with dischargeFor := .powerUp } (plugged s))) := by
    refine OnlyChanges.raised ?_ _
    exact (((OnlyChanges.refl _ s).pins _).cde _).cde _
  rw [exec_cardInsertion]
  exact ⟨_, pinEvent_to h heq, finish_cde _ _, finish_pins _ _,
    finish_raised _ _ (List.mem_append_right _ List.mem_cons_self), hframe.finish s⟩

/-! ### Removal -/

theorem unplugged_eq (s : State) : (unplugged s).cde = { s.cde with detLevel := false } := rfl

/-- What a removal leaves of the pins. -/
def Unplugs (s t : State) : Prop :=
  t.pins.cardPresent = false ∧ t.pins.syncClosed = s.pins.syncClosed ∧ t.pins.quietAck = s.pins.quietAck

theorem cardRemoval_idle (h : s.resetHeld = false) (hdet : s.cde.detected = true) (hpath : s.hmp.path = .run)
    (hw : NoWork s.cde) : ∃ t, exec .cardRemoval s = .next t ∧ Unplugs s t ∧
      t.cde = owedFor .cardRemoved (gone s.cde) ∧ (s.cde.ended = [] → Raised .cardRemoved t) ∧
      OnlyChanges [.cde, .pins] s t := by
  obtain ⟨t, hto, hpins, hcde, hraise, -, hframe⟩ := removal_of h hdet hpath
    (loseCard_of_none (s := unplugged s) .removed .removed hw) rfl rfl
  exact ⟨t, hto, hpins, hcde, hraise, (unplugged_frame s).trans hframe⟩

theorem cardRemoval_reading (h : s.resetHeld = false) (hdet : s.cde.detected = true) (hpath : s.hmp.path = .run)
    (hc : s.cde.container = none) (he : s.cde.ended = []) (hw : s.cde.serving ≠ none ∨ s.cde.reads ≠ [])
    (ho : s.cde.owed = []) : ∃ t, exec .cardRemoval s = .next t ∧ Unplugs s t ∧
      t.cde = { gone s.cde with
        reads := [], serving := none, owed := [.cardRemoved]
        ended := (s.cde.serving.toList ++ s.cde.reads).map fun q => ⟨q.tag, .removed, q.done⟩ } ∧
      OnlyChanges [.cde, .pins] s t := by
  obtain ⟨w, hreads, hpins, hstb, hwframe, hwcde⟩ := endReads_removed (unplugged s)
  set d : Cde := { (unplugged s).cde with
    reads := [], serving := none
    ended := (unplugged s).cde.ended ++ ((unplugged s).cde.serving.toList ++ (unplugged s).cde.reads).map fun q => ⟨q.tag, .removed, q.done⟩ }
    with hd
  have hreturn : returnShot .removed (unplugged s) = unplugged s := by
    have hc' : (unplugged s).cde.container = none := hc
    simp only [returnShot, hc']
  have hlose : loseCard .removed .removed (unplugged s) = withCde (dropped d) w := by
    rw [loseCard, hreturn, hreads]
    rfl
  obtain ⟨t, hto, htpins, hcde, -, -, hframe⟩ := removal_of h hdet hpath hlose rfl hpins
  refine ⟨t, hto, htpins, hcde.trans ?_, ((unplugged_frame s).trans (hwframe.mono (by simp))).trans hframe⟩
  have hended : d.ended = (s.cde.serving.toList ++ s.cde.reads).map fun q => ⟨q.tag, .removed, q.done⟩ := by
    show s.cde.ended ++ _ = _
    rw [he]
    rfl
  have hsome : ¬ (d.ended = [] ∨ EventFlag.cardRemoved ∈ d.owed) := by
    rw [hended]
    rintro (hnil | howed)
    · simp only [List.map_eq_nil_iff, List.append_eq_nil_iff, Option.toList_eq_nil_iff] at hnil
      exact hw.elim (fun hv => hv hnil.1) (fun hv => hv hnil.2)
    · exact List.not_mem_nil (ho ▸ howed)
  have howed : (if (gone d).ended = [] ∨ EventFlag.cardRemoved ∈ (gone d).owed then (gone d).owed else (gone d).owed ++ [.cardRemoved]) = [.cardRemoved] := by
    refine (if_neg hsome).trans ?_
    show s.cde.owed ++ _ = _
    rw [ho]
    rfl
  rw [owedFor, howed, ← hended]
  rfl

theorem cardRemoval_storing {c : Container} {r : ShotRecord} {i : Nat} (h : s.resetHeld = false)
    (hdet : s.cde.detected = true) (hpath : s.hmp.path = .run) (hc : s.cde.container = some c)
    (hn : c.stage ≠ .logUpdate) (hr : s.stb.find c.shot = some r) (hp : r.phase = .storing) (hi : r.slot = some i)
    (hl : i < s.stb.slots.length) (hreads : s.cde.reads = []) (hv : s.cde.serving = none) :
    ∃ t, exec .cardRemoval s = .next t ∧ Unplugs s t ∧
      t.cde = owedFor .cardRemoved (gone { s.cde with container := none }) ∧ (s.cde.ended = [] → Raised .cardRemoved t) ∧
      t.stb.find c.shot = some { r with phase := .held, store := .removed } ∧ t.stb.slotState i = .held ∧
      (∀ n, n ≠ c.shot → t.stb.find n = s.stb.find n) ∧ OnlyChanges [.cde, .pins, .stb, .port] s t := by
  have hlose := loseCard_container (u := unplugged s) hc hn hreads hv .removed .removed
  obtain ⟨t, hto, hpins, hcde, hraise, hstb, hframe⟩ := removal_of h hdet hpath hlose rfl rfl
  obtain ⟨hfind, hslot, hother⟩ := Stb.returned .removed hr hp hi hl
  have hbase : OnlyChanges [.cde, .pins, .stb, .port] s (withStb
      ((s.stb.move c.shot .held).update c.shot fun r => { r with store := .removed }) (dropContainer (unplugged s))) := by
    refine OnlyChanges.stb ?_ _
    exact ((unplugged_frame s).mono (by simp)).trans ((dropContainer_frame _).mono (by simp))
  refine ⟨t, hto, hpins, hcde, hraise, ?_, ?_, ?_, hbase.trans (hframe.mono (by simp))⟩
  · rw [hstb]
    exact hfind
  · rw [hstb]
    exact hslot
  · rw [hstb]
    exact hother

end Card

end Sys2Proof.Machine
end

section
/-! PROOFS. Power and detection of a card, settled (O56). -/

namespace Sys2Proof.Machine

set_option Elab.async false

/-- Settles O56: each reading by what the engine waits for, and each loss of the card through the card work it ends. -/
theorem cardPower : Obligations.CardPower := by
  unfold Obligations.CardPower
  intro s h dropped' down' nowork owes faulted
  refine ⟨cardRailPollTick_asks h, cardRailPollTick_idle h, ?_, ?_, rampTimerExpiry_faults h, cardOvercurrent_faults h,
    cardOvercurrent_idle h, dischargeTimerExpiry_faults h, dischargeTimerExpiry_fault h,
    fun hdet hp hd hrun hq => cardInsertion_powers h hdet hp hd hrun hq, cardInsertion_discharging h, ?_⟩
  · intro code c hc hst hch hdem hf hr v cycling held off becomes enters on judged
    have tells : TellsCard code c v s := ⟨h, hc, hst, hch, hdem, rfl⟩
    have hread := cardReading_eq v s
    refine ⟨fun hd hup => ⟨fun hv => ?_, fun hv => ?_⟩, fun hd hup hramp => ⟨fun hv => ?_, fun hv => ?_⟩, fun hd hv => ?_,
      fun hd hv => ⟨fun hfor => ?_, fun hfor => ?_, fun hfor hrun => ?_⟩⟩
    · rw [if_neg (by simp [hd]), if_pos hup, judgeReading_eq, if_pos hv] at hread
      exact tells.enters hread rfl rfl hf hr (by decide) (by decide)
    · rw [if_neg (by simp [hd]), if_pos hup] at hread
      exact tells.powers (x := held) (d := held) hv hread rfl rfl rfl rfl hf hr
    · rw [if_neg (by simp [hd]), if_neg hup, if_pos ⟨Option.isSome_iff_ne_none.2 hramp, hv⟩] at hread
      exact tells.enters hread rfl rfl hf hr (by decide) (by decide)
    · rw [if_neg (by simp [hd]), if_neg hup, if_neg (fun hon => by have := hon.2; omega)] at hread
      exact tells.becomes (d := held) hread hf hr
    · rw [if_pos hd, if_neg (by omega)] at hread
      exact tells.becomes (d := held) hread hf hr
    · have hdone := (cardReading_discharged hd hv).trans (dischargeDone_eq v s)
      rw [hfor] at hdone
      exact tells.becomes (d := { offCde v s with state := .absent }) hdone (by simp) (by simp)
    · have hdone : cardReading v (withAmn (cardAmn v s.amn) s) = judgeReading v (withCde ((offCde v s).enter .powering) (measuredCard v s)) := by
        rw [cardReading_discharged hd hv, dischargeDone_eq]
        rcases hfor with hfor | hfor <;> rw [hfor]
      exact tells.powers (d := offCde v s) hv hdone (Cde.enter_powerUp_enter _ _) (Cde.enter_powerOn_enter _) rfl rfl hf hr
    · exact tells.parks hd hv hfor hrun
  · intro code c hc hst hch hdem hf hd hfor he hv
    have tells : TellsCard code c
        (max 0 (min 65535 (s.amn.settings.cardOffset + (code.toNat : Int) * s.amn.settings.cardSlope / 4096))) s :=
      ⟨h, hc, hst, hch, hdem, rfl⟩
    exact tells.fault hf hd (by omega) hfor he
  · intro hdet hp removed gone'
    exact ⟨cardRemoval_idle h hdet hp, cardRemoval_reading h hdet hp, fun c r i hc hn hr hph hi hl hreads hv =>
      cardRemoval_storing h hdet hp hc hn hr hph hi hl hreads hv⟩

end Sys2Proof.Machine
end

section
/-! PROOFS. The write of the status block at once (R64 to R68, R200, R201): what each piece leaves marked, and what waits
(O59, O60). -/

namespace Sys2Proof.Machine

set_option Elab.async false

/-! ### The RQE through the write of a piece -/

/-- The RQE keeps the ring, the request in service, the enables, the reset cause and what is queued for the mirrors. -/
structure SameDesk (q r : Rqe) : Prop where
  head : r.head = q.head
  tail : r.tail = q.tail
  completionNo : r.completionNo = q.completionNo
  ringFaults : r.ringFaults = q.ringFaults
  service : r.service = q.service
  lastAnswer : r.lastAnswer = q.lastAnswer
  observed : r.observed = q.observed
  enables : r.enables = q.enables
  resetCause : r.resetCause = q.resetCause

theorem SameDesk.refl (q : Rqe) : SameDesk q q := ⟨rfl, rfl, rfl, rfl, rfl, rfl, rfl, rfl, rfl⟩

theorem SameDesk.trans {q r u : Rqe} (h : SameDesk q r) (k : SameDesk r u) : SameDesk q u :=
  ⟨k.1.trans h.1, k.2.trans h.2, k.3.trans h.3, k.4.trans h.4, k.5.trans h.5, k.6.trans h.6, k.7.trans h.7,
    k.8.trans h.8, k.9.trans h.9⟩

theorem SameRing.desk {q r : Rqe} (h : SameRing q r) : SameDesk q r :=
  ⟨h.head, h.tail, h.completionNo, h.ringFaults, h.service, h.lastAnswer, h.observed, h.enables, h.resetCause⟩

theorem SameDesk.onlyChanges {s : State} {q : Rqe} (h : SameDesk s.rqe q) : OnlyChanges [.flags] s (withRqe q s) := by
  obtain ⟨h1, h2, h3, h4, h5, h6, h7, h8, h9⟩ := h
  refine ⟨rfl, fun p hp hf => ?_⟩
  cases p <;> simp_all [Part.agree, withRqe, followUp]

/-- No answer of a request in service waits for writes. -/
def Rqe.idle (q : Rqe) : Prop := ∀ v a h, q.service = some v → v.stage ≠ .answering a h

theorem mapHolds_sameDesk {q : Rqe} (h : q.idle) (f : Hold → Hold) : SameDesk q (q.mapHolds f) := by
  have hservice : q.service.map (Service.mapHold f) = q.service := by
    cases hs : q.service with
    | none => rfl
    | some v => exact congrArg some (mapHold_of_not_answering f fun a w => h v a w hs)
  exact ⟨rfl, rfl, rfl, rfl, hservice, rfl, rfl, rfl, rfl⟩

theorem SameDesk.idle {q r : Rqe} (h : SameDesk q r) (hq : q.idle) : r.idle := fun v a w hv => hq v a w (h.service ▸ hv)

theorem pieceGranted_sameDesk {q : Rqe} (h : q.idle) (k : Nat) : SameDesk q (pieceGranted k q) := by
  have hmarks : SameDesk q { q with marked := q.marked.filter (· != k) } := ⟨rfl, rfl, rfl, rfl, rfl, rfl, rfl, rfl, rfl⟩
  unfold pieceGranted
  split
  · exact ⟨rfl, rfl, rfl, rfl, rfl, rfl, rfl, rfl, rfl⟩
  · exact hmarks.trans (mapHolds_sameDesk (hmarks.idle h) _)

theorem pieceDone_sameDesk {q : Rqe} (h : q.idle) (k : Nat) : SameDesk q (pieceDone k q) := by
  unfold pieceDone
  split
  · exact ⟨rfl, rfl, rfl, rfl, rfl, rfl, rfl, rfl, rfl⟩
  · exact mapHolds_sameDesk h _

/-- What a raise waits for, once a piece has been written. -/
def Hold.afterPiece (k : Nat) (h : Hold) : Hold := if k = 0 then h else (h.pieceGranted k).pieceDone

theorem pieceGranted_raises (k : Nat) (q : Rqe) : (pieceGranted k q).raises =
    q.raises.map fun r => { r with hold := if k = 0 then r.hold else r.hold.map (Hold.pieceGranted k) } := by
  unfold pieceGranted
  split
  · simp
  · rfl

theorem pieceDone_raises (k : Nat) (q : Rqe) : (pieceDone k q).raises =
    q.raises.map fun r => { r with hold := if k = 0 then r.hold else r.hold.map Hold.pieceDone } := by
  unfold pieceDone
  split
  · simp [Rqe.setCarried, Rqe.setFlags]
  · rfl

/-- The RQE after the write of a piece, `w` being the state the write's bytes leave. -/
def pieceOver (k : Nat) (s w : State) (q : Rqe) : Rqe :=
  pieceDone k (markChanges s w [1, 2, 3, 4, 5, 6] (pieceGranted k q))

theorem pieceOver_sameDesk {q : Rqe} (h : q.idle) (k : Nat) (s w : State) : SameDesk q (pieceOver k s w q) := by
  have hg := (pieceGranted_sameDesk h k).trans (markChanges_sameRing s w [1, 2, 3, 4, 5, 6] (pieceGranted k q)).desk
  exact hg.trans (pieceDone_sameDesk (hg.idle h) k)

theorem pieceOver_raises (k : Nat) (s w : State) (q : Rqe) : (pieceOver k s w q).raises =
    q.raises.map fun r => { r with hold := r.hold.map (Hold.afterPiece k) } := by
  rw [pieceOver, pieceDone_raises, markChanges_raises, pieceGranted_raises, List.map_map]
  refine List.map_congr_left fun r _ => ?_
  obtain ⟨f, _ | h⟩ := r <;> by_cases hk : k = 0 <;> simp [hk, Hold.afterPiece]

theorem mem_pieceOver_marked {k j : Nat} {s w : State} {q : Rqe} : j ∈ (pieceOver k s w q).marked ↔
    (j ∈ q.marked ∧ j ≠ k) ∨ ((1 ≤ j ∧ j ≤ 6) ∧ statusPiece j w ≠ statusPiece j s) := by
  rw [pieceOver, pieceDone_marked, markChanges_mem, pieceGranted_marked, List.mem_filter]
  have hcontent : j ∈ [1, 2, 3, 4, 5, 6] ↔ 1 ≤ j ∧ j ≤ 6 := by
    simp only [List.mem_cons, List.not_mem_nil, or_false]
    omega
  rw [hcontent]
  simp

/-- With no raise due nothing is raised. -/
theorem makeRaises_of_waiting {q : Rqe} (h : ∀ r ∈ q.raises, r.ripe = false) : q.makeRaises = q := by
  have hnone : q.raises.filter Raise.ripe = [] := List.filter_eq_nil_iff.2 fun r hr => by simp [h r hr]
  have hall : (q.raises.filter fun r => !r.ripe) = q.raises := List.filter_eq_self.2 fun r hr => by simp [h r hr]
  rw [Rqe.makeRaises, hnone, hall]
  rfl

theorem mem_makeRaises_marked {q : Rqe} {j : Nat} (h : j ∈ q.makeRaises.marked) : j ∈ q.marked ∨ j = 0 := by
  by_cases h0 : j = 0
  · exact .inr h0
  · have hmem : j ∈ q.makeRaises.marked.filter (· != 0) := List.mem_filter.2 ⟨h, by simpa using h0⟩
    rw [(makeRaises_cases q).2.2.2.2.1] at hmem
    exact .inl (List.mem_filter.1 hmem).1

theorem mem_makeRaises_raises {q : Rqe} {r : Raise} : r ∈ q.makeRaises.raises ↔ r ∈ q.raises ∧ r.ripe = false := by
  rw [(makeRaises_cases q).2.1, List.mem_filter]
  simp

end Sys2Proof.Machine
end

section
/-! PROOFS. The write of the status block at once: the frame of its pieces, and the marks they leave (O59, O60). -/

namespace Sys2Proof.Machine

set_option Elab.async false

/-! ### One piece -/

theorem makeAll_queues (rs : List Raise) (q : Rqe) :
    (rs.foldl (fun q r => q.make r.flag) q).updates = q.updates := by
  induction rs generalizing q with
  | nil => rfl
  | cons r rs ih =>
    rw [List.foldl_cons, ih, Rqe.make]
    split
    · rfl
    · rw [Rqe.mark]
      split <;> rfl

theorem makeRaises_updates (q : Rqe) : q.makeRaises.updates = q.updates := makeAll_queues _ _

theorem markChanges_updates (b a : State) (ks : List Nat) (q : Rqe) : (markChanges b a ks q).updates = q.updates := by
  induction ks generalizing q with
  | nil => rfl
  | cons k ks ih =>
    rw [markChanges, ih]
    split
    · rfl
    · rw [Rqe.mark]
      split <;> rfl

theorem pieceOver_updates (k : Nat) (s w : State) (q : Rqe) : (pieceOver k s w q).updates = q.updates := by
  have hdone : ∀ r : Rqe, (pieceDone k r).updates = r.updates := fun r => by
    unfold pieceDone
    split <;> rfl
  have hgranted : (pieceGranted k q).updates = q.updates := by
    unfold pieceGranted
    split <;> rfl
  rw [pieceOver, hdone, markChanges_updates, hgranted]

/-- The codewords of a piece. -/
def pieceWords (k : Nat) : List Nat := codewordsOf (pieceAddr k) 64

theorem mem_pieceWords {k cw : Nat} (h : cw ∈ pieceWords k) : pieceAddr k ≤ cw ∧ cw < pieceAddr k + 64 := by
  rw [pieceWords, mem_codewordsOf (by decide)] at h
  have ha : pieceAddr k % 8 = 0 := by simp only [pieceAddr, Config.statusBase]; omega
  omega

/-- What the write of some pieces of the status block leaves. -/
structure Stamped (ks : List Nat) (s t : State) : Prop where
  eq : ∃ m i st q, t = withDram m i st (withRqe q s)
  wf : t.mem.wf = true
  desk : SameDesk s.rqe t.rqe
  updates : t.rqe.updates = s.rqe.updates
  byte_out : ∀ a, a < 0x3F000000 ∨ 0x3F0001C0 ≤ a → t.mem.byte a = s.mem.byte a
  check_out : ∀ a, a < 0x3F000000 ∨ 0x3F0001C0 ≤ a → t.mem.checkAt a = s.mem.checkAt a
  injection : t.fmc.injection = s.fmc.injection.filter fun i => decide (∀ k ∈ ks, i.1 ∉ pieceWords k)

theorem Stamped.nil {s : State} (h : s.mem.wf = true) : Stamped [] s s where
  eq := ⟨s.mem, s.fmc.injection, s.fmc.scrub, s.rqe, rfl⟩
  wf := h
  desk := SameDesk.refl _
  updates := rfl
  byte_out _ _ := rfl
  check_out _ _ := rfl
  injection := by cases s.fmc.injection <;> simp [Option.filter]

theorem Stamped.append {ks js : List Nat} {s t u : State} (h : Stamped ks s t) (k : Stamped js t u) :
    Stamped (ks ++ js) s u where
  eq := by
    obtain ⟨m, i, st, q, rfl⟩ := h.eq
    obtain ⟨n, j, su, r, rfl⟩ := k.eq
    exact ⟨n, j, su, r, rfl⟩
  wf := k.wf
  desk := h.desk.trans k.desk
  updates := k.updates.trans h.updates
  byte_out a ha := (k.byte_out a ha).trans (h.byte_out a ha)
  check_out a ha := (k.check_out a ha).trans (h.check_out a ha)
  injection := by
    rw [k.injection, h.injection]
    rcases s.fmc.injection with _ | i
    · rfl
    · simp only [Option.filter_filter, List.mem_append]
      congr 1
      funext x
      by_cases h1 : ∀ k ∈ ks, x.1 ∉ pieceWords k <;> by_cases h2 : ∀ k ∈ js, x.1 ∉ pieceWords k <;> grind

/-- What a write of the status block changes besides the reports (R200). -/
theorem Stamped.frame {ks : List Nat} {s t : State} (h : Stamped ks s t) :
    OnlyChanges [.mem, .injection, .scrubber, .flags] s t := by
  obtain ⟨m, i, st, q, rfl⟩ := h.eq
  exact (h.desk.onlyChanges.mono (by simp)).trans ((withDram_frame m i st _).mono (by simp))

/-- The write of a piece. -/
theorem writePiece_eq (k : Nat) {s : State} (hm : s.mem.wf = true) : ∃ m i st,
    Wrote false (cellsAt (pieceAddr k) (statusPiece k s)) (pieceWords k) s (withDram m i st s) ∧
      writePiece k s = withDram m i st (withRqe
        (pieceOver k s (withRqe (pieceGranted k s.rqe) (withDram m i st s)) s.rqe).makeRaises s) := by
  have ha : pieceAddr k % 8 = 0 := by simp only [pieceAddr, Config.statusBase]; omega
  have hl : (statusPiece k s).length % 8 = 0 := by simp
  obtain ⟨m, i, st, heq, hwrote⟩ := (codewordsOf_within ha hl).written ha hl hm
  rw [statusPiece_length] at heq hwrote
  refine ⟨m, i, st, hwrote, ?_⟩
  have hrecord : writeRecord (pieceAddr k) (statusPiece k s) s = withDram m i st s := by
    rw [writeRecord, statusPiece_length]
    exact heq
  rw [writePiece, hrecord]
  rfl

/-- A piece of content shows nothing of memory, of the scrub step and of the RQE. -/
theorem statusPiece_dram {j : Nat} (hj : 0 < j) {m : Memory} {i : Option (Nat × BitVec 8)} {st : Option ScrubStep}
    {q : Rqe} {s : State} (hi : i = s.fmc.injection) : statusPiece j (withRqe q (withDram m i st s)) = statusPiece j s := by
  subst hi
  unfold statusPiece pieceFields
  split
  · exact absurd hj (by omega)
  all_goals rfl

theorem writePiece_stamped {k : Nat} (hk : k ≤ 6) {s : State} (hm : s.mem.wf = true) (hi : s.rqe.idle) :
    Stamped [k] s (writePiece k s) := by
  obtain ⟨m, i, st, hw, heq⟩ := writePiece_eq k hm
  have hover := pieceOver_sameDesk hi k s (withRqe (pieceGranted k s.rqe) (withDram m i st s))
  have hout : ∀ a, a < 0x3F000000 ∨ 0x3F0001C0 ≤ a → a ∉ pieceWords k ∧ a / 8 * 8 ∉ pieceWords k := by
    intro a ha
    refine ⟨fun hin => ?_, fun hin => ?_⟩ <;> have := mem_pieceWords hin <;>
      simp only [pieceAddr, Config.statusBase] at this <;> omega
  rw [heq]
  refine ⟨⟨m, i, st, _, rfl⟩, hw.wf, hover.trans (makeRaises_sameRing _).desk, ?_, fun a ha => ?_, fun a ha => ?_, ?_⟩
  · exact (makeRaises_updates _).trans (pieceOver_updates _ _ _ _)
  · exact hw.byte_out a (hout a ha).2
  · exact hw.check_out a (hout a ha).1
  · refine hw.injection.trans ?_
    simp

/-! ### What a piece's write marks -/

/-- Every raise waits for a write. -/
def Rqe.waits (q : Rqe) : Prop := ∀ r ∈ q.raises, ∃ h, r.hold = some h ∧ h.done = false

/-- The write of these pieces leaves something to wait for. -/
def Hold.stuck (ks : List Nat) (h : Hold) : Prop :=
  h.jobs ≠ 0 ∨ (∃ p ∈ h.pieces, p = 0 ∨ p ∉ ks) ∨ (h.writing = true ∧ ∀ k ∈ ks, k = 0)

def Rqe.stuck (ks : List Nat) (q : Rqe) : Prop := ∀ r ∈ q.raises, ∃ h, r.hold = some h ∧ h.stuck ks

theorem Hold.stuck_afterPiece {k : Nat} {ks : List Nat} {h : Hold} (hs : h.stuck (k :: ks)) :
    (h.afterPiece k).stuck ks := by
  unfold Hold.afterPiece
  split
  · rcases hs with hj | ⟨p, hp, hp0⟩ | ⟨hw, hz⟩
    · exact .inl hj
    · exact .inr (.inl ⟨p, hp, hp0.imp_right fun hn hin => hn (List.mem_cons_of_mem _ hin)⟩)
    · exact .inr (.inr ⟨hw, fun j hj => hz j (List.mem_cons_of_mem _ hj)⟩)
  · rename_i hk
    rcases hs with hj | ⟨p, hp, hp0⟩ | ⟨hw, hz⟩
    · exact .inl hj
    · refine .inr (.inl ⟨p, List.mem_filter.2 ⟨hp, ?_⟩, hp0.imp_right fun hn hin => hn (List.mem_cons_of_mem _ hin)⟩)
      have hpk : p ≠ k := by
        rintro rfl
        exact hp0.elim hk fun hn => hn List.mem_cons_self
      simpa using hpk
    · exact absurd (hz k List.mem_cons_self) hk

theorem Hold.not_done_of_stuck {ks : List Nat} {h : Hold} (hs : h.stuck ks) : h.done = false := by
  rw [Bool.eq_false_iff]
  intro hd
  rw [Hold.done] at hd
  simp only [Bool.and_eq_true, beq_iff_eq, List.isEmpty_iff, Bool.not_eq_true'] at hd
  obtain ⟨⟨h1, h2⟩, h3⟩ := hd
  rcases hs with hj | ⟨p, hp, -⟩ | ⟨hw, -⟩
  · exact hj h1
  · rw [h2] at hp
    exact List.not_mem_nil hp
  · rw [h3] at hw
    exact Bool.noConfusion hw

theorem mem_writePiece_raises {k : Nat} {s : State} (hm : s.mem.wf = true) {r : Raise} :
    r ∈ (writePiece k s).rqe.raises ↔
      (∃ x ∈ s.rqe.raises, r = { x with hold := x.hold.map (Hold.afterPiece k) }) ∧ r.ripe = false := by
  obtain ⟨m, i, st, -, heq⟩ := writePiece_eq k hm
  rw [heq]
  show r ∈ (Rqe.makeRaises _).raises ↔ _
  rw [mem_makeRaises_raises, pieceOver_raises, List.mem_map]
  simp only [eq_comm]

theorem writePiece_waits {k : Nat} {s : State} (hm : s.mem.wf = true) (h : s.rqe.waits) : (writePiece k s).rqe.waits := by
  intro r hr
  obtain ⟨⟨x, hx, rfl⟩, hripe⟩ := (mem_writePiece_raises hm).1 hr
  obtain ⟨w, hw, -⟩ := h x hx
  simp only [hw, Option.map_some, Raise.ripe, Option.any_some] at hripe ⊢
  exact ⟨_, rfl, hripe⟩

theorem writePiece_stuck {k : Nat} {ks : List Nat} {s : State} (hm : s.mem.wf = true) (h : s.rqe.stuck (k :: ks)) :
    (writePiece k s).rqe.stuck ks := by
  intro r hr
  obtain ⟨⟨x, hx, rfl⟩, -⟩ := (mem_writePiece_raises hm).1 hr
  obtain ⟨w, hw, hs⟩ := h x hx
  simp only [hw, Option.map_some]
  exact ⟨_, rfl, Hold.stuck_afterPiece hs⟩

/-- The pieces marked once a piece has been written (R200, R201): the others that were, those whose content its write
changed by using up an injection, and piece 0 for a raise that waited for it. -/
theorem writePiece_marks {k j : Nat} {ks : List Nat} {s : State} (hm : s.mem.wf = true)
    (hj : j ∈ (writePiece k s).rqe.marked) : (j ∈ s.rqe.marked ∧ j ≠ k) ∨
      ((1 ≤ j ∧ j ≤ 6) ∧ (writePiece k s).fmc.injection ≠ s.fmc.injection) ∨ (j = 0 ∧ ¬ s.rqe.stuck (k :: ks)) := by
  obtain ⟨m, i, st, -, heq⟩ := writePiece_eq k hm
  rw [heq] at hj ⊢
  have hmarks : ∀ q, j ∈ (pieceOver k s (withRqe q (withDram m i st s)) s.rqe).marked →
      (j ∈ s.rqe.marked ∧ j ≠ k) ∨ ((1 ≤ j ∧ j ≤ 6) ∧ i ≠ s.fmc.injection) := by
    intro q h
    refine (mem_pieceOver_marked.1 h).imp_right fun ⟨hc, hne⟩ => ⟨hc, fun hi => hne (statusPiece_dram (by omega) hi)⟩
  by_cases hstuck : s.rqe.stuck (k :: ks)
  · have hquiet : ∀ w, (pieceOver k s w s.rqe).makeRaises = pieceOver k s w s.rqe := fun w => by
      refine makeRaises_of_waiting fun r hr => ?_
      rw [pieceOver_raises, List.mem_map] at hr
      obtain ⟨x, hx, rfl⟩ := hr
      obtain ⟨h, hh, hs⟩ := hstuck x hx
      simp only [Raise.ripe, hh, Option.map_some, Option.any_some]
      exact Hold.not_done_of_stuck (Hold.stuck_afterPiece hs)
    rw [hquiet] at hj
    exact (hmarks _ hj).imp_right .inl
  · rcases mem_makeRaises_marked hj with h | h
    · exact (hmarks _ h).imp_right .inl
    · exact .inr (.inr ⟨h, hstuck⟩)

end Sys2Proof.Machine
end

section
/-! PROOFS. The write of the whole status block, and the end of the command it is part of (O59, O60). -/

namespace Sys2Proof.Machine

set_option Elab.async false

/-! ### Several pieces -/

section Pieces

variable {ks : List Nat} {s : State}

theorem writePieces_stamped (hk : ∀ k ∈ ks, k ≤ 6) (hm : s.mem.wf = true) (hi : s.rqe.idle) :
    Stamped ks s (writePieces ks s) := by
  induction ks generalizing s with
  | nil => exact Stamped.nil hm
  | cons k ks ih =>
    have hone := writePiece_stamped (hk k List.mem_cons_self) hm hi
    exact hone.append (ih (fun j hj => hk j (List.mem_cons_of_mem _ hj)) hone.wf (hone.desk.idle hi))

theorem writePieces_waits (hk : ∀ k ∈ ks, k ≤ 6) (hm : s.mem.wf = true) (hi : s.rqe.idle) (h : s.rqe.waits) :
    (writePieces ks s).rqe.waits := by
  induction ks generalizing s with
  | nil => exact h
  | cons k ks ih =>
    have hone := writePiece_stamped (hk k List.mem_cons_self) hm hi
    exact ih (fun j hj => hk j (List.mem_cons_of_mem _ hj)) hone.wf (hone.desk.idle hi) (writePiece_waits hm h)

theorem filter_eq_or_none {α : Type} (o : Option α) (p : α → Bool) : o.filter p = o ∨ o.filter p = none := by
  rcases o with _ | a
  · exact .inl rfl
  · rcases h : p a with _ | _
    · exact .inr (by simp [Option.filter, h])
    · exact .inl (by simp [Option.filter, h])

theorem Stamped.injection_or {t : State} (h : Stamped ks s t) :
    t.fmc.injection = s.fmc.injection ∨ t.fmc.injection = none := by
  rw [h.injection]
  exact filter_eq_or_none _ _

theorem writePieces_marks {j : Nat} (hk : ∀ k ∈ ks, k ≤ 6) (hm : s.mem.wf = true) (hi : s.rqe.idle)
    (hj : j ∈ (writePieces ks s).rqe.marked) : (j ∈ s.rqe.marked ∧ j ∉ ks) ∨
      ((1 ≤ j ∧ j ≤ 6) ∧ (writePieces ks s).fmc.injection ≠ s.fmc.injection) ∨ (j = 0 ∧ ¬ s.rqe.stuck ks) := by
  induction ks generalizing s with
  | nil => exact .inl ⟨hj, List.not_mem_nil⟩
  | cons k ks ih =>
    have hone := writePiece_stamped (hk k List.mem_cons_self) hm hi
    have hk' : ∀ j ∈ ks, j ≤ 6 := fun j hj => hk j (List.mem_cons_of_mem _ hj)
    have hrest := writePieces_stamped hk' hone.wf (hone.desk.idle hi)
    have hlost : (writePieces ks (writePiece k s)).fmc.injection = s.fmc.injection →
        (writePiece k s).fmc.injection = s.fmc.injection ∧
          (writePieces ks (writePiece k s)).fmc.injection = (writePiece k s).fmc.injection := by
      intro he
      rcases hone.injection_or with h1 | h1
      · exact ⟨h1, he.trans h1.symm⟩
      · rcases hrest.injection_or with h2 | h2
        · exact ⟨h2.symm.trans he, h2⟩
        · exact ⟨h1.trans (h2.symm.trans he), h2.trans h1.symm⟩
    rcases ih hk' hone.wf (hone.desk.idle hi) hj with ⟨h1, h2⟩ | ⟨hc, hne⟩ | ⟨h0, hst⟩
    · rcases writePiece_marks (ks := ks) hm h1 with ⟨h3, h4⟩ | ⟨hc, hne⟩ | h5
      · exact .inl ⟨h3, by simp [h4, h2]⟩
      · exact .inr (.inl ⟨hc, fun he => hne (hlost he).1⟩)
      · exact .inr (.inr h5)
    · exact .inr (.inl ⟨hc, fun he => hne (hlost he).2⟩)
    · exact .inr (.inr ⟨h0, fun h => hst (writePiece_stuck hm h)⟩)

/-- The pieces written that were marked: none is marked again while nothing is raised and no injection is used up. -/
theorem writePieces_empty (hk : ∀ k ∈ s.rqe.marked, k ≤ 6) (hm : s.mem.wf = true) (hi : s.rqe.idle)
    (hinj : (writePieces s.rqe.marked s).fmc.injection = s.fmc.injection) (hstuck : s.rqe.stuck s.rqe.marked) :
    (writePieces s.rqe.marked s).rqe.marked = [] := by
  refine List.eq_nil_iff_forall_not_mem.2 fun j hj => ?_
  rcases writePieces_marks hk hm hi hj with ⟨h1, h2⟩ | ⟨-, hne⟩ | ⟨-, hst⟩
  · exact h2 h1
  · exact hne hinj
  · exact hst hstuck

end Pieces

/-! ### The whole block -/

section Block

variable {s : State} (hm : s.mem.wf = true) (hk : ∀ k ∈ s.rqe.marked, k ≤ 6) (hi : s.rqe.idle)
include hm hk hi

/-- The marks after the first round of writes. -/
theorem writePieces_marked_le : ∀ j ∈ (writePieces s.rqe.marked s).rqe.marked, j ≤ 6 := by
  intro j hj
  rcases writePieces_marks hk hm hi hj with ⟨h1, -⟩ | ⟨⟨-, h6⟩, -⟩ | ⟨rfl, -⟩
  · exact hk j h1
  · exact h6
  · exact Nat.zero_le 6

theorem writeStatus_stamped : ∃ ks, (∀ k ∈ s.rqe.marked, k ∈ ks) ∧ Stamped ks s (writeStatus s) := by
  have hone := writePieces_stamped hk hm hi
  exact ⟨_, fun k hk => List.mem_append_left _ hk,
    hone.append (writePieces_stamped (writePieces_marked_le hm hk hi) hone.wf (hone.desk.idle hi))⟩

theorem writeStatus_waits (h : s.rqe.waits) : (writeStatus s).rqe.waits := by
  have hone := writePieces_stamped hk hm hi
  exact writePieces_waits (writePieces_marked_le hm hk hi) hone.wf (hone.desk.idle hi) (writePieces_waits hk hm hi h)

/-- The second round of writes marks nothing when it raises nothing and uses up no injection. -/
theorem writeStatus_empty_of
    (hstuck : (writePieces s.rqe.marked s).rqe.stuck (writePieces s.rqe.marked s).rqe.marked)
    (hinj : (writeStatus s).fmc.injection = (writePieces s.rqe.marked s).fmc.injection) :
    (writeStatus s).rqe.marked = [] := by
  have hone := writePieces_stamped hk hm hi
  exact writePieces_empty (writePieces_marked_le hm hk hi) hone.wf (hone.desk.idle hi) hinj hstuck

/-- With no injection armed. -/
theorem writeStatus_empty_of_no_injection (h : s.rqe.waits) (hnone : s.fmc.injection = none) :
    (writeStatus s).rqe.marked = [] := by
  have hone := writePieces_stamped hk hm hi
  have hle := writePieces_marked_le hm hk hi
  have hstill : (writePieces s.rqe.marked s).fmc.injection = none := by rw [hone.injection, hnone]; rfl
  have hzero : ∀ j ∈ (writePieces s.rqe.marked s).rqe.marked, j = 0 := by
    intro j hj
    rcases writePieces_marks hk hm hi hj with ⟨h1, h2⟩ | ⟨-, hne⟩ | ⟨h0, -⟩
    · exact absurd h1 h2
    · exact absurd (hstill.trans hnone.symm) hne
    · exact h0
  refine writeStatus_empty_of hm hk hi (fun r hr => ?_) ?_
  · obtain ⟨w, hw, hd⟩ := writePieces_waits hk hm hi h r hr
    refine ⟨w, hw, ?_⟩
    by_cases hjobs : w.jobs = 0
    · rcases hp : w.pieces with _ | ⟨p, ps⟩
      · refine .inr (.inr ⟨?_, hzero⟩)
        simpa [Hold.done, hjobs, hp] using hd
      · refine .inr (.inl ⟨p, by rw [hp]; exact List.mem_cons_self, ?_⟩)
        by_cases hp0 : p = 0
        · exact .inl hp0
        · exact .inr fun hin => hp0 (hzero p hin)
    · exact .inl hjobs
  · rw [hstill]
    rcases (writePieces_stamped hle hone.wf (hone.desk.idle hi)).injection_or with h1 | h1
    · exact h1.trans hstill
    · exact h1

/-- With no raise that waits. -/
theorem writeStatus_empty_of_no_raise (h : s.rqe.raises = []) : (writeStatus s).rqe.marked = [] := by
  have hone := writePieces_stamped hk hm hi
  have hle := writePieces_marked_le hm hk hi
  have hnone : ∀ ks u, u.mem.wf = true → (∀ k ∈ ks, k ≤ 6) → u.rqe.idle → u.rqe.raises = [] →
      (writePieces ks u).rqe.raises = [] := by
    intro ks
    induction ks with
    | nil => exact fun u _ _ _ hu => hu
    | cons k ks ih =>
      intro u hu hks hidle hr
      have hp := writePiece_stamped (hks k List.mem_cons_self) hu hidle
      refine ih _ hp.wf (fun j hj => hks j (List.mem_cons_of_mem _ hj)) (hp.desk.idle hidle) ?_
      refine List.eq_nil_iff_forall_not_mem.2 fun r hr' => ?_
      obtain ⟨⟨x, hx, -⟩, -⟩ := (mem_writePiece_raises hu).1 hr'
      rw [hr] at hx
      exact List.not_mem_nil hx
  have hempty : ∀ r, r ∉ (writePieces s.rqe.marked s).rqe.raises := by
    rw [hnone _ _ hm hk hi h]
    exact fun r => List.not_mem_nil
  by_cases hinj : (writePieces s.rqe.marked s).fmc.injection = s.fmc.injection
  · have hfirst : (writePieces s.rqe.marked s).rqe.marked = [] := by
      refine writePieces_empty hk hm hi hinj fun r hr => ?_
      rw [h] at hr
      exact absurd hr List.not_mem_nil
    show (writePieces (writePieces s.rqe.marked s).rqe.marked (writePieces s.rqe.marked s)).rqe.marked = []
    rw [hfirst]
    exact hfirst
  · have hgone := hone.injection_or.resolve_left hinj
    refine writeStatus_empty_of hm hk hi (fun r hr => absurd hr (hempty r)) (Eq.trans ?_ hgone.symm)
    rcases (writePieces_stamped hle hone.wf (hone.desk.idle hi)).injection_or with h1 | h1
    · exact h1.trans hgone
    · exact h1

end Block

end Sys2Proof.Machine
end

section
/-! PROOFS. What is shown in DRAM at the end of a command that writes the status block (R64 to R68; O59, O60). -/

namespace Sys2Proof.Machine

set_option Elab.async false

/-! ### The end of a command, and the pieces that stand in DRAM -/

theorem settleRqe_shape (b u : State) :
    ∃ q : Rqe, settleRqe b u = q.makeRaises ∧ SameRing u.rqe q ∧ q.made = u.rqe.made := by
  have hmirror := mirrorChanges_sameRing b.stb u.stb (List.range 16) u.rqe
  have hmirrored := mirrorChanges_made b.stb u.stb (List.range 16) u.rqe
  unfold settleRqe
  generalize mirrorChanges b.stb u.stb (List.range 16) u.rqe = r at hmirror hmirrored
  have hmark := markChanges_sameRing b u pieceOrder r
  have hmarked := markChanges_made b u pieceOrder r
  generalize markChanges b u pieceOrder r = q at hmark hmarked
  exact ⟨_, rfl, (hmirror.trans hmark).trans (placeRaises_sameRing q _), hmarked.trans hmirrored⟩

/-- At the end of a command piece 0 is marked, or its image is as the command left it. -/
theorem finish_statusPiece_zero (b u : State) :
    0 ∈ (finish b u).rqe.marked ∨ statusPiece 0 (finish b u) = statusPiece 0 u := by
  obtain ⟨q, hsettle, hring, hmade⟩ := settleRqe_shape b u
  have hshown : shownFlags q = shownFlags u.rqe := by rw [shownFlags, shownFlags, hmade, hring.flags]
  have himage := makeRaises_sameImage q
  refine himage.shown.imp (fun h => by rw [finish_rqe, hsettle]; exact h) fun h => ?_
  have f := finish_followUp b u
  have hpath := congrArg Hmp.path f.hmp
  have hwake := congrArg Hmp.wake f.hmp
  have hout := congrArg Hmp.outOfRange f.hmp
  have hdrops := congrArg Hmp.guardDrops f.hmp
  simp only at hpath hwake hout hdrops
  simp only [statusPiece, pieceFields, finish_rqe, hsettle, quietGranted, finish_exs, finish_pins, hpath, hwake, hout,
    hdrops, h, hshown, himage.resetCause, himage.head, himage.enables, himage.ringFaults, himage.completionNo,
    hring.resetCause, hring.head, hring.enables, hring.ringFaults, hring.completionNo]

/-- A piece that stands in DRAM, or is marked, does so at the end of a command that writes no memory and takes no mark
off. -/
theorem PieceSettled.finish {k : Nat} {w u : State} (h : PieceSettled k w) (h6 : k ≤ 6) (hmem : u.mem = w.mem)
    (hmarks : ∀ j ∈ w.rqe.marked, j ∈ u.rqe.marked) : PieceSettled k (finish w u) := by
  rcases h with h | h
  · exact .inl (finish_marked _ _ (hmarks k h))
  by_cases hsame : statusPiece k u = statusPiece k w
  · have hpiece : k ∈ (Machine.finish w u).rqe.marked ∨ statusPiece k (Machine.finish w u) = statusPiece k w := by
      by_cases hk : k = 0
      · subst hk
        exact (finish_statusPiece_zero w u).imp_right fun he => he.trans hsame
      · exact .inr ((finish_statusPiece w u (by omega)).trans hsame)
    refine hpiece.imp_right fun he => ?_
    rw [Shows, he, finish_mem, hmem]
    exact h
  · refine .inl ?_
    rw [finish_rqe]
    exact settleRqe_marks w u h6 hsame

/-! ### The changes settled, before the status block is written -/

theorem mem_settleRqe_marked {b a : State} {j : Nat} (h : j ∈ (settleRqe b a).marked) : j ∈ a.rqe.marked ∨ j ≤ 6 := by
  rcases mem_makeRaises_marked h with h | rfl
  · rw [placeRaises_marked, markChanges_mem, mirrorChanges_marked] at h
    refine h.imp_right fun ⟨hin, _⟩ => ?_
    simp only [pieceOrder, List.mem_cons, List.not_mem_nil, or_false] at hin
    omega
  · exact .inr (Nat.zero_le 6)

theorem mem_placeRaises_raises {q : Rqe} {w : Bool} {r : Raise} : r ∈ (q.placeRaises w).raises ↔
    ∃ x ∈ q.raises, { x with hold := x.hold.or (some (q.outstanding w)) } = r := List.mem_map

theorem placed_waits (q : Rqe) (w : Bool) : (q.placeRaises w).makeRaises.waits := by
  intro r hr
  obtain ⟨hin, hripe⟩ := mem_makeRaises_raises.1 hr
  obtain ⟨x, -, rfl⟩ := mem_placeRaises_raises.1 hin
  rcases hx : x.hold with _ | h
  · simp only [hx, Option.none_or, Raise.ripe, Option.any_some] at hripe ⊢
    exact ⟨_, rfl, hripe⟩
  · simp only [hx, Option.some_or, Raise.ripe, Option.any_some] at hripe ⊢
    exact ⟨_, rfl, hripe⟩

theorem settleRqe_all_wait (b a : State) : (settleRqe b a).waits := placed_waits _ _

theorem settleRqe_desk (b a : State) : SameDesk a.rqe (settleRqe b a) := (settleRqe_sameRing b a).desk

theorem placed_no_raise {q : Rqe} (h : q.raises = []) (w : Bool) : (q.placeRaises w).makeRaises.raises = [] := by
  refine List.eq_nil_iff_forall_not_mem.2 fun r hr => ?_
  obtain ⟨x, hx, -⟩ := mem_placeRaises_raises.1 (mem_makeRaises_raises.1 hr).1
  rw [h] at hx
  exact List.not_mem_nil hx

theorem settleRqe_no_raise {b a : State} (h : a.rqe.raises = []) : (settleRqe b a).raises = [] :=
  placed_no_raise ((markChanges_raises _ _ _ _).trans ((mirrorChanges_raises _ _ _ _).trans h)) _

/-- A command after which nothing is marked and every raise waits, and which changes nothing more, marks nothing. -/
theorem settleRqe_same {u : State} (h : u.rqe.waits) : settleRqe u u = u.rqe := by
  have hmarks : ∀ ks q, markChanges u u ks q = q := by
    intro ks
    induction ks with
    | nil => exact fun q => rfl
    | cons k ks ih => exact fun q => by rw [markChanges, if_pos rfl, ih]
  have hplace : u.rqe.placeRaises u.fmc.writingContent = u.rqe := by
    have hsame : (u.rqe.raises.map fun r => { r with hold := r.hold.or (some (u.rqe.outstanding u.fmc.writingContent)) }) = u.rqe.raises := by
      refine (List.map_congr_left fun r hr => ?_).trans (List.map_id _)
      obtain ⟨w, hw, -⟩ := h r hr
      obtain ⟨f, o⟩ := r
      simp only at hw
      rw [hw]
      rfl
    rw [Rqe.placeRaises, hsame]
  unfold settleRqe
  rw [mirrorChanges_same, hmarks, hplace]
  refine makeRaises_of_waiting fun r hr => ?_
  obtain ⟨w, hw, hd⟩ := h r hr
  rw [Raise.ripe, hw]
  exact hd

/-! ### The status block written within a command -/

/-- The state once the status block has been written for a command that has made `t` of `s`. -/
def stamped (s t : State) : State := writeStatus (withRqe (settleRqe s t) t)

theorem writtenEvent_eq (s : State) (f g : State → State) :
    writtenEvent s f g = finish (stamped s (f s)) (g (stamped s (f s))) := rfl

section Written

variable {q : Rqe} {t : State} (hm : t.mem.wf = true) (hk : ∀ k ∈ q.marked, k ≤ 6)
include hm hk

theorem writeStatus_over (hi : q.idle) (hw : q.waits) : (∃ ks, (∀ k ∈ q.marked, k ∈ ks) ∧
    Stamped ks (withRqe q t) (writeStatus (withRqe q t))) ∧ (writeStatus (withRqe q t)).rqe.waits :=
  ⟨writeStatus_stamped (s := withRqe q t) hm hk hi, writeStatus_waits (s := withRqe q t) hm hk hi hw⟩

theorem writeStatus_settles {k : Nat} (h : k ∈ q.marked) : PieceSettled k (writeStatus (withRqe q t)) := by
  obtain ⟨m, i, st, r, -, -, -, hsettled⟩ := writeStatus_spec (s := withRqe q t) hm hk
  exact hsettled k (hk k h) (.inl h)

omit hk in
theorem writeStatus_shows_head (h : 0 ∈ q.marked) : HeadShown (writeStatus (withRqe q t)) :=
  writeStatus_head (s := withRqe q t) hm h

theorem writeStatus_unmarked (hi : q.idle) (hw : q.waits) (h : t.fmc.injection = none ∨ q.raises = []) :
    (writeStatus (withRqe q t)).rqe.marked = [] := by
  rcases h with h | h
  · exact writeStatus_empty_of_no_injection (s := withRqe q t) hm hk hi hw h
  · exact writeStatus_empty_of_no_raise (s := withRqe q t) hm hk hi h

end Written

section Stamp

variable {s t : State} (hm : t.mem.wf = true) (hk : ∀ k ∈ t.rqe.marked, k ≤ 6) (hi : t.rqe.idle)

include hk in
theorem settled_le : ∀ k ∈ (settleRqe s t).marked, k ≤ 6 := fun k h => (mem_settleRqe_marked h).elim (hk k) id

include hm hk hi

/-- What the write leaves, with the marks that were settled. -/
theorem stamped_spec : (∃ ks, (∀ k ∈ (settleRqe s t).marked, k ∈ ks) ∧
    Stamped ks (withRqe (settleRqe s t) t) (stamped s t)) ∧ (stamped s t).rqe.waits :=
  writeStatus_over hm (settled_le hk) ((settleRqe_desk s t).idle hi) (settleRqe_all_wait s t)

theorem stamped_frame : OnlyChanges [.mem, .injection, .scrubber, .flags] t (stamped s t) := by
  obtain ⟨⟨ks, -, hst⟩, -⟩ := stamped_spec (s := s) hm hk hi
  exact ((settleRqe_desk s t).onlyChanges.mono (by simp)).trans hst.frame

omit hi in
theorem stamped_settled {k : Nat} (h : k ∈ (settleRqe s t).marked) : PieceSettled k (stamped s t) :=
  writeStatus_settles hm (settled_le hk) h

omit hk hi in
theorem stamped_head (h : 0 ∈ (settleRqe s t).marked) : HeadShown (stamped s t) := writeStatus_shows_head hm h

/-- Nothing is marked then, unless an injection used up by a write and a raise that waited for one came together. -/
theorem stamped_unmarked (h : t.fmc.injection = none ∨ t.rqe.raises = []) : (stamped s t).rqe.marked = [] := by
  unfold stamped
  exact writeStatus_unmarked hm (settled_le hk) ((settleRqe_desk s t).idle hi) (settleRqe_all_wait s t)
    (h.imp_right settleRqe_no_raise)

end Stamp

end Sys2Proof.Machine
end

section
/-! PROOFS. The standby entry's end (R66; O59). -/

namespace Sys2Proof.Machine

set_option Elab.async false

/-- A new path state. -/
def withPath (p : PathState) (s : State) : State := { s with hmp := { s.hmp with path := p } }

theorem withPath_onlyChanges (p : PathState) (s : State) : OnlyChanges [.path] s (withPath p s) := by
  refine ⟨rfl, fun q hq hf => ?_⟩
  cases q <;> simp_all [Part.agree, withPath, followUp]

/-- Piece 0 shows the path state (R200). -/
theorem statusPiece_withPath {p : PathState} {s : State} (h : p ≠ s.hmp.path) :
    statusPiece 0 (withPath p s) ≠ statusPiece 0 s := by
  obtain ⟨a, b, l, h1⟩ := statusPiece_head (withPath p s)
  obtain ⟨c, d, m, h2⟩ := statusPiece_head s
  rw [h1, h2]
  intro he
  injection he with _ he
  injection he with _ he
  injection he with _ he
  injection he with _ he
  injection he with he _
  have hpath : (withPath p s).hmp.path = p := rfl
  have hcodes : ∀ p q : PathState, p ≠ q → byteOf p.code ≠ byteOf q.code := by
    intro p q
    cases p <;> cases q <;> decide
  exact hcodes _ _ h (hpath ▸ he)

section Path

variable {s : State} {p : PathState} (hm : MemOk s) (hk : ∀ k ∈ s.rqe.marked, k ≤ 6) (hi : s.rqe.idle)
  (hp : p ≠ s.hmp.path)

/-- The state once the status block has been written for a new path state. -/
def pathStamped (p : PathState) (s : State) : State := stamped s (withPath p s)

include hm hk hi in
theorem pathStamped_spec : (∃ ks, (∀ k ∈ (settleRqe s (withPath p s)).marked, k ∈ ks) ∧
    Stamped ks (withRqe (settleRqe s (withPath p s)) (withPath p s)) (pathStamped p s)) ∧
    (pathStamped p s).rqe.waits :=
  stamped_spec (t := withPath p s) hm hk hi

include hm hk hi in
theorem pathStamped_frame : OnlyChanges [.path, .mem, .injection, .scrubber, .flags] s (pathStamped p s) := by
  unfold pathStamped
  exact ((withPath_onlyChanges p s).mono (by simp)).trans
    ((stamped_frame (s := s) (t := withPath p s) hm hk hi).mono (by simp))

include hm hk hi hp in
/-- What DRAM shows after a new path state (R66, R68, R200): piece 0, and every piece that was marked and is not again. -/
theorem pathStamped_shows {u : State} (hmem : u.mem = (pathStamped p s).mem)
    (hmarks : ∀ j ∈ (pathStamped p s).rqe.marked, j ∈ u.rqe.marked) :
    let t := finish (pathStamped p s) u
    t.mem.byte 0x3F000004 = byteOf p.code ∧ t.mem.byte 0x3F000003 = byteOf s.hmp.wake.code ∧
      (∀ k, (k = 0 ∨ k ∈ s.rqe.marked) → k ∈ t.rqe.marked ∨ Shows k t) ∧
      ∀ a, (a < 0x3F000000 ∨ 0x3F0001C0 ≤ a) → t.mem.byte a = s.mem.byte a := by
  intro t
  have hzero : 0 ∈ (settleRqe s (withPath p s)).marked := settleRqe_marks s (withPath p s) (k := 0) (Nat.zero_le 6) (statusPiece_withPath hp)
  have hmarked : ∀ k, (k = 0 ∨ k ∈ s.rqe.marked) → k ∈ (settleRqe s (withPath p s)).marked := by
    rintro k (rfl | h)
    · exact hzero
    · exact settleRqe_marked s (withPath p s) h
  obtain ⟨⟨ks, -, hst⟩, -⟩ := pathStamped_spec (p := p) hm hk hi
  have hhead : HeadShown (pathStamped p s) := by
    unfold pathStamped
    exact stamped_head (s := s) (t := withPath p s) hm hzero
  obtain ⟨-, h3, h4⟩ := hhead
  have hhmp : (pathStamped p s).hmp = { s.hmp with path := p } := by
    obtain ⟨m, i, st, q, he⟩ := hst.eq
    rw [he]
    rfl
  have htmem : t.mem = (pathStamped p s).mem := (finish_mem _ _).trans hmem
  rw [hhmp] at h3 h4
  refine ⟨by rw [htmem]; exact h4, by rw [htmem]; exact h3, fun k hkm => ?_, fun a ha => ?_⟩
  · have h6 : k ≤ 6 := hkm.elim (fun h => by omega) (hk k)
    have hsettled : PieceSettled k (pathStamped p s) := by
      unfold pathStamped
      exact stamped_settled (s := s) (t := withPath p s) hm hk (hmarked k hkm)
    exact hsettled.finish h6 hmem hmarks
  · rw [htmem]
    exact hst.byte_out a ha

end Path

/-! ### The entry's end -/

section Entry

variable {s : State}

theorem standbyEntryDrained_waits (hs : s.resetHeld = false) (h : s.amn.stopped = false ∨ s.hmp.queue ≠ [] ∨
    s.fmc.pending ≠ [] ∨ s.fmc.active ≠ none ∨ s.rqe.jobs ≠ []) :
    ∃ t, exec .standbyEntryDrained s = .next t ∧ t = s := by
  have hno : drained s = false := by
    rw [Bool.eq_false_iff]
    intro hd
    rw [drained] at hd
    simp only [Bool.and_eq_true, List.isEmpty_iff, Option.isNone_iff_eq_none] at hd
    obtain ⟨⟨⟨⟨⟨⟨⟨⟨-, h1⟩, h2⟩, -⟩, -⟩, h3⟩, h4⟩, h5⟩, -⟩ := hd
    simp_all
  refine ⟨s, ?_, rfl⟩
  show Host.Outcome.next (if s.resetHeld then s else enterStandby s) = _
  rw [hs, enterStandby, hno]
  rfl

theorem standbyEntryDrained_enters (hs : s.resetHeld = false) (hp : s.hmp.path = .entering) (h1 : s.amn.stopped = true) (h2 : s.hmp.queue = [])
    (h3 : s.hmp.waiting = []) (h4 : s.hmp.reads = []) (h5 : s.fmc.pending = []) (h6 : s.fmc.active = none)
    (h7 : s.rqe.jobs = []) (h8 : s.dfm.rewrite = none) :
    exec .standbyEntryDrained s = .next (finish (pathStamped .standby s) (pathStamped .standby s)) := by
  have hd : drained s = true := by simp [drained, hp, h1, h2, h3, h4, h5, h6, h7, h8]
  have henter : enterStandby s = writtenEvent s (withPath .standby) id := if_pos hd
  have hexec : exec .standbyEntryDrained s = .next (enterStandby s) := congrArg Host.Outcome.next (if_neg (by simp [hs]))
  rw [hexec, henter, writtenEvent_eq]
  simp only [id_eq, pathStamped]

/-- After the entry nothing is marked, unless an injection used up by a write and a raise that waited for one came
together. -/
theorem pathStamped_unmarked (hm : MemOk s) (hk : ∀ k ∈ s.rqe.marked, k ≤ 6) (hi : s.rqe.idle) (p : PathState)
    (h : s.fmc.injection = none ∨ s.rqe.raises = []) :
    (finish (pathStamped p s) (pathStamped p s)).rqe.marked = [] := by
  have hwaits := (pathStamped_spec (p := p) hm hk hi).2
  rw [finish_rqe, settleRqe_same hwaits]
  unfold pathStamped
  exact stamped_unmarked (s := s) (t := withPath p s) hm hk hi h

end Entry

end Sys2Proof.Machine
end

section
/-! PROOFS. The wake events in every path state (R66 to R69; O59). -/

namespace Sys2Proof.Machine

set_option Elab.async false

/-! ### A wake event -/

/-- A new path state with the cause of the wake. -/
def woken (p : PathState) (c : WakeCause) (s : State) : State := { s with hmp := { s.hmp with path := p, wake := c } }

theorem woken_onlyChanges (p : PathState) (c : WakeCause) (s : State) : OnlyChanges [.path] s (woken p c s) := by
  refine ⟨rfl, fun q hq hf => ?_⟩
  cases q <;> simp_all [Part.agree, woken, followUp]

/-- The card at a wake: a park asked for, waiting or being discharged for is given up (R68, R69). -/
def unparked (c : Cde) : Cde :=
  { c with parkAsked := false, identDrop := if c.identDrop = some .park then none else c.identDrop
           dischargeFor := if c.dischargeFor = .park then .powerUp else c.dischargeFor }

theorem mountAtWake_eq (s : State) : mountAtWake s =
    if s.cde.state = .parked then startPowerUp (withCde (unparked s.cde) s) else withCde (unparked s.cde) s := rfl

section Wake

variable {s u : State} {c : WakeCause}

theorem wake_of_standby (h : u.hmp.path = .standby) (c : WakeCause) : wake c u = woken .waking c u := by
  simp only [wake, h]
  rfl

theorem wake_of_waking (h : u.hmp.path = .waking) (c : WakeCause) : wake c u = u := by simp only [wake, h]

theorem wake_of_entering (h : u.hmp.path = .entering) (c : WakeCause) :
    wake c u = mountAtWake (withAmn u.amn.resume (woken .run c u)) := by
  simp only [wake, h]
  rfl

/-- The monitor that had stopped, or was to stop, sweeps again. -/
theorem resume_eq (a : Amn) : a.resume.stopped = false ∧ a.resume.stopAsked = false ∧ a.resume.queue = a.queue ∧
    (a.stopped = true ∨ a.stopAsked = true →
      a.resume.sweep = some .temp ∧ a.resume.sampleTimer = a.settings.interval * 1000) := by
  unfold Amn.resume
  split
  · exact ⟨rfl, rfl, rfl, fun _ => ⟨rfl, rfl⟩⟩
  · rename_i h
    simp only [Bool.or_eq_true, not_or, Bool.not_eq_true] at h
    refine ⟨h.1, h.2, rfl, ?_⟩
    rintro (hs | hs) <;> simp_all

/-- The state after the steps of a wake but the power-up (R68). -/
def rewoken (a : Amn) (u : State) : State := withCde (unparked u.cde) (withAmn a u)

theorem rewoken_frame (a : Amn) (u : State) : OnlyChanges [.cde, .monitor] u (rewoken a u) :=
  ((OnlyChanges.refl _ u).amn _).cde _

theorem mountAtWake_up (a : Amn) (h : u.cde.state ≠ .parked) : mountAtWake (withAmn a u) = rewoken a u := by
  rw [mountAtWake_eq]
  exact if_neg h

theorem mountAtWake_parked (a : Amn) (h : u.cde.state = .parked) (hrun : u.cde.run = none) (hq : Demand.card ∉ a.queue) :
    mountAtWake (withAmn a u) = withAmn { a with queue := a.queue ++ [.card] }
      (withCde (poweringUp (unparked u.cde)) (rewoken a u)) := by
  rw [mountAtWake_eq]
  refine (if_pos h).trans ?_
  rw [startPowerUp_eq (s := withCde (unparked (withAmn a u).cde) (withAmn a u)) (Cde.cycling_of_no_run hrun)]
  exact ask_card (s := withCde (poweringUp (unparked u.cde)) (rewoken a u)) hq

/-- What a wake event during the standby entry leaves (R69). -/
structure GaveUp (c : WakeCause) (a : Amn) (u t : State) : Prop where
  path : t.hmp.path = .run
  cause : t.hmp.wake = c
  stopped : t.amn.stopped = false
  stopAsked : t.amn.stopAsked = false
  sweeps : a.stopped = true ∨ a.stopAsked = true → t.amn.sweep = some .temp ∧ t.amn.sampleTimer = a.settings.interval * 1000
  pins : t.pins = u.pins
  exs : t.exs = u.exs
  raised : ∀ f, (⟨f, none⟩ : Raise) ∈ u.rqe.raises → Raised f t
  frame : OnlyChanges [.path, .cde, .monitor] u t

theorem finish_of_run {b v : State} (h : v.hmp.path = .run) : (finish b v).amn = v.amn ∧ (finish b v).hmp.path = .run ∧
    (finish b v).hmp.wake = v.hmp.wake := by
  refine ⟨finish_monitor_goes (.inr (by rw [h]; decide)), (finish_hmp_path b v).trans h, ?_⟩
  have hw := congrArg Hmp.wake (finish_followUp b v).hmp
  exact hw

theorem gaveUp_of {a : Amn} {v : State} (b : State) (hframe : OnlyChanges [.path, .cde, .monitor] u v)
    (hpath : v.hmp.path = .run) (hcause : v.hmp.wake = c) (h1 : v.amn.stopped = false) (h2 : v.amn.stopAsked = false)
    (h3 : a.stopped = true ∨ a.stopAsked = true → v.amn.sweep = some .temp ∧ v.amn.sampleTimer = a.settings.interval * 1000)
    (hrqe : v.rqe = u.rqe) : GaveUp c a u (finish b v) := by
  obtain ⟨hamn, hrun, hwake⟩ := finish_of_run (b := b) hpath
  refine ⟨hrun, hwake.trans hcause, by rw [hamn]; exact h1, by rw [hamn]; exact h2, by rw [hamn]; exact h3, ?_, ?_,
    fun f hf => finish_raised _ _ (by rw [hrqe]; exact hf), hframe.finish b⟩
  · exact (finish_pins b v).trans (hframe.2 .pins (by decide) (by decide))
  · exact (finish_exs b v).trans (hframe.2 .exs (by decide) (by decide))

/-- The wake of a card that is not parked. -/
theorem gaveUp_up (b : State) (h : u.hmp.path = .entering) (hstate : u.cde.state ≠ .parked) (c : WakeCause) :
    GaveUp c u.amn u (finish b (wake c u)) ∧ (finish b (wake c u)).cde = unparked u.cde := by
  have hw : wake c u = rewoken u.amn.resume (woken .run c u) := by
    rw [wake_of_entering h]
    exact mountAtWake_up (u := woken .run c u) _ hstate
  obtain ⟨h1, h2, -, h4⟩ := resume_eq u.amn
  have hframe : OnlyChanges [.path, .cde, .monitor] u (rewoken u.amn.resume (woken .run c u)) :=
    ((woken_onlyChanges _ _ u).mono (by simp)).trans ((rewoken_frame _ _).mono (by simp))
  rw [hw]
  exact ⟨gaveUp_of b hframe rfl rfl h1 h2 h4 rfl, finish_cde _ _⟩

/-- The wake of a card that is parked: it powers up. -/
theorem gaveUp_parked (b : State) (h : u.hmp.path = .entering) (hstate : u.cde.state = .parked) (hrun : u.cde.run = none)
    (hq : Demand.card ∉ u.amn.queue) (c : WakeCause) :
    GaveUp c u.amn u (finish b (wake c u)) ∧ (finish b (wake c u)).cde = poweringUp (unparked u.cde) ∧
      (finish b (wake c u)).amn.queue = u.amn.queue ++ [.card] := by
  obtain ⟨h1, h2, h3, h4⟩ := resume_eq u.amn
  obtain ⟨v, hv⟩ : ∃ v, v = withAmn { u.amn.resume with queue := u.amn.resume.queue ++ [.card] }
    (withCde (poweringUp (unparked u.cde)) (rewoken u.amn.resume (woken .run c u))) := ⟨_, rfl⟩
  have hw : wake c u = v := by
    rw [wake_of_entering h, hv]
    exact mountAtWake_parked (u := woken .run c u) _ hstate hrun (by rw [h3]; exact hq)
  have hframe : OnlyChanges [.path, .cde, .monitor] u v := by
    rw [hv]
    exact ((((woken_onlyChanges _ _ u).mono (by simp)).trans ((rewoken_frame _ _).mono (by simp))).cde _).amn _
  have hpath : v.hmp.path = .run := by rw [hv]; rfl
  have hamn : v.amn = { u.amn.resume with queue := u.amn.resume.queue ++ [.card] } := by rw [hv]; rfl
  have hcde : v.cde = poweringUp (unparked u.cde) := by rw [hv]; rfl
  rw [hw]
  refine ⟨gaveUp_of b hframe hpath (by rw [hv]; rfl) (by rw [hamn]; exact h1) (by rw [hamn]; exact h2)
    (by rw [hamn]; exact h4) (by rw [hv]; rfl), (finish_cde _ _).trans hcde, ?_⟩
  rw [(finish_of_run (b := b) hpath).1, hamn]
  exact congrArg (· ++ [Demand.card]) h3

end Wake

end Sys2Proof.Machine
end

section
/-! PROOFS. Bursts, changes at CARD_DET and sync closures that wake the part (R66 to R69; O59). -/

namespace Sys2Proof.Machine

set_option Elab.async false

section Events

variable {s : State}

/-! ### What the event does besides the wake -/

/-- The change of the level at CARD_DET (log 36). -/
def turned (s : State) : State :=
  withCde { s.cde with detLevel := !s.pins.cardPresent } (withPins { s.pins with cardPresent := !s.pins.cardPresent } s)

theorem turned_frame (s : State) : OnlyChanges [.pins, .cde] s (turned s) := ((OnlyChanges.refl _ s).pins _).cde _

theorem exec_cardDetectWake (s : State) : exec .cardDetectWake s =
    pinEvent s (fun p => { p with cardPresent := !p.cardPresent }) fun t =>
      wake .cardDetect (withCde { t.cde with detLevel := t.pins.cardPresent } t) := rfl

theorem cardDetectWake_wakes (h : s.resetHeld = false) :
    exec .cardDetectWake s = .next (finish s (wake .cardDetect (turned s))) := by
  rw [exec_cardDetectWake]
  refine pinEvent_to h ?_
  rfl

/-- A closure that finds no shot (R38). -/
def unused (s : State) : State :=
  missedSync (accepted true (withPins { s.pins with syncClosed := true } s))

theorem exec_unusedClosure (h : s.resetHeld = false) (hseq : s.exs.seq = .idle) (hopen : s.exs.sync.closed = false)
    (first : BitVec 32) : exec (.syncClosureAccepted first) s = .next (finish s (wake .sync (unused s))) := by
  rw [exec_syncClosureAccepted]
  refine pinEvent_to (g := fun p => { p with syncClosed := true }) h ((if_neg ?_).trans ?_)
  · rw [Bool.not_eq_true]
    exact hopen
  have hidle : takeClosure first.toNat (withPins { s.pins with syncClosed := true } s) = wake .sync (unused s) := by
    rw [takeClosure_eq]
    show (match s.exs.seq with | .idle => _ | .quieting | .flush | .settle => _ | .waiting => _ | .opened | .tail => _) = _
    rw [hseq]
    rfl
  exact hidle

theorem unused_spec (s : State) : (unused s).exs.missed = min 4294967295 (s.exs.missed + 1) ∧
    (⟨.missedSync, none⟩ : Raise) ∈ (unused s).rqe.raises ∧ OnlyChanges [.pins, .exs, .stb] s (unused s) ∧
    (unused s).hmp = s.hmp ∧ (unused s).amn = s.amn ∧ (unused s).cde = s.cde := by
  have ho : OnlyChanges [.pins, .exs, .stb] s (accepted true (withPins { s.pins with syncClosed := true } s)) :=
    ((OnlyChanges.refl _ s).pins _).exs _
  rw [unused, missedSync_eq]
  exact ⟨rfl, List.mem_append_right _ List.mem_cons_self, ((ho.exs _).stb _).raised .missedSync, rfl, rfl, rfl⟩

/-! ### In STANDBY -/

theorem standby_burst (h : s.resetHeld = false) (hp : s.hmp.path = .standby) {b : HostBurst} (hb : b.wf = true) :
    ∃ t, exec (.hostBurst b) s = .next t ∧ t.hmp.path = .waking ∧ t.hmp.wake = .hostAccess ∧
      t.hmp.waiting = s.hmp.waiting ++ [b] ∧ t.hmp.queue = s.hmp.queue ∧ OnlyChanges [.path, .posted] s t := by
  have hto : presentBurst b s = woken .waking .hostAccess (holdBurst b s) := by
    simp only [presentBurst, hp]
    exact wake_of_standby (u := holdBurst b s) hp _
  have hframe : OnlyChanges [.path, .posted] s (woken .waking .hostAccess (holdBurst b s)) :=
    ((holdBurst_onlyChanges b s).mono (by simp)).trans ((woken_onlyChanges _ _ _).mono (by simp))
  rw [exec_hostBurst hb]
  exact ⟨_, event_to h hto, finish_hmp_path _ _, finish_hmp_wake _ _, finish_hmp_waiting _ _,
    finish_hmp_queue _ _, hframe.finish s⟩

theorem standby_detects (h : s.resetHeld = false) (hp : s.hmp.path = .standby) :
    ∃ t, exec .cardDetectWake s = .next t ∧ t.hmp.path = .waking ∧ t.hmp.wake = .cardDetect ∧
      t.pins = { s.pins with cardPresent := !s.pins.cardPresent } ∧
      t.cde = { s.cde with detLevel := !s.pins.cardPresent } ∧ OnlyChanges [.path, .pins, .cde] s t := by
  have hw : wake .cardDetect (turned s) = woken .waking .cardDetect (turned s) := wake_of_standby (u := turned s) hp _
  have hframe : OnlyChanges [.path, .pins, .cde] s (woken .waking .cardDetect (turned s)) :=
    ((turned_frame s).mono (by simp)).trans ((woken_onlyChanges _ _ _).mono (by simp))
  rw [cardDetectWake_wakes h, hw]
  exact ⟨_, rfl, finish_hmp_path _ _, finish_hmp_wake _ _, finish_pins _ _, finish_cde _ _,
    hframe.finish s⟩

theorem standby_closure (h : s.resetHeld = false) (hp : s.hmp.path = .standby) (first : BitVec 32)
    (hseq : s.exs.seq = .idle) (hopen : s.exs.sync.closed = false) : ∃ t, exec (.syncClosureAccepted first) s = .next t ∧
      t.hmp.path = .waking ∧ t.hmp.wake = .sync ∧ (t.exs.missed = min 4294967295 (s.exs.missed + 1) ∧ Raised .missedSync t) ∧
      OnlyChanges [.path, .pins, .exs, .stb] s t := by
  obtain ⟨hmissed, hraise, hunused, hhmp, -, -⟩ := unused_spec s
  have hpath : (unused s).hmp.path = .standby := by rw [hhmp, hp]
  rw [exec_unusedClosure h hseq hopen, wake_of_standby hpath]
  obtain ⟨w, hw⟩ : ∃ w, w = woken .waking .sync (unused s) := ⟨_, rfl⟩
  have hwhmp : w.hmp = { (unused s).hmp with path := .waking, wake := .sync } := by rw [hw]; rfl
  have hwexs : w.exs = (unused s).exs := by rw [hw]; rfl
  have hwrqe : w.rqe = (unused s).rqe := by rw [hw]; rfl
  have hframe : OnlyChanges [.path, .pins, .exs, .stb] s w := by
    rw [hw]
    exact (hunused.mono (by simp)).trans ((woken_onlyChanges _ _ _).mono (by simp))
  rw [← hw]
  refine ⟨_, rfl, ?_, ?_, ⟨?_, finish_raised _ _ (hwrqe ▸ hraise)⟩, hframe.finish s⟩
  · rw [finish_hmp_path, hwhmp]
  · rw [finish_hmp_wake, hwhmp]
  · rw [finish_exs, hwexs]
    exact hmissed

/-! ### In WAKING -/

theorem waking_burst (h : s.resetHeld = false) (hp : s.hmp.path = .waking) {b : HostBurst} (hb : b.wf = true) :
    ∃ t, exec (.hostBurst b) s = .next t ∧ t.hmp.waiting = s.hmp.waiting ++ [b] ∧ t.hmp.queue = s.hmp.queue ∧
      OnlyChanges [.posted] s t := by
  have hto : presentBurst b s = holdBurst b s := by simp only [presentBurst, hp]
  rw [exec_hostBurst hb]
  exact ⟨_, event_to h hto, finish_hmp_waiting _ _, finish_hmp_queue _ _, (holdBurst_onlyChanges b s).finish s⟩

theorem waking_detects (h : s.resetHeld = false) (hp : s.hmp.path = .waking) :
    ∃ t, exec .cardDetectWake s = .next t ∧ t.pins = { s.pins with cardPresent := !s.pins.cardPresent } ∧
      t.cde = { s.cde with detLevel := !s.pins.cardPresent } ∧ OnlyChanges [.pins, .cde] s t := by
  have hw : wake .cardDetect (turned s) = turned s := wake_of_waking (u := turned s) hp _
  rw [cardDetectWake_wakes h, hw]
  exact ⟨_, rfl, finish_pins _ _, finish_cde _ _, (turned_frame s).finish s⟩

theorem waking_closure (h : s.resetHeld = false) (hp : s.hmp.path = .waking) (first : BitVec 32)
    (hseq : s.exs.seq = .idle) (hopen : s.exs.sync.closed = false) : ∃ t, exec (.syncClosureAccepted first) s = .next t ∧
      (t.exs.missed = min 4294967295 (s.exs.missed + 1) ∧ Raised .missedSync t) ∧ OnlyChanges [.pins, .exs, .stb] s t := by
  obtain ⟨hmissed, hraise, hunused, hhmp, -, -⟩ := unused_spec s
  rw [exec_unusedClosure h hseq hopen, wake_of_waking (by rw [hhmp]; exact hp)]
  exact ⟨_, rfl, ⟨(congrArg Exs.missed (finish_exs _ _)).trans hmissed, finish_raised _ _ hraise⟩, hunused.finish s⟩

/-! ### In the standby entry -/

/-- A wake event during the entry that leaves the part but for the wake in `u`. -/
theorem entering_wakes {u : State} {ps : List Part} {c : WakeCause} (hu : OnlyChanges ps s u) (hhmp : u.hmp = s.hmp)
    (hamn : u.amn = s.amn) (hrun : u.cde.run = s.cde.run) (hstate : u.cde.state = s.cde.state)
    (hp : s.hmp.path = .entering) :
    let t := finish s (wake c u)
    let kept := GaveUp c s.amn u t ∧ OnlyChanges (.path :: .cde :: .monitor :: ps) s t
    (s.cde.state ≠ .parked → kept ∧ t.cde = unparked u.cde) ∧
    (s.cde.state = .parked → s.cde.run = none → Demand.card ∉ s.amn.queue →
      kept ∧ t.cde = poweringUp (unparked u.cde) ∧ t.amn.queue = s.amn.queue ++ [.card]) := by
  intro t kept
  have hframe (h : GaveUp c u.amn u t) : kept :=
    ⟨hamn ▸ h, (hu.mono fun p hp => by simp [hp]).trans (h.frame.mono fun p hp => by simp at hp ⊢; tauto)⟩
  refine ⟨fun hs => ?_, fun hs hr hq => ?_⟩
  · obtain ⟨h1, h2⟩ := gaveUp_up s (hhmp ▸ hp) (hstate ▸ hs) c
    exact ⟨hframe h1, h2⟩
  · obtain ⟨h1, h2, h3⟩ := gaveUp_parked s (hhmp ▸ hp) (hstate ▸ hs) (hrun ▸ hr) (hamn ▸ hq) c
    exact ⟨hframe h1, h2, hamn ▸ h3⟩

end Events

end Sys2Proof.Machine
end

section
/-! PROOFS. The end of the wake (R68), and standby settled (O59). -/

namespace Sys2Proof.Machine

set_option Elab.async false

/-! ### The bursts that wait -/

/-- The bursts that wait are offered anew. -/
def emptied (s : State) : State := { s with hmp := { s.hmp with waiting := [] } }

theorem emptied_onlyChanges (s : State) : OnlyChanges [.posted] s (emptied s) := by
  refine ⟨rfl, fun q hq _ => ?_⟩
  cases q <;> simp_all [Part.agree, emptied]

theorem respond_outOfRange_onlyChanges (r : Response) (s : State) : OnlyChanges [.response] s (respond r s) := by
  refine ⟨rfl, fun q hq _ => ?_⟩
  cases q <;> simp_all [Part.agree, respond]

section Burst

variable {w : State}

theorem admitWaiting_none (h : w.hmp.waiting = []) : admitWaiting w = w := by
  have hsame : emptied w = w := by
    unfold emptied
    rw [← h]
  rw [admitWaiting, h]
  exact hsame

theorem admitWaiting_one {b : HostBurst} (h : w.hmp.waiting = [b]) : admitWaiting w = offerBurst b (emptied w) := by
  rw [admitWaiting, h]
  rfl

theorem counted_of_no_quiet (h : w.exs.quietReq = false) (b : Bool) : counted b w = countOutOfRange b w := by
  have hno : countViolation w = w := if_neg (by simp [quietGranted, h])
  rw [counted, hno]

/-- A read in range, with no burst posted. -/
theorem takeRead_presents {a : BitVec 32} {n : Nat} (hq : w.exs.quietReq = false) (hn : 1 ≤ n)
    (hin : a.toNat / 4 * 4 + 4 * n ≤ 0x40000000) (hqueue : w.hmp.queue = []) :
    takeRead a n w = present ⟨.hostRead n, a.toNat / 4 * 4, 4 * n, [], false⟩ w := by
  have hcount : inRangeCount a n = n := by
    rw [inRangeCount_eq]
    omega
  have hsame : counted (decide (n < n)) w = w := by
    rw [counted_of_no_quiet hq]
    simp [countOutOfRange]
  rw [takeRead_eq hcount, if_neg (by omega), hsame, hqueue]
  rfl

/-- A read beyond the top of DRAM. -/
theorem takeRead_outside {a : BitVec 32} {n : Nat} (hq : w.exs.quietReq = false) (hn : 1 ≤ n)
    (hout : 0x40000000 ≤ a.toNat) : takeRead a n w =
      respond ⟨false, true, List.replicate n (0, parityBits 0)⟩ (countOutOfRange true w) := by
  have hcount : inRangeCount a n = 0 := by
    rw [inRangeCount_eq]
    omega
  have hall : decide (0 < n) = true := decide_eq_true hn
  rw [takeRead_eq hcount, if_pos rfl, hall, counted_of_no_quiet hq]

/-- A write in range. -/
theorem takeWrite_posts {a : BitVec 32} {beats : List WriteBeat} (hq : w.exs.quietReq = false) (hn : 1 ≤ beats.length)
    (hin : a.toNat / 4 * 4 + 4 * beats.length ≤ 0x40000000) :
    (postedBeats a beats).length = beats.length ∧ takeWrite a beats w =
      withPosted { id := w.hmp.nextId, beats := postedBeats a beats, parity := parityMarked a beats } (respond ⟨true, false, []⟩ w) := by
  have hlength : (postedBeats a beats).length = beats.length := by
    rw [postedBeats_eq, List.length_map, List.length_zipIdx, List.length_take]
    omega
  have hsame : counted (decide (beats.length < beats.length)) w = w := by
    rw [counted_of_no_quiet hq]
    simp [countOutOfRange]
  have hsome : postedBeats a beats ≠ [] := fun hnil => by
    rw [hnil] at hlength
    exact absurd hlength (by simp only [List.length_nil]; omega)
  refine ⟨hlength, ?_⟩
  rw [takeWrite_eq hlength, hsame]
  refine (if_neg hsome).trans ?_
  simp only [lt_irrefl, decide_false]
  rfl

end Burst

/-! ### The wake's end -/

section Resume

variable {s : State} (hs : s.resetHeld = false) (hm : MemOk s) (hk : ∀ k ∈ s.rqe.marked, k ≤ 6) (hi : s.rqe.idle)
  (hp : s.hmp.path = .waking)

include hs hp in
theorem wakeDramReady_eq : exec .wakeDramReady s = .next (finish (pathStamped .run s) (resumeWork (pathStamped .run s))) := by
  have hfinish : finishWake s = writtenEvent s (withPath .run) resumeWork := if_pos hp
  have hexec : exec .wakeDramReady s = .next (finishWake s) := congrArg Host.Outcome.next (if_neg (by simp [hs]))
  rw [hexec, hfinish, writtenEvent_eq]
  simp only [pathStamped]

/-- What the wake leaves (R68), besides what it does of `ps`. -/
def ResumedWith (ps : List Part) (s t : State) : Prop :=
  t.hmp.path = .run ∧ t.hmp.wake = s.hmp.wake ∧
    (t.mem.byte 0x3F000004 = byteOf PathState.run.code ∧ t.mem.byte 0x3F000003 = byteOf s.hmp.wake.code ∧
      (∀ k, (k = 0 ∨ k ∈ s.rqe.marked) → k ∈ t.rqe.marked ∨ Shows k t) ∧
      ∀ a, (a < 0x3F000000 ∨ 0x3F0001C0 ≤ a) → t.mem.byte a = s.mem.byte a) ∧
    t.hmp.waiting = [] ∧ t.amn.stopped = false ∧ t.amn.sweep = some .temp ∧
    t.amn.sampleTimer = s.amn.settings.interval * 1000 ∧
    OnlyChanges ([.path, .mem, .injection, .scrubber, .flags] ++ .monitor :: .cde :: ps) s t

/-- The bursts taken, between the status block's write and the monitor's and the card's part of the wake. -/
structure Admitted (ps : List Part) (w a : State) : Prop where
  frame : OnlyChanges ps w a
  path : a.hmp.path = w.hmp.path
  wake : a.hmp.wake = w.hmp.wake
  waiting : a.hmp.waiting = []
  mem : a.mem = w.mem
  rqe : a.rqe = w.rqe
  amn : a.amn = w.amn
  cde : a.cde = w.cde

theorem pathStamped_parts (hm : MemOk s) (hk : ∀ k ∈ s.rqe.marked, k ≤ 6) (hi : s.rqe.idle) (p : PathState) :
    (pathStamped p s).hmp = { s.hmp with path := p } ∧ (pathStamped p s).amn = s.amn ∧ (pathStamped p s).cde = s.cde ∧
      (pathStamped p s).exs = s.exs := by
  obtain ⟨⟨ks, -, hst⟩, -⟩ := pathStamped_spec (p := p) hm hk hi
  obtain ⟨m, i, st, q, he⟩ := hst.eq
  rw [he]
  exact ⟨rfl, rfl, rfl, rfl⟩

include hs hm hk hi hp in
/-- The end of a wake with the bursts that wait taken, and the card and the monitor as they are in `u`. -/
theorem resumed_of {ps : List Part} {a u : State} (ha : Admitted ps (pathStamped .run s) a)
    (hu : resumeWork (pathStamped .run s) = u) (hframe : OnlyChanges [.cde, .monitor] a u) (hhmp : u.hmp = a.hmp)
    (hmem : u.mem = a.mem) (hrqe : u.rqe = a.rqe) (h1 : u.amn.stopped = false) (h2 : u.amn.sweep = some .temp)
    (h3 : u.amn.sampleTimer = s.amn.settings.interval * 1000) : ∃ t, exec .wakeDramReady s = .next t ∧
      ResumedWith ps s t ∧ t.cde = u.cde ∧ t.amn = u.amn ∧ t.hmp.queue = a.hmp.queue ∧ t.hmp.response = a.hmp.response ∧
      t.hmp.outOfRange = a.hmp.outOfRange ∧ (∀ x ∈ u.fmc.pending, x ∈ t.fmc.pending) := by
  obtain ⟨hwhmp, hwamn, hwcde, -⟩ := pathStamped_parts hm hk hi .run
  have hshows := pathStamped_shows (u := u) hm hk hi (p := .run) (by rw [hp]; decide) (hmem.trans ha.mem)
    (fun j hj => by rw [hrqe, ha.rqe]; exact hj)
  have hbase : OnlyChanges ([.path, .mem, .injection, .scrubber, .flags] ++ .monitor :: .cde :: ps) s u :=
    ((pathStamped_frame hm hk hi).mono (by simp)).trans ((ha.frame.mono (by simp +contextual)).trans (hframe.mono (by simp)))
  rw [wakeDramReady_eq hs hp, hu]
  generalize pathStamped .run s = w at *
  have hpath : u.hmp.path = .run := by rw [hhmp, ha.path, hwhmp]
  obtain ⟨hamn, hrun, hwake⟩ := finish_of_run (b := w) hpath
  refine ⟨_, rfl, ⟨hrun, ?_, hshows, ?_, ?_, ?_, ?_, hbase.finish w⟩, finish_cde _ _, hamn, ?_, ?_, ?_, ?_⟩
  · rw [hwake, hhmp, ha.wake, hwhmp]
  · rw [finish_hmp_waiting, hhmp, ha.waiting]
  · rw [hamn, h1]
  · rw [hamn, h2]
  · rw [hamn, h3]
  · rw [finish_hmp_queue, hhmp]
  · rw [finish_hmp_response, hhmp]
  · rw [finish_hmp_outOfRange, hhmp]
  · intro x hx
    obtain ⟨ts, hts⟩ := (finish_followUp w u).added
    rw [hts]
    exact List.mem_append_left _ hx

end Resume

end Sys2Proof.Machine
end

section
/-! PROOFS. Standby and wake, settled (O59). -/

namespace Sys2Proof.Machine

set_option Elab.async false

section Admit

variable {w : State}

theorem admitted_none (h : w.hmp.waiting = []) : Admitted [] w w :=
  ⟨OnlyChanges.refl _ w, rfl, rfl, h, rfl, rfl, rfl, rfl⟩

theorem admit_read {a : BitVec 32} {n : Nat} (hw : w.hmp.waiting = [.read a n]) (hn : 1 ≤ n)
    (hin : a.toNat / 4 * 4 + 4 * n ≤ 0x40000000) (hqueue : w.hmp.queue = []) (hq : w.exs.quietReq = false) :
    ∃ u, admitWaiting w = u ∧ Admitted [.posted] w u ∧ u.hmp.queue = [] ∧
      (⟨.hostRead n, a.toNat / 4 * 4, 4 * n, [], false⟩ : Txn) ∈ u.fmc.pending :=
  ⟨_, (admitWaiting_one hw).trans (takeRead_presents (w := emptied w) hq hn hin hqueue),
    ⟨(emptied_onlyChanges w).presented _, rfl, rfl, rfl, rfl, rfl, rfl, rfl⟩, hqueue,
    List.mem_append_right _ List.mem_cons_self⟩

theorem admit_outside {a : BitVec 32} {n : Nat} (hw : w.hmp.waiting = [.read a n]) (hn : 1 ≤ n)
    (hout : 0x40000000 ≤ a.toNat) (hq : w.exs.quietReq = false) :
    ∃ u, admitWaiting w = u ∧ Admitted [.posted, .response, .outOfRange] w u ∧ u.hmp.queue = w.hmp.queue ∧
      u.hmp.response = some { write := false, error := true, beats := List.replicate n (0, parityBits 0) } ∧
      u.hmp.outOfRange = min 4294967295 (w.hmp.outOfRange + 1) := by
  set r : Response := ⟨false, true, List.replicate n (0, parityBits 0)⟩ with hr
  have hframe : OnlyChanges [.posted, .response, .outOfRange] w (respond r (countOutOfRange true (emptied w))) :=
    (((emptied_onlyChanges w).mono (by simp)).trans ((countOutOfRange_onlyChanges _ _).mono (by simp))).trans
      ((respond_onlyChanges _ _).mono (by simp))
  exact ⟨_, (admitWaiting_one hw).trans (takeRead_outside (w := emptied w) hq hn hout),
    ⟨hframe, rfl, rfl, rfl, rfl, rfl, rfl, rfl⟩, rfl, rfl, rfl⟩

theorem admit_write {a : BitVec 32} {beats : List WriteBeat} (hw : w.hmp.waiting = [.write a beats])
    (hn : 1 ≤ beats.length) (hin : a.toNat / 4 * 4 + 4 * beats.length ≤ 0x40000000) (hqueue : w.hmp.queue = [])
    (hq : w.exs.quietReq = false) : ∃ (u : State) (p : Posted), admitWaiting w = u ∧ Admitted [.posted, .response] w u ∧
      u.hmp.queue = [p] ∧ p.delivered = false ∧ p.beats = postedBeats a beats ∧ p.beats.length = beats.length ∧
      u.hmp.response = some { write := true, error := false, beats := [] } := by
  obtain ⟨hlength, htake⟩ := takeWrite_posts (w := emptied w) hq hn hin
  have hoffer : offerBurst (.write a beats) (emptied w) = takeWrite a beats (emptied w) :=
    if_pos ⟨by show w.hmp.queue.length < 8; rw [hqueue]; decide, rfl⟩
  set p : Posted := { id := (emptied w).hmp.nextId, beats := postedBeats a beats, parity := parityMarked a beats } with hp
  have hframe : OnlyChanges [.posted, .response] w (withPosted p (respond ⟨true, false, []⟩ (emptied w))) :=
    (((emptied_onlyChanges w).mono (by simp)).trans ((respond_onlyChanges _ _).mono (by simp))).trans
      ((withPosted_onlyChanges _ _).mono (by simp))
  exact ⟨_, p, ((admitWaiting_one hw).trans hoffer).trans htake, ⟨hframe, rfl, rfl, rfl, rfl, rfl, rfl, rfl⟩,
    congrArg (· ++ [p]) hqueue, rfl, rfl, hlength, rfl⟩

end Admit

section Resume

variable {s : State} (hs : s.resetHeld = false) (hm : MemOk s) (hk : ∀ k ∈ s.rqe.marked, k ≤ 6) (hi : s.rqe.idle)
  (hp : s.hmp.path = .waking) (hstop : s.amn.stopped = true)

theorem resumeWork_eq (w : State) : resumeWork w = mountAtWake (withAmn (admitWaiting w).amn.resume (admitWaiting w)) := rfl

include hs hm hk hi hp hstop

/-- The wake's end with a card that is not parked. -/
theorem wakeDramReady_up {ps : List Part} {a : State} (ha : Admitted ps (pathStamped .run s) a)
    (hadmit : admitWaiting (pathStamped .run s) = a) (hcard : s.cde.state ≠ .parked) : ∃ t, exec .wakeDramReady s = .next t ∧
      ResumedWith ps s t ∧ t.cde = unparked s.cde ∧ t.hmp.queue = a.hmp.queue ∧ t.hmp.response = a.hmp.response ∧
      t.hmp.outOfRange = a.hmp.outOfRange ∧ ∀ x ∈ a.fmc.pending, x ∈ t.fmc.pending := by
  obtain ⟨-, hwamn, hwcde, -⟩ := pathStamped_parts hm hk hi .run
  have hamn : a.amn = s.amn := ha.amn.trans hwamn
  have hcde : a.cde = s.cde := ha.cde.trans hwcde
  obtain ⟨h1, -, -, h4⟩ := resume_eq a.amn
  have hwork : resumeWork (pathStamped .run s) = rewoken a.amn.resume a := by
    rw [resumeWork_eq, hadmit]
    exact mountAtWake_up _ (by rw [hcde]; exact hcard)
  obtain ⟨h2, h3⟩ := h4 (.inl (by rw [hamn]; exact hstop))
  obtain ⟨t, hto, hresumed, htcde, -, hqueue, hresponse, hout, hpending⟩ :=
    resumed_of hs hm hk hi hp ha hwork (rewoken_frame _ _) rfl rfl rfl h1 h2 (by rw [← hamn]; exact h3)
  exact ⟨t, hto, hresumed, htcde.trans (congrArg unparked hcde), hqueue, hresponse, hout, hpending⟩

/-- The wake's end with a parked card: it powers up. -/
theorem wakeDramReady_parked {ps : List Part} {a : State} (ha : Admitted ps (pathStamped .run s) a)
    (hadmit : admitWaiting (pathStamped .run s) = a) (hcard : s.cde.state = .parked) (hrun : s.cde.run = none)
    (hq : Demand.card ∉ s.amn.queue) : ∃ t, exec .wakeDramReady s = .next t ∧ ResumedWith ps s t ∧
      t.cde = poweringUp (unparked s.cde) ∧ t.amn.queue = s.amn.queue ++ [.card] := by
  obtain ⟨-, hwamn, hwcde, -⟩ := pathStamped_parts hm hk hi .run
  have hamn : a.amn = s.amn := ha.amn.trans hwamn
  have hcde : a.cde = s.cde := ha.cde.trans hwcde
  obtain ⟨h1, -, hqueue, h4⟩ := resume_eq a.amn
  have hwork : resumeWork (pathStamped .run s) = withAmn { a.amn.resume with queue := a.amn.resume.queue ++ [.card] }
      (withCde (poweringUp (unparked a.cde)) (rewoken a.amn.resume a)) := by
    rw [resumeWork_eq, hadmit]
    exact mountAtWake_parked _ (by rw [hcde]; exact hcard) (by rw [hcde]; exact hrun) (by rw [hqueue, hamn]; exact hq)
  have hframe : OnlyChanges [.cde, .monitor] a (withAmn { a.amn.resume with queue := a.amn.resume.queue ++ [.card] }
      (withCde (poweringUp (unparked a.cde)) (rewoken a.amn.resume a))) := ((rewoken_frame _ _).cde _).amn _
  obtain ⟨h2, h3⟩ := h4 (.inl (by rw [hamn]; exact hstop))
  obtain ⟨t, hto, hresumed, htcde, htamn, -⟩ :=
    resumed_of hs hm hk hi hp ha hwork hframe rfl rfl rfl h1 h2 (by rw [← hamn]; exact h3)
  refine ⟨t, hto, hresumed, htcde.trans (congrArg (fun c => poweringUp (unparked c)) hcde), ?_⟩
  rw [htamn, ← hamn]
  exact congrArg (· ++ [Demand.card]) hqueue

theorem resumed_none (hw : s.hmp.waiting = []) : (s.cde.state = .absent → ∃ t, exec .wakeDramReady s = .next t ∧
      ResumedWith [] s t ∧ t.cde.state = .absent) ∧
    (s.cde.state = .parked → s.cde.run = none → Demand.card ∉ s.amn.queue → ∃ t, exec .wakeDramReady s = .next t ∧
      ResumedWith [] s t ∧ t.cde = poweringUp (unparked s.cde) ∧ t.amn.queue = s.amn.queue ++ [.card]) := by
  obtain ⟨hwhmp, -⟩ := pathStamped_parts hm hk hi .run
  have hnone : (pathStamped .run s).hmp.waiting = [] := by rw [hwhmp]; exact hw
  refine ⟨fun hc => ?_, fun hc hrun hq => ?_⟩
  · obtain ⟨t, hto, hresumed, hcde, -⟩ := wakeDramReady_up hs hm hk hi hp hstop (admitted_none hnone)
      (admitWaiting_none hnone) (by rw [hc]; decide)
    exact ⟨t, hto, hresumed, by rw [hcde]; exact hc⟩
  · exact wakeDramReady_parked hs hm hk hi hp hstop (admitted_none hnone) (admitWaiting_none hnone) hc hrun hq

/-- A read that waited is presented. -/
theorem resumed_read {a : BitVec 32} {n : Nat} (hw : s.hmp.waiting = [.read a n]) (hn : 1 ≤ n)
    (hin : a.toNat / 4 * 4 + 4 * n ≤ 0x40000000) (hqueue : s.hmp.queue = []) (hq : s.exs.quietReq = false)
    (hc : s.cde.state = .absent) : ∃ t, exec .wakeDramReady s = .next t ∧ ResumedWith [.posted] s t ∧ t.hmp.queue = [] ∧
      Presented (.hostRead n) (a.toNat / 4 * 4) (4 * n) t := by
  obtain ⟨hwhmp, -, -, hwexs⟩ := pathStamped_parts hm hk hi .run
  obtain ⟨u, hadmit, ha, huqueue, hpresented⟩ := admit_read (w := pathStamped .run s) (by rw [hwhmp]; exact hw) hn hin
    (by rw [hwhmp]; exact hqueue) (by rw [hwexs]; exact hq)
  obtain ⟨t, hto, hresumed, -, htqueue, -, -, hpending⟩ := wakeDramReady_up hs hm hk hi hp hstop ha hadmit (by rw [hc]; decide)
  exact ⟨t, hto, hresumed, htqueue.trans huqueue, hpending _ hpresented⟩

/-- A read beyond the top of DRAM that waited is answered. -/
theorem resumed_outside {a : BitVec 32} {n : Nat} (hw : s.hmp.waiting = [.read a n]) (hn : 1 ≤ n)
    (hout : 0x40000000 ≤ a.toNat) (hq : s.exs.quietReq = false) (hc : s.cde.state = .absent) :
    ∃ t, exec .wakeDramReady s = .next t ∧ ResumedWith [.posted, .response, .outOfRange] s t ∧
      t.hmp.queue = s.hmp.queue ∧
      t.hmp.response = some { write := false, error := true, beats := List.replicate n (0, parityBits 0) } ∧
      t.hmp.outOfRange = min 4294967295 (s.hmp.outOfRange + 1) := by
  obtain ⟨hwhmp, -, -, hwexs⟩ := pathStamped_parts hm hk hi .run
  obtain ⟨u, hadmit, ha, huqueue, huresponse, huout⟩ := admit_outside (w := pathStamped .run s) (by rw [hwhmp]; exact hw) hn
    hout (by rw [hwexs]; exact hq)
  rw [hwhmp] at huqueue huout
  obtain ⟨t, hto, hresumed, -, htqueue, htresponse, htout, -⟩ := wakeDramReady_up hs hm hk hi hp hstop ha hadmit (by rw [hc]; decide)
  exact ⟨t, hto, hresumed, htqueue.trans huqueue, htresponse.trans huresponse, htout.trans huout⟩

/-- A write that waited is posted. -/
theorem resumed_write {a : BitVec 32} {beats : List WriteBeat} (hw : s.hmp.waiting = [.write a beats])
    (hn : 1 ≤ beats.length) (hin : a.toNat / 4 * 4 + 4 * beats.length ≤ 0x40000000) (hqueue : s.hmp.queue = [])
    (hq : s.exs.quietReq = false) (hc : s.cde.state = .absent) : ∃ (t : State) (p : Posted), exec .wakeDramReady s = .next t ∧
      ResumedWith [.posted, .response] s t ∧ t.hmp.queue = [p] ∧ p.delivered = false ∧ p.beats.length = beats.length ∧
      (∀ (k : Nat) (b : WriteBeat), beats[k]? = some b →
        p.beats[k]? = some (⟨a.toNat / 4 * 4 + 4 * k, b.data, b.enables⟩ : PostedBeat)) ∧
      t.hmp.response = some ({ write := true, error := false, beats := [] } : Response) := by
  obtain ⟨hwhmp, -, -, hwexs⟩ := pathStamped_parts hm hk hi .run
  obtain ⟨u, p, hadmit, ha, huqueue, hdelivered, hbeats, hlength, huresponse⟩ := admit_write (w := pathStamped .run s)
    (by rw [hwhmp]; exact hw) hn hin (by rw [hwhmp]; exact hqueue) (by rw [hwexs]; exact hq)
  obtain ⟨t, hto, hresumed, -, htqueue, htresponse, -, -⟩ := wakeDramReady_up hs hm hk hi hp hstop ha hadmit (by rw [hc]; decide)
  refine ⟨t, p, hto, hresumed, htqueue.trans huqueue, hdelivered, hlength, fun k b hb => ?_, htresponse.trans huresponse⟩
  obtain ⟨hlt, -⟩ := List.getElem?_eq_some_iff.1 hb
  rw [hbeats]
  exact postedBeats_getElem? (by omega) hb

end Resume

/-- Settles O59: the entry's end and the wake's end write the status block, and each wake event acts by the path state. -/
theorem standbyAndWake : Obligations.StandbyAndWake := by
  unfold Obligations.StandbyAndWake
  intro s hs hm hk hanswer shows written missed detects pinned powers gives
  have hi : s.rqe.idle := hanswer
  refine ⟨fun hp => ⟨fun h1 h2 h3 h4 h5 h6 h7 h8 => ?_, fun hleft => standbyEntryDrained_waits hs hleft⟩,
    fun hp => ⟨fun b hb => standby_burst hs hp hb, standby_detects hs hp, fun first hseq hopen => standby_closure hs hp first hseq hopen⟩,
    fun hp => ⟨fun b hb => waking_burst hs hp hb, waking_detects hs hp, fun first hseq hopen => waking_closure hs hp first hseq hopen⟩,
    fun hp => ?_, fun hp hstop => ?_⟩
  · have hexec := standbyEntryDrained_enters hs hp h1 h2 h3 h4 h5 h6 h7 h8
    obtain ⟨hwhmp, -⟩ := pathStamped_parts hm hk hi .standby
    have hshows := pathStamped_shows (u := pathStamped .standby s) hm hk hi (p := .standby) (by rw [hp]; decide) rfl
      fun j hj => hj
    refine ⟨_, hexec, ?_, ?_, hshows, pathStamped_unmarked hm hk hi .standby, (pathStamped_frame hm hk hi).finish _⟩
    · rw [finish_hmp_path, hwhmp]
    · rw [finish_hmp_wake, hwhmp]
  · intro swept gaveUp
    refine ⟨?_, fun first hseq hopen => ?_⟩
    · obtain ⟨hup, hparked⟩ := entering_wakes (c := .cardDetect) (turned_frame s) rfl rfl rfl rfl hp
      refine ⟨fun hc => ?_, fun hc hrun hq => ?_⟩
      · obtain ⟨⟨h, hframe⟩, hcde⟩ := hup hc
        exact ⟨_, cardDetectWake_wakes hs, h.path, h.cause, ⟨h.stopped, h.stopAsked, h.sweeps⟩, h.pins, hcde, hframe.mono (by simp)⟩
      · obtain ⟨⟨h, hframe⟩, hcde, hqueue⟩ := hparked hc hrun hq
        exact ⟨_, cardDetectWake_wakes hs, h.path, h.cause, ⟨h.stopped, h.stopAsked, h.sweeps⟩, h.pins, hcde, hqueue, hframe.mono (by simp)⟩
    · obtain ⟨hmissed, hraise, hunused, hhmp, hamn, hcde'⟩ := unused_spec s
      obtain ⟨hup, hparked⟩ := entering_wakes (c := .sync) hunused hhmp hamn (by rw [hcde']) (by rw [hcde']) hp
      rw [hcde'] at hup hparked
      refine ⟨fun hc => ?_, fun hc hrun hq => ?_⟩
      · obtain ⟨⟨h, hframe⟩, hcde⟩ := hup hc
        exact ⟨_, exec_unusedClosure hs hseq hopen first, h.path, h.cause, ⟨h.stopped, h.stopAsked, h.sweeps⟩,
          ⟨by rw [h.exs]; exact hmissed, h.raised _ hraise⟩, hcde, hframe⟩
      · obtain ⟨⟨h, hframe⟩, hcde, hqueue⟩ := hparked hc hrun hq
        exact ⟨_, exec_unusedClosure hs hseq hopen first, h.path, h.cause, ⟨h.stopped, h.stopAsked, h.sweeps⟩,
          ⟨by rw [h.exs]; exact hmissed, h.raised _ hraise⟩, hcde, hqueue, hframe⟩
  · intro resumed
    refine ⟨fun hw hc => (resumed_none hs hm hk hi hp hstop hw).1 hc, fun hw hc hrun hq =>
      (resumed_none hs hm hk hi hp hstop hw).2 hc hrun hq, fun a n hw hn _ hin hqueue hq hc =>
      resumed_read hs hm hk hi hp hstop hw hn hin hqueue hq hc, fun a n hw hn _ hout hq hc => ?_,
      fun a beats hw hn _ hin hqueue hq hc => resumed_write hs hm hk hi hp hstop hw hn hin hqueue hq hc⟩
    have hparity : parityBits 0 = 0 := by decide
    have h := resumed_outside hs hm hk hi hp hstop hw hn hout hq hc
    rw [hparity] at h
    exact h

end Sys2Proof.Machine
end

section
/-! PROOFS. The status block written after a reset: every piece (R64, R65; O60). -/

namespace Sys2Proof.Machine

set_option Elab.async false

/-! ### Raises that wait through the write of every piece -/

/-- A raise waits for none of these pieces. -/
def Hold.cleared (ks : List Nat) (h : Hold) : Prop :=
  (∀ k ∈ ks, k ≠ 0 → k ∉ h.pieces) ∧ ((∃ k ∈ ks, k ≠ 0) → h.writing = false)

theorem Hold.cleared_afterPiece {ks : List Nat} {h : Hold} (hc : h.cleared ks) (k : Nat) :
    (h.afterPiece k).cleared (ks ++ [k]) := by
  obtain ⟨hp, hw⟩ := hc
  unfold Hold.afterPiece
  split
  · rename_i hk
    subst hk
    refine ⟨fun j hj hj0 => hp j ?_ hj0, fun ⟨j, hj, hj0⟩ => hw ⟨j, ?_, hj0⟩⟩ <;> simpa [hj0] using hj
  · refine ⟨fun j hj hj0 hin => ?_, fun _ => rfl⟩
    obtain ⟨hin, hne⟩ := List.mem_filter.1 hin
    rcases List.mem_append.1 hj with hj | hj
    · exact hp j hj hj0 hin
    · simp only [List.mem_singleton] at hj
      simp [hj] at hne

section Pieces

variable {s : State}

theorem writePieces_cleared {js : List Nat} (ks : List Nat) (hk : ∀ k ∈ ks, k ≤ 6) (hm : s.mem.wf = true)
    (hi : s.rqe.idle) (h : ∀ r ∈ s.rqe.raises, ∃ w, r.hold = some w ∧ w.cleared js) :
    ∀ r ∈ (writePieces ks s).rqe.raises, ∃ w, r.hold = some w ∧ w.cleared (js ++ ks) := by
  induction ks generalizing s js with
  | nil =>
    rw [List.append_nil]
    exact h
  | cons k ks ih =>
    have hone := writePiece_stamped (hk k List.mem_cons_self) hm hi
    have hnext := ih (s := writePiece k s) (js := js ++ [k]) (fun j hj => hk j (List.mem_cons_of_mem _ hj)) hone.wf
      (hone.desk.idle hi) fun r hr => by
        obtain ⟨⟨x, hx, rfl⟩, -⟩ := (mem_writePiece_raises hm).1 hr
        obtain ⟨w, hw, hc⟩ := h x hx
        exact ⟨w.afterPiece k, by rw [hw]; rfl, Hold.cleared_afterPiece hc k⟩
    rw [List.append_assoc] at hnext
    exact hnext

theorem Stamped.injection_again {ks js : List Nat} {t u : State} (h : Stamped ks s t) (k : Stamped js t u)
    (hsub : ∀ j ∈ js, j ∈ ks) : u.fmc.injection = t.fmc.injection := by
  rw [k.injection, h.injection]
  rcases s.fmc.injection with _ | i
  · rfl
  · rw [Option.filter_filter]
    congr 1
    funext x
    have himp : (∀ k ∈ ks, x.1 ∉ pieceWords k) → ∀ k ∈ js, x.1 ∉ pieceWords k := fun hall k hk => hall k (hsub k hk)
    by_cases hall : ∀ k ∈ ks, x.1 ∉ pieceWords k
    · rw [decide_eq_true hall, decide_eq_true (himp hall)]
      rfl
    · rw [decide_eq_false hall]
      simp

/-- With every piece marked, the write leaves none marked. -/
theorem writeStatus_unmarks_all (hm : s.mem.wf = true) (hk : ∀ k ∈ s.rqe.marked, k ≤ 6) (hi : s.rqe.idle)
    (hw : s.rqe.waits) (hall : ∀ k ≤ 6, k ∈ s.rqe.marked) : (writeStatus s).rqe.marked = [] := by
  have hone := writePieces_stamped hk hm hi
  have hle := writePieces_marked_le hm hk hi
  have hsub : ∀ j ∈ (writePieces s.rqe.marked s).rqe.marked, j ∈ s.rqe.marked := fun j hj => hall j (hle j hj)
  have htwo := writePieces_stamped hle hone.wf (hone.desk.idle hi)
  refine writeStatus_empty_of hm hk hi (fun r hr => ?_) (hone.injection_again htwo hsub)
  obtain ⟨v, hv, hd⟩ := writePieces_waits hk hm hi hw r hr
  obtain ⟨x, hx, hc, hwriting⟩ := writePieces_cleared (js := []) s.rqe.marked hk hm hi (fun r hr => by
    obtain ⟨w, hw, -⟩ := hw r hr
    exact ⟨w, hw, by simp [Hold.cleared]⟩) r hr
  cases hv.symm.trans hx
  refine ⟨v, hv, ?_⟩
  have hdone := hwriting ⟨1, by simpa using hall 1 (by omega), by decide⟩
  by_cases hjobs : v.jobs = 0
  · rcases hp : v.pieces with _ | ⟨p, ps⟩
    · simp [Hold.done, hjobs, hp, hdone] at hd
    · refine .inr (.inl ⟨p, by rw [hp]; exact List.mem_cons_self, ?_⟩)
      by_cases hp0 : p = 0
      · exact .inl hp0
      · exact .inr fun hin => hc p (by simpa using hsub p hin) hp0 (by rw [hp]; exact List.mem_cons_self)
  · exact .inl hjobs

end Pieces

/-! ### The end of a command that has marked every piece -/

theorem placed_updates (b a : State) (ks : List Nat) (q : Rqe) (w : Bool) :
    ((markChanges b a ks q).placeRaises w).makeRaises.updates = q.updates :=
  (makeRaises_updates _).trans (markChanges_updates b a ks q)

theorem settleRqe_updates {b a : State} (h : a.stb = b.stb) : (settleRqe b a).updates = a.rqe.updates := by
  unfold settleRqe
  rw [h, mirrorChanges_same]
  exact placed_updates b a _ _ _

section Stamp

variable {s t : State} (hm : t.mem.wf = true) (hk : ∀ k ∈ t.rqe.marked, k ≤ 6) (hi : t.rqe.idle)
  (hall : ∀ k ≤ 6, k ∈ t.rqe.marked)
include hm hk hi hall

theorem stamped_unmarks_all : (stamped s t).rqe.marked = [] := by
  have hstays : ∀ k ≤ 6, k ∈ (settleRqe s t).marked := fun k h6 => settleRqe_marked s t (hall k h6)
  have hle := settled_le (s := s) hk
  have hidle := (settleRqe_desk s t).idle hi
  have hwaits := settleRqe_all_wait s t
  unfold stamped
  generalize settleRqe s t = q at *
  exact writeStatus_unmarks_all (s := withRqe q t) hm hle hidle hwaits hstays

/-- At the end of the command every piece stands in DRAM as its image is, and none is marked. -/
theorem stamped_shows_all : (finish (stamped s t) (stamped s t)).rqe.marked = [] ∧
    ∀ k < 7, Shows k (finish (stamped s t) (stamped s t)) := by
  have hwaits := (stamped_spec (s := s) hm hk hi).2
  have hnone := stamped_unmarks_all (s := s) hm hk hi hall
  have hsettled : ∀ k ≤ 6, PieceSettled k (stamped s t) := fun k h6 =>
    stamped_settled hm hk (settleRqe_marked s t (hall k h6))
  generalize stamped s t = w at *
  have hmarked : (finish w w).rqe.marked = [] := by
    rw [finish_rqe, settleRqe_same hwaits]
    exact hnone
  refine ⟨hmarked, fun k h7 => ?_⟩
  have hin := (hsettled k (by omega)).finish (u := w) (by omega) rfl fun _ hj => hj
  refine hin.resolve_left fun hin => ?_
  rw [hmarked] at hin
  exact List.not_mem_nil hin

end Stamp

end Sys2Proof.Machine
end

section
/-! PROOFS. The mirrors written empty after a reset (R22, R139, R206; O60). -/

namespace Sys2Proof.Machine

set_option Elab.async false

/-! ### Areas cleared -/

theorem readCell_filter (p : Nat → Bool) (l : List Host.Cell) (a : Nat) :
    readCell (l.filter fun c => p c.1) a = if p a then readCell l a else 0 := by
  induction l with
  | nil => simp [readCell]
  | cons c l ih =>
    obtain ⟨k, v⟩ := c
    by_cases hk : p k
    · rw [List.filter_cons_of_pos (by exact hk), readCell, readCell, ih]
      by_cases ha : k = a
      · subst ha
        simp [hk]
      · simp [ha]
    · rw [List.filter_cons_of_neg (by exact hk), ih, readCell]
      by_cases ha : k = a
      · subst ha
        simp [hk]
      · simp [ha]

theorem Memory.byte_clear (m : Memory) (lo hi a : Nat) :
    (m.clear lo hi).byte a = if lo ≤ a ∧ a < hi then 0 else m.byte a := by
  refine (readCell_filter (fun k => !decide (lo ≤ k ∧ k < hi)) m.data a).trans ?_
  by_cases h : lo ≤ a ∧ a < hi <;> simp [h, Memory.byte]

theorem Memory.checkAt_clear (m : Memory) (lo hi a : Nat) :
    (m.clear lo hi).checkAt a = if lo ≤ a ∧ a < hi then 0 else m.checkAt a := by
  refine (readCell_filter (fun k => !decide (lo ≤ k ∧ k < hi)) m.check a).trans ?_
  by_cases h : lo ≤ a ∧ a < hi <;> simp [h, Memory.checkAt]

/-! ### Records -/

/-- What only writes DRAM, with an injection used up and the watch of a scrub step marked. -/
def Drawn (s t : State) : Prop := t.mem.wf = true ∧ ∃ m i st, t = withDram m i st s

theorem Drawn.trans {s t u : State} (h : Drawn s t) (k : Drawn t u) : Drawn s u := by
  obtain ⟨-, m, i, st, rfl⟩ := h
  obtain ⟨hw, n, j, su, rfl⟩ := k
  exact ⟨hw, n, j, su, rfl⟩

section Record

variable {a : Nat} {bs : List Byte} {s : State} (hm : s.mem.wf = true) (h8 : a % 8 = 0) (hl : bs.length % 8 = 0)
include hm h8 hl

theorem writeRecord_wrote : Drawn s (writeRecord a bs s) ∧
    Wrote false (cellsAt a bs) (codewordsOf a bs.length) s (writeRecord a bs s) := by
  obtain ⟨m, i, st, heq, hw⟩ := (codewordsOf_within h8 hl).written h8 hl hm
  rw [writeRecord, heq]
  exact ⟨⟨hw.wf, m, i, st, rfl⟩, hw⟩

theorem writeRecord_byte (h0 : bs ≠ []) (b : Nat) : (writeRecord a bs s).mem.byte b =
    if a ≤ b ∧ b < a + bs.length then bs.getD (b - a) 0 else s.mem.byte b := by
  obtain ⟨m, i, st, heq, -, hb⟩ := writeRecord_whole a bs s hm h8 hl h0
  rw [heq]
  exact hb b

theorem writeRecord_check {b : Nat} (hb : b < a ∨ a + bs.length ≤ b) :
    (writeRecord a bs s).mem.checkAt b = s.mem.checkAt b := by
  refine (writeRecord_wrote hm h8 hl).2.check_out b fun hin => ?_
  have := ((codewordsOf_within h8 hl).2 b).1 hin
  omega

end Record

/-! ### An empty shot table mirror entry -/

/-- An empty mirror entry shows its update number first and last (R206). -/
def entryByte (b : Nat) : Byte := if b = 0 ∨ b = 252 then 1 else 0

theorem emptyEntry_ends : ((mirrorEntry 1 none).take 8 = [1, 0, 0, 0, 0, 0, 0, 0]) ∧
    ((mirrorEntry 1 none).drop 248 = [0, 0, 0, 0, 1, 0, 0, 0]) := by decide

/-- The address of a shot table mirror entry. -/
def shotAddr (e : Nat) : Nat := 0x3F003000 + 256 * e

theorem writeEmptyEntry_eq (e : Nat) (s : State) : writeEmptyEntry e s =
    writeRecord (shotAddr e + 248) [0, 0, 0, 0, 1, 0, 0, 0] (writeRecord (shotAddr e) [1, 0, 0, 0, 0, 0, 0, 0] s) := by
  unfold writeEmptyEntry
  rw [emptyEntry_ends.1, emptyEntry_ends.2]
  rfl

theorem writeEmptyEntry_drawn (e : Nat) {s : State} (hm : s.mem.wf = true) : Drawn s (writeEmptyEntry e s) := by
  have ha : shotAddr e % 8 = 0 := by simp only [shotAddr]; omega
  rw [writeEmptyEntry_eq]
  have hone := (writeRecord_wrote (bs := [1, 0, 0, 0, 0, 0, 0, 0]) hm ha rfl).1
  exact hone.trans (writeRecord_wrote (a := shotAddr e + 248) hone.1 (by omega) rfl).1

/-- An entry whose area is zero is written. -/
theorem writeEmptyEntry_byte (e : Nat) {s : State} (hm : s.mem.wf = true) (a : Nat)
    (hz : shotAddr e ≤ a → a < shotAddr e + 256 → s.mem.byte a = 0) : (writeEmptyEntry e s).mem.byte a =
      if shotAddr e ≤ a ∧ a < shotAddr e + 256 then entryByte (a - shotAddr e) else s.mem.byte a := by
  have ha : shotAddr e % 8 = 0 := by simp only [shotAddr]; omega
  have hone := (writeRecord_wrote (bs := [1, 0, 0, 0, 0, 0, 0, 0]) hm ha rfl).1
  rw [writeEmptyEntry_eq, writeRecord_byte hone.1 (by omega) rfl (by simp), writeRecord_byte hm ha rfl (by simp)]
  simp only [List.length_cons, List.length_nil]
  by_cases h1 : shotAddr e + 248 ≤ a ∧ a < shotAddr e + 248 + 8
  · obtain ⟨k, hk⟩ : ∃ k, a = shotAddr e + 248 + k := ⟨a - (shotAddr e + 248), by omega⟩
    have hlt : k < 8 := by omega
    rw [if_pos (by omega), if_pos (by omega), show a - (shotAddr e + 248) = k by omega, show a - shotAddr e = 248 + k by omega]
    interval_cases k <;> rfl
  · rw [if_neg (by omega)]
    by_cases h2 : shotAddr e ≤ a ∧ a < shotAddr e + 8
    · obtain ⟨k, hk⟩ : ∃ k, a = shotAddr e + k := ⟨a - shotAddr e, by omega⟩
      have hlt : k < 8 := by omega
      rw [if_pos (by omega), if_pos (by omega), show a - shotAddr e = k by omega]
      interval_cases k <;> rfl
    · rw [if_neg (by omega)]
      by_cases h3 : shotAddr e ≤ a ∧ a < shotAddr e + 256
      · rw [if_pos h3, hz h3.1 h3.2, entryByte, if_neg (by omega)]
      · rw [if_neg h3]

theorem writeEmptyEntry_check (e : Nat) {s : State} (hm : s.mem.wf = true) {a : Nat}
    (h : a < shotAddr e ∨ shotAddr e + 256 ≤ a) : (writeEmptyEntry e s).mem.checkAt a = s.mem.checkAt a := by
  have ha : shotAddr e % 8 = 0 := by simp only [shotAddr]; omega
  have hone := (writeRecord_wrote (bs := [1, 0, 0, 0, 0, 0, 0, 0]) hm ha rfl).1
  rw [writeEmptyEntry_eq, writeRecord_check hone.1 (by omega) rfl (by simp only [List.length_cons, List.length_nil]; omega),
    writeRecord_check hm ha rfl (by simp only [List.length_cons, List.length_nil]; omega)]

/-- The empty entries of an area that is zero. -/
theorem writeEmptyEntries_spec (es : List Nat) (hes : es.Nodup) (h16 : ∀ e ∈ es, e < 16) {s : State}
    (hm : s.mem.wf = true) (hz : ∀ e ∈ es, ∀ b < 256, s.mem.byte (shotAddr e + b) = 0) :
    Drawn s (writeEmptyEntries es s) ∧
      (∀ e ∈ es, ∀ b < 256, (writeEmptyEntries es s).mem.byte (shotAddr e + b) = entryByte b) ∧
      (∀ a, (∀ e ∈ es, a < shotAddr e ∨ shotAddr e + 256 ≤ a) →
        (writeEmptyEntries es s).mem.byte a = s.mem.byte a ∧ (writeEmptyEntries es s).mem.checkAt a = s.mem.checkAt a) := by
  induction es generalizing s with
  | nil => exact ⟨⟨hm, s.mem, s.fmc.injection, s.fmc.scrub, rfl⟩, by simp, fun a _ => ⟨rfl, rfl⟩⟩
  | cons e es ih =>
    obtain ⟨hnot, hnodup⟩ := List.nodup_cons.1 hes
    have hone := writeEmptyEntry_drawn e hm
    have hbyte : ∀ a, (writeEmptyEntry e s).mem.byte a =
        if shotAddr e ≤ a ∧ a < shotAddr e + 256 then entryByte (a - shotAddr e) else s.mem.byte a := fun a =>
      writeEmptyEntry_byte e hm a fun hlo hhi => by
        have hzero := hz e List.mem_cons_self (a - shotAddr e) (by omega)
        rwa [show shotAddr e + (a - shotAddr e) = a by omega] at hzero
    have hapart : ∀ x ∈ es, ∀ b < 256, ¬ (shotAddr e ≤ shotAddr x + b ∧ shotAddr x + b < shotAddr e + 256) := by
      intro x hx b hb hin
      have hne : x ≠ e := fun he => hnot (he ▸ hx)
      simp only [shotAddr] at hin
      omega
    obtain ⟨hdrawn, hin, hout⟩ := ih hnodup (fun x hx => h16 x (List.mem_cons_of_mem _ hx)) hone.1 fun x hx b hb => by
      rw [hbyte, if_neg (hapart x hx b hb)]
      exact hz x (List.mem_cons_of_mem _ hx) b hb
    refine ⟨hone.trans hdrawn, fun x hx b hb => ?_, fun a ha => ?_⟩
    · rcases List.mem_cons.1 hx with rfl | hx
      · refine ((hout _ fun y hy => ?_).1.trans (hbyte _)).trans ?_
        · have := hapart y hy
          by_cases hlt : shotAddr x + b < shotAddr y
          · exact .inl hlt
          · refine .inr ?_
            by_contra hge
            refine this (shotAddr x + b - shotAddr y) (by omega) ⟨by omega, by omega⟩
        · rw [if_pos (by omega), Nat.add_sub_cancel_left]
      · exact hin x hx b hb
    · obtain ⟨h1, h2⟩ := hout a fun x hx => ha x (List.mem_cons_of_mem _ hx)
      have hself := ha e List.mem_cons_self
      refine ⟨h1.trans ((hbyte a).trans (if_neg (by omega))), h2.trans (writeEmptyEntry_check e hm hself)⟩

end Sys2Proof.Machine
end

section
/-! PROOFS. The start of the part after a reset, and the resets settled (R64, R65; O60). -/

namespace Sys2Proof.Machine

set_option Elab.async false

/-! ### The empty mirrors -/

theorem clearAreas_byte (s : State) (a : Nat) : (clearAreas s).mem.byte a =
    if (0x3F000000 ≤ a ∧ a < 0x3F001000) ∨ (0x3F003000 ≤ a ∧ a < 0x3F005000) then 0 else s.mem.byte a := by
  rw [clearAreas]
  simp only [Memory.byte_clear]
  simp only [Config.statusBase, Config.shotMirror, Config.errorMirror, Config.errorMirrorEnd]
  by_cases h1 : 0x3F004000 ≤ a ∧ a < 0x3F005000
  · rw [if_pos h1, if_pos (by omega)]
  · rw [if_neg h1]
    by_cases h2 : 0x3F003000 ≤ a ∧ a < 0x3F003000 + 0x1000
    · rw [if_pos h2, if_pos (by omega)]
    · rw [if_neg h2]
      by_cases h3 : 0x3F000000 ≤ a ∧ a < 0x3F000000 + 0x1000
      · rw [if_pos h3, if_pos (by omega)]
      · rw [if_neg h3, if_neg (by omega)]

theorem clearAreas_check (s : State) {a : Nat} (ha : a < 0x3F000000) : (clearAreas s).mem.checkAt a = s.mem.checkAt a := by
  rw [clearAreas]
  simp only [Memory.checkAt_clear]
  simp only [Config.statusBase, Config.shotMirror, Config.errorMirror, Config.errorMirrorEnd]
  rw [if_neg (by omega), if_neg (by omega), if_neg (by omega)]

theorem header_bytes : ∀ k < 32, (errorHeaderBytes 1 0 0).getD k 0 = if k = 0 then 1 else 0 := by decide

/-- The mirrors written empty: the status block and the error log mirror but for its update number zero, the shot table
mirror's entries with theirs. -/
structure Blank (s t : State) : Prop where
  drawn : Drawn s t
  status : ∀ b < 0x1000, t.mem.byte (0x3F000000 + b) = 0
  shots : ∀ e < 16, ∀ b < 256, t.mem.byte (0x3F003000 + 256 * e + b) = if b = 0 ∨ b = 252 then 1 else 0
  errors : ∀ b < 0x1000, t.mem.byte (0x3F004000 + b) = if b = 0 then 1 else 0
  frames : ∀ a < 0x3F000000, t.mem.byte a = s.mem.byte a ∧ t.mem.checkAt a = s.mem.checkAt a

theorem emptyMirrors_blank {s : State} (hm : s.mem.wf = true) : Blank s (emptyMirrors s) := by
  have hclear : Drawn s (clearAreas s) := ⟨clearAreas_wf hm, _, _, _, rfl⟩
  have hbyte := clearAreas_byte s
  have hcheck := fun a (ha : a < 0x3F000000) => clearAreas_check s ha
  unfold emptyMirrors
  generalize clearAreas s = u at hclear hbyte hcheck
  obtain ⟨hdrawn, hin, hout⟩ := writeEmptyEntries_spec (List.range 16) List.nodup_range
    (fun e he => List.mem_range.1 he) hclear.1 fun e he b hb => by
      have := List.mem_range.1 he
      rw [hbyte, shotAddr, if_pos (by omega)]
  generalize writeEmptyEntries (List.range 16) u = v at hdrawn hin hout
  have hlen : (errorHeaderBytes 1 0 0).length = 32 := length_errorHeaderBytes 1 0 0
  have hne : errorHeaderBytes 1 0 0 ≠ [] := fun h => by simp [h] at hlen
  have hheader : ∀ b, (writeRecord Config.errorMirror (errorHeaderBytes 1 0 0) v).mem.byte b =
      if 0x3F004000 ≤ b ∧ b < 0x3F004020 then (errorHeaderBytes 1 0 0).getD (b - 0x3F004000) 0 else v.mem.byte b := by
    intro b
    rw [writeRecord_byte hdrawn.1 (by decide) (by rw [hlen]) hne, hlen]
  have hapart : ∀ a, (a < 0x3F003000 ∨ 0x3F004000 ≤ a) → ∀ e ∈ List.range 16, a < shotAddr e ∨ shotAddr e + 256 ≤ a := by
    intro a ha e he
    have := List.mem_range.1 he
    simp only [shotAddr]
    omega
  refine ⟨(hclear.trans hdrawn).trans (writeRecord_wrote hdrawn.1 (by decide) (by rw [hlen])).1, fun b hb => ?_,
    fun e he b hb => ?_, fun b hb => ?_, fun a ha => ⟨?_, ?_⟩⟩
  · rw [hheader, if_neg (by omega), (hout _ (hapart _ (by omega))).1, hbyte, if_pos (by omega)]
  · rw [hheader, if_neg (by omega)]
    exact hin e (List.mem_range.2 he) b hb
  · rw [hheader]
    by_cases h32 : b < 32
    · rw [if_pos (by omega), show 0x3F004000 + b - 0x3F004000 = b by omega]
      exact header_bytes b h32
    · rw [if_neg (by omega), (hout _ (hapart _ (by omega))).1, hbyte, if_pos (by omega), if_neg (by omega)]
  · rw [hheader, if_neg (by omega), (hout a (hapart a (by omega))).1, hbyte, if_neg (by omega)]
  · rw [writeRecord_check hdrawn.1 (by decide) (by rw [hlen]) (.inl (by simp only [Config.errorMirror]; omega)),
      (hout a (hapart a (by omega))).2, hcheck a ha]

/-! ### The start -/

/-- The state in which the mirrors are marked, but for DRAM. -/
def mirrorsMarked (s : State) : State := { s with
  rqe := { s.rqe with updates := List.replicate 16 1, marked := pieceOrder }
  fmc := { s.fmc with logUpdate := 1 }
  dfm := { s.dfm with rewrite := some ⟨0, 8192⟩, sequence := wrapSucc s.dfm.sequence } }

theorem mirrorsMarked_onlyChanges (s : State) : OnlyChanges [.errors, .dfm] s (mirrorsMarked s) := by
  refine ⟨rfl, fun p hp hf => ?_⟩
  cases p <;> simp_all [Part.agree, mirrorsMarked, followUp]

theorem writeMirrors_eq {s : State} (hd : s.dfm.rewrite = none) {m : Memory} {i : Option (Nat × BitVec 8)} {st : Option ScrubStep}
    (h : emptyMirrors s = withDram m i st s) : writeMirrors s = withDram m i st (mirrorsMarked s) := by
  have hbegin : s.dfm.beginRewrite 0 Config.mapLimit =
      { s.dfm with rewrite := some ⟨0, 8192⟩, sequence := wrapSucc s.dfm.sequence } := by
    rw [Dfm.beginRewrite, if_neg (by decide), hd]
  unfold writeMirrors markMirrors
  rw [h]
  show ({ withDram m i st s with
    rqe := { s.rqe with updates := List.replicate 16 1, marked := pieceOrder }
    fmc := { (withDram m i st s).fmc with logUpdate := 1 }
    dfm := s.dfm.beginRewrite 0 Config.mapLimit } : State) = _
  rw [hbegin]
  rfl

/-- The mirrors after a reset, from a state with no rewrite. -/
theorem writeMirrors_spec {s : State} (hm : s.mem.wf = true) (hd : s.dfm.rewrite = none) :
    ∃ m i st, writeMirrors s = withDram m i st (mirrorsMarked s) ∧ Blank s (withDram m i st s) := by
  have hblank := emptyMirrors_blank hm
  obtain ⟨-, m, i, st, heq⟩ := hblank.drawn
  rw [heq] at hblank
  exact ⟨m, i, st, writeMirrors_eq hd heq, hblank⟩

/-- The part once it has started: what DRAM shows, and the rewrite of the map begun (R64, R65). -/
structure Started (s t : State) : Prop where
  hmp : t.hmp.path = s.hmp.path
  held : t.resetHeld = s.resetHeld
  updates : t.rqe.updates = List.replicate 16 1
  logUpdate : t.fmc.logUpdate = 1
  rewrite : t.dfm.rewrite = some ⟨0, 8192⟩
  sequence : t.dfm.sequence = (s.dfm.sequence + 1) % 4294967296
  path : t.mem.byte 0x3F000004 = byteOf s.hmp.path.code
  cause : t.mem.byte 0x3F000002 = byteOf s.rqe.resetCause.code
  shows : ∀ k < 7, Shows k t
  marked : t.rqe.marked = []
  status : ∀ b, 0x1C0 ≤ b → b < 0x1000 → t.mem.byte (0x3F000000 + b) = 0
  shots : ∀ e b, e < 16 → b < 256 → t.mem.byte (0x3F003000 + 256 * e + b) = if b = 0 ∨ b = 252 then 1 else 0
  errors : ∀ b, b < 0x1000 → t.mem.byte (0x3F004000 + b) = if b = 0 then 1 else 0
  frames : ∀ a < 0x3F000000, t.mem.byte a = s.mem.byte a ∧ t.mem.checkAt a = s.mem.checkAt a
  scrubPos : t.fmc.scrubPos = s.fmc.scrubPos
  frame : OnlyChanges [.mem, .injection, .scrubber, .errors, .dfm, .flags] s t

/-- The start of the part, from the state `u` that its event makes of `s`. -/
theorem startUp_spec {s u : State} {f : State → State} (hf : f s = u) (hm : u.mem.wf = true) (hd : u.dfm.rewrite = none)
    (hstb : u.stb = s.stb) (hv : u.rqe.service = none) (hw : u.hmp.waiting = []) :
    ∃ t, startUp s f = t ∧ Started u t := by
  obtain ⟨m, i, st, hwrite, hblank⟩ := writeMirrors_spec hm hd
  obtain ⟨v, hv0⟩ : ∃ v, v = withDram m i st (mirrorsMarked u) := ⟨_, rfl⟩
  have hvmem : v.mem = m := by rw [hv0]; rfl
  have hvrqe : v.rqe = { u.rqe with updates := List.replicate 16 1, marked := pieceOrder } := by rw [hv0]; rfl
  have hvhmp : v.hmp = u.hmp := by rw [hv0]; rfl
  have hvstb : v.stb = s.stb := by rw [hv0]; exact hstb
  have hvheld : v.resetHeld = u.resetHeld := by rw [hv0]; rfl
  have hvdfm : v.dfm = { u.dfm with rewrite := some ⟨0, 8192⟩, sequence := wrapSucc u.dfm.sequence } := by rw [hv0]; rfl
  have hvlog : v.fmc.logUpdate = 1 := by rw [hv0]; rfl
  have hvscrub : v.fmc.scrubPos = u.fmc.scrubPos := by rw [hv0]; rfl
  have hvframe : OnlyChanges [.mem, .injection, .scrubber, .errors, .dfm, .flags] u v := by
    rw [hv0]
    exact ((mirrorsMarked_onlyChanges u).mono (by simp)).trans ((withDram_frame m i st _).mono (by simp))
  have hvm : v.mem.wf = true := by rw [hvmem]; exact hblank.drawn.1
  have hk : ∀ k ∈ v.rqe.marked, k ≤ 6 := by
    rw [hvrqe]
    show ∀ k ∈ pieceOrder, k ≤ 6
    decide
  have hi : v.rqe.idle := fun x a h hx => by rw [hvrqe] at hx; exact absurd (hx.symm.trans hv) (by simp)
  have hall : ∀ k ≤ 6, k ∈ v.rqe.marked := by
    rw [hvrqe]
    intro k h6
    show k ∈ pieceOrder
    interval_cases k <;> decide
  obtain ⟨⟨ks, -, hst⟩, hwaits⟩ := stamped_spec (s := s) hvm hk hi
  obtain ⟨hmarked, hshows⟩ := stamped_shows_all (s := s) hvm hk hi hall
  have hframe := stamped_frame (s := s) hvm hk hi
  obtain ⟨hcause, -, hpath⟩ := stamped_head (s := s) hvm (settleRqe_marked s v (hall 0 (by omega)))
  have hupdates : (settleRqe s v).updates = List.replicate 16 1 := (settleRqe_updates hvstb).trans (by rw [hvrqe])
  have hdesk := settleRqe_desk s v
  obtain ⟨n, j, su, q, hweq⟩ := hst.eq
  have hstart : startUp s f = finish (stamped s v) (admitWaiting (stamped s v)) := by
    rw [startUp, writtenEvent_eq, hf, hwrite, ← hv0]
  generalize settleRqe s v = r at hst hupdates hdesk hweq
  generalize stamped s v = w at *
  have hwhmp : w.hmp = u.hmp := by rw [hweq]; exact hvhmp
  have hwcause : w.rqe.resetCause = u.rqe.resetCause := by
    rw [hst.desk.resetCause]
    exact hdesk.resetCause.trans (by rw [hvrqe])
  have hwfmc : w.fmc.logUpdate = 1 ∧ w.fmc.scrubPos = u.fmc.scrubPos := by
    rw [hweq]
    exact ⟨hvlog, hvscrub⟩
  have hwdfm : w.dfm = { u.dfm with rewrite := some ⟨0, 8192⟩, sequence := wrapSucc u.dfm.sequence } := by
    rw [hweq]
    exact hvdfm
  have hbyte : ∀ a, a < 0x3F000000 ∨ 0x3F0001C0 ≤ a → w.mem.byte a = m.byte a := fun a ha =>
    (hst.byte_out a ha).trans (congrArg (fun x => Memory.byte x a) hvmem)
  have hcheck : ∀ a, a < 0x3F000000 ∨ 0x3F0001C0 ≤ a → w.mem.checkAt a = m.checkAt a := fun a ha =>
    (hst.check_out a ha).trans (congrArg (fun x => Memory.checkAt x a) hvmem)
  rw [admitWaiting_none (by rw [hwhmp]; exact hw)] at hstart
  rw [hwhmp] at hpath
  rw [hwcause] at hcause
  refine ⟨_, hstart, ?_, ?_, ?_, ?_, ?_, ?_, ?_, ?_, hshows, hmarked, ?_, ?_, ?_, ?_, ?_,
    (hvframe.trans (hframe.mono (by simp))).finish w⟩
  · rw [finish_hmp_path, hwhmp]
  · rw [finish_resetHeld, hweq]
    exact hvheld
  · rw [finish_rqe, settleRqe_same hwaits, hst.updates]
    exact hupdates
  · rw [finish_fmc_logUpdate, hwfmc.1]
  · rw [finish_dfm, hwdfm]
  · rw [finish_dfm, hwdfm]
    rfl
  · rw [finish_mem, hpath]
  · rw [finish_mem, hcause]
  · intro b h1 h2
    rw [finish_mem, hbyte _ (by omega)]
    exact hblank.status b h2
  · intro e b he hb
    rw [finish_mem, hbyte _ (by omega)]
    exact hblank.shots e he b hb
  · intro b hb
    rw [finish_mem, hbyte _ (by omega)]
    exact hblank.errors b hb
  · intro a ha
    rw [finish_mem, hbyte a (.inl ha), hcheck a (.inl ha)]
    exact hblank.frames a ha
  · rw [finish_fmc_scrubPos, hwfmc.2]

/-! ### The statement -/

theorem released_onlyChanges (s : State) : OnlyChanges [.resetHeld] s { s with resetHeld := false } := by
  refine ⟨rfl, fun p hp hf => ?_⟩
  cases p <;> simp_all [Part.agree, followUp]

/-- The state once the fill has ended. -/
def filledUp (s : State) : State :=
  { s with mem := Memory.filled, fmc := { s.fmc with scrubPos := 0 }, hmp := { s.hmp with path := .run } }

theorem filledUp_onlyChanges (s : State) : OnlyChanges [.path, .mem, .scrubber] s (filledUp s) := by
  refine ⟨rfl, fun p hp hf => ?_⟩
  cases p <;> simp_all [Part.agree, filledUp, followUp]

/-- Settles O60: the reset values by the model's own record, and the start by the writes of the mirrors and of every piece
of the status block. -/
theorem resets : Obligations.Resets := by
  unfold Obligations.Resets
  intro s
  refine ⟨rfl, ?_, fun hs hp => ?_, fun hm => ?_⟩
  · refine ⟨_, rfl, rfl, rfl, rfl, rfl, rfl, rfl, rfl, rfl, rfl, rfl, rfl, rfl, rfl, rfl, fun hp => ?_, fun hp => ?_⟩
    · simp only [pinReset, hp, beq_self_eq_true, if_true]
      exact ⟨rfl, rfl⟩
    · have hne : (s.hmp.path == .filling) = false := by simpa using hp
      simp only [pinReset, hne, Bool.false_eq_true, if_false]
      exact ⟨rfl, rfl⟩
  · have hfill : releaseReset s = { s with resetHeld := false } := if_pos hp
    have hexec : exec .pinResetRelease s = .next (releaseReset s) := congrArg Host.Outcome.next (if_pos hs)
    rw [hexec, hfill]
  intro started others hrecords hd hv hw hj
  refine ⟨fun hs hp => ?_, fun hs hp => ?_⟩
  · obtain ⟨t, hto, h⟩ := startUp_spec (s := { s with resetHeld := false }) (f := id) rfl hm hd rfl hv hw
    have hexec : exec .pinResetRelease s = .next t := by
      have hrelease : releaseReset s = startUp { s with resetHeld := false } id := if_neg (by simp [hp])
      exact (congrArg Host.Outcome.next (if_pos hs)).trans (by rw [hrelease, hto])
    refine ⟨t, hexec, ⟨h.hmp.trans hp, h.held, h.updates, h.logUpdate, h.rewrite, h.sequence, ?_, h.cause, h.shows, h.marked,
      h.status, h.shots, h.errors⟩, fun a ha => (h.frames a ha).1, ?_⟩
    · exact h.path.trans (congrArg (fun p => byteOf p.code) hp)
    · exact ((released_onlyChanges s).mono (by simp)).trans (h.frame.mono (by simp [others]))
  · obtain ⟨t, hto, h⟩ := startUp_spec (s := s) (u := filledUp s) (f := filledUp) rfl rfl hd rfl hv hw
    have hexec : exec .fillComplete s = .next t := by
      have hdone : fillDone s = startUp s filledUp := if_pos hp
      exact (congrArg Host.Outcome.next (if_neg (by simp [hs]))).trans (by rw [hdone, hto])
    refine ⟨t, hexec, ⟨h.hmp, h.held.trans hs, h.updates, h.logUpdate, h.rewrite, h.sequence, h.path, h.cause, h.shows, h.marked,
      h.status, h.shots, h.errors⟩, h.frames, h.scrubPos, ?_⟩
    exact ((filledUp_onlyChanges s).mono (by simp [others])).trans (h.frame.mono (by simp [others]))

end Sys2Proof.Machine
end

section
/-! PROOFS. One capture beat, alone in its burst, as a step (R87, R94, R106; O46). -/

namespace Sys2Proof.Machine

set_option Elab.async false

/-! ### What the end of a command hands to the FMC -/

theorem presentMirror_adds (s : State) :
    ∃ ts, (presentMirror s).fmc.pending = s.fmc.pending ++ ts ∧ ∀ x ∈ ts, x.kind ≠ .captureWrite ∧ x.kind ≠ .slotRead := by
  have hnone : ∃ ts, s.fmc.pending = s.fmc.pending ++ ts ∧ ∀ x ∈ ts, x.kind ≠ TxnKind.captureWrite ∧ x.kind ≠ TxnKind.slotRead :=
    ⟨[], (List.append_nil _).symm, by simp⟩
  unfold presentMirror
  split
  · exact hnone
  · split
    · exact hnone
    · exact ⟨[_], rfl, by simp⟩

theorem presentMap_adds (s : State) :
    ∃ ts, (presentMap s).fmc.pending = s.fmc.pending ++ ts ∧ ∀ x ∈ ts, x.kind ≠ .captureWrite ∧ x.kind ≠ .slotRead := by
  have hnone : ∃ ts, s.fmc.pending = s.fmc.pending ++ ts ∧ ∀ x ∈ ts, x.kind ≠ TxnKind.captureWrite ∧ x.kind ≠ TxnKind.slotRead :=
    ⟨[], (List.append_nil _).symm, by simp⟩
  unfold presentMap
  split
  · exact hnone
  · split
    · exact hnone
    · exact ⟨[_], rfl, by simp⟩

theorem releaseReads_adds (s : State) :
    ∃ ts, (releaseReads s).fmc.pending = s.fmc.pending ++ ts ∧ ∀ x ∈ ts, x.kind ≠ .captureWrite ∧ x.kind ≠ .slotRead := by
  refine ⟨_, rfl, fun x hx => ?_⟩
  obtain ⟨r, -, rfl⟩ := List.mem_map.1 hx
  exact ⟨by simp, by simp⟩

theorem stopMonitor_fmc (s : State) : (stopMonitor s).fmc = s.fmc := by
  unfold stopMonitor
  split <;> rfl

/-- The end of a command adds transactions of the part and reads of the host, and no word of a readout or read of a slot. -/
theorem finish_adds (b u : State) :
    ∃ ts, (finish b u).fmc.pending = u.fmc.pending ++ ts ∧ ∀ x ∈ ts, x.kind ≠ .captureWrite ∧ x.kind ≠ .slotRead := by
  rw [finish, stopMonitor_fmc]
  unfold presentWork
  split
  · obtain ⟨ts, hts, hkind⟩ := presentMirror_adds { u with rqe := settleRqe b u }
    obtain ⟨vs, hvs, hkind'⟩ := presentMap_adds (presentMirror { u with rqe := settleRqe b u })
    obtain ⟨rs, hrs, hkind''⟩ := releaseReads_adds (presentMap (presentMirror { u with rqe := settleRqe b u }))
    refine ⟨ts ++ (vs ++ rs), ?_, fun x hx => ?_⟩
    · rw [hrs, hvs, hts, List.append_assoc, List.append_assoc]
    · rcases List.mem_append.1 hx with hx | hx
      · exact hkind x hx
      · exact (List.mem_append.1 hx).elim (hkind' x) (hkind'' x)
  · exact ⟨[], (List.append_nil _).symm, by simp⟩

/-! ### The runs of words as transactions (R90) -/

def runTxns (runs : List WordRun) : List Txn :=
  runs.flatMap fun l => if l.cells = [] then [] else [⟨.captureWrite, l.addr, l.next - l.addr, l.cells, l.parity⟩]

theorem presentAll_nil (s : State) : presentAll [] s = s := by simp [presentAll]

theorem presentAll_append (ts us : List Txn) (s : State) : presentAll us (presentAll ts s) = presentAll (ts ++ us) s := by
  simp [presentAll]

theorem presentRuns_eq (runs : List WordRun) (s : State) : presentRuns runs s = presentAll (runTxns runs) s := by
  induction runs generalizing s with
  | nil => exact (presentAll_nil s).symm
  | cons l ls ih =>
    have hcons : runTxns (l :: ls) =
        (if l.cells = [] then [] else [⟨.captureWrite, l.addr, l.next - l.addr, l.cells, l.parity⟩]) ++ runTxns ls := rfl
    rw [presentRuns, ih, hcons, ← presentAll_append]
    split
    · rw [presentAll_nil]
    · rfl

theorem runTxns_append (xs ys : List WordRun) : runTxns (xs ++ ys) = runTxns xs ++ runTxns ys := List.flatMap_append

/-- A word that does not go on with a run makes a run of its own. -/
theorem addWord_after {runs : List WordRun} (h : ∀ l ∈ runs, l.closed = true) (addr : Nat) (cells : List Host.Cell)
    (parity closed : Bool) : addWord addr cells parity closed runs = runs ++ [⟨addr, addr + 4, cells, parity, closed⟩] := by
  unfold addWord
  split
  next l hl =>
    rw [h l (List.mem_of_getLast? hl)]
    rfl
  next hl =>
    rw [List.getLast?_eq_none_iff.1 hl]
    rfl

/-- The transaction of a word. -/
def wordTxn (addr : Nat) (cells : List Host.Cell) (parity : Bool) : List Txn :=
  if cells = [] then [] else [⟨.captureWrite, addr, 4, cells, parity⟩]

theorem runTxns_word (addr : Nat) (cells : List Host.Cell) (parity closed : Bool) :
    runTxns [⟨addr, addr + 4, cells, parity, closed⟩] = wordTxn addr cells parity := by
  simp [runTxns, wordTxn]

theorem wordTxn_of {cells : List Host.Cell} (h : cells ≠ []) (addr : Nat) (parity : Bool) :
    wordTxn addr cells parity = [⟨.captureWrite, addr, 4, cells, parity⟩] := if_neg h

/-- The waiting word's run as transactions. -/
theorem runTxns_held (s : State) (o : Readout) : runTxns (heldRuns s o) = releasedWord s o := by
  have h := (presentRuns_eq (heldRuns s o) s).symm.trans (presentRuns_held s o)
  exact List.append_cancel_left (congrArg (fun t : State => t.fmc.pending) h)

theorem heldRuns_closed (s : State) (o : Readout) : ∀ l ∈ heldRuns s o, l.closed = true := by
  unfold heldRuns
  split
  · simp
  · simp

/-! ### The step -/

/-- One capture beat of an open readout, alone in the only posted burst, at its offset in the slot. -/
structure CaptureAlone (s : State) (p : Posted) (b : PostedBeat) (o : Readout) (off : Nat) : Prop where
  held : s.resetHeld = false
  path : s.hmp.path = .run ∨ s.hmp.path = .entering
  queue : s.hmp.queue = [p]
  delivered : p.delivered = false
  waiting : s.hmp.waiting = []
  beats : p.beats = [b]
  live : b.enables ≠ 0
  readout : s.pce.readout = some o
  ending : o.ending = none
  state : s.stb.stateAt b.addr = some .readout
  addr : b.addr = s.stb.slotBase o.slot + off

/-- The readout's idle timer starts again at the burst's arrival (R107). -/
def timed (s : State) (o : Readout) : State := withPce ⟨some o, some (o.image.idleLimit * 1000)⟩ s

section Step

variable {s : State} {p : Posted} {b : PostedBeat} {o : Readout} {off : Nat}

theorem CaptureAlone.timed_eq (h : CaptureAlone s p b o off) : restartIdle s = timed s o := by
  rw [restartIdle_of h.readout h.ending, timed, ← h.readout]

theorem CaptureAlone.offset (h : CaptureAlone s p b o off) : s.stb.offsetIn o.slot b.addr = off := by
  rw [Stb.offsetIn, h.addr, Nat.add_sub_cancel_left]

/-- The beat needs no dark offset, or the readout has it. -/
def OffsetThere (o : Readout) (off : Nat) : Prop := o.dark ≠ none ∨ ¬ (off < o.image.frameBytes ∧ o.cursor ≤ off ∧
  2 * o.image.masked ≤ off % o.image.pitch ∧ off % o.image.pitch < 2 * (o.image.masked + o.image.width))

/-- The delivery is the handling of the beat by itself. -/
theorem CaptureAlone.exec_eq (h : CaptureAlone s p b o off) (hd : OffsetThere o off) :
    exec .writeBurstDelivery s = .next (finish s (withQueue [] (takeCapture p.parity [b] (timed s o)))) := by
  have hclass : ∀ c ∈ [b], classifyBeat s.stb c.addr = .capture := by
    intro c hc
    rw [List.mem_singleton.1 hc]
    exact (classify_capture_iff s.stb b.addr).2 ⟨not_owned_of_slot h.state, h.state⟩
  obtain ⟨hcap, hpass, hguard⟩ := captures_alone (p := p) [b] hclass (by simpa using h.live)
  have hp : { p with beats := [b] } = p := by rw [← h.beats]
  rw [hp] at hcap hpass hguard
  have hsame : passedOn p s = s := passedOn_unguarded hguard hpass
  have hneeds : ¬ (∃ c ∈ [b], NeedsOffset s.stb o c) ↔ ¬ (off < o.image.frameBytes ∧ o.cursor ≤ off ∧
      2 * o.image.masked ≤ off % o.image.pitch ∧ off % o.image.pitch < 2 * (o.image.masked + o.image.width)) := by
    simp only [List.mem_singleton, exists_eq_left, NeedsOffset, h.addr, Nat.add_sub_cancel_left]
  have haccepts : accepts (restartIdle s) [b] = true :=
    (accepts_iff h.readout h.ending [b]).2 (hd.imp_right hneeds.2)
  have harrive : arriveCapture p.parity (p.ofClass s.stb .capture) (passedOn p s) = (takeCapture p.parity [b] (timed s o), []) := by
    rw [hsame, hcap, arriveCapture_taken (by simp) _ haccepts, h.timed_eq]
  have hhandled : Handled (passedOn p s) (takeCapture p.parity [b] (timed s o)) := by
    rw [hsame, ← h.timed_eq]
    exact (restartIdle_handled s).trans (takeCapture_handled _ _ _)
  rw [delivery_step h.held h.path h.queue h.delivered h.waiting harrive hhandled, hpass]
  rfl

/-- What the beat has made of the readout before its words are presented. -/
theorem CaptureAlone.takeCapture_eq (h : CaptureAlone s p b o off) {v : State} {q : Readout} {runs : List WordRun}
    (hw : takeBeatAt p.parity b ⟨timed s o, o, []⟩ off = ⟨v, q, runs⟩) :
    takeCapture p.parity [b] (timed s o) =
      (let u := withPce { v.pce with readout := some q } (presentAll (runTxns runs) v)
       if q.image.frameBytes ≤ q.cursor then endReadout false q u else u) := by
  have hoff : (timed s o).stb.offsetIn o.slot b.addr = off := h.offset
  have htake : takeBeats p.parity [b] ⟨timed s o, o, []⟩ = ⟨v, q, runs⟩ := by
    rw [takeBeats, takeBeats, takeBeat_eq]
    exact (congrArg _ hoff).trans hw
  have hr : (timed s o).pce.readout = some o := rfl
  rw [Machine.takeCapture_eq, hr]
  simp only [h.ending, htake, presentRuns_eq]
  rfl

/-- The readout's parts a beat leaves while the readout goes on: its words presented, the cursor short of the frame's end. -/
structure Took (s : State) (q : Readout) (words : List Txn) (d : Dfm) (t : State) : Prop where
  queue : t.hmp.queue = []
  pce : t.pce = ⟨some q, some (q.image.idleLimit * 1000)⟩
  dfm : t.dfm = d
  pending : ∃ more, t.fmc.pending = s.fmc.pending ++ words ++ more ∧ ∀ x ∈ more, x.kind ≠ .captureWrite
  frame : OnlyChanges [.posted, .pce, .dfm] s t

theorem Took.hands (h : Took s q words d t) {x : Txn} (hx : x ∈ words) : x ∈ t.fmc.pending := by
  obtain ⟨more, hmore, -⟩ := h.pending
  rw [hmore]
  exact List.mem_append_left _ (List.mem_append_right _ hx)

theorem Took.handsNothing (h : Took s q [] d t) {x : Txn} (hx : x ∈ t.fmc.pending) (hk : x.kind = .captureWrite) :
    x ∈ s.fmc.pending := by
  obtain ⟨more, hmore, hkind⟩ := h.pending
  rw [hmore, List.append_nil] at hx
  exact (List.mem_append.1 hx).resolve_right fun hx => hkind x hx hk

/-- A beat after which the readout goes on, and the state its handling leaves. -/
theorem CaptureAlone.goes_on (h : CaptureAlone s p b o off) (hd : OffsetThere o off) {v : State} {q : Readout}
    {runs : List WordRun} (hw : takeBeatAt p.parity b ⟨timed s o, o, []⟩ off = ⟨v, q, runs⟩)
    (hcur : q.cursor < q.image.frameBytes) (himage : q.image = o.image) (hv : OnlyChanges [.pce, .dfm] s v)
    (hpce : v.pce = (timed s o).pce) (hfmc : v.fmc = s.fmc) :
    ∃ t, exec .writeBurstDelivery s = .next t ∧ Took s q (runTxns runs) v.dfm t ∧
      ∀ f, { flag := f, hold := none } ∈ v.rqe.raises → Raised f t := by
  have hexec := h.exec_eq hd
  rw [h.takeCapture_eq hw] at hexec
  dsimp only at hexec
  rw [if_neg (by omega)] at hexec
  obtain ⟨ts, hts, hkind⟩ :=
    finish_adds s (withQueue [] (withPce { v.pce with readout := some q } (presentAll (runTxns runs) v)))
  refine ⟨_, hexec, ⟨finish_hmp_queue _ _, ?_, finish_dfm _ _, ⟨ts, ?_, fun x hx => (hkind x hx).1⟩, ?_⟩, fun f hf => finish_raised _ _ hf⟩
  · rw [finish_pce, himage]
    change ({ v.pce with readout := some q } : Pce) = _
    rw [hpce]
    rfl
  · rw [hts]
    change (v.fmc.pending ++ runTxns runs) ++ ts = _
    rw [hfmc]
  · exact ((((hv.within (ps := [.posted, .pce, .dfm])).andThen (presentAll_onlyChanges _ v)).pce _).andThen
      (withQueue_onlyChanges [] _)).finish s

/-- The same of a beat that changes no more than the map. -/
theorem CaptureAlone.took (h : CaptureAlone s p b o off) (hd : OffsetThere o off) {d : Dfm} {q : Readout}
    {runs : List WordRun} (hw : takeBeatAt p.parity b ⟨timed s o, o, []⟩ off = ⟨withDfm d (timed s o), q, runs⟩)
    (hcur : q.cursor < q.image.frameBytes) (himage : q.image = o.image) :
    ∃ t, exec .writeBurstDelivery s = .next t ∧ Took s q (runTxns runs) d t := by
  have hv : OnlyChanges [.pce, .dfm] s (withDfm d (timed s o)) := ((OnlyChanges.refl _ s).pce _).dfm _
  obtain ⟨t, ht, htook, -⟩ := h.goes_on hd hw hcur himage hv rfl rfl
  exact ⟨t, ht, htook⟩

/-- A beat that takes the cursor to the frame's end. -/
theorem CaptureAlone.ends (h : CaptureAlone s p b o off) (hd : OffsetThere o off) {d : Dfm} {q : Readout}
    {runs : List WordRun} (hw : takeBeatAt p.parity b ⟨timed s o, o, []⟩ off = ⟨withDfm d (timed s o), q, runs⟩)
    (hcur : q.image.frameBytes ≤ q.cursor) :
    exec .writeBurstDelivery s = .next (finish s (withQueue [] (endReadout false q
      (withPce ⟨some q, some (o.image.idleLimit * 1000)⟩ (presentAll (runTxns runs) (withDfm d s)))))) := by
  have hexec := h.exec_eq hd
  rw [h.takeCapture_eq hw] at hexec
  dsimp only at hexec
  rw [if_pos hcur] at hexec
  exact hexec

end Step

end Sys2Proof.Machine
end

section
/-! PROOFS. How far a beat moves the readout, and what a beat of masked columns, a pad beat, and one behind the cursor or
beyond the frame make of it (R87 to R91, R103). -/

namespace Sys2Proof.Machine

set_option Elab.async false

section Reach

variable {s : State} {o : Readout} {off line : Nat}

/-! ### The words passed over (R88, R103) -/

theorem countSettled_gaps (s : State) (o : Readout) (line : Nat) (st : Stats) (x : Nat) (left : Option Nat) (p : PixelSlot)
    (n : Nat) : countSettled s o line { st with gaps := n } x left p =
      { countSettled s o line st x left p with gaps := n } := by
  unfold countSettled
  split <;> rfl

theorem countSettled_partials (s : State) (o : Readout) (line : Nat) (st : Stats) (x : Nat) (left : Option Nat)
    (p : PixelSlot) : (countSettled s o line st x left p).partials = st.partials := by
  unfold countSettled
  split <;> rfl

theorem releasedStats_gaps (s : State) (o : Readout) (n : Nat) :
    releasedStats s { o with stats := { o.stats with gaps := n } } = { releasedStats s o with gaps := n } := by
  obtain hw | ⟨h, hw⟩ := Option.eq_none_or_eq_some o.wait
  · rw [releasedStats_of_none hw]
    exact releasedStats_of_none (o := { o with stats := { o.stats with gaps := n } }) hw
  · rw [releasedStats_of_some hw]
    refine (releasedStats_of_some (o := { o with stats := { o.stats with gaps := n } }) hw).trans ?_
    have hfirst := countSettled_gaps s o h.line o.stats h.x h.leftEven h.even n
    exact (congrArg (fun st => countSettled s o h.line st (h.x + 1) h.leftOdd h.odd) hfirst).trans
      (countSettled_gaps s o h.line _ (h.x + 1) h.leftOdd h.odd n)

theorem releasedStats_partials (s : State) (o : Readout) : (releasedStats s o).partials = o.stats.partials := by
  rcases hw : o.wait with _ | h
  · rw [releasedStats_of_none hw]
  · rw [releasedStats_of_some hw, countSettled_partials, countSettled_partials]

/-- The readout with its cursor moved on to `upTo`, past words that count as gaps. -/
def Readout.jumped (s : State) (o : Readout) (upTo : Nat) : Readout :=
  { o with cursor := upTo, wait := none, stats := { releasedStats s o with
      gaps := min 4294967295 (o.stats.gaps + (upTo - o.cursor) / 4) } }

theorem jump_alone {upTo : Nat} (h : o.cursor < upTo) :
    (⟨s, o, []⟩ : Work).jump upTo = ⟨s, o.jumped s upTo, heldRuns s o⟩ := by
  have hstats := releasedStats_gaps s o (min 4294967295 (o.stats.gaps + (upTo - o.cursor) / 4))
  have hrelease := release_alone s
    { o with stats := { o.stats with gaps := min 4294967295 (o.stats.gaps + (upTo - o.cursor) / 4) } }
  rw [hstats] at hrelease
  refine (if_pos h).trans ?_
  exact congrArg (fun w : Work => (⟨w.s, { w.r with cursor := upTo }, w.runs⟩ : Work)) hrelease

theorem jump_stays {upTo : Nat} (h : upTo ≤ o.cursor) : (⟨s, o, []⟩ : Work).jump upTo = ⟨s, o, []⟩ :=
  if_neg (Nat.not_lt.2 h)

/-- The readout at a beat it takes. -/
def Readout.reached (s : State) (o : Readout) (off : Nat) : Readout :=
  if o.cursor < off then o.jumped s off else o

/-- The words a readout hands on before the beat at `off`. -/
def wordsBefore (s : State) (o : Readout) (off : Nat) : List WordRun := if o.cursor < off then heldRuns s o else []

theorem reach_alone (s : State) (o : Readout) (off line : Nat) : (⟨s, o, []⟩ : Work).reach off line =
    ⟨withDfm (s.dfm.toLine line) s, { o.reached s off with cursor := off + 4 }, wordsBefore s o off⟩ := by
  unfold Work.reach Readout.reached wordsBefore
  by_cases h : o.cursor < off
  · rw [if_pos h, if_pos h, jump_alone h]
    rfl
  · rw [if_neg h, if_neg h, jump_stays (Nat.not_lt.1 h)]
    rfl

theorem reached_image (s : State) (o : Readout) (off : Nat) : (o.reached s off).image = o.image := by
  unfold Readout.reached
  split <;> rfl

theorem wordsBefore_closed (s : State) (o : Readout) (off : Nat) : ∀ l ∈ wordsBefore s o off, l.closed = true := by
  unfold wordsBefore
  split
  · exact heldRuns_closed s o
  · simp

theorem runTxns_before (s : State) (o : Readout) (off : Nat) :
    runTxns (wordsBefore s o off) = if o.cursor < off then releasedWord s o else [] := by
  unfold wordsBefore
  split
  · exact runTxns_held s o
  · rfl

/-- A word handed on after the waiting one. -/
theorem runTxns_after (s : State) (o : Readout) (off addr : Nat) (cells : List Host.Cell) (parity closed : Bool) :
    runTxns (addWord addr cells parity closed (wordsBefore s o off)) =
      (if o.cursor < off then releasedWord s o else []) ++ wordTxn addr cells parity := by
  rw [addWord_after (wordsBefore_closed s o off), runTxns_append, runTxns_before, runTxns_word]

/-! ### The map at the beat's line (R121, R125) -/

theorem toLine_noInsertions {d : Dfm} (h : d.firstIns = none) (line : Nat) :
    d.toLine line = { d with insLine := line, cursor := d.entries.countP fun e => decide (e.row < line) } := by
  have hend : d.endLine = d := by rw [Dfm.endLine, h]
  unfold Dfm.toLine
  rw [hend, ite_self]

theorem toLine_sameLine {d : Dfm} (h : line ≤ d.insLine) :
    d.toLine line = { d with insLine := line, cursor := d.entries.countP fun e => decide (e.row < line) } := by
  unfold Dfm.toLine
  rw [if_neg (Nat.not_lt.2 h)]

/-- The rewrite at the end of a line with insertions. -/
theorem endLine_begins {d : Dfm} {k : Nat} (h : d.firstIns = some k) (hk : k < d.entries.length) (hr : d.rewrite = none) :
    d.endLine = { d with firstIns := none, rewrite := some ⟨k, d.entries.length⟩,
                         sequence := (d.sequence + 1) % 4294967296 } := by
  rw [Dfm.endLine, h]
  simp only [Dfm.beginRewrite, if_neg (Nat.not_le.2 hk), hr]
  rfl

theorem toLine_nextLine {d : Dfm} {k : Nat} (h : d.firstIns = some k) (hline : d.insLine < line) (hk : k < d.entries.length)
    (hr : d.rewrite = none) : d.toLine line = { d with
      firstIns := none, rewrite := some ⟨k, d.entries.length⟩, sequence := (d.sequence + 1) % 4294967296, insLine := line,
      cursor := d.entries.countP fun e => decide (e.row < line) } := by
  unfold Dfm.toLine
  rw [if_pos hline, endLine_begins h hk hr]

theorem toLine_covers (d : Dfm) (line y c : Nat) : (d.toLine line).covers y c = d.covers y c := by
  rw [Dfm.covers, Dfm.covers, toLine_entries]

end Reach

/-! ### The pixels of a beat (R87, R89) -/

section Pixels

variable (b : PostedBeat)

/-- A pixel by its two byte enables. -/
def rawPixel (low high : Bool) (v : Nat) : RawPixel := match low, high with
  | true, true => .received v
  | false, false => .absent
  | _, _ => .half

theorem pixel_zero : b.pixel 0 = rawPixel (b.enables.getLsbD 0) (b.enables.getLsbD 1) (b.data.toNat % 16384) := by
  unfold PostedBeat.pixel
  rw [Nat.mul_zero, BitVec.ushiftRight_zero]
  rfl

theorem pixel_one : b.pixel 1 = rawPixel (b.enables.getLsbD 2) (b.enables.getLsbD 3) (b.data.toNat / 65536 % 16384) := by
  have hdata : (b.data >>> (16 * 1)).toNat = b.data.toNat / 65536 := by
    rw [BitVec.toNat_ushiftRight, Nat.shiftRight_eq_div_pow]
  unfold PostedBeat.pixel
  rw [hdata]
  rfl

/-- The half received pixels of a beat. -/
def PostedBeat.halves : Nat :=
  (if b.enables.getLsbD 0 = b.enables.getLsbD 1 then 0 else 1) +
    (if b.enables.getLsbD 2 = b.enables.getLsbD 3 then 0 else 1)

theorem countPartial_pixels (st : Stats) : (st.countPartial (b.pixel 0)).countPartial (b.pixel 1) =
    { st with partials := if b.halves = 0 then st.partials else min 4294967295 (st.partials + b.halves) } := by
  rw [pixel_zero, pixel_one, PostedBeat.halves]
  have htwice : min 4294967295 (min 4294967295 (st.partials + 1) + 1) = min 4294967295 (st.partials + 2) := by omega
  cases b.enables.getLsbD 0 <;> cases b.enables.getLsbD 1 <;> cases b.enables.getLsbD 2 <;> cases b.enables.getLsbD 3 <;>
    simp [rawPixel, Stats.countPartial, satAdd, htwice]

/-- The accumulator a line goes on with. -/
def accOf (line : Nat) (acc : Option BlackAcc) : BlackAcc := match acc with
  | some a => if a.line = line then a else { line := line }
  | none => { line := line }

theorem accOf_line (line : Nat) (acc : Option BlackAcc) : (accOf line acc).line = line := by
  rcases acc with _ | a
  · rfl
  · by_cases h : a.line = line
    · rw [accOf, if_pos h, h]
    · rw [accOf, if_neg h]

theorem accOf_some {line : Nat} {a : BlackAcc} (h : a.line = line) : accOf line (some a) = a := if_pos h

theorem gatherBlack_received (d : Dfm) (line column v : Nat) (acc : Option BlackAcc) :
    gatherBlack d line column (.received v) acc =
      some (if d.covers line column then accOf line acc else (accOf line acc).add (column % 2 == 1) v) := rfl

/-- What the two pixels of a beat of masked columns add to the line's black. -/
def gathered (d : Dfm) (line col : Nat) (acc : BlackAcc) : BlackAcc :=
  let got0 := b.enables.getLsbD 0 && b.enables.getLsbD 1
  let got1 := b.enables.getLsbD 2 && b.enables.getLsbD 3
  let good0 := got0 && !d.covers line col
  let good1 := got1 && !d.covers line (col + 1)
  let v0 := b.data.toNat % 16384
  let v1 := b.data.toNat / 65536 % 16384
  ⟨line, if good0 then acc.nEven + 1 else acc.nEven, if good0 then acc.sEven + v0 else acc.sEven,
    if good1 then acc.nOdd + 1 else acc.nOdd, if good1 then acc.sOdd + v1 else acc.sOdd⟩

/-- The cells of a beat of masked columns. -/
def maskedCells : List Host.Cell :=
  (if b.enables.getLsbD 0 && b.enables.getLsbD 1 then cellsAt b.addr (le 2 (b.data.toNat % 16384)) else []) ++
    (if b.enables.getLsbD 2 && b.enables.getLsbD 3 then cellsAt (b.addr + 2) (le 2 (b.data.toNat / 65536 % 16384)) else [])

theorem slotCells_masked : slotCells b.addr (maskedSlot (b.pixel 0)) ++ slotCells (b.addr + 2) (maskedSlot (b.pixel 1)) =
    maskedCells b := by
  rw [pixel_zero, pixel_one, maskedCells]
  cases b.enables.getLsbD 0 <;> cases b.enables.getLsbD 1 <;> cases b.enables.getLsbD 2 <;> cases b.enables.getLsbD 3 <;> rfl

theorem gatherBlack_zero (d : Dfm) (line col : Nat) (acc : Option BlackAcc) :
    gatherBlack d line col (b.pixel 0) acc = if b.enables.getLsbD 0 && b.enables.getLsbD 1 then
      some (if d.covers line col then accOf line acc
        else (accOf line acc).add (col % 2 == 1) (b.data.toNat % 16384)) else acc := by
  rw [pixel_zero]
  cases b.enables.getLsbD 0 <;> cases b.enables.getLsbD 1 <;> rfl

theorem gatherBlack_one (d : Dfm) (line col : Nat) (acc : Option BlackAcc) :
    gatherBlack d line col (b.pixel 1) acc = if b.enables.getLsbD 2 && b.enables.getLsbD 3 then
      some (if d.covers line col then accOf line acc
        else (accOf line acc).add (col % 2 == 1) (b.data.toNat / 65536 % 16384)) else acc := by
  rw [pixel_one]
  cases b.enables.getLsbD 2 <;> cases b.enables.getLsbD 3 <;> rfl

theorem gatherBlack_pixels (d : Dfm) (line : Nat) {col : Nat} (hcol : col % 2 = 0) (acc : Option BlackAcc) :
    gatherBlack d line (col + 1) (b.pixel 1) (gatherBlack d line col (b.pixel 0) acc) =
      if (b.enables.getLsbD 0 && b.enables.getLsbD 1) || (b.enables.getLsbD 2 && b.enables.getLsbD 3) then
        some (gathered b d line col (accOf line acc)) else acc := by
  have heven : (col % 2 == 1) = false := by rw [hcol]; rfl
  have hodd : ((col + 1) % 2 == 1) = true := by rw [Nat.add_mod, hcol]; rfl
  rw [gatherBlack_zero, gatherBlack_one, heven, hodd, gathered]
  have hline := accOf_line line acc
  generalize hacc : accOf line acc = a at hline
  obtain ⟨l, ne, se, no, so⟩ := a
  subst hline
  cases b.enables.getLsbD 0 && b.enables.getLsbD 1 <;> cases b.enables.getLsbD 2 && b.enables.getLsbD 3
  case false.false => rfl
  case false.true =>
    rw [if_neg Bool.false_ne_true, hacc]
    cases d.covers _ (col + 1) <;> rfl
  case true.false =>
    cases d.covers _ col <;> rfl
  case true.true =>
    rw [if_pos rfl, if_pos rfl, accOf_some (by cases d.covers _ col <;> rfl)]
    cases d.covers _ col <;> cases d.covers _ (col + 1) <;> rfl

end Pixels

end Sys2Proof.Machine
end

section
/-! PROOFS. A beat of masked columns, one behind the cursor, a pad beat and one beyond the frame (R88 to R91, R106). -/

namespace Sys2Proof.Machine

set_option Elab.async false

section Raw

variable {s : State} {p : Posted} {b : PostedBeat} {o : Readout} {off : Nat}

/-! ### Masked columns (R91) -/

theorem takeMasked_eq (b : PostedBeat) (parity : Bool) (line column off : Nat) (w : Work) :
    takeMasked b parity line column off w =
      ⟨w.s, { w.r with
          acc := gatherBlack w.s.dfm line (column + 1) (b.pixel 1) (gatherBlack w.s.dfm line column (b.pixel 0) w.r.acc)
          stats := (w.r.stats.countPartial (b.pixel 0)).countPartial (b.pixel 1)
          last := some ⟨off, none, none⟩ },
        addWord (w.addr off) (slotCells (w.addr off) (maskedSlot (b.pixel 0)) ++
          slotCells (w.addr off + 2) (maskedSlot (b.pixel 1))) parity false w.runs⟩ := rfl

/-- The readout after a beat of masked columns. -/
def Readout.masked (s : State) (o : Readout) (b : PostedBeat) (off line col : Nat) : Readout :=
  { o with
    cursor := off + 4
    last := some ⟨off, none, none⟩
    acc := if (b.enables.getLsbD 0 && b.enables.getLsbD 1) || (b.enables.getLsbD 2 && b.enables.getLsbD 3) then
        some (gathered b s.dfm line col (accOf line o.acc)) else o.acc
    wait := if o.cursor < off then none else o.wait
    stats := { (if o.cursor < off then releasedStats s o else o.stats) with
      gaps := if o.cursor < off then min 4294967295 (o.stats.gaps + (off - o.cursor) / 4) else o.stats.gaps
      partials := if b.halves = 0 then o.stats.partials else min 4294967295 (o.stats.partials + b.halves) } }

/-- The words of a beat of masked columns, after the waiting word if the cursor jumps. -/
def maskedRuns (s : State) (p : Posted) (b : PostedBeat) (o : Readout) (off : Nat) : List WordRun :=
  addWord b.addr (maskedCells b) p.parity false (wordsBefore s o off)

theorem CaptureAlone.takes_masked (h : CaptureAlone s p b o off) {col : Nat} (hframe : off < o.image.frameBytes)
    (hcur : o.cursor ≤ off) (hat : off % o.image.pitch = 2 * col) (hcol : col % 2 = 0) (hmasked : col < o.image.masked) :
    takeBeatAt p.parity b ⟨timed s o, o, []⟩ off =
      ⟨withDfm (s.dfm.toLine (off / o.image.pitch)) (timed s o), o.masked s b off (off / o.image.pitch) col,
        maskedRuns s p b o off⟩ := by
  have hat' : off % o.image.pitch / 2 = col := by omega
  have haddr : (timed s o).stb.slotBase o.slot + off = b.addr := h.addr.symm
  have hslot : (o.reached (timed s o) off).slot = o.slot := by
    unfold Readout.reached
    split <;> rfl
  refine (if_neg (Nat.not_le.2 hframe)).trans ((if_neg (Nat.not_lt.2 hcur)).trans ((if_pos (by dsimp only; omega)).trans ?_))
  rw [hat', reach_alone, takeMasked_eq]
  have hbase : (⟨withDfm ((timed s o).dfm.toLine (off / o.image.pitch)) (timed s o),
      { o.reached (timed s o) off with cursor := off + 4 }, wordsBefore (timed s o) o off⟩ : Work).addr off = b.addr := by
    change (timed s o).stb.slotBase (o.reached (timed s o) off).slot + off = b.addr
    rw [hslot, haddr]
  rw [hbase, slotCells_masked, gatherBlack_pixels b _ _ hcol, countPartial_pixels]
  have hgathered (acc : BlackAcc) : gathered b ((timed s o).dfm.toLine (off / o.image.pitch)) (off / o.image.pitch) col acc =
      gathered b s.dfm (off / o.image.pitch) col acc := by
    unfold gathered
    rw [toLine_covers, toLine_covers]
    rfl
  have hreadout : ({ o.reached (timed s o) off with
      cursor := off + 4
      acc := if (b.enables.getLsbD 0 && b.enables.getLsbD 1) || (b.enables.getLsbD 2 && b.enables.getLsbD 3) then
          some (gathered b ((timed s o).dfm.toLine (off / o.image.pitch)) (off / o.image.pitch) col
            (accOf (off / o.image.pitch) (o.reached (timed s o) off).acc))
        else (o.reached (timed s o) off).acc
      stats := { (o.reached (timed s o) off).stats with
        partials := if b.halves = 0 then (o.reached (timed s o) off).stats.partials
          else min 4294967295 ((o.reached (timed s o) off).stats.partials + b.halves) }
      last := some ⟨off, none, none⟩ } : Readout) = o.masked s b off (off / o.image.pitch) col := by
    rw [hgathered]
    unfold Readout.reached Readout.masked
    by_cases hj : o.cursor < off
    · have hpart : (o.jumped (timed s o) off).stats.partials = o.stats.partials := releasedStats_partials _ o
      simp only [if_pos hj, hpart]
      rfl
    · simp only [if_neg hj]
  exact congrArg (fun q => (⟨withDfm (s.dfm.toLine (off / o.image.pitch)) (timed s o), q, maskedRuns s p b o off⟩ : Work)) hreadout

theorem runTxns_masked (s : State) (p : Posted) (b : PostedBeat) (o : Readout) (off : Nat) :
    runTxns (maskedRuns s p b o off) =
      (if o.cursor < off then releasedWord s o else []) ++ wordTxn b.addr (maskedCells b) p.parity :=
  runTxns_after s o off _ _ _ _

/-! ### Behind the cursor (R88) -/

theorem CaptureAlone.takes_behind {parity : Bool} (hbehind : off < o.cursor) (hcur : o.cursor < o.image.frameBytes) :
    takeBeatAt parity b ⟨timed s o, o, []⟩ off = ⟨withDfm s.dfm (timed s o),
      { o with stats := { o.stats with behind := min 4294967295 (o.stats.behind + 1) } }, []⟩ :=
  (if_neg (by dsimp only; omega)).trans (if_pos hbehind)

/-! ### Pad beats and beats beyond the frame (R88, R90) -/

/-- The readout after a beat that is handed on as it came. -/
def Readout.skipped (s : State) (o : Readout) (upTo cursor : Nat) : Readout :=
  { o with
    cursor := cursor
    wait := none
    stats := { releasedStats s o with
      gaps := if o.cursor < upTo then min 4294967295 (o.stats.gaps + (upTo - o.cursor) / 4) else o.stats.gaps } }

/-- The words of such a beat. -/
def rawRuns (s : State) (p : Posted) (b : PostedBeat) (o : Readout) : List WordRun :=
  addWord b.addr b.cells p.parity false (heldRuns s o)

theorem heldRuns_of_none (s : State) {o : Readout} (h : o.wait = none) : heldRuns s o = [] := by
  rw [heldRuns, h]

theorem releasedStats_self (s : State) {o : Readout} (h : o.wait = none) :
    { releasedStats s o with gaps := o.stats.gaps } = o.stats := by
  rw [releasedStats_of_none h]

theorem CaptureAlone.takes_pad {parity : Bool} (hframe : off < o.image.frameBytes) (hcur : o.cursor ≤ off)
    (hpad : 2 * (o.image.masked + o.image.width) ≤ off % o.image.pitch) (hwait : o.wait = none ∨ o.cursor < off) :
    takeBeatAt parity b ⟨timed s o, o, []⟩ off =
      ⟨withDfm (s.dfm.toLine (off / o.image.pitch)) (timed s o), o.skipped s off (off + 4),
        addWord b.addr b.cells parity false (heldRuns s o)⟩ := by
  refine (if_neg (Nat.not_le.2 hframe)).trans ((if_neg (Nat.not_lt.2 hcur)).trans
    ((if_neg (by dsimp only; omega)).trans ((if_neg (by dsimp only; omega)).trans ?_)))
  rw [reach_alone]
  unfold Readout.reached wordsBefore Readout.skipped
  by_cases hj : o.cursor < off
  · simp only [if_pos hj]
    rfl
  · have hnone := hwait.resolve_right hj
    simp only [if_neg hj, releasedStats_self s hnone, heldRuns_of_none s hnone]
    simp only [← hnone]
    rfl

theorem CaptureAlone.takes_beyond {parity : Bool} (hcur : o.cursor < o.image.frameBytes) (hoff : o.image.frameBytes ≤ off) :
    takeBeatAt parity b ⟨timed s o, o, []⟩ off =
      ⟨withDfm s.dfm (timed s o), o.skipped s o.image.frameBytes o.image.frameBytes,
        addWord b.addr b.cells parity false (heldRuns s o)⟩ := by
  refine (if_pos hoff).trans ?_
  rw [jump_alone hcur, Readout.skipped, if_pos hcur]
  rfl

theorem rawCells_ne_nil (h : b.enables ≠ 0) : b.cells ≠ [] := by
  intro hnone
  have hall := List.filter_eq_nil_iff.1 (List.map_eq_nil_iff.1 hnone)
  refine h (BitVec.eq_of_getLsbD_eq fun i hi => ?_)
  exact (Bool.eq_false_iff.2 (hall i (List.mem_range.2 hi))).trans BitVec.getLsbD_zero.symm

theorem runTxns_raw (s : State) (o : Readout) (h : b.enables ≠ 0) (parity : Bool) :
    runTxns (addWord b.addr b.cells parity false (heldRuns s o)) =
      releasedWord s o ++ [⟨.captureWrite, b.addr, 4, b.cells, parity⟩] := by
  rw [addWord_after (heldRuns_closed s o), runTxns_append, runTxns_held, runTxns_word, wordTxn_of (rawCells_ne_nil h)]

end Raw

end Sys2Proof.Machine
end

section
/-! PROOFS. The end of a readout at its last beat: HELD, CALIBRATED, or waiting for the rewrite of its line (R105 to R108,
R126). -/

namespace Sys2Proof.Machine

set_option Elab.async false

section End

variable {x : State} {q : Readout} {r : ShotRecord} {i : Nat}

theorem releasedWord_of_none (s : State) {o : Readout} (h : o.wait = none) : releasedWord s o = [] := by
  rw [← runTxns_held, heldRuns_of_none s h]
  rfl

theorem measured_complete (st : Stats) (r : ShotRecord) : measured st false r = { r with stats := st } := by
  rw [measured, Bool.or_false]

/-- The record with the statistics of its readout, in the Shot Table. -/
def withStats (q : Readout) (x : State) : State := withStb (x.stb.update q.shot (measured q.stats false)) x

theorem withStats_find (hfind : x.stb.find q.shot = some r) :
    (withStats q x).stb.find q.shot = some { r with stats := q.stats } := by
  rw [← measured_complete]
  exact Stb.find_update (f := measured q.stats false) (fun _ => rfl) hfind

theorem withStats_other {n : Nat} (hn : n ≠ q.shot) : (withStats q x).stb.find n = x.stb.find n :=
  Stb.find_update_other (f := measured q.stats false) (fun _ => rfl) hn

theorem endReadout_last (hwait : q.wait = none) (hfind : x.stb.find q.shot = some r) : endReadout false q x =
    endOrWait false r.flags.darkCal q
      (if r.flags.darkCal then withDfm x.dfm.endLine (withStats q x) else withStats q x) := by
  have hrelease : (⟨x, q, []⟩ : Work).release none none = ⟨x, q, []⟩ := by
    rw [Work.release, hwait]
  have hcal : (x.stb.update q.shot (measured q.stats false)).calibrates q.shot = r.flags.darkCal := by
    rw [Stb.calibrates]
    exact congrArg (fun f : Option ShotRecord => (f.map (·.flags.darkCal)).getD false) (withStats_find hfind)
  rw [endReadout_eq, hrelease, endMeasured, presentRuns]
  dsimp only
  rw [hcal]
  rfl

theorem endReadout_darkless (hwait : q.wait = none) (hfind : x.stb.find q.shot = some r) (hcal : r.flags.darkCal = false)
    (hnone : ∀ e, x.prs.entries[r.profile]? = some e → e.waiting = none) :
    endReadout false q x = raise .held (readoutLeft q.shot .held (withStats q x)) := by
  rw [endReadout_last hwait hfind, hcal]
  exact (leaveReadout_held (withStats_find hfind) hcal).trans
    (congrArg (raise .held) (releaseProfile_of_none (s := readoutLeft q.shot .held (withStats q x)) hnone))

theorem endReadout_calibrated (hwait : q.wait = none) (hfind : x.stb.find q.shot = some r) (hcal : r.flags.darkCal = true)
    (hins : x.dfm.firstIns = none) (hr : x.dfm.rewrite = none)
    (hnone : ∀ e, x.prs.entries[r.profile]? = some e → e.waiting = none) :
    endReadout false q x = readoutLeft q.shot .calibrated (withStats q x) := by
  have hend : withDfm x.dfm.endLine (withStats q x) = withStats q x := by
    rw [Dfm.endLine, hins]
    rfl
  have hmeasured := withStats_find hfind
  rw [endReadout_last hwait hfind, hcal, if_pos rfl, hend, endOrWait, if_neg (by
    change ¬ (true && x.dfm.rewrite.isSome) = true
    rw [hr]
    decide), leaveReadout_eq, hmeasured]
  exact (if_pos hcal).trans (releaseProfile_of_none (s := readoutLeft q.shot .calibrated (withStats q x)) hnone)

theorem endReadout_waits (hwait : q.wait = none) (hfind : x.stb.find q.shot = some r) (hcal : r.flags.darkCal = true)
    {d : Dfm} (hd : x.dfm.endLine = d) (hr : d.rewrite.isSome = true) :
    endReadout false q x = withPce ⟨some { q with ending := some false }, none⟩ (withDfm d (withStats q x)) := by
  rw [endReadout_last hwait hfind, hcal, if_pos rfl, hd]
  exact if_pos hr

end End

/-! ### As a step -/

section Step

variable {s : State} {p : Posted} {b : PostedBeat} {o q : Readout} {off i : Nat} {r : ShotRecord} {d : Dfm}
  {runs : List WordRun}

/-- What a beat that ends its readout leaves. -/
structure ReadoutEnded (s : State) (shot : Nat) (words : List Txn) (r' : ShotRecord) (pce : Pce) (d : Dfm) (t : State) : Prop where
  queue : t.hmp.queue = []
  pce : t.pce = pce
  dfm : t.dfm = d
  find : t.stb.find shot = some r'
  others : ∀ n, n ≠ shot → t.stb.find n = s.stb.find n
  pending : ∃ more, t.fmc.pending = s.fmc.pending ++ words ++ more
  frame : OnlyChanges [.posted, .pce, .dfm, .stb] s t

theorem ReadoutEnded.hands {pce : Pce} {words : List Txn} {t : State} {shot : Nat} (h : ReadoutEnded s shot words r pce d t) {x : Txn}
    (hx : x ∈ words) : x ∈ t.fmc.pending := by
  obtain ⟨more, hmore⟩ := h.pending
  rw [hmore]
  exact List.mem_append_left _ (List.mem_append_right _ hx)

/-- The state in which the readout ends: the words presented, the map as the beat left it. -/
theorem CaptureAlone.last_state (h : CaptureAlone s p b o off) (hd : OffsetThere o off)
    (hw : takeBeatAt p.parity b ⟨timed s o, o, []⟩ off = ⟨withDfm d (timed s o), q, runs⟩)
    (hcur : q.image.frameBytes ≤ q.cursor) :
    ∃ x, exec .writeBurstDelivery s = .next (finish s (withQueue [] (endReadout false q x))) ∧ x.stb = s.stb ∧ x.dfm = d ∧
      x.prs = s.prs ∧ x.fmc.pending = s.fmc.pending ++ runTxns runs ∧ OnlyChanges [.posted, .pce, .dfm, .stb] s x :=
  ⟨_, h.ends hd hw hcur, rfl, rfl, rfl, rfl,
    (((OnlyChanges.refl _ s).dfm _).andThen (presentAll_onlyChanges _ _)).pce _⟩

/-- The readout's last beat in a shot that is no calibration. -/
theorem CaptureAlone.ends_held (h : CaptureAlone s p b o off) (hd : OffsetThere o off)
    (hw : takeBeatAt p.parity b ⟨timed s o, o, []⟩ off = ⟨withDfm d (timed s o), q, runs⟩)
    (hcur : q.image.frameBytes ≤ q.cursor) (hwait : q.wait = none) (hshot : q.shot = o.shot)
    (hfind : s.stb.find o.shot = some r) (hphase : r.phase = .reading) (hslot : r.slot = some i)
    (hi : i < s.stb.slots.length) (hcal : r.flags.darkCal = false)
    (hnone : ∀ e, s.prs.entries[r.profile]? = some e → e.waiting = none) :
    ∃ t, exec .writeBurstDelivery s = .next t ∧
      ReadoutEnded s o.shot (runTxns runs) { r with phase := .held, stats := q.stats } ⟨none, none⟩ d.readoutEnd t ∧
      t.stb.slotState i = .held ∧ Raised .held t := by
  obtain ⟨x, hexec, hstb, hdfm, hprs, hpending, hframe⟩ := h.last_state hd hw hcur
  rw [← hshot, ← hstb] at hfind
  rw [endReadout_darkless hwait hfind hcal (by rwa [hprs])] at hexec
  have hmeasured := withStats_find hfind
  have hmove : moveAllowed ({ r with stats := q.stats } : ShotRecord).phase .held = true := by
    change moveAllowed r.phase .held = true
    rw [hphase]
    rfl
  obtain ⟨ts, hts⟩ := (finish_followUp s (withQueue [] (raise .held (readoutLeft q.shot .held (withStats q x))))).added
  refine ⟨_, hexec, ⟨finish_hmp_queue _ _, finish_pce _ _, (finish_dfm _ _).trans ?_, ?_, fun n hn => ?_, ⟨ts, ?_⟩, ?_⟩, ?_,
    finish_raised _ _ (List.mem_append_right _ List.mem_cons_self)⟩
  · rw [← hdfm]
    rfl
  · rw [finish_stb, ← hshot]
    exact Stb.find_move_kept hmeasured hmove rfl
  · rw [finish_stb, ← hstb]
    rw [← hshot] at hn
    exact (Stb.find_move_other hmeasured hn).trans (withStats_other hn)
  · rw [hts, ← hpending]
    rfl
  · exact (((hframe.stb _).andThen (readoutLeft_onlyChanges _ _ _)).raised .held |>.andThen
      (withQueue_onlyChanges [] _)).finish s
  · rw [finish_stb]
    exact Stb.slotState_move_kept hmeasured hmove rfl hslot (by
      change i < (x.stb.update q.shot (measured q.stats false)).slots.length
      rw [hstb]
      exact hi)

/-- The last beat of a dark calibration whose line has no insertions (R126). -/
theorem CaptureAlone.ends_calibrated (h : CaptureAlone s p b o off) (hd : OffsetThere o off)
    (hw : takeBeatAt p.parity b ⟨timed s o, o, []⟩ off = ⟨withDfm d (timed s o), q, runs⟩)
    (hcur : q.image.frameBytes ≤ q.cursor) (hwait : q.wait = none) (hshot : q.shot = o.shot)
    (hfind : s.stb.find o.shot = some r) (hphase : r.phase = .reading) (hslot : r.slot = some i)
    (hi : i < s.stb.slots.length) (hcal : r.flags.darkCal = true) (hins : d.firstIns = none) (hr : d.rewrite = none)
    (hnone : ∀ e, s.prs.entries[r.profile]? = some e → e.waiting = none) :
    ∃ t, exec .writeBurstDelivery s = .next t ∧
      ReadoutEnded s o.shot (runTxns runs) { r with phase := .calibrated, slot := none, stats := q.stats } ⟨none, none⟩
        d.readoutEnd t ∧
      t.stb.slotState i = .free := by
  obtain ⟨x, hexec, hstb, hdfm, hprs, hpending, hframe⟩ := h.last_state hd hw hcur
  rw [← hshot, ← hstb] at hfind
  rw [endReadout_calibrated hwait hfind hcal (by rwa [hdfm]) (by rwa [hdfm]) (by rwa [hprs])] at hexec
  have hmeasured := withStats_find hfind
  have hmove : moveAllowed ({ r with stats := q.stats } : ShotRecord).phase .calibrated = true := by
    change moveAllowed r.phase .calibrated = true
    rw [hphase]
    rfl
  obtain ⟨ts, hts⟩ := (finish_followUp s (withQueue [] (readoutLeft q.shot .calibrated (withStats q x)))).added
  refine ⟨_, hexec, ⟨finish_hmp_queue _ _, finish_pce _ _, (finish_dfm _ _).trans ?_, ?_, fun n hn => ?_, ⟨ts, ?_⟩, ?_⟩, ?_⟩
  · rw [← hdfm]
    rfl
  · rw [finish_stb, ← hshot]
    exact Stb.find_move_freed hmeasured hmove rfl
  · rw [finish_stb, ← hstb]
    rw [← hshot] at hn
    exact (Stb.find_move_other hmeasured hn).trans (withStats_other hn)
  · rw [hts, ← hpending]
    rfl
  · exact (((hframe.stb _).andThen (readoutLeft_onlyChanges _ _ _)).andThen (withQueue_onlyChanges [] _)).finish s
  · rw [finish_stb]
    exact Stb.slotState_move_freed hmeasured hmove rfl hslot (by
      change i < (x.stb.update q.shot (measured q.stats false)).slots.length
      rw [hstb]
      exact hi)

/-- The last beat of a dark calibration whose line has insertions: the readout waits for their rewrite (R126). -/
theorem CaptureAlone.ends_waiting (h : CaptureAlone s p b o off) (hd : OffsetThere o off)
    (hw : takeBeatAt p.parity b ⟨timed s o, o, []⟩ off = ⟨withDfm d (timed s o), q, runs⟩)
    (hcur : q.image.frameBytes ≤ q.cursor) (hwait : q.wait = none) (hshot : q.shot = o.shot)
    (hfind : s.stb.find o.shot = some r) (hcal : r.flags.darkCal = true) (hr : d.endLine.rewrite.isSome = true) :
    ∃ t, exec .writeBurstDelivery s = .next t ∧
      ReadoutEnded s o.shot (runTxns runs) { r with stats := q.stats } ⟨some { q with ending := some false }, none⟩ d.endLine t := by
  obtain ⟨x, hexec, hstb, hdfm, hprs, hpending, hframe⟩ := h.last_state hd hw hcur
  rw [← hshot, ← hstb] at hfind
  rw [endReadout_waits hwait hfind hcal (congrArg Dfm.endLine hdfm) hr] at hexec
  obtain ⟨ts, hts⟩ := (finish_followUp s (withQueue [] (withPce ⟨some { q with ending := some false }, none⟩
    (withDfm d.endLine (withStats q x))))).added
  refine ⟨_, hexec, ⟨finish_hmp_queue _ _, finish_pce _ _, finish_dfm _ _, ?_, fun n hn => ?_, ⟨ts, ?_⟩, ?_⟩⟩
  · rw [finish_stb, ← hshot]
    exact withStats_find hfind
  · rw [finish_stb, ← hstb]
    rw [← hshot] at hn
    exact withStats_other hn
  · rw [hts, ← hpending]
    rfl
  · exact ((((hframe.stb _).dfm _).pce _).andThen (withQueue_onlyChanges [] _)).finish s

end Step

end Sys2Proof.Machine
end

section
/-! PROOFS. The two pixels of an active beat, and what becomes of its word (R92, R93, R99 to R104, R122, R123). -/

namespace Sys2Proof.Machine

set_option Elab.async false

/-! ### The developed value (R99, R100) -/

/-- The developed value of an active pixel. -/
def developedAt (g : Profile) (d line v black x : Nat) : Nat :=
  if g.whiteClip ≤ v then 16383
  else (max 0 (min 16383 ((g.pedestal : Int) + (((v : Int) - black - d) * g.gainAt x line + 2048) / 4096))).toNat

theorem develop_eq (g : Profile) (d line v black x : Nat) :
    g.develop v black d x line = (developedAt g d line v black x, decide (g.whiteClip ≤ v)) := by
  unfold Profile.develop developedAt
  by_cases h : g.whiteClip ≤ v
  · rw [if_pos h, if_pos h, decide_eq_true h]
  · rw [if_neg h, if_neg h, decide_eq_false h]
    rfl

/-- A final value counted in its histogram bin (R104). -/
def binned (y : Nat) (h : List Nat) : List Nat := h.modify (y / 1024) fun n => min 4294967295 (n + 1)

/-- The statistics with the two developed pixels of a beat counted (R99, R104). -/
def countedWord (g : Profile) (d line v0 v1 be bo x : Nat) (st : Stats) : Stats :=
  let clips := (if g.whiteClip ≤ v0 then 1 else 0) + (if g.whiteClip ≤ v1 then 1 else 0)
  { st with
    clipped := if clips = 0 then st.clipped else min 4294967295 (st.clipped + clips)
    histogram := binned (developedAt g d line v1 bo (x + 1)) (binned (developedAt g d line v0 be x) st.histogram) }

/-- The statistics with one developed pixel counted. -/
def countDeveloped (g : Profile) (d line v black x : Nat) (st : Stats) : Stats :=
  { st with
    clipped := min 4294967295 (st.clipped + if g.whiteClip ≤ v then 1 else 0)
    histogram := binned (developedAt g d line v black x) st.histogram }

theorem countDeveloped_twice (g : Profile) (d line v0 v1 be bo x : Nat) {st : Stats} (h : st.clipped ≤ 4294967295) :
    countDeveloped g d line v1 bo (x + 1) (countDeveloped g d line v0 be x st) = countedWord g d line v0 v1 be bo x st := by
  have hclipped : min 4294967295 (min 4294967295 (st.clipped + if g.whiteClip ≤ v0 then 1 else 0) +
      if g.whiteClip ≤ v1 then 1 else 0) =
        if (if g.whiteClip ≤ v0 then 1 else 0) + (if g.whiteClip ≤ v1 then 1 else 0) = 0 then st.clipped
        else min 4294967295 (st.clipped + ((if g.whiteClip ≤ v0 then 1 else 0) + (if g.whiteClip ≤ v1 then 1 else 0))) := by
    split <;> split <;> simp <;> omega
  unfold countDeveloped countedWord
  dsimp only
  rw [hclipped]

/-- The readout with other statistics. -/
def Readout.counting (q : Readout) (st : Stats) : Readout := { q with stats := st }

section Pixel

variable {u v : State} {q : Readout} {runs : List WordRun} {line x d be bo v0 v1 : Nat}

theorem black_eq (hset : q.settled = some ⟨line, be, bo⟩) (odd : Bool) : q.black odd = if odd then bo else be := by
  rw [Readout.black, hset]

theorem valued_eq (hd : q.dark = some d) (odd : Bool) (hodd : (x % 2 == 1) = odd) (v : Nat) :
    q.valued line x v = q.counting (countDeveloped q.image d line v (q.black odd) x q.stats) := by
  have hvalue : q.valueOf line x v = (developedAt q.image d line v (q.black odd) x, decide (q.image.whiteClip ≤ v)) := by
    rw [Readout.valueOf, hodd, hd]
    exact develop_eq _ _ _ _ _ _
  unfold Readout.valued
  rw [hvalue]
  unfold countDeveloped bit
  simp only [decide_eq_true_eq]
  rfl

theorem valueOf_eq (hd : q.dark = some d) (odd : Bool) (hodd : (x % 2 == 1) = odd) (v : Nat) :
    (q.valueOf line x v).1 = developedAt q.image d line v (q.black odd) x := by
  rw [Readout.valueOf, hodd, hd]
  exact congrArg Prod.fst (develop_eq _ _ _ _ _ _)

/-- Whether a pixel is a candidate for the map (R123). -/
def hotAt (u : State) (q : Readout) (black v : Nat) : Bool :=
  u.stb.calibrates q.shot && decide (black + q.image.hot < v)

/-- The state after a pixel has been tested (R123, R124). -/
def tested (u : State) (q : Readout) (line column black v : Nat) : State :=
  if hotAt u q black v then calibrate line column u else u

theorem takeReceived_developed (hd : q.dark = some d) (odd : Bool) (hodd : (x % 2 == 1) = odd) (v : Nat)
    (hc : u.dfm.covers line (q.image.masked + x) = false) : takeReceived line x v ⟨u, q, runs⟩ =
      (.value (developedAt q.image d line v (q.black odd) x),
        ⟨tested u q line (q.image.masked + x) (q.black odd) v,
          q.counting (countDeveloped q.image d line v (q.black odd) x q.stats), runs⟩) := by
  have hc' : ¬ u.dfm.covers line (q.image.masked + x) = true := by rw [hc]; decide
  refine (if_neg hc').trans ?_
  dsimp only
  rw [valueOf_eq hd odd hodd, valued_eq hd odd hodd, hodd, tested]
  have hcal : (⟨u, q.counting (countDeveloped q.image d line v (q.black odd) x q.stats), runs⟩ : Work).calibrating =
      u.stb.calibrates q.shot := rfl
  rw [hcal]
  unfold hotAt
  split <;> rfl

theorem takeReceived_covered (v : Nat) (hc : u.dfm.covers line (q.image.masked + x) = true) :
    takeReceived line x v ⟨u, q, runs⟩ = (.covered, ⟨u, q, runs⟩) := if_pos hc

/-- A line's last pixel taken completes it (R104). -/
def lined (width x : Nat) (st : Stats) : Stats :=
  { st with lines := if x + 1 = width then min 9216 (st.lines + 1) else st.lines }

theorem taken_eq (q : Readout) (x : Nat) : q.taken x = q.counting (lined q.image.width x q.stats) := by
  unfold Readout.taken lined
  split <;> rfl

theorem lined_other {width x : Nat} (h : x + 1 ≠ width) (st : Stats) : lined width x st = st := by
  rw [lined, if_neg h]

/-- The two pixels of a beat, neither covered (R99, R100, R123). -/
theorem takePixels_developed (hd : q.dark = some d) (hset : q.settled = some ⟨line, be, bo⟩) (hx : x % 2 = 0)
    (hwidth : x + 2 ≤ q.image.width) (hclip : q.stats.clipped ≤ 4294967295)
    (hc0 : u.dfm.covers line (q.image.masked + x) = false) (hv : tested u q line (q.image.masked + x) be v0 = v)
    (hc1 : v.dfm.covers line (q.image.masked + x + 1) = false) (hcool : hotAt v q bo v1 = false) :
    let even := takePixel line x (.received v0) ⟨u, q, runs⟩
    let odd := takePixel line (x + 1) (.received v1) even.2
    even.1 = .value (developedAt q.image d line v0 be x) ∧ odd.1 = .value (developedAt q.image d line v1 bo (x + 1)) ∧
      odd.2 = ⟨v, q.counting (lined q.image.width (x + 1) (countedWord q.image d line v0 v1 be bo x q.stats)), runs⟩ := by
  intro even odd
  have heven : (x % 2 == 1) = false := by rw [hx]; rfl
  have hodd : ((x + 1) % 2 == 1) = true := by rw [Nat.add_mod, hx]; rfl
  have hbe : q.black false = be := black_eq hset false
  have hbo : q.black true = bo := black_eq hset true
  have hfirst : even = (.value (developedAt q.image d line v0 be x),
      ⟨v, q.counting (countDeveloped q.image d line v0 be x q.stats), runs⟩) := by
    refine (takePixel_received line x v0 ⟨u, q, runs⟩).trans ?_
    dsimp only
    rw [taken_eq, lined_other (by omega)]
    refine (takeReceived_developed hd false heven v0 hc0).trans ?_
    rw [hbe, hv]
  have hsecond : odd = (.value (developedAt q.image d line v1 bo (x + 1)),
      ⟨v, q.counting (lined q.image.width (x + 1) (countedWord q.image d line v0 v1 be bo x q.stats)), runs⟩) := by
    refine (congrArg (fun e : PixelSlot × Work => takePixel line (x + 1) (.received v1) e.2) hfirst).trans ?_
    refine (takePixel_received line (x + 1) v1 _).trans ?_
    dsimp only
    rw [taken_eq, ← countDeveloped_twice q.image d line v0 v1 be bo x hclip]
    refine (takeReceived_developed (runs := runs)
      (q := q.counting (lined q.image.width (x + 1) (countDeveloped q.image d line v0 be x q.stats))) hd true hodd v1 hc1).trans ?_
    have hb : ∀ st : Stats, (q.counting st).black true = bo := fun _ => hbo
    rw [hb, tested]
    have hcool' : ∀ st : Stats, hotAt v (q.counting st) bo v1 = false := fun _ => hcool
    rw [hcool']
    rfl
  exact ⟨congrArg Prod.fst hfirst, congrArg Prod.fst hsecond, congrArg Prod.snd hsecond⟩

/-- The two pixels of a beat, the even one covered (R102). -/
theorem takePixels_covered (hd : q.dark = some d) (hset : q.settled = some ⟨line, be, bo⟩) (hx : x % 2 = 0)
    (hwidth : x + 2 < q.image.width) (hc0 : u.dfm.covers line (q.image.masked + x) = true)
    (hc1 : u.dfm.covers line (q.image.masked + x + 1) = false) (hcool : hotAt u q bo v1 = false) :
    let even := takePixel line x (.received v0) ⟨u, q, runs⟩
    let odd := takePixel line (x + 1) (.received v1) even.2
    even.1 = .covered ∧ odd.1 = .value (developedAt q.image d line v1 bo (x + 1)) ∧
      odd.2 = ⟨u, q.counting (countDeveloped q.image d line v1 bo (x + 1) q.stats), runs⟩ := by
  intro even odd
  have hodd : ((x + 1) % 2 == 1) = true := by rw [Nat.add_mod, hx]; rfl
  have hbo : q.black true = bo := black_eq hset true
  have hfirst : even = (.covered, ⟨u, q, runs⟩) := by
    refine (takePixel_received line x v0 ⟨u, q, runs⟩).trans ?_
    dsimp only
    rw [taken_eq, lined_other (by omega)]
    exact takeReceived_covered v0 hc0
  have hsecond : odd = (.value (developedAt q.image d line v1 bo (x + 1)),
      ⟨u, q.counting (countDeveloped q.image d line v1 bo (x + 1) q.stats), runs⟩) := by
    refine (congrArg (fun e : PixelSlot × Work => takePixel line (x + 1) (.received v1) e.2) hfirst).trans ?_
    refine (takePixel_received line (x + 1) v1 _).trans ?_
    dsimp only
    rw [taken_eq, lined_other (by omega)]
    refine (takeReceived_developed hd true hodd v1 hc1).trans ?_
    rw [hbo, tested, hcool]
    rfl
  exact ⟨congrArg Prod.fst hfirst, congrArg Prod.fst hsecond, congrArg Prod.snd hsecond⟩

end Pixel

/-! ### The word (R101 to R103) -/

section Word

variable {u : State} {q : Readout} {parity : Bool} {line x off y0 y1 : Nat}

theorem wordCells (a y0 y1 : Nat) :
    slotCells a (.value y0) ++ slotCells (a + 2) (.value y1) = cellsAt a (le 2 y0 ++ le 2 y1) := rfl

theorem placeWord_developed (hwait : q.wait = none) :
    placeWord (.value y0) (.value y1) parity line x off ⟨u, q, []⟩ =
      ⟨u, { q with last := some ⟨off, some y0, some y1⟩ },
        [⟨u.stb.slotBase q.slot + off, u.stb.slotBase q.slot + off + 4,
          cellsAt (u.stb.slotBase q.slot + off) (le 2 y0 ++ le 2 y1), parity, false⟩]⟩ := by
  have hrelease : (⟨u, q, []⟩ : Work).release (some y0) (some y1) = ⟨u, q, []⟩ := by
    rw [Work.release, hwait]
  unfold placeWord
  dsimp only
  rw [if_neg (by simp)]
  refine (congrArg (fun w : Work => Work.emit ⟨w.s, w.r.passed (.value y0) (.value y1) off, w.runs⟩ off (.value y0) (.value y1)
    parity false) hrelease).trans ?_
  rfl

theorem placeWord_covered (hwait : q.wait = none) (hx : x + 2 < q.image.width) :
    placeWord .covered (.value y1) parity line x off ⟨u, q, []⟩ =
      ⟨u, { q with
        last := some ⟨off, none, some y1⟩
        wait := some ⟨off, line, x, .covered, .value y1, (q.leftOf x off).bind (·.even), (q.leftOf x off).bind (·.odd),
          parity⟩ }, []⟩ := by
  have hrelease : (⟨u, q, []⟩ : Work).release none (some y1) = ⟨u, q, []⟩ := by
    rw [Work.release, hwait]
  unfold placeWord
  dsimp only
  rw [if_pos (Or.inl rfl)]
  have hq : (Work.release ⟨u, q, []⟩ PixelSlot.covered.developed (PixelSlot.value y1).developed) = ⟨u, q, []⟩ := hrelease
  rw [hq, if_pos hx]
  rfl

end Word

end Sys2Proof.Machine
end

section
/-! PROOFS. An active beat at the cursor: the line's black, the word and its left neighbour, candidates for the map (R92,
R93, R99 to R103, R122 to R124). -/

namespace Sys2Proof.Machine

set_option Elab.async false

/-! ### The black of a line (R92) -/

/-- Whether a mean is too far from the held black. -/
def farFrom (tolerance n sum held : Nat) : Bool :=
  decide (n ≠ 0 ∧ tolerance < max ((sum + n / 2) / n) held - min ((sum + n / 2) / n) held)

/-- The black of a parity. -/
def blackFrom (tolerance n sum held : Nat) : Nat :=
  if n = 0 ∨ farFrom tolerance n sum held then held else (sum + n / 2) / n

/-- The accepted black of a parity, if it is accepted. -/
def acceptedFrom (tolerance n sum held : Nat) : Option Nat :=
  if n = 0 ∨ farFrom tolerance n sum held then none else some (blackFrom tolerance n sum held)

theorem settleParity_eq (n sum held tolerance : Nat) : settleParity n sum held tolerance =
    ⟨blackFrom tolerance n sum held, blackFrom tolerance n sum held, farFrom tolerance n sum held,
      acceptedFrom tolerance n sum held⟩ := by
  unfold settleParity acceptedFrom blackFrom
  by_cases hn : n = 0
  · have hfar : farFrom tolerance n sum held = false := decide_eq_false fun h => h.1 hn
    simp only [hn, true_or, if_true]
    rw [← hn, hfar]
  · by_cases ht : tolerance < natDiff (blackMean n sum) held
    · have hfar : farFrom tolerance n sum held = true := decide_eq_true ⟨hn, ht⟩
      simp only [if_neg hn, if_pos ht, hfar, or_true, if_true]
    · have hfar : farFrom tolerance n sum held = false := decide_eq_false fun h => ht h.2
      simp only [if_neg ht, hfar, hn, Bool.false_eq_true, or_self, if_false]
      rfl

theorem optMin_eq (m : Option Nat) (n : Nat) : optMin m n = (m.toList ++ [n]).min? := by
  cases m <;> rfl

theorem optMax_eq (m : Option Nat) (n : Nat) : optMax m n = (m.toList ++ [n]).max? := by
  cases m <;> rfl

theorem min?_single (m : Option Nat) : m.toList.min? = m := by
  cases m <;> rfl

theorem max?_single (m : Option Nat) : m.toList.max? = m := by
  cases m <;> rfl

/-- Accepted blacks, one after the other, in black min and black max. -/
theorem acceptBlack_twice (st : Stats) (a b : Option Nat) : (st.acceptBlack a).acceptBlack b =
    { st with blackMin := (st.blackMin.toList ++ (a.toList ++ b.toList)).min?
              blackMax := (st.blackMax.toList ++ (a.toList ++ b.toList)).max? } := by
  rcases a with _ | a <;> rcases b with _ | b
  case none.none =>
    simp only [Option.toList_none, List.append_nil, min?_single, max?_single]
    rfl
  case none.some =>
    simp only [Stats.acceptBlack, optMin_eq, optMax_eq]
    rfl
  case some.none =>
    simp only [Stats.acceptBlack, optMin_eq, optMax_eq]
    rfl
  case some.some =>
    rcases hmin : st.blackMin with _ | m <;> rcases hmax : st.blackMax with _ | n <;>
      simp only [Stats.acceptBlack, hmin, hmax] <;> rfl

/-- The readout whose line has settled at its black. -/
def Readout.settledAt (q : Readout) (line : Nat) : Readout :=
  let a := accOf line q.acc
  let t := q.image.tolerance
  let far (n sum held : Nat) := farFrom t n sum held
  let be := blackFrom t a.nEven a.sEven q.heldEven
  let bo := blackFrom t a.nOdd a.sOdd q.heldOdd
  let rejects := (if far a.nEven a.sEven q.heldEven then 1 else 0) + (if far a.nOdd a.sOdd q.heldOdd then 1 else 0)
  let accepted := (if a.nEven = 0 ∨ far a.nEven a.sEven q.heldEven then [] else [be]) ++
    (if a.nOdd = 0 ∨ far a.nOdd a.sOdd q.heldOdd then [] else [bo])
  { q with
    settled := some ⟨line, be, bo⟩
    heldEven := be
    heldOdd := bo
    stats := { q.stats with
      blackRejects := min 65535 (q.stats.blackRejects + rejects)
      heldBlack := min 65535 (q.stats.heldBlack + if a.nEven = 0 ∨ a.nOdd = 0 then 1 else 0)
      blackMin := (q.stats.blackMin.toList ++ accepted).min?
      blackMax := (q.stats.blackMax.toList ++ accepted).max? } }

theorem acceptedFrom_toList (tolerance n sum held : Nat) : (acceptedFrom tolerance n sum held).toList =
    if n = 0 ∨ farFrom tolerance n sum held then [] else [blackFrom tolerance n sum held] := by
  unfold acceptedFrom
  split <;> rfl

theorem settleLine_new {q : Readout} {line : Nat} (h : ∀ l, q.settled = some l → l.line ≠ line) :
    q.settleLine line = q.settledAt line := by
  have hnot : ¬ (q.settled.any fun b => b.line == line) = true := by
    rw [Option.any_eq_true]
    rintro ⟨l, hl, hline⟩
    exact h l hl (beq_iff_eq.1 hline)
  have hheld (m n : Nat) : bit (m == 0 || n == 0) = if m = 0 ∨ n = 0 then 1 else 0 := by
    unfold bit
    simp only [Bool.or_eq_true, beq_iff_eq]
  refine (if_neg hnot).trans ?_
  dsimp only
  rw [settleParity_eq, settleParity_eq, acceptBlack_twice, acceptedFrom_toList, acceptedFrom_toList, hheld]
  rfl

theorem settleLine_settled {q : Readout} {line be bo : Nat} (h : q.settled = some ⟨line, be, bo⟩) :
    q.settleLine line = q := by
  refine if_pos ?_
  rw [h]
  exact beq_self_eq_true line

/-! ### The right neighbour has come (R103, R122) -/

section Neighbour

variable {u : State} {q : Readout} {h : HeldWord} {parity : Bool} {line x off y0 y1 w : Nat}

/-- The left neighbour's value, where it is usable. -/
def leftUsed (d : Dfm) (m : Nat) (h : HeldWord) : Option Nat :=
  if h.x < 2 ∨ d.covers h.line (m + h.x - 2) then none else h.leftEven

/-- The value of a covered pixel with its right neighbour. -/
def meanValue (left : Option Nat) (y : Nat) : Nat := match left with
  | some l => (l + y + 1) / 2
  | none => y

theorem settlePixel_right (q : Readout) (hc : u.dfm.covers h.line (q.image.masked + h.x + 2) = false) (y : Nat) :
    settlePixel ⟨u, q, []⟩ h.line h.x h.leftEven (some y) .covered =
      (.value (meanValue (leftUsed u.dfm q.image.masked h) y),
        { q.stats with
          substituted := min 4294967295 (q.stats.substituted + 1)
          histogram := binned (meanValue (leftUsed u.dfm q.image.masked h) y) q.stats.histogram }) := by
  have hright : usable u.dfm h.line (q.image.masked + h.x + 2) (some y) = some y := by
    rw [usable, hc]
    rfl
  have hleft : (if h.x < 2 then none else usable u.dfm h.line (q.image.masked + h.x - 2) h.leftEven) =
      leftUsed u.dfm q.image.masked h := by
    unfold leftUsed usable
    by_cases hx : h.x < 2
    · simp [hx]
    · simp [hx]
  have hvalue (l : Option Nat) (n : Nat) : substitute l (some y) n = meanValue l y := by
    cases l <;> rfl
  unfold settlePixel
  dsimp only
  rw [hright, hleft, hvalue]
  rfl

theorem release_right (hwait : q.wait = some h) (heven : h.even = .covered) (hodd : h.odd = .value w)
    (hc : u.dfm.covers h.line (q.image.masked + h.x + 2) = false) :
    (⟨u, q, []⟩ : Work).release (some y0) (some y1) =
      (let y := meanValue (leftUsed u.dfm q.image.masked h) y0
       let a := u.stb.slotBase q.slot + h.offset
       ⟨u, { q with wait := none, stats := { q.stats with
          substituted := min 4294967295 (q.stats.substituted + 1), histogram := binned y q.stats.histogram } },
        [⟨a, a + 4, cellsAt a (le 2 y ++ le 2 w), h.parity, true⟩]⟩) := by
  have hpixel := settlePixel_right (q := { q with wait := none }) hc y0
  unfold Work.release
  rw [hwait]
  dsimp only
  unfold Work.settleWord
  rw [heven, hpixel, hodd]
  rfl

theorem placeWord_right (hwait : q.wait = some h) (heven : h.even = .covered) (hodd : h.odd = .value w)
    (hc : u.dfm.covers h.line (q.image.masked + h.x + 2) = false) :
    placeWord (.value y0) (.value y1) parity line x off ⟨u, q, []⟩ =
      (let y := meanValue (leftUsed u.dfm q.image.masked h) y0
       let a := u.stb.slotBase q.slot + h.offset
       let c := u.stb.slotBase q.slot + off
       ⟨u, { q with
          wait := none
          stats := { q.stats with
            substituted := min 4294967295 (q.stats.substituted + 1), histogram := binned y q.stats.histogram }
          last := some ⟨off, some y0, some y1⟩ },
        [⟨a, a + 4, cellsAt a (le 2 y ++ le 2 w), h.parity, true⟩,
          ⟨c, c + 4, cellsAt c (le 2 y0 ++ le 2 y1), parity, false⟩]⟩) := by
  have hrelease := release_right (y0 := y0) (y1 := y1) hwait heven hodd hc
  unfold placeWord
  dsimp only
  rw [if_neg (by simp)]
  refine (congrArg (fun w : Work => Work.emit ⟨w.s, w.r.passed (.value y0) (.value y1) off, w.runs⟩ off (.value y0) (.value y1)
    parity false) hrelease).trans ?_
  rfl

end Neighbour

/-! ### Candidates (R123, R124) -/

section Candidate

variable {d : Dfm} {line column : Nat}

theorem insert_eq (hr : d.rewrite = none) : d.insert line column = { d with
    entries := d.entries.insertIdx (d.position line column) { row := line, column := column, length := none, found := true }
    firstIns := some (match d.firstIns with
      | some q => min q (d.position line column)
      | none => d.position line column)
    insLine := line } :=
  if_neg (by
    change ¬ d.rewrite.isSome = true
    rw [hr]
    decide)

theorem insert_covers_right (d : Dfm) (h : d.covers line (column + 1) = false) (hr : d.rewrite = none) :
    (d.insert line column).covers line (column + 1) = false := by
  have hentries : (d.insert line column).entries =
      d.entries.insertIdx (d.position line column) { row := line, column := column, length := none, found := true } := by
    rw [insert_eq hr]
  have hk : d.position line column ≤ d.entries.length := List.countP_le_length
  rw [Dfm.covers, List.any_eq_false] at h
  rw [Dfm.covers, hentries, List.any_eq_false]
  intro e he
  rcases (List.mem_insertIdx hk).1 he with rfl | he
  · simp [DefectEntry.covers]
  · exact h e he

theorem calibrate_inserts {u : State} (h : u.dfm.entries.length < 8192) :
    calibrate line column u = withDfm (u.dfm.insert line column) u := if_pos h

/-- The map with a candidate dropped. -/
def candidateDropped (d : Dfm) : Dfm := { d with drops := min 4294967295 (d.drops + 1), fullRaised := true }

theorem calibrate_drops {u : State} (h : 8192 ≤ u.dfm.entries.length) : calibrate line column u =
    if u.dfm.fullRaised = false then raise .mapFull (withDfm (candidateDropped u.dfm) u)
    else withDfm (candidateDropped u.dfm) u := by
  refine (if_neg (Nat.not_lt.2 h)).trans ?_
  cases hf : u.dfm.fullRaised <;> rfl

/-- A candidate dropped: the map's count and its report, and nothing else of the readout. -/
theorem calibrate_dropped {u : State} (h : 8192 ≤ u.dfm.entries.length) :
    ∃ v, calibrate line column u = v ∧ (∀ s, OnlyChanges [.pce, .dfm] s u → OnlyChanges [.pce, .dfm] s v) ∧ v.pce = u.pce ∧
      v.fmc = u.fmc ∧ v.stb = u.stb ∧ v.dfm = candidateDropped u.dfm ∧
      (u.dfm.fullRaised = false → { flag := .mapFull, hold := none } ∈ v.rqe.raises) := by
  refine ⟨_, calibrate_drops h, ?_⟩
  by_cases hf : u.dfm.fullRaised = false
  · rw [if_pos hf]
    exact ⟨fun s hs => (hs.dfm _).raised _, rfl, rfl, rfl, rfl, fun _ => List.mem_append_right _ List.mem_cons_self⟩
  · rw [if_neg hf]
    exact ⟨fun s hs => hs.dfm _, rfl, rfl, rfl, rfl, fun hn => absurd hn hf⟩

theorem calibrates_iff (t : Stb) (n : Nat) : t.calibrates n = true ↔ ∃ r, t.find n = some r ∧ r.flags.darkCal = true := by
  unfold Stb.calibrates
  cases t.find n <;> simp

end Candidate

end Sys2Proof.Machine
end

section
/-! PROOFS. An active beat at the cursor as a step of the readout (R92, R99 to R104, R122 to R126). -/

namespace Sys2Proof.Machine

set_option Elab.async false

section Active

variable {s v : State} {p : Posted} {b : PostedBeat} {o q : Readout} {off x d be bo : Nat}

/-- An active beat at the cursor, all its bytes enabled. -/
structure ActiveAt (o : Readout) (b : PostedBeat) (off x d : Nat) : Prop where
  enables : b.enables = 15
  dark : o.dark = some d
  cursor : o.cursor = off
  frame : off < o.image.frameBytes
  column : off % o.image.pitch = 2 * (o.image.masked + x)
  even : x % 2 = 0
  width : x + 2 ≤ o.image.width

theorem ActiveAt.offsetThere (h : ActiveAt o b off x d) : OffsetThere o off := .inl (by rw [h.dark]; simp)

theorem ActiveAt.pixel_zero (h : ActiveAt o b off x d) : b.pixel 0 = .received (b.data.toNat % 16384) := by
  rw [Machine.pixel_zero, h.enables]
  rfl

theorem ActiveAt.pixel_one (h : ActiveAt o b off x d) : b.pixel 1 = .received (b.data.toNat / 65536 % 16384) := by
  rw [Machine.pixel_one, h.enables]
  rfl

/-- The map as the beat finds it. -/
def mapAt (s : State) (o : Readout) (off : Nat) : Dfm := s.dfm.toLine (off / o.image.pitch)

/-- The readout as the beat finds it, its line settled. -/
def Readout.atBeat (o : Readout) (off : Nat) : Readout :=
  ({ o with cursor := off + 4 } : Readout).settleLine (off / o.image.pitch)

theorem ActiveAt.takeBeatAt_eq (h : ActiveAt o b off x d) (s : State) (parity : Bool) :
    takeBeatAt parity b ⟨timed s o, o, []⟩ off =
      (let even := takePixel (off / o.image.pitch) x (.received (b.data.toNat % 16384))
        ⟨withDfm (mapAt s o off) (timed s o), o.atBeat off, []⟩
       let odd := takePixel (off / o.image.pitch) (x + 1) (.received (b.data.toNat / 65536 % 16384)) even.2
       placeWord even.1 odd.1 parity (off / o.image.pitch) x off odd.2) := by
  have hcur := h.cursor
  have hcol := h.column
  have hwidth := h.width
  have hx : off % o.image.pitch / 2 - o.image.masked = x := by omega
  have hreach : (⟨timed s o, o, []⟩ : Work).reach off (off / o.image.pitch) =
      ⟨withDfm (mapAt s o off) (timed s o), { o with cursor := off + 4 }, []⟩ := by
    rw [reach_alone, Readout.reached, wordsBefore, if_neg (by omega), if_neg (by omega)]
    rfl
  refine (if_neg (Nat.not_le.2 h.frame)).trans ((if_neg (by dsimp only; omega)).trans
    ((if_neg (by dsimp only; omega)).trans ((if_pos (by dsimp only; omega)).trans ?_)))
  dsimp only
  rw [hx, hreach, takeActive_eq, h.pixel_zero, h.pixel_one]
  rfl

/-- The run of the beat's word. -/
def wordRun (b : PostedBeat) (y0 y1 : Nat) (parity : Bool) : WordRun :=
  ⟨b.addr, b.addr + 4, cellsAt b.addr (le 2 y0 ++ le 2 y1), parity, false⟩

theorem runTxns_wordRun (b : PostedBeat) (y0 y1 : Nat) (parity : Bool) : runTxns [wordRun b y0 y1 parity] =
    [⟨.captureWrite, b.addr, 4, cellsAt b.addr (le 2 y0 ++ le 2 y1), parity⟩] := by
  rw [wordRun, runTxns_word]
  exact wordTxn_of (List.cons_ne_nil _ _) _ _

/-- The readout after a beat of two developed pixels. -/
def Readout.developedWord (q : Readout) (off line d v0 v1 be bo x : Nat) : Readout :=
  { q with
    last := some ⟨off, some (developedAt q.image d line v0 be x), some (developedAt q.image d line v1 bo (x + 1))⟩
    stats := lined q.image.width (x + 1) (countedWord q.image d line v0 v1 be bo x q.stats) }

/-- Facts about the settled readout a beat finds. -/
structure SettledAt (o q : Readout) (line d be bo : Nat) : Prop where
  image : q.image = o.image
  slot : q.slot = o.slot
  shot : q.shot = o.shot
  dark : q.dark = some d
  settled : q.settled = some ⟨line, be, bo⟩
  wait : q.wait = o.wait
  clipped : q.stats.clipped ≤ 4294967295

/-- Both pixels developed, no word waiting. -/
theorem CaptureAlone.takes_developed (h : CaptureAlone s p b o off) (ha : ActiveAt o b off x d) (hq : o.atBeat off = q)
    (hs : SettledAt o q (off / o.image.pitch) d be bo) (hwait : o.wait = none)
    (hc0 : (mapAt s o off).covers (off / o.image.pitch) (o.image.masked + x) = false)
    (hv : tested (withDfm (mapAt s o off) (timed s o)) q (off / o.image.pitch) (o.image.masked + x) be
      (b.data.toNat % 16384) = v)
    (hc1 : v.dfm.covers (off / o.image.pitch) (o.image.masked + x + 1) = false)
    (hcool : hotAt v q bo (b.data.toNat / 65536 % 16384) = false) (hstb : v.stb = s.stb) :
    takeBeatAt p.parity b ⟨timed s o, o, []⟩ off =
      ⟨v, q.developedWord off (off / o.image.pitch) d (b.data.toNat % 16384) (b.data.toNat / 65536 % 16384) be bo x,
        [wordRun b (developedAt o.image d (off / o.image.pitch) (b.data.toNat % 16384) be x)
          (developedAt o.image d (off / o.image.pitch) (b.data.toNat / 65536 % 16384) bo (x + 1)) p.parity]⟩ := by
  obtain ⟨heven, hodd, hwork⟩ := takePixels_developed (runs := [])
    (u := withDfm (mapAt s o off) (timed s o)) hs.dark hs.settled ha.even (by rw [hs.image]; exact ha.width)
    hs.clipped (by rw [hs.image]; exact hc0) (by rw [hs.image]; exact hv) (by rw [hs.image]; exact hc1) hcool
  rw [ha.takeBeatAt_eq, hq]
  dsimp only
  rw [heven, hodd, hwork]
  refine (placeWord_developed (by exact hs.wait.trans hwait)).trans ?_
  have haddr : v.stb.slotBase (q.counting (lined q.image.width (x + 1) (countedWord q.image d (off / o.image.pitch)
      (b.data.toNat % 16384) (b.data.toNat / 65536 % 16384) be bo x q.stats))).slot + off = b.addr := by
    change v.stb.slotBase q.slot + off = b.addr
    rw [hstb, hs.slot, h.addr]
  rw [haddr, ← hs.image]
  rfl

/-- The even pixel covered, no word waiting: the beat's word waits. -/
theorem ActiveAt.takes_covered (ha : ActiveAt o b off x d) (hq : o.atBeat off = q)
    (hs : SettledAt o q (off / o.image.pitch) d be bo) (hwait : o.wait = none) (hx : x + 2 < o.image.width)
    (hc0 : (mapAt s o off).covers (off / o.image.pitch) (o.image.masked + x) = true)
    (hc1 : (mapAt s o off).covers (off / o.image.pitch) (o.image.masked + x + 1) = false)
    (hcool : hotAt (withDfm (mapAt s o off) (timed s o)) q bo (b.data.toNat / 65536 % 16384) = false) {parity : Bool} :
    let y1 := developedAt q.image d (off / o.image.pitch) (b.data.toNat / 65536 % 16384) bo (x + 1)
    takeBeatAt parity b ⟨timed s o, o, []⟩ off =
      ⟨withDfm (mapAt s o off) (timed s o), { q with
        stats := countDeveloped q.image d (off / o.image.pitch) (b.data.toNat / 65536 % 16384) bo (x + 1) q.stats
        last := some ⟨off, none, some y1⟩
        wait := some ⟨off, off / o.image.pitch, x, .covered, .value y1, (q.leftOf x off).bind (·.even),
          (q.leftOf x off).bind (·.odd), parity⟩ }, []⟩ := by
  intro y1
  obtain ⟨heven, hodd, hwork⟩ := takePixels_covered (runs := []) (v0 := b.data.toNat % 16384)
    (u := withDfm (mapAt s o off) (timed s o)) hs.dark hs.settled ha.even (by rw [hs.image]; exact hx)
    (by rw [hs.image]; exact hc0) (by rw [hs.image]; exact hc1) hcool
  rw [ha.takeBeatAt_eq, hq]
  dsimp only
  rw [heven, hodd, hwork]
  refine (placeWord_covered (by exact hs.wait.trans hwait) ?_).trans rfl
  exact (congrArg (fun g : Profile => x + 2 < g.width) hs.image).mpr hx

/-- A beat short of its line's end leaves the line count. -/
theorem developedWord_more (q : Readout) (hx : x + 2 < q.image.width) (off line d v0 v1 be bo : Nat) :
    q.developedWord off line d v0 v1 be bo x = { q with
      last := some ⟨off, some (developedAt q.image d line v0 be x), some (developedAt q.image d line v1 bo (x + 1))⟩
      stats := countedWord q.image d line v0 v1 be bo x q.stats } := by
  rw [Readout.developedWord, lined_other (by omega)]

/-- The right neighbour of a word that waits for it, neither of its own pixels covered. -/
theorem CaptureAlone.takes_right (h : CaptureAlone s p b o off) (ha : ActiveAt o b off x d) (hq : o.atBeat off = q)
    (hs : SettledAt o q (off / o.image.pitch) d be bo) {g : HeldWord} {w : Nat} (hwait : o.wait = some g)
    (hline : g.line = off / o.image.pitch) (hgx : g.x + 2 = x) (heven : g.even = .covered) (hodd : g.odd = .value w)
    (hc0 : (mapAt s o off).covers (off / o.image.pitch) (o.image.masked + x) = false)
    (hc1 : (mapAt s o off).covers (off / o.image.pitch) (o.image.masked + x + 1) = false)
    (hcool0 : hotAt (withDfm (mapAt s o off) (timed s o)) q be (b.data.toNat % 16384) = false)
    (hcool1 : hotAt (withDfm (mapAt s o off) (timed s o)) q bo (b.data.toNat / 65536 % 16384) = false)
    (hx : x + 2 < o.image.width) {y0 y1 y : Nat}
    (hy0 : developedAt q.image d (off / o.image.pitch) (b.data.toNat % 16384) be x = y0)
    (hy1 : developedAt q.image d (off / o.image.pitch) (b.data.toNat / 65536 % 16384) bo (x + 1) = y1)
    (hy : meanValue (leftUsed (mapAt s o off) q.image.masked g) y0 = y) :
    takeBeatAt p.parity b ⟨timed s o, o, []⟩ off =
      ⟨withDfm (mapAt s o off) (timed s o), { q with
        wait := none
        last := some ⟨off, some y0, some y1⟩
        stats := { countedWord q.image d (off / o.image.pitch) (b.data.toNat % 16384) (b.data.toNat / 65536 % 16384) be bo x
            q.stats with
          substituted := min 4294967295 (q.stats.substituted + 1)
          histogram := binned y (binned y1 (binned y0 q.stats.histogram)) } },
        [⟨s.stb.slotBase o.slot + g.offset, s.stb.slotBase o.slot + g.offset + 4,
          cellsAt (s.stb.slotBase o.slot + g.offset) (le 2 y ++ le 2 w), g.parity, true⟩, wordRun b y0 y1 p.parity]⟩ := by
  have hv : tested (withDfm (mapAt s o off) (timed s o)) q (off / o.image.pitch) (q.image.masked + x) be
      (b.data.toNat % 16384) = withDfm (mapAt s o off) (timed s o) := by
    rw [tested, hcool0]
    rfl
  obtain ⟨hfirst, hsecond, hwork⟩ := takePixels_developed (runs := []) (u := withDfm (mapAt s o off) (timed s o)) hs.dark
    hs.settled ha.even (by rw [hs.image]; exact ha.width) hs.clipped (by rw [hs.image]; exact hc0) hv
    (by rw [hs.image]; exact hc1) hcool1
  have hright : (mapAt s o off).covers g.line (q.image.masked + g.x + 2) = false := by
    rw [hline, hs.image, Nat.add_assoc, hgx]
    exact hc0
  rw [ha.takeBeatAt_eq, hq]
  dsimp only
  rw [hfirst, hsecond, hwork, lined_other (by rw [hs.image]; omega)]
  refine (placeWord_right (by exact hs.wait.trans hwait) heven hodd (by exact hright)).trans ?_
  have haddr : s.stb.slotBase q.slot + off = b.addr := by rw [hs.slot, h.addr]
  have ha' : s.stb.slotBase q.slot + g.offset = s.stb.slotBase o.slot + g.offset := by rw [hs.slot]
  dsimp only
  change (⟨_, _, [⟨s.stb.slotBase q.slot + g.offset, s.stb.slotBase q.slot + g.offset + 4,
    cellsAt (s.stb.slotBase q.slot + g.offset) _, _, _⟩, ⟨s.stb.slotBase q.slot + off, s.stb.slotBase q.slot + off + 4,
    cellsAt (s.stb.slotBase q.slot + off) _, _, _⟩]⟩ : Work) = _
  rw [haddr, ha', ← hy, ← hy1, ← hy0]
  rfl

/-- A shot that is no dark calibration tests no pixel. -/
theorem not_hot (hcal : ¬ ∃ r, s.stb.find o.shot = some r ∧ r.flags.darkCal = true) (hshot : q.shot = o.shot) (m : Dfm)
    (black v : Nat) : hotAt (withDfm m (timed s o)) q black v = false := by
  have hnot : s.stb.calibrates o.shot = false := by
    rw [← Bool.not_eq_true, calibrates_iff]
    exact hcal
  rw [hotAt, hshot]
  change (s.stb.calibrates o.shot && _) = false
  rw [hnot]
  rfl

theorem cool_not_hot {u : State} {black v : Nat} (h : v ≤ black + q.image.hot) : hotAt u q black v = false := by
  rw [hotAt, decide_eq_false (Nat.not_lt.2 h), Bool.and_false]

theorem tested_cool {u : State} {line column black v : Nat} (h : hotAt u q black v = false) :
    tested u q line column black v = u := by
  rw [tested, h]
  rfl

/-- The last beat of a line completes it. -/
theorem developedWord_last (q : Readout) (hx : x + 2 = q.image.width) (off line d v0 v1 be bo : Nat) :
    q.developedWord off line d v0 v1 be bo x = { q with
      last := some ⟨off, some (developedAt q.image d line v0 be x), some (developedAt q.image d line v1 bo (x + 1))⟩
      stats := { countedWord q.image d line v0 v1 be bo x q.stats with lines := min 9216 (q.stats.lines + 1) } } := by
  rw [Readout.developedWord, lined, if_pos (by omega)]
  rfl

end Active

end Sys2Proof.Machine
end

section
/-! PROOFS. A capture beat in a readout, settled (R87 to R93, R99 to R108, R122 to R126; O46). -/

namespace Sys2Proof.Machine

set_option Elab.async false

section Statement

variable {s t : State} {p : Posted} {b : PostedBeat} {o q : Readout} {off x d be bo : Nat} {words : List Txn} {line : Nat}

/-- With no insertions in the line the map stands as it was. -/
theorem Took.mapKept (h : Took s q words (s.dfm.toLine line) t) (hins : s.dfm.firstIns = none) :
    t.dfm.entries = s.dfm.entries ∧ t.dfm.rewrite = s.dfm.rewrite ∧ t.dfm.drops = s.dfm.drops ∧
      t.dfm.sequence = s.dfm.sequence := by
  rw [h.dfm, toLine_noInsertions hins]
  exact ⟨rfl, rfl, rfl, rfl⟩

/-- The word of an active beat is handed on. -/
theorem Took.word {y0 y1 : Nat} {m : Dfm} (h : Took s q (runTxns [wordRun b y0 y1 p.parity]) m t) :
    (⟨.captureWrite, b.addr, 4, cellsAt b.addr (le 2 y0 ++ le 2 y1), p.parity⟩ : Txn) ∈ t.fmc.pending :=
  h.hands (by rw [runTxns_wordRun]; exact List.mem_singleton.2 rfl)

theorem ReadoutEnded.word {y0 y1 n : Nat} {r : ShotRecord} {pce : Pce} {m : Dfm}
    (h : ReadoutEnded s n (runTxns [wordRun b y0 y1 p.parity]) r pce m t) :
    (⟨.captureWrite, b.addr, 4, cellsAt b.addr (le 2 y0 ++ le 2 y1), p.parity⟩ : Txn) ∈ t.fmc.pending :=
  h.hands (by rw [runTxns_wordRun]; exact List.mem_singleton.2 rfl)

/-- The word that has waited for its right neighbour, and its neighbour's word. -/
theorem runTxns_pair (a y w y0 y1 : Nat) (parity : Bool) :
    runTxns [⟨a, a + 4, cellsAt a (le 2 y ++ le 2 w), parity, true⟩, wordRun b y0 y1 p.parity] =
      [⟨.captureWrite, a, 4, cellsAt a (le 2 y ++ le 2 w), parity⟩,
        ⟨.captureWrite, b.addr, 4, cellsAt b.addr (le 2 y0 ++ le 2 y1), p.parity⟩] := by
  refine (runTxns_append [_] [_]).trans ?_
  rw [runTxns_wordRun, runTxns_word, wordTxn_of (by exact List.cons_ne_nil _ _)]
  rfl

/-- A beat of two developed pixels in a shot that is no calibration, its line settled, the readout going on. -/
theorem CaptureAlone.developed_goes_on (h : CaptureAlone s p b o off) (ha : ActiveAt o b off x d) (hq : o.atBeat off = q)
    (hs : SettledAt o q (off / o.image.pitch) d be bo) (hwait : o.wait = none) (hmore : x + 2 < o.image.width)
    (hend : off + 4 < o.image.frameBytes) (hcursor : q.cursor = off + 4)
    (hc0 : s.dfm.covers (off / o.image.pitch) (o.image.masked + x) = false)
    (hc1 : s.dfm.covers (off / o.image.pitch) (o.image.masked + x + 1) = false)
    (hcal : ¬ ∃ r, s.stb.find o.shot = some r ∧ r.flags.darkCal = true) :
    ∃ t, exec .writeBurstDelivery s = .next t ∧
      Took s { q with
        last := some ⟨off, some (developedAt q.image d (off / o.image.pitch) (b.data.toNat % 16384) be x),
          some (developedAt q.image d (off / o.image.pitch) (b.data.toNat / 65536 % 16384) bo (x + 1))⟩
        stats := countedWord q.image d (off / o.image.pitch) (b.data.toNat % 16384) (b.data.toNat / 65536 % 16384) be bo x
          q.stats }
        (runTxns [wordRun b (developedAt o.image d (off / o.image.pitch) (b.data.toNat % 16384) be x)
          (developedAt o.image d (off / o.image.pitch) (b.data.toNat / 65536 % 16384) bo (x + 1)) p.parity])
        (s.dfm.toLine (off / o.image.pitch)) t := by
  have hcool (black v : Nat) := not_hot hcal hs.shot (mapAt s o off) black v
  have htakes := h.takes_developed ha hq hs hwait ((toLine_covers _ _ _ _).trans hc0) (tested_cool (hcool be _))
    ((toLine_covers _ _ _ _).trans hc1) (hcool bo _) rfl
  have himage := hs.image
  rw [developedWord_more q (by rw [himage]; exact hmore)] at htakes
  exact h.took ha.offsetThere htakes (by dsimp only; rw [himage, hcursor]; exact hend) himage

/-- The end of a line with insertions, found at the beat's line or at the end of the readout, begins their rewrite. -/
theorem endLine_toLine {m : Dfm} {k : Nat} (hk : m.firstIns = some k) (hlen : k < m.entries.length) (hr : m.rewrite = none)
    (line : Nat) :
    (m.toLine line).endLine.rewrite = some ⟨k, m.entries.length⟩ ∧
      (m.toLine line).endLine.sequence = (m.sequence + 1) % 4294967296 ∧ (m.toLine line).endLine.entries = m.entries := by
  by_cases hline : m.insLine < line
  · rw [toLine_nextLine hk hline hlen hr, Dfm.endLine]
    exact ⟨rfl, rfl, rfl⟩
  · rw [toLine_sameLine (Nat.not_lt.1 hline), endLine_begins (by exact hk) (by exact hlen) (by exact hr)]
    exact ⟨rfl, rfl, rfl⟩

theorem toLine_same {m : Dfm} (h : m.firstIns = none ∨ line ≤ m.insLine) :
    m.toLine line = { m with insLine := line, cursor := m.entries.countP fun e => decide (e.row < line) } :=
  h.elim (toLine_noInsertions · line) toLine_sameLine

/-- The map with a beat's candidate in it (R124). -/
theorem insert_toLine {m : Dfm} (hline : m.firstIns = none ∨ line ≤ m.insLine) (hr : m.rewrite = none) (column : Nat) :
    let k := m.entries.countP fun e => decide (e.row < line ∨ e.row = line ∧ e.column < column)
    (m.toLine line).insert line column = { m with
      entries := m.entries.insertIdx k ⟨line, column, none, true⟩
      firstIns := some (match m.firstIns with
        | some q => min q k
        | none => k)
      insLine := line
      cursor := m.entries.countP fun e => decide (e.row < line) } := by
  intro k
  rw [toLine_same hline, insert_eq (by exact hr)]
  rfl

/-- A hot pixel of a dark calibration (R123). -/
theorem tested_hot {u : State} {line column black v : Nat} (hcal : u.stb.calibrates q.shot = true)
    (h : black + q.image.hot < v) : tested u q line column black v = calibrate line column u := by
  refine if_pos ?_
  rw [hotAt, hcal, decide_eq_true h]
  rfl

end Statement

/-- Settles O46: each kind of beat as it is taken, the readout's goings-on and its ends. -/
theorem captureDeveloped : Obligations.CaptureDeveloped := by
  intro s p b o off hheld hpath hq hd hwaiting hbeats hlive hreadout hending hstate haddr
    g line at_ idle v0 v1 hands handsNothing mapKept took acc cal
  have h : CaptureAlone s p b o off := ⟨hheld, hpath, hq, hd, hwaiting, hbeats, hlive, hreadout, hending, hstate, haddr⟩
  refine ⟨?_, ?_, ?_, ?_⟩
  · intro col hframe hend hcur hat hcol hmasked on got0 got1 half good0 good1 cells acc' jumps o'
    have htakes := h.takes_masked hframe hcur hat hcol hmasked
    have hcursor : (o.masked s b off line col).cursor < (o.masked s b off line col).image.frameBytes := hend
    have hthere : OffsetThere o off := .inr fun hn => by
      have hlow := hn.2.2.1
      change 2 * g.masked ≤ at_ at hlow
      omega
    obtain ⟨t, ht, htook⟩ := h.took hthere htakes hcursor rfl
    refine ⟨fun hins => ⟨t, ht, ⟨htook.queue, htook.pce, htook.mapKept hins, htook.frame⟩, ?_⟩,
      fun k hk hline hlen hr => ⟨t, ht, htook.pce, ?_⟩⟩
    · obtain ⟨more, hmore, hkind⟩ := htook.pending
      rw [runTxns_masked, ← List.append_assoc] at hmore
      exact ⟨more, hmore, hkind⟩
    · have hdfm := htook.dfm
      rw [toLine_nextLine hk hline hlen hr] at hdfm
      rw [hdfm]
      exact ⟨rfl, rfl, rfl, rfl, htook.frame⟩
  · intro hbehind hcur
    obtain ⟨t, ht, htook⟩ := h.took (.inr fun hn => absurd hn.2.1 (Nat.not_le.2 hbehind))
      (CaptureAlone.takes_behind hbehind hcur) hcur rfl
    have hdfm := htook.dfm
    exact ⟨t, ht, ⟨htook.queue, htook.pce, ⟨by rw [hdfm], by rw [hdfm], by rw [hdfm], by rw [hdfm]⟩, htook.frame⟩,
      fun y hy hk => htook.handsNothing hy hk⟩
  · intro hwait hins hcur raw skipped pad handed
    have hraw := runTxns_raw s o hlive p.parity
    refine ⟨fun hpad hend => ?_, fun r i hlast hfind hphase hslot hi hcal hnone => ?_⟩
    · obtain ⟨hframe, hcol, hcur'⟩ := hpad
      have hthere : OffsetThere o off := .inr fun hn => absurd hn.2.2.2 (Nat.not_lt.2 hcol)
      obtain ⟨t, ht, htook⟩ := h.took hthere (CaptureAlone.takes_pad hframe hcur' hcol hwait) hend rfl
      obtain ⟨more, hmore, -⟩ := htook.pending
      rw [hraw, ← List.append_assoc] at hmore
      exact ⟨t, ht, ⟨more, hmore⟩, htook.queue, htook.pce, htook.mapKept hins, htook.frame⟩
    · have hends {m : Dfm} {upTo cursor : Nat} (hthere : OffsetThere o off) (hm : m.entries = s.dfm.entries)
          (htakes : takeBeatAt p.parity b ⟨timed s o, o, []⟩ off = ⟨withDfm m (timed s o), o.skipped s upTo cursor,
            addWord b.addr b.cells p.parity false (heldRuns s o)⟩) (hcursor : g.frameBytes ≤ cursor)
          (hupTo : upTo = min off g.frameBytes) :
          ∃ t, exec .writeBurstDelivery s = .next t ∧ handed t ∧ t.hmp.queue = [] ∧ t.pce = ⟨none, none⟩ ∧
            t.stb.find o.shot = some { r with phase := .held, stats := skipped (min off g.frameBytes) } ∧
            (∀ n, n ≠ o.shot → t.stb.find n = s.stb.find n) ∧ t.stb.slotState i = .held ∧ t.dfm.entries = s.dfm.entries ∧
            Raised .held t ∧ OnlyChanges [.posted, .pce, .dfm, .stb] s t := by
        obtain ⟨t, ht, hended, hheld', hraised⟩ := h.ends_held hthere htakes hcursor rfl rfl hfind hphase hslot hi hcal hnone
        obtain ⟨more, hmore⟩ := hended.pending
        rw [hraw, ← List.append_assoc] at hmore
        have hentries : t.dfm.entries = s.dfm.entries := by
          rw [hended.dfm]
          exact hm
        rw [← hupTo]
        exact ⟨t, ht, ⟨more, hmore⟩, hended.queue, hended.pce, hended.find, hended.others, hheld', hentries, hraised,
          hended.frame⟩
      rcases hlast with ⟨⟨hframe, hcol, hcur'⟩, hend⟩ | hbeyond
      · exact hends (.inr fun hn => absurd hn.2.2.2 (Nat.not_lt.2 hcol)) (toLine_entries _ _)
          (CaptureAlone.takes_pad hframe hcur' hcol hwait) hend.ge (Nat.min_eq_left hframe.le).symm
      · exact hends (.inr fun hn => absurd hn.1 (Nat.not_lt.2 hbeyond)) rfl (CaptureAlone.takes_beyond hcur hbeyond) le_rfl
          (Nat.min_eq_right hbeyond).symm
  · intro d x hen hdark hcur hframe hat hx hwidth hm hc1 column developed bin word clips counted
    have ha : ActiveAt o b off x d := ⟨hen, hdark, hcur, hframe, hat, hx, hwidth⟩
    refine ⟨fun hc0 hins hcal hwait hmore hend hclip hnew => ?_, fun be bo hset hclip => ?_⟩
    · intro far black be bo rejects accepted st
      have hq : o.atBeat off = ({ o with cursor := off + 4 } : Readout).settledAt line := settleLine_new hnew
      have hs : SettledAt o (({ o with cursor := off + 4 } : Readout).settledAt line) line d be bo :=
        ⟨rfl, rfl, rfl, hdark, rfl, rfl, hclip⟩
      obtain ⟨t, ht, htook⟩ := h.developed_goes_on ha hq hs hwait hmore hend rfl hc0 hc1 hcal
      exact ⟨t, ht, htook.word, htook.queue, htook.pce, htook.mapKept hins, htook.frame⟩
    · intro y0 y1 o' more last
      have hq : o.atBeat off = { o with cursor := off + 4 } := settleLine_settled hset
      have hs : SettledAt o { o with cursor := off + 4 } line d be bo := ⟨rfl, rfl, rfl, hdark, hset, rfl, hclip⟩
      have hcover0 : (mapAt s o off).covers line column = s.dfm.covers line column := toLine_covers _ _ _ _
      have hcover1 : (mapAt s o off).covers line (column + 1) = false := (toLine_covers _ _ _ _).trans hc1
      refine ⟨fun hc0 hins hcal hwait hmore => ?_, fun hc0 hins hcal hwait hmore => ?_, ?_, ?_, ?_⟩
      · obtain ⟨t, ht, htook⟩ := h.developed_goes_on ha hq hs hwait hmore.1 hmore.2 rfl hc0 hc1 hcal
        exact ⟨t, ht, htook.word, htook.queue, htook.pce, htook.mapKept hins, htook.frame⟩
      · intro left
        have hcool := not_hot hcal (q := { o with cursor := off + 4 }) rfl (mapAt s o off) bo v1
        have htakes := ha.takes_covered (parity := p.parity) hq hs hwait hmore.1 (hcover0.trans hc0) hcover1 hcool
        obtain ⟨t, ht, htook⟩ := h.took ha.offsetThere htakes hmore.2 rfl
        exact ⟨t, countDeveloped g d line v1 bo (x + 1) o.stats, ht, fun y hy hk => htook.handsNothing hy hk, rfl, rfl, htook.queue, htook.pce, htook.mapKept hins,
          htook.frame⟩
      · intro w z hc0 hins hcal hmore hwait hline hwx hoff heven hodd left y a
        have hcool (black v : Nat) := not_hot hcal (q := { o with cursor := off + 4 }) rfl (mapAt s o off) black v
        have hleft : meanValue (leftUsed (mapAt s o off) g.masked w) y0 = y := by
          have hcover : (mapAt s o off).covers w.line (g.masked + w.x - 2) = s.dfm.covers line (g.masked + w.x - 2) := by
            rw [hline]
            exact toLine_covers _ _ _ _
          unfold leftUsed
          rw [hcover]
          rfl
        have htakes := h.takes_right ha hq hs hwait hline hwx heven hodd (hcover0.trans hc0) hcover1 (hcool be _) (hcool bo _)
          hmore.1 rfl rfl hleft
        obtain ⟨t, ht, htook⟩ := h.took ha.offsetThere htakes hmore.2 rfl
        obtain ⟨more, hmore', -⟩ := htook.pending
        rw [runTxns_pair] at hmore'
        exact ⟨t, { counted be bo o.stats with
          substituted := min 4294967295 (o.stats.substituted + 1), histogram := bin y (bin y1 (bin y0 o.stats.histogram)) },
          more, ht, hmore', rfl, rfl, htook.queue, htook.pce, htook.mapKept hins, htook.frame⟩
      · intro hc0 hcal hwait hmore hhot hcold hline hr k
        have hcalibrates : s.stb.calibrates o.shot = true := (calibrates_iff _ _).2 hcal
        have htested : tested (withDfm (mapAt s o off) (timed s o)) { o with cursor := off + 4 } line column be v0 =
            calibrate line column (withDfm (mapAt s o off) (timed s o)) := tested_hot hcalibrates hhot
        have hentries : (mapAt s o off).entries = s.dfm.entries := toLine_entries _ _
        have hinsert := insert_toLine hline hr column
        refine ⟨fun hlen => ?_, fun hlen => ?_⟩
        · have hv := htested.trans (calibrate_inserts (by change (mapAt s o off).entries.length < 8192; rwa [hentries]))
          have hcover : ((mapAt s o off).insert line column).covers line (column + 1) = false :=
            insert_covers_right _ hcover1 (by rw [mapAt, toLine_same hline]; exact hr)
          have htakes := h.takes_developed ha hq hs hwait (hcover0.trans hc0) hv hcover (cool_not_hot hcold) rfl
          rw [developedWord_more { o with cursor := off + 4 } hmore.1] at htakes
          have hframe : OnlyChanges [.pce, .dfm] s (withDfm ((mapAt s o off).insert line column)
              (withDfm (mapAt s o off) (timed s o))) := (((OnlyChanges.refl _ s).pce _).dfm _).dfm _
          obtain ⟨t, ht, htook, -⟩ := h.goes_on ha.offsetThere htakes hmore.2 rfl hframe rfl rfl
          have hdfm := htook.dfm.trans hinsert
          refine ⟨t, ht, htook.word, htook.pce, by rw [hdfm], fun hn => by rw [hdfm, hn], fun j hj => by rw [hdfm, hj],
            by rw [hdfm], by rw [hdfm]; exact hr, by rw [hdfm], by rw [hdfm], htook.frame⟩
        · have hdrops : (mapAt s o off).drops = s.dfm.drops := by rw [mapAt, toLine_same hline]
          have hfull : (mapAt s o off).fullRaised = s.dfm.fullRaised := by rw [mapAt, toLine_same hline]
          obtain ⟨v, hv, hchanges, hpce, hfmc, hstb, hdfm, hraises⟩ := calibrate_dropped (line := line) (column := column)
            (u := withDfm (mapAt s o off) (timed s o)) (by change 8192 ≤ (mapAt s o off).entries.length; rwa [hentries])
          have hcover : v.dfm.covers line (column + 1) = false := by rw [hdfm]; exact hcover1
          have htakes := h.takes_developed ha hq hs hwait (hcover0.trans hc0) (htested.trans hv) hcover (cool_not_hot hcold) hstb
          rw [developedWord_more { o with cursor := off + 4 } hmore.1] at htakes
          obtain ⟨t, ht, htook, hraised⟩ := h.goes_on ha.offsetThere htakes hmore.2 rfl
            (hchanges _ ((((OnlyChanges.refl _ s).pce _).dfm _))) hpce hfmc
          have hmap := htook.dfm.trans hdfm
          refine ⟨t, ht, htook.word, htook.pce, by rw [hmap]; exact hentries, ?_, by rw [hmap]; rfl,
            fun hf => hraised _ (hraises (hfull.trans hf)), htook.frame⟩
          rw [hmap, ← hdrops]
          rfl
      · intro r i hc0 hwait hlast hfind hphase hslot hi hnone st closed
        have hcursor : g.frameBytes ≤ off + 4 := hlast.2.ge
        refine ⟨fun hins hdark' => ?_, fun hdark' hcold0 hcold1 hr => ?_⟩
        · have hcal : ¬ ∃ r, s.stb.find o.shot = some r ∧ r.flags.darkCal = true := by
            rintro ⟨r', hr', hset'⟩
            rw [hfind, Option.some.injEq] at hr'
            rw [← hr', hdark'] at hset'
            exact absurd hset' (by decide)
          have hcool (black v : Nat) := not_hot hcal (q := { o with cursor := off + 4 }) rfl (mapAt s o off) black v
          have htakes := h.takes_developed ha hq hs hwait (hcover0.trans hc0) (tested_cool (hcool be _)) hcover1 (hcool bo _) rfl
          rw [developedWord_last { o with cursor := off + 4 } hlast.1] at htakes
          obtain ⟨t, ht, hended, hheld', hraised⟩ := h.ends_held ha.offsetThere htakes hcursor hwait rfl hfind hphase hslot hi
            hdark' hnone
          exact ⟨t, ht, ⟨hended.word, hended.queue, hended.others, by rw [hended.dfm]; exact toLine_entries _ _⟩, hended.pce,
            hended.find, hheld', hraised, hended.frame⟩
        · have htakes := h.takes_developed ha hq hs hwait (hcover0.trans hc0) (tested_cool (cool_not_hot hcold0)) hcover1
            (cool_not_hot hcold1) rfl
          rw [developedWord_last { o with cursor := off + 4 } hlast.1] at htakes
          refine ⟨fun hins => ?_, fun k hk hlen => ?_⟩
          · have hmap := toLine_noInsertions hins line
            obtain ⟨t, ht, hended, hfree⟩ := h.ends_calibrated ha.offsetThere htakes hcursor hwait rfl hfind hphase hslot hi
              hdark' (by rw [mapAt, hmap]; exact hins) (by rw [mapAt, hmap]; exact hr) hnone
            exact ⟨t, ht, ⟨hended.word, hended.queue, hended.others, by rw [hended.dfm]; exact toLine_entries _ _⟩,
              hended.pce, hended.find, hfree, hended.frame⟩
          · obtain ⟨hrewrite, hsequence, hentries⟩ := endLine_toLine hk hlen hr line
            obtain ⟨t, ht, hended⟩ := h.ends_waiting ha.offsetThere htakes hcursor hwait rfl hfind hdark' (by
              rw [mapAt, hrewrite]
              rfl)
            exact ⟨t, ht, ⟨hended.word, hended.queue, hended.others, by rw [hended.dfm]; exact hentries⟩, hended.pce,
              hended.find, by rw [hended.dfm]; exact hrewrite, by rw [hended.dfm]; exact hsequence, hended.frame⟩

end Sys2Proof.Machine
end

section
/-! PROOFS. What one period leaves to its later samples: the Card Engine's detection and power as the sequencer and the
card's own steps leave them (R160, R165, R166; O2). -/

namespace Sys2Proof.Machine

set_option Elab.async false

/-! ### What is kept -/

/-- No card read waits, is served, or has its result still to be written. -/
def NoReads (s : State) : Prop := s.cde.ended = [] ∧ s.cde.reads = [] ∧ s.cde.serving = none

/-- The detection of the card and the time base stay; power and an overcurrent end but do not begin; no card read begins. -/
structure Unmoved (b s : State) : Prop where
  detected : s.cde.detected = b.cde.detected
  detCount : s.cde.detCount = b.cde.detCount
  detLevel : s.cde.detLevel = b.cde.detLevel
  present : s.pins.cardPresent = b.pins.cardPresent
  unpowered : b.cde.pwrEn = false → s.cde.pwrEn = false
  noCurrent : b.pins.overcurrent = false → s.pins.overcurrent = false
  noReads : NoReads b → NoReads s
  timeBase : s.exs.timeBase = b.exs.timeBase

theorem Unmoved.trans {b s t : State} (h : Unmoved b s) (k : Unmoved s t) : Unmoved b t :=
  ⟨k.detected.trans h.detected, k.detCount.trans h.detCount, k.detLevel.trans h.detLevel, k.present.trans h.present,
    k.unpowered ∘ h.unpowered, k.noCurrent ∘ h.noCurrent, k.noReads ∘ h.noReads, k.timeBase.trans h.timeBase⟩

/-- So it is, a filter at rest stays so, and the sequencer stays where `X` holds. -/
structure Sensed (X : Prop) (b s : State) : Prop where
  unmoved : Unmoved b s
  filter : b.exs.sync.run = none → s.exs.sync.run = none ∧ s.exs.sync.closed = b.exs.sync.closed
  exs : X → s.exs = b.exs

/-- The fields of the detection, of power, of the card reads and of the filter. -/
def sensedFields (s : State) :=
  ((s.exs.timeBase, s.exs.sync), (s.cde.detected, s.cde.detCount, s.cde.detLevel, s.pins.cardPresent), (s.cde.pwrEn, s.pins.overcurrent),
    s.cde.ended, s.cde.reads, s.cde.serving)

section Sensed

variable {X : Prop} {b s t : State}

theorem Sensed.refl (X : Prop) (s : State) : Sensed X s s :=
  ⟨⟨rfl, rfl, rfl, rfl, id, id, id, rfl⟩, fun h => ⟨h, rfl⟩, fun _ => rfl⟩

theorem Sensed.trans (h : Sensed X b s) (k : Sensed X s t) : Sensed X b t :=
  ⟨h.unmoved.trans k.unmoved, fun hr => ⟨(k.filter (h.filter hr).1).1, (k.filter (h.filter hr).1).2.trans (h.filter hr).2⟩,
    fun x => (k.exs x).trans (h.exs x)⟩

theorem sensed_of_fields (hx : X → t.exs = s.exs) (e : sensedFields t = sensedFields s) : Sensed X s t := by
  simp only [sensedFields, Prod.mk.injEq] at e
  obtain ⟨⟨h0, hsync⟩, ⟨h1, h2, h3, h4⟩, ⟨h5, h6⟩, h7, h8, h9⟩ := e
  refine ⟨⟨h1, h2, h3, h4, fun h => h5.trans h, fun h => h6.trans h, fun ⟨r1, r2, r3⟩ => ?_, h0⟩, fun hr => ?_, hx⟩
  · exact ⟨h7.trans r1, h8.trans r2, h9.trans r3⟩
  · rw [hsync]
    exact ⟨hr, rfl⟩

/-- A change of other parts than those the relation looks at. -/
theorem Sensed.same (h : Sensed X b s) (hx : t.exs = s.exs := by exact rfl)
    (e : sensedFields t = sensedFields s := by exact rfl) : Sensed X b t :=
  h.trans (sensed_of_fields (fun _ => hx) e)

/-- A change of the sequencer. -/
theorem Sensed.moved (h : Sensed X b s) (e : sensedFields t = sensedFields s := by exact rfl) : Sensed False b t := by
  have k : Sensed False b s := ⟨h.unmoved, h.filter, False.elim⟩
  exact k.trans (sensed_of_fields False.elim e)

theorem powerDown_sensed (h : Sensed X b s) (why : DischargeFor) : Sensed X b (powerDown why s) :=
  h.trans ⟨⟨rfl, rfl, rfl, rfl, fun _ => rfl, fun _ => rfl, id, rfl⟩, fun h => ⟨h, rfl⟩, fun _ => rfl⟩

theorem powerDownTo_sensed (h : Sensed X b s) (why : DischargeFor) : Sensed X b (powerDownTo why s) :=
  (powerDown_sensed h why).same

/-- A change within a frame that leaves the sequencer, the card and the pins. -/
theorem Sensed.framed {ps : List Part} (h : Sensed X b s) (k : OnlyChanges ps s t)
    (hexs : Part.exs ∉ ps := by decide) (hcde : Part.cde ∉ ps := by decide) (hpins : Part.pins ∉ ps := by decide) :
    Sensed X b t := by
  have hcde' : t.cde = s.cde := k.2 .cde hcde (by decide)
  have hpins' : t.pins = s.pins := k.2 .pins hpins (by decide)
  have hexs' : t.exs = s.exs := k.2 .exs hexs (by decide)
  refine h.trans (sensed_of_fields (fun _ => hexs') ?_)
  simp only [sensedFields, hexs', hcde', hpins']

/-! ### Bursts and the held capture burst -/

theorem countViolation_sensed (h : Sensed X b s) : Sensed X b (countViolation s) := h.framed (countViolation_onlyChanges s)

theorem countOutOfRange_sensed (h : Sensed X b s) (o : Bool) : Sensed X b (countOutOfRange o s) :=
  h.framed (countOutOfRange_onlyChanges o s)

theorem takeRead_sensed (h : Sensed X b s) (a : BitVec 32) (n : Nat) : Sensed X b (takeRead a n s) := by
  have h1 (o : Bool) : Sensed X b (countOutOfRange o (countViolation s)) := countOutOfRange_sensed (countViolation_sensed h) o
  unfold takeRead
  dsimp only
  split
  · exact (h1 _).same
  · split <;> exact (h1 _).same

theorem takeWrite_sensed (h : Sensed X b s) (a : BitVec 32) (bs : List WriteBeat) : Sensed X b (takeWrite a bs s) := by
  have h1 (o : Bool) : Sensed X b (countOutOfRange o (countViolation s)) := countOutOfRange_sensed (countViolation_sensed h) o
  unfold takeWrite
  dsimp only
  split <;> exact (h1 _).same

theorem offerBurst_sensed (h : Sensed X b s) (t : HostBurst) : Sensed X b (offerBurst t s) := by
  unfold offerBurst
  split
  · exact takeRead_sensed h _ _
  · split
    · exact takeWrite_sensed h _ _
    · exact h.same

theorem offerBursts_sensed (h : Sensed X b s) (bs : List HostBurst) :
    Sensed X b (bs.foldl (fun s t => offerBurst t s) s) := by
  induction bs generalizing s with
  | nil => exact h
  | cons t bs ih => exact ih (offerBurst_sensed h t)

theorem admitWaiting_sensed (h : Sensed X b s) : Sensed X b (admitWaiting s) := offerBursts_sensed h.same _

theorem acceptHeld_sensed (h : Sensed X b s) : Sensed X b (acceptHeld s) := by
  unfold acceptHeld
  split
  · exact h
  · split
    · exact h
    · exact admitWaiting_sensed
        ((h.framed ((restartIdle_handled s).trans (takeCapture_handled _ _ _)).frame).same)

/-! ### Demands -/

theorem rewriteShot_sensed (h : Sensed X b s) (n : Nat) : Sensed X b (rewriteShot n s) := h.framed (rewriteShot_onlyChanges s n)

theorem giveOffset_sensed (h : Sensed X b s) (n d : Nat) : Sensed X b (giveOffset n d s) := by
  unfold giveOffset
  split
  · split
    · exact acceptHeld_sensed h.same
    · exact h
  · exact h

theorem answerTempStart_sensed (h : Sensed X b s) (n : Nat) (v : Option Int) : Sensed X b (answerTempStart n v s) := by
  unfold answerTempStart
  split
  · exact h.same
  · exact h

theorem answerTempEnd_sensed (h : Sensed X b s) (n : Nat) (v : Option Int) : Sensed X b (answerTempEnd n v s) := by
  unfold answerTempEnd
  extract_lets s1
  have h1 : Sensed X b s1 := by
    simp only [s1]
    split
    · exact h.same
    · exact h
  split
  · exact h1
  · exact giveOffset_sensed (rewriteShot_sensed h1.same _) _ _

theorem ask_sensed (h : Sensed X b s) (d : Demand) : Sensed X b (ask d s) := by
  unfold ask
  split
  · exact h.same
  · exact h
  · exact answerTempStart_sensed h.same _ _
  · exact answerTempEnd_sensed h.same _ _

/-! ### Parks -/

theorem enter_sensed (c : Cde) (st : CardState) : (c.enter st).detected = c.detected ∧ (c.enter st).detCount = c.detCount ∧
    (c.enter st).detLevel = c.detLevel ∧ (c.enter st).pwrEn = c.pwrEn ∧ (c.enter st).ended = c.ended ∧
    (c.enter st).reads = c.reads ∧ (c.enter st).serving = c.serving := by
  unfold Cde.enter
  split <;> exact ⟨rfl, rfl, rfl, rfl, rfl, rfl, rfl⟩

theorem startPowerUp_sensed (h : Sensed X b s) : Sensed X b (startPowerUp s) := by
  have h1 : Sensed X b (modCde (fun c => { c with rail := .off, lines := .highZ, powerUp := some .reading }.enter .powering)
      s) := by
    obtain ⟨h1, h2, h3, h4, h5, h6, h7⟩ :=
      enter_sensed { s.cde with rail := .off, lines := .highZ, powerUp := some .reading } .powering
    refine h.trans (sensed_of_fields (fun _ => rfl) ?_)
    simp only [sensedFields, modCde, h1, h2, h3, h4, h5, h6, h7]
  exact ask_sensed h1 _

theorem reachParked_sensed (h : Sensed X b s) : Sensed X b (reachParked s) := by
  unfold reachParked
  extract_lets s1
  have h1 : Sensed X b s1 := h.same
  split
  · exact startPowerUp_sensed h1
  · exact h1

theorem parkNow_sensed (h : Sensed X b s) : Sensed X b (parkNow s) := by
  unfold parkNow
  extract_lets s1
  have h1 : Sensed X b s1 := h.same
  split
  · split
    · exact h1.same
    · exact powerDownTo_sensed h1 _
  · exact powerDownTo_sensed h1.same _
  · exact powerDownTo_sensed h1 _
  · exact powerDownTo_sensed h1 _
  · exact powerDownTo_sensed h1 _
  · split
    · exact powerDownTo_sensed h1 _
    · exact reachParked_sensed h1
  · split
    · exact h1.same
    · exact h1
  all_goals exact h1

theorem payPark_sensed (h : Sensed X b s) : Sensed X b (payPark s) := by
  unfold payPark
  split
  · exact parkNow_sensed h
  · exact h

theorem becomeReady_sensed (h : Sensed X b s) : Sensed X b (becomeReady s) := payPark_sensed h.same

/-! ### The drain -/

theorem returnShot_sensed (h : Sensed X b s) (res : StoreResult) : Sensed X b (returnShot res s) := by
  unfold returnShot
  split
  · exact h
  · have h1 : Sensed X b (dropContainer s) := h.same
    dsimp only
    split
    · exact h1
    · exact h1.same

theorem containerParked_sensed (h : Sensed X b s) : Sensed X b (containerParked s) :=
  becomeReady_sensed (returnShot_sensed h _)

theorem sumNext_sensed (h : Sensed X b s) : Sensed X b (sumNext s) := by
  unfold sumNext
  split
  · exact h
  · dsimp only
    split
    · exact h
    · split
      · exact containerParked_sensed h
      · split
        · exact h.same
        · split
          · exact h
          · exact h.same

theorem nextDataRun_sensed (h : Sensed X b s) (c : Container) : Sensed X b (nextDataRun c s) := by
  unfold nextDataRun
  dsimp only
  split <;> exact h.same

theorem drainEnded_sensed (h : Sensed X b s) (k : Nat) (all : Bool) : Sensed X b (drainEnded k all s) := by
  unfold drainEnded
  extract_lets s1
  have h1 : Sensed X b s1 := h.same
  split
  · exact h1
  · split
    · exact h1
    · split
      · exact containerParked_sensed h1
      · split
        · exact nextDataRun_sensed h1.same _
        · exact h1.same
    · split
      · exact containerParked_sensed h1
      · exact nextDataRun_sensed h1 _
    · split <;> exact h1.same
    · split
      · exact becomeReady_sensed h1.same
      · exact h1.same

/-! ### Card reads -/

theorem endServing_sensed (h : Sensed X b s) (o : ReadOutcome) : Sensed X b (endServing o s) := by
  unfold endServing
  split
  · exact h
  next r hr =>
    refine h.trans ⟨⟨rfl, rfl, rfl, rfl, id, id, fun hn => ?_, rfl⟩, fun h => ⟨h, rfl⟩, fun _ => rfl⟩
    rw [hn.2.2] at hr
    cases hr

theorem endReads_sensed (h : Sensed X b s) (o : ReadOutcome) : Sensed X b (endReads o s) := by
  refine (endServing_sensed h o).trans ⟨⟨rfl, rfl, rfl, rfl, id, id, fun ⟨he, hr, hs⟩ => ⟨?_, rfl, hs⟩, rfl⟩,
    fun h => ⟨h, rfl⟩, fun _ => rfl⟩
  change (endServing o s).cde.ended ++ _ = []
  rw [he, hr]
  rfl

theorem readEnded_sensed (h : Sensed X b s) : Sensed X b (readEnded s) := by
  unfold readEnded
  split
  · exact h
  · split
    · exact endServing_sensed h _
    · exact h.same

theorem raiseCard_sensed (h : Sensed X b s) (f : EventFlag) : Sensed X b (raiseCard f s) := by
  unfold raiseCard
  split <;> exact h.same

/-! ### The mount and the ends of runs -/

theorem mountDone_sensed (h : Sensed X b s) (g : Geometry) : Sensed X b (mountDone g s) := becomeReady_sensed h.same

theorem scanEnd_sensed (h : Sensed X b s) (m : Mount) : Sensed X b (scanEnd m s) := by
  unfold scanEnd
  dsimp only
  split
  · exact h.same
  · exact mountDone_sensed h.same _

theorem scanStep_sensed (h : Sensed X b s) (m : Mount) : Sensed X b (scanStep m s) := by
  unfold scanStep
  split
  · exact scanEnd_sensed h m
  · exact h.same

theorem judgeLogHeader_sensed (h : Sensed X b s) (m : Mount) (bs : List Byte) : Sensed X b (judgeLogHeader m bs s) := by
  unfold judgeLogHeader
  split
  · exact scanStep_sensed h.same _
  · exact h.same

theorem judgeHeader_sensed (h : Sensed X b s) (m : Mount) (bs : List Byte) : Sensed X b (judgeHeader m bs s) := by
  unfold judgeHeader
  split
  · split
    · exact h.same
    · exact scanEnd_sensed h m
  · exact scanEnd_sensed h m

theorem judgeCommit_sensed (h : Sensed X b s) (m : Mount) (f : HeaderFields) (bs : List Byte) :
    Sensed X b (judgeCommit m f bs s) := by
  unfold judgeCommit
  dsimp only
  split
  · exact scanStep_sensed h _
  · exact scanEnd_sensed h m

theorem payAsked_sensed (h : Sensed X b s) : Sensed X b (payAsked s) := by
  unfold payAsked
  split
  · exact parkNow_sensed h
  · exact h

theorem mountEnded_sensed (h : Sensed X b s) (o : RunOutcome) (bs : List Byte) : Sensed X b (mountEnded o bs s) := by
  unfold mountEnded
  split
  · exact h
  · split
    · exact payAsked_sensed (mountDone_sensed h _)
    · split
      · exact parkNow_sensed h
      · split
        · unfold mountAgain
          split <;> exact h.same
        · split
          · exact judgeLogHeader_sensed h _ _
          · exact judgeHeader_sensed h _ _
          · exact judgeCommit_sensed h _ _ _
          · exact mountDone_sensed h _
        · split
          · exact h.same
          · exact scanEnd_sensed h _

theorem formatEnded_sensed (h : Sensed X b s) (all : Bool) : Sensed X b (formatEnded all s) := by
  unfold formatEnded
  split
  · split
    · exact becomeReady_sensed h.same
    · exact h
  · exact h.same

theorem endRun_sensed (h : Sensed X b s) (o : RunOutcome) : Sensed X b (endRun o s) := by
  unfold endRun
  split
  · exact h
  · extract_lets bs s1
    have h1 : Sensed X b s1 := h.same
    split
    · exact mountEnded_sensed h1 _ _
    · exact drainEnded_sensed h1 _ _
    · split
      · exact endServing_sensed h1 _
      · exact readEnded_sensed h1
    · exact formatEnded_sensed h1 _

theorem park_sensed (h : Sensed X b s) : Sensed X b (park s) := by
  unfold park
  split
  · unfold askStop
    split
    · exact h.same
    · split
      · exact endRun_sensed h.same _
      · exact h.same
  · exact parkNow_sensed h

/-! ### FAULT and wakes -/

theorem enterFault_sensed (h : Sensed X b s) (cause : FaultCause) : Sensed X b (enterFault cause s) := by
  unfold enterFault
  extract_lets s1 s2
  have h1 : Sensed X b s1 := (endReads_sensed (returnShot_sensed h _) _).same
  have h2 : Sensed X b s2 := by
    simp only [s2]
    split
    · exact powerDown_sensed h1 _
    · exact h1
  exact raiseCard_sensed h2.same _

theorem wake_sensed (h : Sensed X b s) (c : WakeCause) : Sensed X b (wake c s) := by
  unfold wake
  split
  · exact h.same
  · unfold mountAtWake
    dsimp only
    split
    · exact startPowerUp_sensed h.same
    · exact h.same
  all_goals exact h

end Sensed

end Sys2Proof.Machine
end

section
/-! PROOFS. One period: the samples at SYNC_IN, CARD_OC and CARD_DET, one after the other (R35 to R37, R160, R165, R166; O2). -/

namespace Sys2Proof.Machine

set_option Elab.async false

section Sequencer

variable {b s : State}

/-! ### The sequencer's steps -/

theorem missedSync_sensed (h : Sensed False b s) : Sensed False b (missedSync s) := h.moved

theorem setDebounce_sensed (h : Sensed False b s) (n : Nat) : Sensed False b (setDebounce n s) := by
  refine h.trans ?_
  have hsame {t : State} (e : t.cde = s.cde) (hp : t.pins = s.pins) (ht : t.exs.timeBase = s.exs.timeBase) : Unmoved s t := by
    refine ⟨?_, ?_, ?_, ?_, fun h => ?_, fun h => ?_, fun h => ?_, ht⟩
    · rw [e]
    · rw [e]
    · rw [e]
    · rw [hp]
    · rwa [e]
    · rwa [hp]
    · rwa [NoReads, e]
  unfold setDebounce
  extract_lets s1
  split
  next r hr =>
    have hne : s.exs.sync.run ≠ none := by
      rw [show s.exs.sync.run = some r from hr]
      simp
    split
    · unfold acceptIdle
      dsimp only
      split <;> exact ⟨hsame rfl rfl rfl, fun hn => absurd hn hne, False.elim⟩
    · exact ⟨hsame rfl rfl rfl, fun hn => absurd hn hne, False.elim⟩
  · exact ⟨hsame rfl rfl rfl, fun hn => ⟨hn, rfl⟩, False.elim⟩

theorem quietFell_sensed (h : Sensed False b s) : Sensed False b (quietFell s) := by
  unfold quietFell
  extract_lets s1
  have h1 : Sensed False b s1 := by
    simp only [s1]
    split
    · exact ask_sensed h.same _
    · exact h
  split
  · exact h1
  · exact sumNext_sensed h1

theorem releaseLines_sensed (h : Sensed False b s) : Sensed False b (releaseLines s) := quietFell_sensed h.moved

theorem returnIdle_sensed (h : Sensed False b s) : Sensed False b (returnIdle s) := setDebounce_sensed h.moved _

theorem moveShot_sensed (h : Sensed False b s) (p : Phase) : Sensed False b (moveShot p s) := by
  unfold moveShot
  split
  · exact h.same
  · exact h

theorem modShot_sensed (h : Sensed False b s) (f : ShotRecord → ShotRecord) : Sensed False b (modShot f s) := by
  unfold modShot
  split
  · exact h.same
  · exact h

theorem beginReadout_sensed (h : Sensed False b s) (e : Exposure) : Sensed False b (beginReadout e s) := by
  unfold beginReadout
  split
  · exact h.same
  · exact h

theorem endIntegration_sensed (h : Sensed False b s) (src : ExposureSource) : Sensed False b (endIntegration src s) := by
  unfold endIntegration
  split
  · exact h
  · rename_i e _
    extract_lets now seq s1 s2 s3
    have h1 : Sensed False b s1 := ask_sensed (releaseLines_sensed h) _
    have h2 : Sensed False b s2 := modShot_sensed h1 _
    have h3 : Sensed False b s3 := beginReadout_sensed h2.moved e
    exact (returnIdle_sensed (moveShot_sensed (moveShot_sensed h3 _) _)).same

theorem windowReached_sensed (h : Sensed False b s) : Sensed False b (windowReached s) := by
  unfold windowReached
  split
  · exact endIntegration_sensed h _
  · exact h

theorem startExposure_sensed (h : Sensed False b s) (start : Nat) (early : Bool) :
    Sensed False b (startExposure start early s) := by
  unfold startExposure
  split
  · exact h
  · extract_lets now elapsed whole s1 s2
    have h1 : Sensed False b s1 := h.moved
    have h2 : Sensed False b s2 := moveShot_sensed h1 _
    split
    · split
      · exact windowReached_sensed h2
      · exact endIntegration_sensed (modShot_sensed h2 _) _
    · exact h2

/-- The filter's accepted state, its run given up. -/
def filterAt (closed : Bool) (s : State) : State := modExs (fun x => { x with sync := x.sync.accept closed }) s

theorem takeClosure_sensed (first : Nat) (s : State) : Sensed False (filterAt true s) (takeClosure first s) := by
  unfold takeClosure
  extract_lets s1
  have h1 : Sensed False (filterAt true s) s1 := Sensed.refl _ _
  split
  · exact wake_sensed (missedSync_sensed h1) _
  · exact modShot_sensed h1 _
  · exact modShot_sensed h1 _
  · exact modShot_sensed h1 _
  · split
    · split
      · exact missedSync_sensed h1
      · exact startExposure_sensed h1 _ _
    · exact h1
  all_goals exact h1

theorem takeRelease_sensed (first : Nat) (s : State) : Sensed False (filterAt false s) (takeRelease first s) := by
  unfold takeRelease
  extract_lets s1
  have h1 : Sensed False (filterAt false s) s1 := (Sensed.refl False _).moved
  split
  · split
    · unfold releaseInOpen
      extract_lets us s2
      have h2 : Sensed False (filterAt false s) s2 := h1.moved
      split
      · exact endIntegration_sensed h2 _
      · exact h2
    · exact h1
  · exact h1

end Sequencer

/-! ### The sample at SYNC_IN (R35 to R37) -/

section Sync

variable {s : State} {level : Bool}

/-- The run of samples with this period's in it. -/
def runNow (level : Bool) (s : State) : SyncRun := match s.exs.sync.run with
  | some r => { r with length := r.length + 1 }
  | none => ⟨level, 1, s.exs.timeBase⟩

/-- The filter with another run. -/
def withSyncRun (r : Option SyncRun) (s : State) : State := modExs (fun x => { x with sync := { x.sync with run := r } }) s

theorem sampleSync_on (h : level ≠ s.exs.sync.closed) (hr : (runNow level s).length < s.exs.sync.debounce) :
    sampleSync level s = withSyncRun (some (runNow level s)) s :=
  (if_neg h).trans (if_neg (Nat.not_le.2 hr))

theorem sampleSync_accepts (h : level ≠ s.exs.sync.closed) (hr : s.exs.sync.debounce ≤ (runNow level s).length) :
    sampleSync level s = if level then takeClosure (runNow level s).first s else takeRelease (runNow level s).first s :=
  (if_neg h).trans (if_pos hr)

theorem sampleSync_rests (h : level = s.exs.sync.closed) (hr : s.exs.sync.run = none) : sampleSync level s = s := by
  refine (if_pos h).trans ?_
  dsimp only
  rw [hr]

theorem sampleSync_ends {r : SyncRun} (h : level = s.exs.sync.closed) (hr : s.exs.sync.run = some r) :
    sampleSync level s = if r.closed then rejectedPulse (withSyncRun none s) else withSyncRun none s := by
  refine (if_pos h).trans ?_
  dsimp only
  rw [hr]
  cases hc : r.closed <;> simp only [hc] <;> rfl

/-- An accepted level, and what it leaves to the later samples. -/
theorem accepted_level (h : level ≠ s.exs.sync.closed) (hr : s.exs.sync.debounce ≤ (runNow level s).length) :
    (sampleSync level s).exs.sync.closed = level ∧ (sampleSync level s).exs.sync.run = none ∧ Unmoved s (sampleSync level s) := by
  have hbase (c : Bool) : Unmoved s (filterAt c s) := ⟨rfl, rfl, rfl, rfl, id, id, id, rfl⟩
  have hsensed : Sensed False (filterAt level s) (sampleSync level s) := by
    rw [sampleSync_accepts h hr]
    cases level
    · exact takeRelease_sensed _ s
    · exact takeClosure_sensed _ s
  obtain ⟨hrun, hclosed⟩ := hsensed.filter rfl
  exact ⟨hclosed, hrun, (hbase level).trans hsensed.unmoved⟩

theorem sampleSync_unmoved (level : Bool) (s : State) : Unmoved s (sampleSync level s) := by
  have hsame : Unmoved s s := ⟨rfl, rfl, rfl, rfl, id, id, id, rfl⟩
  by_cases h : level = s.exs.sync.closed
  · rcases hr : s.exs.sync.run with _ | r
    · rw [sampleSync_rests h hr]
      exact hsame
    · rw [sampleSync_ends h hr]
      split
      · exact ⟨rfl, rfl, rfl, rfl, id, id, id, rfl⟩
      · exact ⟨rfl, rfl, rfl, rfl, id, id, id, rfl⟩
  · by_cases hr : (runNow level s).length < s.exs.sync.debounce
    · rw [sampleSync_on h hr]
      exact ⟨rfl, rfl, rfl, rfl, id, id, id, rfl⟩
    · exact (accepted_level h (Nat.not_lt.1 hr)).2.2

end Sync

end Sys2Proof.Machine
end

section
/-! PROOFS. The samples at CARD_OC and CARD_DET of a period (R160, R165, R166; O2). -/

namespace Sys2Proof.Machine

set_option Elab.async false

section Card

variable {s : State}

/-! ### CARD_OC (R166) -/

theorem sampleOvercurrent_unpowered (h : s.cde.pwrEn = false) : sampleOvercurrent s = s := by
  refine if_pos ?_
  rw [h]
  rfl

theorem sampleOvercurrent_absent (h : s.cde.pwrEn = true) (hoc : s.pins.overcurrent = false) :
    sampleOvercurrent s = modCde (fun c => { c with ocCount := 0 }) s := by
  unfold sampleOvercurrent
  rw [h, hoc]
  rfl

theorem sampleOvercurrent_first (h : s.cde.pwrEn = true) (hoc : s.pins.overcurrent = true) (hn : s.cde.ocCount = 0) :
    sampleOvercurrent s = modCde (fun c => { c with ocCount := 1 }) s := by
  unfold sampleOvercurrent
  rw [h, hoc, if_neg (by decide), if_neg (by decide), if_pos hn]

theorem sampleOvercurrent_second (h : s.cde.pwrEn = true) (hoc : s.pins.overcurrent = true) (hn : s.cde.ocCount ≠ 0) :
    sampleOvercurrent s = enterFault .overcurrent s := by
  unfold sampleOvercurrent overcurrent
  rw [h, hoc, if_neg (by decide), if_neg (by decide), if_neg hn, if_pos rfl]

theorem sampleOvercurrent_sensed (X : Prop) (s : State) : Sensed X s (sampleOvercurrent s) := by
  have h := Sensed.refl X s
  unfold sampleOvercurrent overcurrent
  split
  · exact h
  · split
    · exact h.same
    · split
      · exact h.same
      · split
        · exact enterFault_sensed h _
        · exact h

/-- Without an overcurrent the sample does no more than count. -/
theorem sampleOvercurrent_still (h : s.cde.pwrEn = false ∨ s.pins.overcurrent = false) :
    ∃ n, sampleOvercurrent s = modCde (fun c => { c with ocCount := n }) s := by
  rcases hp : s.cde.pwrEn with _ | _
  · exact ⟨s.cde.ocCount, sampleOvercurrent_unpowered hp⟩
  · exact ⟨0, sampleOvercurrent_absent hp (h.resolve_left (by rw [hp]; decide))⟩

theorem raiseCard_cde_of (f : EventFlag) {s : State} (h : s.cde.ended = []) : raiseCard f s = raise f s := if_pos h

/-- FAULT entered, whatever the card was doing. -/
theorem enterFault_enters (cause : FaultCause) (s : State) :
    (enterFault cause s).cde.state = .fault ∧ (enterFault cause s).cde.faultCause = cause ∧
      (enterFault cause s).cde.pwrEn = false ∧
      (NoReads s → { flag := .cardFault, hold := none } ∈ (enterFault cause s).rqe.raises) := by
  obtain ⟨v, hv⟩ : ∃ v, v = loseCard .writeFail .fault s := ⟨_, rfl⟩
  obtain ⟨w, hw⟩ : ∃ w, w = if v.cde.pwrEn then powerDown .fault v else v := ⟨_, rfl⟩
  have hlost : Sensed True s v := by
    rw [hv]
    exact (endReads_sensed (returnShot_sensed (Sensed.refl _ s) _) _).same
  have hdown : Sensed True v w := by
    rw [hw]
    split
    · exact powerDown_sensed (Sensed.refl _ v) _
    · exact Sensed.refl _ v
  have hoff : w.cde.pwrEn = false := by
    rw [hw]
    split
    · rfl
    next h => exact Bool.eq_false_iff.2 h
  have hfault : enterFault cause s =
      raiseCard .cardFault (modCde (fun c => { c with state := .fault, faultCause := cause, rampTimer := none }) w) := by
    rw [hw, hv]
    rfl
  rw [hfault]
  by_cases hended : w.cde.ended = []
  · rw [raiseCard_cde_of _ (by exact hended)]
    exact ⟨rfl, rfl, hoff, fun _ => List.mem_append_right _ List.mem_cons_self⟩
  · have hnot : ¬ NoReads s := fun hn => hended (hdown.unmoved.noReads (hlost.unmoved.noReads hn)).1
    unfold raiseCard
    rw [if_neg (by exact hended)]
    exact ⟨rfl, rfl, hoff, fun hn => absurd hn hnot⟩

/-! ### CARD_DET (R160, R165) -/

theorem seeDetect_seen {level : Bool} (h : s.cde.detLevel = level) : seeDetect level s = s := if_pos h

theorem seeDetect_exs (level : Bool) (s : State) : (seeDetect level s).exs = s.exs := by
  unfold seeDetect
  split
  · rfl
  · exact (wake_sensed (X := True) (Sensed.refl _ _) _).exs trivial

theorem seeDetect_keeps (level : Bool) (s : State) : (seeDetect level s).cde.detected = s.cde.detected ∧
    (seeDetect level s).cde.detCount = s.cde.detCount ∧ (seeDetect level s).pins.cardPresent = s.pins.cardPresent ∧
    (NoReads s → NoReads (seeDetect level s)) := by
  unfold seeDetect
  split
  · exact ⟨rfl, rfl, rfl, id⟩
  · have h := wake_sensed (X := True) (Sensed.refl _ (modCde (fun c => { c with detLevel := level }) s)) .cardDetect
    exact ⟨h.unmoved.detected, h.unmoved.detCount, h.unmoved.present, h.unmoved.noReads⟩

theorem insertCard_inserts (s : State) : (insertCard s).cde.detected = true ∧ (insertCard s).cde.detCount = 50 ∧
    (insertCard s).exs = s.exs ∧ { flag := .cardInserted, hold := none } ∈ (insertCard s).rqe.raises := by
  obtain ⟨v, hv⟩ : ∃ v, v = modCde (fun c => { c with detected := true, detCount := 50 }) s := ⟨_, rfl⟩
  obtain ⟨w, hw⟩ : ∃ w, w = if v.cde.discharge then modCde (fun c => { c with dischargeFor := .powerUp }) v else startPowerUp v :=
    ⟨_, rfl⟩
  obtain ⟨x, hx⟩ : ∃ x, x = if w.hmp.path = .entering then park w else w := ⟨_, rfl⟩
  have hinsert : insertCard s = raise .cardInserted x := by
    rw [hx, hw, hv]
    rfl
  have h1 : Sensed True v w := by
    rw [hw]
    split
    · exact (Sensed.refl _ v).same
    · exact startPowerUp_sensed (Sensed.refl _ v)
  have h2 : Sensed True v x := by
    rw [hx]
    split
    · exact park_sensed h1
    · exact h1
  have hdet : v.cde.detected = true := by rw [hv]; rfl
  have hcount : v.cde.detCount = 50 := by rw [hv]; rfl
  have hexs : v.exs = s.exs := by rw [hv]; rfl
  rw [hinsert]
  exact ⟨h2.unmoved.detected.trans hdet, h2.unmoved.detCount.trans hcount, (h2.exs trivial).trans hexs,
    List.mem_append_right _ List.mem_cons_self⟩

theorem removeCard_removes (s : State) : (removeCard s).cde.detected = false ∧ (removeCard s).cde.detCount = 0 ∧
    (removeCard s).cde.capacity = none ∧ (removeCard s).cde.state = .discharging ∧ (removeCard s).exs = s.exs ∧
    (NoReads s → { flag := .cardRemoved, hold := none } ∈ (removeCard s).rqe.raises) := by
  obtain ⟨v, hv⟩ : ∃ v, v = loseCard .removed .removed s := ⟨_, rfl⟩
  have hlost : Sensed True s v := by
    rw [hv]
    exact (endReads_sensed (returnShot_sensed (Sensed.refl _ s) _) _).same
  have hremove : removeCard s = raiseCard .cardRemoved (powerDownTo .removal
      (modCde (fun c => { c with detected := false, detCount := 0, capacity := none }) v)) := by
    rw [hv]
    rfl
  have hexs : v.exs = s.exs := hlost.exs trivial
  rw [hremove]
  by_cases hended : v.cde.ended = []
  · rw [raiseCard_cde_of _ (by exact hended)]
    exact ⟨rfl, rfl, rfl, rfl, hexs, fun _ => List.mem_append_right _ List.mem_cons_self⟩
  · have hnot : ¬ NoReads s := fun hn => hended (hlost.unmoved.noReads hn).1
    unfold raiseCard
    rw [if_neg (by exact hended)]
    exact ⟨rfl, rfl, rfl, rfl, hexs, fun hn => absurd hn hnot⟩

theorem sampleDetect_exs (s : State) : (sampleDetect s).exs = s.exs := by
  unfold sampleDetect
  split
  · split
    · rfl
    · split
      · exact (insertCard_inserts s).2.2.1
      · rfl
  · split
    · exact (removeCard_removes s).2.2.2.2.1
    · rfl

theorem sampleDetect_counts (hp : s.pins.cardPresent = true) (hd : s.cde.detected = false) (hn : s.cde.detCount < 49) :
    sampleDetect s = modCde (fun c => { c with detCount := c.detCount + 1 }) s := by
  unfold sampleDetect
  rw [hp, hd, if_pos rfl, if_neg (by decide), if_neg (by omega)]

theorem sampleDetect_inserts (hp : s.pins.cardPresent = true) (hd : s.cde.detected = false) (hn : 49 ≤ s.cde.detCount) :
    sampleDetect s = insertCard s := by
  unfold sampleDetect
  rw [hp, hd, if_pos rfl, if_neg (by decide), if_pos hn]

theorem sampleDetect_absent (hp : s.pins.cardPresent = false) (hd : s.cde.detected = false) :
    sampleDetect s = modCde (fun c => { c with detCount := 0 }) s := by
  unfold sampleDetect
  rw [hp, hd, if_neg (by decide), if_neg (by decide)]

theorem sampleDetect_removes (hp : s.pins.cardPresent = false) (hd : s.cde.detected = true) : sampleDetect s = removeCard s := by
  unfold sampleDetect
  rw [hp, hd, if_neg (by decide), if_pos rfl]

/-- A card whose presence is known is not inserted nor removed. -/
theorem sampleDetect_steady (h : s.pins.cardPresent = s.cde.detected) : ∃ n,
    sampleDetect s = modCde (fun c => { c with detCount := n }) s ∧ (s.pins.cardPresent = true → n = s.cde.detCount) ∧
      (s.pins.cardPresent = false → n = 0) := by
  unfold sampleDetect
  rw [h]
  rcases hd : s.cde.detected with _ | _
  · exact ⟨0, rfl, by simp, by simp⟩
  · exact ⟨s.cde.detCount, rfl, by simp, by simp⟩

/-! ### The card's samples of a period -/

/-- The samples after the one at SYNC_IN. -/
def cardSamples (s : State) : State :=
  let t := seeDetect s.pins.cardPresent (sampleOvercurrent s)
  if t.exs.timeBase % 100 = 0 then sampleDetect t else t

theorem cardSamples_exs (s : State) : (cardSamples s).exs = s.exs := by
  have h : (seeDetect s.pins.cardPresent (sampleOvercurrent s)).exs = s.exs :=
    (seeDetect_exs _ _).trans ((sampleOvercurrent_sensed True s).exs trivial)
  unfold cardSamples
  dsimp only
  split
  · exact (sampleDetect_exs _).trans h
  · exact h

/-- Whether this period samples CARD_DET. -/
def Detecting (s : State) : Prop := s.exs.timeBase % 100 = 0

/-- What the sample at CARD_DET finds. -/
theorem cardSamples_eq (s : State) : ∃ v, v.cde.detected = s.cde.detected ∧ v.cde.detCount = s.cde.detCount ∧
    v.pins.cardPresent = s.pins.cardPresent ∧ (NoReads s → NoReads v) ∧
    (Detecting s → cardSamples s = sampleDetect v) ∧ (¬ Detecting s → cardSamples s = v) := by
  have h := sampleOvercurrent_sensed True s
  obtain ⟨h1, h2, h3, h4⟩ := seeDetect_keeps s.pins.cardPresent (sampleOvercurrent s)
  have htime : (seeDetect s.pins.cardPresent (sampleOvercurrent s)).exs.timeBase = s.exs.timeBase := by
    rw [seeDetect_exs, h.exs trivial]
  refine ⟨seeDetect s.pins.cardPresent (sampleOvercurrent s), h1.trans h.unmoved.detected, h2.trans h.unmoved.detCount,
    h3.trans h.unmoved.present, h4 ∘ h.unmoved.noReads, fun hd => ?_, fun hd => ?_⟩
  · exact if_pos (by rw [htime]; exact hd)
  · exact if_neg (by rw [htime]; exact hd)

/-- With the card's presence known, no more than the two counts can move after the sample at CARD_OC. -/
theorem cardSamples_steady (hlevel : s.cde.detLevel = s.pins.cardPresent)
    (h : ¬ Detecting s ∨ s.pins.cardPresent = s.cde.detected) :
    ∃ n, cardSamples s = modCde (fun c => { c with detCount := n }) (sampleOvercurrent s) := by
  have hs := sampleOvercurrent_sensed True s
  have hseen : seeDetect s.pins.cardPresent (sampleOvercurrent s) = sampleOvercurrent s :=
    seeDetect_seen (hs.unmoved.detLevel.trans hlevel)
  have htime : (sampleOvercurrent s).exs.timeBase = s.exs.timeBase := by rw [hs.exs trivial]
  unfold cardSamples
  dsimp only
  rw [hseen, htime]
  by_cases hd : Detecting s
  · obtain ⟨n, hn, -⟩ := sampleDetect_steady (s := sampleOvercurrent s)
      (hs.unmoved.present.trans ((h.resolve_left (not_not.2 hd)).trans hs.unmoved.detected.symm))
    exact ⟨n, (if_pos hd).trans hn⟩
  · exact ⟨(sampleOvercurrent s).cde.detCount, if_neg hd⟩

end Card

end Sys2Proof.Machine
end

section
/-! PROOFS. The idle step, settled (R25, R35 to R37, R160, R165, R166; O2). -/

namespace Sys2Proof.Machine

set_option Elab.async false

section Tick

variable {s : State}

/-! ### The period, part by part -/

/-- The time base of the period. -/
def clocked (s : State) : State := { s with exs := { s.exs with timeBase := (s.exs.timeBase + 1) % 4294967296 } }

theorem tick_eq (s : State) : tick s = runTimers (cardSamples (sampleSync s.pins.syncClosed (clocked s))) := rfl

theorem step_idle (hp : s.pending = []) : step s = idle s := by
  unfold step
  rw [hp]

theorem idle_next (h : s.resetHeld = false) : idle s = .next (finish s (tick s)) := event_to h rfl

theorem idle_held (h : s.resetHeld = true) : idle s = .next s := by
  unfold idle event
  rw [h]
  rfl

/-- The sequencer at the end of the period. -/
def ranDown (x : Exs) : Exs := { x with timer := x.timer.map fun us => us - 10, pulse := x.pulse.map fun us => us - 10 }

theorem tick_exs (s : State) : (tick s).exs = ranDown (sampleSync s.pins.syncClosed (clocked s)).exs := by
  rw [tick_eq, ← cardSamples_exs (sampleSync s.pins.syncClosed (clocked s))]
  rfl

/-- The card at the end of the period. -/
def cardRanDown (c : Cde) : Cde :=
  { c with
    rampTimer := c.rampTimer.map fun us => us - 10
    dischargeTimer := c.dischargeTimer.map fun us => us - 10
    busTimer := c.busTimer.map fun us => us - 10 }

theorem tick_cde (s : State) : (tick s).cde = cardRanDown (cardSamples (sampleSync s.pins.syncClosed (clocked s))).cde := rfl

theorem tick_raises (s : State) : (tick s).rqe.raises = (cardSamples (sampleSync s.pins.syncClosed (clocked s))).rqe.raises := rfl

/-- A level at SYNC_IN that is the accepted one moves no part but the sequencer and the table. -/
theorem sampleSync_accepted {level : Bool} (h : level = s.exs.sync.closed) :
    (sampleSync level s).cde = s.cde ∧ (sampleSync level s).pins = s.pins ∧ (sampleSync level s).amn = s.amn := by
  rcases hr : s.exs.sync.run with _ | r
  · rw [sampleSync_rests h hr]
    exact ⟨rfl, rfl, rfl⟩
  · rw [sampleSync_ends h hr]
    split <;> exact ⟨rfl, rfl, rfl⟩

/-- The period's samples of the card change no record, where the card is still. -/
theorem cardSamples_still (hoc : s.cde.pwrEn = false ∨ s.pins.overcurrent = false) (hlevel : s.cde.detLevel = s.pins.cardPresent)
    (h : ¬ Detecting s ∨ s.pins.cardPresent = s.cde.detected) : (cardSamples s).stb = s.stb := by
  obtain ⟨n, hn⟩ := cardSamples_steady hlevel h
  obtain ⟨m, hm⟩ := sampleOvercurrent_still hoc
  rw [hn, hm]
  rfl

/-- A period in which nothing is sampled but what is known. -/
theorem cardSamples_quiet (hoc : s.cde.pwrEn = false ∨ s.pins.overcurrent = false) (hlevel : s.cde.detLevel = s.pins.cardPresent)
    (h : ¬ Detecting s ∨ s.pins.cardPresent = s.cde.detected) (hoc0 : s.cde.pwrEn = true → s.cde.ocCount = 0)
    (hdet0 : s.pins.cardPresent = false → s.cde.detCount = 0) : cardSamples s = s := by
  have hcurrent : sampleOvercurrent s = s := by
    rcases hp : s.cde.pwrEn with _ | _
    · exact sampleOvercurrent_unpowered hp
    · rw [sampleOvercurrent_absent hp (hoc.resolve_left (by rw [hp]; decide))]
      unfold modCde
      rw [← hoc0 hp]
  unfold cardSamples
  dsimp only
  rw [hcurrent, seeDetect_seen hlevel]
  split
  next hd =>
    obtain ⟨n, hn, hpresent, habsent⟩ := sampleDetect_steady (h.resolve_left (not_not.2 hd))
    rw [hn]
    unfold modCde
    have hsame : n = s.cde.detCount := by
      rcases hp : s.pins.cardPresent with _ | _
      · rw [habsent hp, hdet0 hp]
      · exact hpresent hp
    rw [hsame]
  next => rfl

/-! ### The timers of a quiet period -/

theorem runTimers_onlyChanges (s : State) :
    OnlyChanges [.exs, .monitor, .cde, .pce, .scrubber] s (runTimers (clocked s)) := by
  refine ⟨rfl, fun p hp _ => ?_⟩
  cases p <;> simp_all [Part.agree, runTimers, clocked]

theorem runTimers_idle (s : State) : (runTimers (clocked s)).pce.idle =
    if captureHeld s then s.pce.idle else s.pce.idle.map fun us => us - 10 := rfl

/-! ### The commands of SYNC_IN in the state of the period -/

theorem withPins_sync {level : Bool} (h : s.pins.syncClosed = level) : withPins { s.pins with syncClosed := level } s = s := by
  rw [← h]
  rfl

theorem ofNat_first {n : Nat} (h : n < 4294967296) : (BitVec.ofNat 32 n).toNat = n :=
  (BitVec.toNat_ofNat n 32).trans (Nat.mod_eq_of_lt h)

theorem closure_command (h : s.resetHeld = false) (hpin : s.pins.syncClosed = true) (hopen : s.exs.sync.closed = false)
    {n : Nat} (hn : n < 4294967296) :
    exec (.syncClosureAccepted (BitVec.ofNat 32 n)) s = .next (finish s (takeClosure n s)) := by
  rw [exec_syncClosureAccepted]
  refine pinEvent_to h ?_
  rw [withPins_sync hpin, hopen, ofNat_first hn]
  rfl

theorem release_command (h : s.resetHeld = false) (hpin : s.pins.syncClosed = false) (hclosed : s.exs.sync.closed = true)
    {n : Nat} (hn : n < 4294967296) :
    exec (.syncReleaseAccepted (BitVec.ofNat 32 n)) s = .next (finish s (takeRelease n s)) := by
  rw [exec_syncReleaseAccepted]
  refine pinEvent_to h ?_
  rw [withPins_sync hpin, hclosed, ofNat_first hn]
  rfl

theorem rejected_command (h : s.resetHeld = false) (hpin : s.pins.syncClosed = false) (hopen : s.exs.sync.closed = false) :
    exec .syncRejectedPulse s = .next (finish s (rejectedPulse (withSyncRun none s))) := by
  rw [exec_syncRejectedPulse]
  refine pinEvent_to h ?_
  rw [withPins_sync hpin, hopen]
  rfl

end Tick

/-- Settles O2: the period sample by sample, SYNC_IN first, then the card's. -/
theorem idleStepIsOnePeriod : Obligations.IdleStepIsOnePeriod := by
  intro s hp
  refine ⟨fun h => (step_idle hp).trans (idle_held h), fun h => ?_⟩
  obtain ⟨m, hm⟩ : ∃ m, m = sampleSync s.pins.syncClosed (clocked s) := ⟨_, rfl⟩
  have hun : Unmoved (clocked s) m := hm ▸ sampleSync_unmoved _ _
  have hexs : (finish s (tick s)).exs = ranDown m.exs := by rw [finish_exs, tick_exs, hm]
  have hcde : (finish s (tick s)).cde = cardRanDown (cardSamples m).cde := by rw [finish_cde, tick_cde, hm]
  have hstb : (finish s (tick s)).stb = (cardSamples m).stb := by rw [finish_stb, tick_eq, hm]; rfl
  have hraised {f : EventFlag} (hf : { flag := f, hold := none } ∈ (cardSamples m).rqe.raises) : Raised f (finish s (tick s)) := by
    refine finish_raised _ _ ?_
    rw [tick_raises, ← hm]
    exact hf
  refine ⟨finish s (tick s), (step_idle hp).trans (idle_next h), ?_, ?_, ?_⟩
  · exact (finish_followUp s (tick s)).pending.trans ((tick_kept (Kept.refl True s)).pending.trans hp)
  · exact (finish_followUp s (tick s)).resetHeld.trans ((tick_kept (Kept.refl True s)).held.trans h)
  intro now sync level run down detecting steady still noReads likeCommand
  have hlike {c : Instr} (hs : still) (hc : ∃ u, exec c (clocked s) = .next u ∧ m.stb = u.stb ∧ m.exs = u.exs) : likeCommand c := by
    obtain ⟨u, hu, hustb, huexs⟩ := hc
    obtain ⟨hoc, hlevel, hdet⟩ := hs
    refine ⟨u, hu, ?_, ?_⟩
    · rw [hstb, cardSamples_still (hoc.imp hun.unpowered hun.noCurrent)
        (hun.detLevel.trans (hlevel.trans hun.present.symm)) ?_, hustb]
      refine hdet.imp (fun hn => ?_) fun hd => hun.present.trans (hd.trans hun.detected.symm)
      rw [Detecting, hun.timeBase]
      exact hn
    · rw [hexs, huexs]
      rfl
  have hrest {r : Option SyncRun} (hlevel : level = sync.closed) (hr : sync.run = r) :
      m.cde = s.cde ∧ m.pins = s.pins ∧ m.amn = s.amn := by
    rw [hm]
    exact sampleSync_accepted (s := clocked s) hlevel
  obtain ⟨v, hvdet', hvcount', hvpresent', hvreads', hfound', hnotFound'⟩ := cardSamples_eq m
  have hvdet : v.cde.detected = s.cde.detected := hvdet'.trans hun.detected
  have hvcount : v.cde.detCount = s.cde.detCount := hvcount'.trans hun.detCount
  have hvpresent : v.pins.cardPresent = s.pins.cardPresent := hvpresent'.trans hun.present
  have hvreads : NoReads s → NoReads v := fun hn => hvreads' (hun.noReads hn)
  have hfound (hd : detecting) : cardSamples m = sampleDetect v := hfound' (by rw [Detecting, hun.timeBase]; exact hd)
  have hnotFound (hd : ¬ detecting) : cardSamples m = v := hnotFound' (by rw [Detecting, hun.timeBase]; exact hd)
  refine ⟨?_, fun hlevel hlen => ?_, fun hlevel hlen => ?_, fun hlevel => ⟨?_, fun r hopen hr hclosed hs => ?_⟩,
    fun hd hdet => ?_, fun hd hdet habsent => ?_, fun hd => ?_, fun hlevel hs hpow => ?_, ?_⟩
  · rw [hexs]
    exact hun.timeBase
  · rw [hexs, hm, sampleSync_on (s := clocked s) hlevel hlen]
    rfl
  · obtain ⟨hclosed, hrun, -⟩ := accepted_level (s := clocked s) hlevel hlen
    rw [← hm] at hclosed hrun
    refine ⟨by rw [hexs]; exact hclosed, by rw [hexs]; exact hrun, fun hs hfirst => hlike hs ?_⟩
    have hheld : (clocked s).resetHeld = false := h
    have hsample : m = if level then takeClosure run.first (clocked s) else takeRelease run.first (clocked s) := by
      rw [hm]
      exact sampleSync_accepts (s := clocked s) hlevel hlen
    rcases hl : level with _ | _
    · have hclosed' : (clocked s).exs.sync.closed = true := by
        rw [hl] at hlevel
        exact Bool.eq_true_of_not_eq_false (Ne.symm hlevel)
      rw [hl] at hsample
      exact ⟨_, release_command hheld hl hclosed' hfirst, by rw [hsample, finish_stb]; rfl, by rw [hsample, finish_exs]; rfl⟩
    · have hclosed' : (clocked s).exs.sync.closed = false := by
        rw [hl] at hlevel
        exact Bool.eq_false_of_not_eq_true (Ne.symm hlevel)
      rw [hl] at hsample
      exact ⟨_, closure_command hheld hl hclosed' hfirst, by rw [hsample, finish_stb]; rfl, by rw [hsample, finish_exs]; rfl⟩
  · rw [hexs, hm]
    rcases hr : (clocked s).exs.sync.run with _ | r
    · have hr' : s.exs.sync.run = none := hr
      rw [sampleSync_rests (s := clocked s) hlevel hr]
      change s.exs.sync = { s.exs.sync with run := none }
      rw [← hr']
    · rw [sampleSync_ends (s := clocked s) hlevel hr]
      split <;> rfl
  · have hsample : m = rejectedPulse (withSyncRun none (clocked s)) := by
      rw [hm, sampleSync_ends (s := clocked s) hlevel hr, if_pos hclosed]
    exact hlike hs ⟨_, rejected_command (s := clocked s) h hopen (hlevel.symm.trans hopen), by rw [hsample, finish_stb],
      by rw [hsample, finish_exs]⟩
  · have hsample := hfound hd
    refine ⟨fun hpresent hcount => ?_, fun hpresent hcount => ?_, fun habsent => ?_⟩
    · rw [sampleDetect_counts (hvpresent.trans hpresent) (hvdet.trans hdet) (by omega)] at hsample
      rw [hcde, hsample]
      exact ⟨hvdet.trans hdet, congrArg (· + 1) hvcount⟩
    · rw [sampleDetect_inserts (hvpresent.trans hpresent) (hvdet.trans hdet) (by omega)] at hsample
      obtain ⟨h1, h2, -, h4⟩ := insertCard_inserts v
      rw [hcde, hsample]
      exact ⟨h1, h2, hraised (by rw [hsample]; exact h4)⟩
    · rw [sampleDetect_absent (hvpresent.trans habsent) (hvdet.trans hdet)] at hsample
      rw [hcde, hsample]
      exact ⟨hvdet.trans hdet, rfl⟩
  · have hsample := hfound hd
    rw [sampleDetect_removes (hvpresent.trans habsent) (hvdet.trans hdet)] at hsample
    obtain ⟨h1, h2, h3, h4, -, h6⟩ := removeCard_removes v
    rw [hcde, hsample]
    exact ⟨h1, h2, h3, h4, fun hn => hraised (by rw [hsample]; exact h6 (hvreads hn))⟩
  · rw [hcde, hnotFound hd]
    exact ⟨hvdet, hvcount⟩
  · obtain ⟨hmcde, hmpins, -⟩ := hrest hlevel rfl
    have hdetecting : ¬ Detecting m ∨ m.pins.cardPresent = m.cde.detected := by
      rw [Detecting, hun.timeBase, hmpins, hmcde]
      exact hs.2
    obtain ⟨n, hn⟩ := cardSamples_steady (s := m) (by rw [hmcde, hmpins]; exact hs.1) hdetecting
    have hpow' : m.cde.pwrEn = true := by rw [hmcde]; exact hpow
    refine ⟨fun hoc => ?_, fun hoc hcount => ?_, fun hoc hcount => ?_⟩
    · rw [hcde, hn, sampleOvercurrent_absent hpow' (by rw [hmpins]; exact hoc)]
      rfl
    · rw [hcde, hn, sampleOvercurrent_first hpow' (by rw [hmpins]; exact hoc) (by rw [hmcde]; exact hcount)]
      exact ⟨rfl, (congrArg Cde.state hmcde :)⟩
    · rw [sampleOvercurrent_second hpow' (by rw [hmpins]; exact hoc) (by rw [hmcde]; exact hcount)] at hn
      obtain ⟨h1, h2, h3, h4⟩ := enterFault_enters .overcurrent m
      rw [hcde, hn]
      exact ⟨h1, h2, h3, fun hnone => hraised (by rw [hn]; exact h4 (by rw [NoReads, hmcde]; exact hnone))⟩
  · intro hlevel hrun hs hoc0 hdet0
    have hm' : m = clocked s := by rw [hm, sampleSync_rests (s := clocked s) hlevel hrun]
    have hquiet : cardSamples m = clocked s := by
      rw [hm']
      exact cardSamples_quiet (s := clocked s) hs.1 hs.2.1 hs.2.2 hoc0 hdet0
    have htick : tick s = runTimers (clocked s) := by rw [tick_eq, ← hm, hquiet]
    rw [htick]
    refine ⟨finish_exs _ _, finish_amn _ _ _ _, finish_cde _ _, ?_, fun hq => ?_, fun p more hq => ?_, ?_, ?_, ?_, ?_,
      (runTimers_onlyChanges s).finish s⟩
    · rw [finish_pce]
      rfl
    · rw [finish_pce, runTimers_idle]
      exact if_neg (by rw [captureHeld, hq]; simp)
    · have hheld : captureHeld s = !p.heldBeats.isEmpty := by rw [captureHeld, hq]; rfl
      rw [finish_pce, runTimers_idle, hheld]
      cases p.heldBeats <;> rfl
    · exact finish_fmc_pace _ _
    · exact finish_fmc_scrub _ _
    · exact finish_fmc_scrubPos _ _
    · exact finish_fmc_passes _ _

end Sys2Proof.Machine
end

section
/-! PROOFS. The card bus: what is issued, the outcome of IDENT, timeouts and tokens (R163, R168, R170 to R175; O57). -/

namespace Sys2Proof.Machine

set_option Elab.async false

/-- The command ends with the card as given, and changes nothing else. -/
def Becomes (i : Instr) (s : State) (c : Cde) : Prop := ∃ t, exec i s = .next t ∧ t.cde = c ∧ OnlyChanges [.cde] s t

/-- FAULT entered, with the cause. -/
def faultCde (cause : FaultCause) (c : Cde) : Cde :=
  owedFor .cardFault { down .fault (dropped c) with state := .fault, faultCause := cause }

/-- The command ends with the card in FAULT. -/
def Faults (i : Instr) (s : State) (cause : FaultCause) : Prop := ∃ t, exec i s = .next t ∧
  t.cde = faultCde cause s.cde ∧ (s.cde.ended = [] → Raised .cardFault t) ∧ OnlyChanges [.cde, .pins] s t

section Bus

variable {s : State} {i : Instr} {f : State → State} {c : Cde} {r : Run}

theorem becomes_of (hs : s.resetHeld = false) (hi : exec i s = event s f) (hf : f s = withCde c s) : Becomes i s c :=
  ⟨_, hi.trans (event_to hs hf), finish_cde _ _, (withCde_onlyChanges c s).finish s⟩

theorem faults_of {cause : FaultCause} (hs : s.resetHeld = false) (hw : NoWork s.cde) (hp : s.cde.pwrEn = true)
    (hi : exec i s = event s f) (hf : f s = enterFault cause s) : Faults i s cause := by
  rw [Faults, hi]
  exact faulted_of hs hw hp hf

theorem exec_cardRunIssue (s : State) : exec .cardRunIssue s = event s issue := rfl

theorem exec_identResponse (g : Bool) (n : BitVec 32) (s : State) :
    exec (.identResponse g n) s = event s (identResponse g n.toNat) := rfl

theorem exec_cardResponse (g : Bool) (s : State) : exec (.cardResponse g) s = event s (responseArrived g) := rfl

theorem exec_cardBlockReceived (data : List Byte) (crc : BitVec 16) (hl : data.length = 512) (s : State) :
    exec (.cardBlockReceived data crc) s = event s (blockReceived data crc) :=
  if_pos (decide_eq_true hl)

theorem exec_cardWriteToken (t : WriteToken) (s : State) : exec (.cardWriteToken t) s = event s (takeToken t) := rfl

theorem exec_cardBusyRelease (s : State) : exec .cardBusyRelease s = event s busyReleased := rfl

theorem exec_responseTimeout (s : State) : exec .responseTimeout s = event s responseFailed := rfl

theorem exec_busyTimeout (s : State) : exec .busyTimeout s = event s busyExpired := rfl

/-! ### What is issued (R163, R170, R172) -/

theorem issue_quiet (h : s.exs.quietReq = true) : issue s = withCde s.cde s := if_pos h

theorem issue_ident (h : s.exs.quietReq = false) (hi : s.cde.ident = some .waiting) : issue s = withCde { s.cde with
    ident := some .sent, sent := some (.ident (crc16 (Config.commandFrame 1 0 0))), busTimer := some 10000 } s := by
  rw [issue, if_neg (by simp [h]), if_pos hi]
  rfl

/-- The run's command frame for the blocks not yet done. -/
def commandOf (r : Run) : BusSent :=
  if r.write then .writeRun (r.start + r.done) (r.count - r.done) (crc16 (Config.commandFrame 3 (r.start + r.done) (r.count - r.done)))
  else .readRun (r.start + r.done) (r.count - r.done) (crc16 (Config.commandFrame 2 (r.start + r.done) (r.count - r.done)))

theorem issue_run (h : s.exs.quietReq = false) (hi : s.cde.ident = none) (hr : s.cde.run = some r) (hw : r.stage = .waiting) :
    issue s = withCde { s.cde with run := some { r with stage := .acking }, sent := some (commandOf r), busTimer := some 10000 } s := by
  rw [issue, if_neg (by simp [h]), if_neg (by simp [hi]), if_pos (by simp [hr, hw]), issueRun]
  simp only [hr, awaitResponse, modRun, modCde, Option.map_some]
  rfl

/-! ### IDENT (R163, R175) -/

/-- IDENT over. -/
def identified (c : Cde) : Cde := { c with ident := none, busTimer := none }

theorem identified_of_kept (h : s.cde.identDrop = none) :
    modCde (fun c => { c with ident := none, identDrop := none, busTimer := none }) s = withCde (identified s.cde) s := by
  rw [modCde, identified, ← h]
  rfl

theorem identResponse_of_sent (h : s.cde.ident = some .sent) (g : Bool) (n : Nat) :
    identResponse g n s = identEnded (identCapacity g n) s := if_pos h

theorem identEnded_good (h : s.cde.identDrop = none) (n : Nat) :
    identEnded (some n) s = identGood n (withCde (identified s.cde) s) := by
  simp only [identEnded, h, identified_of_kept h]

theorem identEnded_bad (h : s.cde.identDrop = none) :
    identEnded none s = enterFault .ident (withCde (identified s.cde) s) := by
  simp only [identEnded, h, identified_of_kept h]
  rfl

theorem identCapacity_good {n : Nat} (h : 0 < n) : identCapacity true n = some n := if_pos ⟨rfl, h⟩

/-- What entering FAULT drops is dropped all the same after IDENT. -/
theorem faults_identified {cause : FaultCause} (hs : s.resetHeld = false) (hw : NoWork s.cde) (hp : s.cde.pwrEn = true)
    (hi : exec i s = event s f) (hf : f s = enterFault cause (withCde (identified s.cde) s)) : Faults i s cause := by
  have hsame : enterFault cause (withCde (identified s.cde) s) = enterFault cause s := by
    rw [enterFault_powered (s := withCde (identified s.cde) s) cause hw hp, enterFault_powered cause hw hp]
    rfl
  exact faults_of hs hw hp hi (hf.trans hsame)

/-- A response of IDENT that is bad, or late, ends in FAULT. -/
theorem ident_fails (hs : s.resetHeld = false) (hw : NoWork s.cde) (hp : s.cde.pwrEn = true)
    (hi : s.cde.ident = some .sent) (hd : s.cde.identDrop = none) (n : BitVec 32) : Faults (.identResponse false n) s .ident ∧
      Faults (.identResponse true 0) s .ident ∧ Faults .responseTimeout s .ident := by
  refine ⟨faults_identified hs hw hp (exec_identResponse _ _ s) ?_, faults_identified hs hw hp (exec_identResponse _ _ s) ?_,
    faults_identified hs hw hp (exec_responseTimeout s) ?_⟩
  · rw [identResponse_of_sent hi]
    exact identEnded_bad hd
  · rw [identResponse_of_sent hi]
    exact identEnded_bad hd
  · exact (if_pos hi).trans (identEnded_bad hd)

/-- The mount begun (R163, R180). -/
theorem ident_mounts (hi : s.cde.ident = some .sent) (hr : s.cde.run = none) (hd : s.cde.identDrop = none) {n : Nat} (hn : 0 < n) :
    identResponse true n s = withCde { s.cde with
      ident := none, busTimer := none, capacity := some n, state := .mounting, block := [], mount := some ⟨.logHeader, ⟨0, 0, 0, 0⟩, false⟩, run := some ⟨.mount, false, 0, 1, 0, 0, 0, 0, false, .waiting⟩ } s := by
  have hcycling : (withCde (identified s.cde) s).cde.cycling = false := Cde.cycling_of_no_run hr
  rw [identResponse_of_sent hi, identCapacity_good hn, identEnded_good hd, identGood, hcycling]
  rfl

section Cycle

variable {n : Nat} (hi : s.cde.ident = some .sent) (hd : s.cde.identDrop = none) (hr : s.cde.run = some r)
  (hc : r.stage = .cycling) (hn : 0 < n)
include hi hd hr hc hn

theorem ident_otherCard (hsize : s.cde.capacity ≠ some n) :
    identResponse true n s = enterFault .ident (withCde (identified s.cde) s) := by
  have hcycling : (withCde (identified s.cde) s).cde.cycling = true := (cycling_iff _).2 ⟨r, hr, hc⟩
  rw [identResponse_of_sent hi, identCapacity_good hn, identEnded_good hd, identGood, if_pos hcycling, if_neg (by exact hsize)]
  rfl

/-- The card that goes on from a power cycle. -/
def resumed (r : Run) (c : Cde) : Cde := { c with ident := none, busTimer := none, run := some { r with stage := .waiting } }

theorem ident_resumes (hsize : s.cde.capacity = some n) : identResponse true n s =
    if r.stop then endRun .stopped (withCde (resumed r s.cde) s) else withCde (resumed r s.cde) s := by
  have hcycling : (withCde (identified s.cde) s).cde.cycling = true := (cycling_iff _).2 ⟨r, hr, hc⟩
  have hmod : modRun (fun r => { r with stage := .waiting }) (withCde (identified s.cde) s) = withCde (resumed r s.cde) s := by
    have hrun : (withCde (identified s.cde) s).cde.run = some r := hr
    rw [modRun, modCde, hrun]
    rfl
  rw [identResponse_of_sent hi, identCapacity_good hn, identEnded_good hd, identGood, if_pos hcycling, if_pos (by exact hsize), hmod]
  rfl

end Cycle

end Bus

end Sys2Proof.Machine
end

section
/-! PROOFS. The runs of the card bus: acknowledgements, tokens, busy, timeouts and the stop mark (R171 to R175; O57). -/

namespace Sys2Proof.Machine

set_option Elab.async false

section Runs

variable {s : State} {r : Run} (hr : s.cde.run = some r)
include hr

theorem ack_reads (ha : r.stage = .acking) (hw : r.write = false) : responseArrived true s =
    withCde { s.cde with run := some { r with stage := .receiving }, busTimer := some 10000 } s := by
  simp only [responseArrived, hr, ha, if_pos, acknowledged, hw, awaitResponse, modRun, modCde, Option.map_some]
  rfl

/-- A block sent, its token awaited. -/
def blockSent (data : List Byte) (r : Run) (c : Cde) : Cde :=
  { c with block := data, run := some { r with stage := .token }, sent := some (.block data (crc16 data)), busTimer := some 10000 }

theorem sendBlock_eq (data : List Byte) : sendBlock data s = withCde (blockSent data r s.cde) s := by
  simp only [sendBlock, awaitResponse, modRun, modCde, hr, Option.map_some]
  rfl

/-- The log header block of a format (R179). -/
def formatBlock (size : Nat) (g : Geometry) : List Byte :=
  padTo 512 ([0x4B, 0x56, 0x53, 0x48, 0x4F, 0x54, 0x4C, 0x47] ++ le 4 512 ++ le 4 size ++ le 4 g.nextFree ++ le 4 g.count ++ le 4 g.highest ++ le 4 g.formatId)

theorem ack_formats {g : Geometry} {size : Nat} (ha : r.stage = .acking) (hw : r.write = true) (hu : r.user = .format)
    (hg : s.cde.format = some g) (hsize : s.cde.capacity = some size) :
    responseArrived true s = withCde (blockSent (formatBlock size g) r s.cde) s := by
  have hblock : fixedBlock r s = some (formatBlock size g) := by
    simp only [fixedBlock, hu, hg, capacityOf, hsize, Option.map_some]
    rfl
  simp only [responseArrived, hr, ha, if_pos, acknowledged, hw, nextBlock, hblock]
  exact sendBlock_eq hr _

theorem takeToken_eq (ht : r.stage = .token) (w : WriteToken) : takeToken w s = match w with
    | .accept => withCde { s.cde with run := some { r with stage := .busy }, busTimer := some 250000 } s
    | .crcBad => if r.resends < 3 then withCde { s.cde with run := some { r with resends := r.resends + 1 }, sent := some (.block s.cde.block (crc16 s.cde.block)), busTimer := some 10000 } s
        else enterFault .writeFail s
    | .writeFail => enterFault .writeFail s := by
  simp only [takeToken, hr]
  rw [if_neg (by simp [ht])]
  cases w with
  | accept =>
    simp only [modRun, modCde, hr, Option.map_some]
    rfl
  | crcBad =>
    refine if_congr Iff.rfl ?_ rfl
    have hmod : modRun (fun r => { r with resends := r.resends + 1 }) s =
        withCde { s.cde with run := some { r with resends := r.resends + 1 } } s := by
      simp only [modRun, modCde, hr, Option.map_some]
      rfl
    rw [hmod, sendBlock_eq (r := { r with resends := r.resends + 1 }) (by rfl)]
    rw [blockSent, ← ht]
    rfl
  | writeFail => rfl

theorem busyReleased_eq (hb : r.stage = .busy) : busyReleased s =
    atBoundary (withCde { s.cde with run := some { r with done := r.done + 1, resends := 0 }, busTimer := none } s) := by
  simp only [busyReleased, hr]
  rw [if_neg (by simp [hb])]
  simp only [modRun, modCde, hr, Option.map_some]
  rfl

theorem atBoundary_done (hd : r.count ≤ r.done) : atBoundary s = endRun .done s := by
  simp only [atBoundary, hr, if_pos hd]

theorem atBoundary_stops (hd : r.done < r.count) (hstop : r.stop = true) : atBoundary s =
    withCde { s.cde with run := some { r with stage := .stopping }, sent := some .stopMark, busTimer := some 10000 } s := by
  simp only [atBoundary, hr, if_neg (Nat.not_le.mpr hd), if_pos hstop, sendStop, awaitResponse, modRun, modCde, Option.map_some]
  rfl

theorem atBoundary_reads (hd : r.done < r.count) (hstop : r.stop = false) (hw : r.write = false) : atBoundary s =
    withCde { s.cde with run := some { r with stage := .receiving }, busTimer := some 10000 } s := by
  simp only [atBoundary, hr, if_neg (Nat.not_le.mpr hd), hstop, hw, awaitResponse, modRun, modCde, Option.map_some]
  rfl

theorem stopMark_answered (h : r.stage = .stopping) : responseArrived true s = endRun .stopped s := by
  simp only [responseArrived, hr, h, if_pos]

theorem formatEnded_done {g : Geometry} (hu : r.user = .format) (hg : s.cde.format = some g) (hp : s.cde.parkOwed = false) :
    endRun .done s = withCde { runEnded s.cde with state := .ready, geometry := some g, format := none } s := by
  have hformat : (withCde (runEnded s.cde) s).cde.format = some g := hg
  rw [endRun_eq hr, hu]
  simp only [beq_self_eq_true, formatEnded, if_pos, hformat]
  exact if_neg fun h => by simp [withCde, modCde, runEnded, hp] at h

/-- The card powered down by a park that takes the place of the mount's next run (R167, R180). -/
def mountParked (m : Mount) (c : Cde) : Cde := { runEnded c with parkAsked := false, parkOwed := false, geometry := if m.stage = .rewrite then c.geometry else none, mount := none, lines := .highZ, pwrEn := false, rail := .discharging, discharge := true, dischargeTimer := some 500000, dischargeFor := .park, rampTimer := none, powerUp := none, identDrop := none, ocCount := 0, state := .discharging }

theorem mount_parks {m : Mount} (hi : s.cde.ident = none) (hu : r.user = .mount) (hm : s.cde.mount = some m)
    (hp : s.cde.parkAsked = true) (hst : s.cde.state = .mounting) :
    endRun .stopped s = withPins { s.pins with overcurrent := false } (withCde (mountParked m s.cde) s) := by
  have hmount : (withCde (runEnded s.cde) s).cde.mount = some m := hm
  have hpark : (withCde (runEnded s.cde) s).cde.parkAsked = true := hp
  have hstate : (withCde (runEnded s.cde) s).cde.state = .mounting := hst
  have hkept : (if s.cde.mount.any (fun m => m.stage == .rewrite) then s.cde.geometry else none) =
      if m.stage = .rewrite then s.cde.geometry else none := by
    rw [hm]
    exact if_congr (by simp) rfl rfl
  rw [endRun_eq hr, hu]
  simp only [mountEnded, hmount]
  have hident : (runEnded s.cde).ident = none := hi
  rw [if_neg (by simp), if_pos hpark, parkNow_eq, hstate, mountParked, ← hkept, hident]
  rfl

/-! ### Timeouts (R175) -/

/-- The card power-cycled by the first timeout of its run. -/
def cycledFor (r : Run) (c : Cde) : Cde := { c with run := some { r with timeouts := 1, stage := .cycling, resends := 0 }, lines := .highZ, pwrEn := false, rail := .discharging, discharge := true, dischargeTimer := some 500000, dischargeFor := .cycle, rampTimer := none, busTimer := none, powerUp := none, ident := none, identDrop := none, ocCount := 0 }

theorem runTimeout_first (h : r.timeouts = 0) :
    runTimeout r s = withPins { s.pins with overcurrent := false } (withCde (cycledFor r s.cde) s) := by
  simp only [runTimeout, h, modRun, modCde, hr, Option.map_some]
  rfl

omit hr in
theorem runTimeout_second (h : 1 ≤ r.timeouts) : runTimeout r s = enterFault .timeout s := if_pos h

/-- The run awaits an answer of the card. -/
def AwaitsCard (r : Run) : Prop := r.stage = .acking ∨ r.stage = .receiving ∨ r.stage = .token ∨ r.stage = .stopping

theorem responseFailed_run (hi : s.cde.ident = none) (ha : AwaitsCard r) : responseFailed s = runTimeout r s := by
  rw [responseFailed, if_neg (by simp [hi]), hr]
  rcases ha with h | h | h | h <;> simp only [h]

theorem busyExpired_run (hb : r.stage = .busy) : busyExpired s = runTimeout r s := by
  simp only [busyExpired, hr, if_pos hb]

end Runs

theorem cycles_of {s : State} {r : Run} {i : Instr} {f : State → State} (hs : s.resetHeld = false) (hr : s.cde.run = some r)
    (h : r.timeouts = 0) (hi : exec i s = event s f) (hf : f s = runTimeout r s) :
    ∃ t, exec i s = .next t ∧ t.cde = cycledFor r s.cde ∧ OnlyChanges [.cde, .pins] s t :=
  ⟨_, hi.trans (event_to hs (hf.trans (runTimeout_first hr h))), finish_cde _ _,
    ((((OnlyChanges.refl _ s).cde _).pins _).finish s)⟩

end Sys2Proof.Machine
end

section
/-! PROOFS. The blocks of a card read (R172, R192, R193; O57). -/

namespace Sys2Proof.Machine

set_option Elab.async false

/-! ### The writes of a block -/

theorem getLast?_cellsAt {a : Nat} {bs : List Byte} {l : Host.Cell} (h : (cellsAt a bs).getLast? = some l) :
    l.1 + 1 = a + bs.length := by
  induction bs generalizing a with
  | nil => simp [cellsAt] at h
  | cons v vs ih =>
    rcases vs with _ | ⟨w, ws⟩
    · obtain rfl : (a, v) = l := by simpa [cellsAt] using h
      rfl
    · have hrest : (cellsAt (a + 1) (w :: ws)).getLast? = some l := by
        rw [cellsAt, List.getLast?_cons_of_ne_nil (by simp [cellsAt])] at h
        exact h
      have := ih hrest
      rw [List.length_cons]
      omega

/-- Each byte of a block is in one of its writes. -/
theorem cardWrites_cover {a k : Nat} {bs : List Byte} {b : Byte} (h : bs[k]? = some b) :
    ∃ x ∈ cardWrites (cellsAt a bs), x.kind = .cardWrite ∧ (a + k, b) ∈ x.bytes := by
  obtain ⟨hk, -⟩ := List.getElem?_eq_some_iff.1 h
  rcases bs with _ | ⟨v, vs⟩
  · simp at h
  · set cells := cellsAt a (v :: vs) with hcells
    obtain ⟨l, hl⟩ : ∃ l, cells.getLast? = some l := List.getLast?_isSome.2 (by simp [hcells, cellsAt]) |> Option.isSome_iff_exists.1
    have hlast : l.1 + 1 = a + (v :: vs).length := getLast?_cellsAt hl
    have hcell : (a + k, b) ∈ cells := mem_cellsAt.2 ⟨k, h, rfl⟩
    set part := cells.filter fun x => x.1 / 64 == a / 64 + ((a + k) / 64 - a / 64) with hpart
    have hin : (a + k, b) ∈ part := List.mem_filter.2 ⟨hcell, by simp; omega⟩
    obtain ⟨y, hy⟩ : ∃ y, part.head? = some y := by
      rcases hp : part with _ | ⟨y, ys⟩
      · simp [hp] at hin
      · exact ⟨y, rfl⟩
    have hwrites : cardWrites cells = ((List.range (l.1 / 64 - a / 64 + 1)).map fun w => cells.filter fun x => x.1 / 64 == a / 64 + w).filterMap
        fun part => part.head?.map fun x => { kind := .cardWrite, addr := x.1, len := part.length, bytes := part } := by
      rw [hcells, cellsAt] at hl ⊢
      simp only [cardWrites, hl]
    refine ⟨{ kind := .cardWrite, addr := y.1, len := part.length, bytes := part }, ?_, rfl, hin⟩
    rw [hwrites, List.mem_filterMap]
    refine ⟨part, List.mem_map.2 ⟨(a + k) / 64 - a / 64, List.mem_range.2 ?_, rfl⟩, by rw [hy]; rfl⟩
    rw [List.length_cons] at hlast hk
    omega

/-! ### A block taken -/

section Blocks

variable {s : State} {r : Run} {q : CardRead} {data : List Byte}

/-- The writes of the block that is next in a read. -/
def blockWrites (q : CardRead) (data : List Byte) : List Txn := cardWrites (cellsAt (q.dest + 512 * q.done) data)

theorem storeBlock_whole (hc : q.carry = []) (h8 : q.dest % 8 = 0) (hl : data.length = 512) (u : State) :
    storeBlock q data u =
      presentAll (blockWrites q data) (withCde { u.cde with serving := some { q with done := q.done + 1 } } u) := by
  have hstop : (if q.done + 1 = q.count then q.dest + 512 * q.done + 512 else codewordOf (q.dest + 512 * q.done + 512)) =
      q.dest + 512 * q.done + 512 := by
    rw [codewordOf]
    split <;> omega
  have hin : ∀ c ∈ cellsAt (q.dest + 512 * q.done) data, c.1 < q.dest + 512 * q.done + 512 := fun c hcell => by
    have := (mem_cellsAt_fst.1 (List.mem_map_of_mem (f := (·.1)) hcell)).2
    omega
  have hkeep : (cellsAt (q.dest + 512 * q.done) data).filter (fun c => decide (c.1 < q.dest + 512 * q.done + 512)) =
      cellsAt (q.dest + 512 * q.done) data := List.filter_eq_self.2 fun c hcell => decide_eq_true (hin c hcell)
  have hrest : (cellsAt (q.dest + 512 * q.done) data).filter (fun c => decide (q.dest + 512 * q.done + 512 ≤ c.1)) = [] :=
    List.filter_eq_nil_iff.2 fun c hcell => by have := hin c hcell; simp; omega
  simp only [storeBlock, hstop]
  rw [hc, List.nil_append, hkeep, hrest]
  rfl

variable (hr : s.cde.run = some r) (hst : r.stage = .receiving)
include hr hst

/-- A good block of a card read goes on from here. -/
def blockTaken (r : Run) (q : CardRead) (data : List Byte) (c : Cde) : Cde :=
  { c with block := data, run := some { r with done := r.done + 1 }, serving := some { q with done := q.done + 1 } }

theorem blockReceived_read (hu : r.user = .read) (hq : s.cde.serving = some q) (hc : q.carry = []) (h8 : q.dest % 8 = 0)
    (hl : data.length = 512) : blockReceived data (crc16 data) s =
      atBoundary (withCde (blockTaken r q data s.cde) (presentAll (blockWrites q data) s)) := by
  simp only [blockReceived, hr]
  rw [if_neg (by simp [hst]), if_pos trivial]
  have hserving : (modCde (fun c => { c with block := data }) s).cde.serving = some q := hq
  have hmod : ∀ u : State, u.cde.run = some r → modRun (fun r => { r with done := r.done + 1 }) u =
      withCde { u.cde with run := some { r with done := r.done + 1 } } u := fun u hu => by
    rw [modRun, modCde, hu]
    rfl
  simp only [hu, hserving, storeBlock_whole hc h8 hl]
  rw [hmod _ (by exact hr)]
  rfl

theorem blockReceived_mount (hu : r.user = .mount) : blockReceived data (crc16 data) s =
    atBoundary (withCde { s.cde with block := data, run := some { r with done := r.done + 1 } } s) := by
  simp only [blockReceived, hr]
  rw [if_neg (by simp [hst]), if_pos trivial]
  simp only [hu, modRun, modCde, hr, Option.map_some]
  rfl

variable {crc : BitVec 16} (hbad : crc ≠ crc16 data)
include hbad

theorem blockReceived_again (hstop : r.stop = false) (hn : r.retries < 3) : blockReceived data crc s =
    withCde { s.cde with run := some { r with retries := r.retries + 1, stage := .waiting }, busTimer := none } s := by
  simp only [blockReceived, hr]
  rw [if_neg (by simp [hst]), if_neg (fun h => hbad h.symm), if_pos hn, if_neg (by simp [hstop])]
  simp only [modRun, modCde, hr, Option.map_some]
  rfl

theorem blockReceived_gone (hn : 3 ≤ r.retries) : blockReceived data crc s = endRun .crcFail s := by
  simp only [blockReceived, hr]
  rw [if_neg (by simp [hst]), if_neg (fun h => hbad h.symm), if_neg (Nat.not_lt.mpr hn)]

end Blocks

/-! ### The end of a run of a card read -/

section Ends

theorem endServing_clean {u : State} {p : CardRead} (o : ReadOutcome) (hp : u.cde.serving = some p) (hc : p.carry = []) :
    endServing o u = withCde { u.cde with serving := none, ended := u.cde.ended ++ [⟨p.tag, o, p.done⟩] } u := by
  simp only [endServing, hp, hc]
  exact presentAll_nil _

variable {s : State} {r : Run} {q : CardRead} (hr : s.cde.run = some r) (hu : r.user = .read)
  (hq : s.cde.serving = some q)
include hr hu hq

theorem read_fails (hc : q.carry = []) : endRun .crcFail s =
    withCde { runEnded s.cde with serving := none, ended := s.cde.ended ++ [⟨q.tag, .crcFail, q.done⟩] } s := by
  rw [endRun_eq hr, hu]
  exact endServing_clean .crcFail hq hc

theorem read_ends (hc : q.carry = []) (hd : q.count ≤ q.done) : endRun .done s =
    withCde { runEnded s.cde with serving := none, ended := s.cde.ended ++ [⟨q.tag, .done, q.done⟩] } s := by
  have hserving : (withCde (runEnded s.cde) s).cde.serving = some q := hq
  rw [endRun_eq hr, hu]
  simp only [readEnded, hserving, if_pos hd]
  exact endServing_clean .done hq hc

theorem read_goesOn (hd : q.done < q.count) : endRun .done s = withCde (runAsked .read false (q.block + q.done)
    (min q.count ((q.done / 256 + 1) * 256) - q.done) s.cde) s := by
  have hserving : (withCde (runEnded s.cde) s).cde.serving = some q := hq
  rw [endRun_eq hr, hu]
  simp only [readEnded, hserving, if_neg (Nat.not_le.mpr hd)]
  rfl

end Ends

/-- A block taken, with its writes presented. -/
theorem takes_of {s : State} {i : Instr} {f : State → State} {c : Cde} {q : CardRead} {data : List Byte}
    (hs : s.resetHeld = false) (hi : exec i s = event s f) (hf : f s = withCde c (presentAll (blockWrites q data) s)) :
    ∃ t, exec i s = .next t ∧ t.cde = c ∧ (∀ k b, data[k]? = some b → ∃ x ∈ t.fmc.pending, x.kind = .cardWrite ∧
      (q.dest + 512 * q.done + k, b) ∈ x.bytes) ∧ OnlyChanges [.cde] s t := by
  refine ⟨_, hi.trans (event_to hs hf), finish_cde _ _, fun k b hk => ?_,
    (((presentAll_onlyChanges (blockWrites q data) s).within.cde c).finish s)⟩
  obtain ⟨ts, hts, -⟩ := finish_adds s (withCde c (presentAll (blockWrites q data) s))
  obtain ⟨x, hx, hcover⟩ := cardWrites_cover (a := q.dest + 512 * q.done) hk
  exact ⟨x, hts ▸ List.mem_append_left _ (List.mem_append_right _ hx), hcover⟩

end Sys2Proof.Machine
end

section
/-! PROOFS. The mount and its scan (R18, R180 to R182; O57). -/

namespace Sys2Proof.Machine

set_option Elab.async false

/-- The next shot number, raised above a number on the card (R18). -/
def raised (t : Stb) (n : Nat) : Stb :=
  { t with nextShot := if 4294967295 ≤ n ∨ t.records.any (fun r => decide (t.nextShot ≤ r.shot)) = true then t.nextShot else max t.nextShot (n + 1) }

theorem raiseNumber_eq (t : Stb) (n : Nat) : t.raiseNumber n = raised t n := by
  unfold Stb.raiseNumber raised
  by_cases hn : n ≥ max32
  · rw [if_pos hn, if_pos (.inl hn)]
  · rw [if_neg hn]
    by_cases ht : (t.records.any fun r => decide (t.nextShot ≤ r.shot)) = true
    · rw [if_pos ht, if_pos (.inr ht)]
    · rw [if_neg ht, if_neg (fun h => h.elim hn ht)]

/-- The card is mounted, and the number floor raised. -/
def Mounted (i : Instr) (s : State) (g : Geometry) (d : Cde) : Prop := s.cde.parkOwed = false → ∃ t, exec i s = .next t ∧
  t.cde = { d with mount := none, state := .ready } ∧ t.stb = raised s.stb g.highest ∧ OnlyChanges [.cde, .stb] s t

/-- The mount asks for its next run. -/
def mountAsks (write : Bool) (start : Nat) (g : Option Geometry) (m : Mount) (c : Cde) : Cde :=
  { runEnded c with geometry := g, mount := some m, run := some ⟨.mount, write, start, 1, 0, 0, 0, 0, false, .waiting⟩ }

/-- The end of the scan (R182). -/
def Scanned (i : Instr) (s : State) (m : Mount) : Prop :=
  (m.accepted = true → Becomes i s (mountAsks true 0 (some m.geometry) { m with stage := .rewrite } s.cde)) ∧
  (m.accepted = false → Mounted i s m.geometry { runEnded s.cde with geometry := some m.geometry })

/-- The next container of the scan, or its end (R181). -/
def Steps (i : Instr) (s : State) (size : Nat) (m : Mount) (g : Option Geometry) : Prop :=
  (size ≤ m.geometry.nextFree → Scanned i s m) ∧
  (m.geometry.nextFree < size → Becomes i s (mountAsks false m.geometry.nextFree g { m with stage := .container } s.cde))

section Mount

variable {s : State} {i : Instr} {f : State → State} {m : Mount} {g : Option Geometry}

theorem mountDone_eq {d : Cde} (h : d.parkOwed = false) (g : Geometry) : mountDone g (withCde d s) =
    withStb (raised s.stb g.highest) (withCde { d with mount := none, state := .ready } s) := by
  rw [mountDone, ← raiseNumber_eq]
  exact if_neg fun hpark => by simp [modCde, withCde, h] at hpark

theorem mounted_of {d : Cde} {g : Geometry} (hs : s.resetHeld = false) (hi : exec i s = event s f)
    (hd : d.parkOwed = s.cde.parkOwed) (hf : d.parkOwed = false → f s = mountDone g (withCde d s)) : Mounted i s g d := by
  intro howed
  have hd' : d.parkOwed = false := hd.trans howed
  exact ⟨_, hi.trans (event_to hs ((hf hd').trans (mountDone_eq hd' g))), finish_cde _ _, finish_stb _ _,
    ((((OnlyChanges.refl _ s).cde _).stb _).finish s)⟩

theorem scanEnd_accepted (ha : m.accepted = true) (u : State) : scanEnd m u = startRun .mount true 0 1
    (withCde { u.cde with geometry := some m.geometry, mount := some { m with stage := .rewrite } } u) := if_pos ha

theorem scanEnd_rejected (ha : m.accepted = false) (u : State) : scanEnd m u =
    mountDone m.geometry (withCde { u.cde with geometry := some m.geometry } u) := if_neg (by simp [ha])

section Scan

variable (hs : s.resetHeld = false) (hi : exec i s = event s f)
include hs hi

theorem scanned_of (hf : f s = scanEnd m (withCde { runEnded s.cde with geometry := g } s)) : Scanned i s m := by
  refine ⟨fun ha => becomes_of hs hi (hf.trans (scanEnd_accepted ha _)), fun ha => ?_⟩
  exact mounted_of hs hi rfl fun _ => hf.trans (scanEnd_rejected ha _)

theorem steps_of {size : Nat} (hsize : s.cde.capacity = some size)
    (hf : f s = scanStep m (withCde { runEnded s.cde with geometry := g } s)) : Steps i s size m g := by
  have hcapacity : capacityOf (withCde { runEnded s.cde with geometry := g } s) = size := by
    show natOr0 s.cde.capacity = size
    rw [hsize]
    rfl
  rw [scanStep, hcapacity] at hf
  refine ⟨fun hfull => ?_, fun hmore => ?_⟩
  · rw [if_pos hfull] at hf
    exact scanned_of hs hi hf
  · rw [if_neg (Nat.not_le.mpr hmore)] at hf
    exact becomes_of hs hi hf

end Scan

/-! ### The blocks the mount reads -/

/-- Block 0 is valid (R178, R180). -/
def LogHeaderValid (size : Nat) (data : List Byte) : Prop :=
  data.take 8 = [0x4B, 0x56, 0x53, 0x48, 0x4F, 0x54, 0x4C, 0x47] ∧ field data 8 4 = 512 ∧ field data 12 4 = size ∧
    1 ≤ field data 16 4 ∧ field data 16 4 ≤ size

/-- The geometry in block 0. -/
def geometryIn (data : List Byte) : Geometry := ⟨field data 16 4, field data 20 4, field data 24 4, field data 28 4⟩

/-- The fields of a container header. -/
def headerIn (data : List Byte) : HeaderFields :=
  ⟨field data 8 4, field data 12 4, field data 16 4, field data 20 4, crc32 data⟩

/-- A container header is the one the scan looks for (R181, step 1). -/
def HeaderValid (size : Nat) (m : Mount) (data : List Byte) : Prop :=
  data.take 8 = [0x4B, 0x56, 0x43, 0x4F, 0x4E, 0x54, 0x48, 0x44] ∧ field data 8 4 = m.geometry.formatId ∧
    field data 12 4 = m.geometry.count ∧ m.geometry.nextFree + field data 20 4 + 2 ≤ size

/-- A commit block is that of the header (R181, step 2). -/
def CommitValid (m : Mount) (h : HeaderFields) (data : List Byte) : Prop :=
  data.take 8 = [0x4B, 0x56, 0x43, 0x4F, 0x4D, 0x4D, 0x49, 0x54] ∧ field data 8 4 = h.formatId ∧
    field data 12 4 = h.index ∧ field data 16 4 = h.shot ∧ field data 20 4 = m.geometry.nextFree ∧
    field data 28 4 = h.crc.toNat

/-- The mount with a container taken (R181, step 3). -/
def accepting (m : Mount) (h : HeaderFields) : Mount := { m with
  geometry := { m.geometry with nextFree := m.geometry.nextFree + h.blocks + 2, count := (m.geometry.count + 1) % 4294967296, highest := max m.geometry.highest h.shot }
  accepted := true }

section Judged

variable {u : State} {data : List Byte} {size : Nat} (hcapacity : capacityOf u = size)
include hcapacity

theorem judgeLogHeader_valid (h : LogHeaderValid size data) : judgeLogHeader m data u =
    scanStep { m with geometry := geometryIn data } (withCde { u.cde with geometry := some (geometryIn data) } u) := by
  have hheader : logHeaderOf (capacityOf u) data = some (geometryIn data) := by
    rw [hcapacity]
    exact if_pos h
  simp only [judgeLogHeader, hheader]
  rfl

theorem judgeLogHeader_invalid (h : ¬ LogHeaderValid size data) : judgeLogHeader m data u = becomeUnformatted u := by
  have hheader : logHeaderOf (capacityOf u) data = none := by
    rw [hcapacity]
    exact if_neg h
  simp only [judgeLogHeader, hheader]

theorem judgeHeader_valid (h : HeaderValid size m data) : judgeHeader m data u =
    startRun .mount false (m.geometry.nextFree + field data 20 4 + 1) 1
      (withCde { u.cde with mount := some { m with stage := .commit (headerIn data) } } u) := by
  obtain ⟨hmark, hid, hcount, hroom⟩ := h
  have hfields : headerFieldsOf data = some (headerIn data) := if_pos hmark
  simp only [judgeHeader, hfields]
  exact if_pos ⟨hid, hcount, hcapacity.symm ▸ hroom⟩

theorem judgeHeader_invalid (h : ¬ HeaderValid size m data) : judgeHeader m data u = scanEnd m u := by
  by_cases hmark : data.take 8 = [0x4B, 0x56, 0x43, 0x4F, 0x4E, 0x54, 0x48, 0x44]
  · have hfields : headerFieldsOf data = some (headerIn data) := if_pos hmark
    simp only [judgeHeader, hfields]
    exact if_neg fun ⟨hid, hcount, hroom⟩ => h ⟨hmark, hid, hcount, hcapacity ▸ hroom⟩
  · have hfields : headerFieldsOf data = none := if_neg hmark
    simp only [judgeHeader, hfields]

omit hcapacity in
theorem judgeCommit_valid {h : HeaderFields} (hv : CommitValid m h data) :
    judgeCommit m h data u = scanStep (accepting m h) u := if_pos (decide_eq_true (by exact hv))

omit hcapacity in
theorem judgeCommit_invalid {h : HeaderFields} (hv : ¬ CommitValid m h data) : judgeCommit m h data u = scanEnd m u :=
  if_neg (by rwa [commitMatches, decide_eq_true_iff])

end Judged

/-! ### The end of a run of the mount -/

/-- A block read is judged by the mount's stage. -/
def judgeBlock (m : Mount) (bs : List Byte) (u : State) : State :=
  match m.stage with
  | .logHeader => judgeLogHeader m bs u
  | .container => judgeHeader m bs u
  | .commit h => judgeCommit m h bs u
  | .rewrite => mountDone m.geometry u

section Ended

variable {r : Run} (hr : s.cde.run = some r) (hu : r.user = .mount) (hm : s.cde.mount = some m)
  (hp : s.cde.parkAsked = false)
include hr hu hm hp

theorem mount_rewritten (hst : m.stage = .rewrite) (howed : s.cde.parkOwed = false) :
    endRun .done s = mountDone m.geometry (withCde (runEnded s.cde) s) := by
  have hmount : (withCde (runEnded s.cde) s).cde.mount = some m := hm
  have hdone := mountDone_eq (s := s) (d := runEnded s.cde) howed m.geometry
  rw [endRun_eq hr, hu]
  simp only [mountEnded, hmount]
  rw [if_pos ⟨hst, trivial⟩, hdone]
  exact if_neg (by simp [withStb, withCde, runEnded, hp])

theorem mount_reads (hst : m.stage ≠ .rewrite) :
    endRun .done s = judgeBlock m s.cde.block (withCde (runEnded s.cde) s) := by
  have hmount : (withCde (runEnded s.cde) s).cde.mount = some m := hm
  have hpark : (withCde (runEnded s.cde) s).cde.parkAsked = false := hp
  rw [endRun_eq hr, hu]
  simp only [mountEnded, hmount]
  refine (if_neg fun h => hst h.1).trans ((if_neg (by simp [hpark])).trans ?_)
  unfold judgeBlock
  cases m.stage <;> rfl

theorem mount_fails : endRun .crcFail s = if m.stage = .logHeader then becomeUnformatted (withCde (runEnded s.cde) s)
    else scanEnd m (withCde (runEnded s.cde) s) := by
  have hmount : (withCde (runEnded s.cde) s).cde.mount = some m := hm
  have hpark : (withCde (runEnded s.cde) s).cde.parkAsked = false := hp
  rw [endRun_eq hr, hu]
  simp only [mountEnded, hmount]
  rw [if_neg (fun h => by simp at h), if_neg (by simp [hpark])]

end Ended

end Mount

end Sys2Proof.Machine
end

section
/-! PROOFS. The card bus settled, clause by clause (O57). -/

namespace Sys2Proof.Machine

set_option Elab.async false

section Clauses

variable {s : State} {r : Run} (hs : s.resetHeld = false) (hr : s.cde.run = some r)
include hs hr

/-- A block of a card read: the writes it makes, and how its run goes on. -/
theorem readBlock_taken {q : CardRead} {data : List Byte} (hst : r.stage = .receiving) (hu : r.user = .read)
    (hq : s.cde.serving = some q) (hl : data.length = 512) (hw : r.write = false) (hstop : r.stop = false)
    (hc : q.carry = []) (h8 : q.dest % 8 = 0) :
    let takes := fun (d : Cde) => ∃ t, exec (.cardBlockReceived data (crc16 data)) s = .next t ∧ t.cde = d ∧
      (∀ k b, data[k]? = some b → ∃ x ∈ t.fmc.pending, x.kind = .cardWrite ∧ (q.dest + 512 * q.done + k, b) ∈ x.bytes) ∧
      OnlyChanges [.cde] s t
    (r.done + 1 < r.count → takes { s.cde with block := data, run := some { r with done := r.done + 1, stage := .receiving }, serving := some { q with done := q.done + 1 }, busTimer := some 10000 }) ∧
    (r.count ≤ r.done + 1 → q.count ≤ q.done + 1 → takes { runEnded s.cde with serving := none, ended := s.cde.ended ++ [⟨q.tag, .done, q.done + 1⟩] }) ∧
    (r.count ≤ r.done + 1 → q.done + 1 < q.count → takes { runEnded s.cde with serving := some { q with done := q.done + 1 }, run := some ⟨.read, false, q.block + q.done + 1, min q.count (((q.done + 1) / 256 + 1) * 256) - (q.done + 1), 0, 0, 0, 0, false, .waiting⟩ }) := by
  intro takes
  have hexec := exec_cardBlockReceived data (crc16 data) hl s
  have htaken := blockReceived_read hr hst hu hq hc h8 hl
  have hrun : (withCde (blockTaken r q data s.cde) (presentAll (blockWrites q data) s)).cde.run =
      some { r with done := r.done + 1 } := rfl
  have hserving : (withCde (blockTaken r q data s.cde) (presentAll (blockWrites q data) s)).cde.serving =
      some { q with done := q.done + 1 } := rfl
  refine ⟨fun hmore => ?_, fun hend hlast => ?_, fun hend hmore => ?_⟩
  · rw [atBoundary_reads hrun hmore hstop hw] at htaken
    exact takes_of hs hexec htaken
  · rw [atBoundary_done hrun hend, read_ends hrun hu hserving hc hlast] at htaken
    exact takes_of hs hexec htaken
  · rw [atBoundary_done hrun hend, read_goesOn hrun hu hserving hmore] at htaken
    exact takes_of hs hexec htaken

/-- A run's block with a wrong CRC is asked for again. -/
theorem readBlock_wrong {q : CardRead} {data : List Byte} {crc : BitVec 16} (hst : r.stage = .receiving) (hu : r.user = .read)
    (hq : s.cde.serving = some q) (hl : data.length = 512) (hstop : r.stop = false) (hbad : crc ≠ crc16 data) :
    (r.retries < 3 → Becomes (.cardBlockReceived data crc) s
      { s.cde with run := some { r with retries := r.retries + 1, stage := .waiting }, busTimer := none }) ∧
    (3 ≤ r.retries → q.carry = [] → Becomes (.cardBlockReceived data crc) s
      { runEnded s.cde with serving := none, ended := s.cde.ended ++ [⟨q.tag, .crcFail, q.done⟩] }) :=
  ⟨fun hn => becomes_of hs (exec_cardBlockReceived data crc hl s) (blockReceived_again hr hst hbad hstop hn),
    fun hn hc => becomes_of hs (exec_cardBlockReceived data crc hl s)
      ((blockReceived_gone hr hst hbad hn).trans (read_fails hr hu hq hc))⟩

/-- The tokens for a block sent (R173). -/
theorem token_taken (ht : r.stage = .token) :
    Becomes (.cardWriteToken .accept) s { s.cde with run := some { r with stage := .busy }, busTimer := some 250000 } ∧
    (r.resends < 3 → Becomes (.cardWriteToken .crcBad) s { s.cde with run := some { r with resends := r.resends + 1 }, sent := some (.block s.cde.block (crc16 s.cde.block)), busTimer := some 10000 }) ∧
    (NoWork s.cde → s.cde.pwrEn = true → 3 ≤ r.resends → Faults (.cardWriteToken .crcBad) s .writeFail) ∧
    (NoWork s.cde → s.cde.pwrEn = true → Faults (.cardWriteToken .writeFail) s .writeFail) :=
  ⟨becomes_of hs (exec_cardWriteToken .accept s) (takeToken_eq hr ht .accept),
    fun hn => becomes_of hs (exec_cardWriteToken .crcBad s) ((takeToken_eq hr ht .crcBad).trans (if_pos hn)),
    fun hw hp hn => faults_of hs hw hp (exec_cardWriteToken .crcBad s)
      ((takeToken_eq hr ht .crcBad).trans (if_neg (Nat.not_lt.mpr hn))),
    fun hw hp => faults_of hs hw hp (exec_cardWriteToken .writeFail s) (takeToken_eq hr ht .writeFail)⟩

/-- The stop mark answered: each user asks for its run again, or a park takes the mount's place (R174). -/
theorem stop_answered (hi : s.cde.ident = none) (h : r.stage = .stopping) :
    (∀ q, r.user = .read → s.cde.serving = some q → q.done < q.count → Becomes (.cardResponse true) s
      (runAsked .read false (q.block + q.done) (min q.count ((q.done / 256 + 1) * 256) - q.done) s.cde)) ∧
    (r.user = .format → Becomes (.cardResponse true) s (runAsked .format true 0 1 s.cde)) ∧
    (∀ m, r.user = .mount → s.cde.mount = some m →
      (s.cde.parkAsked = false → Becomes (.cardResponse true) s (mountRun m s.cde)) ∧
      (s.cde.parkAsked = true → s.cde.state = .mounting → ∃ t, exec (.cardResponse true) s = .next t ∧
        t.cde = mountParked m s.cde ∧ OnlyChanges [.cde, .pins] s t)) := by
  have hexec := exec_cardResponse true s
  have hstop := stopMark_answered hr h
  refine ⟨fun q hu hq hmore => becomes_of hs hexec (hstop.trans (stopped_read hr hu hq hmore)),
    fun hu => becomes_of hs hexec (hstop.trans (stopped_format hr hu)), fun m hu hm => ⟨fun hp => ?_, fun hp hst => ?_⟩⟩
  · exact becomes_of hs hexec (hstop.trans (stopped_mount hr hu hp hm))
  · exact ⟨_, hexec.trans (event_to hs (hstop.trans (mount_parks hr hi hu hm hp hst))), finish_cde _ _,
      ((((OnlyChanges.refl _ s).cde _).pins _).finish s)⟩

/-- The first timeout cycles the card's power, the next is a FAULT (R175). -/
theorem run_timesOut (hi : s.cde.ident = none) :
    let cycles := fun i : Instr => ∃ t, exec i s = .next t ∧ t.cde = cycledFor r s.cde ∧ OnlyChanges [.cde, .pins] s t
    (AwaitsCard r → r.timeouts = 0 → cycles .responseTimeout) ∧ (r.stage = .busy → r.timeouts = 0 → cycles .busyTimeout) ∧
    (NoWork s.cde → s.cde.pwrEn = true → 1 ≤ r.timeouts →
      (AwaitsCard r → Faults .responseTimeout s .timeout) ∧ (r.stage = .busy → Faults .busyTimeout s .timeout)) :=
  ⟨fun ha hn => cycles_of hs hr hn (exec_responseTimeout s) (responseFailed_run hr hi ha),
    fun hb hn => cycles_of hs hr hn (exec_busyTimeout s) (busyExpired_run hr hb),
    fun hw hp hn => ⟨fun ha => faults_of hs hw hp (exec_responseTimeout s)
        ((responseFailed_run hr hi ha).trans (runTimeout_second hn)),
      fun hb => faults_of hs hw hp (exec_busyTimeout s) ((busyExpired_run hr hb).trans (runTimeout_second hn))⟩⟩

/-- The end of a run's write: the stop mark, or the format's end, or the mount's. -/
theorem busy_released (hb : r.stage = .busy) :
    (r.done + 1 < r.count → r.stop = true → Becomes .cardBusyRelease s { s.cde with run := some { r with done := r.done + 1, resends := 0, stage := .stopping }, sent := some .stopMark, busTimer := some 10000 }) ∧
    (∀ g, r.done + 1 = r.count → r.user = .format → s.cde.format = some g → s.cde.parkOwed = false →
      Becomes .cardBusyRelease s { runEnded s.cde with state := .ready, geometry := some g, format := none }) ∧
    (∀ m, r.done + 1 = r.count → r.user = .mount → s.cde.mount = some m → s.cde.parkAsked = false → m.stage = .rewrite →
      Mounted .cardBusyRelease s m.geometry (runEnded s.cde)) := by
  have hexec := exec_cardBusyRelease s
  have hfree := busyReleased_eq hr hb
  set u := withCde { s.cde with run := some { r with done := r.done + 1, resends := 0 }, busTimer := none } s with hu
  have hrun : u.cde.run = some { r with done := r.done + 1, resends := 0 } := rfl
  refine ⟨fun hmore hstop => ?_, fun g hend huser hg howed => ?_, fun m hend huser hm hp hst => ?_⟩
  · exact becomes_of hs hexec (hfree.trans (atBoundary_stops hrun hmore hstop))
  · exact becomes_of hs hexec (hfree.trans ((atBoundary_done hrun (by exact hend.ge)).trans (formatEnded_done hrun huser hg howed)))
  · exact mounted_of hs hexec rfl fun howed =>
      hfree.trans ((atBoundary_done hrun (by exact hend.ge)).trans (mount_rewritten hrun huser hm hp hst howed))

/-- A block the mount reads (R180, R181). -/
theorem mountBlock_judged {m : Mount} {size : Nat} {data : List Byte} (hu : r.user = .mount) (hm : s.cde.mount = some m)
    (hsize : s.cde.capacity = some size) (hp : s.cde.parkAsked = false) (hst : r.stage = .receiving)
    (hend : r.done + 1 = r.count) (hl : data.length = 512) :
    let i := Instr.cardBlockReceived data (crc16 data)
    (m.stage = .logHeader →
      (LogHeaderValid size data → Steps i s size { m with geometry := geometryIn data } (some (geometryIn data))) ∧
      (¬ LogHeaderValid size data → Becomes i s { runEnded s.cde with state := .unformatted, mount := none, geometry := none })) ∧
    (m.stage = .container →
      (HeaderValid size m data → Becomes i s (mountAsks false (m.geometry.nextFree + field data 20 4 + 1) s.cde.geometry
        { m with stage := .commit (headerIn data) } s.cde)) ∧
      (¬ HeaderValid size m data → Scanned i s m)) ∧
    (∀ h, m.stage = .commit h →
      (CommitValid m h data → Steps i s size (accepting m h) s.cde.geometry) ∧
      (¬ CommitValid m h data → Scanned i s m)) := by
  intro i
  have hexec := exec_cardBlockReceived data (crc16 data) hl s
  set u := withCde { s.cde with block := data, run := some { r with done := r.done + 1 } } s with hu'
  have hrun : u.cde.run = some { r with done := r.done + 1 } := rfl
  have htaken : blockReceived data (crc16 data) s = endRun .done u :=
    (blockReceived_mount hr hst hu).trans (atBoundary_done hrun (by exact hend.ge))
  have hcapacity : capacityOf (withCde (runEnded s.cde) s) = size := by
    show natOr0 s.cde.capacity = size
    rw [hsize]
    rfl
  refine ⟨fun hstage => ?_, fun hstage => ?_, fun h hstage => ?_⟩
  · have hread := mount_reads hrun hu hm hp (by simp [hstage])
    simp only [judgeBlock, hstage] at hread
    exact ⟨fun hv => steps_of hs hexec hsize (htaken.trans (hread.trans (judgeLogHeader_valid hcapacity hv))),
      fun hv => becomes_of hs hexec (htaken.trans (hread.trans (judgeLogHeader_invalid hcapacity hv)))⟩
  · have hread := mount_reads hrun hu hm hp (by simp [hstage])
    simp only [judgeBlock, hstage] at hread
    exact ⟨fun hv => becomes_of hs hexec (htaken.trans (hread.trans (judgeHeader_valid hcapacity hv))),
      fun hv => scanned_of (g := s.cde.geometry) hs hexec (htaken.trans (hread.trans (judgeHeader_invalid hcapacity hv)))⟩
  · have hread := mount_reads hrun hu hm hp (by simp [hstage])
    simp only [judgeBlock, hstage] at hread
    exact ⟨fun hv => steps_of (g := s.cde.geometry) hs hexec hsize (htaken.trans (hread.trans (judgeCommit_valid hv))),
      fun hv => scanned_of (g := s.cde.geometry) hs hexec (htaken.trans (hread.trans (judgeCommit_invalid hv)))⟩

/-- A block the mount cannot read (R181). -/
theorem mountBlock_wrong {m : Mount} {data : List Byte} {crc : BitVec 16} (hu : r.user = .mount) (hm : s.cde.mount = some m)
    (hp : s.cde.parkAsked = false) (hst : r.stage = .receiving) (hl : data.length = 512) (hbad : crc ≠ crc16 data)
    (hn : r.retries = 3) :
    let i := Instr.cardBlockReceived data crc
    (m.stage = .logHeader → Becomes i s { runEnded s.cde with state := .unformatted, mount := none, geometry := none }) ∧
    (m.stage = .container ∨ (∃ h, m.stage = .commit h) → Scanned i s m) := by
  intro i
  have hexec := exec_cardBlockReceived data crc hl s
  have hfail := (blockReceived_gone hr hst hbad hn.ge).trans (mount_fails hr hu hm hp)
  refine ⟨fun hstage => becomes_of hs hexec (hfail.trans (if_pos hstage)), fun hstage => ?_⟩
  have hno : m.stage ≠ .logHeader := by
    rcases hstage with h | ⟨_, h⟩ <;> simp [h]
  exact scanned_of (g := s.cde.geometry) hs hexec (hfail.trans (if_neg hno))

end Clauses

end Sys2Proof.Machine
end

section
/-! PROOFS. The card bus, settled (O57). -/

namespace Sys2Proof.Machine

set_option Elab.async false

/-- What IDENT's response makes of a run's power cycle (R175). -/
theorem ident_cycled {s : State} {r : Run} {n : BitVec 32} (hs : s.resetHeld = false) (hi : s.cde.ident = some .sent)
    (hd : s.cde.identDrop = none) (hr : s.cde.run = some r) (hc : r.stage = .cycling) :
    (0 < n.toNat → s.cde.capacity = some n.toNat →
      (r.stop = false → Becomes (.identResponse true n) s (resumed r s.cde)) ∧
      (r.stop = true → r.user = .format → Becomes (.identResponse true n) s (runAsked .format true 0 1 (identified s.cde))) ∧
      (∀ q, r.stop = true → r.user = .read → s.cde.serving = some q → q.done < q.count →
        Becomes (.identResponse true n) s (runAsked .read false (q.block + q.done)
          (min q.count ((q.done / 256 + 1) * 256) - q.done) (identified s.cde)))) ∧
    (NoWork s.cde → s.cde.pwrEn = true → Faults (.identResponse false n) s .ident ∧ Faults .responseTimeout s .ident ∧
      (s.cde.capacity ≠ some n.toNat → Faults (.identResponse true n) s .ident)) := by
  have hexec := exec_identResponse true n s
  refine ⟨fun hn hsize => ?_, fun hw hp => ?_⟩
  · have hback := ident_resumes hi hd hr hc hn hsize
    have hrun : (withCde (resumed r s.cde) s).cde.run = some { r with stage := .waiting } := rfl
    refine ⟨fun hstop => ?_, fun hstop hu => ?_, fun q hstop hu hq hmore => ?_⟩
    · exact becomes_of hs hexec (hback.trans (if_neg (by simp [hstop])))
    · exact becomes_of hs hexec (hback.trans ((if_pos hstop).trans (stopped_format hrun hu)))
    · exact becomes_of hs hexec (hback.trans ((if_pos hstop).trans (stopped_read hrun hu hq hmore)))
  · obtain ⟨hbad, hzero, hlate⟩ := ident_fails hs hw hp hi hd n
    refine ⟨hbad, hlate, fun hsize => ?_⟩
    rcases Nat.eq_zero_or_pos n.toNat with h0 | hn
    · obtain rfl : n = 0 := BitVec.eq_of_toNat_eq h0
      exact hzero
    · exact faults_identified hs hw hp hexec (ident_otherCard hi hd hr hc hn hsize)

/-- Settles O57: what is issued, IDENT's outcome, and the run in progress by its stage. -/
theorem cardBus : Obligations.CardBus := by
  unfold Obligations.CardBus
  intro s h nowork becomes faulted
  refine ⟨fun hq => becomes_of h (exec_cardRunIssue s) (issue_quiet hq),
    fun hq hi => becomes_of h (exec_cardRunIssue s) (issue_ident hq hi),
    fun hi hr hd n => ⟨fun hn => becomes_of h (exec_identResponse true n s) (ident_mounts hi hr hd hn),
      fun hw hp => ident_fails h hw hp hi hd n⟩, ?_, ?_⟩
  · intro r n hi hd hr hc back again
    exact ident_cycled h hi hd hr hc
  · intro r hr hi ends asks
    refine ⟨fun hq hst => becomes_of h (exec_cardRunIssue s) (issue_run hq hi hr hst),
      fun ha hw => becomes_of h (exec_cardResponse true s) (ack_reads hr ha hw), ?_, ?_, fun ht => token_taken h hr ht,
      fun hb hmore hstop => (busy_released h hr hb).1 hmore hstop, ?_, ?_, ?_, ?_⟩
    · intro ha hw hu g size hg hsize data
      exact becomes_of h (exec_cardResponse true s) (ack_formats hr ha hw hu hg hsize)
    · intro q data crc hst hu hq hl hw hstop stored takes
      refine ⟨fun hcrc hc h8 => ?_, fun hbad => ?_, fun hbad => ?_⟩
      · subst hcrc
        exact readBlock_taken h hr hst hu hq hl hw hstop hc h8
      · exact (readBlock_wrong h hr hst hu hq hl hstop hbad).1
      · exact (readBlock_wrong h hr hst hu hq hl hstop hbad).2
    · intro g hb hend hu hg howed
      obtain ⟨-, hformat, -⟩ := busy_released h hr hb
      exact hformat g hend hu hg howed
    · intro hst
      obtain ⟨hread, hformat, hmount⟩ := stop_answered h hr hi hst
      refine ⟨hread, hformat, fun m hu hm => ⟨fun hp => ?_, (hmount m hu hm).2⟩⟩
      have hgoes := (hmount m hu hm).1 hp
      rcases m with ⟨stage, g, a⟩
      cases stage <;> exact hgoes
    · intro m size hu hm hsize hp mounted
      refine ⟨fun hb hend hst => ?_, ?_⟩
      · obtain ⟨-, -, hmount⟩ := busy_released h hr hb
        exact hmount m hend hu hm hp hst
      · intro data crc hst hend hl i scanned steps unformatted u32 n q
        refine ⟨fun hcrc => ?_, fun hbad hn => mountBlock_wrong h hr hu hm hp hst hl hbad hn⟩
        subst hcrc
        exact mountBlock_judged h hr hu hm hsize hp hst hend hl
    · exact run_timesOut h hr hi

end Sys2Proof.Machine
end

section
/-! PROOFS. The work of a card: READY, and a drain that comes to a park (R183, R184, R189, R190; O58). -/

namespace Sys2Proof.Machine

set_option Elab.async false

/-! ### Back to READY, or parked (R190) -/

section Ready

variable {u : State}

/-- A park is owed, and nothing keeps it any longer. -/
def ParkDue (s : State) : Prop := s.cde.parkOwed = true ∧ s.cde.reads = [] ∧ s.amn.battLevel = .critical

theorem becomeReady_stays (h : ¬ ParkDue u) : becomeReady u = withCde { u.cde with state := .ready } u :=
  if_neg fun hpark => h hpark.2

theorem becomeReady_parks (h : ParkDue u) : becomeReady u = withPins { u.pins with overcurrent := false }
    (withCde (downFor .park { unasked u.cde with state := .ready }) u) :=
  (if_pos ⟨rfl, h⟩).trans rfl

/-- What READY again, or a park in its place, says and leaves. -/
theorem becomeReady_spec (u : State) : ∃ c : Cde, (becomeReady u).cde = c ∧ c.container = u.cde.container ∧
    c.run = u.cde.run ∧ (c.ended = u.cde.ended ∧ c.results = u.cde.results ∧ c.resultNo = u.cde.resultNo ∧ c.owed = u.cde.owed) ∧
    (¬ ParkDue u → c = { u.cde with state := .ready }) ∧
    (ParkDue u → c.state = .discharging ∧ c.dischargeFor = .park ∧ c.pwrEn = false) ∧
    (becomeReady u).stb = u.stb ∧ (becomeReady u).rqe = u.rqe ∧ OnlyChanges [.cde, .pins] u (becomeReady u) ∧
    (¬ ParkDue u → OnlyChanges [.cde] u (becomeReady u)) := by
  by_cases h : ParkDue u
  · rw [becomeReady_parks h]
    exact ⟨_, rfl, rfl, rfl, ⟨rfl, rfl, rfl, rfl⟩, fun hn => absurd h hn, fun _ => ⟨rfl, rfl, rfl⟩, rfl, rfl,
      ((OnlyChanges.refl _ u).cde _).pins _, fun hn => absurd h hn⟩
  · rw [becomeReady_stays h]
    exact ⟨_, rfl, rfl, rfl, ⟨rfl, rfl, rfl, rfl⟩, fun _ => rfl, fun hp => absurd hp h, rfl, rfl,
      (OnlyChanges.refl _ u).cde _, fun _ => (OnlyChanges.refl _ u).cde _⟩

end Ready

/-! ### A drain that comes to a park (R189, R190) -/

/-- The record goes back to HELD, its container parked. -/
def Returns (i : Instr) (s : State) (c : Container) : Prop := ∀ r j, s.stb.find c.shot = some r → r.phase = .storing →
  r.slot = some j → j < s.stb.slots.length → ∃ t, exec i s = .next t ∧ t.cde.container = none ∧ t.cde.run = none ∧
    t.stb.find c.shot = some { r with phase := .held, store := .parked } ∧ t.stb.slotState j = .held ∧
    t.cde.state = (if s.cde.parkOwed = true ∧ s.cde.reads = [] ∧ s.amn.battLevel = .critical then .discharging else .ready) ∧
    OnlyChanges [.cde, .pins, .stb, .port] s t

/-- The table with the record of a container HELD again. -/
def heldAgain (res : StoreResult) (n : Nat) (t : Stb) : Stb := (t.move n .held).update n fun r => { r with store := res }

theorem containerParked_eq {u : State} {c : Container} (hc : u.cde.container = some c) (hn : c.stage ≠ .logUpdate) :
    containerParked u = becomeReady (withStb (heldAgain .parked c.shot u.stb) (dropContainer u)) := by
  rw [containerParked, returnShot_of hc hn]
  rfl

theorem parked_of {s u : State} {i : Instr} {f : State → State} {c k : Container} (hs : s.resetHeld = false)
    (hi : exec i s = event s f) (hf : f s = containerParked u) (hk : u.cde.container = some k) (hshot : k.shot = c.shot)
    (hn : k.stage ≠ .logUpdate) (hrun : u.cde.run = none) (hstb : u.stb = s.stb)
    (hdue : u.cde.parkOwed = s.cde.parkOwed ∧ u.cde.reads = s.cde.reads ∧ u.amn.battLevel = s.amn.battLevel)
    (hframe : OnlyChanges [.cde, .port] s u) : Returns i s c := by
  intro r j hr hp hj hl
  set w := withStb (heldAgain .parked k.shot u.stb) (dropContainer u) with hw
  have hgo : f s = becomeReady w := hf.trans (containerParked_eq hk hn)
  obtain ⟨d, hcde, hcontainer, hdrun, -, hstays, hparks, hwstb, -, hready, -⟩ := becomeReady_spec w
  obtain ⟨hfind, hslot, -⟩ := Stb.returned .parked hr hp hj hl
  have htable : w.stb = heldAgain .parked c.shot s.stb := by
    rw [hw, ← hstb, ← hshot]
    rfl
  have hdrop : OnlyChanges [.cde, .stb, .port] u w := (dropContainer_frame u).within.stb _
  have hdue' : ParkDue w ↔ s.cde.parkOwed = true ∧ s.cde.reads = [] ∧ s.amn.battLevel = .critical := by
    obtain ⟨howed, hreads, hbatt⟩ := hdue
    rw [← howed, ← hreads, ← hbatt]
    rfl
  refine ⟨_, hi.trans (event_to hs hgo), ?_, ?_, ?_, ?_, ?_,
    (((hframe.within (ps := [.cde, .pins, .stb, .port])).andThen hdrop).andThen hready).finish s⟩
  · rw [finish_cde, hcde, hcontainer]
    rfl
  · rw [finish_cde, hcde, hdrun]
    exact hrun
  · rw [finish_stb, hwstb, htable]
    exact hfind
  · rw [finish_stb, hwstb, htable]
    exact hslot
  · rw [finish_cde, hcde]
    split
    · next h => exact (hparks (hdue'.2 h)).1
    · next h => rw [hstays (fun hd => h (hdue'.1 hd))]

/-! ### SUMMING (R185, R188) -/

section Summing

variable {u : State} {c : Container}

/-- The address of a slot. -/
def slotAddr (t : Stb) (i : Nat) : Nat := 0x10000000 + i * (t.slotSize * 1048576)

theorem readSlot_eq (c : Container) (o n : Nat) (u : State) :
    readSlot c o n u = present ⟨.slotRead, slotAddr u.stb c.slot + o, min 64 n, [], false⟩ u := rfl

variable (hc : u.cde.container = some c) (hst : c.stage = .summing)
include hc hst

theorem sumNext_reads (hp : c.park = false) (hmore : c.summed < c.pitch * c.lines)
    (hgo : u.exs.quietReq = false ∨ c.summed % 512 ≠ 0) : sumNext u =
      present ⟨.slotRead, slotAddr u.stb c.slot + c.summed, min 64 (c.pitch * c.lines - c.summed), [], false⟩ u := by
  have htotal : ¬ c.total ≤ c.summed := Nat.not_le.mpr hmore
  simp only [sumNext, hc]
  rw [if_neg (by simp [hst]), if_neg (by simp [hp]), if_neg htotal, if_neg (by simpa [htotal] using fun hq => hgo.resolve_left (by simp [hq]))]
  rfl

theorem sumNext_pauses (hp : c.park = false) (hmore : c.summed < c.pitch * c.lines) (hq : u.exs.quietReq = true)
    (hb : c.summed % 512 = 0) : sumNext u = u := by
  have htotal : ¬ c.total ≤ c.summed := Nat.not_le.mpr hmore
  simp only [sumNext, hc]
  rw [if_neg (by simp [hst]), if_neg (by simp [hp]), if_neg htotal, if_pos (by simp [hq, hb])]

theorem sumNext_finishes (hp : c.park = false) (hall : c.pitch * c.lines ≤ c.summed) : sumNext u = finishSum c u := by
  simp only [sumNext, hc]
  rw [if_neg (by simp [hst]), if_neg (by simp [hp]), if_pos (show c.total ≤ c.summed from hall)]

theorem sumNext_parks (hp : c.park = true) (hb : c.summed % 512 = 0 ∨ c.pitch * c.lines ≤ c.summed) :
    sumNext u = containerParked u := by
  simp only [sumNext, hc]
  rw [if_neg (by simp [hst]), if_pos (by rw [hp, Bool.true_and, Bool.or_eq_true, beq_iff_eq, decide_eq_true_iff]; exact hb)]

end Summing

/-! ### The next work (R183, R184) -/

section Next

variable {s : State}

theorem exec_cardNextWork (s : State) : exec .cardNextWork s = event s nextWork := rfl

theorem nextWork_reads {q : CardRead} {more : List CardRead} (hst : s.cde.state = .ready) (hq : s.exs.quietReq = false)
    (hr : s.cde.reads = q :: more) : nextWork s = withCde { s.cde with
      state := .reading, reads := more, serving := some q, block := [], run := some ⟨.read, false, q.block + q.done, min q.count ((q.done / 256 + 1) * 256) - q.done, 0, 0, 0, 0, false, .waiting⟩ } s := by
  rw [nextWork, if_neg (by simp [hst, hq]), hr]
  rfl

theorem nextWork_critical (hst : s.cde.state = .ready) (hq : s.exs.quietReq = false) (hr : s.cde.reads = [])
    (hb : s.amn.battLevel = .critical) : nextWork s = s := by
  rw [nextWork, if_neg (by simp [hst, hq]), hr]
  exact if_pos hb

theorem nextWork_drains {r : ShotRecord} (hst : s.cde.state = .ready) (hq : s.exs.quietReq = false) (hr : s.cde.reads = [])
    (hb : s.amn.battLevel ≠ .critical) (ho : s.stb.oldestHeld = some r) : nextWork s = tryDrain r s := by
  rw [nextWork, if_neg (by simp [hst, hq]), hr]
  simp only [if_neg hb, ho]

theorem Stb.oldestHeld_of {t : Stb} {before after : List ShotRecord} {r : ShotRecord} (h : t.records = before ++ r :: after)
    (hb : ∀ q ∈ before, q.phase ≠ .held ∧ q.shot ≠ r.shot) (hp : r.phase = .held) :
    t.oldestHeld = some r ∧ t.find r.shot = some r :=
  ⟨List.find?_eq_some_iff_append.2 ⟨by simp [hp], before, after, h, fun q hq => by simp [(hb q hq).1]⟩,
    List.find?_eq_some_iff_append.2 ⟨by simp, before, after, h, fun q hq => by simp [(hb q hq).2]⟩⟩

variable {r : ShotRecord} {g : Geometry} {pitch size i : Nat} (hg : s.cde.geometry = some g) (hpitch : r.pitch = some pitch)
  (hsize : s.cde.capacity = some size)
include hg hpitch hsize

theorem fits_iff : fits r s = decide (g.nextFree + (pitch * r.stats.lines + 511) / 512 + 2 ≤ size) := by
  rw [fits, hg, capacityOf, hsize, hpitch]
  rfl

/-- The container of a drain as it starts (R184). -/
def begun (r : ShotRecord) (g : Geometry) (pitch i : Nat) : Container :=
  ⟨r.shot, i, g.nextFree, (pitch * r.stats.lines + 511) / 512, pitch, r.stats.lines, r.profile, g.count, .summing, 0, 0, 0xFFFFFFFF, [], false⟩

/-- The table with the record of a drain that starts. -/
def storing (r : ShotRecord) (g : Geometry) (pitch : Nat) (t : Stb) : Stb :=
  (t.move r.shot .storing).update r.shot fun q =>
    { q with containerStart := some g.nextFree, containerLen := some ((pitch * r.stats.lines + 511) / 512 + 2) }

theorem tryDrain_full (hfull : size < g.nextFree + (pitch * r.stats.lines + 511) / 512 + 2) :
    tryDrain r s = raise .cardFull (withStb (s.stb.update r.shot fun r => { r with store := .cardFull }) s) := by
  rw [tryDrain, fits_iff hg hpitch hsize, if_neg (by simp; omega)]
  rfl

theorem tryDrain_starts {i : Nat} (hslot : r.slot = some i)
    (hroom : g.nextFree + (pitch * r.stats.lines + 511) / 512 + 2 ≤ size) : tryDrain r s =
      sumNext (withCde { s.cde with state := .writing, container := some (begun r g pitch i) } (withStb (storing r g pitch s.stb) s)) := by
  rw [tryDrain, fits_iff hg hpitch hsize, if_pos (decide_eq_true hroom), hg]
  simp only [startDrain, hpitch, hslot]
  rfl

end Next

end Sys2Proof.Machine
end

section
/-! PROOFS. The slot reads of a drain: SUMMING and the blocks of DATA (R133, R185, R186, R188; O58). -/

namespace Sys2Proof.Machine

set_option Elab.async false

/-! ### What reading codewords leaves -/

/-- The layout of the slots and what waits at the port. -/
def portLayout (s : State) := (s.stb.slotSize, s.fmc.pending)

section Reading

variable (s : State)

theorem occur_portLayout (o : Occurrence) : portLayout (occur o s) = portLayout s := by
  have hcharge : (chargeRecord o s).stb.slotSize = s.stb.slotSize := by
    rcases h : s.stb.charged o.addr with _ | r
    · rw [chargeRecord_of_none h]
    · rw [chargeRecord_of_some h]
      unfold rewriteShot
      split <;> rfl
  have hlogged : (logged o (chargeRecord o s)).stb = (chargeRecord o s).stb := by
    unfold logged
    split
    · obtain ⟨log, ovf, jobs, h⟩ := logOccurrence_eq o _ (chargeRecord o s)
      rw [h]
      rfl
    · rfl
  obtain ⟨log, ovf, upd, hfmc⟩ := logged_fmc o s
  have hcount (f : Fmc) : (f.count o).pending = f.pending := by
    unfold Fmc.count
    split <;> [rfl; split_ifs <;> rfl]
  have hpending : (withCount o (logged o (chargeRecord o s))).fmc.pending = s.fmc.pending :=
    (hcount _).trans (congrArg Fmc.pending hfmc :)
  rw [occur_eq]
  exact Prod.ext ((congrArg Stb.slotSize hlogged).trans hcharge) hpending

theorem readOne_portLayout (src : ErrorSource) (cw : Nat) : portLayout (readOne src cw s) = portLayout s := by
  have hreport : portLayout (report src cw (s.mem.check? cw) s) = portLayout s := by
    by_cases h : (s.mem.check? cw).cls = .clean
    · rw [report_of_clean h]
    · rw [report_of_error h]
      exact occur_portLayout s _
  unfold readOne
  split
  · obtain ⟨more, h, -⟩ := offer_eq (report src cw (s.mem.check? cw) s).fmc cw
    rw [withOffer, h]
    exact hreport
  · exact hreport

theorem readCodewords_portLayout (src : ErrorSource) (cws : List Nat) :
    portLayout (readCodewords src cws s).2 = portLayout s := by
  induction cws generalizing s with
  | nil => rfl
  | cons cw cws ih => exact (ih _).trans (readOne_portLayout s src cw)

end Reading

/-! ### A slot read complete -/

section Slot

variable {s : State} {x : Txn} {c : Container}

/-- The bytes of a read. -/
def readBytes (x : Txn) (s : State) : List Byte :=
  (List.range x.len).map fun k => (((s.mem.check? ((x.addr + k) / 8 * 8)).data >>> (8 * ((x.addr + k) % 8))).setWidth 8 : Byte)

/-- The state in which the bytes of a slot read are taken. -/
def slotTaken (x : Txn) (s : State) : State := (readCodewords .drain (codewordsOf x.addr x.len) (freePort s)).2

theorem slotTaken_found (x : Txn) (s : State) : Found (freePort s) (slotTaken x s) := readCodewords_found _ _ _

theorem slotTaken_cde (x : Txn) (s : State) : (slotTaken x s).cde = s.cde :=
  (slotTaken_found x s).frame.2 .cde (by decide) (by decide)

theorem slotTaken_exs (x : Txn) (s : State) : (slotTaken x s).exs = s.exs :=
  (slotTaken_found x s).frame.2 .exs (by decide) (by decide)

theorem slotTaken_addr (x : Txn) (s : State) (i : Nat) : slotAddr (slotTaken x s).stb i = slotAddr s.stb i := by
  have h : (slotTaken x s).stb.slotSize = s.stb.slotSize := congrArg Prod.fst (readCodewords_portLayout (freePort s) _ _)
  rw [slotAddr, slotAddr, h]

theorem slotTaken_pending (x : Txn) (s : State) : (slotTaken x s).fmc.pending = s.fmc.pending :=
  congrArg Prod.snd (readCodewords_portLayout (freePort s) .drain (codewordsOf x.addr x.len))

theorem partReadDone_of_slot (h : s.fmc.active = some x) (hk : x.kind = .slotRead) : partReadDone s =
    slotArrived (readRange .drain x.addr x.len (freePort s)).1 (slotTaken x s) := by
  simp only [partReadDone, h, hk]
  rfl

/-- The bytes of a read while SUMMING (R185). -/
def summing (c : Container) (bytes : List Byte) (n : Nat) : Container :=
  { c with crc := crc32Step c.crc bytes, summed := c.summed + n }

section Complete

variable (h : s.fmc.active = some x) (hk : x.kind = .slotRead) (hc : s.cde.container = some c)
include h hk hc

theorem slotRead_sums (hst : c.stage = .summing) : partReadDone s =
    sumNext (withCde { s.cde with container := some (summing c (readBytes x s) x.len) } (slotTaken x s)) := by
  have hcde := slotTaken_cde x s
  have hcontainer : (slotTaken x s).cde.container = some c := by rw [hcde, hc]
  have hlen : (readRange .drain x.addr x.len (freePort s)).1.bytes.length = x.len := by
    rw [readRange_bytes]
    simp
  rw [partReadDone_of_slot h hk, slotArrived, if_pos (by simp [hcontainer, hst]), sumTake, hlen, readRange_bytes,
    modContainer, modCde, hcontainer, hcde]
  rfl

theorem slotRead_fetches {r : Run} (hst : c.stage = .data) (hr : s.cde.run = some r) (hf : r.stage = .fetching) :
    partReadDone s = fetchNext (withCde { s.cde with block := s.cde.block ++ readBytes x s } (slotTaken x s)) := by
  have hcde := slotTaken_cde x s
  have hcontainer : (slotTaken x s).cde.container = some c := by rw [hcde, hc]
  have hrun : (slotTaken x s).cde.run = some r := by rw [hcde, hr]
  rw [partReadDone_of_slot h hk, slotArrived, if_neg (by simp [hcontainer, hst]), if_pos (by simp [hrun, hf]),
    readRange_bytes, modCde, hcde]
  rfl

end Complete

/-- A slot read that completes: the port is free, what the read found is reported, and the card goes on as said. -/
def Reads (x : Txn) (s : State) (p : State → Prop) : Prop :=
  ∃ t, exec .partReadComplete s = .next t ∧ t.fmc.active = none ∧ t.fmc.passOver = s.fmc.passOver ∧
    t.fmc.nextPart = s.fmc.nextPart ∧ p t ∧
    ((∃ k, k < x.len ∧ k % 8 = 0 ∧ ((s.mem.check? (x.addr + k)).cls = .poisoned ∨
      (s.mem.check? (x.addr + k)).cls = .uncorrectable)) → Raised .memUncorrectable t) ∧
    ((∀ k, k < x.len → k % 8 = 0 → (s.mem.check? (x.addr + k)).cls = .clean) → OnlyChanges [.port, .cde] s t) ∧
    OnlyChanges [.port, .cde, .errors, .stb, .corrected] s t

theorem slotTaken_of_clean (h8 : x.addr % 8 = 0)
    (hclean : ∀ k, k < x.len → k % 8 = 0 → (s.mem.check? (x.addr + k)).cls = .clean) : slotTaken x s = freePort s := by
  refine readCodewords_of_clean (s := freePort s) fun cw hcw => ?_
  obtain ⟨k, hk, hk8, rfl⟩ := codewords_of_aligned h8 hcw
  exact hclean k hk hk8

theorem reads_of {v : State} {p : State → Prop} (hs : s.resetHeld = false) (h8 : x.addr % 8 = 0)
    (hlen : 0 < x.len) (hf : partReadDone s = v) (hframe : OnlyChanges [.cde] (slotTaken x s) v) (hrqe : v.rqe = (slotTaken x s).rqe)
    (hp : p (finish s v)) : Reads x s p := by
  have hfound := slotTaken_found x s
  have hafter := (hfound.frame.within (ps := [.cde, .errors, .stb, .corrected])).andThen hframe
  obtain ⟨hactive, hpass, hnext⟩ := freed_of hafter
  refine ⟨_, by rw [exec_partReadComplete]; exact event_to hs hf, hactive, hpass, hnext, hp, fun ⟨k, hkl, hk8, hcls⟩ => ?_, fun hclean => ?_,
    ((freePort_onlyChanges s).within.andThen hafter).finish s⟩
  · have hin : x.addr + k ∈ codewordsOf x.addr x.len := by
      rw [mem_codewordsOf hlen]
      omega
    have hcw : ((freePort s).mem.check? (x.addr + k)).cls.bad = true := (bad_iff _).2 hcls
    obtain ⟨hraised, -⟩ := uncorrectable_of_reads (src := .drain) hin hcw
    refine finish_raised _ _ ?_
    rw [hrqe]
    exact hraised
  · rw [slotTaken_of_clean h8 hclean] at hframe
    exact ((freePort_onlyChanges s).within.andThen hframe).finish s

end Slot

end Sys2Proof.Machine
end

section
/-! PROOFS. The slot reads of a drain, clause by clause (R185, R186, R188; O58). -/

namespace Sys2Proof.Machine

set_option Elab.async false

/-! ### The header block (R179) -/

theorem le_four_of_byte (n : Nat) : le 4 (n % 256) = le 1 n ++ le 3 0 := by
  have hbyte : byteOf (n % 256) = byteOf n := by
    apply BitVec.eq_of_toNat_eq
    simp [byteOf]
  have hrest : n % 256 / 256 = 0 := by omega
  rw [le, hbyte, hrest]
  rfl

/-- A container header block (R179). -/
def headerBlock (g : Geometry) (c : Container) (crc : BitVec 32) (copy : Option ShotRecord) : List Byte :=
  padTo 512 (padTo 64 ([0x4B, 0x56, 0x43, 0x4F, 0x4E, 0x54, 0x48, 0x44] ++ [g.formatId, c.index, c.shot, c.blocks, c.pitch, c.lines, c.profile % 256, crc.toNat].flatMap (le 4)) ++ mirrorEntry 0 copy)

theorem containerHeaderBlock_eq (g : Geometry) (c : Container) (crc : BitVec 32) (copy : Option ShotRecord) :
    containerHeaderBlock g.formatId c crc copy = headerBlock g c crc copy := by
  have hmark : headerMark = [0x4B, 0x56, 0x43, 0x4F, 0x4E, 0x54, 0x48, 0x44] := rfl
  simp only [headerBlock, List.flatMap_cons, List.flatMap_nil, le_four_of_byte, containerHeaderBlock, hmark,
    List.append_assoc, List.append_nil]

/-! ### SUMMING -/

section Summing

variable {u : State} {c : Container}

/-- The card with all of a slot summed (R185). -/
def summedUp (g : Geometry) (c : Container) (copy : Option ShotRecord) (d : Cde) : Cde :=
  { d with container := some { c with crc := c.crc ^^^ 0xFFFFFFFF, header := headerBlock g c (c.crc ^^^ 0xFFFFFFFF) copy, stage := .header }, block := [], run := some ⟨.drain, true, c.start, 1, 0, 0, 0, 0, false, .waiting⟩ }

theorem finishSum_eq {g : Geometry} (hc : u.cde.container = some c) (hg : u.cde.geometry = some g) :
    finishSum c u = withCde (summedUp g c (u.stb.find c.shot) u.cde) u := by
  have hid : natOr0 (u.cde.geometry.map (·.formatId)) = g.formatId := by
    rw [hg]
    rfl
  rw [finishSum, hid]
  simp only [containerHeaderBlock_eq, modContainer, modCde, hc]
  rfl

end Summing

section Slot

variable {s : State} {x : Txn} {c : Container} (hs : s.resetHeld = false) (ha : s.fmc.active = some x)
  (hk : x.kind = .slotRead) (h8 : x.addr % 8 = 0) (hlen : 0 < x.len) (hc : s.cde.container = some c)
include hs ha hk h8 hlen hc

/-- The card with the bytes of a read summed. -/
def taken (x : Txn) (s : State) (c : Container) : Cde := { s.cde with container := some (summing c (readBytes x s) x.len) }

theorem sumRead_goesOn (hst : c.stage = .summing) (hp : c.park = false)
    (hmore : c.summed + x.len < c.pitch * c.lines) (hgo : s.exs.quietReq = false ∨ (c.summed + x.len) % 512 ≠ 0) :
    Reads x s fun t => t.cde = taken x s c ∧ Presented .slotRead (slotAddr s.stb c.slot + (c.summed + x.len))
      (min 64 (c.pitch * c.lines - (c.summed + x.len))) t := by
  set u := withCde (taken x s c) (slotTaken x s) with hu
  have hnext : sumNext u = present ⟨.slotRead, slotAddr u.stb c.slot + (c.summed + x.len),
      min 64 (c.pitch * c.lines - (c.summed + x.len)), [], false⟩ u :=
    sumNext_reads (u := u) (c := summing c (readBytes x s) x.len) rfl hst hp hmore (by
      have hexs : u.exs = s.exs := slotTaken_exs x s
      rwa [hexs])
  have haddr : slotAddr u.stb c.slot = slotAddr s.stb c.slot := slotTaken_addr x s c.slot
  rw [haddr] at hnext
  refine reads_of hs h8 hlen ((slotRead_sums ha hk hc hst).trans hnext) (((OnlyChanges.refl _ _).cde _).presented _) rfl
    ⟨finish_cde _ _, finish_presented _ _ (List.mem_append_right _ List.mem_cons_self)⟩

theorem sumRead_pauses (hst : c.stage = .summing) (hp : c.park = false)
    (hmore : c.summed + x.len < c.pitch * c.lines) (hq : s.exs.quietReq = true) (hb : (c.summed + x.len) % 512 = 0)
    (hnone : ∀ y ∈ s.fmc.pending, y.kind ≠ .slotRead) :
    Reads x s fun t => t.cde = taken x s c ∧ ∀ y ∈ t.fmc.pending, y.kind ≠ .slotRead := by
  set u := withCde (taken x s c) (slotTaken x s) with hu
  have hexs : u.exs = s.exs := slotTaken_exs x s
  have hnext : sumNext u = u := sumNext_pauses (u := u) (c := summing c (readBytes x s) x.len) rfl hst hp hmore
    (by rw [hexs]; exact hq) hb
  refine reads_of hs h8 hlen ((slotRead_sums ha hk hc hst).trans hnext) ((OnlyChanges.refl _ _).cde _) rfl
    ⟨finish_cde _ _, fun y hy => ?_⟩
  obtain ⟨ts, hts, hkind⟩ := finish_adds s u
  have hpending : u.fmc.pending = s.fmc.pending := slotTaken_pending x s
  rw [hts, hpending] at hy
  exact (List.mem_append.1 hy).elim (hnone y) fun hy => (hkind y hy).2

theorem sumRead_finishes {g : Geometry} (hst : c.stage = .summing) (hp : c.park = false)
    (hall : c.summed + x.len = c.pitch * c.lines) (hg : s.cde.geometry = some g) :
    Reads x s fun t => t.cde = summedUp g (summing c (readBytes x s) x.len) (t.stb.find c.shot) s.cde := by
  set u := withCde (taken x s c) (slotTaken x s) with hu
  have hnext : sumNext u = withCde (summedUp g (summing c (readBytes x s) x.len) (u.stb.find c.shot) u.cde) u :=
    (sumNext_finishes (u := u) (c := summing c (readBytes x s) x.len) rfl hst hp hall.ge).trans (finishSum_eq rfl hg)
  refine reads_of hs h8 hlen ((slotRead_sums ha hk hc hst).trans hnext) (((OnlyChanges.refl _ _).cde _).cde _) rfl ?_
  rw [finish_cde, finish_stb]
  rfl

omit hlen in
theorem sumRead_parks (hst : c.stage = .summing) (hp : c.park = true)
    (hclean : ∀ k, k < x.len → k % 8 = 0 → (s.mem.check? (x.addr + k)).cls = .clean) (hr : s.cde.run = none)
    (hb : (c.summed + x.len) % 512 = 0 ∨ c.pitch * c.lines ≤ c.summed + x.len) : Returns .partReadComplete s c := by
  set u := withCde (taken x s c) (slotTaken x s) with hu
  have hnext : sumNext u = containerParked u :=
    sumNext_parks (u := u) (c := summing c (readBytes x s) x.len) rfl hst hp hb
  have hfree : slotTaken x s = freePort s := slotTaken_of_clean h8 hclean
  refine parked_of (u := u) hs (exec_partReadComplete s) ((slotRead_sums ha hk hc hst).trans hnext)
    (k := summing c (readBytes x s) x.len) rfl rfl (by simp [summing, hst]) hr ?_ ⟨rfl, rfl, ?_⟩ ?_
  · rw [hu, hfree]
    rfl
  · rw [hu, hfree]
    rfl
  · rw [hu, hfree]
    exact ((freePort_onlyChanges s).within).cde _

/-! ### The blocks of DATA (R186) -/

/-- The offset of the block of DATA that is next. -/
def dataOffset (r : Run) (c : Container) : Nat := (r.start + r.done - (c.start + 1)) * 512

omit hs ha hk h8 hlen hc in
theorem fetchNext_reads {u : State} {r : Run} (hr : u.cde.run = some r) (hc : u.cde.container = some c)
    (hmore : u.cde.block.length < min 512 (c.pitch * c.lines - dataOffset r c)) : fetchNext u =
      present ⟨.slotRead, slotAddr u.stb c.slot + (dataOffset r c + u.cde.block.length),
        min 64 (min 512 (c.pitch * c.lines - dataOffset r c) - u.cde.block.length), [], false⟩ u := by
  simp only [fetchNext, hr, hc]
  exact if_pos hmore

omit hs ha hk h8 hlen hc in
theorem fetchNext_sends {u : State} {r : Run} (hr : u.cde.run = some r) (hc : u.cde.container = some c)
    (hall : u.cde.block.length = min 512 (c.pitch * c.lines - dataOffset r c)) :
    fetchNext u = withCde (blockSent (padTo 512 u.cde.block) r u.cde) u := by
  simp only [fetchNext, hr, hc]
  exact (if_neg (fun h => absurd hall (Nat.ne_of_lt h))).trans (sendBlock_eq hr _)

theorem fetch_goesOn {r : Run} (hst : c.stage = .data) (hr : s.cde.run = some r) (hf : r.stage = .fetching)
    (hmore : (s.cde.block ++ readBytes x s).length < min 512 (c.pitch * c.lines - dataOffset r c)) :
    Reads x s fun t => t.cde = { s.cde with block := s.cde.block ++ readBytes x s } ∧
      Presented .slotRead (slotAddr s.stb c.slot + (dataOffset r c + (s.cde.block ++ readBytes x s).length))
        (min 64 (min 512 (c.pitch * c.lines - dataOffset r c) - (s.cde.block ++ readBytes x s).length)) t := by
  set u := withCde { s.cde with block := s.cde.block ++ readBytes x s } (slotTaken x s) with hu
  have hnext := fetchNext_reads (u := u) hr hc hmore
  have haddr : slotAddr u.stb c.slot = slotAddr s.stb c.slot := slotTaken_addr x s c.slot
  rw [haddr] at hnext
  exact reads_of hs h8 hlen ((slotRead_fetches ha hk hc hst hr hf).trans hnext)
    (((OnlyChanges.refl _ _).cde _).presented _) rfl
    ⟨finish_cde _ _, finish_presented _ _ (List.mem_append_right _ List.mem_cons_self)⟩

theorem fetch_sends {r : Run} (hst : c.stage = .data) (hr : s.cde.run = some r) (hf : r.stage = .fetching)
    (hall : (s.cde.block ++ readBytes x s).length = min 512 (c.pitch * c.lines - dataOffset r c)) :
    Reads x s fun t => t.cde = blockSent (s.cde.block ++ readBytes x s ++
      List.replicate (512 - min 512 (c.pitch * c.lines - dataOffset r c)) 0) r s.cde := by
  set u := withCde { s.cde with block := s.cde.block ++ readBytes x s } (slotTaken x s) with hu
  have hnext := fetchNext_sends (u := u) hr hc hall
  refine reads_of hs h8 hlen ((slotRead_fetches ha hk hc hst hr hf).trans hnext) (((OnlyChanges.refl _ _).cde _).cde _) rfl ?_
  rw [finish_cde, ← hall]
  rfl

end Slot

end Sys2Proof.Machine
end

section
/-! PROOFS. The runs of a drain: what is sent, and how each run's end goes on (R184, R186, R187, R189, R190; O58). -/

namespace Sys2Proof.Machine

set_option Elab.async false

/-! ### The drain begins (R183, R184) -/

theorem storing_slotSize {r : ShotRecord} {g : Geometry} {pitch i : Nat} {t : Stb} (h : t.find r.shot = some r)
    (hp : r.phase = .held) (hslot : r.slot = some i) : (storing r g pitch t).slotSize = t.slotSize := by
  simp only [storing, Stb.move, h, hp, hslot]
  rfl

section Start

variable {s : State} {r : ShotRecord} {g : Geometry} {pitch size i : Nat} (hs : s.resetHeld = false)
  (hst : s.cde.state = .ready) (hq : s.exs.quietReq = false) (hreads : s.cde.reads = []) (hb : s.amn.battLevel ≠ .critical)
  (ho : s.stb.oldestHeld = some r) (hg : s.cde.geometry = some g) (hpitch : r.pitch = some pitch)
  (hsize : s.cde.capacity = some size)
include hs hst hq hreads hb ho hg hpitch hsize

theorem drain_starts (hfind : s.stb.find r.shot = some r) (hp : r.phase = .held) (hslot : r.slot = some i)
    (hl : i < s.stb.slots.length) (hroom : g.nextFree + (pitch * r.stats.lines + 511) / 512 + 2 ≤ size)
    (hsome : 0 < pitch * r.stats.lines) : ∃ t, exec .cardNextWork s = .next t ∧
      t.cde = { s.cde with state := .writing, container := some (begun r g pitch i) } ∧
      t.stb.find r.shot = some { r with phase := .storing, containerStart := some g.nextFree, containerLen := some ((pitch * r.stats.lines + 511) / 512 + 2) } ∧
      t.stb.slotState i = .draining ∧
      Presented .slotRead (slotAddr s.stb i) (min 64 (pitch * r.stats.lines)) t ∧
      OnlyChanges [.cde, .stb] s t := by
  set u := withCde { s.cde with state := .writing, container := some (begun r g pitch i) } (withStb (storing r g pitch s.stb) s) with hu
  have hnext : nextWork s = sumNext u :=
    (nextWork_drains hst hq hreads hb ho).trans (tryDrain_starts hg hpitch hsize hslot hroom)
  have hsum : sumNext u = present ⟨.slotRead, slotAddr u.stb i + 0, min 64 (pitch * r.stats.lines - 0), [], false⟩ u :=
    sumNext_reads (u := u) (c := begun r g pitch i) rfl rfl rfl hsome (.inl hq)
  have haddr : slotAddr u.stb i = slotAddr s.stb i := by
    have hsize : u.stb.slotSize = s.stb.slotSize := storing_slotSize (g := g) (pitch := pitch) hfind hp hslot
    rw [slotAddr, slotAddr, hsize]
  have hm : moveAllowed r.phase .storing = true := by rw [hp]; rfl
  rw [haddr, Nat.add_zero, Nat.sub_zero] at hsum
  refine ⟨_, event_to hs (hnext.trans hsum), finish_cde _ _, ?_, ?_,
    finish_presented _ _ (List.mem_append_right _ List.mem_cons_self),
    (((((OnlyChanges.refl _ s).stb _).cde _).presented _).finish s)⟩
  · rw [finish_stb]
    exact Stb.find_update (f := fun q => { q with containerStart := some g.nextFree, containerLen := some ((pitch * r.stats.lines + 511) / 512 + 2) })
      (fun _ => rfl) (Stb.find_move_kept hfind hm rfl)
  · rw [finish_stb]
    exact Stb.slotState_move_kept hfind hm rfl hslot hl

theorem drain_full (hfull : size < g.nextFree + (pitch * r.stats.lines + 511) / 512 + 2) : ∃ t, exec .cardNextWork s = .next t ∧
    t.stb = s.stb.update r.shot (fun r => { r with store := .cardFull }) ∧ Raised .cardFull t ∧ OnlyChanges [.stb] s t := by
  have hnext := (nextWork_drains hst hq hreads hb ho).trans (tryDrain_full hg hpitch hsize hfull)
  exact ⟨_, event_to hs hnext, finish_stb _ _, finish_raised _ _ (List.mem_append_right _ List.mem_cons_self),
    ((((OnlyChanges.refl _ s).stb _).raised _).finish s)⟩

end Start

/-! ### The blocks sent (R186, R187) -/

section Sent

variable {s : State} {r : Run} {c : Container} (hr : s.cde.run = some r) (hu : r.user = .drain)
  (hc : s.cde.container = some c)
include hu hc

/-- A block with its mark and its fields. -/
def blockOf (mark : List Byte) (fields : List Nat) : List Byte := padTo 512 (mark ++ fields.flatMap (le 4))

theorem fixedBlock_header (hst : c.stage = .header) : fixedBlock r s = some c.header := by
  simp only [fixedBlock, hu, hc, hst]

theorem fixedBlock_commit {g : Geometry} (hst : c.stage = .commit) (hg : s.cde.geometry = some g) : fixedBlock r s =
    some (blockOf [0x4B, 0x56, 0x43, 0x4F, 0x4D, 0x4D, 0x49, 0x54] [g.formatId, c.index, c.shot, c.start, c.crc.toNat, (crc32 c.header).toNat]) := by
  have hmark : commitMark = [0x4B, 0x56, 0x43, 0x4F, 0x4D, 0x4D, 0x49, 0x54] := rfl
  simp only [fixedBlock, hu, hc, hst, hg, Option.getD_some, commitBlock, hmark, blockOf, List.flatMap_cons, List.flatMap_nil,
    List.append_assoc, List.append_nil]

theorem fixedBlock_log {g : Geometry} {size : Nat} (hst : c.stage = .logUpdate) (hg : s.cde.geometry = some g)
    (hsize : s.cde.capacity = some size) : fixedBlock r s =
      some (blockOf [0x4B, 0x56, 0x53, 0x48, 0x4F, 0x54, 0x4C, 0x47] [512, size, g.nextFree, g.count, g.highest, g.formatId]) := by
  have hcapacity : capacityOf s = size := by
    rw [capacityOf, hsize]
    rfl
  have hmark : logMark = [0x4B, 0x56, 0x53, 0x48, 0x4F, 0x54, 0x4C, 0x47] := rfl
  simp only [fixedBlock, hu, hc, hst, hg, hcapacity, Option.getD_some, logHeaderBlock, hmark, blockOf, List.flatMap_cons,
    List.flatMap_nil, List.append_assoc, List.append_nil]

theorem fixedBlock_data (hst : c.stage = .data) : fixedBlock r s = none := by
  simp only [fixedBlock, hu, hc, hst]

variable (ha : r.stage = .acking) (hw : r.write = true)
include hr ha hw

omit hu hc in
theorem ack_sends (hs : s.resetHeld = false) {data : List Byte} (hblock : fixedBlock r s = some data) :
    Becomes (.cardResponse true) s (blockSent data r s.cde) := by
  refine becomes_of hs (exec_cardResponse true s) ?_
  simp only [responseArrived, hr, ha, if_pos, acknowledged, hw, nextBlock, hblock]
  exact sendBlock_eq hr _

theorem ack_fetches (hs : s.resetHeld = false) (hst : c.stage = .data) (hmore : dataOffset r c < c.pitch * c.lines) :
    ∃ t, exec (.cardResponse true) s = .next t ∧
      t.cde = { s.cde with block := [], busTimer := none, run := some { r with stage := .fetching } } ∧
      Presented .slotRead (slotAddr s.stb c.slot + dataOffset r c) (min 64 (min 512 (c.pitch * c.lines - dataOffset r c))) t ∧
      OnlyChanges [.cde] s t := by
  set u := withCde { s.cde with block := [], busTimer := none, run := some { r with stage := .fetching } } s with hu'
  have hmod : modRun (fun r => { r with stage := .fetching }) (modCde (fun c => { c with block := [], busTimer := none }) s) = u := by
    simp only [modRun, modCde, hr, Option.map_some]
    rfl
  have hgo : responseArrived true s = fetchNext u := by
    simp only [responseArrived, hr, ha, if_pos, acknowledged, hw, nextBlock, fixedBlock_data hu hc hst, hmod]
  have hlen : u.cde.block.length = 0 := rfl
  have hoffset : dataOffset { r with stage := .fetching } c = dataOffset r c := rfl
  have hread := fetchNext_reads (u := u) (r := { r with stage := .fetching }) rfl hc (by
    rw [hlen, hoffset]
    exact Nat.lt_min.2 ⟨by decide, Nat.sub_pos_of_lt hmore⟩)
  rw [hlen, hoffset, Nat.add_zero, Nat.sub_zero] at hread
  exact ⟨_, (exec_cardResponse true s).trans (event_to hs (hgo.trans hread)), finish_cde _ _,
    finish_presented _ _ (List.mem_append_right _ List.mem_cons_self), ((((OnlyChanges.refl _ s).cde _).presented _).finish s)⟩

end Sent

end Sys2Proof.Machine
end

section
/-! PROOFS. The ends of a drain's runs (R186 to R190; O58). -/

namespace Sys2Proof.Machine

set_option Elab.async false

section Ends

variable {s : State} {c : Container} {d : Cde} {k : Nat}

/-- The runs of DATA in turn, and COMMIT after the last (R186, R187). -/
def follows (c : Container) (d : Cde) (done : Nat) : Cde := if done ≤ c.blocks
  then { d with container := some { c with stage := .data, done := done }, block := [], run := some ⟨.drain, true, c.start + done, min c.blocks (((done - 1) / 256 + 1) * 256) - (done - 1), 0, 0, 0, 0, false, .waiting⟩ }
  else { d with container := some { c with stage := .commit, done := done }, block := [], run := some ⟨.drain, true, c.start + c.blocks + 1, 1, 0, 0, 0, 0, false, .waiting⟩ }

theorem nextDataRun_follows {b : Container} (hstart : b.start = c.start) (hblocks : b.blocks = c.blocks) (hdone : b.done = k)
    (hk : 1 ≤ k) : nextDataRun b (withCde { d with container := some { c with stage := .data, done := k } } s) =
      withCde (follows c d k) s := by
  obtain ⟨f, rfl⟩ := Nat.exists_eq_add_of_le' hk
  rw [follows, Nat.add_sub_cancel]
  by_cases hf : f < b.blocks
  · have hle : f + 1 ≤ c.blocks := by omega
    have hnext : c.start + (f + 1) = c.start + 1 + f := by omega
    rw [nextDataRun_of_more hdone hf, if_pos hle, hstart, hblocks, hnext]
    rfl
  · have hle : ¬ f + 1 ≤ c.blocks := by omega
    have hlast : ¬ f < c.blocks := by omega
    rw [if_neg hle]
    simp only [nextDataRun, hdone, Nat.add_sub_cancel, hstart, hblocks, if_neg hlast]
    rfl

/-- The state in which the drain goes on from a run of `k` blocks. -/
def afterRun (c : Container) (k : Nat) (s : State) : State :=
  withCde { runEnded s.cde with container := some (c.counted k) } s

theorem endRun_drain {r : Run} (hr : s.cde.run = some r) (hu : r.user = .drain) (hc : s.cde.container = some c) (o : RunOutcome) :
    endRun o s = drainOn (o == .done) (c.counted r.done) (afterRun c r.done s) := by
  rw [endRun_eq hr, hu]
  exact drainEnded_of_some (s := withCde (runEnded s.cde) s) hc r.done _

theorem counted_of_header (h : c.stage = .header) (k : Nat) : c.counted k = { c with done := c.done + k } :=
  if_neg (by simp [h])

theorem counted_of_data (h : c.stage = .data) (k : Nat) : c.counted k = { c with stage := .data, done := c.done + k } := by
  rw [Container.counted, if_neg (by simp [h]), ← h]

theorem counted_of_later (h : c.stage = .commit ∨ c.stage = .logUpdate) (k : Nat) : c.counted k = c :=
  if_pos h.symm

section Run

variable {r : Run} (hr : s.cde.run = some r) (hu : r.user = .drain) (hc : s.cde.container = some c)
include hr hu hc

theorem busy_ends (hb : r.stage = .busy) (hd : r.done + 1 = r.count) :
    busyReleased s = drainOn true (c.counted r.count) (afterRun c r.count s) := by
  rw [← hd, busyReleased_eq hr hb, atBoundary_done rfl (by exact hd.ge)]
  exact endRun_drain (s := withCde { s.cde with run := some { r with done := r.done + 1, resends := 0 }, busTimer := none } s) rfl hu hc .done

theorem stop_ends (hst : r.stage = .stopping) : responseArrived true s = drainOn false (c.counted r.done) (afterRun c r.done s) :=
  (stopMark_answered hr hst).trans (endRun_drain hr hu hc .stopped)

end Run

/-- A header block is written: the data, or the commit of a container with none. -/
theorem drainOn_header (hst : c.stage = .header) (hp : c.park = false) (h0 : c.done = 0) :
    drainOn true (c.counted 1) (afterRun c 1 s) = withCde (follows c (runEnded s.cde) 1) s := by
  have hon : drainOn true (c.counted 1) (afterRun c 1 s) = nextDataRun (c.counted 1)
      (modContainer (fun c => { c with stage := .data }) (afterRun c 1 s)) := by
    rw [afterRun, counted_of_header hst]
    simp only [drainOn, hst, hp]
    rfl
  have hdata : modContainer (fun c => { c with stage := .data }) (afterRun c 1 s) =
      withCde { runEnded s.cde with container := some { c with stage := .data, done := 1 } } s := by
    rw [afterRun, counted_of_header hst, h0]
    rfl
  rw [hon, hdata]
  refine nextDataRun_follows ?_ ?_ ?_ (Nat.le_refl 1) <;> rw [counted_of_header hst]
  rw [h0]

theorem drainOn_header_again (hst : c.stage = .header) (hp : c.park = false) (k : Nat) :
    drainOn false (c.counted k) (afterRun c k s) = withCde { runEnded s.cde with
      container := some { c with done := c.done + k }, run := some ⟨.drain, true, c.start, 1, 0, 0, 0, 0, false, .waiting⟩ } s := by
  rw [afterRun, counted_of_header hst]
  simp only [drainOn, hst, hp]
  rfl

theorem drainOn_data (hst : c.stage = .data) (hp : c.park = false) (h1 : 1 ≤ c.done) (k : Nat) (all : Bool) :
    drainOn all (c.counted k) (afterRun c k s) = withCde (follows c (runEnded s.cde) (c.done + k)) s := by
  rw [afterRun, counted_of_data hst]
  have hon : drainOn all { c with stage := .data, done := c.done + k }
      (withCde { runEnded s.cde with container := some { c with stage := .data, done := c.done + k } } s) =
      nextDataRun { c with stage := .data, done := c.done + k }
        (withCde { runEnded s.cde with container := some { c with stage := .data, done := c.done + k } } s) := by
    simp only [drainOn, hp]
    rfl
  rw [hon]
  exact nextDataRun_follows rfl rfl rfl (by omega)

theorem drainOn_parks (hst : c.stage = .header ∨ c.stage = .data) (hp : c.park = true) (k : Nat) (all : Bool) :
    drainOn all (c.counted k) (afterRun c k s) = containerParked (afterRun c k s) := by
  have hcount : (c.counted k).stage = c.stage ∧ (c.counted k).park = c.park := by
    unfold Container.counted
    split <;> exact ⟨rfl, rfl⟩
  rcases hst with hst | hst <;>
    simp only [drainOn, hcount.1, hcount.2, hst, hp, if_true]

/-- A run of HEADER or DATA comes to a park. -/
theorem returns_of_run {i : Instr} {f : State → State} {all : Bool} (hs : s.resetHeld = false) (hi : exec i s = event s f)
    (hst : c.stage = .header ∨ c.stage = .data) (hp : c.park = true)
    (hf : f s = drainOn all (c.counted k) (afterRun c k s)) : Returns i s c := by
  have hcount : (c.counted k).shot = c.shot ∧ (c.counted k).stage = c.stage := by
    unfold Container.counted
    split <;> exact ⟨rfl, rfl⟩
  refine parked_of (u := afterRun c k s) (k := c.counted k) hs hi (hf.trans (drainOn_parks hst hp k all)) rfl hcount.1 ?_ rfl rfl
    ⟨rfl, rfl, rfl⟩ ((OnlyChanges.refl _ s).cde _)
  rw [hcount.2]
  rcases hst with hst | hst <;> simp [hst]

/-! ### Commit and log update (R187) -/

/-- The table with a record STORED. -/
def storedIn (n : Nat) (t : Stb) : Stb := (t.move n .stored).update n fun r => { r with store := .stored }

/-- The card that has the commit block written. -/
def committed (g : Geometry) (c : Container) (d : Cde) : Cde := { d with
  geometry := some ⟨c.start + c.blocks + 2, (g.count + 1) % 4294967296, max g.highest c.shot, g.formatId⟩, container := some { c with stage := .logUpdate, done := c.blocks + 2 }, block := [], run := some ⟨.drain, true, 0, 1, 0, 0, 0, 0, false, .waiting⟩ }

theorem drainOn_commit {g : Geometry} (hst : c.stage = .commit) (hg : s.cde.geometry = some g) (k : Nat) :
    drainOn true (c.counted k) (afterRun c k s) =
      withCde (committed g c (runEnded s.cde)) (raise .stored (withStb (storedIn c.shot s.stb) s)) := by
  have hgeometry : (runEnded s.cde).geometry = some g := hg
  rw [afterRun, counted_of_later (.inl hst)]
  simp only [drainOn, hst, if_true, commitDone, modCde, modContainer, withCde, hgeometry, Option.map_some]
  rfl

theorem drain_commits {r : ShotRecord} {j : Nat} {g : Geometry} {i : Instr} {f : State → State} (hs : s.resetHeld = false)
    (hi : exec i s = event s f) (hst : c.stage = .commit) (hg : s.cde.geometry = some g)
    (hf : f s = drainOn true (c.counted k) (afterRun c k s)) (h : s.stb.find c.shot = some r) (hp : r.phase = .storing)
    (hj : r.slot = some j) (hl : j < s.stb.slots.length) : ∃ t, exec i s = .next t ∧
      t.stb.find c.shot = some { r with phase := .stored, store := .stored } ∧ t.stb.slotState j = .retained ∧
      t.stb.retained = s.stb.retained ++ [j] ∧ (∀ n, n ≠ c.shot → t.stb.find n = s.stb.find n) ∧
      t.cde = committed g c (runEnded s.cde) ∧ Raised .stored t ∧ OnlyChanges [.cde, .stb] s t := by
  have hm : moveAllowed r.phase .stored = true := by rw [hp]; rfl
  refine ⟨_, hi.trans (event_to hs (hf.trans (drainOn_commit hst hg k))), ?_, ?_, ?_, fun n hn => ?_, finish_cde _ _,
    finish_raised _ _ (List.mem_append_right _ List.mem_cons_self), ((((OnlyChanges.refl _ s).stb _).raised _).cde _).finish s⟩
  · rw [finish_stb]
    exact Stb.find_update (f := fun r => { r with store := .stored }) (fun _ => rfl) (Stb.find_move_kept h hm rfl)
  · rw [finish_stb]
    exact Stb.slotState_move_kept h hm rfl hj hl
  · rw [finish_stb]
    show (s.stb.move c.shot .stored).retained = _
    simp only [Stb.move, h, hp, hj]
    rfl
  · rw [finish_stb]
    exact (Stb.find_update_other (f := fun r => { r with store := .stored }) (fun _ => rfl) hn).trans (Stb.find_move_other h hn)

theorem drain_over {i : Instr} {f : State → State} (hs : s.resetHeld = false) (hi : exec i s = event s f)
    (hst : c.stage = .logUpdate) (hf : f s = drainOn true (c.counted k) (afterRun c k s)) (howed : s.cde.parkOwed = false) :
    ∃ t, exec i s = .next t ∧ t.cde = { runEnded s.cde with container := none, state := .ready } ∧ t.stb = s.stb ∧
      OnlyChanges [.cde, .port] s t := by
  have hnext : drainOn true (c.counted k) (afterRun c k s) = becomeReady (dropContainer (afterRun c k s)) := by
    rw [counted_of_later (.inr hst)]
    simp only [drainOn, hst, if_true]
  have hready := becomeReady_stays (u := dropContainer (afterRun c k s)) fun h => by
    have hno : s.cde.parkOwed = true := h.1
    simp [howed] at hno
  refine ⟨_, hi.trans (event_to hs (hf.trans (hnext.trans hready))), finish_cde _ _, finish_stb _ _, ?_⟩
  exact ((((OnlyChanges.refl _ s).cde _).andThen (dropContainer_frame (afterRun c k s))).cde _).finish s

/-! ### A write that fails (R173, R189) -/

theorem enterFault_container (hc : s.cde.container = some c) (hn : c.stage ≠ .logUpdate) (hreads : s.cde.reads = [])
    (hserving : s.cde.serving = none) (hp : s.cde.pwrEn = true) : enterFault .writeFail s = raiseCard .cardFault
      (withPins { s.pins with overcurrent := false } (withCde
        { down .fault (dropped { s.cde with container := none }) with state := .fault, faultCause := .writeFail }
        (withStb (heldAgain .writeFail c.shot s.stb) (dropContainer s)))) := by
  rw [enterFault, loseCard_container hc hn hreads hserving]
  refine (congrArg (fun u => raiseCard .cardFault (modCde (fun c => { c with state := .fault, faultCause := .writeFail, rampTimer := none }) u)) (if_pos hp)).trans ?_
  rfl

theorem write_fails {r : Run} {v : ShotRecord} {j : Nat} (hs : s.resetHeld = false) (hr : s.cde.run = some r) (ht : r.stage = .token)
    (hc : s.cde.container = some c) (hn : c.stage ≠ .logUpdate) (hended : s.cde.ended = []) (hreads : s.cde.reads = [])
    (hserving : s.cde.serving = none) (hp : s.cde.pwrEn = true) (hv : s.stb.find c.shot = some v) (hph : v.phase = .storing)
    (hj : v.slot = some j) (hl : j < s.stb.slots.length) : ∃ t, exec (.cardWriteToken .writeFail) s = .next t ∧ t.cde.state = .fault ∧
      t.cde.faultCause = .writeFail ∧ t.cde.run = none ∧ t.cde.container = none ∧ t.cde.geometry = none ∧
      t.cde.pwrEn = false ∧ t.cde.rail = .discharging ∧ t.stb.find c.shot = some { v with phase := .held, store := .writeFail } ∧
      t.stb.slotState j = .held ∧ Raised .cardFault t ∧ OnlyChanges [.cde, .pins, .stb, .port] s t := by
  set w := withPins { s.pins with overcurrent := false } (withCde
    { down .fault (dropped { s.cde with container := none }) with state := .fault, faultCause := .writeFail }
    (withStb (heldAgain .writeFail c.shot s.stb) (dropContainer s))) with hw
  obtain ⟨hcde, hraise, hframe, hstb, -⟩ := raiseCard_spec .cardFault w
  obtain ⟨hfind, hslot, -⟩ := Stb.returned .writeFail hv hph hj hl
  have htable : (raiseCard .cardFault w).stb = heldAgain .writeFail c.shot s.stb := hstb
  have hgo := (takeToken_eq hr ht .writeFail).trans (enterFault_container hc hn hreads hserving hp)
  have hbase : OnlyChanges [.cde, .pins, .stb, .port] s w := (((dropContainer_frame s).within.stb _).cde _).pins _
  refine ⟨_, (exec_cardWriteToken .writeFail s).trans (event_to hs hgo), ?_, ?_, ?_, ?_, ?_, ?_, ?_, ?_, ?_,
    finish_raised _ _ (hraise hended), (hbase.andThen hframe).finish s⟩
  case refine_8 =>
    rw [finish_stb, htable]
    exact hfind
  case refine_9 =>
    rw [finish_stb, htable]
    exact hslot
  all_goals
    rw [finish_cde, hcde]
    rfl

end Ends

end Sys2Proof.Machine
end

section
/-! PROOFS. QUIET_REQ falling with the wait limit, and the result of a card read (R45, R161, R188, R193; O58). -/

namespace Sys2Proof.Machine

set_option Elab.async false

/-! ### A shot left keeps the card and the port (R45, R51) -/

/-- The card, the port, the monitor and QUIET_REQ. -/
def cardFields (s : State) := (s.cde, s.fmc, s.amn, s.exs.quietReq)

section Left

variable (s : State)

theorem moveShot_cardFields (p : Phase) : cardFields (moveShot p s) = cardFields s := by
  unfold moveShot
  split <;> rfl

theorem setDebounce_cardFields (n : Nat) : cardFields (setDebounce n s) = cardFields s := by
  unfold setDebounce
  dsimp only
  split
  · split
    · unfold acceptIdle
      dsimp only
      split <;> rfl
    · rfl
  · rfl

theorem returnIdle_cardFields : cardFields (returnIdle s) = (s.cde, s.fmc, s.amn, false) := by
  rw [returnIdle, setDebounce_cardFields]
  rfl

theorem releaseProfile_cardFields (n : Nat) : cardFields (releaseProfile n s) = cardFields s := by
  unfold releaseProfile
  split
  · split
    · rfl
    · rfl
  · rfl

variable {s} {e : Exposure}

/-- The wait limit runs out with the card, the port and the monitor as the fall of QUIET_REQ leaves them. -/
theorem waitLimit_cardFields (hs : s.resetHeld = false) (hseq : s.exs.seq = .waiting) (hcur : s.exs.current = some e)
    (hm : e.mode ≠ .timed) : ∃ u, exec .waitLimitExpiry s = .next (finish s u) ∧
    cardFields u = ((releaseLines s).cde, (releaseLines s).fmc, (releaseLines s).amn, false) := by
  have hmode : ¬ shotMode s = some .timed := by simpa [shotMode, hcur] using hm
  refine ⟨_, by
    rw [exec_waitLimitExpiry]
    exact event_to hs ((whenIn_of_eq hseq _).trans (if_neg hmode)), ?_⟩
  have hleave : leaveShot .expired s =
      releaseProfile e.profile (returnIdle (moveShot .expired (releaseLines s))) := by
    simp only [leaveShot, hcur]
  have hraise (u : State) : cardFields (raise .expired u) = cardFields u := rfl
  rw [expireShot, hleave, hraise, releaseProfile_cardFields, returnIdle_cardFields]
  have hmove := moveShot_cardFields (releaseLines s) .expired
  simp only [cardFields, Prod.mk.injEq] at hmove
  obtain ⟨hcde, hfmc, hamn, -⟩ := hmove
  rw [hcde, hfmc, hamn]

end Left

section Fall

variable {s : State} {e : Exposure} (hs : s.resetHeld = false) (hseq : s.exs.seq = .waiting)
  (hcur : s.exs.current = some e) (hm : e.mode ≠ .timed)
include hs hseq hcur hm

/-- QUIET_REQ low, and the lines of the exposure. -/
def unquiet (s : State) : State :=
  withExs { s.exs with quietReq := false, snsFlush := false, snsInteg := false, readyOut := false } s

/-- SUMMING goes on when QUIET_REQ falls (R188). -/
theorem waitLimit_sums {c : Container} (hc : s.cde.container = some c) (hst : c.stage = .summing) (hp : c.park = false)
    (hmore : c.summed < c.pitch * c.lines) (hup : s.cde.powerUp ≠ some .quiet)
    (hpending : ∀ x ∈ s.fmc.pending, x.kind ≠ .slotRead) (hactive : ∀ x, s.fmc.active = some x → x.kind ≠ .slotRead) :
    ∃ t, exec .waitLimitExpiry s = .next t ∧ t.exs.quietReq = false ∧ t.cde = s.cde ∧
      Presented .slotRead (slotAddr s.stb c.slot + c.summed) (min 64 (c.pitch * c.lines - c.summed)) t := by
  obtain ⟨u, hexec, hu⟩ := waitLimit_cardFields hs hseq hcur hm
  have hout : slotReadOut (unquiet s) = false := by
    have hwait : (s.fmc.pending.any fun t => t.kind == .slotRead) = false :=
      List.any_eq_false.2 fun x hx => by simp [hpending x hx]
    have hbusy : (s.fmc.active.any fun t => t.kind == .slotRead) = false := by
      rcases h : s.fmc.active with _ | x
      · rfl
      · simp [hactive x h]
    show ((s.fmc.pending.any fun t => t.kind == .slotRead) || s.fmc.active.any fun t => t.kind == .slotRead) = false
    rw [hwait, hbusy]
    rfl
  have hfall : releaseLines s = sumNext (unquiet s) := by
    have hno : ¬ (unquiet s).cde.powerUp = some .quiet := hup
    show quietFell (unquiet s) = _
    simp only [quietFell, if_neg hno, hout]
    rfl
  rw [hfall, sumNext_reads (u := unquiet s) hc hst hp hmore (.inl rfl)] at hu
  simp only [cardFields, Prod.mk.injEq] at hu
  obtain ⟨hcde, hfmc, -, hquiet⟩ := hu
  refine ⟨_, hexec, ?_, ?_, finish_presented _ _ ?_⟩
  · rw [finish_exs, hquiet]
  · rw [finish_cde, hcde]
    rfl
  · rw [Presented, hfmc]
    exact List.mem_append_right _ List.mem_cons_self

/-- A held power-up asks for its reading when QUIET_REQ falls (R161). -/
theorem waitLimit_powersUp (hc : s.cde.container = none) (hup : s.cde.powerUp = some .quiet) (hq : Demand.card ∉ s.amn.queue) :
    ∃ t, exec .waitLimitExpiry s = .next t ∧ t.exs.quietReq = false ∧ t.cde = { s.cde with powerUp := some .reading } ∧
      t.amn.queue = s.amn.queue ++ [.card] := by
  obtain ⟨u, hexec, hu⟩ := waitLimit_cardFields hs hseq hcur hm
  set w := withAmn { s.amn with queue := s.amn.queue ++ [.card] } (withCde { s.cde with powerUp := some .reading } (unquiet s)) with hw
  have hfall : releaseLines s = w := by
    have hyes : (unquiet s).cde.powerUp = some .quiet := hup
    have hask : ask .card (modCde (fun c => { c with powerUp := some .reading }) (unquiet s)) = w :=
      (ask_card (s := modCde (fun c => { c with powerUp := some .reading }) (unquiet s)) hq).trans rfl
    have hsum : sumNext w = w := by
      have hnone : w.cde.container = none := hc
      simp only [sumNext, hnone]
    show quietFell (unquiet s) = _
    simp only [quietFell, if_pos hyes, hask, hsum]
    split <;> rfl
  rw [hfall] at hu
  simp only [cardFields, Prod.mk.injEq] at hu
  obtain ⟨hcde, -, hamn, hquiet⟩ := hu
  refine ⟨_, hexec, ?_, ?_, ?_⟩
  · rw [finish_exs, hquiet]
  · rw [finish_cde, hcde]
    rfl
  · rw [finish_amn_queue, hamn]
    rfl

end Fall

end Sys2Proof.Machine
end

section
/-! PROOFS. The result of a card read (R176, R193; O58). -/

namespace Sys2Proof.Machine

set_option Elab.async false

/-! ### The entry a result goes to -/

/-- How long ago an entry got its result; an empty one is older than any. -/
def resultAge (last : Nat) : Option ReadResult → Nat
  | none => 4294967296
  | some r => (last + 4294967296 - r.number) % 4294967296

theorem resultEntry_eq (last : Nat) (results : List (Option ReadResult)) : resultEntry last results =
    ((results.map (resultAge last)).findIdx? fun a => (results.map (resultAge last)).all fun b => decide (b ≤ a)).getD 0 := rfl

/-- An oldest of some ages stands at the place found. -/
theorem oldest_found {ages : List Nat} (h : ages ≠ []) : ∃ k a, (ages.findIdx? fun a => ages.all fun b => decide (b ≤ a)) = some k ∧
    ages[k]? = some a ∧ ∀ b ∈ ages, b ≤ a := by
  obtain ⟨m, hm⟩ := Option.isSome_iff_exists.1 (List.isSome_max?_of_ne_nil h)
  obtain ⟨hin, hmax⟩ := List.max?_eq_some_iff.1 hm
  have hfound : (ages.findIdx? fun a => ages.all fun b => decide (b ≤ a)).isSome = true := by
    rw [List.findIdx?_isSome]
    exact List.any_eq_true.2 ⟨m, hin, List.all_eq_true.2 fun b hb => decide_eq_true (hmax b hb)⟩
  obtain ⟨k, hk⟩ := Option.isSome_iff_exists.1 hfound
  obtain ⟨hlt, hold, -⟩ := List.findIdx?_eq_some_iff_getElem.1 hk
  exact ⟨k, ages[k], hk, List.getElem?_eq_getElem hlt, fun b hb => of_decide_eq_true (List.all_eq_true.1 hold b hb)⟩

theorem resultEntry_chosen {last : Nat} {results : List (Option ReadResult)} (hl : results.length = 4)
    (hn : ∀ r, some r ∈ results → r.number ≤ last ∧ last < 4294967296) : resultEntry last results < 4 ∧
      (results[resultEntry last results]? = some none ∨ ∃ r, results[resultEntry last results]? = some (some r) ∧
        ∀ q ∈ results, ∃ u, q = some u ∧ r.number ≤ u.number) := by
  obtain ⟨k, a, hk, ha, hold⟩ := oldest_found (ages := results.map (resultAge last))
    (List.ne_nil_of_length_pos (by simp [hl]))
  have hentry : resultEntry last results = k := by
    rw [resultEntry_eq, hk]
    rfl
  rw [List.getElem?_map, Option.map_eq_some_iff] at ha
  obtain ⟨x, hx, rfl⟩ := ha
  obtain ⟨hlt, -⟩ := List.getElem?_eq_some_iff.1 hx
  have age_some {r : ReadResult} (h : some r ∈ results) : resultAge last (some r) = last - r.number := by
    have := hn r h
    simp only [resultAge]
    omega
  rw [hentry]
  refine ⟨hl ▸ hlt, ?_⟩
  rcases x with _ | r
  · exact .inl hx
  · have hr : some r ∈ results := List.mem_of_getElem? hx
    have hage := age_some hr
    have hbound := hn r hr
    refine .inr ⟨r, hx, fun q hq => ?_⟩
    have hle := hold _ (List.mem_map_of_mem hq)
    rw [hage] at hle
    rcases q with _ | u
    · simp only [resultAge] at hle
      omega
    · rw [age_some hq] at hle
      have := hn u hq
      exact ⟨u, rfl, by omega⟩

/-! ### The events that waited -/

/-- A list of events raised. -/
def raiseAll (fs : List EventFlag) (s : State) : State := fs.foldl (fun s f => raise f s) s

theorem raiseAll_spec (fs : List EventFlag) (s : State) : (raiseAll fs s).cde = s.cde ∧ (raiseAll fs s).amn = s.amn ∧
    (raiseAll fs s).rqe.raises = s.rqe.raises ++ fs.map (fun f => ⟨f, none⟩) ∧ OnlyChanges [] s (raiseAll fs s) := by
  induction fs generalizing s with
  | nil => exact ⟨rfl, rfl, (List.append_nil _).symm, OnlyChanges.refl _ s⟩
  | cons f fs ih =>
    obtain ⟨hcde, hamn, hraises, hframe⟩ := ih (raise f s)
    refine ⟨hcde, hamn, hraises.trans ?_, ((OnlyChanges.refl _ s).raised f).andThen hframe⟩
    rw [List.map_cons, List.append_cons]
    rfl

/-! ### The result written (R193) -/

section Result

variable {s : State} {e : EndedRead} {more : List EndedRead}

/-- The number of the next result. -/
def nextResult (c : Cde) : Nat := (c.resultNo + 1) % 4294967296

/-- The card with the result of an ended read written. -/
def resultCde (e : EndedRead) (more : List EndedRead) (c : Cde) : Cde := { c with
  ended := more, resultNo := nextResult c, results := c.results.set (resultEntry c.resultNo c.results) (some ⟨e.tag, e.outcome, e.done, nextResult c⟩) }

/-- The result written and told, with the card events that waited for the last one. -/
def resultTold (e : EndedRead) (more : List EndedRead) (s : State) : State :=
  if more = [] then withCde { resultCde e more s.cde with owed := [] }
    (raiseAll s.cde.owed (raise .cardReadDone (withCde (resultCde e more s.cde) s)))
  else raise .cardReadDone (withCde (resultCde e more s.cde) s)

/-- What a written result says and leaves. -/
structure ResultWritten (e : EndedRead) (more : List EndedRead) (s u : State) : Prop where
  cde : ∃ fs, u.cde = { resultCde e more s.cde with owed := fs } ∧ (more = [] → fs = []) ∧ (more ≠ [] → fs = s.cde.owed)
  amn : u.amn = s.amn
  raises : (⟨.cardReadDone, none⟩ : Raise) ∈ u.rqe.raises ∧ (more = [] → ∀ f ∈ s.cde.owed, (⟨f, none⟩ : Raise) ∈ u.rqe.raises)
  frame : OnlyChanges [.cde] s u

theorem resultTold_spec (e : EndedRead) (more : List EndedRead) (s : State) : ResultWritten e more s (resultTold e more s) := by
  set w := raise .cardReadDone (withCde (resultCde e more s.cde) s) with hw
  have hframe : OnlyChanges [.cde] s w := ((OnlyChanges.refl _ s).cde _).raised _
  have hdone : (⟨.cardReadDone, none⟩ : Raise) ∈ w.rqe.raises := List.mem_append_right _ List.mem_cons_self
  by_cases h : more = []
  · obtain ⟨hcde, hamn, hraises, hrest⟩ := raiseAll_spec s.cde.owed w
    have htold : resultTold e more s = withCde { resultCde e more s.cde with owed := [] } (raiseAll s.cde.owed w) := if_pos h
    rw [htold]
    refine ⟨⟨[], rfl, fun _ => rfl, fun hn => absurd h hn⟩, hamn, ⟨?_, fun _ f hf => ?_⟩, (hframe.andThen (hrest.within (ps := [.cde]))).cde _⟩
    · exact hraises ▸ List.mem_append_left _ hdone
    · exact hraises ▸ List.mem_append_right _ (List.mem_map_of_mem hf)
  · have htold : resultTold e more s = w := if_neg h
    rw [htold]
    exact ⟨⟨s.cde.owed, rfl, fun hn => absurd hn h, fun _ => rfl⟩, rfl, ⟨hdone, fun hn => absurd hn h⟩, hframe⟩

theorem writeResult_eq (h : s.cde.ended = e :: more) : writeResult s =
    if s.cde.state = .reading ∧ s.cde.serving = none ∧ more = [] then becomeReady (resultTold e more s)
    else resultTold e more s := by
  have hraised (hm : more = []) : raiseOwed (raise .cardReadDone (withCde (resultCde e more s.cde) s)) = resultTold e more s := by
    obtain ⟨hcde, -, -, -⟩ := raiseAll_spec s.cde.owed (raise .cardReadDone (withCde (resultCde e more s.cde) s))
    rw [resultTold, if_pos hm]
    show withCde { (raiseAll s.cde.owed (raise .cardReadDone (withCde (resultCde e more s.cde) s))).cde with owed := [] } _ = _
    rw [hcde]
    rfl
  have htold : (if more = [] then raiseOwed (raise .cardReadDone (withCde (resultCde e more s.cde) s))
      else raise .cardReadDone (withCde (resultCde e more s.cde) s)) = resultTold e more s := by
    by_cases hm : more = []
    · rw [if_pos hm, hraised hm]
    · rw [if_neg hm, resultTold, if_neg hm]
  have hfields : (resultTold e more s).cde.state = s.cde.state ∧ (resultTold e more s).cde.serving = s.cde.serving := by
    obtain ⟨fs, hcde, -⟩ := (resultTold_spec e more s).cde
    rw [hcde]
    exact ⟨rfl, rfl⟩
  have hwrite : writeResult s = if (resultTold e more s).cde.state = .reading ∧ (resultTold e more s).cde.serving = none ∧ more = []
      then becomeReady (resultTold e more s) else resultTold e more s := by
    rw [← htold]
    simp only [writeResult, h]
    rfl
  rw [hwrite, hfields.1, hfields.2]

theorem exec_cardReadResultWrite (s : State) : exec .cardReadResultWrite s =
    event s fun s => if cardWritesLeft s then s else writeResult s := rfl

theorem result_written (hs : s.resetHeld = false) (h : s.cde.ended = e :: more)
    (hpending : ∀ x ∈ s.fmc.pending, x.kind ≠ .cardWrite) :
    ∃ t, exec .cardReadResultWrite s = .next t ∧ t.cde.ended = more ∧ t.cde.resultNo = nextResult s.cde ∧
      t.cde.results = s.cde.results.set (resultEntry s.cde.resultNo s.cde.results) (some ⟨e.tag, e.outcome, e.done, nextResult s.cde⟩) ∧
      Raised .cardReadDone t ∧
      (more = [] → t.cde.owed = [] ∧ ∀ f ∈ s.cde.owed, Raised f t) ∧ (more ≠ [] → t.cde.owed = s.cde.owed) ∧
      (s.cde.state = .reading → s.cde.serving = none → more = [] → s.cde.parkOwed = false → t.cde.state = .ready) ∧
      (s.cde.state = .reading → s.cde.serving = none → more = [] → s.cde.parkOwed = true → s.cde.reads = [] →
        s.amn.battLevel = .critical → t.cde.state = .discharging ∧ t.cde.dischargeFor = .park ∧ t.cde.pwrEn = false) ∧
      (s.cde.parkOwed = false → OnlyChanges [.cde] s t) := by
  have hleft : cardWritesLeft s = false := List.any_eq_false.2 fun x hx => by simp [hpending x hx]
  have hto {v : State} (hv : writeResult s = v) : exec .cardReadResultWrite s = .next (finish s v) :=
    (exec_cardReadResultWrite s).trans (event_to hs ((if_neg (by simp [hleft])).trans hv))
  obtain ⟨⟨fs, hcde, hnone, hkept⟩, hamn, ⟨hdone, howed⟩, hframe⟩ := resultTold_spec e more s
  set u := resultTold e more s with hu
  have hwrite := writeResult_eq h
  by_cases hlast : s.cde.state = .reading ∧ s.cde.serving = none ∧ more = []
  · obtain ⟨hst, hserving, hm⟩ := hlast
    rw [if_pos ⟨hst, hserving, hm⟩, ← hu] at hwrite
    obtain ⟨d, hdcde, -, -, ⟨hended, hresults, hno, hdowed⟩, hstays, hparks, -, hrqe, hready, hready'⟩ := becomeReady_spec u
    have hdue : ParkDue u ↔ s.cde.parkOwed = true ∧ s.cde.reads = [] ∧ s.amn.battLevel = .critical := by
      rw [ParkDue, hcde, hamn]
      rfl
    refine ⟨_, hto hwrite, ?_, ?_, ?_, finish_raised _ _ (hrqe ▸ hdone),
      fun _ => ⟨?_, fun f hf => finish_raised _ _ (hrqe ▸ howed hm f hf)⟩, fun hn => absurd hm hn,
      fun _ _ _ hp => ?_, fun _ _ _ hp hr hb => ?_, fun hp => ?_⟩
    · rw [finish_cde, hdcde, hended, hcde]
      rfl
    · rw [finish_cde, hdcde, hno, hcde]
      rfl
    · rw [finish_cde, hdcde, hresults, hcde]
      rfl
    · rw [finish_cde, hdcde, hdowed, hcde]
      exact hnone hm
    · rw [finish_cde, hdcde, hstays fun hd => by simp [hp] at hdue; exact hdue hd]
    · rw [finish_cde, hdcde]
      exact hparks (hdue.2 ⟨hp, hr, hb⟩)
    · exact (hframe.andThen (hready' fun hd => by simp [hp] at hdue; exact hdue hd)).finish s
  · rw [if_neg hlast, ← hu] at hwrite
    refine ⟨_, hto hwrite, ?_, ?_, ?_, finish_raised _ _ hdone,
      fun hm => ⟨?_, fun f hf => finish_raised _ _ (howed hm f hf)⟩, fun hn => ?_,
      fun hst hserving hm => absurd ⟨hst, hserving, hm⟩ hlast, fun hst hserving hm => absurd ⟨hst, hserving, hm⟩ hlast,
      fun _ => hframe.finish s⟩
    · rw [finish_cde, hcde]
      rfl
    · rw [finish_cde, hcde]
      rfl
    · rw [finish_cde, hcde]
      rfl
    · rw [finish_cde, hcde]
      exact hnone hm
    · rw [finish_cde, hcde]
      exact hkept hn

end Result

end Sys2Proof.Machine
end

section
/-! PROOFS. The work of a card, settled (O58). -/

namespace Sys2Proof.Machine

set_option Elab.async false

section Clauses

variable {s : State} {c : Container} (hs : s.resetHeld = false) (hc : s.cde.container = some c)
include hs hc

/-- What the runs of a drain send when their command is acknowledged. -/
theorem drain_sends {r : Run} {g : Geometry} {size : Nat} (hr : s.cde.run = some r) (hu : r.user = .drain)
    (hg : s.cde.geometry = some g) (hsize : s.cde.capacity = some size) (ha : r.stage = .acking) (hw : r.write = true) :
    (c.stage = .header → Becomes (.cardResponse true) s (blockSent c.header r s.cde)) ∧
    (c.stage = .commit → Becomes (.cardResponse true) s (blockSent (blockOf [0x4B, 0x56, 0x43, 0x4F, 0x4D, 0x4D, 0x49, 0x54] [g.formatId, c.index, c.shot, c.start, c.crc.toNat, (crc32 c.header).toNat]) r s.cde)) ∧
    (c.stage = .logUpdate → Becomes (.cardResponse true) s (blockSent (blockOf [0x4B, 0x56, 0x53, 0x48, 0x4F, 0x54, 0x4C, 0x47] [512, size, g.nextFree, g.count, g.highest, g.formatId]) r s.cde)) :=
  ⟨fun hst => ack_sends hr ha hw hs (fixedBlock_header hu hc hst),
    fun hst => ack_sends hr ha hw hs (fixedBlock_commit hu hc hst hg),
    fun hst => ack_sends hr ha hw hs (fixedBlock_log hu hc hst hg hsize)⟩

/-- Busy released at the end of a drain's run. -/
theorem drain_released {r : Run} {g : Geometry} (hr : s.cde.run = some r) (hu : r.user = .drain)
    (hg : s.cde.geometry = some g) (hb : r.stage = .busy) (hd : r.done + 1 = r.count) :
    (c.stage = .header → c.done = 0 → r.done = 0 →
      (c.park = false → Becomes .cardBusyRelease s (follows c (runEnded s.cde) 1)) ∧
      (c.park = true → Returns .cardBusyRelease s c)) ∧
    (c.stage = .data → 1 ≤ c.done →
      (c.park = false → Becomes .cardBusyRelease s (follows c (runEnded s.cde) (c.done + r.count))) ∧
      (c.park = true → Returns .cardBusyRelease s c)) ∧
    (c.stage = .commit → ∀ v j, s.stb.find c.shot = some v → v.phase = .storing → v.slot = some j →
      j < s.stb.slots.length → ∃ t, exec .cardBusyRelease s = .next t ∧
        t.stb.find c.shot = some { v with phase := .stored, store := .stored } ∧ t.stb.slotState j = .retained ∧
        t.stb.retained = s.stb.retained ++ [j] ∧ (∀ n, n ≠ c.shot → t.stb.find n = s.stb.find n) ∧
        t.cde = committed g c (runEnded s.cde) ∧ Raised .stored t ∧ OnlyChanges [.cde, .stb] s t) ∧
    (c.stage = .logUpdate → s.cde.parkOwed = false → ∃ t, exec .cardBusyRelease s = .next t ∧
      t.cde = { runEnded s.cde with container := none, state := .ready } ∧ t.stb = s.stb ∧ OnlyChanges [.cde, .port] s t) := by
  have hexec := exec_cardBusyRelease s
  have hends := busy_ends hr hu hc hb hd
  refine ⟨fun hst h0 hr0 => ⟨fun hp => ?_, fun hp => returns_of_run hs hexec (.inl hst) hp hends⟩,
    fun hst h1 => ⟨fun hp => becomes_of hs hexec (hends.trans (drainOn_data hst hp h1 _ true)),
      fun hp => returns_of_run hs hexec (.inr hst) hp hends⟩,
    fun hst v j hv hph hj hl => drain_commits hs hexec hst hg hends hv hph hj hl,
    fun hst howed => drain_over hs hexec hst hends howed⟩
  have hone : r.count = 1 := by omega
  rw [hone] at hends
  exact becomes_of hs hexec (hends.trans (drainOn_header hst hp h0))

/-- The stop mark answered in a drain. -/
theorem drain_stopped {r : Run} (hr : s.cde.run = some r) (hu : r.user = .drain) (h : r.stage = .stopping) :
    (c.stage = .header → c.park = false → Becomes (.cardResponse true) s { runEnded s.cde with
      container := some { c with done := c.done + r.done }, run := some ⟨.drain, true, c.start, 1, 0, 0, 0, 0, false, .waiting⟩ }) ∧
    (c.stage = .data → 1 ≤ c.done → c.park = false → Becomes (.cardResponse true) s (follows c (runEnded s.cde) (c.done + r.done))) ∧
    (c.stage = .header ∨ c.stage = .data → c.park = true → Returns (.cardResponse true) s c) := by
  have hexec := exec_cardResponse true s
  have hends := stop_ends hr hu hc h
  exact ⟨fun hst hp => becomes_of hs hexec (hends.trans (drainOn_header_again hst hp _)),
    fun hst h1 hp => becomes_of hs hexec (hends.trans (drainOn_data hst hp h1 _ false)),
    fun hst hp => returns_of_run hs hexec hst hp hends⟩

end Clauses

/-- Settles O58: the next work, the drain by its reads and its runs, QUIET_REQ's fall, and a result written. -/
theorem cardWork : Obligations.CardWork := by
  unfold Obligations.CardWork
  intro s h
  refine ⟨fun hst hq => ⟨fun q more hr => ?_, fun hr hb => ?_, ?_⟩, ?_, ?_, ?_⟩
  · exact becomes_of h (exec_cardNextWork s) (nextWork_reads hst hq hr)
  · exact ⟨_, (exec_cardNextWork s).trans (event_to h (nextWork_critical hst hq hr hb)), (OnlyChanges.refl [] s).finish s⟩
  · intro before r after g pitch size i hr hb hrec hbefore hp hg hpitch hsize hslot hl n
    obtain ⟨hold, hfind⟩ := Stb.oldestHeld_of hrec hbefore hp
    exact ⟨fun hroom hsome => drain_starts h hst hq hr hb hold hg hpitch hsize hfind hp hslot hl hroom hsome,
      fun hfull => drain_full h hst hq hr hb hold hg hpitch hsize hfull⟩
  · intro c hc base total asks follows' becomes returns blockOf'
    refine ⟨?_, ?_⟩
    · intro x ha hk h8 hl8 hlen bytes clean bad reads summed sum
      refine ⟨fun hst hp => ⟨fun hmore hgo => sumRead_goesOn h ha hk h8 hlen hc hst hp hmore hgo,
          fun hmore hq hb hnone => sumRead_pauses h ha hk h8 hlen hc hst hp hmore hq hb hnone,
          fun hall g hg => sumRead_finishes h ha hk h8 hlen hc hst hp hall hg⟩,
        fun hst hp hclean hr hb => sumRead_parks h ha hk h8 hc hst hp hclean hr hb, ?_⟩
      intro r hst hr hf o n got
      exact ⟨fun hmore => fetch_goesOn h ha hk h8 hlen hc hst hr hf hmore,
        fun hall => fetch_sends h ha hk h8 hlen hc hst hr hf hall⟩
    · intro r g size hr hu hi hg hsize ends sends
      refine ⟨fun ha hw => ?_, fun hb hd => drain_released h hc hr hu hg hb hd, fun hst => drain_stopped h hc hr hu hst, ?_⟩
      · obtain ⟨hheader, hcommit, hlog⟩ := drain_sends h hc hr hu hg hsize ha hw
        exact ⟨hheader, hcommit, hlog, fun hst hmore => ack_fetches hr hu hc ha hw h hst hmore⟩
      · intro ht hp hn hended hreads hserving v j hv hph hj hl
        exact write_fails h hr ht hc hn hended hreads hserving hp hv hph hj hl
  · intro e hseq hcur hm
    exact ⟨fun c hc hst hp hmore hup hpending hactive =>
        waitLimit_sums h hseq hcur hm hc hst hp hmore hup hpending hactive,
      fun hc hup hq => waitLimit_powersUp h hseq hcur hm hc hup hq⟩
  · intro e more hended hpending hl hn no chosen
    obtain ⟨t, hexec, hrest⟩ := result_written h hended hpending
    exact ⟨t, resultEntry s.cde.resultNo s.cde.results, hexec, resultEntry_chosen hl hn, hrest⟩

end Sys2Proof.Machine
end
